-- ==== Sys2Proof/Word.lean ====
section
/-! DEFINITION. The word types of the Stavrum V2 (00 R3, 02 R54) and nothing else: bit-field helpers stand in
Machine/Bits.lean. -/

namespace Sys2Proof

/-- One byte of memory. -/
abbrev Byte := BitVec 8
/-- A vector register: 32 bits (02 R68). -/
abbrev Word := BitVec 32
/-- A uniform register, a special register or a global effective address: 64 bits (02 R61, R68). -/
abbrev DWord := BitVec 64
/-- A quad of vector registers, or the widest datum of one lane access (02 R60). -/
abbrev QWord := BitVec 128
/-- A virtual address: 57 significant bits (03 R92). -/
abbrev VAddr := BitVec 57
/-- One bit for each lane of a warp (01 R19). -/
abbrev Mask := BitVec 32
/-- An instruction slot: 96 bits (02 R54). -/
abbrev Slot := BitVec 96
/-- A fetch line: 64 bytes, byte 0 in bits [7:0] (02 R48). -/
abbrev LineBits := BitVec 512

end Sys2Proof
end

