-- ==== Sys2Proof/Syntax.lean ====
section
/-! DEFINITION. The syntax of MB2 (02 R54-R76) and of the events of the table of steps: operands, modifiers and the one
inductive Instr, one constructor per row of spec/opcode_table.json. A field that a form does not use holds
`Opd.vec 0`, the operand whose bits are all 0 (02 R55). -/

namespace Sys2Proof

/-- A guard field: an invert bit and a predicate index (02 R54, R56). -/
structure Guard where
  neg  : Bool
  pred : BitVec 3
  deriving DecidableEq, Repr

/-- The kinds of tile operand (02 R58). -/
inductive TileKind | a | q | h | b
  deriving DecidableEq, Repr

/-- A 12-bit operand field, by class (02 R58). -/
inductive Opd
  | vec (r : BitVec 8)                       -- class 000, direct
  | vecInd (ix : BitVec 2) (off : BitVec 6)  -- class 000, indirect through i0-i3
  | uni (r : BitVec 6)                       -- class 001
  | pred (p : BitVec 3)                      -- class 010
  | tok (t : BitVec 5)                       -- class 011, [8]=0
  | ring (r : BitVec 6)                      -- class 011, [8]=1: a keyring in a uniform register (E only)
  | tile (k : TileKind) (n : BitVec 6)       -- class 100
  | sreg (n : BitVec 9)                      -- class 101
  | imm (v : BitVec 9)                       -- class 110: immediate, place or order descriptor
  | absent                                   -- class 111 with [8:0] zero
  deriving DecidableEq, Repr

/-- Type codes (02 R72); `none` is code 0x00, untyped. -/
inductive Ty
  | none | ui8 | si8 | ui16 | si16 | ui32 | si32 | ui64 | si64 | b32 | b64 | b128 | f16 | bf16 | f32 | f64
  | f16x2 | bf16x2 | ui8x4 | si8x4 | ui16x2 | si16x2 | e8 | e8x4 | sc24 | acc40 | ia40 | b8 | b16
  deriving DecidableEq, Repr

/-- Cache hints (02 R73). They never change a result or an order. -/
inductive Hint | dflt | near | far | once | last | byp | stay
  deriving DecidableEq, Repr

/-- Reach codes (03 R95). -/
inductive Reach | crew | cluster | device | pod | system
  deriving DecidableEq, Repr

/-- Strength codes (03 R98). -/
inductive Strength | relaxed | acq | rel | ar
  deriving DecidableEq, Repr

/-- Rounding field of MD[2:0] (06 R197). -/
inductive Rm | rne | rz | ru | rd | dyn
  deriving DecidableEq, Repr

/-- Comparison of ISETP (05 R172). -/
inductive Cmp | eq | ne | lt | le | gt | ge
  deriving DecidableEq, Repr

/-- Comparison of FSETP (06 R209). -/
inductive FCmp | eq | ne | lt | le | gt | ge | num | nan
  deriving DecidableEq, Repr

/-- Boolean combination of ISETP and FSETP (05 R172, 06 R209). -/
inductive Bop | and | or | xor
  deriving DecidableEq, Repr

/-- Mode of PADD and PSUB (05 R172). -/
inductive PackMode | wrap | sat | satu
  deriving DecidableEq, Repr

/-- Source format of CVT and CVTI, MD[5:3] (06 R209). -/
inductive SrcFmt | f16 | bf16 | f32 | f64 | sc24 | acc40 | f16h | bf16h
  deriving DecidableEq, Repr

/-- Integer source of CVTF, MD[5:3] (06 R209). -/
inductive IntSrc | ui32 | si32 | ui64 | si64
  deriving DecidableEq, Repr

/-- A binary8 variant, MD[4:0] (06 R194): `k` is K - 1. -/
structure Variant where
  k   : Fin 7
  uns : Bool
  fin : Bool
  deriving DecidableEq, Repr

/-- Mode of XGET (08 R254). -/
inductive XMode | pos | rot | off | swap
  deriving DecidableEq, Repr

/-- Mode of POLL (08 R254). -/
inductive PollMode | every | some | same | mask | count
  deriving DecidableEq, Repr

/-- Operation of FOLDX and SCANX (08 R254). -/
inductive FoldOp | add | min | max | and | or | xor
  deriving DecidableEq, Repr

/-- Latch act of LDS (07 R224). -/
inductive LatchMode | none | keep | clr
  deriving DecidableEq, Repr

/-- Operation of the atomics and reductions (07 R241). -/
inductive AtomOp | add | min | max | and | or | xor | exch | cas
  deriving DecidableEq, Repr

/-- Entry code of CPATCH (09 R277). -/
inductive PatchEntry | keep | entry | noEntry
  deriving DecidableEq, Repr

/-- Reduce code of TSTORE and TSCATTER (10 R292). -/
inductive ReduceOp | plain | add | min | max
  deriving DecidableEq, Repr

/-- Tile dimension code: 16, 32 or 64 (11 R312). -/
inductive Dim | d16 | d32 | d64
  deriving DecidableEq, Repr

/-- Accumulator FORMAT (11 R312). -/
inductive AccFmt | f64 | f32 | acc40 | ia40
  deriving DecidableEq, Repr

/-- Operation of MRED (11 R314). -/
inductive MredOp | add | min | max
  deriving DecidableEq, Repr

/-- Operation of MEPI (11 R314). -/
inductive MepiOp | scale | bias | relu
  deriving DecidableEq, Repr

/-- Mode of TLBSD and TLBINV (16 R465). -/
inductive TlbMode | va | asid | all
  deriving DecidableEq, Repr

/-- Access of ADDRQ (16 R465). -/
inductive AddrqAccess | r | w | x
  deriving DecidableEq, Repr

/-- Mode of RGNSW and of a coherence region (15 R432, R435). -/
inductive RegionMode | dev | shared | priv
  deriving DecidableEq, Repr

/-- The fields of a slot of format A, M, X or P (02 R54, R71), less the modifiers, which each constructor holds. -/
structure Fields where
  ga : Guard
  gb : Guard
  ty : Ty
  ch : Hint
  d  : Opd
  a  : Opd
  b  : Opd
  c  : Opd
  e  : Opd
  deriving DecidableEq, Repr

/-- The fields of a slot of format I (02 R71). Every I form of MB2 leaves A unused and CH 000. -/
structure FieldsI where
  ga  : Guard
  gb  : Guard
  ty  : Ty
  d   : Opd
  imm : BitVec 36
  deriving DecidableEq, Repr

/-- The fields of a slot of format J (02 R71): a signed line offset and a slot. -/
structure FieldsJ where
  ga   : Guard
  gb   : Guard
  off  : BitVec 33
  slot : Fin 5
  deriving DecidableEq, Repr

/-- What a failed read or packet belongs to (01 R43): an accepted operation (with the row, lane, line or member concerned), a
table walk for it with the level that it had come to, a line fetch, a write, which is never retried, the stack access of a
thread's next CALL or RET, an item of a work queue, the record of a recipe, or a memory line whose error ECC corrects, which
is no failure. -/
inductive RetryTarget
  | read (op unit : Nat)
  | write (op unit : Nat)
  | link (op unit : Nat)
  | walk (op unit level : Nat)
  | fetch (core slot : Nat)
  | stack (core slot lane : Nat)
  | item (die queue : Nat)
  | recipe (die index : Nat)
  | ecc (line : Nat)
  deriving DecidableEq, Repr

/-- The answer of a peer to a FAB operation (12 R350, R351): the data of each lane, a failure report, none of them
for a loopback (12 R345), which the module answers itself, or some lanes' requests at some endpoints each with its data or
its RCLASS, the others being still unanswered. -/
inductive FabAnswer
  | data (lanes : List (Nat × QWord))
  | undelivered
  | translation
  | permission
  | lasting
  | some (answers : List (Nat × QWord)) (failures : List (Nat × Nat))
  deriving DecidableEq, Repr

/-- A request of a FAB operation: the operation, and its lane or its number among the operation's requests (12 R351). -/
structure FabRequest where
  op  : Nat
  req : Nat
  deriving DecidableEq, Repr

/-- A port that goes out of service, and the requests of this module that it was carrying (12 R342; 01 R43). -/
structure PortLoss where
  port     : Nat
  inFlight : List FabRequest
  deriving DecidableEq, Repr

/-- An access that a peer's packet asks for (12 R354, R357, R360-R366). -/
inductive PeerAct
  | read (len : Nat)
  | write (data : List Byte)
  | atomic (op : AtomOp) (ty : Ty) (operand compare : QWord)
  | arrive (bytes : BitVec 32) (poison : Bool)
  | ticket
  | signal (poison : Bool)
  deriving DecidableEq, Repr

/-- A packet from a peer: source endpoint, source warp, sequence tag, release or not, address, act, and the sequence tags of
the packets of its source that R354 and R355 put before it. -/
structure PeerPacket where
  source  : Nat
  warp    : Nat
  seq     : Nat
  release : Bool
  addr    : VAddr
  act     : PeerAct
  after   : List Nat := []
  deriving DecidableEq, Repr

/-- What a register write names: a BAR0 offset (18 R495), or a special register as a thread of a warp names it
(02 R69). -/
inductive RegTarget
  | bar0 (offset : Nat)
  | special (core slot lane : Nat) (num : BitVec 9)
  deriving DecidableEq, Repr

/-- What the physical world decides during a reset (18 R504-R506): which dies and stacks train, whether each repair map
verifies, whether the identity secret is reconstructed (18 R509), and what Javatra finds when it trains the ports
(12 R342, 18 R495). -/
structure Training where
  dies     : Bool × Bool
  hbmUp    : BitVec 8
  ports    : BitVec 18
  endpoint : Nat
  podSize  : Nat
  vistitum : Bool
  secret   : Bool
  deriving DecidableEq, Repr

/-- One constructor per row of spec/opcode_table.json: the instructions of MB2 in the order of 02 R76, then the events
of the table of steps, which have no encoding. -/
inductive Instr
  | nop (f : Fields)
  | yield (f : Fields)
  | exit (f : Fields)
  | brk (f : Fields)
  | trap (f : FieldsI)
  | rtt (f : Fields)
  | elect (f : Fields)
  | wdog (f : FieldsI) (trapEn : Bool)
  | bra (f : FieldsJ)
  | call (f : FieldsJ)
  | brx (f : Fields)
  | callx (f : Fields)
  | ret (f : Fields)
  | jset (f : Fields)
  | jwait (f : Fields)
  | bara (f : Fields)
  | barw (f : Fields)
  | bars (f : Fields)
  | part (f : Fields)
  | sleep (f : Fields) (any : Bool)
  | ttest (f : Fields) (any : Bool)
  | tstat (f : Fields)
  | tfree (f : Fields)
  | tsigArm (f : Fields)
  | tsigDone (f : Fields)
  | tsigPoison (f : Fields)
  | texport (f : Fields) (reach : Reach) (peer : Bool)
  | pbinit (f : Fields) (reach : Reach)
  | pbarrive (f : Fields) (reach : Reach) (peer : Bool) (poison : Bool)
  | pbwait (f : Fields) (reach : Reach)
  | getsr (f : Fields)
  | setsr (f : Fields)
  | iadd (f : Fields) (sat : Bool)
  | isub (f : Fields) (sat : Bool)
  | iaddx (f : Fields) (sub : Bool)
  | imul (f : Fields)
  | imulh (f : Fields)
  | imad (f : Fields)
  | imadw (f : Fields)
  | idiv (f : Fields) (trapEn : Bool)
  | irem (f : Fields) (trapEn : Bool)
  | imin (f : Fields)
  | imax (f : Fields)
  | iabs (f : Fields) (sat : Bool)
  | btab (f : Fields)
  | shl (f : Fields)
  | shr (f : Fields)
  | sar (f : Fields)
  | rot (f : Fields)
  | shf (f : Fields) (right : Bool)
  | bfe (f : Fields)
  | bfi (f : Fields)
  | popc (f : Fields)
  | clz (f : Fields)
  | brev (f : Fields)
  | isetp (f : Fields) (cmp : Cmp) (bop : Bop)
  | sel (f : Fields)
  | mov (f : Fields)
  | movi (f : FieldsI) (hi : Bool)
  | lea (f : Fields)
  | padd (f : Fields) (mode : PackMode)
  | psub (f : Fields) (mode : PackMode)
  | pmax (f : Fields)
  | pmin (f : Fields)
  | pacs (f : Fields) (max : Bool)
  | cellkey (f : Fields) (wrap : Bool)
  | fadd (f : Fields) (rm : Rm)
  | fmul (f : Fields) (rm : Rm)
  | ffma (f : Fields) (rm : Rm)
  | fmin (f : Fields) (nan : Bool)
  | fmax (f : Fields) (nan : Bool)
  | fsetp (f : Fields) (cmp : FCmp) (unord : Bool) (bop : Bop)
  | hfma2 (f : Fields) (rm : Rm)
  | fdiv (f : Fields) (rm : Rm)
  | fsqrt (f : Fields) (rm : Rm)
  | rcp (f : Fields) (rm : Rm)
  | rsq (f : Fields) (rm : Rm)
  | exp2 (f : Fields) (rm : Rm)
  | log2 (f : Fields) (rm : Rm)
  | sin (f : Fields) (rm : Rm)
  | cos (f : Fields) (rm : Rm)
  | frnd (f : Fields) (rm : Rm)
  | fclass (f : Fields)
  | fscale (f : Fields) (rm : Rm)
  | fgetexp (f : Fields)
  | cvt (f : Fields) (rm : Rm) (src : SrcFmt)
  | cvti (f : Fields) (rm : Rm) (src : SrcFmt)
  | cvtf (f : Fields) (rm : Rm) (src : IntSrc)
  | cvt8 (f : Fields) (var : Variant) (wide : Bool)
  | fflags (f : Fields)
  | fenv (f : Fields)
  | xget (f : Fields) (mode : XMode)
  | poll (f : Fields) (mode : PollMode) (inv : Bool)
  | peers (f : Fields) (unif : Bool)
  | foldx (f : Fields) (op : FoldOp)
  | scanx (f : Fields) (op : FoldOp) (excl : Bool)
  | tlu (f : Fields) (n : BitVec 3)
  | bysel (f : Fields)
  | bcast (f : Fields) (first : Bool)
  | ld (f : Fields) (str : Strength)
  | st (f : Fields) (str : Strength)
  | lds (f : Fields) (latch : LatchMode)
  | sts (f : Fields)
  | latchSet (f : Fields)
  | latchClr (f : Fields)
  | atom (f : Fields) (op : AtomOp) (csm : Bool) (str : Strength)
  | red (f : Fields) (op : AtomOp) (csm : Bool) (str : Strength)
  | fence (f : Fields) (str : Strength) (un : Bool)
  | promote (f : Fields)
  | prefetch (f : Fields)
  | mdld (f : Fields)
  | mdst (f : Fields)
  | ldloc (f : Fields)
  | stloc (f : Fields)
  | cctlInv (f : Fields)
  | cctlInvall (f : Fields)
  | codepub (f : Fields)
  | cpatch (f : Fields) (ent : PatchEntry)
  | codeq (f : Fields)
  | hload (f : Fields)
  | tload (f : Fields) (scsm : Bool)
  | tstore (f : Fields) (rop : ReduceOp)
  | tcopy (f : Fields) (scsm : Bool) (dcsm : Bool) (latch : Bool)
  | tmcast (f : Fields) (latch : Bool)
  | tgather (f : Fields) (latch : Bool) (icsm : Bool)
  | tscatter (f : Fields) (icsm : Bool) (rop : ReduceOp)
  | tfill (f : Fields) (dcsm : Bool) (latch : Bool)
  | tquery (f : Fields)
  | wardq (f : Fields) (csm : Bool)
  | mma (f : Fields) (var : BitVec 5)
  | mmag (f : Fields) (var : BitVec 5)
  | mzero (f : Fields) (mc : Dim) (nc : Dim)
  | mload (f : Fields) (mc : Dim) (nc : Dim) (fmt : AccFmt)
  | mstore (f : Fields) (latch : Bool)
  | mred (f : Fields) (latch : Bool) (op : MredOp)
  | mepi (f : Fields) (op : MepiOp)
  | mflags (f : Fields)
  | fld (f : Fields) (str : Strength) (sys : Bool)
  | fst (f : Fields) (str : Strength) (sys : Bool)
  | fstBlk (f : Fields) (str : Strength) (sys : Bool)
  | fatom (f : Fields) (op : AtomOp) (str : Strength) (sys : Bool)
  | fatomc (f : Fields) (op : AtomOp) (str : Strength) (sys : Bool)
  | fticket (f : Fields) (sys : Bool)
  | fred (f : Fields) (op : AtomOp) (str : Strength) (sys : Bool)
  | fmcast (f : Fields) (str : Strength) (sys : Bool)
  | fflush (f : Fields) (sys : Bool)
  | fsigTret (f : Fields) (sys : Bool)
  | fsigTpois (f : Fields) (sys : Bool)
  | fquery (f : Fields)
  | spawn (f : Fields)
  | bincfg (f : Fields)
  | wqcfg (f : Fields)
  | wqpush (f : Fields)
  | tstream (f : Fields)
  | tsubmit (f : Fields)
  | trelease (f : Fields)
  | taskinfo (f : Fields)
  | rcpin (f : Fields)
  | rcunpin (f : Fields)
  | rcretire (f : Fields)
  | rcdrop (f : Fields)
  | rcquery (f : Fields)
  | tlbsd (f : Fields) (mode : TlbMode)
  | tlbinv (f : Fields) (mode : TlbMode)
  | addrq (f : Fields) (acc : AddrqAccess)
  | rgnsw (f : Fields) (mode : RegionMode)
  | ctxsave (f : Fields)
  | ctxload (f : Fields)
  | operationStart (op : Nat)
  | readRetry (target : RetryTarget) (lasting : Bool)
  | lmeOperationComplete (op : Nat)
  | latchWaitServed (op lane : Nat)
  | sleepWake (core slot lane : Nat)
  | tsigDoneApply (core slot tok : Nat)
  | pbwaitConditionMet (op : Nat)
  | cpeOperationSettle (op : Nat)
  | mxeOperationStart (core : Nat)
  | mxeCommit (core : Nat)
  | gangMemberAcquire (core : Nat)
  | gangSettle (op : Nat)
  | fabOperationSettle (op : Nat) (answer : FabAnswer)
  | fabRequestTimeout (op : FabRequest)
  | peerPacketArrival (packet : PeerPacket)
  | portOutOfService (port : PortLoss)
  | atomicUnitAct (die slice : Nat)
  | watchdogFire (core slot : Nat)
  | trapEntry (core slot lane : Nat)
  | preemptDeadlineExpiry (crew : Nat)
  | contextSaveWrite (crew : Nat) (writeFails : Bool)
  | ctxloadGrant (op : Nat) (readFails : Bool)
  | clusterDispatch (die : Nat)
  | crewRelease (crew : Nat)
  | spawnRecordArrival (op lane : Nat)
  | binTimerExpiry (core bin : Nat)
  | binWarpFormation (die : Nat)
  | queueRefill (die queue : Nat)
  | taskEntry (die stream : Nat)
  | taskDispatch (die : Nat)
  | taskCompletion (die entry : Nat)
  | l2LineEviction (line : Nat)
  | recomputeDispatch (die : Nat)
  | recomputeSettle (die recipe : Nat)
  | hostCxlMemRead (offset length : Nat)
  | hostCxlMemWrite (offset : Nat) (data : List Byte) (poison : Bool)
  | hostReadShared (half : Nat)
  | hostReadForOwnership (half : Nat)
  | hostWriteBack (half : Nat) (data : List Byte)
  | hostCleanEviction (half : Nat)
  | recallTimeout (half : Nat)
  | migration (line die slice : Nat)
  | migrationReturn (line : Nat)
  | dieFailure (die : Nat)
  | bankRefresh (die sub bank : Nat) (requests : Bool)
  | aboAlert (die sub bank : Nat)
  | fetchLineArrival (core slot : Nat) (line : VAddr)
  | v1RecordFlush (die : Nat)
  | tlbsdComplete (op : Nat)
  | xlrpWrite (die : Nat) (value : DWord)
  | tstatPoisonClear (core slot : Nat)
  | joinRegisterWrite (core slot join : Nat) (member : Mask)
  | hmctlWrite (die : Nat) (migr : Bool)
  | registerWrite (target : RegTarget) (value : DWord)
  | cplheadWrite (value : Word)
  | completionPost
  | launch (readFails : Bool)
  | launchEnd (launch : Nat)
  | map (writeFails : Bool)
  | codePublish (actFails : Bool)
  | resetCold (training : Training)
  | resetWarm (training : Training)
  | powerOn (training : Training)
  | attest (flashFails : Bool)
  | launchctlPreempt
  | launchctlEnd
  | launchctlResume
  | fwloadImage
  | fwloadRepairMap
  | throttleStep (power junction inlet : Nat)
  | recallResponse (half : Nat) (modified : Option (List Byte))
  | tbeOperationSettle (op : Nat)
  | coresidentLaunchGrant
  | engineBarrierArrival
  | errlog
  | region
  | shootdown
  | podWindowControl
  | bandMode
  | unmap
  deriving DecidableEq, Repr

end Sys2Proof
end

