-- ==== Sys2Proof/Machine/Forms.lean ====
section
/-! DEFINITION. The forms of MB2: the code of every modifier (02 R72-R74 and each chapter's suffix tables), what each
operand field of each form admits (02 R55, R58-R67, and the form tables R124, R172, R209, R224, R253, R277, R292,
R314, R346, R371, R419, R435, R465, R489), and the one table `Instr.form` that gives every constructor its OP, FN, MD
and operand classes. Decode.lean and WellFormed.lean are both written over it. -/

namespace Sys2Proof

/-! ### Codes of the fields -/

/-- Type codes (02 R72). -/
def Ty.code : Ty → BitVec 5
  | .none => 0x00 | .ui8 => 0x01 | .si8 => 0x02 | .ui16 => 0x03 | .si16 => 0x04 | .ui32 => 0x05 | .si32 => 0x06
  | .ui64 => 0x07 | .si64 => 0x08 | .b32 => 0x09 | .b64 => 0x0A | .b128 => 0x0B | .f16 => 0x0C | .bf16 => 0x0D
  | .f32 => 0x0E | .f64 => 0x0F | .f16x2 => 0x10 | .bf16x2 => 0x11 | .ui8x4 => 0x12 | .si8x4 => 0x13
  | .ui16x2 => 0x14 | .si16x2 => 0x15 | .e8 => 0x16 | .e8x4 => 0x17 | .sc24 => 0x18 | .acc40 => 0x19
  | .ia40 => 0x1A | .b8 => 0x1B | .b16 => 0x1C

/-- The types in the order of their codes. -/
def Ty.all : List Ty :=
  [.none, .ui8, .si8, .ui16, .si16, .ui32, .si32, .ui64, .si64, .b32, .b64, .b128, .f16, .bf16, .f32, .f64,
   .f16x2, .bf16x2, .ui8x4, .si8x4, .ui16x2, .si16x2, .e8, .e8x4, .sc24, .acc40, .ia40, .b8, .b16]

/-- The type of a code; 0x1D to 0x1F are reserved (02 R72). -/
def Ty.ofCode (c : BitVec 5) : Option Ty := Ty.all[c.toNat]?

/-- Cache hint codes (02 R73). -/
def Hint.code : Hint → BitVec 3
  | .dflt => 0 | .near => 1 | .far => 2 | .once => 3 | .last => 4 | .byp => 5 | .stay => 6

/-- The hint of a code; 111 is reserved (02 R73). -/
def Hint.ofCode (c : BitVec 3) : Option Hint :=
  [Hint.dflt, .near, .far, .once, .last, .byp, .stay][c.toNat]?

/-- The code of a tile kind, in bits [8:6] of its field (02 R58). -/
def TileKind.code : TileKind → BitVec 3
  | .a => 0 | .q => 1 | .h => 2 | .b => 3

/-- The tile kind of a code; 100 to 111 are reserved (02 R58). -/
def TileKind.ofCode (c : BitVec 3) : Option TileKind := [TileKind.a, .q, .h, .b][c.toNat]?

/-- How many tiles of a kind the hardware has (02 R64). -/
def TileKind.count : TileKind → Nat
  | .a => 16 | .q => 64 | .h => 16 | .b => 32

/-- The four bits of a guard field (02 R54). -/
def Guard.bits (g : Guard) : BitVec 4 := (BitVec.ofBool g.neg) ++ g.pred
/-- The guard of four bits. -/
def Guard.ofBits (b : BitVec 4) : Guard := ⟨b.getLsbD 3, b.extractLsb' 0 3⟩
/-- The guard that is always true: p0, not inverted. -/
def Guard.always : Guard := ⟨false, 0⟩

/-- The 12 bits of an operand field (02 R58). -/
def Opd.bits : Opd → BitVec 12
  | .vec r       => (0b0000 : BitVec 4) ++ r
  | .vecInd ix o => (0b0001 : BitVec 4) ++ ix ++ o
  | .uni r       => (0b001000 : BitVec 6) ++ r
  | .pred p      => (0b010000000 : BitVec 9) ++ p
  | .tok t       => (0b0110000 : BitVec 7) ++ t
  | .ring r      => (0b011100 : BitVec 6) ++ r
  | .tile k n    => (0b100 : BitVec 3) ++ k.code ++ n
  | .sreg n      => (0b101 : BitVec 3) ++ n
  | .imm v       => (0b110 : BitVec 3) ++ v
  | .absent      => 0xE00

/-- The operand of a 12-bit field, or none where a reserved bit is set or the tile kind is reserved (02 R58). -/
def Opd.ofBits (b : BitVec 12) : Option Opd :=
  match (b.extractLsb' 9 3).toNat with
  | 0 => if b.getLsbD 8 then some (.vecInd (b.extractLsb' 6 2) (b.extractLsb' 0 6)) else some (.vec (b.extractLsb' 0 8))
  | 1 => if b.extractLsb' 6 3 = 0 then some (.uni (b.extractLsb' 0 6)) else none
  | 2 => if b.extractLsb' 3 6 = 0 then some (.pred (b.extractLsb' 0 3)) else none
  | 3 =>
    if b.getLsbD 8 then (if b.extractLsb' 6 2 = 0 then some (.ring (b.extractLsb' 0 6)) else none)
    else (if b.extractLsb' 5 3 = 0 then some (.tok (b.extractLsb' 0 5)) else none)
  | 4 => (TileKind.ofCode (b.extractLsb' 6 3)).map fun k => .tile k (b.extractLsb' 0 6)
  | 5 => some (.sreg (b.extractLsb' 0 9))
  | 6 => some (.imm (b.extractLsb' 0 9))
  | _ => if b.extractLsb' 0 9 = 0 then some .absent else none

/-- Whether an operand names a special register (05 R183). -/
def Opd.isSpecial : Opd → Bool
  | .sreg _ => true
  | _ => false

/-- Reach codes (03 R95). -/
def Reach.bits : Reach → BitVec 3
  | .crew => 0 | .cluster => 1 | .device => 2 | .pod => 3 | .system => 4
/-- The Reach of a code; codes past the last are reserved. -/
def Reach.ofBits (b : BitVec 3) : Option Reach := [Reach.crew, .cluster, .device, .pod, .system][b.toNat]?

/-- Strength codes (03 R98). -/
def Strength.bits : Strength → BitVec 2
  | .relaxed => 0 | .acq => 1 | .rel => 2 | .ar => 3
/-- The Strength of a code; codes past the last are reserved. -/
def Strength.ofBits (b : BitVec 2) : Option Strength := [Strength.relaxed, .acq, .rel, .ar][b.toNat]?

/-- Rounding codes (06 R197). -/
def Rm.bits : Rm → BitVec 3
  | .rne => 0 | .rz => 1 | .ru => 2 | .rd => 3 | .dyn => 4
/-- The Rm of a code; codes past the last are reserved. -/
def Rm.ofBits (b : BitVec 3) : Option Rm := [Rm.rne, .rz, .ru, .rd, .dyn][b.toNat]?

/-- ISETP comparison codes (05 R172). -/
def Cmp.bits : Cmp → BitVec 3
  | .eq => 0 | .ne => 1 | .lt => 2 | .le => 3 | .gt => 4 | .ge => 5
/-- The Cmp of a code; codes past the last are reserved. -/
def Cmp.ofBits (b : BitVec 3) : Option Cmp := [Cmp.eq, .ne, .lt, .le, .gt, .ge][b.toNat]?

/-- FSETP comparison codes (06 R209). -/
def FCmp.bits : FCmp → BitVec 3
  | .eq => 0 | .ne => 1 | .lt => 2 | .le => 3 | .gt => 4 | .ge => 5 | .num => 6 | .nan => 7
/-- The FCmp of a code; codes past the last are reserved. -/
def FCmp.ofBits (b : BitVec 3) : Option FCmp := [FCmp.eq, .ne, .lt, .le, .gt, .ge, .num, .nan][b.toNat]?

/-- Boolean combination codes (05 R172, 06 R209). -/
def Bop.bits : Bop → BitVec 2
  | .and => 0 | .or => 1 | .xor => 2
/-- The Bop of a code; codes past the last are reserved. -/
def Bop.ofBits (b : BitVec 2) : Option Bop := [Bop.and, .or, .xor][b.toNat]?

/-- PADD and PSUB mode codes (05 R172). -/
def PackMode.bits : PackMode → BitVec 2
  | .wrap => 0 | .sat => 1 | .satu => 2
/-- The PackMode of a code; codes past the last are reserved. -/
def PackMode.ofBits (b : BitVec 2) : Option PackMode := [PackMode.wrap, .sat, .satu][b.toNat]?

/-- CVT source codes (06 R209). -/
def SrcFmt.bits : SrcFmt → BitVec 3
  | .f16 => 0 | .bf16 => 1 | .f32 => 2 | .f64 => 3 | .sc24 => 4 | .acc40 => 5 | .f16h => 6 | .bf16h => 7
/-- The SrcFmt of a code; codes past the last are reserved. -/
def SrcFmt.ofBits (b : BitVec 3) : Option SrcFmt := [SrcFmt.f16, .bf16, .f32, .f64, .sc24, .acc40, .f16h, .bf16h][b.toNat]?

/-- CVTF source codes (06 R209). -/
def IntSrc.bits : IntSrc → BitVec 3
  | .ui32 => 0 | .si32 => 1 | .ui64 => 2 | .si64 => 3
/-- The IntSrc of a code; codes past the last are reserved. -/
def IntSrc.ofBits (b : BitVec 3) : Option IntSrc := [IntSrc.ui32, .si32, .ui64, .si64][b.toNat]?

/-- XGET mode codes (08 R254). -/
def XMode.bits : XMode → BitVec 2
  | .pos => 0 | .rot => 1 | .off => 2 | .swap => 3
/-- The XMode of a code; codes past the last are reserved. -/
def XMode.ofBits (b : BitVec 2) : Option XMode := [XMode.pos, .rot, .off, .swap][b.toNat]?

/-- POLL mode codes (08 R254). -/
def PollMode.bits : PollMode → BitVec 3
  | .every => 0 | .some => 1 | .same => 2 | .mask => 3 | .count => 4
/-- The PollMode of a code; codes past the last are reserved. -/
def PollMode.ofBits (b : BitVec 3) : Option PollMode := [PollMode.every, .some, .same, .mask, .count][b.toNat]?

/-- FOLDX and SCANX operation codes (08 R254). -/
def FoldOp.bits : FoldOp → BitVec 3
  | .add => 0 | .min => 1 | .max => 2 | .and => 3 | .or => 4 | .xor => 5
/-- The FoldOp of a code; codes past the last are reserved. -/
def FoldOp.ofBits (b : BitVec 3) : Option FoldOp := [FoldOp.add, .min, .max, .and, .or, .xor][b.toNat]?

/-- LDS latch codes (07 R224). -/
def LatchMode.bits : LatchMode → BitVec 2
  | .none => 0 | .keep => 1 | .clr => 2
/-- The LatchMode of a code; codes past the last are reserved. -/
def LatchMode.ofBits (b : BitVec 2) : Option LatchMode := [LatchMode.none, .keep, .clr][b.toNat]?

/-- Atomic operation codes (07 R241). -/
def AtomOp.bits : AtomOp → BitVec 3
  | .add => 0 | .min => 1 | .max => 2 | .and => 3 | .or => 4 | .xor => 5 | .exch => 6 | .cas => 7
/-- The AtomOp of a code; codes past the last are reserved. -/
def AtomOp.ofBits (b : BitVec 3) : Option AtomOp := [AtomOp.add, .min, .max, .and, .or, .xor, .exch, .cas][b.toNat]?

/-- CPATCH entry codes (09 R277). -/
def PatchEntry.bits : PatchEntry → BitVec 2
  | .keep => 0 | .entry => 1 | .noEntry => 2
/-- The PatchEntry of a code; codes past the last are reserved. -/
def PatchEntry.ofBits (b : BitVec 2) : Option PatchEntry := [PatchEntry.keep, .entry, .noEntry][b.toNat]?

/-- Reduce codes (10 R292). -/
def ReduceOp.bits : ReduceOp → BitVec 2
  | .plain => 0 | .add => 1 | .min => 2 | .max => 3
/-- The ReduceOp of a code; codes past the last are reserved. -/
def ReduceOp.ofBits (b : BitVec 2) : Option ReduceOp := [ReduceOp.plain, .add, .min, .max][b.toNat]?

/-- Dimension codes (11 R312). -/
def Dim.bits : Dim → BitVec 2
  | .d16 => 0 | .d32 => 1 | .d64 => 2
/-- The Dim of a code; codes past the last are reserved. -/
def Dim.ofBits (b : BitVec 2) : Option Dim := [Dim.d16, .d32, .d64][b.toNat]?

/-- FORMAT codes (11 R312). -/
def AccFmt.bits : AccFmt → BitVec 2
  | .f64 => 0 | .f32 => 1 | .acc40 => 2 | .ia40 => 3
/-- The AccFmt of a code; codes past the last are reserved. -/
def AccFmt.ofBits (b : BitVec 2) : Option AccFmt := [AccFmt.f64, .f32, .acc40, .ia40][b.toNat]?

/-- MRED operation codes; 00 is reserved (11 R314). -/
def MredOp.bits : MredOp → BitVec 2
  | .add => 1 | .min => 2 | .max => 3
/-- The MredOp of a code. -/
def MredOp.ofBits (b : BitVec 2) : Option MredOp := if b = 0 then none else [MredOp.add, .min, .max][b.toNat - 1]?

/-- MEPI operation codes (11 R314). -/
def MepiOp.bits : MepiOp → BitVec 2
  | .scale => 0 | .bias => 1 | .relu => 2
/-- The MepiOp of a code; codes past the last are reserved. -/
def MepiOp.ofBits (b : BitVec 2) : Option MepiOp := [MepiOp.scale, .bias, .relu][b.toNat]?

/-- TLBSD and TLBINV mode codes (16 R465). -/
def TlbMode.bits : TlbMode → BitVec 2
  | .va => 0 | .asid => 1 | .all => 2
/-- The TlbMode of a code; codes past the last are reserved. -/
def TlbMode.ofBits (b : BitVec 2) : Option TlbMode := [TlbMode.va, .asid, .all][b.toNat]?

/-- ADDRQ access codes (16 R465). -/
def AddrqAccess.bits : AddrqAccess → BitVec 2
  | .r => 0 | .w => 1 | .x => 2
/-- The AddrqAccess of a code; codes past the last are reserved. -/
def AddrqAccess.ofBits (b : BitVec 2) : Option AddrqAccess := [AddrqAccess.r, .w, .x][b.toNat]?

/-- RGNSW mode codes (15 R435). -/
def RegionMode.bits : RegionMode → BitVec 2
  | .dev => 0 | .shared => 1 | .priv => 2
/-- The RegionMode of a code; codes past the last are reserved. -/
def RegionMode.ofBits (b : BitVec 2) : Option RegionMode := [RegionMode.dev, .shared, .priv][b.toNat]?

/-- The five variant bits (06 R194). -/
def Variant.bits (v : Variant) : BitVec 5 :=
  BitVec.ofBool v.fin ++ BitVec.ofBool v.uns ++ BitVec.ofNat 3 (v.k.val + 1)
/-- The variant of five bits; K of 000 is illegal (06 R194). -/
def Variant.ofBits (b : BitVec 5) : Option Variant :=
  let k := (b.extractLsb' 0 3).toNat - 1
  if h : k < 7 then (if b.extractLsb' 0 3 = 0 then none else some ⟨⟨k, h⟩, b.getLsbD 3, b.getLsbD 4⟩) else none

/-- A reach of at least `.POD`, which PEER requires (04 R124). -/
def Reach.atLeastPod : Reach → Bool
  | .pod | .system => true
  | _ => false
/-- FSETP comparisons that accept `.U` (06 R213). -/
def FCmp.allowsU : FCmp → Bool
  | .ne | .num | .nan => false
  | _ => true
/-- The POLL modes that write a predicate (08 R253). -/
def PollMode.isVote : PollMode → Bool
  | .every | .some | .same => true
  | _ => false
/-- Which types a cross-lane operation accepts (08 R254). -/
def FoldOp.accepts : FoldOp → Ty → Bool
  | .add, t | .min, t | .max, t => [Ty.ui32, .si32, .ui64, .si64, .f32].contains t
  | _, t => [Ty.b32, .b64].contains t
/-- Which types an atomic operation accepts (07 R241). -/
def AtomOp.accepts : AtomOp → Ty → Bool
  | .add, t | .min, t | .max, t => [Ty.ui32, .si32, .ui64, .si64, .f32, .f64, .f16x2, .bf16x2].contains t
  | .and, t | .or, t | .xor, t => [Ty.ui32, .si32, .ui64, .si64, .b32, .b64].contains t
  | .exch, t => [Ty.ui32, .si32, .ui64, .si64, .b32, .b64, .f32, .f64, .b128].contains t
  | .cas, t => [Ty.ui32, .si32, .ui64, .si64, .b32, .b64, .f32, .f64].contains t
/-- The operations that RED, FRED and FATOMC accept: not `.EXCH` and not `.CAS` (07 R241, 12 R346). -/
def AtomOp.reduces : AtomOp → Bool
  | .exch | .cas => false
  | _ => true

/-! ### Types by group and width -/

/-- The width in bits of the register that holds an operand of a type (05 R168, 06 R189, 07 R224). -/
def Ty.regWidth : Ty → Nat
  | .ui64 | .si64 | .b64 | .f64 | .acc40 | .ia40 => 64
  | .b128 => 128
  | _ => 32
/-- INT's Scalar group (05 R167). -/
def Ty.scalar : List Ty := [.ui32, .si32, .ui64, .si64]
/-- INT's Bits group (05 R167). -/
def Ty.bits : List Ty := [.b32, .b64, .ui32, .si32, .ui64, .si64]
/-- INT's Packed group (05 R167). -/
def Ty.packed : List Ty := [.ui8x4, .si8x4, .ui16x2, .si16x2]
/-- FLT's Basic group (06 R208). -/
def Ty.basic : List Ty := [.f16, .bf16, .f32, .f64]
/-- FLT's Packed group (06 R208). -/
def Ty.fpacked : List Ty := [.f16x2, .bf16x2]
/-- Whether a type is of FLT's Packed group. -/
def Ty.isFpacked : Ty → Bool
  | .f16x2 | .bf16x2 => true
  | _ => false
/-- Load types (07 R224). -/
def Ty.load : List Ty := [.ui8, .si8, .ui16, .si16, .b32, .b64, .b128]
/-- Store types (07 R224). -/
def Ty.store : List Ty := [.b8, .b16, .b32, .b64, .b128]
/-- Atomic types (07 R224). -/
def Ty.atomic : List Ty := [.ui32, .si32, .ui64, .si64, .b32, .b64, .f32, .f64, .f16x2, .bf16x2, .b128]
/-- Atomic types that FRED accepts (12 R346). -/
def Ty.atomicNot128 : List Ty := [.ui32, .si32, .ui64, .si64, .b32, .b64, .f32, .f64, .f16x2, .bf16x2]
/-- The types of MMA and MMAG (11 R314). -/
def Ty.mma : List Ty := [.f64, .f32, .bf16, .f16, .e8, .si8, .ui8]

/-! ### What an operand field admits -/

/-- A class of operand that a form's field admits, with the limits that the encoding fixes (02 R58-R67). -/
inductive Cls
  /-- A vector operand of n registers; a direct base must be a multiple of n (02 R60). -/
  | vec (n : Nat)
  /-- A direct vector register (08 R264). -/
  | vecDirect
  /-- A uniform register, with the n - 1 that follow it (10 R292, 05 R188). -/
  | uni (n : Nat)
  | pred
  /-- A predicate pk with k from 1 to 6 (05 R187). -/
  | predPair
  | tok
  /-- A token other than t0 (12 R346). -/
  | tokNot0
  /-- A keyring in a uniform register (02 R63). -/
  | ring
  | tile (k : TileKind)
  /-- An assigned special register (02 R65, R69). -/
  | sreg
  /-- An immediate from lo to hi. -/
  | imm (lo hi : Int)
  /-- An order descriptor (07 R225); `needI` asks for class I in its mask (09 R277). -/
  | desc (needI : Bool)
  /-- A place (02 R66, 01 R26). -/
  | place
  /-- Class None. -/
  | absent
  /-- An unused field, which must be 0 (02 R55). -/
  | zero
  deriving DecidableEq, Repr

/-- The special-register numbers that the register maps assign (02 R69, R70 and each chapter's map). -/
def assignedSreg (n : Nat) : Bool :=
  n ≤ 0x018 || (0x020 ≤ n && n ≤ 0x027) || (0x040 ≤ n && n ≤ 0x05F) || (0x080 ≤ n && n ≤ 0x082) ||
  (0x0A0 ≤ n && n ≤ 0x0A2) || n == 0x0B0 || (0x0C0 ≤ n && n ≤ 0x0C2) || (0x0D0 ≤ n && n ≤ 0x0D1) ||
  (0x0E0 ≤ n && n ≤ 0x0E3) || (0x100 ≤ n && n ≤ 0x101) || (0x110 ≤ n && n ≤ 0x112) ||
  (0x120 ≤ n && n ≤ 0x125) || (0x140 ≤ n && n ≤ 0x143) || (0x150 ≤ n && n ≤ 0x159)

/-- The reach code of an order descriptor (07 R225). -/
def descReach (v : BitVec 9) : BitVec 3 := v.extractLsb' 6 3
/-- The observer mask of an order descriptor (07 R225). -/
def descMask (v : BitVec 9) : BitVec 6 := v.extractLsb' 0 6

/-- Whether a class admits an operand. -/
def Cls.admits : Cls → Opd → Bool
  | .vec n, .vec r => r.toNat % n == 0
  | .vec _, .vecInd _ _ => true
  | .vecDirect, .vec _ => true
  | .uni n, .uni r => r.toNat + n ≤ 64
  | .pred, .pred _ => true
  | .predPair, .pred p => 1 ≤ p.toNat && p.toNat ≤ 6
  | .tok, .tok _ => true
  | .tokNot0, .tok t => t != 0
  | .ring, .ring _ => true
  | .tile k, .tile k' n => k == k' && n.toNat < k.count
  | .sreg, .sreg n => assignedSreg n.toNat
  | .imm lo hi, .imm v => lo ≤ v.toInt && v.toInt ≤ hi
  | .desc needI, .imm v => (descReach v).toNat ≤ 4 && descMask v != 0 && (!needI || (descMask v).getLsbD 5)
  | .place, .imm v => !v.getLsbD 8
  | .absent, .absent => true
  | .zero, .vec r => r == 0
  | _, _ => false

/-- The register operand of a width in bits (05 R168, 06 R189). -/
def Cls.regW (w : Nat) : List Cls :=
  if w = 64 then [.vec 2, .uni 1] else if w = 128 then [.vec 4] else [.vec 1, .uni 1]
/-- R: a register of the type's width. -/
def Cls.reg (t : Ty) : List Cls := Cls.regW t.regWidth
/-- Ri: R or an immediate. -/
def Cls.regImm (t : Ty) : List Cls := Cls.reg t ++ [.imm (-256) 255]
/-- A 32-bit register. -/
def Cls.reg32 : List Cls := [.vec 1, .uni 1]
/-- A 32-bit register or an immediate. -/
def Cls.regImm32 : List Cls := [.vec 1, .uni 1, .imm (-256) 255]
/-- A 64-bit register. -/
def Cls.reg64 : List Cls := [.vec 2, .uni 1]
/-- A 64-bit register or an immediate. -/
def Cls.regImm64 : List Cls := [.vec 2, .uni 1, .imm (-256) 255]
/-- A count: always 32 bits wide (05 R168). -/
def Cls.count : List Cls := Cls.regImm32
/-- Off (07 R224, R226). -/
def Cls.offset : List Cls := Cls.regImm32
/-- End, an endpoint offset (12 R346). -/
def Cls.endpoint : List Cls := Cls.regImm32
/-- The offset of TEXPORT and PBARRIVE: an immediate, or a uniform with PEER (04 R124). -/
def Cls.pbOffset (peer : Bool) : List Cls := if peer then [.uni 1] else [.imm (-256) 255]
/-- A keyring that may be absent (02 R63). -/
def Cls.keyringOpt : List Cls := [.tok, .ring, .absent]
/-- The destination of a load type (07 R224). -/
def Cls.loadDest (t : Ty) : List Cls := Cls.regW t.regWidth
/-- The source of a store type (07 R224). -/
def Cls.storeSrc (t : Ty) : List Cls := if t = .b128 then [.vec 4] else Cls.regW t.regWidth ++ [.imm (-256) 255]
/-- The register that ATOM reads and writes: twice as wide for `.CAS` (07 R241). -/
def Cls.atomDest (t : Ty) (op : AtomOp) : List Cls := [.vec ((if op = .cas then 2 else 1) * (t.regWidth / 32))]
/-- The source of RED (07 R241). -/
def Cls.redSrc (t : Ty) : List Cls := Cls.storeSrc t
/-- The source of CVT and CVTI (06 R217). -/
def Cls.cvtSource : SrcFmt → List Cls
  | .f64 | .acc40 => Cls.reg64
  | _ => Cls.reg32
/-- The source of CVTF (06 R219). -/
def Cls.cvtfSource : IntSrc → List Cls
  | .ui64 | .si64 => Cls.reg64
  | _ => Cls.reg32
/-- The destination of CVT8 (06 R220). -/
def Cls.cvt8Dest (t : Ty) (wide : Bool) : List Cls := if t = .e8x4 && wide then [.vec 4] else Cls.reg32
/-- The sources B, C and E of CVT8: used only by narrowing `.E8X4` (06 R220). -/
def Cls.cvt8More (t : Ty) (wide : Bool) : List Cls := if t = .e8x4 && !wide then Cls.reg32 else [.zero]

/-- The value rule of MOVI (05 R184). -/
def moviOk (t : Ty) (v : BitVec 36) (hi : Bool) : Bool :=
  if t.regWidth = 64 then !hi || v.extractLsb' 32 4 == 0
  else !hi && match t with
    | .si32 => decide (-(2 ^ 31) ≤ v.toInt ∧ v.toInt < 2 ^ 31)
    | .ui32 => decide (v.toNat < 2 ^ 32)
    | _ => decide (v.toNat < 2 ^ 32) || decide (-(2 ^ 31) ≤ v.toInt ∧ v.toInt < 2 ^ 31)

/-- The table of TLU stays within v255 (08 R264); `n` is N - 1. -/
def tluBaseOk (a : Opd) (n : BitVec 3) : Bool :=
  match a with
  | .vec r => r.toNat + n.toNat ≤ 255
  | _ => false

/-- The variant field of MMA and MMAG: K from 1 to 7 with `.E8`, 0 with another type (11 R314, 06 R194). -/
def mmaVariantOk (t : Ty) (v : BitVec 5) : Bool :=
  if t = .e8 then v.extractLsb' 0 3 != 0 else v == 0

/-- The pairs of TY and FORMAT that MLOAD allows (11 R332). -/
def mloadPair : Ty → AccFmt → Bool
  | .b64, _ => true
  | .f64, .f64 => true
  | .f32, .f64 | .f32, .f32 | .f32, .acc40 => true
  | .bf16, .f32 | .bf16, .acc40 | .f16, .f32 | .f16, .acc40 => true
  | .si32, .ia40 => true
  | _, _ => false

/-- What the B field of MEPI admits under each operation (11 R314). -/
def MepiOp.bClass : MepiOp → List Cls
  | .scale => [.uni 1]
  | .bias => [.tile .q]
  | .relu => [.absent]

/-- What the B field of TQUERY admits: an index with a shape slot, nothing with a token (10 R292). -/
def tqueryB (a : Opd) : List Cls :=
  match a with
  | .tile _ _ => [.imm 0 7]
  | _ => [.zero]

/-! ### The table -/

/-- The fields of a form beyond OP, FN and MD, by format (02 R71). -/
inductive Body
  | regs (f : Fields)
  | imm36 (f : FieldsI)
  | jump (f : FieldsJ)
  deriving DecidableEq, Repr

/-- One instruction beside its row of the form tables: OP, FN, the MD bits of its modifiers, its fields, the types it
accepts, whether it accepts cache hints, what D, A, B, C and E admit, and what else its row asks. -/
structure Form where
  op    : BitVec 8
  fn    : BitVec 6
  md    : BitVec 6
  body  : Body
  types : List Ty
  hints : Bool
  d     : List Cls
  a     : List Cls
  b     : List Cls
  c     : List Cls
  e     : List Cls
  extra : Bool
  deriving DecidableEq, Repr

/-- A modifier's bits at their place in MD. -/
def mdAt {w : Nat} (pos : Nat) (v : BitVec w) : BitVec 6 := (v.setWidth 6) <<< pos
/-- A one-bit modifier at its place in MD. -/
def mdBit (pos : Nat) (b : Bool) : BitVec 6 := mdAt pos (BitVec.ofBool b)

/-- The form of every instruction; the events of the table of steps have no encoding. -/
def Instr.form : Instr → Option Form
  | .nop f => some ⟨0x0, 0, 0, .regs f, [.none], false,
      [.zero], [.zero], [.zero], [.zero], [.zero], true⟩
  | .yield f => some ⟨0x0, 1, 0, .regs f, [.none], false,
      [.zero], [.zero], [.zero], [.zero], [.zero], true⟩
  | .exit f => some ⟨0x0, 2, 0, .regs f, [.none], false,
      [.zero], [.zero], [.zero], [.zero], [.zero], true⟩
  | .brk f => some ⟨0x0, 3, 0, .regs f, [.none], false,
      [.zero], [.zero], [.zero], [.zero], [.zero], true⟩
  | .trap f => some ⟨0x0, 4, 0, .imm36 f, [.none], false,
      [.zero], [.zero], [.zero], [.zero], [.zero], (f.imm.extractLsb' 16 20 == 0)⟩
  | .rtt f => some ⟨0x0, 5, 0, .regs f, [.none], false,
      [.zero], [.zero], [.zero], [.zero], [.zero], true⟩
  | .elect f => some ⟨0x0, 6, 0, .regs f, [.none], false,
      [.pred], [.zero], [.zero], [.zero], [.zero], true⟩
  | .wdog f trapEn => some ⟨0x0, 7, (mdBit 0 trapEn), .imm36 f, [.none], false,
      [.zero], [.zero], [.zero], [.zero], [.zero], (decide (12 ≤ f.imm.toNat ∧ f.imm.toNat ≤ 30))⟩
  | .bra f => some ⟨0x1, 0, 0, .jump f, [.none], false,
      [.zero], [.zero], [.zero], [.zero], [.zero], true⟩
  | .call f => some ⟨0x1, 1, 0, .jump f, [.none], false,
      [.zero], [.zero], [.zero], [.zero], [.zero], true⟩
  | .brx f => some ⟨0x2, 0, 0, .regs f, [.none], false,
      [.zero], [.vec 2, .uni 1], [.zero], [.zero], [.zero], true⟩
  | .callx f => some ⟨0x2, 1, 0, .regs f, [.none], false,
      [.zero], [.vec 2, .uni 1], [.zero], [.zero], [.zero], true⟩
  | .ret f => some ⟨0x2, 2, 0, .regs f, [.none], false,
      [.zero], [.zero], [.zero], [.zero], [.zero], true⟩
  | .jset f => some ⟨0x3, 0, 0, .regs f, [.none], false,
      [.zero], [.imm 0 7], [.zero], [.zero], [.zero], true⟩
  | .jwait f => some ⟨0x3, 1, 0, .regs f, [.none], false,
      [.zero], [.imm 0 7], [.zero], [.zero], [.zero], true⟩
  | .bara f => some ⟨0x4, 0, 0, .regs f, [.none], false,
      [.zero], [.tile .b], [.zero], [.zero], [.zero], true⟩
  | .barw f => some ⟨0x4, 1, 0, .regs f, [.none], false,
      [.zero], [.tile .b], [.zero], [.zero], [.zero], true⟩
  | .bars f => some ⟨0x4, 2, 0, .regs f, [.none], false,
      [.zero], [.tile .b], [.uni 1, .imm (-256) 255], [.zero], [.zero], true⟩
  | .part f => some ⟨0x5, 0, 0, .regs f, [.none], false,
      [.zero], [.imm 1 5], [.zero], [.zero], [.zero], true⟩
  | .sleep f any => some ⟨0x6, 0, (mdBit 0 any), .regs f, [.none], false,
      [.zero], [.zero], [.zero], [.zero], Cls.keyringOpt, true⟩
  | .ttest f any => some ⟨0x6, 1, (mdBit 0 any), .regs f, [.none], false,
      [.pred], [.zero], [.zero], [.zero], Cls.keyringOpt, true⟩
  | .tstat f => some ⟨0x6, 2, 0, .regs f, [.b64], false,
      [.vec 2, .uni 1], [.tok], [.zero], [.zero], [.zero], true⟩
  | .tfree f => some ⟨0x6, 3, 0, .regs f, [.none], false,
      [.zero], [.zero], [.zero], [.zero], [.tok, .ring], true⟩
  | .tsigArm f => some ⟨0x6, 4, 0, .regs f, [.none], false,
      [.zero], [.tok], [.zero], [.zero], [.zero], true⟩
  | .tsigDone f => some ⟨0x6, 4, (1), .regs f, [.none], false,
      [.zero], [.tok], [.zero], [.zero], [.zero], true⟩
  | .tsigPoison f => some ⟨0x6, 4, (2), .regs f, [.none], false,
      [.zero], [.tok], [.zero], [.zero], [.zero], true⟩
  | .texport f reach peer => some ⟨0x7, 0, (mdAt 0 reach.bits ||| mdBit 3 peer), .regs f, [.none], false,
      [.uni 1, .imm 0 255], [.uni 1], (Cls.pbOffset peer), [.tok], [.tok, .ring], (!peer || reach.atLeastPod)⟩
  | .pbinit f reach => some ⟨0x7, 1, (mdAt 0 reach.bits), .regs f, [.none], false,
      [.uni 1], [.uni 1], [.imm (-256) 255], [.tok], Cls.keyringOpt, true⟩
  | .pbarrive f reach peer poison => some ⟨0x7, 2, (mdAt 0 reach.bits ||| mdBit 3 peer ||| mdBit 4 poison), .regs f, [.none], false,
      [.uni 1, .imm 0 255], [.uni 1], (Cls.pbOffset peer), [.tok], Cls.keyringOpt, (!peer || reach.atLeastPod)⟩
  | .pbwait f reach => some ⟨0x7, 3, (mdAt 0 reach.bits), .regs f, [.none], false,
      [.vec 1, .uni 1, .imm (-256) 255], [.uni 1], [.imm (-256) 255], [.tok], Cls.keyringOpt, true⟩
  | .getsr f => some ⟨0x8, 0, 0, .regs f, [.b32, .b64], false,
      (Cls.reg f.ty), [.sreg], [.zero], [.zero], [.zero], true⟩
  | .setsr f => some ⟨0x8, 1, 0, .regs f, [.b32, .b64], false,
      [.sreg], (Cls.regImm f.ty), [.zero], [.zero], [.zero], true⟩
  | .iadd f sat => some ⟨0x10, 0, (mdBit 0 sat), .regs f, Ty.scalar, false,
      (Cls.reg f.ty), (Cls.reg f.ty), (Cls.regImm f.ty), [.zero], [.pred, .absent], (!sat || f.e == .absent)⟩
  | .isub f sat => some ⟨0x10, 1, (mdBit 0 sat), .regs f, Ty.scalar, false,
      (Cls.reg f.ty), (Cls.reg f.ty), (Cls.regImm f.ty), [.zero], [.pred, .absent], (!sat || f.e == .absent)⟩
  | .iaddx f sub => some ⟨0x10, 2, (mdBit 0 sub), .regs f, Ty.scalar, false,
      (Cls.reg f.ty), (Cls.reg f.ty), (Cls.regImm f.ty), [.pred], [.pred, .absent], true⟩
  | .imul f => some ⟨0x11, 0, 0, .regs f, Ty.scalar, false,
      (Cls.reg f.ty), (Cls.reg f.ty), (Cls.regImm f.ty), [.zero], [.zero], true⟩
  | .imulh f => some ⟨0x11, 1, 0, .regs f, Ty.scalar, false,
      (Cls.reg f.ty), (Cls.reg f.ty), (Cls.regImm f.ty), [.zero], [.zero], true⟩
  | .imad f => some ⟨0x11, 2, 0, .regs f, Ty.scalar, false,
      (Cls.reg f.ty), (Cls.reg f.ty), (Cls.regImm f.ty), (Cls.regImm f.ty), [.zero], true⟩
  | .imadw f => some ⟨0x11, 3, 0, .regs f, [.ui32, .si32], false,
      Cls.reg64, (Cls.reg f.ty), (Cls.regImm f.ty), Cls.regImm64, [.zero], true⟩
  | .idiv f trapEn => some ⟨0x12, 0, (mdBit 0 trapEn), .regs f, Ty.scalar, false,
      (Cls.reg f.ty), (Cls.reg f.ty), (Cls.regImm f.ty), [.zero], [.zero], true⟩
  | .irem f trapEn => some ⟨0x12, 1, (mdBit 0 trapEn), .regs f, Ty.scalar, false,
      (Cls.reg f.ty), (Cls.reg f.ty), (Cls.regImm f.ty), [.zero], [.zero], true⟩
  | .imin f => some ⟨0x13, 0, 0, .regs f, Ty.scalar, false,
      (Cls.reg f.ty), (Cls.reg f.ty), (Cls.regImm f.ty), [.zero], [.zero], true⟩
  | .imax f => some ⟨0x13, 1, 0, .regs f, Ty.scalar, false,
      (Cls.reg f.ty), (Cls.reg f.ty), (Cls.regImm f.ty), [.zero], [.zero], true⟩
  | .iabs f sat => some ⟨0x13, 2, (mdBit 0 sat), .regs f, [.si32, .si64], false,
      (Cls.reg f.ty), (Cls.reg f.ty), [.zero], [.zero], [.zero], true⟩
  | .btab f => some ⟨0x14, 0, 0, .regs f, Ty.bits, false,
      (Cls.reg f.ty), (Cls.reg f.ty), (Cls.regImm f.ty), (Cls.regImm f.ty), [.imm 0 255], true⟩
  | .shl f => some ⟨0x15, 0, 0, .regs f, (Ty.bits ++ Ty.packed), false,
      (Cls.reg f.ty), (Cls.reg f.ty), Cls.count, [.zero], [.zero], true⟩
  | .shr f => some ⟨0x15, 1, 0, .regs f, (Ty.bits ++ Ty.packed), false,
      (Cls.reg f.ty), (Cls.reg f.ty), Cls.count, [.zero], [.zero], true⟩
  | .sar f => some ⟨0x15, 2, 0, .regs f, (Ty.bits ++ Ty.packed), false,
      (Cls.reg f.ty), (Cls.reg f.ty), Cls.count, [.zero], [.zero], true⟩
  | .rot f => some ⟨0x15, 3, 0, .regs f, (Ty.bits ++ Ty.packed), false,
      (Cls.reg f.ty), (Cls.reg f.ty), Cls.count, [.zero], [.zero], true⟩
  | .shf f right => some ⟨0x15, 4, (mdBit 0 right), .regs f, [.b32, .b64], false,
      (Cls.reg f.ty), (Cls.reg f.ty), (Cls.reg f.ty), Cls.count, [.zero], true⟩
  | .bfe f => some ⟨0x16, 0, 0, .regs f, Ty.scalar, false,
      (Cls.reg f.ty), (Cls.reg f.ty), Cls.count, Cls.count, [.zero], true⟩
  | .bfi f => some ⟨0x16, 1, 0, .regs f, Ty.bits, false,
      (Cls.reg f.ty), (Cls.reg f.ty), (Cls.reg f.ty), Cls.count, Cls.count, true⟩
  | .popc f => some ⟨0x17, 0, 0, .regs f, Ty.bits, false,
      Cls.reg32, (Cls.reg f.ty), [.zero], [.zero], [.zero], true⟩
  | .clz f => some ⟨0x17, 1, 0, .regs f, Ty.bits, false,
      Cls.reg32, (Cls.reg f.ty), [.zero], [.zero], [.zero], true⟩
  | .brev f => some ⟨0x17, 2, 0, .regs f, Ty.bits, false,
      (Cls.reg f.ty), (Cls.reg f.ty), [.zero], [.zero], [.zero], true⟩
  | .isetp f cmp bop => some ⟨0x18, 0, (mdAt 0 cmp.bits ||| mdAt 3 bop.bits), .regs f, Ty.scalar, false,
      [.pred], (Cls.reg f.ty), (Cls.regImm f.ty), [.pred, .absent], [.pred, .absent], ((f.c != .absent || bop == .and) && (f.d != f.e))⟩
  | .sel f => some ⟨0x18, 1, 0, .regs f, Ty.bits, false,
      (Cls.reg f.ty), (Cls.reg f.ty), (Cls.regImm f.ty), [.pred], [.zero], true⟩
  | .mov f => some ⟨0x19, 0, 0, .regs f, [.b32, .b64], false,
      (.sreg :: Cls.reg f.ty), (.sreg :: Cls.regImm f.ty), [.zero], [.zero], [.zero], (!(f.d.isSpecial && f.a.isSpecial))⟩
  | .movi f hi => some ⟨0x1a, 0, (mdBit 0 hi), .imm36 f, Ty.bits, false,
      (Cls.reg f.ty), [.zero], [.zero], [.zero], [.zero], (moviOk f.ty f.imm hi)⟩
  | .lea f => some ⟨0x1b, 0, 0, .regs f, Ty.scalar, false,
      Cls.reg64, Cls.reg64, (Cls.reg f.ty), [.imm 0 7], [.zero], true⟩
  | .padd f mode => some ⟨0x1c, 0, (mdAt 0 mode.bits), .regs f, Ty.packed, false,
      (Cls.reg f.ty), (Cls.reg f.ty), (Cls.regImm f.ty), [.zero], [.zero], (mode != .satu || f.ty == .si8x4 || f.ty == .si16x2)⟩
  | .psub f mode => some ⟨0x1c, 1, (mdAt 0 mode.bits), .regs f, Ty.packed, false,
      (Cls.reg f.ty), (Cls.reg f.ty), (Cls.regImm f.ty), [.zero], [.zero], (mode != .satu || f.ty == .si8x4 || f.ty == .si16x2)⟩
  | .pmax f => some ⟨0x1c, 2, 0, .regs f, Ty.packed, false,
      (Cls.reg f.ty), (Cls.reg f.ty), (Cls.regImm f.ty), [.zero], [.zero], true⟩
  | .pmin f => some ⟨0x1c, 3, 0, .regs f, Ty.packed, false,
      (Cls.reg f.ty), (Cls.reg f.ty), (Cls.regImm f.ty), [.zero], [.zero], true⟩
  | .pacs f max => some ⟨0x1d, 0, (mdBit 0 max), .regs f, [.ui16x2, .si16x2], false,
      (Cls.reg f.ty), (Cls.reg f.ty), (Cls.reg f.ty), (Cls.reg f.ty), [.predPair], true⟩
  | .cellkey f wrap => some ⟨0x1e, 0, (mdBit 0 wrap), .regs f, [.f32], false,
      Cls.reg32, (Cls.reg f.ty), (Cls.reg f.ty), (Cls.reg f.ty), [.uni 3], true⟩
  | .fadd f rm => some ⟨0x30, 0, (mdAt 0 rm.bits), .regs f, (Ty.basic ++ Ty.fpacked), false,
      (Cls.reg f.ty), (Cls.reg f.ty), (Cls.regImm f.ty), [.zero], [.zero], true⟩
  | .fmul f rm => some ⟨0x30, 1, (mdAt 0 rm.bits), .regs f, (Ty.basic ++ Ty.fpacked), false,
      (Cls.reg f.ty), (Cls.reg f.ty), (Cls.regImm f.ty), [.zero], [.zero], true⟩
  | .ffma f rm => some ⟨0x30, 2, (mdAt 0 rm.bits), .regs f, (Ty.basic ++ Ty.fpacked), false,
      (Cls.reg f.ty), (Cls.reg f.ty), (Cls.regImm f.ty), (Cls.regImm f.ty), [.zero], true⟩
  | .fmin f nan => some ⟨0x31, 0, (mdBit 0 nan), .regs f, (Ty.basic ++ Ty.fpacked), false,
      (Cls.reg f.ty), (Cls.reg f.ty), (Cls.regImm f.ty), [.zero], [.zero], true⟩
  | .fmax f nan => some ⟨0x31, 1, (mdBit 0 nan), .regs f, (Ty.basic ++ Ty.fpacked), false,
      (Cls.reg f.ty), (Cls.reg f.ty), (Cls.regImm f.ty), [.zero], [.zero], true⟩
  | .fsetp f cmp unord bop => some ⟨0x32, 0, (mdAt 0 cmp.bits ||| mdBit 3 unord ||| mdAt 4 bop.bits), .regs f, Ty.basic, false,
      [.pred], (Cls.reg f.ty), (Cls.regImm f.ty), [.pred, .absent], [.pred, .absent], ((f.c != .absent || bop == .and) && (f.d != f.e) && (!unord || cmp.allowsU))⟩
  | .hfma2 f rm => some ⟨0x33, 0, (mdAt 0 rm.bits), .regs f, Ty.fpacked, false,
      [.vec 2], (Cls.reg f.ty), (Cls.reg f.ty), [.vec 2], [.zero], true⟩
  | .fdiv f rm => some ⟨0x34, 0, (mdAt 0 rm.bits), .regs f, [.f32, .f64], false,
      (Cls.reg f.ty), (Cls.reg f.ty), (Cls.regImm f.ty), [.zero], [.zero], true⟩
  | .fsqrt f rm => some ⟨0x34, 1, (mdAt 0 rm.bits), .regs f, [.f32, .f64], false,
      (Cls.reg f.ty), (Cls.reg f.ty), [.zero], [.zero], [.zero], true⟩
  | .rcp f rm => some ⟨0x35, 0, (mdAt 0 rm.bits), .regs f, [.f32, .f64], false,
      (Cls.reg f.ty), (Cls.reg f.ty), [.zero], [.zero], [.zero], true⟩
  | .rsq f rm => some ⟨0x35, 1, (mdAt 0 rm.bits), .regs f, [.f32, .f64], false,
      (Cls.reg f.ty), (Cls.reg f.ty), [.zero], [.zero], [.zero], true⟩
  | .exp2 f rm => some ⟨0x35, 2, (mdAt 0 rm.bits), .regs f, [.f32], false,
      (Cls.reg f.ty), (Cls.reg f.ty), [.zero], [.zero], [.zero], true⟩
  | .log2 f rm => some ⟨0x35, 3, (mdAt 0 rm.bits), .regs f, [.f32], false,
      (Cls.reg f.ty), (Cls.reg f.ty), [.zero], [.zero], [.zero], true⟩
  | .sin f rm => some ⟨0x35, 4, (mdAt 0 rm.bits), .regs f, [.f32], false,
      (Cls.reg f.ty), (Cls.reg f.ty), [.zero], [.zero], [.zero], true⟩
  | .cos f rm => some ⟨0x35, 5, (mdAt 0 rm.bits), .regs f, [.f32], false,
      (Cls.reg f.ty), (Cls.reg f.ty), [.zero], [.zero], [.zero], true⟩
  | .frnd f rm => some ⟨0x36, 0, (mdAt 0 rm.bits), .regs f, (Ty.basic ++ Ty.fpacked), false,
      (Cls.reg f.ty), (Cls.reg f.ty), [.zero], [.zero], [.zero], true⟩
  | .fclass f => some ⟨0x36, 1, 0, .regs f, Ty.basic, false,
      Cls.reg32, (Cls.reg f.ty), [.zero], [.zero], [.zero], true⟩
  | .fscale f rm => some ⟨0x36, 2, (mdAt 0 rm.bits), .regs f, Ty.basic, false,
      (Cls.reg f.ty), (Cls.reg f.ty), Cls.regImm32, [.zero], [.zero], true⟩
  | .fgetexp f => some ⟨0x36, 3, 0, .regs f, Ty.basic, false,
      Cls.reg32, (Cls.reg f.ty), [.zero], [.zero], [.zero], true⟩
  | .cvt f rm src => some ⟨0x37, 0, (mdAt 0 rm.bits ||| mdAt 3 src.bits), .regs f, (Ty.basic ++ [.sc24] ++ Ty.fpacked), false,
      (Cls.reg f.ty), (Cls.cvtSource src), (if f.ty.isFpacked then Cls.reg32 else [.zero]), [.zero], [.zero], (!f.ty.isFpacked || src == .f32)⟩
  | .cvti f rm src => some ⟨0x37, 1, (mdAt 0 rm.bits ||| mdAt 3 src.bits), .regs f, Ty.scalar, false,
      (Cls.reg f.ty), (Cls.cvtSource src), [.zero], [.zero], [.zero], (src != .sc24 && src != .acc40)⟩
  | .cvtf f rm src => some ⟨0x37, 2, (mdAt 0 rm.bits ||| mdAt 3 src.bits), .regs f, Ty.basic, false,
      (Cls.reg f.ty), (Cls.cvtfSource src), [.zero], [.zero], [.zero], true⟩
  | .cvt8 f var wide => some ⟨0x37, 3, (mdAt 0 var.bits ||| mdBit 5 wide), .regs f, [.e8, .e8x4], false,
      (Cls.cvt8Dest f.ty wide), Cls.reg32, (Cls.cvt8More f.ty wide), (Cls.cvt8More f.ty wide), (Cls.cvt8More f.ty wide), true⟩
  | .fflags f => some ⟨0x38, 0, 0, .regs f, [.b32], false,
      Cls.reg32, Cls.regImm32, [.zero], [.zero], [.zero], true⟩
  | .fenv f => some ⟨0x38, 1, 0, .regs f, [.b32], false,
      Cls.reg32, Cls.regImm32, Cls.regImm32, [.zero], [.zero], true⟩
  | .xget f mode => some ⟨0x50, 0, (mdAt 0 mode.bits), .regs f, [.b32, .b64], false,
      (Cls.reg f.ty), (Cls.reg f.ty), Cls.count, [.zero], [.pred, .absent], true⟩
  | .poll f mode inv => some ⟨0x51, 0, (mdAt 0 mode.bits ||| mdBit 3 inv), .regs f, [.none, .b32], false,
      (if mode.isVote then [.pred] else Cls.reg32), [.pred], [.zero], [.zero], [.zero], (mode.isVote == (f.ty == .none))⟩
  | .peers f unif => some ⟨0x52, 0, (mdBit 0 unif), .regs f, [.b32, .b64], false,
      Cls.reg32, (Cls.reg f.ty), [.zero], [.zero], [.pred, .absent], true⟩
  | .foldx f op => some ⟨0x53, 0, (mdAt 0 op.bits), .regs f, (Ty.scalar ++ [.b32, .b64, .f32]), false,
      (Cls.reg f.ty), (Cls.reg f.ty), [.zero], [.zero], [.zero], (op.accepts f.ty)⟩
  | .scanx f op excl => some ⟨0x54, 0, (mdAt 0 op.bits ||| mdBit 3 excl), .regs f, (Ty.scalar ++ [.b32, .b64, .f32]), false,
      (Cls.reg f.ty), (Cls.reg f.ty), [.zero], [.zero], [.zero], (op.accepts f.ty)⟩
  | .tlu f n => some ⟨0x55, 0, (mdAt 0 n), .regs f, [.b32], false,
      Cls.reg32, [.vecDirect], Cls.reg32, Cls.regImm32, [.zero], (tluBaseOk f.a n)⟩
  | .bysel f => some ⟨0x56, 0, 0, .regs f, [.b32], false,
      (Cls.reg f.ty), (Cls.reg f.ty), (Cls.regImm f.ty), Cls.regImm32, [.zero], true⟩
  | .bcast f first => some ⟨0x57, 0, (mdBit 0 first), .regs f, [.b32, .b64], false,
      (Cls.reg f.ty), (Cls.reg f.ty), (if first then [.absent] else Cls.count), [.zero], [.zero], true⟩
  | .ld f str => some ⟨0x60, 0, (mdAt 0 str.bits), .regs f, Ty.load, true,
      (Cls.loadDest f.ty), [.vec 2, .uni 1], (if str == .relaxed then Cls.offset else [.desc false]), [.tok], Cls.keyringOpt, (str == .relaxed || str == .acq)⟩
  | .st f str => some ⟨0x61, 0, (mdAt 0 str.bits), .regs f, Ty.store, true,
      (Cls.storeSrc f.ty), [.vec 2, .uni 1], (if str == .relaxed then Cls.offset else [.desc false]), [.tok], Cls.keyringOpt, (str == .relaxed || str == .rel)⟩
  | .lds f latch => some ⟨0x62, 0, (mdAt 0 latch.bits), .regs f, Ty.load, false,
      (Cls.loadDest f.ty), Cls.reg32, Cls.offset, [.tok], Cls.keyringOpt, (latch == .none || f.c == .tok 0)⟩
  | .sts f => some ⟨0x63, 0, 0, .regs f, Ty.store, false,
      (Cls.storeSrc f.ty), Cls.reg32, Cls.offset, [.tok], Cls.keyringOpt, true⟩
  | .latchSet f => some ⟨0x64, 0, 0, .regs f, [.none], false,
      [.zero], Cls.reg32, Cls.offset, [.tok], Cls.keyringOpt, true⟩
  | .latchClr f => some ⟨0x64, 0, (1), .regs f, [.none], false,
      [.zero], Cls.reg32, Cls.offset, [.tok], Cls.keyringOpt, true⟩
  | .atom f op csm str => some ⟨0x65, 0, (mdAt 0 op.bits ||| mdBit 3 csm ||| mdAt 4 str.bits), .regs f, Ty.atomic, false,
      (Cls.atomDest f.ty op), (if csm then Cls.reg32 else Cls.reg64), [.desc false], [.tok], Cls.keyringOpt, (op.accepts f.ty)⟩
  | .red f op csm str => some ⟨0x66, 0, (mdAt 0 op.bits ||| mdBit 3 csm ||| mdAt 4 str.bits), .regs f, Ty.atomic, false,
      (Cls.redSrc f.ty), (if csm then Cls.reg32 else Cls.reg64), [.desc false], [.tok], Cls.keyringOpt, (op.accepts f.ty && op.reduces && (str == .relaxed || str == .rel))⟩
  | .fence f str un => some ⟨0x67, 0, (mdAt 0 str.bits ||| mdBit 2 un), .regs f, [.none], false,
      [.zero], [.desc false], [.zero], [.zero], [.zero], (str != .relaxed)⟩
  | .promote f => some ⟨0x68, 0, 0, .regs f, [.none], false,
      [.zero], [.desc false], [.place], [.tok], Cls.keyringOpt, true⟩
  | .prefetch f => some ⟨0x69, 0, 0, .regs f, [.none], true,
      [.zero], [.vec 2, .uni 1], Cls.offset, [.zero], [.zero], true⟩
  | .mdld f => some ⟨0x6a, 0, 0, .regs f, [.b32], false,
      Cls.reg32, [.vec 2, .uni 1], Cls.offset, [.tok], Cls.keyringOpt, true⟩
  | .mdst f => some ⟨0x6b, 0, 0, .regs f, [.b32], false,
      Cls.reg32, [.vec 2, .uni 1], Cls.offset, [.tok], Cls.keyringOpt, true⟩
  | .ldloc f => some ⟨0x6c, 0, 0, .regs f, Ty.load, true,
      (Cls.loadDest f.ty), Cls.reg32, Cls.offset, [.tok], Cls.keyringOpt, true⟩
  | .stloc f => some ⟨0x6d, 0, 0, .regs f, Ty.store, true,
      (Cls.storeSrc f.ty), Cls.reg32, Cls.offset, [.tok], Cls.keyringOpt, true⟩
  | .cctlInv f => some ⟨0x6e, 0, 0, .regs f, [.none], false,
      [.zero], [.vec 2, .uni 1], Cls.offset, [.tok], Cls.keyringOpt, true⟩
  | .cctlInvall f => some ⟨0x6e, 0, (1), .regs f, [.none], false,
      [.zero], [.zero], [.zero], [.tok], Cls.keyringOpt, true⟩
  | .codepub f => some ⟨0x80, 0, 0, .regs f, [.none], false,
      [.uni 1, .imm 0 255], [.vec 2, .uni 1], [.desc true], [.tok], Cls.keyringOpt, true⟩
  | .cpatch f ent => some ⟨0x80, 1, (mdAt 0 ent.bits), .regs f, [.none], false,
      [.vec 4], [.vec 2, .uni 1], [.desc true], [.tok], Cls.keyringOpt, true⟩
  | .codeq f => some ⟨0x80, 2, 0, .regs f, [.b64], false,
      Cls.reg64, [.vec 2, .uni 1], Cls.offset, [.tok], Cls.keyringOpt, true⟩
  | .hload f => some ⟨0x90, 0, 0, .regs f, [.none], true,
      [.tile .h], [.uni 1], [.zero], [.tok], Cls.keyringOpt, true⟩
  | .tload f scsm => some ⟨0x91, 0, (mdBit 0 scsm), .regs f, [.none], true,
      [.tile .q], [.tile .h], [.uni 1], [.tok], Cls.keyringOpt, true⟩
  | .tstore f rop => some ⟨0x92, 0, (mdAt 4 rop.bits), .regs f, [.none], true,
      [.uni 1], [.tile .h], [.uni 1], [.tok], Cls.keyringOpt, true⟩
  | .tcopy f scsm dcsm latch => some ⟨0x93, 0, (mdBit 0 scsm ||| mdBit 1 dcsm ||| mdBit 2 latch), .regs f, [.none], true,
      [.uni 1], [.tile .h], [.uni 1], [.tok], Cls.keyringOpt, (!latch || dcsm)⟩
  | .tmcast f latch => some ⟨0x94, 0, (mdBit 2 latch), .regs f, [.none], true,
      [.uni 2], [.tile .h], [.uni 1], [.tok], Cls.keyringOpt, true⟩
  | .tgather f latch icsm => some ⟨0x95, 0, (mdBit 2 latch ||| mdBit 3 icsm), .regs f, [.none], true,
      [.uni 1], [.tile .h], [.uni 2], [.tok], Cls.keyringOpt, true⟩
  | .tscatter f icsm rop => some ⟨0x96, 0, (mdBit 3 icsm ||| mdAt 4 rop.bits), .regs f, [.none], true,
      [.uni 2], [.tile .h], [.uni 1], [.tok], Cls.keyringOpt, true⟩
  | .tfill f dcsm latch => some ⟨0x97, 0, (mdBit 1 dcsm ||| mdBit 2 latch), .regs f, [.none], true,
      [.uni 1], [.tile .h], [.uni 1, .imm (-256) 255], [.tok], Cls.keyringOpt, (!latch || dcsm)⟩
  | .tquery f => some ⟨0x98, 0, 0, .regs f, [.b64], false,
      Cls.reg64, [.tok, .tile .h], (tqueryB f.a), [.zero], [.zero], true⟩
  | .wardq f csm => some ⟨0x99, 0, (mdBit 0 csm), .regs f, [.b64], false,
      Cls.reg64, (if csm then Cls.reg32 else Cls.reg64), [.zero], [.zero], [.zero], true⟩
  | .mma f var => some ⟨0xa0, 0, (mdAt 0 var), .regs f, Ty.mma, false,
      [.tile .a], [.tile .q], [.uni 1], [.tok], Cls.keyringOpt, (mmaVariantOk f.ty var)⟩
  | .mmag f var => some ⟨0xa1, 0, (mdAt 0 var), .regs f, Ty.mma, false,
      [.tile .a], [.tile .q], [.uni 2], [.tok], Cls.keyringOpt, (mmaVariantOk f.ty var)⟩
  | .mzero f mc nc => some ⟨0xa2, 0, (mdAt 0 mc.bits ||| mdAt 2 nc.bits), .regs f, [.f64, .f32, .acc40, .ia40], false,
      [.tile .a], [.zero], [.zero], [.tok], Cls.keyringOpt, true⟩
  | .mload f mc nc fmt => some ⟨0xa3, 0, (mdAt 0 mc.bits ||| mdAt 2 nc.bits ||| mdAt 4 fmt.bits), .regs f, [.b64, .f64, .f32, .bf16, .f16, .si32], false,
      [.tile .a], [.uni 1], [.uni 1], [.tok], Cls.keyringOpt, (mloadPair f.ty fmt)⟩
  | .mstore f latch => some ⟨0xa4, 0, (mdBit 2 latch), .regs f, [.b64, .f64, .f32, .bf16, .f16, .si32], false,
      [.uni 1], [.tile .a], [.uni 1], [.tok], Cls.keyringOpt, true⟩
  | .mred f latch op => some ⟨0xa5, 0, (mdBit 2 latch ||| mdAt 4 op.bits), .regs f, [.f64, .f32, .si32], false,
      [.uni 1], [.tile .a], [.uni 1], [.tok], Cls.keyringOpt, true⟩
  | .mepi f op => some ⟨0xa6, 0, (mdAt 0 op.bits), .regs f, [.none], false,
      [.tile .a], [.tile .a], op.bClass, [.tok], Cls.keyringOpt, true⟩
  | .mflags f => some ⟨0xa7, 0, 0, .regs f, [.b32], false,
      Cls.reg32, [.tile .a], [.imm 0 63], [.zero], [.zero], true⟩
  | .fld f str sys => some ⟨0xb0, 0, (mdAt 0 str.bits ||| mdBit 2 sys), .regs f, Ty.load, false,
      (Cls.loadDest f.ty), [.vec 2, .uni 1], Cls.endpoint, [.tok], Cls.keyringOpt, (str == .relaxed || str == .acq)⟩
  | .fst f str sys => some ⟨0xb1, 0, (mdAt 0 str.bits ||| mdBit 2 sys), .regs f, Ty.store, false,
      (Cls.storeSrc f.ty), [.vec 2, .uni 1], Cls.endpoint, [.tok], Cls.keyringOpt, (str == .relaxed || str == .rel)⟩
  | .fstBlk f str sys => some ⟨0xb1, 0, (mdAt 0 str.bits ||| mdBit 2 sys ||| 8), .regs f, [.none], false,
      [.uni 1], [.uni 1], Cls.endpoint, [.tok], Cls.keyringOpt, (str == .relaxed || str == .rel)⟩
  | .fatom f op str sys => some ⟨0xb2, 0, (mdAt 0 op.bits ||| mdAt 3 str.bits ||| mdBit 5 sys), .regs f, Ty.atomic, false,
      (Cls.atomDest f.ty op), [.vec 2, .uni 1], Cls.endpoint, [.tok], Cls.keyringOpt, (op.accepts f.ty)⟩
  | .fatomc f op str sys => some ⟨0xb3, 0, (mdAt 0 op.bits ||| mdAt 3 str.bits ||| mdBit 5 sys), .regs f, (Ty.scalar ++ [.b32, .b64]), false,
      (Cls.atomDest f.ty op), [.vec 2, .uni 1], Cls.endpoint, [.tok], Cls.keyringOpt, (op.accepts f.ty && op.reduces)⟩
  | .fticket f sys => some ⟨0xb4, 0, (mdBit 2 sys), .regs f, [.b32], false,
      Cls.reg32, [.uni 1], Cls.endpoint, [.tokNot0], Cls.keyringOpt, true⟩
  | .fred f op str sys => some ⟨0xb5, 0, (mdAt 0 op.bits ||| mdAt 3 str.bits ||| mdBit 5 sys), .regs f, Ty.atomicNot128, false,
      (Cls.redSrc f.ty), [.vec 2, .uni 1], Cls.endpoint, [.tok], Cls.keyringOpt, (op.accepts f.ty && op.reduces && (str == .relaxed || str == .rel))⟩
  | .fmcast f str sys => some ⟨0xb6, 0, (mdAt 0 str.bits ||| mdBit 2 sys), .regs f, Ty.store, false,
      (Cls.storeSrc f.ty), [.vec 2, .uni 1], [.uni 1], [.tok], Cls.keyringOpt, (str == .relaxed || str == .rel)⟩
  | .fflush f sys => some ⟨0xb7, 0, (mdBit 2 sys), .regs f, [.none], false,
      [.zero], [.zero], (.absent :: Cls.endpoint), [.tok], Cls.keyringOpt, true⟩
  | .fsigTret f sys => some ⟨0xb8, 0, (mdBit 2 sys), .regs f, [.none], false,
      [.zero], [.uni 1], Cls.endpoint, [.tok], Cls.keyringOpt, true⟩
  | .fsigTpois f sys => some ⟨0xb8, 0, (1 ||| mdBit 2 sys), .regs f, [.none], false,
      [.zero], [.uni 1], Cls.endpoint, [.tok], Cls.keyringOpt, true⟩
  | .fquery f => some ⟨0xb9, 0, 0, .regs f, [.b64], false,
      Cls.reg64, Cls.endpoint, [.zero], [.zero], [.zero], true⟩
  | .spawn f => some ⟨0xc0, 0, 0, .regs f, [.b128], false,
      [.vec 4], [.vec 2, .uni 1], [.place], [.tok], Cls.keyringOpt, true⟩
  | .bincfg f => some ⟨0xc1, 0, 0, .regs f, [.none], false,
      [.zero], [.imm 0 15], [.uni 1], [.uni 1], [.zero], true⟩
  | .wqcfg f => some ⟨0xc2, 0, 0, .regs f, [.none], false,
      [.zero], [.imm 0 63], [.uni 1], [.uni 1], [.zero], true⟩
  | .wqpush f => some ⟨0xc3, 0, 0, .regs f, [.b128], false,
      [.vec 4], [.uni 1, .imm 0 63], [.zero], [.tok], Cls.keyringOpt, true⟩
  | .tstream f => some ⟨0xc4, 0, 0, .regs f, [.none], false,
      [.zero], [.imm 0 63], [.uni 1], [.uni 1], [.zero], true⟩
  | .tsubmit f => some ⟨0xc5, 0, 0, .regs f, [.none], false,
      [.uni 1, .imm 0 63], [.uni 1], [.zero], [.tok], Cls.keyringOpt, true⟩
  | .trelease f => some ⟨0xc6, 0, 0, .regs f, [.none], false,
      [.zero], [.imm 0 63], [.uni 1], [.zero], [.zero], true⟩
  | .taskinfo f => some ⟨0xc7, 0, 0, .regs f, [.b64], false,
      Cls.reg64, [.imm 0 3], [.uni 1, .imm (-256) 255], [.zero], [.zero], true⟩
  | .rcpin f => some ⟨0xc8, 0, 0, .regs f, [.none], false,
      [.uni 1, .imm 0 255], [.vec 2, .uni 1], [.zero], [.tok], Cls.keyringOpt, true⟩
  | .rcunpin f => some ⟨0xc9, 0, 0, .regs f, [.none], false,
      [.uni 1, .imm 0 255], [.vec 2, .uni 1], [.zero], [.tok], Cls.keyringOpt, true⟩
  | .rcretire f => some ⟨0xca, 0, 0, .regs f, [.none], false,
      [.uni 1, .imm 0 255], [.vec 2, .uni 1], [.zero], [.tok], Cls.keyringOpt, true⟩
  | .rcdrop f => some ⟨0xcb, 0, 0, .regs f, [.none], false,
      [.uni 1, .imm 0 255], [.vec 2, .uni 1], [.zero], [.tok], Cls.keyringOpt, true⟩
  | .rcquery f => some ⟨0xcc, 0, 0, .regs f, [.b64], false,
      Cls.reg64, [.vec 2, .uni 1], [.uni 1, .imm 0 8], [.zero], [.zero], true⟩
  | .tlbsd f mode => some ⟨0xd0, 0, (mdAt 0 mode.bits), .regs f, [.none], false,
      (if mode == .va then [.uni 1] else [.absent]), (if mode == .va then [.uni 1] else [.absent]), (if mode == .all then [.absent] else [.uni 1]), [.tok], Cls.keyringOpt, true⟩
  | .tlbinv f mode => some ⟨0xd1, 0, (mdAt 0 mode.bits), .regs f, [.none], false,
      [.zero], (if mode == .va then [.uni 1] else [.absent]), (if mode == .all then [.absent] else [.uni 1]), [.zero], [.zero], true⟩
  | .addrq f acc => some ⟨0xd2, 0, (mdAt 0 acc.bits), .regs f, [.b64], false,
      Cls.reg64, [.vec 2, .uni 1], Cls.offset, [.tok], Cls.keyringOpt, true⟩
  | .rgnsw f mode => some ⟨0xd3, 0, (mdAt 0 mode.bits), .regs f, [.none], false,
      [.uni 1], [.uni 1], [.zero], [.tok], Cls.keyringOpt, true⟩
  | .ctxsave f => some ⟨0xd4, 0, 0, .regs f, [.none], false,
      [.uni 1, .vec 1], [.uni 1], [.zero], [.zero], [.zero], true⟩
  | .ctxload f => some ⟨0xd5, 0, 0, .regs f, [.none], false,
      [.uni 1], [.uni 1], [.zero], [.tok], Cls.keyringOpt, true⟩
  | .operationStart _ => none
  | .readRetry _ _ => none
  | .lmeOperationComplete _ => none
  | .latchWaitServed _ _ => none
  | .sleepWake _ _ _ => none
  | .tsigDoneApply _ _ _ => none
  | .engineBarrierArrival => none
  | .pbwaitConditionMet _ => none
  | .cpeOperationSettle _ => none
  | .mxeOperationStart _ => none
  | .mxeCommit _ => none
  | .gangMemberAcquire _ => none
  | .gangSettle _ => none
  | .fabOperationSettle _ _ => none
  | .fabRequestTimeout _ => none
  | .peerPacketArrival _ => none
  | .portOutOfService _ => none
  | .atomicUnitAct _ _ => none
  | .watchdogFire _ _ => none
  | .trapEntry _ _ _ => none
  | .preemptDeadlineExpiry _ => none
  | .contextSaveWrite _ _ => none
  | .ctxloadGrant _ _ => none
  | .clusterDispatch _ => none
  | .coresidentLaunchGrant => none
  | .crewRelease _ => none
  | .spawnRecordArrival _ _ => none
  | .binTimerExpiry _ _ => none
  | .binWarpFormation _ => none
  | .queueRefill _ _ => none
  | .taskEntry _ _ => none
  | .taskDispatch _ => none
  | .taskCompletion _ _ => none
  | .l2LineEviction _ => none
  | .recomputeDispatch _ => none
  | .recomputeSettle _ _ => none
  | .hostCxlMemRead _ _ => none
  | .hostCxlMemWrite _ _ _ => none
  | .hostReadShared _ => none
  | .hostReadForOwnership _ => none
  | .hostWriteBack _ _ => none
  | .hostCleanEviction _ => none
  | .recallTimeout _ => none
  | .migration _ _ _ => none
  | .migrationReturn _ => none
  | .dieFailure _ => none
  | .bankRefresh _ _ _ _ => none
  | .aboAlert _ _ _ => none
  | .fetchLineArrival _ _ _ => none
  | .v1RecordFlush _ => none
  | .tlbsdComplete _ => none
  | .xlrpWrite _ _ => none
  | .tstatPoisonClear _ _ => none
  | .joinRegisterWrite _ _ _ _ => none
  | .hmctlWrite _ _ => none
  | .registerWrite _ _ => none
  | .cplheadWrite _ => none
  | .completionPost => none
  | .launch _ => none
  | .launchEnd _ => none
  | .map _ => none
  | .unmap => none
  | .bandMode => none
  | .podWindowControl => none
  | .codePublish _ => none
  | .shootdown => none
  | .region => none
  | .errlog => none
  | .resetCold _ => none
  | .resetWarm _ => none
  | .powerOn _ => none
  | .attest _ => none
  | .launchctlPreempt => none
  | .launchctlEnd => none
  | .launchctlResume => none
  | .fwloadImage => none
  | .fwloadRepairMap => none
  | .throttleStep _ _ _ => none
  | .recallResponse _ _ => none
  | .tbeOperationSettle _ => none

end Sys2Proof
end

