-- ==== Sys2Proof/WellFormed.lean ====
section
/-! DEFINITION. Well-formed instructions: exactly those that 02 R77 does not make illegal. An event of the table of
steps has no encoding and is well-formed by nature. -/

namespace Sys2Proof

/-- Why an encoding is illegal (02 R77). -/
inductive Reject
  /-- (OP, FN) is unassigned (02 R76). -/
  | unassigned
  /-- TY is not accepted by the form (02 R72). -/
  | badType
  /-- CH is reserved, or nonzero in a form without memory access (02 R73). -/
  | badHint
  /-- MD holds a value that the form does not define (02 R74). -/
  | badModifier
  /-- D, A, B, C or E holds a class, an index, a base or an immediate that the form does not admit there, or a reserved
  bit is set (02 R55, R58, R60, R64, R65). -/
  | badD | badA | badB | badC | badE
  /-- The J slot is 5, 6 or 7 (02 R71). -/
  | badSlot
  /-- Fields that are each admitted break a rule of the form together. -/
  | badCombination
  deriving DecidableEq, Repr

/-- Whether one class of a field's list admits an operand. -/
def admitsAny (cs : List Cls) (o : Opd) : Bool := cs.any fun c => c.admits o

/-- The first rule of 02 R77 that a form breaks. -/
def Form.check (F : Form) : Option Reject :=
  match F.body with
  | .regs f =>
    if !F.types.contains f.ty then some .badType
    else if !(F.hints || f.ch == .dflt) then some .badHint
    else if !admitsAny F.d f.d then some .badD
    else if !admitsAny F.a f.a then some .badA
    else if !admitsAny F.b f.b then some .badB
    else if !admitsAny F.c f.c then some .badC
    else if !admitsAny F.e f.e then some .badE
    else if !F.extra then some .badCombination
    else none
  | .imm36 f =>
    if !F.types.contains f.ty then some .badType
    else if !admitsAny F.d f.d then some .badD
    else if !F.extra then some .badCombination
    else none
  | .jump _ => if !F.extra then some .badCombination else none

/-- An instruction that can stand in a slot (02 R77): a form without a fault. -/
def Instr.wf (i : Instr) : Bool :=
  match i.form with
  | some F => F.check.isNone
  | none => false

end Sys2Proof
end

