-- ==== Sys2Proof/Decode.lean ====
section
/-! DEFINITION. Decoding (02 R54-R77): a slot of 96 bits becomes an instruction or a named refusal, total on any bits.
The encoder stands after the decoder and is written over the same table of forms. -/

namespace Sys2Proof

/-! ### The fields of a slot -/

/-- The fields of 02 R54, high to low. -/
structure Raw where
  op : BitVec 8
  fn : BitVec 6
  ga : BitVec 4
  gb : BitVec 4
  ty : BitVec 5
  ch : BitVec 3
  md : BitVec 6
  d  : BitVec 12
  a  : BitVec 12
  b  : BitVec 12
  c  : BitVec 12
  e  : BitVec 12
  deriving DecidableEq, Repr

/-- A slot cut into its fields (02 R54). -/
def Raw.ofSlot (s : Slot) : Raw where
  op := s.extractLsb' 88 8
  fn := s.extractLsb' 82 6
  ga := s.extractLsb' 78 4
  gb := s.extractLsb' 74 4
  ty := s.extractLsb' 69 5
  ch := s.extractLsb' 66 3
  md := s.extractLsb' 60 6
  d  := s.extractLsb' 48 12
  a  := s.extractLsb' 36 12
  b  := s.extractLsb' 24 12
  c  := s.extractLsb' 12 12
  e  := s.extractLsb' 0 12

/-- The fields joined into a slot (02 R54). -/
def Raw.toSlot (r : Raw) : Slot :=
  r.op ++ r.fn ++ r.ga ++ r.gb ++ r.ty ++ r.ch ++ r.md ++ r.d ++ r.a ++ r.b ++ r.c ++ r.e

/-- The 36 bits that the B, C and E fields hold together in formats I and J (02 R71). -/
def Raw.imm36 (r : Raw) : BitVec 36 := r.b ++ r.c ++ r.e

/-- The fields of an A, M, X or P slot, or the first that no class of 02 R58 or code of R72, R73 reads. -/
def Fields.ofRaw (r : Raw) : Except Reject Fields :=
  match Ty.ofCode r.ty, Hint.ofCode r.ch, Opd.ofBits r.d, Opd.ofBits r.a, Opd.ofBits r.b, Opd.ofBits r.c,
      Opd.ofBits r.e with
  | some ty, some ch, some d, some a, some b, some c, some e =>
    .ok ⟨Guard.ofBits r.ga, Guard.ofBits r.gb, ty, ch, d, a, b, c, e⟩
  | none, _, _, _, _, _, _ => .error .badType
  | _, none, _, _, _, _, _ => .error .badHint
  | _, _, none, _, _, _, _ => .error .badD
  | _, _, _, none, _, _, _ => .error .badA
  | _, _, _, _, none, _, _ => .error .badB
  | _, _, _, _, _, none, _ => .error .badC
  | _, _, _, _, _, _, none => .error .badE

/-- The fields of an I slot. -/
def FieldsI.ofRaw (r : Raw) : Except Reject FieldsI :=
  match Ty.ofCode r.ty, Opd.ofBits r.d with
  | some ty, some d => .ok ⟨Guard.ofBits r.ga, Guard.ofBits r.gb, ty, d, r.imm36⟩
  | none, _ => .error .badType
  | _, none => .error .badD

/-- The fields of a J slot: the signed line offset in [35:3] and the slot in [2:0] (02 R71). -/
def FieldsJ.ofRaw (r : Raw) : Except Reject FieldsJ :=
  if h : (r.imm36.extractLsb' 0 3).toNat < 5 then
    .ok ⟨Guard.ofBits r.ga, Guard.ofBits r.gb, r.imm36.extractLsb' 3 33, ⟨_, h⟩⟩
  else .error .badSlot

/-! ### The decoder -/

/-- A modifier read from MD, or the refusal of a reserved code (02 R74). -/
def mdField {α : Type} (o : Option α) : Except Reject α :=
  match o with
  | some v => .ok v
  | none => .error .badModifier

/-- One row of the opcode map (02 R76): an assigned (OP, FN) and how its fields and modifiers read. -/
structure DecodeRow where
  op   : BitVec 8
  fn   : BitVec 6
  make : Raw → Except Reject Instr

/-- The rows of SEQ (04 R124). -/
def decodeRowsSeq : List DecodeRow := [
  ⟨0x0, 0, fun r => do let f ← Fields.ofRaw r; pure (.nop f)⟩,
  ⟨0x0, 1, fun r => do let f ← Fields.ofRaw r; pure (.yield f)⟩,
  ⟨0x0, 2, fun r => do let f ← Fields.ofRaw r; pure (.exit f)⟩,
  ⟨0x0, 3, fun r => do let f ← Fields.ofRaw r; pure (.brk f)⟩,
  ⟨0x0, 4, fun r => do let f ← FieldsI.ofRaw r; pure (.trap f)⟩,
  ⟨0x0, 5, fun r => do let f ← Fields.ofRaw r; pure (.rtt f)⟩,
  ⟨0x0, 6, fun r => do let f ← Fields.ofRaw r; pure (.elect f)⟩,
  ⟨0x0, 7, fun r => do let f ← FieldsI.ofRaw r; pure (.wdog f (r.md.getLsbD 0))⟩,
  ⟨0x1, 0, fun r => do let f ← FieldsJ.ofRaw r; pure (.bra f)⟩,
  ⟨0x1, 1, fun r => do let f ← FieldsJ.ofRaw r; pure (.call f)⟩,
  ⟨0x2, 0, fun r => do let f ← Fields.ofRaw r; pure (.brx f)⟩,
  ⟨0x2, 1, fun r => do let f ← Fields.ofRaw r; pure (.callx f)⟩,
  ⟨0x2, 2, fun r => do let f ← Fields.ofRaw r; pure (.ret f)⟩,
  ⟨0x3, 0, fun r => do let f ← Fields.ofRaw r; pure (.jset f)⟩,
  ⟨0x3, 1, fun r => do let f ← Fields.ofRaw r; pure (.jwait f)⟩,
  ⟨0x4, 0, fun r => do let f ← Fields.ofRaw r; pure (.bara f)⟩,
  ⟨0x4, 1, fun r => do let f ← Fields.ofRaw r; pure (.barw f)⟩,
  ⟨0x4, 2, fun r => do let f ← Fields.ofRaw r; pure (.bars f)⟩,
  ⟨0x5, 0, fun r => do let f ← Fields.ofRaw r; pure (.part f)⟩,
  ⟨0x6, 0, fun r => do let f ← Fields.ofRaw r; pure (.sleep f (r.md.getLsbD 0))⟩,
  ⟨0x6, 1, fun r => do let f ← Fields.ofRaw r; pure (.ttest f (r.md.getLsbD 0))⟩,
  ⟨0x6, 2, fun r => do let f ← Fields.ofRaw r; pure (.tstat f)⟩,
  ⟨0x6, 3, fun r => do let f ← Fields.ofRaw r; pure (.tfree f)⟩,
  ⟨0x6, 4, fun r => do let f ← Fields.ofRaw r; match (r.md.extractLsb' 0 2).toNat with | 0 => .ok (.tsigArm f) | 1 => .ok (.tsigDone f) | 2 => .ok (.tsigPoison f) | _ => .error .badModifier⟩,
  ⟨0x7, 0, fun r => do let f ← Fields.ofRaw r; let reach ← mdField (Reach.ofBits (r.md.extractLsb' 0 3)); pure (.texport f reach (r.md.getLsbD 3))⟩,
  ⟨0x7, 1, fun r => do let f ← Fields.ofRaw r; let reach ← mdField (Reach.ofBits (r.md.extractLsb' 0 3)); pure (.pbinit f reach)⟩,
  ⟨0x7, 2, fun r => do let f ← Fields.ofRaw r; let reach ← mdField (Reach.ofBits (r.md.extractLsb' 0 3)); pure (.pbarrive f reach (r.md.getLsbD 3) (r.md.getLsbD 4))⟩,
  ⟨0x7, 3, fun r => do let f ← Fields.ofRaw r; let reach ← mdField (Reach.ofBits (r.md.extractLsb' 0 3)); pure (.pbwait f reach)⟩,
  ⟨0x8, 0, fun r => do let f ← Fields.ofRaw r; pure (.getsr f)⟩,
  ⟨0x8, 1, fun r => do let f ← Fields.ofRaw r; pure (.setsr f)⟩]

/-- The rows of INT (05 R172). -/
def decodeRowsInt : List DecodeRow := [
  ⟨0x10, 0, fun r => do let f ← Fields.ofRaw r; pure (.iadd f (r.md.getLsbD 0))⟩,
  ⟨0x10, 1, fun r => do let f ← Fields.ofRaw r; pure (.isub f (r.md.getLsbD 0))⟩,
  ⟨0x10, 2, fun r => do let f ← Fields.ofRaw r; pure (.iaddx f (r.md.getLsbD 0))⟩,
  ⟨0x11, 0, fun r => do let f ← Fields.ofRaw r; pure (.imul f)⟩,
  ⟨0x11, 1, fun r => do let f ← Fields.ofRaw r; pure (.imulh f)⟩,
  ⟨0x11, 2, fun r => do let f ← Fields.ofRaw r; pure (.imad f)⟩,
  ⟨0x11, 3, fun r => do let f ← Fields.ofRaw r; pure (.imadw f)⟩,
  ⟨0x12, 0, fun r => do let f ← Fields.ofRaw r; pure (.idiv f (r.md.getLsbD 0))⟩,
  ⟨0x12, 1, fun r => do let f ← Fields.ofRaw r; pure (.irem f (r.md.getLsbD 0))⟩,
  ⟨0x13, 0, fun r => do let f ← Fields.ofRaw r; pure (.imin f)⟩,
  ⟨0x13, 1, fun r => do let f ← Fields.ofRaw r; pure (.imax f)⟩,
  ⟨0x13, 2, fun r => do let f ← Fields.ofRaw r; pure (.iabs f (r.md.getLsbD 0))⟩,
  ⟨0x14, 0, fun r => do let f ← Fields.ofRaw r; pure (.btab f)⟩,
  ⟨0x15, 0, fun r => do let f ← Fields.ofRaw r; pure (.shl f)⟩,
  ⟨0x15, 1, fun r => do let f ← Fields.ofRaw r; pure (.shr f)⟩,
  ⟨0x15, 2, fun r => do let f ← Fields.ofRaw r; pure (.sar f)⟩,
  ⟨0x15, 3, fun r => do let f ← Fields.ofRaw r; pure (.rot f)⟩,
  ⟨0x15, 4, fun r => do let f ← Fields.ofRaw r; pure (.shf f (r.md.getLsbD 0))⟩,
  ⟨0x16, 0, fun r => do let f ← Fields.ofRaw r; pure (.bfe f)⟩,
  ⟨0x16, 1, fun r => do let f ← Fields.ofRaw r; pure (.bfi f)⟩,
  ⟨0x17, 0, fun r => do let f ← Fields.ofRaw r; pure (.popc f)⟩,
  ⟨0x17, 1, fun r => do let f ← Fields.ofRaw r; pure (.clz f)⟩,
  ⟨0x17, 2, fun r => do let f ← Fields.ofRaw r; pure (.brev f)⟩,
  ⟨0x18, 0, fun r => do let f ← Fields.ofRaw r; let cmp ← mdField (Cmp.ofBits (r.md.extractLsb' 0 3)); let bop ← mdField (Bop.ofBits (r.md.extractLsb' 3 2)); pure (.isetp f cmp bop)⟩,
  ⟨0x18, 1, fun r => do let f ← Fields.ofRaw r; pure (.sel f)⟩,
  ⟨0x19, 0, fun r => do let f ← Fields.ofRaw r; pure (.mov f)⟩,
  ⟨0x1a, 0, fun r => do let f ← FieldsI.ofRaw r; pure (.movi f (r.md.getLsbD 0))⟩,
  ⟨0x1b, 0, fun r => do let f ← Fields.ofRaw r; pure (.lea f)⟩,
  ⟨0x1c, 0, fun r => do let f ← Fields.ofRaw r; let mode ← mdField (PackMode.ofBits (r.md.extractLsb' 0 2)); pure (.padd f mode)⟩,
  ⟨0x1c, 1, fun r => do let f ← Fields.ofRaw r; let mode ← mdField (PackMode.ofBits (r.md.extractLsb' 0 2)); pure (.psub f mode)⟩,
  ⟨0x1c, 2, fun r => do let f ← Fields.ofRaw r; pure (.pmax f)⟩,
  ⟨0x1c, 3, fun r => do let f ← Fields.ofRaw r; pure (.pmin f)⟩,
  ⟨0x1d, 0, fun r => do let f ← Fields.ofRaw r; pure (.pacs f (r.md.getLsbD 0))⟩,
  ⟨0x1e, 0, fun r => do let f ← Fields.ofRaw r; pure (.cellkey f (r.md.getLsbD 0))⟩]

/-- The rows of FLT (06 R209). -/
def decodeRowsFlt : List DecodeRow := [
  ⟨0x30, 0, fun r => do let f ← Fields.ofRaw r; let rm ← mdField (Rm.ofBits (r.md.extractLsb' 0 3)); pure (.fadd f rm)⟩,
  ⟨0x30, 1, fun r => do let f ← Fields.ofRaw r; let rm ← mdField (Rm.ofBits (r.md.extractLsb' 0 3)); pure (.fmul f rm)⟩,
  ⟨0x30, 2, fun r => do let f ← Fields.ofRaw r; let rm ← mdField (Rm.ofBits (r.md.extractLsb' 0 3)); pure (.ffma f rm)⟩,
  ⟨0x31, 0, fun r => do let f ← Fields.ofRaw r; pure (.fmin f (r.md.getLsbD 0))⟩,
  ⟨0x31, 1, fun r => do let f ← Fields.ofRaw r; pure (.fmax f (r.md.getLsbD 0))⟩,
  ⟨0x32, 0, fun r => do let f ← Fields.ofRaw r; let cmp ← mdField (FCmp.ofBits (r.md.extractLsb' 0 3)); let bop ← mdField (Bop.ofBits (r.md.extractLsb' 4 2)); pure (.fsetp f cmp (r.md.getLsbD 3) bop)⟩,
  ⟨0x33, 0, fun r => do let f ← Fields.ofRaw r; let rm ← mdField (Rm.ofBits (r.md.extractLsb' 0 3)); pure (.hfma2 f rm)⟩,
  ⟨0x34, 0, fun r => do let f ← Fields.ofRaw r; let rm ← mdField (Rm.ofBits (r.md.extractLsb' 0 3)); pure (.fdiv f rm)⟩,
  ⟨0x34, 1, fun r => do let f ← Fields.ofRaw r; let rm ← mdField (Rm.ofBits (r.md.extractLsb' 0 3)); pure (.fsqrt f rm)⟩,
  ⟨0x35, 0, fun r => do let f ← Fields.ofRaw r; let rm ← mdField (Rm.ofBits (r.md.extractLsb' 0 3)); pure (.rcp f rm)⟩,
  ⟨0x35, 1, fun r => do let f ← Fields.ofRaw r; let rm ← mdField (Rm.ofBits (r.md.extractLsb' 0 3)); pure (.rsq f rm)⟩,
  ⟨0x35, 2, fun r => do let f ← Fields.ofRaw r; let rm ← mdField (Rm.ofBits (r.md.extractLsb' 0 3)); pure (.exp2 f rm)⟩,
  ⟨0x35, 3, fun r => do let f ← Fields.ofRaw r; let rm ← mdField (Rm.ofBits (r.md.extractLsb' 0 3)); pure (.log2 f rm)⟩,
  ⟨0x35, 4, fun r => do let f ← Fields.ofRaw r; let rm ← mdField (Rm.ofBits (r.md.extractLsb' 0 3)); pure (.sin f rm)⟩,
  ⟨0x35, 5, fun r => do let f ← Fields.ofRaw r; let rm ← mdField (Rm.ofBits (r.md.extractLsb' 0 3)); pure (.cos f rm)⟩,
  ⟨0x36, 0, fun r => do let f ← Fields.ofRaw r; let rm ← mdField (Rm.ofBits (r.md.extractLsb' 0 3)); pure (.frnd f rm)⟩,
  ⟨0x36, 1, fun r => do let f ← Fields.ofRaw r; pure (.fclass f)⟩,
  ⟨0x36, 2, fun r => do let f ← Fields.ofRaw r; let rm ← mdField (Rm.ofBits (r.md.extractLsb' 0 3)); pure (.fscale f rm)⟩,
  ⟨0x36, 3, fun r => do let f ← Fields.ofRaw r; pure (.fgetexp f)⟩,
  ⟨0x37, 0, fun r => do let f ← Fields.ofRaw r; let rm ← mdField (Rm.ofBits (r.md.extractLsb' 0 3)); let src ← mdField (SrcFmt.ofBits (r.md.extractLsb' 3 3)); pure (.cvt f rm src)⟩,
  ⟨0x37, 1, fun r => do let f ← Fields.ofRaw r; let rm ← mdField (Rm.ofBits (r.md.extractLsb' 0 3)); let src ← mdField (SrcFmt.ofBits (r.md.extractLsb' 3 3)); pure (.cvti f rm src)⟩,
  ⟨0x37, 2, fun r => do let f ← Fields.ofRaw r; let rm ← mdField (Rm.ofBits (r.md.extractLsb' 0 3)); let src ← mdField (IntSrc.ofBits (r.md.extractLsb' 3 3)); pure (.cvtf f rm src)⟩,
  ⟨0x37, 3, fun r => do let f ← Fields.ofRaw r; let var ← mdField (Variant.ofBits (r.md.extractLsb' 0 5)); pure (.cvt8 f var (r.md.getLsbD 5))⟩,
  ⟨0x38, 0, fun r => do let f ← Fields.ofRaw r; pure (.fflags f)⟩,
  ⟨0x38, 1, fun r => do let f ← Fields.ofRaw r; pure (.fenv f)⟩]

/-- The rows of XBR (08 R253). -/
def decodeRowsXbr : List DecodeRow := [
  ⟨0x50, 0, fun r => do let f ← Fields.ofRaw r; let mode ← mdField (XMode.ofBits (r.md.extractLsb' 0 2)); pure (.xget f mode)⟩,
  ⟨0x51, 0, fun r => do let f ← Fields.ofRaw r; let mode ← mdField (PollMode.ofBits (r.md.extractLsb' 0 3)); pure (.poll f mode (r.md.getLsbD 3))⟩,
  ⟨0x52, 0, fun r => do let f ← Fields.ofRaw r; pure (.peers f (r.md.getLsbD 0))⟩,
  ⟨0x53, 0, fun r => do let f ← Fields.ofRaw r; let op ← mdField (FoldOp.ofBits (r.md.extractLsb' 0 3)); pure (.foldx f op)⟩,
  ⟨0x54, 0, fun r => do let f ← Fields.ofRaw r; let op ← mdField (FoldOp.ofBits (r.md.extractLsb' 0 3)); pure (.scanx f op (r.md.getLsbD 3))⟩,
  ⟨0x55, 0, fun r => do let f ← Fields.ofRaw r; pure (.tlu f (r.md.extractLsb' 0 3))⟩,
  ⟨0x56, 0, fun r => do let f ← Fields.ofRaw r; pure (.bysel f)⟩,
  ⟨0x57, 0, fun r => do let f ← Fields.ofRaw r; pure (.bcast f (r.md.getLsbD 0))⟩]

/-- The rows of LME (07 R224). -/
def decodeRowsLme : List DecodeRow := [
  ⟨0x60, 0, fun r => do let f ← Fields.ofRaw r; let str ← mdField (Strength.ofBits (r.md.extractLsb' 0 2)); pure (.ld f str)⟩,
  ⟨0x61, 0, fun r => do let f ← Fields.ofRaw r; let str ← mdField (Strength.ofBits (r.md.extractLsb' 0 2)); pure (.st f str)⟩,
  ⟨0x62, 0, fun r => do let f ← Fields.ofRaw r; let latch ← mdField (LatchMode.ofBits (r.md.extractLsb' 0 2)); pure (.lds f latch)⟩,
  ⟨0x63, 0, fun r => do let f ← Fields.ofRaw r; pure (.sts f)⟩,
  ⟨0x64, 0, fun r => do let f ← Fields.ofRaw r; match (r.md.extractLsb' 0 1).toNat with | 0 => .ok (.latchSet f) | _ => .ok (.latchClr f)⟩,
  ⟨0x65, 0, fun r => do let f ← Fields.ofRaw r; let op ← mdField (AtomOp.ofBits (r.md.extractLsb' 0 3)); let str ← mdField (Strength.ofBits (r.md.extractLsb' 4 2)); pure (.atom f op (r.md.getLsbD 3) str)⟩,
  ⟨0x66, 0, fun r => do let f ← Fields.ofRaw r; let op ← mdField (AtomOp.ofBits (r.md.extractLsb' 0 3)); let str ← mdField (Strength.ofBits (r.md.extractLsb' 4 2)); pure (.red f op (r.md.getLsbD 3) str)⟩,
  ⟨0x67, 0, fun r => do let f ← Fields.ofRaw r; let str ← mdField (Strength.ofBits (r.md.extractLsb' 0 2)); pure (.fence f str (r.md.getLsbD 2))⟩,
  ⟨0x68, 0, fun r => do let f ← Fields.ofRaw r; pure (.promote f)⟩,
  ⟨0x69, 0, fun r => do let f ← Fields.ofRaw r; pure (.prefetch f)⟩,
  ⟨0x6a, 0, fun r => do let f ← Fields.ofRaw r; pure (.mdld f)⟩,
  ⟨0x6b, 0, fun r => do let f ← Fields.ofRaw r; pure (.mdst f)⟩,
  ⟨0x6c, 0, fun r => do let f ← Fields.ofRaw r; pure (.ldloc f)⟩,
  ⟨0x6d, 0, fun r => do let f ← Fields.ofRaw r; pure (.stloc f)⟩,
  ⟨0x6e, 0, fun r => do let f ← Fields.ofRaw r; match (r.md.extractLsb' 0 2).toNat with | 0 => .ok (.cctlInv f) | 1 => .ok (.cctlInvall f) | _ => .error .badModifier⟩]

/-- The rows of FCH (09 R277). -/
def decodeRowsFch : List DecodeRow := [
  ⟨0x80, 0, fun r => do let f ← Fields.ofRaw r; pure (.codepub f)⟩,
  ⟨0x80, 1, fun r => do let f ← Fields.ofRaw r; let ent ← mdField (PatchEntry.ofBits (r.md.extractLsb' 0 2)); pure (.cpatch f ent)⟩,
  ⟨0x80, 2, fun r => do let f ← Fields.ofRaw r; pure (.codeq f)⟩]

/-- The rows of CPE (10 R292). -/
def decodeRowsCpe : List DecodeRow := [
  ⟨0x90, 0, fun r => do let f ← Fields.ofRaw r; pure (.hload f)⟩,
  ⟨0x91, 0, fun r => do let f ← Fields.ofRaw r; pure (.tload f (r.md.getLsbD 0))⟩,
  ⟨0x92, 0, fun r => do let f ← Fields.ofRaw r; let rop ← mdField (ReduceOp.ofBits (r.md.extractLsb' 4 2)); pure (.tstore f rop)⟩,
  ⟨0x93, 0, fun r => do let f ← Fields.ofRaw r; pure (.tcopy f (r.md.getLsbD 0) (r.md.getLsbD 1) (r.md.getLsbD 2))⟩,
  ⟨0x94, 0, fun r => do let f ← Fields.ofRaw r; pure (.tmcast f (r.md.getLsbD 2))⟩,
  ⟨0x95, 0, fun r => do let f ← Fields.ofRaw r; pure (.tgather f (r.md.getLsbD 2) (r.md.getLsbD 3))⟩,
  ⟨0x96, 0, fun r => do let f ← Fields.ofRaw r; let rop ← mdField (ReduceOp.ofBits (r.md.extractLsb' 4 2)); pure (.tscatter f (r.md.getLsbD 3) rop)⟩,
  ⟨0x97, 0, fun r => do let f ← Fields.ofRaw r; pure (.tfill f (r.md.getLsbD 1) (r.md.getLsbD 2))⟩,
  ⟨0x98, 0, fun r => do let f ← Fields.ofRaw r; pure (.tquery f)⟩,
  ⟨0x99, 0, fun r => do let f ← Fields.ofRaw r; pure (.wardq f (r.md.getLsbD 0))⟩]

/-- The rows of MXE (11 R314). -/
def decodeRowsMxe : List DecodeRow := [
  ⟨0xa0, 0, fun r => do let f ← Fields.ofRaw r; pure (.mma f (r.md.extractLsb' 0 5))⟩,
  ⟨0xa1, 0, fun r => do let f ← Fields.ofRaw r; pure (.mmag f (r.md.extractLsb' 0 5))⟩,
  ⟨0xa2, 0, fun r => do let f ← Fields.ofRaw r; let mc ← mdField (Dim.ofBits (r.md.extractLsb' 0 2)); let nc ← mdField (Dim.ofBits (r.md.extractLsb' 2 2)); pure (.mzero f mc nc)⟩,
  ⟨0xa3, 0, fun r => do let f ← Fields.ofRaw r; let mc ← mdField (Dim.ofBits (r.md.extractLsb' 0 2)); let nc ← mdField (Dim.ofBits (r.md.extractLsb' 2 2)); let fmt ← mdField (AccFmt.ofBits (r.md.extractLsb' 4 2)); pure (.mload f mc nc fmt)⟩,
  ⟨0xa4, 0, fun r => do let f ← Fields.ofRaw r; pure (.mstore f (r.md.getLsbD 2))⟩,
  ⟨0xa5, 0, fun r => do let f ← Fields.ofRaw r; let op ← mdField (MredOp.ofBits (r.md.extractLsb' 4 2)); pure (.mred f (r.md.getLsbD 2) op)⟩,
  ⟨0xa6, 0, fun r => do let f ← Fields.ofRaw r; let op ← mdField (MepiOp.ofBits (r.md.extractLsb' 0 2)); pure (.mepi f op)⟩,
  ⟨0xa7, 0, fun r => do let f ← Fields.ofRaw r; pure (.mflags f)⟩]

/-- The rows of FAB (12 R346). -/
def decodeRowsFab : List DecodeRow := [
  ⟨0xb0, 0, fun r => do let f ← Fields.ofRaw r; let str ← mdField (Strength.ofBits (r.md.extractLsb' 0 2)); pure (.fld f str (r.md.getLsbD 2))⟩,
  ⟨0xb1, 0, fun r => do let f ← Fields.ofRaw r; let str ← mdField (Strength.ofBits (r.md.extractLsb' 0 2)); if r.md.getLsbD 3 then pure (.fstBlk f str (r.md.getLsbD 2)) else pure (.fst f str (r.md.getLsbD 2))⟩,
  ⟨0xb2, 0, fun r => do let f ← Fields.ofRaw r; let op ← mdField (AtomOp.ofBits (r.md.extractLsb' 0 3)); let str ← mdField (Strength.ofBits (r.md.extractLsb' 3 2)); pure (.fatom f op str (r.md.getLsbD 5))⟩,
  ⟨0xb3, 0, fun r => do let f ← Fields.ofRaw r; let op ← mdField (AtomOp.ofBits (r.md.extractLsb' 0 3)); let str ← mdField (Strength.ofBits (r.md.extractLsb' 3 2)); pure (.fatomc f op str (r.md.getLsbD 5))⟩,
  ⟨0xb4, 0, fun r => do let f ← Fields.ofRaw r; pure (.fticket f (r.md.getLsbD 2))⟩,
  ⟨0xb5, 0, fun r => do let f ← Fields.ofRaw r; let op ← mdField (AtomOp.ofBits (r.md.extractLsb' 0 3)); let str ← mdField (Strength.ofBits (r.md.extractLsb' 3 2)); pure (.fred f op str (r.md.getLsbD 5))⟩,
  ⟨0xb6, 0, fun r => do let f ← Fields.ofRaw r; let str ← mdField (Strength.ofBits (r.md.extractLsb' 0 2)); pure (.fmcast f str (r.md.getLsbD 2))⟩,
  ⟨0xb7, 0, fun r => do let f ← Fields.ofRaw r; pure (.fflush f (r.md.getLsbD 2))⟩,
  ⟨0xb8, 0, fun r => do let f ← Fields.ofRaw r; match (r.md.extractLsb' 0 2).toNat with | 0 => .ok (.fsigTret f (r.md.getLsbD 2)) | 1 => .ok (.fsigTpois f (r.md.getLsbD 2)) | _ => .error .badModifier⟩,
  ⟨0xb9, 0, fun r => do let f ← Fields.ofRaw r; pure (.fquery f)⟩]

/-- The rows of TBE (13 R371) and RCE (14 R419). -/
def decodeRowsTbe : List DecodeRow := [
  ⟨0xc0, 0, fun r => do let f ← Fields.ofRaw r; pure (.spawn f)⟩,
  ⟨0xc1, 0, fun r => do let f ← Fields.ofRaw r; pure (.bincfg f)⟩,
  ⟨0xc2, 0, fun r => do let f ← Fields.ofRaw r; pure (.wqcfg f)⟩,
  ⟨0xc3, 0, fun r => do let f ← Fields.ofRaw r; pure (.wqpush f)⟩,
  ⟨0xc4, 0, fun r => do let f ← Fields.ofRaw r; pure (.tstream f)⟩,
  ⟨0xc5, 0, fun r => do let f ← Fields.ofRaw r; pure (.tsubmit f)⟩,
  ⟨0xc6, 0, fun r => do let f ← Fields.ofRaw r; pure (.trelease f)⟩,
  ⟨0xc7, 0, fun r => do let f ← Fields.ofRaw r; pure (.taskinfo f)⟩,
  ⟨0xc8, 0, fun r => do let f ← Fields.ofRaw r; pure (.rcpin f)⟩,
  ⟨0xc9, 0, fun r => do let f ← Fields.ofRaw r; pure (.rcunpin f)⟩,
  ⟨0xca, 0, fun r => do let f ← Fields.ofRaw r; pure (.rcretire f)⟩,
  ⟨0xcb, 0, fun r => do let f ← Fields.ofRaw r; pure (.rcdrop f)⟩,
  ⟨0xcc, 0, fun r => do let f ← Fields.ofRaw r; pure (.rcquery f)⟩]

/-- The rows of the privileged forms (15 R435, 16 R465, 17 R489). -/
def decodeRowsPriv : List DecodeRow := [
  ⟨0xd0, 0, fun r => do let f ← Fields.ofRaw r; let mode ← mdField (TlbMode.ofBits (r.md.extractLsb' 0 2)); pure (.tlbsd f mode)⟩,
  ⟨0xd1, 0, fun r => do let f ← Fields.ofRaw r; let mode ← mdField (TlbMode.ofBits (r.md.extractLsb' 0 2)); pure (.tlbinv f mode)⟩,
  ⟨0xd2, 0, fun r => do let f ← Fields.ofRaw r; let acc ← mdField (AddrqAccess.ofBits (r.md.extractLsb' 0 2)); pure (.addrq f acc)⟩,
  ⟨0xd3, 0, fun r => do let f ← Fields.ofRaw r; let mode ← mdField (RegionMode.ofBits (r.md.extractLsb' 0 2)); pure (.rgnsw f mode)⟩,
  ⟨0xd4, 0, fun r => do let f ← Fields.ofRaw r; pure (.ctxsave f)⟩,
  ⟨0xd5, 0, fun r => do let f ← Fields.ofRaw r; pure (.ctxload f)⟩]

/-- The opcode map (02 R76). -/
def decodeRows : List DecodeRow :=
  decodeRowsSeq ++ decodeRowsInt ++ decodeRowsFlt ++ decodeRowsXbr ++ decodeRowsLme ++ decodeRowsFch ++ decodeRowsCpe ++ decodeRowsMxe ++ decodeRowsFab ++ decodeRowsTbe ++ decodeRowsPriv

/-- The bits of a slot that stand for an instruction without regard to its well-formedness: every field written back
where 02 R54 puts it, with 0 in the fields its format does not use. -/
def Form.toRaw (F : Form) : Raw :=
  match F.body with
  | .regs f =>
    { op := F.op, fn := F.fn, ga := f.ga.bits, gb := f.gb.bits, ty := f.ty.code, ch := f.ch.code, md := F.md,
      d := f.d.bits, a := f.a.bits, b := f.b.bits, c := f.c.bits, e := f.e.bits }
  | .imm36 f =>
    { op := F.op, fn := F.fn, ga := f.ga.bits, gb := f.gb.bits, ty := f.ty.code, ch := 0, md := F.md,
      d := f.d.bits, a := 0, b := f.imm.extractLsb' 24 12, c := f.imm.extractLsb' 12 12, e := f.imm.extractLsb' 0 12 }
  | .jump f =>
    let j : BitVec 36 := f.off ++ BitVec.ofNat 3 f.slot.val
    { op := F.op, fn := F.fn, ga := f.ga.bits, gb := f.gb.bits, ty := 0, ch := 0, md := F.md,
      d := 0, a := 0, b := j.extractLsb' 24 12, c := j.extractLsb' 12 12, e := j.extractLsb' 0 12 }

/-- A candidate is accepted when its form has no fault (02 R77) and when no unused field and no unused MD bit of the slot
is set (02 R55, R74): writing it back gives the slot again. -/
def acceptCandidate (r : Raw) (i : Instr) : Except Reject Instr :=
  match i.form with
  | none => .error .unassigned
  | some F =>
    match F.check with
    | some why => .error why
    | none =>
      let r' := F.toRaw
      if r' = r then .ok i
      else if r'.ty ≠ r.ty then .error .badType
      else if r'.ch ≠ r.ch then .error .badHint
      else if r'.md ≠ r.md then .error .badModifier
      else if r'.d ≠ r.d then .error .badD
      else if r'.a ≠ r.a then .error .badA
      else .error .badCombination

/-- The instruction of a slot's fields, or the rule of 02 R77 that makes it illegal. -/
def decodeRaw (r : Raw) : Except Reject Instr :=
  match decodeRows.find? (fun row => row.op == r.op && row.fn == r.fn) with
  | none => .error .unassigned
  | some row =>
    match row.make r with
    | .error why => .error why
    | .ok i => acceptCandidate r i

/-- Decoding of a slot (02 R77): total, and every refusal raises Illegal Instruction. -/
def decodeSlot (s : Slot) : Except Reject Instr := decodeRaw (Raw.ofSlot s)

/-- The slot as an instruction, if it is one. -/
def decode (s : Slot) : Option Instr :=
  match decodeSlot s with
  | .ok i => some i
  | .error _ => none

/-- The instruction of a slot given as one number, bit 0 the least significant bit of the slot. An MB2 instruction is
one slot of 96 bits (02 R54), whatever `nbits` a table row gives; bits at or above 96 belong to no slot. -/
def decodeTableWord (_nbits w : Nat) : Option Instr :=
  if w < 2 ^ 96 then decode (BitVec.ofNat 96 w) else none

/-! ### The encoder -/

/-- The slot of a well-formed instruction; events and ill-formed instructions have none. -/
def encode (i : Instr) : Option Slot :=
  match i.form with
  | none => none
  | some F => if F.check.isNone then some F.toRaw.toSlot else none

end Sys2Proof
end

