-- ==== Sys2Proof/Config.lean ====
section
/-! DEFINITION. What the spec leaves open, as opaque constants that nothing can evaluate, and the few places that Javatra
chooses (DESIGN CHOICE, log 13). -/

namespace Sys2Proof.Config

/-! ### Free values (DEDUCED, log 6; DESIGN CHOICE, log 14): no proof can know one -/

/-- A byte of CSM that nothing has written since the grant (03 R116): crew, offset. -/
opaque csmByte : Nat → Nat → Byte
/-- A byte of an operand slot that nothing has written since the grant (10 R290): crew, offset. -/
opaque slotByte : Nat → Nat → Byte
/-- A side-band entry that nothing has written since the grant (10 R299): crew, entry. -/
opaque sideBand : Nat → Nat → BitVec 24
/-- A byte that an event has made undefined (13 R388, 14 R418, 15 R443, R445): the count of such draws, the address. -/
opaque undefByte : Nat → Nat → Byte
/-- Metadata that an event has made undefined (15 R443, R445). -/
opaque undefMeta : Nat → Nat → Word
/-- Whether an HSS signature over a firmware item verifies (18 R508); the scheme is RFC 8554's. -/
opaque hssVerifies : List Byte → Bool
/-- SHA-256, whose definition lies outside the spec (18 R511). -/
opaque sha256 : List Byte → BitVec 256
/-- The 5,396 bytes of an attestation signature: counter q, message (18 R511). -/
opaque attestSignature : Nat → List Byte → Nat → Byte
/-- Version, die and physical core indices of a signed item, whose layout the spec does not give (18 R508). -/
opaque itemVersion : List Byte → Nat
/-- The die of a repair map. -/
opaque itemDie : List Byte → Nat
/-- The physical core that a repair map assigns to a logical core. -/
opaque itemCore : List Byte → Nat → Nat
/-- CLASS and KIND of the log entry of a throttle step, which the table of KINDs does not list (18 R503, R512). -/
opaque throttleClass : Nat
/-- See `throttleClass`. -/
opaque throttleKind : Nat
/-- ROWS that TQUERY gives for an HLOAD, which has no shape of its own (10 R309): by operation. -/
opaque hloadRows : Nat → BitVec 16

/-- How many of its pages a MAP, an UNMAP or a CODE_PUBLISH has treated when it meets a lasting error (18 R497): by draw. -/
opaque pagesDone : Nat → Nat

/-- Whether a granule of a copy row whose write failed was written all the same (10 R308): by draw and granule. -/
opaque rowLanded : Nat → Nat → Bool

/-- The entry of a page table whose read is lost, which the fault record names (16 R461): by draw or storage key. -/
opaque lostEntry : Nat → DWord

/-- The ports that have a route to an endpoint: the pod's switches lie outside the module (12 R367). -/
opaque routeMask : Nat → BitVec 18

/-! ### Places that Javatra chooses (DESIGN CHOICE, log 13) -/

/-- Base of the reserved area of a die: its last GiB of row-major storage. -/
def reservedBase (die : Nat) : Nat := (die + 1) * 2 ^ 38 - 2 ^ 30
/-- The fault ring of a die (16 R461): 256 KiB. -/
def faultRing (die : Nat) : Nat := reservedBase die
/-- The salvage log of a die (15 R440). -/
def salvageLog (die : Nat) : Nat := reservedBase die + 2 ^ 27
/-- How many page-table frames there are. -/
def tableCount : Nat := 2 ^ 17
/-- How many entries of 160 bytes the salvage log holds. -/
def salvageEntries : Nat := 2 ^ 19
/-- The frames in which Javatra builds page tables: the last 512 MiB of die 0's reserved area. -/
def tableFrames : Nat := reservedBase 0 + 2 ^ 29
/-- Whether a storage offset of HBM4E lies in a reserved area (09 R270, 14 R398, 15 R440, 16 R461, 18 R503). -/
def isReserved (o : Nat) : Bool :=
  let d := o / 2 ^ 38
  reservedBase d ≤ o && o < (d + 1) * 2 ^ 38
/-- Whether a storage offset lies in the fault ring of its die. -/
def isFaultRing (o : Nat) : Bool :=
  let b := faultRing (o / 2 ^ 38)
  b ≤ o && o < b + 2 ^ 18

end Sys2Proof.Config
end

