-- ==== Sys2Proof/Machine/State.lean ====
section
/-! DEFINITION. The state of the Stavrum V2, all of it plain data: threads, warps, crews, launches, cores, dies, memory,
host registers and the agenda of turns still to be taken (DESIGN CHOICE, log 1). INVENTORY.md lists every field with its rule and its
value after reset. -/

namespace Sys2Proof.Machine

/-! ### Why a step can stop -/

/-- The machine stops with a fault only in a state that no run reaches. -/
inductive Fault
  /-- An instruction was executed while `State.cur` names no resident warp. Raised by every meaning of an MB2 instruction
  through `withIssue`. Safe: the tumbler names the warp before it executes, so no run from reset reaches it. -/
  | noIssuer
  deriving DecidableEq, Repr

/-- No meaning was found for the instruction. -/
inductive Refusal
  /-- The instruction has no meaning in the model. Raised only by an arm of `exec`. Safe. -/
  | notModelled (mnemonic : String)
  deriving DecidableEq, Repr

/-! ### Threads -/

/-- A fetched copy of a line (09 R266). -/
structure Line where
  va   : VAddr
  bits : LineBits
  deriving DecidableEq, Repr

/-- How a token bound in a keyring or in a SLEEP stands (04 R148). -/
inductive BoundSt
  | pending
  | done
  | poisoned (cause : BitVec 6) (origin : Word)
  deriving DecidableEq, Repr

/-- One token bound by a keyring: its number, the binding that its record then held, and how that binding stands. -/
structure Bound where
  tok : Nat
  id  : Nat
  st  : BoundSt
  deriving DecidableEq, Repr

/-- What a thread is doing (04 R126; 17 R478). -/
inductive Run
  | running
  /-- Waiting in JWAIT k. -/
  | join (k : Nat)
  /-- Waiting in BARW on barrier b for the completion of phase `phase`. -/
  | barrier (b : Nat) (phase : Bool)
  /-- Waiting in SLEEP. -/
  | sleep (keys : List Bound) (any : Bool)
  /-- Waiting in a blocking PBWAIT, by operation. -/
  | pbwait (op : Nat)
  /-- Waiting in an LDS `.WAIT`, by operation. -/
  | latch (op : Nat)
  /-- Waiting for the answer of a fault that its push or pop met (04 R130). -/
  | stackFault
  /-- Held at an instruction for lanes that are in their handlers (17 R478). -/
  | held
  | halted
  /-- Stopped by a Recipe Write or by the end of its launch (14 R413, 18 R501). -/
  | stopped
  | ended
  /-- No thread: tid would be T or more (01 R19). -/
  | absent
  deriving DecidableEq, Repr

/-- One thread (01 R21; 02 R68-R70; 04 R164; 06 R207; 17 R482). -/
structure Thread where
  run     : Run := .running
  pc      : VAddr := 0
  /-- The fetched copy of the line that holds `pc`; none when the line is still to be entered. -/
  line    : Option Line := none
  /-- Nothing has issued from that copy yet (03 R123). -/
  fresh   : Bool := false
  /-- The LW.TGT check of the entry at `pc` is still owed (02 R53). -/
  owed    : Bool := false
  preds   : BitVec 8 := 1
  v       : List Word := []
  ix      : List (BitVec 8) := [0, 0, 0, 0]
  csp     : Word := 0
  fflags  : BitVec 5 := 0
  fenv    : BitVec 13 := 0
  tcause  : DWord := 0
  tpc     : VAddr := 0
  /-- The value of `%tpc` that the last trap entry wrote (17 R479). -/
  tpc0    : VAddr := 0
  taddr   : DWord := 0
  tmode   : BitVec 13 := 0
  tscr0   : DWord := 0
  tscr1   : DWord := 0
  /-- Its next stack access is lost for good (01 R44; 04 R130). -/
  lostStack : Bool := false
  /-- The half that the host must give back before the stack access at this PC performs (15 R434). -/
  stackRecall : Option (Nat × VAddr) := none
  /-- A Watchdog or a Pre-empt Request that the thread will take at a later boundary (17 R475). -/
  heldWatchdog : Bool := false
  heldPreempt  : Bool := false
  deriving DecidableEq, Repr

/-! ### Warps -/

/-- STATE of a token record (04 R144). -/
inductive TokState | free | pending | done | poisoned
  deriving DecidableEq, Repr

/-- The trace of the last CPE operation bound to a token, for TQUERY (10 R309). -/
structure CpeTrace where
  rows  : Nat
  prog  : Nat
  exact : Bool
  form  : BitVec 4
  deriving DecidableEq, Repr

/-- A token record (04 R144). `bind` numbers the operation or the TSIG.ARM that last made it PENDING. -/
structure TokRec where
  st     : TokState := .free
  soft   : Bool := false
  cause  : BitVec 6 := 0
  origin : Word := 0
  bind   : Nat := 0
  trace  : Option CpeTrace := none
  deriving DecidableEq, Repr

/-- A join point (04 R132). -/
structure Join where
  member  : Mask := 0
  waiting : Mask := 0
  deriving DecidableEq, Repr

/-- A FENCE that a warp has executed (07 R244), with its order descriptor: accesses numbered below `seq` come before it. -/
structure FenceRec where
  seq   : Nat
  lanes : Mask
  str   : Strength
  un    : Bool
  desc  : BitVec 9
  deriving DecidableEq, Repr

/-- The return of lanes from a BARW (04 R137): accesses numbered `seq` and above come after the accesses, by operation and
lanes, that the arrivals of its phase released. -/
structure AcqRec where
  seq   : Nat
  lanes : Mask
  after : List (Nat × Mask)
  deriving DecidableEq, Repr

/-- A TSIG.DONE whose covered accesses have not all performed (04 R156). -/
structure SigPending where
  tok   : Nat
  seq   : Nat
  lanes : Mask
  deriving DecidableEq, Repr

/-- A FAB write, atomic, reduction, multicast, signal or peer arrival that failed, for a later FFLUSH (12 R356). -/
structure FabFail where
  id     : Nat
  lanes  : Mask
  eps    : List Nat
  cause  : BitVec 6
  origin : Word
  deriving DecidableEq, Repr

/-- One warp (01 R21; 04 R164). -/
structure Warp where
  /-- Its warp slot on the core, 0 to 63; slots 16q to 16q + 15 belong to quadrant q (01 R16). -/
  slot    : Nat
  threads : List Thread
  toks    : List TokRec := List.replicate 32 {}
  u       : List DWord := List.replicate 64 0
  tstat   : DWord := 0
  ptrap   : Bool := false
  wdtrap  : Bool := false
  part    : BitVec 3 := 5
  wdCount : Word := 0
  wdLimit : BitVec 5 := 22
  joins   : List Join := List.replicate 8 {}
  nbv     : BitVec 2 := 2
  heldL   : Mask := 0
  waitFor : Mask := 0
  /-- The fetch buffer, newest first (09 R267). -/
  fbuf    : List Line := []
  /-- The next line that the warp reads from its home is lost for good (01 R44; 09 R276). -/
  lostLine : Bool := false
  fences  : List FenceRec := []
  acqs    : List AcqRec := []
  sigs    : List SigPending := []
  fabFails : List FabFail := []
  /-- The lowest lane of the group that issued last; 32 before the first issue (04 R127). -/
  last    : Nat := 32
  /-- The warp slots that must issue first after a YIELD, and the cycles left of it (04 R141). -/
  yieldTo : List Nat := []
  yieldCy : Nat := 0
  /-- Its watchdog fired with WDTRAP clear: after its next issue it is scheduled as after a YIELD (01 R38). -/
  wdYield : Bool := false
  deriving DecidableEq, Repr

/-! ### Crews -/

/-- Where a crew came from (01 R25). -/
inductive CrewKind
  | launch
  | bin (core bin : Nat)
  | task (die entry : Nat)
  | recompute (die recipe : Nat)
  deriving DecidableEq, Repr

/-- A named barrier (04 R134). -/
structure Bar where
  expect     : Nat
  arrived    : Nat := 0
  phase      : Bool := false
  poison     : Bool := false
  lastPoison : Bool := false
  /-- The accesses, by operation and lanes, that arrivals have released and that have still to perform (04 R137). -/
  before     : List (Nat × Mask) := []
  deriving DecidableEq, Repr

/-- A VALID accumulator tile (11 R312): elements in row-major order, NC columns. -/
structure AccTile where
  fmt   : AccFmt
  mc    : Dim
  nc    : Dim
  flags : BitVec 6
  elems : List DWord
  deriving DecidableEq, Repr

/-- How far a save of a crew has come (17 R484). -/
structure SaveSt where
  base      : VAddr
  forced    : Bool
  /-- The warp and lanes that issued CTXSAVE, and its status operand (17 R490). -/
  warp      : Nat
  lanes     : Mask
  status    : Opd
  discarded : Nat
  deriving DecidableEq, Repr

/-- One crew (01 R19, R31, R32). -/
structure Crew where
  id       : Nat
  launch   : Nat
  kind     : CrewKind
  core     : Nat
  cluster  : Word
  index    : Nat
  stage    : Nat
  /-- Crew shape X, Y, Z. -/
  dims     : Nat × Nat × Nat
  regs     : Nat
  csmSize  : Nat
  slots    : Nat
  accs     : Nat
  shapesN  : Nat
  barsN    : Nat
  /-- The cluster rectangle: its top-left core on the die (x, y) and its width and height (01 R22). -/
  corner   : Nat × Nat
  rect     : Nat × Nat
  argp     : VAddr
  lsize    : Word
  warps    : List Warp
  /-- The CSM bytes written since the grant, by rising offset; the others are free values (03 R116). -/
  csm      : List Host.Cell := []
  /-- The FULL granules, by rising number (03 R116). -/
  full     : List Nat := []
  bars     : List Bar := []
  /-- The records of the VALID shape slots (10 R288). -/
  shapes   : List (Option (BitVec 512)) := []
  acc      : List (Option AccTile) := []
  /-- The operand-store bytes written since the grant, by rising offset from q0 (10 R290). -/
  ops      : List Host.Cell := []
  /-- The side-band entries written since the grant, 128 for each slot (10 R299). -/
  side     : List (Nat × BitVec 24) := []
  remain   : Word := 0
  pend     : Bool := false
  coop     : Bool := false
  ctxarea  : VAddr := 0
  taskid   : Word := 0
  rcinfo   : Word := 0
  save     : Option SaveSt := none
  /-- Loaded and not started: it issues nothing (17 R491). -/
  heldLoad : Bool := false
  /-- Poisoned settlements after the exit of a warp: the first one's cause and origin (13 R393). -/
  latePoison : Option (BitVec 6 × Word) := none
  /-- A Recipe Write stopped this recompute (14 R413). -/
  recipeWrite : Bool := false
  deriving DecidableEq, Repr

/-! ### Accepted operations -/

/-- One lane of an accepted operation: what was read at acceptance, and whether its access has performed. -/
structure LaneAcc where
  lane   : Nat
  addr   : DWord := 0
  /-- The vector register that its destination resolved to. -/
  dst    : Nat := 0
  /-- The effective CSM offset, or the endpoint of a FAB lane. -/
  off    : Nat := 0
  data   : QWord := 0
  cmp    : QWord := 0
  done   : Bool := false
  queued : Bool := false
  result : QWord := 0
  fail   : Option (BitVec 6 × Word) := none
  /-- It has performed before an earlier access of its thread (03 R114), and its operation waits for that one. -/
  early  : Bool := false
  deriving DecidableEq, Repr

/-- A row of a CPE operation that has been translated and has not performed (10 R306, R307). -/
structure RowSt where
  row   : Nat
  /-- Its index entry. -/
  idx   : Nat
  /-- The recipe for which it is parked, die and recipe, and its place among the parked accesses (14 R412). -/
  wait  : Option (Nat × Nat) := none
  place : Nat := 0
  /-- The half that the host must give back before it performs (15 R434). -/
  recalled : Option Nat := none
  /-- Under a reduce suffix: its converted elements, its acts still to perform, and those that wait at a slice (R302). -/
  bytes : List Byte := []
  left  : List Nat := []
  sent  : List Nat := []
  deriving DecidableEq, Repr

/-- What a started operation waits for. -/
inductive OpWait
  | none
  /-- The answer of a fault record (16 R462). -/
  | answer
  /-- A recompute of a recipe (14 R406): die, recipe. -/
  | recipe (die rec : Nat)
  /-- The recall of a half (15 R434). -/
  | recall (half : Nat)
  /-- The call of a recorded ticket (12 R365). -/
  | ticket (t : Word)
  /-- The dispatcher's grant (17 R491). -/
  | grant
  /-- An open dependence-table entry (13 R391). -/
  | task
  deriving DecidableEq, Repr

/-- An accepted operation (07 R231, 10 R294, 11 R317, 12 R349, 13 R372). Its number gives acceptance order. -/
structure Op where
  id      : Nat
  crew    : Nat
  warp    : Nat
  core    : Nat
  slot    : Nat
  launch  : Nat
  instr   : Instr
  /-- The threads of the issue whose guard was 1 (02 R57). -/
  lanes   : Mask
  tok     : Nat
  keys    : List Bound
  started : Bool := false
  /-- It still occupies an entry of the queue that accepted it (01 R515). -/
  queued  : Bool := true
  args    : List DWord := []
  shape   : BitVec 512 := 0
  nbv     : BitVec 2 := 2
  acc     : List LaneAcc := []
  /-- The cores of a multicast, of a gang (ascending) or of a promotion. -/
  targets : List Nat := []
  /-- The members of a gang whose MXE it holds (11 R326). -/
  holds   : List Nat := []
  prog    : Nat := 0
  /-- The CPE rows above `prog` that have performed (10 R307). -/
  rowsDone : List Nat := []
  /-- The CPE rows that have been translated and have not performed, and the row whose failure stops those above it. -/
  rows    : List RowSt := []
  failRow : Nat := 0
  wait    : OpWait := .none
  /-- The lanes of an issue that a busy register of it has held: its completion is an acquire of theirs (03 R112). -/
  stalled : Mask := 0
  /-- The requests to peers that have been resent (12 R342, R351): lane + 32 × target, or granule of a block. -/
  resent  : List Nat := []
  /-- When its waiting loads began to wait (03 R118); 0 before that. -/
  since   : Nat := 0
  /-- The lane at which it stopped. -/
  stuck   : Nat := 32
  /-- Its place among the accesses that waited for a recompute or a recall (14 R412; 15 R434). -/
  parked  : Nat := 0
  fail    : Option (BitVec 6 × Word) := none
  /-- Its crew's issuing warp has been saved away or its launch has ended: the settlement changes no record. -/
  orphan  : Bool := false
  deriving DecidableEq, Repr

/-- An engine arrival due at a named barrier (04 R134, R138). -/
structure Arrival where
  core   : Nat
  engine : BitVec 4
  /-- Its operation, by acceptance. -/
  op     : Nat
  crew   : Nat
  bar    : Nat
  poison : Bool
  deriving DecidableEq, Repr

/-! ### Cores -/

/-- One ward (03 R119; 10 R304): a global range of one address space, or a CSM range, which can span several grants. -/
structure Ward where
  op   : Nat
  slot : Nat
  tok  : Nat
  dest : Bool
  csm  : Bool
  /-- The ASID or the crew, the first byte, and the end. -/
  spans : List (Nat × Nat × Nat)
  deriving DecidableEq, Repr

/-- A record that a bin holds (13 R375). -/
structure SpawnRec where
  entry : VAddr
  data  : QWord
  /-- `%cyc` of the bin's core when it arrived. -/
  cyc   : DWord
  deriving DecidableEq, Repr

/-- State of a spawn bin (13 R377). -/
inductive BinSt | free | idle | holding | forming | draining
  deriving DecidableEq, Repr

/-- A spawn bin (13 R374). -/
structure Bin where
  st    : BinSt := .free
  owner : Nat := 0
  entry : VAddr := 0
  wait  : Word := 0
  csm   : Nat := 0
  regs  : Nat := 0
  recs  : List SpawnRec := []
  /-- The arrival number of its request to the dispatcher. -/
  req   : Nat := 0
  deriving DecidableEq, Repr

/-- What a core's MXE is doing (11 R318, R326). -/
inductive Mxe
  | idle
  | running (op : Nat)
  | gang (op : Nat)
  deriving DecidableEq, Repr

/-- A TLB entry (16 R459): ASID, page base and size, the leaf and the level of the walk. -/
structure TlbEnt where
  asid  : Nat
  base  : Nat
  size  : Nat
  leaf  : DWord
  level : Nat
  deriving DecidableEq, Repr

/-- A non-leaf entry that a die's walk cache holds (16 R459): ASID, level, the address bits that select it, and the table that
it names. -/
structure WalkEnt where
  asid  : Nat
  level : Nat
  index : Nat
  base  : Nat
  deriving DecidableEq, Repr

/-- One core (01 R16). -/
structure Core where
  cyc    : DWord := 0
  wdevt  : Word := 0
  fchevt : Word := 0
  cpevt  : Word := 0
  mxevt  : Word := 0
  fabevt : Word := 0
  wards  : List Ward := []
  bins   : List Bin := List.replicate 16 {}
  /-- The bin served last (01 R37). -/
  binLast : Nat := 15
  mxe    : Mxe := .idle
  /-- The warp slot that each quadrant chose last (01 R37). -/
  last   : List Nat := [15, 31, 47, 63]
  /-- The warp slots that have issued in its current cycle (01 R38; 04 R127); 64, behind a BARS, closes the cycle (04 R138). -/
  issued : List Nat := []
  dtlb   : List TlbEnt := []
  itlb   : List TlbEnt := []
  wtlb   : List TlbEnt := []
  deriving DecidableEq, Repr

/-! ### Dies -/

/-- A work queue (13 R380). -/
structure WorkQueue where
  en     : Bool := false
  owner  : Nat := 0
  base   : VAddr := 0
  logcap : Nat := 0
  bin    : Nat := 0
  core   : Nat := 0
  low    : Nat := 0
  head   : DWord := 0
  rsv    : DWord := 0
  /-- The item-ready flags of the reserved indices: index, ready, lost. -/
  ready  : List (Nat × Bool × Bool) := []
  deriving DecidableEq, Repr

/-- A version (13 R385). -/
structure Version where
  id       : Nat
  tile     : Nat
  len      : Nat
  handle   : Word
  current  : Bool
  /-- The task that writes it, until it completes. -/
  writer   : Option Nat
  poison   : Option (BitVec 6 × Word)
  deriving DecidableEq, Repr

/-- A stream (13 R384). -/
structure Stream where
  used     : Bool := false
  closing  : Bool := false
  owner    : Nat := 0
  base     : VAddr := 0
  tiles    : Nat := 0
  versions : List Version := []
  deriving DecidableEq, Repr

/-- State of a dependence-table entry (13 R391). -/
inductive TaskSt | waiting | ready | running
  deriving DecidableEq, Repr

/-- A task in the dependence table (13 R391). -/
structure Task where
  entry  : Nat
  seq    : Nat
  stream : Nat
  launch : Nat
  desc   : List DWord
  st     : TaskSt
  passes : Nat := 0
  /-- Its TSUBMIT operation. -/
  op     : Nat
  keys   : List Bound
  /-- Versions read, in range order, and versions written. -/
  reads  : List Nat
  writes : List Nat
  /-- The read versions whose writer had not completed at entry. -/
  deps   : List Nat
  nbv    : BitVec 2
  crew   : Option Nat := none
  /-- The generation of ENTRY's code frame at dispatch, if it was one (14 R401, R402). -/
  codegen : Option Word := none
  deriving DecidableEq, Repr

/-- STATE of a recipe record (14 R402). -/
inductive RecipeSt | idle | open | running
  deriving DecidableEq, Repr

/-- A live recipe (14 R402). Source and destination words name versions of the stream. -/
structure Recipe where
  idx     : Nat
  depth   : Nat
  nbv     : BitVec 2
  entry   : VAddr
  needs   : BitVec 55
  arg0    : DWord
  arg1    : DWord
  codegen : Word
  ppin    : Nat := 0
  rpin    : Nat := 0
  st      : RecipeSt := .idle
  stream  : Nat
  srcs    : List Version
  dsts    : List Version
  deriving DecidableEq, Repr

/-- An open request for a recompute (14 R407). -/
structure Request where
  recipe : Nat
  level  : Nat
  /-- The sources still to be examined, in SRC order. -/
  todo   : List Version
  /-- The recipes pinned so far. -/
  pins   : List Nat := []
  /-- The recipe whose request it waits for. -/
  waits  : Option Nat := none
  /-- Its place in the queue for the reserve. -/
  queued : Option Nat := none
  crew   : Option Nat := none
  deriving DecidableEq, Repr

/-- State of a recomputable tile (14 R399). -/
inductive TileSt | writing | present | absent | rebuilding
  deriving DecidableEq, Repr

/-- A recomputable tile that is not NONE, by physical frame (14 R398, R399). -/
structure Tile where
  page   : Nat
  st     : TileSt
  die    : Nat
  stream : Nat
  tile   : Nat
  deriving DecidableEq, Repr

/-- What a fault record's answer will resume (16 R462). -/
inductive FaultOwner
  | op (id : Nat)
  | stack (crew warp lane : Nat)
  | peer (packet : PeerPacket)
  deriving DecidableEq, Repr

/-- An access whose fault record awaits its answer (16 R462). -/
structure FaultWait where
  /-- WRIDX of its record; none while its V1FMT record is open or the ring is full. -/
  seq   : Option Nat
  owner : FaultOwner
  kind  : Nat
  asid  : Nat
  /-- The eight words of its native record, less SEQ. -/
  words : List DWord
  /-- An operand log holds it (16 R463). -/
  logged : Bool
  core   : Nat
  deriving DecidableEq, Repr

/-- An open V1FMT record (16 R464). -/
structure V1Rec where
  asid   : Nat
  access : Nat
  window : Nat
  pages  : Word
  deriving DecidableEq, Repr

/-- What one act of a slice atomic unit does (15 R430). -/
inductive ActKind
  /-- The lane of an accepted operation. -/
  | lane (op lane : Nat)
  /-- The one act of a per-warp operation. -/
  | whole (op : Nat)
  | peer (packet : PeerPacket)
  /-- The reduce act of a row of a CPE operation, piece by piece (10 R302). -/
  | row (op row piece : Nat)
  deriving DecidableEq, Repr

/-- An act queued at a slice atomic unit, with the storage address it acts on. -/
structure Act where
  addr : Nat
  kind : ActKind
  deriving DecidableEq, Repr

/-- A slice's request arbiter, for its atomic acts, and its atomic unit (15 R429-R431). -/
structure Slice where
  /-- The acts that wait at the 8 input ports, each with whether it goes to the remote queue. -/
  ports  : List (List (Act × Bool)) := List.replicate 8 []
  /-- The port that the arbiter looks at first (01 R37). -/
  next   : Nat := 0
  loc    : List Act := []
  remote : List Act := []
  /-- The toggle names the remote queue. -/
  toggle : Bool := false
  deriving DecidableEq, Repr

/-- The sources of dispatcher requests (01 R35). -/
inductive Source | cluster | task | bin
  deriving DecidableEq, Repr

/-- One die (01 R17). -/
structure Die where
  avail    : Bool := false
  failed   : Bool := false
  repair   : List Nat := []
  tlb      : List TlbEnt := []
  /-- The non-leaf entries of the die TLB (16 R459). -/
  walks    : List WalkEnt := []
  xlwp     : Word := 0
  xlrp     : Word := 0
  dropped  : Word := 0
  written  : Word := 0
  faults   : List FaultWait := []
  v1       : List V1Rec := []
  queues   : List WorkQueue := List.replicate 64 {}
  streams  : List Stream := List.replicate 64 {}
  tasks    : List Task := []
  /-- The READY task that the dispatcher has chosen and has no room for yet (13 R394). -/
  chosen   : Option Nat := none
  recipes  : List Recipe := []
  requests : List Request := []
  rcevt    : Word := 0
  slices   : List Slice := List.replicate 48 {}
  migr     : Bool := true
  hmevt    : Word := 0
  salvCnt  : Word := 0
  salvDrop : Word := 0
  hbmup    : BitVec 4 := 0
  /-- Postponed refreshes: (sub-channel × 16 + bank, count), counts above 0 (15 R447). -/
  refresh  : List (Nat × Nat) := []
  /-- The source served last (01 R35). -/
  served   : Source := .bin
  deriving DecidableEq, Repr

/-! ### Launches -/

/-- Status of a launch (18 R501, R502). -/
inductive LaunchSt
  | running
  /-- LAUNCHCTL.pre-empt is being served. -/
  | preempting
  | preempted
  /-- The launch is ending for a REASON (18 R501); with the tag of the LAUNCHCTL.end, if one asked. -/
  | ending (reason : Nat) (tag : Option (BitVec 16))
  deriving DecidableEq, Repr

/-- A cluster that has been dispatched (01 R24). -/
structure Cluster where
  index  : Nat
  die    : Nat
  corner : Nat × Nat
  deriving DecidableEq, Repr

/-- A saved crew's entry in the save list (18 R502). -/
structure SaveRec where
  base   : VAddr
  core   : Nat
  forced : Bool
  /-- Where the crew came from, with its `%taskid` and `%rcinfo`: the area has no place for them (DEDUCED, log 35). -/
  origin : CrewKind
  taskid : Word
  /-- The crew's late poisoning (13 R393). -/
  latePoison : Option (BitVec 6 × Word) := none
  deriving DecidableEq, Repr

/-- One launch (18 R498-R501). -/
structure Launch where
  num      : Nat
  tag      : BitVec 16
  asid     : Nat
  st       : LaunchSt := .running
  entry    : VAddr
  dims     : Nat × Nat × Nat
  rect     : Nat × Nat
  cor      : Bool
  priv     : Bool
  coop     : Bool
  replay   : Bool
  v1fmt    : Bool
  nbv      : BitVec 2
  /-- How many clusters the grid holds. -/
  clusters : Nat
  regs     : Nat
  csmSize  : Nat
  slots    : Nat
  accs     : Nat
  shapesN  : Nat
  barsN    : Nat
  lsize    : Word
  argp     : VAddr
  lbase    : VAddr
  handler  : VAddr
  ctxarea  : VAddr
  /-- The placement map: page VA, page count, cluster (18 R499). -/
  placement : List (VAddr × Nat × Word)
  recipes  : List VAddr
  rcslots  : Nat
  rcneeds  : BitVec 55
  stages   : DWord
  rcdepth  : BitVec 4 := 4
  /-- The next cluster to start (01 R24), and the clusters started and not ended. -/
  nextCl   : Nat := 0
  /-- The arrival number of its request to the dispatchers. -/
  req      : Nat := 0
  live     : List Cluster := []
  /-- The recompute reserves: die, core (01 R34). -/
  reserves : List (Nat × Nat) := []
  saves    : List SaveRec := []
  haltedN  : Nat := 0
  discards : Nat := 0
  poisons  : Nat := 0
  deriving DecidableEq, Repr

/-! ### The module and its host -/

/-- A code frame (09 R270, R271), by physical frame: its generation and its 64 lines. A line is CLEAN (none) or DIRTY(P),
and FRESH. -/
structure CodeFrame where
  page  : Nat
  gen   : Word
  lines : List (Option (List Nat) × Bool)
  deriving DecidableEq, Repr

/-- Host state of a half that is not HI (15 R433). -/
inductive HalfSt | hs | hx
  deriving DecidableEq, Repr

/-- An outstanding recall (15 R434): the half, how many times it has timed out, and the state it becomes. -/
structure Recall where
  half  : Nat
  sent  : Nat
  share : Bool
  deriving DecidableEq, Repr

/-- An access that the host makes over CXL.mem (15 R432, R433). -/
inductive HostAccess
  | read (offset length : Nat)
  | write (offset : Nat) (data : List Byte) (poison : Bool)
  | shared (half : Nat)
  | own (half : Nat)
  | writeBack (half : Nat) (data : List Byte)
  | evict (half : Nat)
  deriving DecidableEq, Repr

/-- A host access that waits at its home, with its place among the waiting accesses (15 R434, R436). -/
structure HostWait where
  place  : Nat
  access : HostAccess
  deriving DecidableEq, Repr

/-- Mode of a band (15 R443). -/
inductive Band | rowMajor | swizzled | bankPrivate
  deriving DecidableEq, Repr

/-- An error-log entry (18 R503). -/
structure ErrEnt where
  cls    : Nat
  kind   : Nat
  count  : Nat
  origin : Word
  addr   : DWord
  launch : Nat
  seq    : Nat
  detail : DWord
  deriving DecidableEq, Repr

/-- A completion not yet posted (18 R496). -/
structure Completion where
  tag    : BitVec 16
  status : Nat
  event  : Bool
  word1  : DWord
  deriving DecidableEq, Repr

/-- BAR0 (18 R495), less the registers that mirror other state. -/
structure Bar0 where
  cmdBase : DWord := 0
  cmdSize : BitVec 5 := 4
  cmdTail : Word := 0
  cmdHead : Word := 0
  cplBase : DWord := 0
  cplSize : BitVec 5 := 4
  cplTail : Word := 0
  cplHead : Word := 0
  ready   : Bool := false
  pwrCap  : BitVec 12 := 2400
  pwrNow  : BitVec 12 := 0
  junction : BitVec 8 := 0
  inlet   : BitVec 8 := 0
  deriving DecidableEq, Repr

/-- Module flash (18 R508-R510). -/
structure Flash where
  /-- The repair map of each die, and whether its signature verifies. -/
  maps     : List (List Nat × Bool)
  minMap   : List Nat := [0, 0]
  minImage : Nat := 0
  /-- The digest of the image in flash, and of the image that runs. -/
  imageSha : BitVec 256 := 0
  runSha   : BitVec 256 := 0
  q        : Nat := 0
  deriving DecidableEq, Repr

/-- A shootdown that Javatra has begun for a command and whose accesses are still to drain (18 R497): the command's tag,
whether it is an UNMAP, and the mode and operands of the TLBSD. -/
structure HostShoot where
  tag   : BitVec 16
  unmap : Bool
  mode  : TlbMode
  asid  : Nat
  va    : Nat
  n     : Nat
  deriving DecidableEq, Repr

/-- What left the module: answers to peers, CXL.mem data, interrupts. -/
inductive Output
  | peerData (source seq : Nat) (data : List Byte)
  | peerFail (source seq : Nat) (rclass : Nat)
  | hostData (data : List Byte) (poison : Bool)
  | msix (vector : Nat)
  /-- A back-invalidate snoop of a half (15 R434). -/
  | snoop (half : Nat)
  deriving DecidableEq, Repr

/-- A turn of the machine (DESIGN CHOICE, log 1). -/
inductive Turn
  /-- An event of the table of steps, or an instruction run on the issue that `State.cur` names. -/
  | act (i : Instr)
  /-- A quadrant of a core issues (04 R127). -/
  | issue (core quadrant : Nat)
  /-- Cycles pass on a core (01 R13). -/
  | cycles (core n : Nat)
  /-- The host stores to its own memory. -/
  | hostStore (addr : Nat) (data : List Byte)
  /-- The directory needs the entry of a half's line for another line (15 R433). -/
  | directory (half : Nat)
  deriving DecidableEq, Repr

/-- A range of storage whose contents an event made undefined, until they are written: each byte reads a free value of
its draw (13 R388, 14 R418, 15 R443, R445; DEDUCED, log 6). -/
structure Undef where
  lo   : Nat
  hi   : Nat
  draw : Nat
  deriving DecidableEq, Repr

/-- The issue in progress (04 R127). -/
structure Cur where
  crew : Nat
  warp : Nat
  mask : Mask
  pc   : VAddr
  deriving DecidableEq, Repr

/-- An access that has performed before an earlier one of its thread, which an edge of reach `reach` and mask `mask` puts
before it (03 R114): the lane of an operation, the earlier operation, and the bytes in storage. Until the earlier one has
performed, no party within the reach and the mask may meet those bytes. -/
structure Early where
  op    : Nat
  lane  : Nat
  pred  : Nat
  crew  : Nat
  reach : Reach
  mask  : BitVec 6
  write : Bool
  parts : List (Nat × Nat)
  deriving DecidableEq, Repr

/-- The state of the module and of the host memory it reaches. -/
structure State where
  agenda   : List Turn
  cur      : Option Cur
  /-- Numbers operations, crews, bindings and tasks (DESIGN CHOICE, log 11). -/
  nextId   : Nat
  /-- Counts the draws of undefined contents (DEDUCED, log 6). -/
  freeCount : Nat
  crews    : List Crew
  ops      : List Op
  /-- The accesses that have performed early. -/
  early    : List Early
  arrivals : List Arrival
  launches : List Launch
  nextLaunch : Nat
  cores    : List Core
  dies     : List Die
  /-- Physical memory by storage byte: HBM4E at its row-major offset, host memory at 2^51 and above (15 R442, 16 R456). -/
  mem      : List Host.Cell
  /-- Ranges whose unlisted bytes are undefined, newest first. -/
  undef    : List Undef
  /-- What HBM4E holds under bytes that L2 holds modified (15 R427, 18 R505). -/
  stale    : List Host.Cell
  /-- User metadata by granule (07 R250), values other than 0. -/
  mdata    : List (Nat × Word)
  /-- The grade and the number of mappings of each mapped frame (15 R445): frame, grade, mappings. -/
  grades   : List (Nat × Nat × Nat)
  /-- Poisoned granules (15 R446) and lines poisoned in place (15 R439), by granule. -/
  poisoned : List Nat
  code     : List CodeFrame
  /-- How many mappings with X cover each code frame's page. -/
  xmaps    : List (Nat × Nat)
  tiles    : List Tile
  /-- The lines of recomputable pages that L2 holds (14 R400). -/
  resident : List Nat
  /-- The mapped recomputable pages: ASID and physical frame of each mapping (01 R34; 14 R398). -/
  rcmps    : List (Nat × Nat)
  /-- Page-table roots: ASID, storage address (16 R451). -/
  roots    : List (Nat × Nat)
  /-- Page-table frames handed out so far (DESIGN CHOICE, log 13). -/
  tables   : Nat
  /-- Counts the turns that the model itself has chosen, with an empty agenda (DESIGN CHOICE, log 1). -/
  tick     : Nat
  podReplay : Bool
  podV1fmt : Bool
  regions  : List (Nat × RegionMode)
  halves   : List (Nat × HalfSt)
  recalls  : List Recall
  /-- The host accesses that wait for a recall or for the switch of their region, in order of arrival. -/
  hostWaits : List HostWait
  /-- Mode of each band: die × 16 + row[15:12] (15 R443). -/
  bands    : List Band
  /-- Migrated lines: line, die, slice (15 R437). -/
  moved    : List (Nat × Nat × Nat)
  /-- Recorded tickets: window, ticket, operation or peer (12 R365). -/
  tickets  : List (Nat × Word × ActKind)
  /-- Packets in the reorder buffers, in order of arrival (12 R354). -/
  reorder  : List PeerPacket
  /-- Peer packets already performed (12 R351): source, sequence tag. -/
  seen     : List (Nat × Nat)
  endpoint : Nat
  podSize  : Nat
  vistitum : Bool
  ports    : BitVec 18
  bar0     : Bar0
  completions : List Completion
  shoots   : List HostShoot
  errlog   : List ErrEnt
  errSeq   : Nat
  flash    : Flash
  secret   : Bool
  clock    : Nat
  outputs  : List Output
  deriving DecidableEq, Repr

/-- The host's memory begins at this storage address: PA[51] = 1 (16 R456). -/
def hostMem : Nat := 2 ^ 51

/-- The module right after reset, before Javatra has set READY (18 R504, R506): no launch, empty caches and queues, every
special register at its reset value; HBM4E zeroed. -/
def State.reset : State where
  agenda := []
  cur := none
  nextId := 1
  freeCount := 0
  crews := []
  ops := []
  early := []
  arrivals := []
  launches := []
  nextLaunch := 1
  cores := List.replicate 192 {}
  dies := [{ repair := List.range 96 }, { repair := List.range 96 }]
  mem := []
  undef := []
  stale := []
  mdata := []
  grades := []
  poisoned := []
  code := []
  xmaps := []
  tiles := []
  resident := []
  rcmps := []
  roots := []
  tables := 0
  tick := 0
  podReplay := false
  podV1fmt := false
  regions := []
  halves := []
  recalls := []
  hostWaits := []
  bands := List.replicate 32 .rowMajor
  moved := []
  tickets := []
  reorder := []
  seen := []
  endpoint := 0
  podSize := 1
  vistitum := false
  ports := 0
  bar0 := {}
  completions := []
  shoots := []
  errlog := []
  errSeq := 0
  flash := { maps := [(List.range 96, true), (List.range 96, true)] }
  secret := false
  clock := 2100
  outputs := []

end Sys2Proof.Machine
end

