-- ==== Sys2Proof/Machine/Bits.lean ====
section
/-! DEFINITION. Helpers over plain data: lists by index, masks of lanes, byte order (00 R3), sparse cells in canonical
form. -/

namespace Sys2Proof.Machine

/-! ### Lists -/

/-- Change one element of a list by index. -/
def updAt {α : Type} : Nat → (α → α) → List α → List α
  | _, _, [] => []
  | 0, f, x :: xs => f x :: xs
  | n + 1, f, x :: xs => x :: updAt n f xs

/-- Change every element that a test picks. -/
def updWhere {α : Type} (p : α → Bool) (f : α → α) (xs : List α) : List α := xs.map fun x => if p x then f x else x

/-- The least element of a list of numbers. -/
def minNat : List Nat → Option Nat
  | [] => none
  | x :: xs => some (xs.foldl min x)

/-- The position of the first element that a test picks. -/
def indexOf {α : Type} (p : α → Bool) : List α → Option Nat
  | [] => none
  | x :: xs => if p x then some 0 else (indexOf p xs).map (· + 1)

/-! ### Masks -/

/-- The mask of one lane. -/
def laneBit (l : Nat) : Mask := (1 : Mask) <<< l
/-- The lanes of a mask, ascending. -/
def lanesOf (m : Mask) : List Nat := (List.range 32).filter fun l => m.getLsbD l
/-- The mask of a list of lanes. -/
def maskOf (ls : List Nat) : Mask := ls.foldl (fun m l => m ||| laneBit l) 0
/-- The lowest lane of a mask. -/
def lowestLane (m : Mask) : Option Nat := (lanesOf m).head?

/-! ### Bytes (00 R3) -/

/-- The n bytes of a number, least significant first. -/
def leBytes : Nat → Nat → List Byte
  | 0, _ => []
  | n + 1, x => BitVec.ofNat 8 x :: leBytes n (x / 256)

/-- The number that bytes hold, least significant first. -/
def leNat : List Byte → Nat
  | [] => 0
  | b :: bs => b.toNat + 256 * leNat bs

/-- Bits hi to lo of a number. -/
def bitsNat (x hi lo : Nat) : Nat := x / 2 ^ lo % 2 ^ (hi + 1 - lo)

/-- One bit of a number. -/
def bitNat (x i : Nat) : Bool := x / 2 ^ i % 2 == 1

/-- The number of ones among the low n bits. -/
def onesNat : Nat → Nat → Nat
  | 0, _ => 0
  | n + 1, x => x % 2 + onesNat n (x / 2)

/-- A Bool as 0 or 1. -/
def b2n (b : Bool) : Nat := if b then 1 else 0

/-- A number read as a two's-complement value of w bits. -/
def sext (w x : Nat) : Int := if x % 2 ^ w < 2 ^ (w - 1) then (x % 2 ^ w : Nat) else (x % 2 ^ w : Nat) - (2 ^ w : Nat)

/-- An integer narrowed to w bits. -/
def wrapNat (w : Nat) (x : Int) : Nat := (x % (2 ^ w : Nat)).toNat

/-- `sat(x, lo, hi)` (00 R7). -/
def satInt (x lo hi : Int) : Int := if x < lo then lo else if hi < x then hi else x

/-! ### Sparse cells, sorted by key -/

/-- The value listed at a key. -/
def cellGet {α : Type} (k : Nat) : List (Nat × α) → Option α
  | [] => none
  | (a, x) :: rest => if a = k then some x else if k < a then none else cellGet k rest

/-- List a value at a key. -/
def cellPut {α : Type} (k : Nat) (v : α) : List (Nat × α) → List (Nat × α)
  | [] => [(k, v)]
  | (a, x) :: rest =>
    if k < a then (k, v) :: (a, x) :: rest else if a = k then (k, v) :: rest else (a, x) :: cellPut k v rest

/-- List no value at a key. -/
def cellDel {α : Type} (k : Nat) : List (Nat × α) → List (Nat × α)
  | [] => []
  | (a, x) :: rest => if k < a then (a, x) :: rest else if a = k then rest else (a, x) :: cellDel k rest

/-- Whether the keys of a cell list rise strictly from a bound. -/
def cellsRise {α : Type} : Nat → List (Nat × α) → Bool
  | _, [] => true
  | lo, (a, _) :: rest => lo ≤ a && cellsRise (a + 1) rest

/-- Insert a number into a rising list. -/
def insNat (k : Nat) : List Nat → List Nat
  | [] => [k]
  | a :: rest => if k < a then k :: a :: rest else if a = k then a :: rest else a :: insNat k rest

end Sys2Proof.Machine
end

