-- ==== Sys2Proof/Machine/Fp.lean ====
section
/-! DEFINITION. Floating-point numbers (06 R189-R200): the formats, their values as exact integers times powers of two,
and the one rounding of R197-R199, over which the float engine, the copy engine's sums and the matrix engine are
written. -/

namespace Sys2Proof.Machine

/-! ### Values -/

/-- What a code means: a NaN, an infinity, or `m * 2^e` with a sign. -/
inductive FVal
  | nan (signalling : Bool)
  | inf (neg : Bool)
  | fin (neg : Bool) (m : Nat) (e : Int)
  deriving DecidableEq, Repr

/-- A format of IEEE layout: exponent and fraction widths; the sign lies above them (R190, R195). -/
structure Fmt where
  eb : Nat
  fb : Nat
  deriving DecidableEq, Repr

/-- FP64. -/
def fp64 : Fmt := ⟨11, 52⟩
/-- FP32. -/
def fp32 : Fmt := ⟨8, 23⟩
/-- FP16. -/
def fp16 : Fmt := ⟨5, 10⟩
/-- BF16. -/
def bfp16 : Fmt := ⟨8, 7⟩
/-- SC24 (R195). -/
def sc24 : Fmt := ⟨8, 15⟩
/-- acc40 (R196): its exponent field 0 encodes zeros only. -/
def acc40 : Fmt := ⟨9, 30⟩

/-- Width of a format in bits. -/
def Fmt.width (F : Fmt) : Nat := 1 + F.eb + F.fb
/-- Bias. -/
def Fmt.bias (F : Fmt) : Int := ((2 ^ (F.eb - 1) : Nat) : Int) - 1
/-- Sign bit of a code. -/
def Fmt.signOf (F : Fmt) (x : Nat) : Bool := bitNat x (F.eb + F.fb)
/-- Exponent field. -/
def Fmt.expOf (F : Fmt) (x : Nat) : Nat := bitsNat x (F.eb + F.fb - 1) F.fb
/-- Fraction field. -/
def Fmt.fracOf (F : Fmt) (x : Nat) : Nat := x % 2 ^ F.fb
/-- Code of an infinity. -/
def Fmt.infCode (F : Fmt) (neg : Bool) : Nat := (b2n neg * 2 ^ F.eb + (2 ^ F.eb - 1)) * 2 ^ F.fb
/-- The canonical NaN (R191). -/
def Fmt.nanCode (F : Fmt) : Nat := F.infCode false + 2 ^ (F.fb - 1)
/-- Code of a zero. -/
def Fmt.zeroCode (F : Fmt) (neg : Bool) : Nat := b2n neg * 2 ^ (F.eb + F.fb)

/-- The value of a code (R190, R195, R196). -/
def Fmt.decode (F : Fmt) (x : Nat) : FVal :=
  let e := F.expOf x
  let f := F.fracOf x
  if e = 2 ^ F.eb - 1 then (if f = 0 then .inf (F.signOf x) else .nan (!bitNat f (F.fb - 1)))
  else if e = 0 then .fin (F.signOf x) (if F = acc40 then 0 else f) (1 - F.bias - F.fb)
  else .fin (F.signOf x) (2 ^ F.fb + f) ((e : Int) - F.bias - F.fb)

/-- A subnormal code becomes zero of its sign (R202). -/
def Fmt.flush (F : Fmt) (x : Nat) : Nat := if F.expOf x = 0 then F.zeroCode (F.signOf x) else x

/-! ### Magnitudes -/

/-- The exponent of the leading bit of m * 2^e. -/
def topExp (m : Nat) (e : Int) : Int := (Nat.log2 m : Int) + e

/-- Whether m * 2^e is at most n * 2^f. -/
def magLe (m : Nat) (e : Int) (n : Nat) (f : Int) : Bool :=
  if m = 0 then true
  else if n = 0 then false
  else if topExp m e < topExp n f then true
  else if topExp n f < topExp m e then false
  else if e ≤ f then m ≤ n * 2 ^ (f - e).toNat else m * 2 ^ (e - f).toNat ≤ n

/-- The multiple of 2^u that m * 2^e rounds to, and whether that was inexact (R197). -/
def roundAt (rm : Rm) (neg : Bool) (m : Nat) (e u : Int) : Nat × Bool :=
  if m = 0 then (0, false)
  else if u ≤ e then (m * 2 ^ (e - u).toNat, false)
  else
    let k := (u - e).toNat
    let far := Nat.log2 m + 1 < k
    let q := if far then 0 else m / 2 ^ k
    let r := if far then 1 else m % 2 ^ k
    let half := if far then 3 else 2 ^ (k - 1)
    let up :=
      match rm with
      | .rne => half < r || (r == half && q % 2 == 1)
      | .rz => false
      | .ru => !neg && r != 0
      | .rd => neg && r != 0
      | .dyn => false
    (if up then q + 1 else q, r != 0)

/-- The numbers that a rounding may give: p bits, the smallest normal 2^emin, the largest finite maxM * 2^maxE. -/
structure Grid where
  p    : Nat
  emin : Int
  maxM : Nat
  maxE : Int
  deriving DecidableEq, Repr

/-- The grid of a format. -/
def Fmt.grid (F : Fmt) : Grid := ⟨F.fb + 1, 1 - F.bias, 2 ^ (F.fb + 1) - 1, F.bias - F.fb⟩

/-- A rounded magnitude m * 2^e: whether it overflows, whether it is tiny (R199), whether it is inexact. -/
structure Rounded where
  m     : Nat
  e     : Int
  overflow : Bool
  tiny  : Bool
  inexact : Bool
  deriving DecidableEq, Repr

/-- The three steps of R197 on an exact magnitude. -/
def Grid.round (G : Grid) (rm : Rm) (neg : Bool) (m : Nat) (e : Int) : Rounded :=
  if m = 0 then ⟨0, G.emin, false, false, false⟩
  else
    let u := topExp m e - (G.p - 1 : Nat)
    let one := roundAt rm neg m e u
    if !magLe one.1 u G.maxM G.maxE then ⟨one.1, u, true, false, true⟩
    else if topExp one.1 u < G.emin then
      let sub := G.emin - (G.p - 1 : Nat)
      let two := roundAt rm neg m e sub
      ⟨two.1, sub, false, true, two.2⟩
    else ⟨one.1, u, false, false, one.2⟩

/-- Flags NV, DZ, OF, UF, NX (R201). -/
def flagNV : BitVec 5 := 16
/-- DZ. -/
def flagDZ : BitVec 5 := 8
/-- OF. -/
def flagOF : BitVec 5 := 4
/-- UF. -/
def flagUF : BitVec 5 := 2
/-- NX. -/
def flagNX : BitVec 5 := 1

/-- A result: its code, the flags it sets, and whether it is tiny (R199), which the underflow trap looks at. -/
structure FRes where
  code  : Nat
  flags : BitVec 5 := 0
  tiny  : Bool := false
  deriving DecidableEq, Repr

/-- Whether an overflow gives an infinity (R198). -/
def overInf (rm : Rm) (neg : Bool) : Bool :=
  match rm with
  | .rne => true
  | .ru => !neg
  | .rd => neg
  | _ => false

/-- The code of a magnitude on the grid of a format. -/
def Fmt.encode (F : Fmt) (neg : Bool) (m : Nat) (e : Int) : Nat :=
  if m = 0 then F.zeroCode neg
  else
    let t := topExp m e
    if t < 1 - F.bias then F.zeroCode neg + (m * 2 ^ (e - (1 - F.bias - F.fb)).toNat)
    else
      let frac := if t - F.fb ≤ e then m * 2 ^ (e - (t - F.fb)).toNat else m / 2 ^ (t - F.fb - e).toNat
      F.zeroCode neg + (t + F.bias).toNat * 2 ^ F.fb + frac % 2 ^ F.fb

/-- `round(x, fmt, mode)` of an exact magnitude; `ftz` flushes a result below the smallest normal, as acc40
always does (R196-R199, R202). -/
def Fmt.round (F : Fmt) (rm : Rm) (ftz neg : Bool) (m : Nat) (e : Int) : FRes :=
  let r := F.grid.round rm neg m e
  if r.overflow then
    ⟨if overInf rm neg then F.infCode neg else F.infCode neg - 1, flagOF ||| flagNX, false⟩
  else if r.tiny && (F == acc40 || (ftz && topExp r.m r.e < 1 - F.bias && r.m != 0)) then
    ⟨F.zeroCode neg, flagUF ||| flagNX, true⟩
  else
    ⟨F.encode neg r.m r.e, (if r.inexact then flagNX else 0) ||| (if r.tiny && r.inexact then flagUF else 0), r.tiny⟩

/-- The canonical NaN, with NV or without. -/
def Fmt.nanRes (F : Fmt) (nv : Bool) : FRes := ⟨F.nanCode, if nv then flagNV else 0, false⟩

/-- Whether a source is a signalling NaN. -/
def FVal.isSig : FVal → Bool
  | .nan s => s
  | _ => false
/-- Whether a source is a NaN. -/
def FVal.isNan : FVal → Bool
  | .nan _ => true
  | _ => false
/-- Sign of a value; a NaN has none. -/
def FVal.neg : FVal → Bool
  | .inf n => n
  | .fin n _ _ => n
  | .nan _ => false

/-! ### Exact sums (R210) -/

/-- The sign of an exact zero sum. -/
def zeroSign (rm : Rm) (na nb : Bool) : Bool := if na = nb then na else rm == .rd

/-- Round an exact signed integer times 2^e whose zero takes a given sign. -/
def Fmt.roundInt (F : Fmt) (rm : Rm) (ftz zneg : Bool) (x : Int) (e : Int) : FRes :=
  if x = 0 then ⟨F.zeroCode zneg, 0, false⟩ else F.round rm ftz (x < 0) x.natAbs e

/-- A signed integer over a common exponent. -/
def scaled (neg : Bool) (m : Nat) (e low : Int) : Int :=
  let n : Int := m * 2 ^ (e - low).toNat
  if neg then -n else n

/-- The rounded sum of two values (R198-R200, R210). -/
def Fmt.add (F : Fmt) (rm : Rm) (ftz : Bool) (a b : FVal) : FRes :=
  match a, b with
  | .nan _, _ | _, .nan _ => F.nanRes (a.isSig || b.isSig)
  | .inf x, .inf y => if x = y then ⟨F.infCode x, 0, false⟩ else F.nanRes true
  | .inf x, _ | _, .inf x => ⟨F.infCode x, 0, false⟩
  | .fin na ma ea, .fin nb mb eb =>
    if ma = 0 ∧ mb = 0 then ⟨F.zeroCode (zeroSign rm na nb), 0, false⟩
    else if ma = 0 then F.round rm ftz nb mb eb
    else if mb = 0 then F.round rm ftz na ma ea
    else
      let e := min ea eb
      F.roundInt rm ftz (zeroSign rm na nb) (scaled na ma ea e + scaled nb mb eb e) e

/-- The exact product of two values, with the invalid 0 × ∞ as a signalling NaN (R200). -/
def FVal.mul (a b : FVal) : FVal :=
  match a, b with
  | .nan s, .nan t => .nan (s || t)
  | .nan s, _ | _, .nan s => .nan s
  | .inf x, .inf y => .inf (Bool.xor x y)
  | .inf x, .fin y m _ | .fin y m _, .inf x => if m = 0 then .nan true else .inf (Bool.xor x y)
  | .fin x m e, .fin y n f => .fin (Bool.xor x y) (m * n) (e + f)

/-- A value as a rounded result. -/
def Fmt.ofVal (F : Fmt) (rm : Rm) (ftz : Bool) (v : FVal) : FRes :=
  match v with
  | .nan s => F.nanRes s
  | .inf n => ⟨F.infCode n, 0, false⟩
  | .fin n m e => F.round rm ftz n m e

end Sys2Proof.Machine
end

