-- ==== Sys2Proof/Machine/FpSpecial.lean ====
section
/-! DEFINITION. Division, the square root and the special functions (06 R214, R215), each as an exact magnitude to be
rounded: an integer part and, below it, one bit that says whether anything is left. Division and roots are exact integer
arithmetic. EXP2, LOG2, SIN and COS are fixed-point series far longer than their results need (UNVERIFIED, log 10). -/

namespace Sys2Proof.Machine

/-! ### Magnitudes with a last bit that stands for the rest -/

/-- A magnitude whose last bit says that something was left below. -/
def withRest (m : Nat) (rest : Bool) (e : Int) : Nat × Int := (2 * m + b2n rest, e - 1)

/-- The integer square root, by Newton's steps from above. -/
def isqrtLoop (n : Nat) : Nat → Nat → Nat
  | 0, x => x
  | fuel + 1, x =>
    let y := (x + n / x) / 2
    if x ≤ y then x else isqrtLoop n fuel y

/-- The integer square root. -/
def isqrt (n : Nat) : Nat := if n = 0 then 0 else isqrtLoop n (Nat.log2 n + 2) (2 ^ (Nat.log2 n / 2 + 1))

/-- a * 2^ea / (b * 2^eb), to at least 130 bits. -/
def quotMag (a : Nat) (ea : Int) (b : Nat) (eb : Int) : Nat × Int :=
  let k := 130 + Nat.log2 b
  withRest (a * 2 ^ k / b) (a * 2 ^ k % b != 0) (ea - eb - k)

/-- The square root of m * 2^e, to at least 100 bits. -/
def sqrtMag (m : Nat) (e : Int) : Nat × Int :=
  let odd : Nat := (e % 2).toNat
  let n := m * 2 ^ (200 + odd)
  let q := isqrt n
  withRest q (q * q != n) ((e - odd) / 2 - 100)

/-- 1 / sqrt(m * 2^e), to at least 100 bits. -/
def rsqrtMag (m : Nat) (e : Int) : Nat × Int :=
  let odd : Nat := (e % 2).toNat
  let k := 2 * (Nat.log2 m + 101)
  let y := 2 ^ k / (m * 2 ^ odd)
  let q := isqrt y
  withRest q (q * q * (m * 2 ^ odd) != 2 ^ k) (-((e - odd) / 2) - (k / 2 : Nat))

/-! ### Series -/

/-- ln 2 * 2^256, rounded down. -/
def ln2Fix : Nat := 0xb17217f7d1cf79abc9e3b39803f2f6af40f343267298b62d8a0d175b8baafa2b

/-- pi * 2^384, rounded down. -/
def piFix : Nat := 0x3243f6a8885a308d313198a2e03707344a4093822299f31d0082efa98ec4e6c89452821e638d01377be5466cf34e90c6c

/-- Terms of exp(y) for y / 2^256: y^n / n!. -/
def expLoop (y : Nat) : Nat → Nat → Nat → Nat → Nat
  | 0, _, _, acc => acc
  | fuel + 1, n, t, acc =>
    let t := t * y / 2 ^ 256 / n
    expLoop y fuel (n + 1) t (acc + t)

/-- exp(y / 2^256) * 2^256. -/
def expFix (y : Nat) : Nat := expLoop y 70 1 (2 ^ 256) (2 ^ 256)

/-- Terms of the inverse hyperbolic tangent of z / 2^256: z^(2k+1) / (2k+1). -/
def atanhLoop (z2 : Nat) : Nat → Nat → Nat → Nat → Nat
  | 0, _, _, acc => acc
  | fuel + 1, n, t, acc => atanhLoop z2 fuel (n + 2) (t * z2 / 2 ^ 256) (acc + t / n)

/-- ln(m / 2^k) * 2^256 for 1 ≤ m / 2^k < 2. -/
def lnFix (m k : Nat) : Nat :=
  let z := (m - 2 ^ k) * 2 ^ 256 / (m + 2 ^ k)
  2 * atanhLoop (z * z / 2 ^ 256) 84 1 z 0

/-- Terms of sin(y / 2^384), added and subtracted in turn. -/
def sinLoop (y2 : Nat) : Nat → Nat → Nat → Bool → Int → Int
  | 0, _, _, _, acc => acc
  | fuel + 1, n, t, sub, acc =>
    sinLoop y2 fuel (n + 2) (t * y2 / 2 ^ 384 / ((n + 1) * (n + 2))) (!sub) (if sub then acc - t else acc + t)

/-- sin(pi * t / 2^384) * 2^384 for 0 ≤ t / 2^384 ≤ 1/2. -/
def sinFix (t : Nat) : Nat :=
  let y := t * piFix / 2 ^ 384
  (sinLoop (y * y / 2 ^ 384) 45 1 y false 0).toNat

/-! ### The functions on finite values -/

/-- 2^x for a finite nonzero x. -/
def exp2Mag (neg : Bool) (m : Nat) (e : Int) : Nat × Int :=
  if 8 ≤ topExp m e then (if neg then withRest 1 true (-400) else withRest 1 true 400)
  else if 0 ≤ e then (1, if neg then -(m * 2 ^ e.toNat : Nat) else (m * 2 ^ e.toNat : Nat))
  else
    let den := 2 ^ (-e).toNat
    let x : Int := if neg then -(m : Int) else m
    let n := x / (den : Nat)
    let f := (x % (den : Nat)).toNat
    if f = 0 then (1, n) else withRest (expFix (f * ln2Fix / den)) true (n - 256)

/-- log2 x for a finite positive x: sign and magnitude. -/
def log2Mag (m : Nat) (e : Int) : Bool × Nat × Int :=
  let k := Nat.log2 m
  if m = 2 ^ k then
    let n := (k : Int) + e
    (n < 0, n.natAbs, 0)
  else
    let v : Int := ((k : Int) + e) * (2 ^ 256 : Nat) + (lnFix m k * 2 ^ 256 / ln2Fix : Nat)
    (v < 0, (withRest v.natAbs true (-256)).1, (withRest v.natAbs true (-256)).2)

/-- |sin(pi x)| and whether sin(pi x) is negative, for x = m * 2^e with e < 0, by half-turns of 2^384. -/
def sinTurns (x : Nat) : Bool × Nat × Int :=
  let one := 2 ^ 384
  let r := x % (2 * one)
  let neg := one ≤ r
  let h := r % one
  let t := if one / 2 < h then one - h else h
  if t = 0 then (neg, 0, 0)
  else if t = one / 2 then (neg, 1, 0)
  else
    let s := withRest (sinFix t) true (-384)
    (neg, s.1, s.2)

/-- A finite magnitude modulo 2, as half-turns of 2^384; none for an integer. -/
def turnsOf (m : Nat) (e : Int) : Option Nat :=
  if 0 ≤ e then none
  else
    let k := (-e).toNat
    if m % 2 ^ k = 0 then none else some (m % 2 ^ (k + 1) * 2 ^ (384 - k))

end Sys2Proof.Machine
end

