-- ==== Sys2Proof/Machine/Mem.lean ====
section
/-! DEFINITION. Physical memory (15 R426-R446): the canonical list of cells, the apertures, poison, metadata, code-dirty
lines (09 R271), and the reads and writes of bytes at their home. -/

namespace Sys2Proof.Machine

/-! ### The canonical form -/

/-- The undefined range that holds a storage key. -/
def undefAt (u : List Undef) (a : Nat) : Option Undef := u.find? fun r => r.lo ≤ a && a < r.hi

/-- What an unlisted byte reads as: 0 (18 R504 for HBM4E, DESIGN CHOICE log 5 for host memory), or a free value where an event has made
the contents undefined (DEDUCED, log 6). -/
def unlisted (u : List Undef) (a : Nat) : Byte :=
  match undefAt u a with
  | some r => Config.undefByte r.draw a
  | none => 0

/-- A byte of memory. -/
def memByte (u : List Undef) (m : List Host.Cell) (a : Nat) : Byte :=
  match cellGet a m with
  | some b => b
  | none => unlisted u a

/-- Write a byte: the value that an unlisted byte reads is not listed. -/
def memPut (u : List Undef) (m : List Host.Cell) (a : Nat) (b : Byte) : List Host.Cell :=
  if b = 0 ∧ undefAt u a = none then cellDel a m else cellPut a b m

/-- The canonical form: addresses rise strictly, and no entry equals the 0 that an unlisted address reads outside the
undefined ranges. -/
def Memory.wf (u : List Undef) (m : List Host.Cell) : Bool :=
  cellsRise 0 m && m.all fun c => c.2 != 0 || (undefAt u c.1).isSome

/-- n bytes from an address. -/
def memBytes (u : List Undef) (m : List Host.Cell) (a : Nat) : Nat → List Byte
  | 0 => []
  | n + 1 => memByte u m a :: memBytes u m (a + 1) n

/-! ### Physical addresses (15 R442, 16 R456) -/

/-- What a physical address names. -/
inductive Place
  /-- HBM4E, by row-major offset, reached through an aperture. -/
  | hbm (o : Nat) (aperture : Band)
  | host (h : Nat)
  | reserved
  deriving DecidableEq, Repr

/-- The row-major offset of the storage byte that an offset of the tile-swizzled aperture names (15 R442). -/
def swizzledToRow (o : Nat) : Nat :=
  let x := Nat.xor (bitsNat o 15 7) (bitsNat o 24 16)
  bitsNat o 37 16 * 2 ^ 16 + x * 2 ^ 7 + bitsNat o 6 0

/-- The same for the bank-private aperture. -/
def bankPrivateToRow (o : Nat) : Nat :=
  let row := bitsNat o 24 9
  let bank := Nat.xor (bitsNat o 28 25) (row % 16)
  row * 2 ^ 22 + bank * 2 ^ 18 + bitsNat o 8 7 * 2 ^ 16 + bitsNat o 37 29 * 2 ^ 7 + bitsNat o 6 0

/-- What a 52-bit physical address names (15 R442, 16 R456). -/
def placeOf (pa : Nat) : Place :=
  if bitNat pa 51 then .host (pa % 2 ^ 51)
  else if bitsNat pa 51 42 ≠ 0 ∨ bitNat pa 39 then .reserved
  else
    let o := pa % 2 ^ 39
    let die := bitsNat o 38 38 * 2 ^ 38
    let low := o % 2 ^ 38
    match bitsNat pa 41 40 with
    | 0 => .hbm o .rowMajor
    | 1 => .hbm (die + swizzledToRow low) .swizzled
    | 2 => .hbm (die + bankPrivateToRow low) .bankPrivate
    | _ => .reserved

/-- The storage key of a place: HBM4E at its row-major offset, host memory from 2^51. -/
def Place.key : Place → Option Nat
  | .hbm o _ => some o
  | .host h => some (hostMem + h)
  | .reserved => none

/-- Whether a storage key lies in HBM4E. -/
def isHbm (k : Nat) : Bool := k < 2 ^ 39

/-- The die that homes a storage key: that of its stack, or die 0 for host memory (15 R426). -/
def keyDie (k : Nat) : Nat := if isHbm k then k / 2 ^ 38 else 0

/-- The band of a storage key, among the 32 of both dies (15 R443). -/
def keyBand (k : Nat) : Nat := k / 2 ^ 38 * 16 + bitsNat k 37 34

/-- The mode of the band that holds a storage key. -/
def State.bandOf (s : State) (k : Nat) : Band := s.bands.getD (keyBand k) .rowMajor

/-- The offset in the bank-private aperture of a row-major offset. -/
def rowToBankPrivate (o : Nat) : Nat :=
  let row := bitsNat o 37 22
  bitsNat o 15 7 * 2 ^ 29 + Nat.xor (bitsNat o 21 18) (row % 16) * 2 ^ 25 + row * 2 ^ 9 + bitsNat o 17 16 * 2 ^ 7 + bitsNat o 6 0

/-- The physical address of a storage key, through the aperture of its band's mode; the tile-swizzled aperture is its own
inverse. -/
def State.paOf (s : State) (k : Nat) : Nat :=
  if isHbm k then
    let die := k / 2 ^ 38 * 2 ^ 38
    match s.bandOf k with
    | .rowMajor => k
    | .swizzled => 2 ^ 40 + die + swizzledToRow (k % 2 ^ 38)
    | .bankPrivate => 2 ^ 41 + die + rowToBankPrivate (k % 2 ^ 38)
  else k

/-- The physical frame that holds a storage key. -/
def State.frameOf (s : State) (k : Nat) : Nat := s.paOf k / 4096

/-- A line's default slice: PA[51:7] mod 48 (15 R426). -/
def State.sliceOf (s : State) (line : Nat) : Nat := s.paOf (line * 128) / 128 % 48

/-- The current home of a storage key: die and slice (15 R426, R437). -/
def State.homeOf (s : State) (k : Nat) : Nat × Nat :=
  match s.moved.find? fun e => e.1 == k / 128 with
  | some (_, d, sl) => (d, sl)
  | none => (keyDie k, s.sliceOf (k / 128))

/-- Whether a die still serves (15 R439). -/
def State.dieFailed (s : State) (d : Nat) : Bool := ((s.dies[d]?).map Die.failed).getD false

/-- Whether an access to a storage key meets the salvage of a failed die (15 R439). -/
def State.salvaged (s : State) (k : Nat) : Option Nat :=
  if isHbm k && s.dieFailed (keyDie k) then some (keyDie k)
  else if s.dieFailed (s.homeOf k).1 then some (s.homeOf k).1
  else none

/-! ### Granules -/

/-- The granule of a storage key. -/
def granule (k : Nat) : Nat := k / 16

/-- Whether a range touches a poisoned granule (15 R446). -/
def State.isPoisoned (s : State) (k n : Nat) : Bool := s.poisoned.any fun g => granule k ≤ g && g ≤ granule (k + n - 1)

/-- Bytes at a storage key. -/
def State.bytes (s : State) (k n : Nat) : List Byte := memBytes s.undef s.mem k n

/-- A little-endian number at a storage key. -/
def State.nat (s : State) (k n : Nat) : Nat := leNat (s.bytes k n)

/-! ### Code frames (09 R270, R271) -/

/-- A line that a write reaches: DIRTY with an empty published set, and no longer FRESH. -/
def CodeFrame.dirtyLine (f : CodeFrame) (line : Nat) : CodeFrame :=
  { f with lines := updAt line (fun _ => (some [], false)) f.lines }

/-- The 64-byte halves of lines that a range touches. -/
def halvesOf (k n : Nat) : List Nat := if n = 0 then [] else (List.range ((k + n - 1) / 64 - k / 64 + 1)).map (k / 64 + ·)

/-- The effect of a write of n bytes at k on the code states of the lines it touches (09 R271). -/
def State.dirtyCode (s : State) (k n : Nat) : List CodeFrame :=
  if s.code.isEmpty then []
  else
    (halvesOf k n).foldl (fun (fs : List CodeFrame) h =>
      let pa := s.paOf (h * 64)
      updWhere (fun f => f.page == pa / 4096) (fun f => f.dirtyLine (pa % 4096 / 64)) fs) s.code

/-- The code frame of a storage key. -/
def State.codeAt (s : State) (k : Nat) : Option CodeFrame := s.code.find? fun f => f.page == s.frameOf k

/-! ### Writes at the home -/

/-- What HBM4E holds under a byte that L2 now holds modified: recorded at the first write after the last write-back
(15 R427). -/
def noteStale (u : List Undef) (m stale : List Host.Cell) (k : Nat) : List Host.Cell :=
  match cellGet k stale with
  | some _ => stale
  | none => cellPut k (memByte u m k) stale

/-- Bytes written into memory, and for HBM4E what they replace noted. -/
def putBytes (u : List Undef) (m stale : List Host.Cell) (k : Nat) : List Byte → List Host.Cell × List Host.Cell
  | [] => (m, stale)
  | b :: bs => putBytes u (memPut u m k b) (if isHbm k then noteStale u m stale k else stale) (k + 1) bs

/-- A write of bytes at the home of a storage key (15 R428): memory changes, the code lines it touches become dirty
(09 R271), and granules written wholly lose their poison (15 R446). -/
def State.store (s : State) (k : Nat) (bs : List Byte) : State :=
  let ms := putBytes s.undef s.mem s.stale k bs
  { s with
    mem := ms.1
    stale := ms.2
    code := s.dirtyCode k bs.length
    poisoned := s.poisoned.filter fun g => !(k ≤ g * 16 && g * 16 + 16 ≤ k + bs.length) }

/-- A little-endian number stored in n bytes. -/
def State.storeNat (s : State) (k n x : Nat) : State := s.store k (leBytes n x)

/-- A line is written back: HBM4E then holds what L2 held (15 R427). -/
def State.writeBack (s : State) (line : Nat) : State :=
  { s with stale := s.stale.filter fun c => !(line * 128 ≤ c.1 && c.1 < line * 128 + 128) }

/-! ### Metadata (07 R250, 15 R445) -/

/-- The user metadata bits of a grade (15 R445). -/
def gradeBits : Nat → Nat
  | 0 => 0
  | 1 => 16
  | 2 => 24
  | _ => 32

/-- The metadata of a granule; unlisted metadata reads 0 (18 R504), or a free value where it is undefined. -/
def State.metaOf (s : State) (g : Nat) : Word :=
  match cellGet g s.mdata with
  | some w => w
  | none =>
    match undefAt s.undef (g * 16) with
    | some r => Config.undefMeta r.draw g
    | none => 0

/-- Write the metadata of a granule; 0 is not listed outside the undefined ranges. -/
def State.putMeta (s : State) (g : Nat) (w : Word) : State :=
  { s with mdata := if w = 0 ∧ undefAt s.undef (g * 16) = none then cellDel g s.mdata else cellPut g w s.mdata }

/-! ### Undefined contents (DEDUCED, log 6) -/

/-- Make n bytes from a storage key undefined, with their metadata. -/
def State.undefine (s : State) (k n : Nat) : State :=
  let out {α : Type} (cs : List (Nat × α)) (scale : Nat) : List (Nat × α) :=
    cs.filter fun c => !(k ≤ c.1 * scale && c.1 * scale < k + n)
  { s with
    freeCount := s.freeCount + 1
    undef := ⟨k, k + n, s.freeCount⟩ :: s.undef
    mem := out s.mem 1
    stale := out s.stale 1
    mdata := out s.mdata 16 }

/-- Make a 4 KiB physical frame undefined: one range of storage, or its 32 lines. -/
def State.undefineFrame (s : State) (frame : Nat) : State :=
  match placeOf (frame * 4096) with
  | .hbm o .rowMajor => s.undefine o 4096
  | .hbm _ _ =>
    ((List.range 32).filterMap fun i => (placeOf (frame * 4096 + 128 * i)).key).foldl (fun (s : State) k => s.undefine k 128) s
  | .host h => s.undefine (hostMem + h) 4096
  | .reserved => s

end Sys2Proof.Machine
end

