-- ==== Sys2Proof/Machine/Access.lean ====
section
/-! DEFINITION. Reading and changing one piece of the state: dies, cores, crews, warps, threads, operations, launches, the
error log (18 R503) and the outputs. -/

namespace Sys2Proof.Machine

/-! ### One piece of the state -/

/-- The die of a core (01 R14). -/
def dieOfCore (c : Nat) : Nat := c / 96

/-- A die; an absent number reads as a die out of service. -/
def State.die (s : State) (d : Nat) : Die := (s.dies[d]?).getD {}
/-- A core. -/
def State.core (s : State) (c : Nat) : Core := (s.cores[c]?).getD {}
/-- Change a die. -/
def State.setDie (s : State) (d : Nat) (f : Die → Die) : State := { s with dies := updAt d f s.dies }
/-- Change a core. -/
def State.setCore (s : State) (c : Nat) (f : Core → Core) : State := { s with cores := updAt c f s.cores }

/-- The crew of a number. -/
def State.crew? (s : State) (id : Nat) : Option Crew := s.crews.find? fun c => c.id == id
/-- Change a crew. -/
def State.setCrew (s : State) (id : Nat) (f : Crew → Crew) : State :=
  { s with crews := updWhere (fun c => c.id == id) f s.crews }
/-- Change a warp of a crew. -/
def Crew.setWarp (c : Crew) (w : Nat) (f : Warp → Warp) : Crew := { c with warps := updAt w f c.warps }
/-- Change a thread of a warp. -/
def Warp.setThread (w : Warp) (l : Nat) (f : Thread → Thread) : Warp := { w with threads := updAt l f w.threads }
/-- Change a warp. -/
def State.setWarp (s : State) (id w : Nat) (f : Warp → Warp) : State := s.setCrew id fun c => c.setWarp w f
/-- Change a thread. -/
def State.setThread (s : State) (id w l : Nat) (f : Thread → Thread) : State :=
  s.setWarp id w fun x => x.setThread l f
/-- A warp. -/
def State.warp? (s : State) (id w : Nat) : Option Warp := (s.crew? id).bind fun c => c.warps[w]?
/-- A thread. -/
def State.thread? (s : State) (id w l : Nat) : Option Thread := (s.warp? id w).bind fun x => x.threads[l]?
/-- A thread of a warp; a lane past the last is absent. -/
def Warp.thread (w : Warp) (l : Nat) : Thread := (w.threads[l]?).getD { run := .absent }
/-- The lanes of a warp whose thread passes a test. -/
def Warp.lanesWhere (w : Warp) (p : Thread → Bool) : Mask :=
  maskOf ((List.range w.threads.length).filter fun l => p (w.thread l))

/-- The crew and warp index of the warp in a slot of a core. -/
def State.warpAt (s : State) (core slot : Nat) : Option (Crew × Nat × Warp) :=
  s.crews.findSome? fun c =>
    if c.core == core then
      (indexOf (fun (w : Warp) => w.slot == slot) c.warps).bind fun k => (c.warps[k]?).map fun w => (c, k, w)
    else none

/-- The operation of a number. -/
def State.op? (s : State) (id : Nat) : Option Op := s.ops.find? fun o => o.id == id
/-- Change an operation. -/
def State.setOp (s : State) (id : Nat) (f : Op → Op) : State :=
  { s with ops := updWhere (fun o => o.id == id) f s.ops }
/-- Forget an operation. -/
def State.dropOp (s : State) (id : Nat) : State := { s with ops := s.ops.filter fun o => o.id != id }
/-- Change one lane of an operation. -/
def State.setLane (s : State) (id lane : Nat) (f : LaneAcc → LaneAcc) : State :=
  s.setOp id fun o => { o with acc := updWhere (fun a => a.lane == lane) f o.acc }

/-- The lanes of an operation whose accesses have still to perform; a form without lanes of its own counts every issuing
thread. -/
def Op.undoneLanes (o : Op) : Mask :=
  if o.acc.isEmpty then o.lanes else o.lanes &&& maskOf ((o.acc.filter fun a => !a.done).map LaneAcc.lane)

/-- The lanes, of those named, in which an operation has still to perform. -/
def State.openOf (s : State) (x : Nat × Mask) : Mask :=
  match s.op? x.1 with
  | some o => if o.fail.isSome then 0 else o.undoneLanes &&& x.2
  | none => 0

/-- The launch of a number. -/
def State.launch? (s : State) (n : Nat) : Option Launch := s.launches.find? fun l => l.num == n
/-- Change a launch. -/
def State.setLaunch (s : State) (n : Nat) (f : Launch → Launch) : State :=
  { s with launches := updWhere (fun l => l.num == n) f s.launches }

/-- The endpoint of an offset (01 R28, 12 R343). -/
def State.endpointOf (s : State) (o : Int) : Nat := (((s.endpoint : Int) + o) % ((max s.podSize 1 : Nat) : Int)).toNat

/-- A fresh number. -/
def State.fresh (s : State) : Nat × State := (s.nextId, { s with nextId := s.nextId + 1 })

/-- Something leaves the module. -/
def State.emit (s : State) (o : Output) : State := { s with outputs := s.outputs ++ [o] }

/-! ### ORIGIN (04 R146) -/

/-- ENGINE codes of ORIGIN (04 R146). -/
inductive Engine | seq | int | flt | xbr | lme | fch | cpe | mxe | fab | tbe | rce | hme | xle
  deriving DecidableEq, Repr

/-- The code of an engine. -/
def Engine.code : Engine → Nat
  | .seq => 0 | .int => 1 | .flt => 2 | .xbr => 3 | .lme => 4 | .fch => 5 | .cpe => 6 | .mxe => 7 | .fab => 8
  | .tbe => 9 | .rce => 10 | .hme => 11 | .xle => 12

/-- The engine that defines the form with an opcode (04 R146). -/
def engineOfOp (op : Nat) : Engine :=
  if op < 0x10 then .seq else if op < 0x30 then .int else if op < 0x50 then .flt else if op < 0x60 then .xbr
  else if op < 0x80 then .lme else if op < 0x90 then .fch else if op < 0xA0 then .cpe else if op < 0xB0 then .mxe
  else if op < 0xC0 then .fab else if op < 0xC8 then .tbe else if op < 0xD0 then .rce
  else if op < 0xD3 then .xle else if op = 0xD3 then .hme else .seq

/-- The engine of an instruction. -/
def engineOf (i : Instr) : Engine := (i.form.map fun F => engineOfOp F.op.toNat).getD .seq

/-- An ORIGIN of this module (04 R146). -/
def mkOrigin (e : Engine) (die core tok : Nat) : Word :=
  BitVec.ofNat 32 (e.code * 2 ^ 28 + die % 2 * 2 ^ 26 + core % 256 * 2 ^ 18 + tok % 32 * 2 ^ 13)
/-- Whether an engine belongs to a die and not to a core (01 R16, R17). -/
def Engine.ofDie : Engine → Bool
  | .fab | .tbe | .rce | .hme | .xle => true
  | _ => false
/-- The ORIGIN of a failure for an operation of a core: an engine of the die gives CORE 0xFF. -/
def coreOrigin (e : Engine) (core tok : Nat) : Word := mkOrigin e (dieOfCore core) (if e.ofDie then 0xFF else core) tok
/-- The ORIGIN of an engine of a die. -/
def dieOrigin (e : Engine) (die tok : Nat) : Word := mkOrigin e die 0xFF tok
/-- The ORIGIN of a failure at a peer (12 R351). -/
def peerOrigin (rclass ep : Nat) : Word :=
  BitVec.ofNat 32 (Engine.fab.code * 2 ^ 28 + 2 ^ 27 + rclass % 4 * 2 ^ 25 + ep % 4096 * 2 ^ 13)

/-! ### The error log (18 R503) -/

/-- How many entries the log holds. -/
def errLogSize : Nat := 65536

/-- Make room in a full log: the oldest entry of class 0 or 1 goes, otherwise the oldest. -/
def evictErr (log : List ErrEnt) : List ErrEnt :=
  if log.length < errLogSize then log
  else
    match indexOf (fun (e : ErrEnt) => e.cls ≤ 1) log with
    | some i => log.eraseIdx i
    | none => log.drop 1

/-- Log an event: a corrected or transient one that matches the newest entry adds to its COUNT; each new entry of class 2
or 3 produces an event completion. -/
def State.logErr (s : State) (cls kind : Nat) (origin : Word) (addr : DWord) (launch : Nat) (detail : DWord) : State :=
  let cls := if 8 ≤ kind && kind != 13 then 3 else cls
  match s.errlog.getLast? with
  | some e =>
    if cls ≤ 1 ∧ e.cls = cls ∧ e.kind = kind ∧ e.origin = origin ∧ e.addr = addr then
      { s with errlog := s.errlog.dropLast ++ [{ e with count := min 65535 (e.count + 1) }] }
    else push cls
  | none => push cls
where
  /-- Append a new entry. -/
  push (cls : Nat) : State :=
    let e : ErrEnt :=
      { cls := cls, kind := kind, count := 1, origin := origin, addr := addr, launch := launch, seq := s.errSeq,
        detail := detail }
    { s with
      errlog := evictErr s.errlog ++ [e]
      errSeq := s.errSeq + 1
      completions :=
        if 2 ≤ cls then s.completions ++ [{ tag := 0, status := 0, event := true, word1 := BitVec.ofNat 64 s.errSeq }]
        else s.completions }

end Sys2Proof.Machine
end

