-- ==== Sys2Proof/Machine/Xlate.lean ====
section
/-! DEFINITION. The translation engine (16): walks, TLBs, permissions, fault records and their answers. -/

namespace Sys2Proof.Machine

/-! ### Table entries (16 R453) -/

/-- FRAME of an entry, as a physical address. -/
def entFrame (e : Nat) : Nat := bitsNat e 51 12 * 4096
/-- V. -/
def entV (e : Nat) : Bool := bitNat e 63
/-- KIND: the page's ordering kind (03 R100). -/
def entKind (e : Nat) : Nat := bitsNat e 62 61
/-- W. -/
def entW (e : Nat) : Bool := bitNat e 60
/-- X. -/
def entX (e : Nat) : Bool := bitNat e 59
/-- R. -/
def entR (e : Nat) : Bool := bitNat e 58
/-- GRADE. -/
def entGrade (e : Nat) : Nat := bitsNat e 57 56
/-- RCMP. -/
def entRcmp (e : Nat) : Bool := bitNat e 55
/-- POD. -/
def entPod (e : Nat) : Bool := bitNat e 54
/-- C64. -/
def entC64 (e : Nat) : Bool := bitNat e 11
/-- LEAF. -/
def entLeaf (e : Nat) : Bool := bitNat e 10

/-- Fault kinds of a walk (16 R461). -/
def kNotMapped : Nat := 1
/-- MALFORMED. -/
def kMalformed : Nat := 2
/-- PERMISSION. -/
def kPermission : Nat := 3
/-- LASTING. -/
def kLasting : Nat := 5

/-- How a walk ends. -/
inductive Walk
  | ok (t : TlbEnt)
  | fault (kind level : Nat) (entry : Nat)
  deriving DecidableEq, Repr

/-- Page size of a leaf at a level (16 R452). -/
def leafSize (level : Nat) (c64 : Bool) : Nat :=
  match level with
  | 2 => 2 ^ 30
  | 1 => 2 ^ 21
  | _ => if c64 then 2 ^ 16 else 2 ^ 12

/-- Whether a valid leaf is well formed, its C64 group apart (16 R455). -/
def leafOk (e size : Nat) : Bool :=
  entKind e != 3 && !(entW e && !entR e) &&
  !(entRcmp e && (entX e || entPod e || bitNat (entFrame e) 51)) && entFrame e % size == 0

/-- Whether the 16 entries of a C64 group map 64 KiB together (16 R454): entries at `k`, the group's line. -/
def c64Ok (s : State) (k : Nat) : Bool :=
  let e0 := s.nat k 8
  bitsNat e0 15 12 == 0 &&
  (List.range 16).all fun i =>
    let e := s.nat (k + 8 * i) 8
    bitsNat e 63 52 == bitsNat e0 63 52 && bitsNat e 11 10 == bitsNat e0 11 10 &&
    bitsNat e 51 12 == bitsNat e0 51 12 + i

/-- A walk from a table at a storage address, down the listed levels (16 R452-R458). -/
def walkFrom (s : State) (asid va : Nat) : List Nat → Nat → Walk
  | [], _ => .fault kMalformed 0 0
  | level :: rest, base =>
    let k := base + 8 * bitsNat va (9 * level + 20) (9 * level + 12)
    if s.isPoisoned k 8 || (s.salvaged k).isSome then .fault kLasting level (Config.lostEntry k).toNat
    else
      let e := s.nat k 8
      if !entV e then .fault kNotMapped level e
      else if bitsNat e 53 52 ≠ 0 ∨ placeOf (entFrame e) = .reserved then .fault kMalformed level e
      else if entLeaf e then
        if 3 ≤ level then .fault kMalformed level e
        else
          let c64 := level == 0 && entC64 e
          let size := leafSize level c64
          let first := if c64 then e - bitsNat e 15 12 * 4096 else e
          if !leafOk first size then .fault kMalformed level e
          else if c64 && s.isPoisoned (k / 128 * 128) 128 then .fault kLasting level (Config.lostEntry k).toNat
          else if c64 && !c64Ok s (k / 128 * 128) then .fault kMalformed level e
          else .ok { asid := asid, base := va / size * size, size := size, leaf := BitVec.ofNat 64 first, level := level }
      else if bitsNat e 62 54 ≠ 0 ∨ entC64 e then .fault kMalformed level e
      else
        match placeOf (entFrame e) with
        | .hbm o .rowMajor => if level = 0 then .fault kMalformed level e else walkFrom s asid va rest o
        | _ => .fault kMalformed level e

/-- A walk of an address space (16 R452): an ASID without a root has nothing mapped. -/
def State.walk (s : State) (asid va : Nat) : Walk :=
  match s.roots.find? fun r => r.1 == asid with
  | some (_, root) => walkFrom s asid va [4, 3, 2, 1, 0] root
  | none => .fault kNotMapped 4 0

/-- The non-leaf entries on the way of a walk, from a table down the listed levels. -/
def walkPath (s : State) (asid va : Nat) : List Nat → Nat → List WalkEnt
  | [], _ => []
  | level :: rest, base =>
    let e := s.nat (base + 8 * bitsNat va (9 * level + 20) (9 * level + 12)) 8
    if level = 0 ∨ !entV e ∨ entLeaf e then []
    else
      match placeOf (entFrame e) with
      | .hbm o .rowMajor => ⟨asid, level, va / 2 ^ (9 * level + 12), o⟩ :: walkPath s asid va rest o
      | _ => []

/-! ### TLBs (16 R459) -/

/-- Which TLB an access is translated in. -/
inductive TlbLoc
  | data (core : Nat)
  | inst (core : Nat)
  | ahead (core : Nat)
  | ofDie (die : Nat)
  deriving DecidableEq, Repr

/-- What an access needs of its leaf (16 R457). -/
structure Need where
  r   : Bool := false
  w   : Bool := false
  x   : Bool := false
  pod : Bool := false
  deriving DecidableEq, Repr

/-- Whether a leaf gives what an access needs. -/
def Need.met (n : Need) (leaf : Nat) : Bool :=
  (!n.r || entR leaf) && (!n.w || entW leaf) && (!n.x || entX leaf) && (!n.pod || entPod leaf)

/-- The entries of a TLB. -/
def State.tlbOf (s : State) : TlbLoc → List TlbEnt
  | .data c => (s.core c).dtlb
  | .inst c => (s.core c).itlb
  | .ahead c => (s.core c).wtlb
  | .ofDie d => (s.die d).tlb

/-- The die whose XLE serves a TLB. -/
def TlbLoc.die : TlbLoc → Nat
  | .data c | .inst c | .ahead c => dieOfCore c
  | .ofDie d => d

/-- Change a TLB. -/
def State.setTlb (s : State) (f : List TlbEnt → List TlbEnt) : TlbLoc → State
  | .data c => s.setCore c fun x => { x with dtlb := f x.dtlb }
  | .inst c => s.setCore c fun x => { x with itlb := f x.itlb }
  | .ahead c => s.setCore c fun x => { x with wtlb := f x.wtlb }
  | .ofDie d => s.setDie d fun x => { x with tlb := f x.tlb }

/-- Capacity of a TLB. -/
def TlbLoc.cap : TlbLoc → Nat
  | .data _ => 64 | .inst _ => 32 | .ahead _ => 512 | .ofDie _ => 8192

/-- Whether an entry maps an address. -/
def TlbEnt.maps (t : TlbEnt) (asid va : Nat) : Bool := t.asid == asid && t.base ≤ va && va < t.base + t.size

/-- The physical address an entry gives. -/
def TlbEnt.pa (t : TlbEnt) (va : Nat) : Nat := entFrame t.leaf.toNat + (va - t.base)

/-- Hold an entry in a TLB, newest first. -/
def State.holdTlb (s : State) (loc : TlbLoc) (t : TlbEnt) : State :=
  s.setTlb (fun ts => (t :: ts.filter fun u => !(u.asid == t.asid && u.base == t.base && u.size == t.size)).take loc.cap) loc

/-- Whether a non-leaf entry lies on the way of an address. -/
def WalkEnt.maps (e : WalkEnt) (asid va : Nat) : Bool := e.asid == asid && e.index == va / 2 ^ (9 * e.level + 12)

/-- A walk with a die's walk cache, and the non-leaf entries that it reads: from the deepest table that the cache names. What it
then does not find, or not with the permission, is looked for by a walk from the root (16 R459). -/
def State.walkVia (s : State) (die asid va : Nat) (need : Need) : Walk × List WalkEnt :=
  let hit := [1, 2, 3, 4].findSome? fun n => (s.die die).walks.find? fun e => e.level == n && e.maps asid va
  let full := (s.walk asid va, ((s.roots.find? fun r => r.1 == asid).map fun r => walkPath s asid va [4, 3, 2, 1] r.2).getD [])
  match hit with
  | none => full
  | some e =>
    let levels := (List.range e.level).reverse
    match walkFrom s asid va levels e.base with
    | .ok t => if need.met t.leaf.toNat then (.ok t, walkPath s asid va levels e.base) else full
    | .fault .. => full

/-- Hold the non-leaf entries of a walk in a die's walk cache, of 256 entries. -/
def State.holdWalks (s : State) (die : Nat) (ws : List WalkEnt) : State :=
  s.setDie die fun d =>
    { d with walks := (ws ++ d.walks.filter fun e => !ws.any fun w => w.asid == e.asid && w.level == e.level && w.index == e.index).take 256 }

/-- A translation and its permission check (16 R457, R459): from the TLB, from the die TLB, or by a walk; an entry that
lacks a permission is walked again before PERMISSION is reported. -/
def State.lookup (s : State) (loc : TlbLoc) (asid va : Nat) (need : Need) : State × Walk :=
  let hit (l : TlbLoc) := (s.tlbOf l).find? fun t => t.maps asid va && need.met t.leaf.toNat
  match (hit loc).orElse fun _ => hit (.ofDie loc.die) with
  | some t => (s.holdTlb loc t, .ok t)
  | none =>
    match s.walkVia loc.die asid va need with
    | (.ok t, ws) =>
      let s := ((s.holdWalks loc.die ws).holdTlb (.ofDie loc.die) t).holdTlb loc t
      if need.met t.leaf.toNat then (s, .ok t) else (s, .fault kPermission t.level t.leaf.toNat)
    | (.fault k l e, _) => (s, .fault k l e)

/-- What an access to one translated byte range may do at its home. -/
inductive Reach1
  | ok (key : Nat) (leaf : Nat)
  /-- The walk failed: kind, level, entry. -/
  | fault (kind level entry : Nat)
  /-- The access fails with a cause and ORIGIN: a wrong aperture (15 R443), a failed die (15 R439). -/
  | bad (cause : BitVec 6) (origin : Option Word)
  deriving DecidableEq, Repr

/-- Translate one address for an access and find its storage key (16, 15 R439, R443). The range must lie in one page. -/
def State.xlate (s : State) (loc : TlbLoc) (asid va : Nat) (need : Need) : State × Reach1 :=
  match s.lookup loc asid va need with
  | (s, .fault k l e) => (s, .fault k l e)
  | (s, .ok t) =>
    match placeOf (t.pa va) with
    | .reserved => (s, .fault kMalformed t.level t.leaf.toNat)
    | .host h =>
      match s.salvaged (hostMem + h) with
      | some d => (s, .bad 13 (some (dieOrigin .hme d 0)))
      | none => (s, .ok (hostMem + h) t.leaf.toNat)
    | .hbm o ap =>
      if s.bandOf o ≠ ap then (s, .bad 5 none)
      else
        match s.salvaged o with
        | some d => (s, .bad 13 (some (dieOrigin .hme d 0)))
        | none => (s, .ok o t.leaf.toNat)

/-- The cause that a final translation failure gives (16 R460). -/
def causeOfKind (k : Nat) : BitVec 6 := if k = kPermission then 5 else if k = kLasting then 2 else 4

/-! ### Fault records (16 R460-R464) -/

/-- Whether REPLAY holds for an address space: the launch's `%xlctl`, or the pod window's. -/
def State.replays (s : State) (asid : Nat) : Bool :=
  if asid = 4095 then s.podReplay else s.launches.any fun l => l.asid == asid && l.replay

/-- Whether V1FMT holds for an address space. -/
def State.v1fmts (s : State) (asid : Nat) : Bool :=
  if asid = 4095 then s.podV1fmt else s.launches.any fun l => l.asid == asid && l.v1fmt

/-- Words 0 to 2 of a native record (16 R461). -/
def faultWords (va asid core wslot tok kind access level entry : Nat) (e : Engine) (resolve : Bool) : List DWord :=
  [BitVec.ofNat 64 (va % 2 ^ 57),
   BitVec.ofNat 64 (asid * 2 ^ 52 + core % 256 * 2 ^ 44 + wslot % 64 * 2 ^ 38 + tok % 32 * 2 ^ 33 + kind * 2 ^ 30 +
     access * 2 ^ 28 + e.code * 2 ^ 24 + level * 2 ^ 20 + b2n resolve * 2 ^ 19),
   BitVec.ofNat 64 entry]

/-- How many records the ring of a die holds. -/
def Die.ringUse (d : Die) : Nat := (d.xlwp - d.xlrp).toNat

/-- Write a record into a die's ring (16 R461): words 0 to 2, SEQ, and 0 in the others. The host is signalled when the ring
becomes non-empty. -/
def State.ringWrite (s : State) (die : Nat) (words : List DWord) : State :=
  let d := s.die die
  let n := d.xlwp.toNat
  let bs := (words ++ [BitVec.ofNat 64 n, 0, 0, 0, 0]).flatMap fun w => leBytes 8 w.toNat
  let s1 := s.store (Config.faultRing die + 64 * (n % 4096)) bs
  let s2 := s1.setDie die fun d => { d with xlwp := d.xlwp + 1, written := d.written + 1 }
  if d.ringUse = 0 then s2.emit (.msix (1 + die)) else s2

/-- A record that awaits no answer: written, or dropped when the ring is full (16 R461). -/
def State.recordFinal (s : State) (die : Nat) (words : List DWord) : State :=
  if (s.die die).ringUse < 4096 then s.ringWrite die words
  else s.setDie die fun d => { d with dropped := d.dropped + 1 }

/-- Write the record of a waiting access, if the ring has room (16 R461). -/
def State.recordWait (s : State) (die : Nat) (f : FaultWait) : State :=
  let d := s.die die
  if f.seq = none ∧ d.ringUse < 4096 then
    let s1 := s.setDie die fun d => { d with faults := d.faults ++ [{ f with seq := some d.xlwp.toNat }] }
    s1.ringWrite die f.words
  else s.setDie die fun d => { d with faults := d.faults ++ [f] }

/-- The words of a V1FMT record (16 R464). -/
def V1Rec.words (r : V1Rec) : List DWord :=
  [BitVec.ofNat 64 (r.window * 2 ^ 17), BitVec.ofNat 64 (r.asid * 2 ^ 52 + r.access * 2 ^ 28 + 2 ^ 19 + 2 ^ 18),
   r.pages.setWidth 64]

/-- Whether a waiting fault is merged into an open V1FMT record: its own FMT bit, and the same ASID, ACCESS and window. -/
def V1Rec.holds (r : V1Rec) (f : FaultWait) : Bool :=
  f.seq.isNone && f.asid == r.asid &&
  (match f.words with
   | w0 :: w1 :: _ => bitsNat w0.toNat 56 17 == r.window && bitsNat w1.toNat 29 28 == r.access && bitNat w1.toNat 18
   | _ => false)

/-- The words of a fault that is merged into a V1FMT record: FMT 1. -/
def v1Words : List DWord → List DWord
  | w0 :: w1 :: ws => w0 :: (w1 ||| BitVec.ofNat 64 (2 ^ 18)) :: ws
  | ws => ws

/-- Write the oldest open V1FMT record of a die (16 R464). -/
def State.flushV1 (s : State) (die : Nat) : State :=
  match (s.die die).v1 with
  | [] => s
  | r :: rest =>
    if (s.die die).ringUse < 4096 then
      let n := (s.die die).xlwp.toNat
      let s1 := s.setDie die fun d =>
        { d with v1 := rest, faults := updWhere r.holds (fun f => { f with seq := some n }) d.faults }
      s1.ringWrite die r.words
    else s

/-- Add a fault to the open V1FMT records of a die; a ninth record writes the oldest first (16 R464). -/
def State.addV1 (s : State) (die asid access va : Nat) : State :=
  let win := bitsNat va 56 17
  let bit : Word := laneBit (bitsNat va 16 12)
  let same (r : V1Rec) : Bool := r.asid == asid && r.access == access && r.window == win
  if (s.die die).v1.any same then
    s.setDie die fun d => { d with v1 := updWhere same (fun r => { r with pages := r.pages ||| bit }) d.v1 }
  else
    let s := if 8 ≤ (s.die die).v1.length then s.flushV1 die else s
    s.setDie die fun d => { d with v1 := d.v1 ++ [⟨asid, access, win, bit⟩] }

/-- What became of a failed walk. -/
inductive FaultOut
  /-- The access waits for its answer. -/
  | waits
  /-- The access fails with a cause. -/
  | fails (cause : BitVec 6)
  deriving DecidableEq, Repr

/-- What a record says of the access that failed. -/
structure FaultInfo where
  die    : Nat
  asid   : Nat
  va     : Nat
  core   : Nat := 0xFF
  wslot  : Nat := 0
  tok    : Nat := 0
  access : Nat
  engine : Engine
  deriving DecidableEq, Repr

/-- A failed walk (16 R460): a resolvable one writes a record with RESOLVE = 1 and waits; another is recorded with
RESOLVE = 0 and fails at once. `owner` is none for an access that never waits. -/
def State.fault (s : State) (i : FaultInfo) (kind level entry : Nat) (owner : Option FaultOwner) : State × FaultOut :=
  let resolve := owner.isSome && (kind == kNotMapped || kind == kPermission) && s.replays i.asid
  let ws := faultWords i.va i.asid i.core i.wslot i.tok kind i.access level entry i.engine resolve
  match owner, resolve with
  | some o, true =>
    let logged := ((s.die i.die).faults.filter fun f => f.logged && f.core == i.core).length <
      (if i.core = 0xFF then 256 else 64)
    let f : FaultWait :=
      { seq := none, owner := o, kind := kind, asid := i.asid, words := ws, logged := logged, core := i.core }
    if s.v1fmts i.asid then
      let s := s.addV1 i.die i.asid i.access i.va
      (s.setDie i.die fun d => { d with faults := d.faults ++ [{ f with words := v1Words f.words }] }, .waits)
    else (s.recordWait i.die f, .waits)
  | _, _ => (s.recordFinal i.die ws, .fails (causeOfKind kind))

/-! ### Invalidation (16 R466, R467) -/

/-- Which entries a shootdown covers. -/
inductive Cover
  | va (asid lo n : Nat)
  | asid (asid : Nat)
  | all
  deriving DecidableEq, Repr

/-- Whether an entry is covered (16 R466). -/
def Cover.covers : Cover → TlbEnt → Bool
  | .va a lo n, t => t.asid == a && t.base < lo + n && lo < t.base + t.size
  | .asid a, t => t.asid == a
  | .all, _ => true

/-- Whether a non-leaf entry is covered. -/
def Cover.coversWalk : Cover → WalkEnt → Bool
  | .va a lo n, e =>
    let span := 2 ^ (9 * e.level + 12)
    e.asid == a && e.index * span < lo + n && lo < (e.index + 1) * span
  | .asid a, e => e.asid == a
  | .all, _ => true

/-- Drop the covered entries of a list. -/
def Cover.drop (c : Cover) (ts : List TlbEnt) : List TlbEnt := ts.filter fun t => !c.covers t

/-- The invalidation of a TLBSD: every TLB of both dies, and every fetch buffer (16 R466, 09 R267). -/
def State.shootdown (s : State) (c : Cover) : State :=
  { s with
    cores := s.cores.map fun x => { x with dtlb := c.drop x.dtlb, itlb := c.drop x.itlb, wtlb := c.drop x.wtlb }
    dies := s.dies.map fun d => { d with tlb := c.drop d.tlb, walks := d.walks.filter fun e => !c.coversWalk e }
    crews := s.crews.map fun k => { k with warps := k.warps.map fun w => { w with fbuf := [] } } }

/-- TLBINV: one core's TLBs only (16 R467). -/
def State.invalidateCore (s : State) (core : Nat) (c : Cover) : State :=
  s.setCore core fun x => { x with dtlb := c.drop x.dtlb, itlb := c.drop x.itlb, wtlb := c.drop x.wtlb }

end Sys2Proof.Machine
end

