-- ==== Sys2Proof/Machine/Fetch.lean ====
section
/-! DEFINITION. Fetch: the line word and its checks (02 R48-R53), entry of a line through the fetch buffer, the code state
at the home, and the re-read of R275 (09 R266-R276). -/

namespace Sys2Proof.Machine

/-! ### The line (02 R48-R51) -/

/-- Slot n of a line. -/
def slotOfLine (b : LineBits) (n : Nat) : Slot := b.extractLsb' (96 * n) 96
/-- The line word. -/
def lineWord (b : LineBits) : Nat := (b.extractLsb' 480 32).toNat
/-- LW.TGT of slot n. -/
def tgtBit (b : LineBits) (n : Nat) : Bool := bitNat (lineWord b) (27 + n)
/-- LW.LPAR holds. -/
def lparOk (b : LineBits) : Bool := onesNat 14 (lineWord b / 2 ^ 18) % 2 == 0
/-- LW.PAIR is 111 or LW.RES is nonzero. -/
def lineIllegal (b : LineBits) : Bool := bitsNat (lineWord b) 26 24 == 7 || bitsNat (lineWord b) 17 0 != 0
/-- LW.SPAR of slot n holds. -/
def sparOk (b : LineBits) (n : Nat) : Bool := (onesNat 96 (slotOfLine b n).toNat + bitsNat (lineWord b) (19 + n) (19 + n)) % 2 == 0
/-- Every check of R51 passes. -/
def lineSound (b : LineBits) : Bool := lparOk b && !lineIllegal b && (List.range 5).all fun n => sparOk b n

/-- The address of a slot's line. -/
def lineBase (pc : VAddr) : VAddr := BitVec.ofNat 57 (pc.toNat / 64 * 64)
/-- The slot that a PC names (02 R48). -/
def slotIndex (pc : VAddr) : Option Nat :=
  if pc.toNat % 64 % 12 = 0 ∧ pc.toNat % 64 ≤ 48 then some (pc.toNat % 64 / 12) else none
/-- The slot after a slot (02 R49). -/
def successor (pc : VAddr) : VAddr := if pc.toNat % 64 = 48 then pc + 16 else pc + 12

/-! ### Reading a line from its home (09 R269-R275) -/

/-- A fault of orders 1 to 4 of 02 R79: its trap cause, its INFO and the line. -/
structure FetchFault where
  cause : Nat
  info  : Nat
  line  : VAddr
  deriving DecidableEq, Repr

/-- Whether a core may fill a line of a frame (09 R272). -/
def CodeFrame.mayFill (f : CodeFrame) (line core : Nat) : Bool :=
  match f.lines[line]? with
  | some (none, _) => true
  | some (some p, _) => p.contains core
  | none => false

/-- Read a line from its home for a thread on a core (09 R269, R272, R274). -/
def State.readLine (s : State) (core asid : Nat) (line : VAddr) : State × Except FetchFault LineBits :=
  let bad (c i : Nat) : Except FetchFault LineBits := .error ⟨c, i, line⟩
  match s.xlate (.inst core) asid line.toNat { x := true } with
  | (s, .fault k l e) =>
    let s := (s.fault { die := dieOfCore core, asid, va := line.toNat, core, access := 2, engine := .fch } k l e none).1
    (if k = kLasting then s.logErr 2 5 (coreOrigin .fch core 0) (line.setWidth 64) 0 0 else s, bad 1 (if k = kPermission then 1 else if k = kLasting then 3 else 2))
  | (s, .bad c o) =>
    (if c = 13 then s.logErr 2 13 (o.getD (coreOrigin .fch core 0)) (line.setWidth 64) 0 0 else s, bad 1 (if c = 13 then 3 else 2))
  | (s, .ok key _) =>
    match s.codeAt key with
    | none => (s, bad 1 1)
    | some f =>
      if !f.mayFill (s.paOf key % 4096 / 64) core then (s, bad 2 0)
      else if s.isPoisoned key 64 then
        (s.logErr 2 4 (coreOrigin .fch core 0) (line.setWidth 64) 0 0, bad 1 3)
      else (s, .ok (BitVec.ofNat 512 (s.nat key 64)))

/-! ### Entry (09 R266-R268, R275) -/

/-- Put a copy into a warp's fetch buffer. -/
def State.buffer (s : State) (id w : Nat) (ln : Line) : State :=
  s.setWarp id w fun x => { x with fbuf := (ln :: x.fbuf.filter fun y => y.va != ln.va).take 4 }

/-- The ASID of a crew's launch. -/
def State.asidOf (s : State) (c : Crew) : Nat := ((s.launch? c.launch).map Launch.asid).getD 0

/-- The re-read of R275 after a failed parity check: the copy is dropped and the line is read from its home once. -/
def State.reread (s : State) (id w : Nat) (c : Crew) (line : VAddr) : State × Except FetchFault Line :=
  let s := s.setWarp id w fun x => { x with fbuf := x.fbuf.filter fun y => y.va != line }
  match s.readLine c.core (s.asidOf c) line with
  | (s, .error e) => (s, .error e)
  | (s, .ok b) =>
    let org := coreOrigin .fch c.core 0
    if lineSound b then
      let s := s.setCore c.core fun x => { x with fchevt := x.fchevt + 1 }
      ((s.logErr 1 4 org (line.setWidth 64) c.launch 0).buffer id w ⟨line, b⟩, .ok ⟨line, b⟩)
    else ((s.logErr 2 4 org (line.setWidth 64) c.launch 0).buffer id w ⟨line, b⟩, .ok ⟨line, b⟩)

/-- A warp enters the line of a PC: from its fetch buffer or from the home, with the line-word checks of 02 R51. -/
def State.enterLine (s : State) (id w : Nat) (pc : VAddr) : State × Except FetchFault Line :=
  let line := lineBase pc
  match s.crew? id with
  | none => (s, .error ⟨1, 2, line⟩)
  | some c =>
    let hit := (c.warps[w]?).bind fun x => x.fbuf.find? fun y => y.va == line
    let first : State × Except FetchFault Line :=
      match hit with
      | some ln => (s, .ok ln)
      | none =>
        match s.readLine c.core (s.asidOf c) line with
        | (s, .error e) => (s, .error e)
        | (s, .ok b) =>
          if ((c.warps[w]?).map Warp.lostLine).getD false then
            let s := s.setWarp id w fun x => { x with lostLine := false }
            (s.logErr 2 4 (coreOrigin .fch c.core 0) (line.setWidth 64) c.launch 0, .error ⟨1, 3, line⟩)
          else (s.buffer id w ⟨line, b⟩, .ok ⟨line, b⟩)
    let checked : State × Except FetchFault Line :=
      match first with
      | (s, .ok ln) =>
        if lparOk ln.bits then (s, .ok ln)
        else
          match s.reread id w c line with
          | (s, .ok l2) => if lineSound l2.bits then (s, .ok l2) else (s, .error ⟨3, 7, line⟩)
          | r => r
      | r => r
    match checked with
    | (s, .ok ln) => if lineIllegal ln.bits then (s, .error ⟨4, 0, line⟩) else (s, .ok ln)
    | r => r

/-- The slot parity check at issue (02 R51, 09 R275): the copy to issue from, or none when the line read again still
fails. -/
def State.checkSlot (s : State) (id w : Nat) (ln : Line) (n : Nat) : State × Except FetchFault Line :=
  if sparOk ln.bits n then (s, .ok ln)
  else
    match s.crew? id with
    | none => (s, .ok ln)
    | some c =>
      match s.reread id w c ln.va with
      | (s, .ok l2) => if lineSound l2.bits then (s, .ok l2) else (s, .error ⟨3, n, ln.va⟩)
      | r => r

/-- Empty the fetch buffer of a warp; the copies that some lanes have fetched and not issued from go too (03 R123;
09 R267). -/
def State.flushFetch (s : State) (id w : Nat) (lanes : Mask) : State :=
  s.setWarp id w fun x =>
    { x with
      fbuf := []
      threads := x.threads.mapIdx fun l t => if lanes.getLsbD l && t.fresh then { t with line := none, fresh := false } else t }

end Sys2Proof.Machine
end

