-- ==== Sys2Proof/Machine/Trap.lean ====
section
/-! DEFINITION. Taking a trap and what it does to a wait (17 R474-R480): the one operation by which a thread enters its
handler, the halt, the held lanes, the release of join points and barriers, and the observation of poison (04 R151). -/

namespace Sys2Proof.Machine

/-! ### Fields of `%tmode` (17 R482) -/

/-- HANDLER: the thread is in handler mode. -/
def Thread.inHandler (t : Thread) : Bool := t.tmode.getLsbD 0
/-- JFV and JFK: the join point that the trap took the thread out of. -/
def Thread.jfk (t : Thread) : Option Nat := if t.tmode.getLsbD 5 then some (bitsNat t.tmode.toNat 4 2) else none
/-- BWV, BWB and BWPH: the barrier and the phase that the trap took the thread out of. -/
def Thread.bw (t : Thread) : Option (Nat × Bool) :=
  if t.tmode.getLsbD 12 then some (bitsNat t.tmode.toNat 10 6, t.tmode.getLsbD 11) else none
/-- The value of `%tmode` in a handler. -/
def tmodeWord (join : Option Nat) (bar : Option (Nat × Bool)) : BitVec 13 :=
  let j := match join with | some k => 2 ^ 5 + k % 8 * 4 | none => 0
  let b := match bar with | some (n, ph) => 2 ^ 12 + b2n ph * 2 ^ 11 + n % 32 * 2 ^ 6 | none => 0
  BitVec.ofNat 13 (1 + j + b)

/-- CAUSE of `%tcause`. -/
def Thread.cause (t : Thread) : Nat := bitsNat t.tcause.toNat 7 0

/-! ### Which threads wait (04 R126) -/

/-- Whether a thread has ended, is stopped or is absent. -/
def Thread.gone (t : Thread) : Bool :=
  match t.run with
  | .ended | .absent | .stopped => true
  | _ => false

/-- Whether a thread can issue. -/
def Thread.ready (t : Thread) : Bool := t.run == .running

/-! ### Join points (04 R132) -/

/-- check(k): release the waiting threads when every member waits. -/
def Warp.checkJoin (w : Warp) (k : Nat) : Warp :=
  match w.joins[k]? with
  | none => w
  | some j =>
    if j.member ≠ 0 ∧ j.waiting = j.member then
      { w with
        joins := updAt k (fun _ => {}) w.joins
        threads := w.threads.mapIdx fun l t =>
          if j.waiting.getLsbD l && t.run == .join k then
            { t with run := .running, pc := successor t.pc
                     line := if lineBase (successor t.pc) = lineBase t.pc then t.line else none }
          else t }
    else w

/-- Take lanes out of every join point and check each (04 R131). -/
def Warp.leaveJoins (w : Warp) (lanes : Mask) : Warp :=
  (List.range 8).foldl (fun w k =>
    let cleared := { w with joins := updAt k (fun j => { member := j.member &&& ~~~lanes, waiting := j.waiting &&& ~~~lanes }) w.joins }
    cleared.checkJoin k) w

/-! ### Named barriers (04 R134) -/

/-- One completion of a phase, when ARRIVED has reached EXPECT. -/
def Bar.complete (b : Bar) : Bar :=
  { b with arrived := b.arrived - b.expect, lastPoison := b.poison, poison := false, phase := !b.phase }

/-! ### The held lanes (17 R478) -/

/-- Whether a lane in its handler, or halted at a fault, belongs to the instruction at a PC: the one that its handler was
entered for, or the one at which it halted (17 R476, R478). -/
def Thread.belongs (t : Thread) (pc : VAddr) : Bool :=
  (t.inHandler && t.tpc0 == pc) || (t.pc == pc && (!t.inHandler || t.run == .halted))

/-- Release the held lanes whose instruction no lane of WAITFOR still belongs to. They enter its line again with the lanes
that returned to it, so that all of them issue together. -/
def Warp.releaseHeld (w : Warp) : Warp :=
  let busy (pc : VAddr) : Bool := (lanesOf w.waitFor).any fun l => (w.thread l).belongs pc
  let freed := (lanesOf w.heldL).filter fun l => !busy (w.thread l).pc
  { w with
    heldL := w.heldL &&& ~~~maskOf freed
    threads := w.threads.mapIdx fun l t =>
      if freed.contains l && t.run == .held then { t with run := .running, line := none, fresh := false } else t }

/-- A lane leaves its handler by RTT or EXIT: WAITFOR loses it, and the held lanes may be released. -/
def Warp.leaveHandler (w : Warp) (l : Nat) : Warp :=
  { w with waitFor := w.waitFor &&& ~~~laneBit l }.releaseHeld

/-! ### Trap entry (17 R474, R476) -/

/-- What a thread that takes a trap records (17 R473): CAUSE, the saved PC, INFO, CODE and the detail. -/
structure Trap where
  cause  : Nat
  pc     : VAddr
  info   : Nat := 0
  code   : Nat := 0
  detail : DWord := 0
  deriving DecidableEq, Repr

/-- `%tcause` of a trap. -/
def Trap.word (t : Trap) : DWord := BitVec.ofNat 64 (t.code % 2 ^ 16 * 2 ^ 48 + t.info % 32 * 2 ^ 32 + t.cause)

/-- Whether a cause is asynchronous (17 R474). -/
def asyncCause (c : Nat) : Bool := c == 0x16 || c == 0x17 || c == 0x18

/-- halt(l, c) (17 R476): CAUSE reads 0x19 and INFO holds the cause; the error log records the thread. -/
def State.halt (s : State) (id w l cause : Nat) : State :=
  match s.crew? id with
  | none => s
  | some c =>
    let pc := ((s.thread? id w l).map Thread.pc).getD 0
    let s := s.setThread id w l fun t =>
      { t with run := .halted, tcause := BitVec.ofNat 64 (bitsNat t.tcause.toNat 63 48 * 2 ^ 48 + cause % 32 * 2 ^ 32 + 0x19) }
    let s := s.setLaunch c.launch fun x => { x with haltedN := x.haltedN + 1 }
    s.logErr 3 8 (coreOrigin .seq c.core 0) (pc.setWidth 64) c.launch (BitVec.ofNat 64 cause)

/-- The handler of a crew's launch; 0 is none. -/
def State.handlerOf (s : State) (c : Crew) : VAddr := ((s.launch? c.launch).map Launch.handler).getD 0

/-- A thread takes a trap (17 R474). `join` and `bar` are the wait fields of R480. -/
def State.trapWith (s : State) (id w l : Nat) (t : Trap) (join : Option Nat) (bar : Option (Nat × Bool)) : State :=
  match s.crew? id, s.thread? id w l with
  | some c, some th =>
    let h := s.handlerOf c
    if h = 0 ∨ (th.inHandler ∧ !asyncCause t.cause) then s.halt id w l t.cause
    else
      let s := s.setThread id w l fun x =>
        { x with
          run := .running, pc := h, line := none, owed := false
          tpc := t.pc, tpc0 := t.pc, tcause := t.word, taddr := t.detail, tmode := tmodeWord join bar }
      match s.enterLine id w h with
      | (s, .error e) => s.halt id w l e.cause
      | (s, .ok ln) =>
        match slotIndex h with
        | some n =>
          if tgtBit ln.bits n then s.setThread id w l fun x => { x with line := some ln, fresh := true } else s.halt id w l 5
        | none => s.halt id w l 5
  | _, _ => s

/-- A thread that is not waiting takes a trap. -/
def State.trap (s : State) (id w l : Nat) (t : Trap) : State := s.trapWith id w l t none none

/-- Several lanes take their traps, in ascending order. -/
def State.traps (s : State) (id w : Nat) (ts : List (Nat × Trap)) : State :=
  ts.foldl (fun s p => s.trap id w p.1 p.2) s

/-! ### Asynchronous causes (17 R475, R480) -/

/-- The entry that a thread still owes: it enters its line and its slot's LW.TGT bit is checked, before any asynchronous cause
is taken at that boundary (02 R53; 17 R475). -/
def State.settleOwed (s : State) (id w l : Nat) : State :=
  match s.thread? id w l with
  | none => s
  | some th =>
    if !th.owed || th.run != .running then s
    else
      match slotIndex th.pc with
      | none => s.trap id w l { cause := 5, pc := th.pc, info := 16, detail := th.pc.setWidth 64 }
      | some n =>
        let entered : State × Except FetchFault Line :=
          match th.line with
          | some ln => (s, .ok ln)
          | none => s.enterLine id w th.pc
        match entered with
        | (s, .error e) => s.trap id w l { cause := e.cause, pc := th.pc, info := e.info % 16 + 16, detail := e.line.setWidth 64 }
        | (s, .ok ln) =>
          if tgtBit ln.bits n then s.setThread id w l fun t => { t with line := some ln, fresh := true, owed := false }
          else s.trap id w l { cause := 5, pc := th.pc, info := 16, detail := th.pc.setWidth 64 }

/-- A thread leaves the wait of an operation: it takes no data, and an operation that nobody waits for any more completes
(07 R239). -/
def State.withdraw (s : State) (op l : Nat) : State :=
  let s := s.setOp op fun o =>
    { o with lanes := o.lanes &&& ~~~laneBit l, acc := o.acc.filter fun a => a.lane != l }
  match s.op? op with
  | some o => if o.lanes = 0 ∨ (!o.acc.isEmpty ∧ o.acc.all LaneAcc.done) then s.dropOp op else s
  | none => s

/-- An asynchronous cause reaches a thread (17 R475, R480; 01 R38): in handler mode a Pre-empt Request is held and the
others lapse; a waiting thread leaves its wait. -/
def State.asyncTrap (s : State) (id w l cause : Nat) : State :=
  let s := s.settleOwed id w l
  match s.thread? id w l with
  | none => s
  | some th =>
    let t : Trap := { cause := cause, pc := th.pc }
    if th.gone || th.run == .halted then s
    else if th.inHandler then
      if cause = 0x18 then s.setThread id w l fun x => { x with heldPreempt := true } else s
    else
      match th.run with
      | .running => s.trap id w l t
      | .join k =>
        let s := s.setWarp id w fun x => { x with joins := updAt k (fun j => { j with waiting := j.waiting &&& ~~~laneBit l }) x.joins }
        s.trapWith id w l t (some k) none
      | .barrier b ph => s.trapWith id w l t none (some (b, ph))
      | .sleep _ _ => s.trap id w l t
      | .pbwait op | .latch op => (s.withdraw op l).trap id w l t
      | .held =>
        let s := s.setWarp id w fun x =>
          let h := x.heldL &&& ~~~laneBit l
          { x with heldL := h, waitFor := if h = 0 then 0 else x.waitFor }
        s.trap id w l t
      | .stackFault =>
        s.setThread id w l fun x =>
          if cause = 0x18 then { x with heldPreempt := true } else { x with heldWatchdog := x.heldWatchdog || cause == 0x16 }
      | _ => s

/-- The held causes that a thread outside its handler takes at a boundary: Watchdog before Pre-empt Request (17 R475). -/
def State.takeHeld (s : State) (id w l : Nat) : State :=
  let s := s.settleOwed id w l
  match s.thread? id w l with
  | none => s
  | some th =>
    if th.inHandler then s
    else if th.heldWatchdog then
      (s.setThread id w l fun x => { x with heldWatchdog := false }).asyncTrap id w l 0x16
    else if th.heldPreempt then
      (s.setThread id w l fun x => { x with heldPreempt := false }).asyncTrap id w l 0x18
    else s

/-! ### Observing poison (04 R151) -/

/-- `%tstat` after an observation. -/
def tstatWord (first : Nat) (cause : BitVec 6) (origin : Word) : DWord :=
  BitVec.ofNat 64 (origin.toNat * 2 ^ 32 + cause.toNat * 2 ^ 8 + first % 32 * 2 ^ 3 + 1)

/-- A warp observes poison: the first observation is recorded. -/
def Warp.observe (w : Warp) (first : Nat) (cause : BitVec 6) (origin : Word) : Warp :=
  if w.tstat.getLsbD 0 then w else { w with tstat := tstatWord first cause origin }

/-- Threads observe poison; with PTRAP each then takes Token Poison at its PC, the successor of the observing instruction.
In handler mode the trap lapses. -/
def State.observe (s : State) (id w : Nat) (lanes : List Nat) (first : Nat) (cause : BitVec 6) (origin : Word) : State :=
  let s := s.setWarp id w fun x => x.observe first cause origin
  if ((s.warp? id w).map Warp.ptrap).getD false then lanes.foldl (fun s l => s.asyncTrap id w l 0x17) s else s

/-- Lanes return from a BARW (04 R137): an acquire for every class, behind the accesses that the arrivals have released. -/
def State.barReturn (s : State) (id w : Nat) (lanes : Mask) (b : Bar) : State :=
  let after := b.before.filter fun x => s.openOf x != 0
  let t := s.setWarp id w fun x =>
    { x with
      acqs := (x.acqs.filter fun r => r.after.any fun y => s.openOf y != 0) ++
        (if after.isEmpty then [] else [⟨s.nextId, lanes, after⟩]) }
  t.flushFetch id w lanes

/-- Release the threads that wait for a completed phase of a barrier; with LASTPOISON each observes poison of cause 14
from the HME of the die (04 R134, R137, R151). -/
def State.releaseBarrier (s : State) (id b : Nat) (bar : Bar) (phase lastPoison : Bool) : State :=
  match s.crew? id with
  | none => s
  | some c =>
    (List.range c.warps.length).foldl (fun s w =>
      let ls := (List.range 32).filter fun l => ((s.thread? id w l).map Thread.run) == some (.barrier b phase)
      let s := ls.foldl (fun s l => s.setThread id w l fun t => { t with run := .running }) s
      let s := if ls.isEmpty then s else s.barReturn id w (maskOf ls) bar
      if lastPoison && !ls.isEmpty then s.observe id w ls 0 14 (dieOrigin .hme (dieOfCore c.core) 0) else s) s

/-- An arrival of n units at a barrier of a crew, with the release of R134 after each completed phase. -/
def State.arriveBar : Nat → State → Nat → Nat → State
  | 0, s, _, _ => s
  | fuel + 1, s, id, b =>
    match (s.crew? id).bind fun c => c.bars[b]? with
    | none => s
    | some bar =>
      if bar.expect ≠ 0 ∧ bar.expect ≤ bar.arrived then
        let done := bar.complete
        let s := s.setCrew id fun c => { c with bars := updAt b (fun _ => done) c.bars }
        State.arriveBar fuel (s.releaseBarrier id b done bar.phase done.lastPoison) id b
      else s

/-- arrive(b, n, poisoned) (04 R134). -/
def State.arrive (s : State) (id b n : Nat) (poisoned : Bool) : State :=
  let s := s.setCrew id fun c =>
    { c with bars := updAt b (fun x => { x with poison := x.poison || poisoned, arrived := x.arrived + n }) c.bars }
  let left := (((s.crew? id).bind fun c => c.bars[b]?).map Bar.arrived).getD 0
  State.arriveBar (left + 1) s id b

end Sys2Proof.Machine
end

