-- ==== Sys2Proof/Machine/Issue.lean ====
section
/-! DEFINITION. One issue of a group (02 R56-R65, R77-R79; 04 R127): what it reads, the checks of orders 7 to 10 that
every form makes, how its lanes advance, trap or are held, and how results are written. -/

namespace Sys2Proof.Machine

/-! ### The issue -/

/-- An issue in progress: the state before it, the instruction and its form, the warp and the group. -/
structure Issue where
  s    : State
  i    : Instr
  form : Form
  cid  : Nat
  wi   : Nat
  crew : Crew
  warp : Warp
  /-- The issue group (04 R126). -/
  mask : Mask
  /-- The issuing threads: those whose guard is 1 (02 R57). -/
  act  : Mask
  pc   : VAddr

/-- The module core of the issue. -/
def Issue.core (I : Issue) : Nat := I.crew.core
/-- The die of the issue. -/
def Issue.die (I : Issue) : Nat := dieOfCore I.crew.core
/-- A thread of the warp, as it stood before the instruction. -/
def Issue.thread (I : Issue) (l : Nat) : Thread := I.warp.thread l
/-- The lanes of the group. -/
def Issue.group (I : Issue) : List Nat := lanesOf I.mask
/-- The issuing threads, ascending. -/
def Issue.lanes (I : Issue) : List Nat := lanesOf I.act
/-- The lowest-numbered issuing thread. -/
def Issue.low (I : Issue) : Nat := (lowestLane I.act).getD 0
/-- The ASID of the launch. -/
def Issue.asid (I : Issue) : Nat := I.s.asidOf I.crew

/-! ### Guards (02 R56) -/

/-- A predicate of a thread; p0 reads as 1 (02 R62). -/
def Thread.pred (t : Thread) (p : BitVec 3) : Bool := p == 0 || t.preds.getLsbD p.toNat
/-- g(field). -/
def Thread.guardOn (t : Thread) (g : Guard) : Bool := Bool.xor (t.pred g.pred) g.neg

/-- GA and GB of a form. -/
def guardsOf : Body → Guard × Guard
  | .regs f => (f.ga, f.gb)
  | .imm36 f => (f.ga, f.gb)
  | .jump f => (f.ga, f.gb)

/-- The threads of a group whose guard is 1. -/
def guardMask (w : Warp) (mask : Mask) (b : Body) : Mask :=
  maskOf ((lanesOf mask).filter fun l => (w.thread l).guardOn (guardsOf b).1 && (w.thread l).guardOn (guardsOf b).2)

/-! ### Reading operands (02 R58-R66) -/

/-- A vector register; one that nothing wrote holds 0 (DESIGN CHOICE, log 4). -/
def Thread.reg (t : Thread) (r : Nat) : Nat := (t.v.getD r 0).toNat

/-- The number that n registers from r hold, the lowest register least significant (02 R60). -/
def Thread.regs (t : Thread) (r : Nat) : Nat → Nat
  | 0 => 0
  | n + 1 => t.reg r + 2 ^ 32 * t.regs (r + 1) n

/-- The register that a vector operand resolves to in a thread (02 R59). -/
def Thread.vecIndex (t : Thread) : Opd → Option Nat
  | .vec r => some r.toNat
  | .vecInd ix off => some ((t.ix.getD ix.toNat 0).toNat + off.toNat)
  | _ => none

/-- A uniform register. -/
def Warp.uni (w : Warp) (r : Nat) : Nat := (w.u.getD r 0).toNat

/-- The value of an operand of a width in one lane (02 R59-R62, R66). -/
def Issue.read (I : Issue) (l : Nat) (o : Opd) (bits : Nat) : Nat :=
  match o with
  | .vec _ | .vecInd _ _ =>
    (((I.thread l).vecIndex o).map fun r => (I.thread l).regs r ((bits + 31) / 32)).getD 0 % 2 ^ bits
  | .uni r => I.warp.uni r.toNat % 2 ^ bits
  | .imm v => wrapNat bits v.toInt
  | .pred p => b2n ((I.thread l).pred p)
  | _ => 0

/-- The same, read as a signed number. -/
def Issue.readInt (I : Issue) (l : Nat) (o : Opd) (bits : Nat) : Int := sext bits (I.read l o bits)

/-- The value of an offset: an immediate, or a register read as a signed 32-bit value (07 R226). -/
def Issue.offset (I : Issue) (l : Nat) (o : Opd) : Int :=
  match o with
  | .imm v => v.toInt
  | _ => I.readInt l o 32

/-- The tokens of a keyring, ascending; bit 0 and bits [63:32] are ignored (02 R63). -/
def Warp.ring (w : Warp) : Opd → List Nat
  | .tok t => if t = 0 then [] else [t.toNat]
  | .ring r => (List.range 32).filter fun t => t != 0 && bitNat (w.uni r.toNat) t
  | _ => []

/-- A token record; t0 always reads DONE with CAUSE 0 (04 R144). -/
def Warp.token (w : Warp) (t : Nat) : TokRec := if t = 0 then { st := .done } else w.toks.getD t {}

/-! ### Range checks of orders 9 and 10 -/

/-- The fields of a form, each with what it admits. -/
def formFields (F : Form) : List (Opd × List Cls) :=
  match F.body with
  | .regs f => [(f.d, F.d), (f.a, F.a), (f.b, F.b), (f.c, F.c), (f.e, F.e)]
  | .imm36 f => [(f.d, F.d)]
  | .jump _ => []

/-- How many registers a vector operand takes. -/
def vecSpan : List Cls → Nat
  | [] => 1
  | .vec n :: _ => n
  | _ :: cs => vecSpan cs

/-- The crew's grant of a tile kind (01 R31, R32). -/
def Crew.grant (c : Crew) : TileKind → Nat
  | .a => c.accs
  | .q => c.slots
  | .h => c.shapesN
  | .b => c.barsN

/-- Whether an operand lies beyond the crew's grant (02 R64; 04 R164). -/
def Crew.tileOut (c : Crew) : Opd → Bool
  | .tile k n => c.grant k ≤ n.toNat
  | .sreg n => 0x40 ≤ n.toNat && n.toNat < 0x60 && c.barsN ≤ n.toNat - 0x40
  | _ => false

/-- The first register past a table that TLU's encoding fixes (08 R264). -/
def tableEnd : Instr → Option Nat
  | .tlu f n => match f.a with | .vec r => some (r.toNat + n.toNat) | _ => none
  | _ => none

/-- A direct register at or above the crew's registers (02 R59). -/
def directOut (c : Crew) (i : Instr) (F : Form) : Option Nat :=
  match tableEnd i with
  | some r => if c.regs ≤ r then some r else next
  | none => next
where
  /-- The first direct operand that is out of range. -/
  next : Option Nat :=
    (formFields F).findSome? fun p =>
      match p.1 with
      | .vec r => if vecSpan p.2 ≠ 0 ∧ p.2.any (fun c => match c with | .vec _ | .vecDirect => true | _ => false) ∧
          c.regs < r.toNat + vecSpan p.2 then some r.toNat else none
      | _ => none

/-- A lane's indirect operand, of those listed, that is out of range or misaligned (02 R59, R60). -/
def Issue.indirectIn (I : Issue) (l : Nat) (fs : List (Opd × List Cls)) : Option Trap :=
  fs.findSome? fun p =>
    match p.1 with
    | .vecInd _ _ =>
      let r := ((I.thread l).vecIndex p.1).getD 0
      let n := vecSpan p.2
      if I.crew.regs < r + n ∨ r % n ≠ 0 then
        some { cause := 0x09, pc := I.pc, detail := BitVec.ofNat 64 r }
      else none
    | _ => none

/-- A lane's indirect operand that is out of range or misaligned. -/
def Issue.indirectOut (I : Issue) (l : Nat) : Option Trap := I.indirectIn l (formFields I.form)

/-- The fields A and B of a form, from which an address is formed, each with what it admits. -/
def addrFields (F : Form) : List (Opd × List Cls) :=
  match F.body with
  | .regs f => [(f.a, F.a), (f.b, F.b)]
  | _ => []

/-- Illegal Token of a form's destination token: it is PENDING, or its keyring names it too (04 R147). -/
def Issue.tokenClash (I : Issue) : Option Nat :=
  match I.form.body with
  | .regs f =>
    match f.c with
    | .tok t =>
      if I.form.c.contains .tok || I.form.c.contains .tokNot0 then
        if t ≠ 0 ∧ ((I.warp.token t.toNat).st = .pending ∨ (I.warp.ring f.e).contains t.toNat) then some t.toNat
        else none
      else none
    | _ => none
  | _ => none

/-- Whether a thread may run the privileged forms (17 R471): CTXSAVE is also open to a handler entered for a Pre-empt
Request. -/
def privilegedOk (s : State) (c : Crew) (w : Warp) (mask : Mask) (op : Nat) : Bool :=
  ((s.launch? c.launch).map Launch.priv).getD false ||
  (op == 0xD4 && (lanesOf mask).all fun l => (w.thread l).inHandler && (w.thread l).cause == 0x18)

/-! ### Advancing, trapping and holding lanes -/

/-- A thread goes on at another slot of its program order: within the line it keeps its copy (02 R49; 09 R266). -/
def Thread.goto (t : Thread) (pc : VAddr) : Thread :=
  { t with pc := pc, line := if lineBase pc = lineBase t.pc then t.line else none, owed := false }

/-- Lanes go on at the successor. -/
def State.advance (s : State) (id w : Nat) (lanes : Mask) : State :=
  s.setWarp id w fun x =>
    { x with threads := x.threads.mapIdx fun l t => if lanes.getLsbD l then t.goto (successor t.pc) else t }

/-- Every thread of the issue takes a trap at its slot. -/
def Issue.trapAll (I : Issue) (lanes : Mask) (cause : Nat) (info : Nat := 0) (detail : DWord := 0) : State :=
  I.s.traps I.cid I.wi ((lanesOf lanes).map fun l => (l, { cause := cause, pc := I.pc, info := info, detail := detail }))

/-- A trap of one lane at the issuing slot. -/
def Issue.trapHere (I : Issue) (cause : Nat) (detail : Nat := 0) (info : Nat := 0) : Trap :=
  { cause := cause, pc := I.pc, info := info, detail := BitVec.ofNat 64 detail }

/-- The failing lanes trap and every other lane of the issue is held for them (07 R230; 08 R257; 17 R478). -/
def Issue.holdFor (I : Issue) (ts : List (Nat × Trap)) : State :=
  let failed := maskOf (ts.map Prod.fst)
  let rest := I.mask &&& ~~~failed
  let s := I.s.setWarp I.cid I.wi fun x =>
    { x with
      heldL := x.heldL ||| rest
      waitFor := if rest = 0 then x.waitFor else x.waitFor ||| failed
      threads := x.threads.mapIdx fun l t => if rest.getLsbD l then { t with run := .held } else t }
  s.traps I.cid I.wi ts

/-- The lowest issuing thread, whose indirect operands a per-warp form reads (04 R125), takes the trap of one that is out of
range, and the others are held (02 R59; 17 R478). -/
def Issue.lowTrap (I : Issue) (body : State) : State :=
  match I.indirectOut I.low with
  | some t => I.holdFor [(I.low, t)]
  | none => body

/-- Every lane of the group goes on, with nothing else changed. -/
def Issue.done (I : Issue) : State := I.s.advance I.cid I.wi I.mask

/-! ### Writing results (02 R60-R62) -/

/-- Write n registers from r. -/
def putRegs (v : List Word) (r : Nat) (x : Nat) : Nat → List Word
  | 0 => v
  | n + 1 => putRegs (v.set r (BitVec.ofNat 32 x)) (r + 1) (x / 2 ^ 32) n

/-- A result of one lane. -/
inductive Put
  /-- A register operand, of a width in bits. -/
  | reg (o : Opd) (bits : Nat) (x : Nat)
  | pred (o : Opd) (b : Bool)
  /-- Flags that the operation raises (06 R203). -/
  | flags (b : BitVec 5)
  deriving DecidableEq, Repr

/-- Write a register operand in a lane: a uniform keeps the result zero-extended (02 R61). -/
def Warp.putReg (w : Warp) (l : Nat) (o : Opd) (bits x : Nat) : Warp :=
  match o with
  | .uni r => { w with u := w.u.set r.toNat (BitVec.ofNat 64 (x % 2 ^ bits)) }
  | .vec _ | .vecInd _ _ =>
    w.setThread l fun t =>
      match t.vecIndex o with
      | some r => { t with v := putRegs t.v r x (bits / 32) }
      | none => t
  | _ => w

/-- Write a predicate; a write to p0 is discarded (02 R62). -/
def Thread.putPred (t : Thread) (p : BitVec 3) (b : Bool) : Thread :=
  if p = 0 then t
  else
    let bit : BitVec 8 := 1 <<< p.toNat
    { t with preds := if b then t.preds ||| bit else t.preds &&& ~~~bit }

/-- Apply one result: a uniform destination takes the lowest lane's only. -/
def Warp.put (w : Warp) (low l : Nat) : Put → Warp
  | .reg (.uni r) bits x => if l = low then w.putReg l (.uni r) bits x else w
  | .reg o bits x => w.putReg l o bits x
  | .pred (.pred p) b => w.setThread l fun t => t.putPred p b
  | .pred _ _ => w
  | .flags b => w.setThread l fun t => { t with fflags := t.fflags ||| b }

/-- The results of the lanes, in ascending order. -/
def Warp.puts (w : Warp) (low : Nat) (rs : List (Nat × List Put)) : Warp :=
  rs.foldl (fun w p => p.2.foldl (fun w q => w.put low p.1 q) w) w

/-! ### Per-lane forms -/

/-- What one lane of a per-lane form gives: its results, or the trap it takes. -/
inductive LaneOut
  | ok (ps : List Put)
  /-- The trap, and what the lane keeps all the same: the flags it raised (06 R203). -/
  | trap (t : Trap) (kept : List Put := [])
  deriving DecidableEq, Repr

/-- The trap of a lane. -/
def LaneOut.trap? : LaneOut → Option Trap
  | .trap t _ => some t
  | .ok _ => none

/-- The results of a lane. -/
def LaneOut.puts : LaneOut → List Put
  | .trap _ kept => kept
  | .ok ps => ps

/-- What each issuing lane gives: Register Range of an indirect operand comes first (02 R79). -/
def Issue.outcomes (I : Issue) (f : Nat → LaneOut) : List (Nat × LaneOut) :=
  I.lanes.map fun l => (l, match I.indirectOut l with | some t => .trap t | none => f l)

/-- A per-lane form whose failing lanes trap while the others complete (05 R170, 06 R203). -/
def Issue.perLane (I : Issue) (f : Nat → LaneOut) : State :=
  let outs := I.outcomes f
  let ts := outs.filterMap fun p => p.2.trap?.map fun t => (p.1, t)
  let s := I.s.setWarp I.cid I.wi fun w => w.puts I.low (outs.map fun p => (p.1, p.2.puts))
  (s.advance I.cid I.wi (I.mask &&& ~~~maskOf (ts.map Prod.fst))).traps I.cid I.wi ts

/-- A per-lane form that writes nothing and holds the other lanes when any lane fails (08 R257). -/
def Issue.allLanes (I : Issue) (f : Nat → LaneOut) : State :=
  let outs := I.outcomes f
  let ts := outs.filterMap fun p => p.2.trap?.map fun t => (p.1, t)
  if ts.isEmpty then
    let s := I.s.setWarp I.cid I.wi fun w => w.puts I.low (outs.map fun p => (p.1, p.2.puts))
    s.advance I.cid I.wi I.mask
  else I.holdFor ts

/-! ### The common checks -/

/-- The checks of orders 7 to 9 (02 R79), which do not look at guards: the trap that the whole group takes. -/
def orderChecks (s : State) (c : Crew) (w : Warp) (mask : Mask) (pc : VAddr) (i : Instr) (F : Form) : Option Trap :=
  let addr : DWord := pc.setWidth 64
  if F.check.isSome then some { cause := 0x06, pc := pc, detail := addr }
  else if 0xD0 ≤ F.op.toNat ∧ F.op.toNat ≤ 0xD5 ∧ !privilegedOk s c w mask F.op.toNat then
    some { cause := 0x07, pc := pc, detail := addr }
  else if (formFields F).any fun p => c.tileOut p.1 then some { cause := 0x08, pc := pc }
  else
    match directOut c i F with
    | some r => some { cause := 0x09, pc := pc, detail := BitVec.ofNat 64 r }
    | none => none

/-- Run an instruction on the issue that `State.cur` names: the checks that every form makes (02 R79), then the form's own
meaning on its issuing threads; a form whose guard is 0 everywhere does nothing (02 R56, R57). -/
def withIssue (i : Instr) (s : State) (body : Issue → State) : Host.Outcome State Fault Refusal :=
  match s.cur, i.form with
  | some cur, some F =>
    match s.crew? cur.crew, s.warp? cur.crew cur.warp with
    | some c, some w =>
      let act := guardMask w cur.mask F.body
      let I : Issue := { s, i, form := F, cid := cur.crew, wi := cur.warp, crew := c, warp := w, mask := cur.mask, act, pc := cur.pc }
      match orderChecks s c w cur.mask cur.pc i F with
      | some t => .next (s.traps cur.crew cur.warp (I.group.map fun l => (l, t)))
      | none =>
        if act = 0 then .next I.done
        else
          match I.tokenClash with
          | some t => .next (I.trapAll I.mask 0x11 t)
          | none => .next (body I)
    | _, _ => .fault .noIssuer
  | _, _ => .fault .noIssuer

end Sys2Proof.Machine
end

