-- ==== Sys2Proof/Machine/Token.lean ====
section
/-! DEFINITION. Tokens and operations: keyrings and how they bind, acceptance, settlement (04 R147-R150), queue entries
(01 R515), and which earlier accesses a release covers (03 R107-R113). -/

namespace Sys2Proof.Machine

/-! ### Records -/

/-- Change a token record; t0 is never changed (04 R144). -/
def Warp.setTok (w : Warp) (t : Nat) (f : TokRec → TokRec) : Warp := if t = 0 then w else { w with toks := updAt t f w.toks }

/-- The TSTAT layout of a record (04 R154). -/
def TokRec.word (r : TokRec) : Nat :=
  r.origin.toNat * 2 ^ 32 + b2n r.soft * 2 ^ 8 + r.cause.toNat * 4 +
  (match r.st with | .free => 0 | .pending => 1 | .done => 2 | .poisoned => 3)

/-! ### Keyrings (04 R148) -/

/-- How one token binds: a PENDING one to its current operation; a FREE one counts as DONE. -/
def Warp.bindOne (w : Warp) (t : Nat) : Bound :=
  let r := w.token t
  ⟨t, r.bind, match r.st with
    | .pending => .pending
    | .poisoned => .poisoned r.cause r.origin
    | _ => .done⟩

/-- A keyring binds. -/
def Warp.bindRing (w : Warp) (ts : List Nat) : List Bound := ts.map w.bindOne

/-- Whether a bound token has settled. -/
def Bound.settled (b : Bound) : Bool := b.st != .pending

/-- Cause and ORIGIN of a poisoned bound token. -/
def Bound.poison (b : Bound) : Option (Nat × BitVec 6 × Word) :=
  match b.st with
  | .poisoned c o => some (b.tok, c, o)
  | _ => none

/-- Every bound token has settled. -/
def allSettled (ks : List Bound) : Bool := ks.all Bound.settled

/-- The lowest-numbered POISONED token of a keyring. -/
def firstPoison (ks : List Bound) : Option (Nat × BitVec 6 × Word) := ks.findSome? Bound.poison

/-- Whether a SLEEP on a keyring would end (04 R152): every token settled, or with `.ANY` at least one; an empty keyring, or
one without a PENDING token, ends it at once. -/
def sleepEnds (ks : List Bound) (any : Bool) : Bool :=
  allSettled ks || (any && ks.any Bound.settled)

/-- Binding `id` settles: every keyring that holds it learns how. -/
def State.settleBinding (s : State) (id : Nat) (st : BoundSt) : State :=
  let upd (ks : List Bound) : List Bound := ks.map fun b => if b.id = id ∧ b.st = .pending then { b with st := st } else b
  { s with
    ops := s.ops.map fun o => { o with keys := upd o.keys }
    crews := s.crews.map fun c =>
      { c with warps := c.warps.map fun w =>
          { w with threads := w.threads.map fun t =>
              match t.run with
              | .sleep ks any => { t with run := .sleep (upd ks) any }
              | _ => t } }
    dies := s.dies.map fun d => { d with tasks := d.tasks.map fun k => { k with keys := upd k.keys } } }

/-! ### The error summary of a launch (02 R63; 01 R33; 18 R501) -/

/-- A poisoning that no token shows is counted; the first is logged with its cause and ORIGIN. -/
def State.notePoison (s : State) (launch : Nat) (cause : BitVec 6) (origin : Word) : State :=
  match s.launch? launch with
  | none => s
  | some l =>
    let s := s.setLaunch launch fun x => { x with poisons := x.poisons + 1 }
    if l.poisons = 0 then s.logErr 3 14 origin 0 launch (cause.setWidth 64) else s

/-! ### Acceptance (07 R231, 10 R294, 11 R317, 12 R349, 13 R372) -/

/-- The keyring of the issue's form. -/
def Issue.keys (I : Issue) (e : Opd) : List Bound := I.warp.bindRing (I.warp.ring e)

/-- The number of a token operand. -/
def Opd.tokenNo : Opd → Nat
  | .tok t => t.toNat
  | _ => 0

/-- The number of a tile operand. -/
def Opd.tileNo : Opd → Nat
  | .tile _ n => n.toNat
  | _ => 0

/-- The operation that an issue makes: its token and its keyring bind when it is accepted. -/
def Issue.newOp (I : Issue) (c e : Opd) : Op :=
  { id := I.s.nextId, crew := I.cid, warp := I.wi, core := I.core, slot := I.warp.slot, launch := I.crew.launch
    instr := I.i, lanes := I.act, tok := Opd.tokenNo c, keys := I.keys e, nbv := I.warp.nbv }

/-- An operation is accepted: it joins the accepted operations and its token becomes PENDING, bound to it. -/
def State.accept (s : State) (o : Op) : State :=
  let s : State := { s with nextId := s.nextId + 1, ops := s.ops ++ [o] }
  s.setWarp o.crew o.warp fun w => w.setTok o.tok fun _ => { st := .pending, bind := o.id : TokRec }

/-- An issue accepts an operation and its threads go on. -/
def Issue.acceptOp (I : Issue) (o : Op) : State := (I.s.accept o).advance I.cid I.wi I.mask

/-! ### Settlement (04 R147, R150) -/

/-- Change the record of a settling binding, if it is still bound to it. -/
def Warp.settleTok (w : Warp) (t id : Nat) (st : BoundSt) : Warp :=
  w.setTok t fun r =>
    if r.bind = id ∧ r.st = .pending then
      match st with
      | .poisoned c o => { r with st := .poisoned, cause := c, origin := o }
      | _ => { r with st := .done }
    else r

/-- Whether every thread of a warp has ended. -/
def Warp.exited (w : Warp) : Bool := w.threads.all Thread.gone

/-- A POISONED HLOAD leaves its shape slot INVALID (10 R287). -/
def State.spoilShape (s : State) (o : Op) (st : BoundSt) : State :=
  match o.instr, st with
  | .hload f, .poisoned _ _ => s.setCrew o.crew fun c => { c with shapes := c.shapes.set (Opd.tileNo f.d) none }
  | _, _ => s

/-- The gang crews of an MMAG, in the order of its members (11 R325). -/
def Op.gangCrews (o : Op) : List Nat :=
  match o.instr with
  | .mmag .. => (o.args.drop 2).map BitVec.toNat
  | _ => []

/-- Whether an engine arrival goes before another: by sending core, ENGINE and acceptance (04 R138). -/
def Arrival.before (a b : Arrival) : Bool :=
  if a.core ≠ b.core then a.core < b.core
  else if a.engine ≠ b.engine then a.engine < b.engine
  else a.op < b.op

/-- Put an arrival among those that are due. -/
def insArrival (a : Arrival) : List Arrival → List Arrival
  | [] => [a]
  | b :: rest => if a.before b then a :: b :: rest else b :: insArrival a rest

/-- What the settlement of an MXE operation does beside its token: the MXEs that it holds are free, and with BAR each
member's barrier is due an arrival (11 R327, R328). -/
def State.freeMxe (s : State) (o : Op) (st : BoundSt) : State :=
  let d := (o.args.getD 1 0).toNat
  let due : List Arrival :=
    if bitNat d 26 then
      (o.targets.zip o.gangCrews).map fun (m : Nat × Nat) =>
        { core := m.1, engine := 7, op := o.id, crew := m.2, bar := bitsNat d 31 27, poison := match st with | .poisoned _ _ => true | _ => false }
    else []
  let s : State := { s with
    cores := s.cores.map fun c =>
      if c.mxe = .running o.id ∨ c.mxe = .gang o.id then { c with mxe := .idle } else c }
  match o.instr with
  | .mmag .. => { s with arrivals := due.foldl (fun xs a => insArrival a xs) s.arrivals }
  | _ => s

/-- An operation settles: its record, every keyring bound to it, its wards and its queue entry. A POISONED settlement that
no token shows, or that falls after the exit of its warp, enters the error summary. -/
def State.settle (s : State) (id : Nat) (st : BoundSt) : State :=
  match s.op? id with
  | none => s
  | some o =>
    let exited := ((s.warp? o.crew o.warp).map Warp.exited).getD true
    let s : State := if o.orphan then s else s.setWarp o.crew o.warp fun w => w.settleTok o.tok id st
    let s : State := { s with cores := s.cores.map fun c => { c with wards := c.wards.filter fun x => x.op != id } }
    let s := (((s.dropOp id).settleBinding id st).spoilShape o st).freeMxe o st
    match st with
    | .poisoned c g =>
      if o.tok = 0 ∨ exited then
        let s := s.notePoison o.launch c g
        if exited && o.tok != 0 then
          s.setCrew o.crew fun x => { x with latePoison := x.latePoison.orElse fun _ => some (c, g) }
        else s
      else s
    | _ => s

/-- An operation becomes DONE. -/
def State.finish (s : State) (id : Nat) : State := s.settle id .done

/-- The ORIGIN of a failure of an operation, named by the engine that defines its form (04 R146). -/
def Op.origin (o : Op) : Word := coreOrigin (engineOf o.instr) o.core o.tok

/-- An operation fails with a cause; its ORIGIN names the engine of its form unless one is given. -/
def State.poisonOp (s : State) (id : Nat) (cause : BitVec 6) (origin : Option Word := none) : State :=
  match s.op? id with
  | none => s
  | some o => s.settle id (.poisoned cause (origin.getD o.origin))

/-! ### Earlier accesses (03 R105-R113, 07 R244) -/

/-- The opcode of an operation's instruction. -/
def opcodeOf (i : Instr) : Nat := (i.form.map fun F => F.op.toNat).getD 0

/-- Whether an operation carries accesses of its threads: an LME access, CODEQ, or a FAB access (12 R353). -/
def isThreadAccess (i : Instr) : Bool :=
  match i with
  | .ld .. | .st .. | .lds .. | .sts .. | .latchSet .. | .latchClr .. | .atom .. | .red .. | .mdld .. | .mdst ..
  | .ldloc .. | .stloc .. | .codeq .. | .fld .. | .fst .. | .fatom .. | .fatomc .. | .fred .. | .fmcast ..
  | .fstBlk .. | .fticket .. | .fsigTret .. | .fsigTpois .. | .addrq .. => true
  | _ => false

/-- Whether an operation still has an access of its threads to perform: a recorded FTICKET has performed its act. -/
def Op.unperformed (o : Op) : Bool :=
  isThreadAccess o.instr && o.fail.isNone && (match o.wait with | .ticket _ => false | _ => true)

/-- Whether some thread of `lanes` made an access, numbered before `seq`, that has not performed. -/
def State.pendingBefore (s : State) (crew warp : Nat) (lanes : Mask) (seq : Nat) : Bool :=
  s.ops.any fun o =>
    o.crew == crew && o.warp == warp && o.id < seq && (o.undoneLanes &&& lanes) != 0 && o.unperformed

/-- The accesses that the arrival of some lanes at a barrier releases and that have still to perform: those that the threads
have made, and those that came before them at an earlier barrier (04 R137). -/
def State.pendingOf (s : State) (crew warp : Nat) (lanes : Mask) : List (Nat × Mask) :=
  ((s.ops.filter fun o => o.crew == crew && o.warp == warp && (o.undoneLanes &&& lanes) != 0 && o.unperformed).map
    fun o => (o.id, o.undoneLanes &&& lanes)) ++
  (((((s.warp? crew warp).map Warp.acqs).getD []).filter fun r => (r.lanes &&& lanes) != 0).flatMap AcqRec.after).filter
    fun x => s.openOf x != 0

/-- Whether an operation's covered accesses have all performed: those its issuing threads made before it. -/
def State.covered (s : State) (o : Op) : Bool := !s.pendingBefore o.crew o.warp o.lanes o.id

/-! ### Queues (01 R515) -/

/-- The queue that accepts a form: each quadrant's LME queue holds 64, each core's CPE and FAB queues 32, its MXE
and TBE queues 16 (07 R231, 10 R294, 11 R317, 12 R349, 13 R372). -/
inductive Queue | lme | cpe | mxe | fab | tbe
  deriving DecidableEq, Repr

/-- The queue of an instruction's form. -/
def queueOf (i : Instr) : Option Queue :=
  let op := opcodeOf i
  match i with
  | .tquery .. | .wardq .. | .mflags .. | .fquery .. | .taskinfo .. | .rcquery .. | .tlbinv .. | .ctxsave ..
  | .fence .. | .prefetch .. => none
  | _ =>
    if 0x60 ≤ op ∧ op < 0x90 then some .lme
    else if 0x90 ≤ op ∧ op < 0xA0 then some .cpe
    else if 0xA0 ≤ op ∧ op < 0xB0 then some .mxe
    else if 0xB0 ≤ op ∧ op < 0xC0 then some .fab
    else if 0xC0 ≤ op ∧ op < 0xD0 then some .tbe
    else if 0xD0 ≤ op ∧ op < 0xD6 then some .lme
    else none

end Sys2Proof.Machine
end

