-- ==== Sys2Proof/Machine/Answer.lean ====
section
/-! DEFINITION. The answers of fault records (16 R462) and the records that wait for room in a ring (16 R461). -/

namespace Sys2Proof.Machine

/-- How many crews a launch puts into each cluster (01 R23; 18 R498). -/
def Launch.crewsPer (l : Launch) : Nat :=
  if l.stages = 0 then l.rect.1 * l.rect.2
  else
    ((List.range 8).map fun st =>
      let b := bitsNat l.stages.toNat (8 * st + 7) (8 * st)
      if bitNat b 7 then bitsNat b 6 4 + 1 else 0).foldl (· + ·) 0

/-- The address of a thread's local area (18 R500). -/
def State.localBase (s : State) (c : Crew) (slot wi l : Nat) : Nat :=
  match s.launch? c.launch with
  | none => 0
  | some la =>
    match c.kind with
    | .launch =>
      la.lbase.toNat + la.lsize.toNat * ((c.cluster.toNat * la.crewsPer + c.index) * 1024 + (32 * wi + l))
    | _ => la.lbase.toNat + la.lsize.toNat * (2 ^ 42 + c.core * 2048 + slot * 32 + l)

/-- The local area of a thread named by crew, warp and lane. -/
def State.localBaseOf (s : State) (crew w l : Nat) : Nat :=
  match s.crew? crew, s.warp? crew w with
  | some c, some x => s.localBase c x.slot w l
  | _, _ => 0

/-- RCLASS of a translation failure at the target (12 R351). -/
def rclassOf (kind : Nat) : Nat := if kind = kPermission then 2 else if kind = kLasting then 3 else 1

/-- An access learns its answer: REPLAY lets it walk again; anything else fails it with the cause of R460. A replayed stack
access issues its instruction again, and a replayed peer access is taken again as the next turn. -/
def State.answerOne (s : State) (f : FaultWait) (replay : Bool) : State :=
  match f.owner with
  | .op id =>
    if replay then s.setOp id fun o => { o with wait := .none }
    else
      s.setOp id fun o =>
        { o with
          wait := .none
          fail :=
            if f.asid = 4095 then some (10, peerOrigin (rclassOf f.kind) s.endpoint)
            else some (causeOfKind f.kind, coreOrigin (engineOf o.instr) o.core o.tok) }
  | .stack c w l =>
    let s := s.setThread c w l fun t => if t.run == .stackFault then { t with run := .running } else t
    if replay then s
    else
      match s.thread? c w l with
      | none => s
      | some t =>
        let off := (f.words.headD 0).toNat - s.localBaseOf c w l
        s.trap c w l { cause := 0x0E, pc := t.pc, info := if f.kind = kPermission then 2 else 1, detail := BitVec.ofNat 64 off }
  | .peer p =>
    if replay then { s with agenda := .act (.peerPacketArrival p) :: s.agenda }
    else
      { s with
        reorder := s.reorder.filter fun q => !(q.source == p.source && q.seq == p.seq)
        seen := (p.source, p.seq) :: s.seen }.emit
        (.peerFail p.source p.seq (rclassOf f.kind))

/-- The accesses that wait for record n of a die's ring. -/
def Die.waiting (d : Die) (n : Nat) : List FaultWait := d.faults.filter fun f => f.seq == some n

/-- RDIDX passes record n: RESP is read and its accesses are answered. -/
def State.passRecord (s : State) (die n : Nat) : State :=
  let fs := (s.die die).waiting n
  let replay := s.nat (Config.faultRing die + 64 * (n % 4096) + 56) 8 % 4 == 1
  let s := s.setDie die fun d => { d with faults := d.faults.filter fun f => f.seq != some n }
  fs.foldl (fun s f => s.answerOne f replay) s

/-- Whether a waiting access still needs a record of its own. -/
def Die.unrecorded (d : Die) (f : FaultWait) : Bool := f.seq.isNone && !d.v1.any fun r => r.holds f

/-- Write the records that waited for room, oldest first. -/
def State.recordPending : Nat → State → Nat → State
  | 0, s, _ => s
  | fuel + 1, s, die =>
    let d := s.die die
    match indexOf d.unrecorded d.faults with
    | none => s
    | some i =>
      match d.faults[i]? with
      | none => s
      | some f =>
        if d.ringUse < 4096 then
          let s := s.setDie die fun d => { d with faults := updAt i (fun f => { f with seq := some d.xlwp.toNat }) d.faults }
          State.recordPending fuel (s.ringWrite die f.words) die
        else s

/-- The write of `%xlrp` (16 R462): every record that RDIDX passes is answered, in ring order. -/
def State.writeXlrp (s : State) (die : Nat) (x : Word) : State :=
  let d := s.die die
  let n := (x - d.xlrp).toNat
  let s := (List.range n).foldl (fun s i => s.passRecord die ((d.xlrp.toNat + i) % 2 ^ 32)) s
  let s := s.setDie die fun d => { d with xlrp := x }
  State.recordPending (s.die die).faults.length s die

end Sys2Proof.Machine
end

