-- ==== Sys2Proof/Machine/Recipe.lean ====
section
/-! DEFINITION. Recomputable tiles, recipes and the requests for a recompute (14 R398-R418). -/

namespace Sys2Proof.Machine

/-! ### Tiles and what covers them -/

/-- The state of the recomputable tile in a storage page; a tile without an entry is NONE (14 R399). -/
def State.tileAt (s : State) (key : Nat) : Option Tile := s.tiles.find? fun t => t.page == s.frameOf key

/-- Whether a version holds a pool tile. -/
def Version.holds (v : Version) (tile : Nat) : Bool := v.tile ≤ tile && tile < v.tile + v.len

/-- Whether a recipe covers a tile of a stream (14 R399). -/
def Recipe.covers (r : Recipe) (stream tile : Nat) : Bool := r.stream == stream && r.dsts.any fun v => v.holds tile

/-- The recipe that covers a tile. -/
def State.coverOf (s : State) (t : Tile) : Option Recipe := (s.die t.die).recipes.find? fun r => r.covers t.stream t.tile

/-- A recipe of a die. -/
def State.recipe? (s : State) (die idx : Nat) : Option Recipe := (s.die die).recipes.find? fun r => r.idx == idx

/-- Change a recipe. -/
def State.setRecipe (s : State) (die idx : Nat) (f : Recipe → Recipe) : State :=
  s.setDie die fun d => { d with recipes := updWhere (fun r => r.idx == idx) f d.recipes }

/-- Change the tiles that a recipe covers. -/
def State.setTiles (s : State) (die : Nat) (r : Recipe) (f : TileSt → TileSt) : State :=
  { s with tiles := updWhere (fun t => t.die == die && r.covers t.stream t.tile) (fun t => { t with st := f t.st }) s.tiles }

/-- Whether a recipe is pinned (14 R399). -/
def Recipe.pinned (r : Recipe) : Bool := 0 < r.ppin + r.rpin

/-- The live recipe that covers a source version, if any. -/
def State.sourceRecipe (s : State) (die stream : Nat) (v : Version) : Option Recipe :=
  (s.die die).recipes.find? fun r => r.stream == stream && r.dsts.any fun w => w.id == v.id

/-- Whether a version holds an ABSENT or REBUILDING tile. -/
def State.versionLost (s : State) (die stream : Nat) (v : Version) : Bool :=
  s.tiles.any fun t =>
    t.die == die && t.stream == stream && v.holds t.tile && (t.st == .absent || t.st == .rebuilding)

/-- The generation of the code frame that holds an address of a launch (14 R402, R408). -/
def State.codeGen (s : State) (asid : Nat) (va : VAddr) : Option Word :=
  match s.walk asid va.toNat with
  | .ok t =>
    match (placeOf (t.pa va.toNat)).key with
    | some k => (s.codeAt k).map CodeFrame.gen
    | none => none
  | _ => none

/-! ### Failing a request (14 R415) -/

/-- The ORIGIN of a request's own failure: RCE, its die, CORE 0xFF, TOKEN 0. -/
def rceOrigin (die : Nat) : Word := dieOrigin .rce die 0

/-- Release pins that a request took. -/
def State.unpin (s : State) (die : Nat) (pins : List Nat) : State :=
  pins.foldl (fun s i => s.setRecipe die i fun r => { r with rpin := r.rpin - 1 }) s

/-- A row that an operation had translated fails: no row from it on makes an access, unless a row below it has failed already
(10 R308; 14 R415). A lost access (cause 2) lets the rows that have started finish (10 R307). -/
def Op.failAt (o : Op) (row : Nat) (x : BitVec 6 × Word) : Op :=
  let o : Op := { o with rows := o.rows.filter fun r => r.row != row }
  if x.1 = 2 then { o with fail := o.fail.orElse fun _ => some x, failRow := if o.fail.isSome then o.failRow else row }
  else
    match o.fail with
    | none => { o with fail := some x, failRow := row, rows := o.rows.filter fun r => r.row < row }
    | some y =>
      if y.1 != 2 && row < o.failRow then { o with fail := some x, failRow := row, rows := o.rows.filter fun r => r.row < row } else o

/-- The rows of an operation that wait for a recipe of a die. -/
def Op.rowsOn (o : Op) (die rec : Nat) : List RowSt := o.rows.filter fun r => r.wait == some (die, rec)

/-- The rows of a CPE operation that are parked on a recipe proceed, or the lowest of them fails. -/
def Op.unparkRows (o : Op) (die rec : Nat) (fail : Option (BitVec 6 × Word)) : Op :=
  match o.rowsOn die rec, fail with
  | [], _ => o
  | r :: rs, none =>
    { o with
      parked := (r :: rs).foldl (fun n x => min n x.place) r.place
      rows := o.rows.map fun x => if x.wait = some (die, rec) then { x with wait := none } else x }
  | r :: rs, some x => (r :: rs).foldl (fun (o : Op) y => o.failAt y.row x) o

/-- The accesses parked on a recipe fail or proceed. An RCPIN that waits for one of several recipes goes on with the
others all the same, and `holds` tells it that this one failed (14 R420). -/
def State.unpark (s : State) (die rec : Nat) (fail : Option (BitVec 6 × Word)) : State :=
  let one (o : Op) : Op :=
    let o : Op := { o with wait := .none, fail := o.fail.orElse fun _ => fail }
    match o.instr with
    | .rcpin _ => { o with holds := if fail.isSome then [rec] else [] }
    | _ => o
  { s with ops := s.ops.map fun o => if o.wait = .recipe die rec then one o else o.unparkRows die rec fail }

/-- Whether the accesses of an operation that were parked may proceed: no other freed operation was parked before it, and has
still to go on (14 R412). -/
def State.inTurn (s : State) (o : Op) : Bool :=
  o.parked == 0 || !s.ops.any fun p => p.parked != 0 && p.parked < o.parked && p.wait == .none

/-- An operation goes on by `go` when its turn among the freed ones has come. -/
def State.onTurn (s : State) (o : Op) (go : State → State) : State :=
  if o.parked = 0 then go s else if s.inTurn o then go (s.setOp o.id fun o => { o with parked := 0 }) else s

/-- A request or a recompute of a recipe fails: its tiles, its pins, the requests that wait on it and the parked accesses. -/
def State.failRequest : Nat → State → Nat → Nat → BitVec 6 → Word → State
  | 0, s, _, _, _, _ => s
  | fuel + 1, s, die, idx, cause, origin =>
    match s.recipe? die idx with
    | none => s
    | some r =>
      let req := (s.die die).requests.find? fun q => q.recipe == idx
      let s := s.setTiles die r fun st => if st = .rebuilding then .absent else st
      let s := s.unpin die ((req.map Request.pins).getD [] ++ (if r.st = .running then [idx] else []))
      let s := s.setRecipe die idx fun r => { r with st := .idle }
      let s := s.setDie die fun d => { d with requests := d.requests.filter fun q => q.recipe != idx }
      let s := s.unpark die idx (some (cause, origin))
      let waiting := ((s.die die).requests.filter fun q => q.waits == some idx).map Request.recipe
      waiting.foldl (fun s w => State.failRequest fuel s die w cause origin) s

/-- A request or a recompute of a recipe fails, with every request that waits on it. -/
def State.failAll (s : State) (die idx : Nat) (cause : BitVec 6) (origin : Word) : State :=
  State.failRequest ((s.die die).requests.length + 1) s die idx cause origin

/-! ### Making a request (14 R407, R408) -/

/-- The limit on levels: `%rcdepth` of the launch that owns the stream. -/
def State.depthLimit (s : State) (die stream : Nat) : Nat :=
  (((s.die die).streams[stream]?).bind fun t => (s.launch? t.owner).map fun l => l.rcdepth.toNat).getD 0

/-- The ASID of the launch that owns a stream. -/
def State.streamAsid (s : State) (die stream : Nat) : Nat :=
  (((s.die die).streams[stream]?).bind fun t => (s.launch? t.owner).map Launch.asid).getD 0

/-- Change a request. -/
def State.setRequest (s : State) (die idx : Nat) (f : Request → Request) : State :=
  s.setDie die fun d => { d with requests := updWhere (fun q => q.recipe == idx) f d.requests }

/-- A request examines its sources: each that a live recipe covers is pinned, once it is PRESENT; with none left, the
request is queued for the reserve. `ask` makes the request of a source at the next level. -/
def State.examine (ask : State → Nat → Nat → State) : Nat → State → Nat → Nat → State
  | 0, s, _, _ => s
  | fuel + 1, s, die, idx =>
    match (s.die die).requests.find? fun q => q.recipe == idx, s.recipe? die idx with
    | some q, some r =>
      match q.todo with
      | [] =>
        { (s.setRequest die idx fun q => { q with queued := some s.nextId, waits := none }) with nextId := s.nextId + 1 }
      | v :: rest =>
        match s.sourceRecipe die r.stream v with
        | none => State.examine ask fuel (s.setRequest die idx fun q => { q with todo := rest, waits := none }) die idx
        | some src =>
          if s.versionLost die r.stream v then
            ask (s.setRequest die idx fun q => { q with waits := some src.idx }) src.idx (q.level + 1)
          else
            let s := s.setRecipe die src.idx fun r => { r with rpin := r.rpin + 1 }
            let s := s.setRequest die idx fun q => { q with todo := rest, waits := none, pins := q.pins ++ [src.idx] }
            State.examine ask fuel s die idx
    | _, _ => s

/-- request(r, L). -/
def State.request : Nat → State → Nat → Nat → Nat → State
  | 0, s, _, _, _ => s
  | fuel + 1, s, die, idx, level =>
    match s.recipe? die idx with
    | none => s
    | some r =>
      if r.st ≠ .idle then s
      else
        let s := s.setRecipe die idx fun r => { r with st := .open }
        let s := s.setDie die fun d => { d with requests := d.requests ++ [{ recipe := idx, level := level, todo := r.srcs }] }
        if s.depthLimit die r.stream < level then s.failAll die idx 6 (rceOrigin die)
        else if s.codeGen (s.streamAsid die r.stream) r.entry ≠ some r.codegen then
          s.failAll die idx 7 (rceOrigin die)
        else State.examine (fun s i l => State.request fuel s die i l) (r.srcs.length + 1) s die idx

/-- How deep a chain of requests can go: `%rcdepth` is at most 8. -/
def requestFuel : Nat := 16

/-- The requests that waited on a recipe go on, in ascending record index (14 R407, R410). -/
def State.resumeRequests (s : State) (die idx : Nat) : State :=
  let waiting := ((s.die die).requests.filter fun q => q.waits == some idx).foldl (fun xs q => insNat q.recipe xs) []
  waiting.foldl (fun s w => State.examine (fun s i l => State.request requestFuel s die i l) 8 s die w) s

/-! ### Drops and retirements (14 R399, R417, R418) -/

/-- A drop of a tile: a PRESENT tile of an unpinned recipe becomes ABSENT, and no party receives its old
bytes; nothing else changes (14 R399, R400). -/
def State.dropTile (s : State) (t : Tile) : State :=
  if t.st = .present ∧ ((s.coverOf t).map fun r => !r.pinned).getD false then
    let s := s.undefineFrame t.page
    { s with
      tiles := updWhere (fun u => u.page == t.page) (fun u => { u with st := .absent }) s.tiles
      resident := s.resident.filter fun line => s.frameOf (line * 128) != t.page }
  else s

/-- A recipe is retired: its tiles become NONE, those of ABSENT tiles with undefined bytes, and its record is free. -/
def State.retire (s : State) (die idx : Nat) : State :=
  match s.recipe? die idx with
  | none => s
  | some r =>
    let mine (t : Tile) : Bool := t.die == die && r.covers t.stream t.tile
    let s := (s.tiles.filter fun t => mine t && t.st == .absent).foldl (fun s t => s.undefineFrame t.page) s
    let s : State := { s with tiles := s.tiles.filter fun t => !mine t }
    s.setDie die fun d => { d with recipes := d.recipes.filter fun x => x.idx != idx }

/-- Whether a version is still current in its stream. -/
def State.isCurrent (s : State) (die stream id : Nat) : Bool :=
  (((s.die die).streams[stream]?).map fun t => t.versions.any fun v => v.id == id && v.current).getD false

/-- Whether a task that reads or writes a version has not completed. -/
def State.versionBusy (s : State) (die stream id : Nat) : Bool :=
  (s.die die).tasks.any fun k => k.stream == stream && (k.reads.contains id || k.writes.contains id)

/-- Whether a recipe meets every condition of R417. -/
def State.retirable (s : State) (die : Nat) (r : Recipe) : Bool :=
  r.ppin == 0 && r.st == .idle &&
  r.dsts.all fun v =>
    !s.isCurrent die r.stream v.id && !s.versionBusy die r.stream v.id &&
    !((s.die die).recipes.any fun o => o.idx != r.idx && o.srcs.any fun w => w.id == v.id)

/-- The automatic retirements of one act: one retirement can allow others (14 R417). -/
def State.retireAll : Nat → State → Nat → State
  | 0, s, _ => s
  | fuel + 1, s, die =>
    match (s.die die).recipes.find? fun r => s.retirable die r with
    | none => s
    | some r => State.retireAll fuel (s.retire die r.idx) die

/-- Versions that nothing holds any more are freed (13 R389): not current, no task reads or writes them, and no live recipe
references them. -/
def State.freeVersions (s : State) (die stream : Nat) : State :=
  let kept (v : Version) : Bool :=
    v.current || s.versionBusy die stream v.id ||
    (s.die die).recipes.any fun r => r.stream == stream && (r.srcs ++ r.dsts).any fun w => w.id == v.id
  s.setDie die fun d =>
    { d with streams := updAt stream (fun t => { t with versions := t.versions.filter kept }) d.streams }

/-- The retirements of a die, then the versions that they free. -/
def State.settleRecipes (s : State) (die stream : Nat) : State :=
  (State.retireAll (s.die die).recipes.length s die).freeVersions die stream

end Sys2Proof.Machine
end

