-- ==== Sys2Proof/Machine/Reach.lean ====
section
/-! DEFINITION. Reaching memory: the gate that every access passes at its home (translation, failed dies, recomputable
tiles, containment, the halves of SHARED regions, poison), ranges split at lines, and the CSM windows with their latches
(03 R91-R104, R116; 07 R226-R229; 14 R406, R413; 15 R433, R439, R446). -/

namespace Sys2Proof.Machine

/-! ### The gate -/

/-- Who makes an access: its crew (for containment), address space, TLB, and what a fault record says of it. -/
structure Who where
  crew   : Option Nat
  asid   : Nat
  loc    : TlbLoc
  core   : Nat := 0xFF
  wslot  : Nat := 0
  tok    : Nat := 0
  engine : Engine
  deriving DecidableEq, Repr

/-- What an access meets at its home. -/
inductive Gate
  /-- It may perform: storage key, and whether its write is discarded (14 R413). -/
  | go (key : Nat) (drop : Bool)
  | fault (va kind level entry : Nat)
  /-- The tile is ABSENT or REBUILDING (14 R406). -/
  | park (die rec : Nat)
  /-- The host must give a half back (15 R433); `share` when the device only reads. -/
  | recall (half : Nat) (share : Bool)
  | fail (cause : BitVec 6) (origin : Option Word)
  /-- A write that the containment ward refuses (14 R413). -/
  | recipeWrite (die : Nat)
  /-- An access of its bytes has performed early, and it must not tell yet (03 R114). -/
  | later
  deriving DecidableEq, Repr

/-- The recompute that a crew runs, if it is one: die and recipe. -/
def State.recomputeOf (s : State) (crew : Option Nat) : Option (Nat × Nat) :=
  (crew.bind fun c => s.crew? c).bind fun c => match c.kind with | .recompute d r => some (d, r) | _ => none

/-- Whether an address lies in the local area of one of a crew's threads. -/
def State.inLocal (s : State) (crew : Option Nat) (va n : Nat) : Bool :=
  match crew.bind fun c => s.crew? c with
  | none => false
  | some c =>
    (List.range c.warps.length).any fun wi =>
      match c.warps[wi]? with
      | none => false
      | some w => (List.range w.threads.length).any fun l =>
          let b := s.localBase c w.slot wi l
          b ≤ va && va + n ≤ b + c.lsize.toNat

/-- The tile rules of one access (14 R399, R406, R413): `own` is the recompute whose crew makes it. -/
def State.tileGate (s : State) (key va n : Nat) (write rcmp : Bool) (crew : Option Nat) : Gate :=
  let own := s.recomputeOf crew
  let tile := if rcmp then s.tileAt key else none
  let cover := tile.bind fun t => (s.coverOf t).map fun r => (t, r)
  let mine := match cover, own with | some (t, r), some (d, i) => t.die == d && r.idx == i | _, _ => false
  match own, write with
  | some (d, _), true =>
    if mine then (match cover with | some (t, _) => if t.st = .present then .go key true else .go key false | none => .go key false)
    else if s.inLocal crew va n then .go key false
    else .recipeWrite d
  | _, _ =>
    match cover with
    | some (t, r) =>
      if mine || !(t.st == .absent || t.st == .rebuilding) then .go key false
      else match own with
        | some (d, _) => .fail 6 (some (rceOrigin d))
        | none => .park t.die r.idx
    | none => .go key false

/-- Host state of a half; HI when unlisted. -/
def State.halfAt (s : State) (half : Nat) : Option HalfSt := (s.halves.find? fun h => h.1 == half).map Prod.snd

/-- Whether a device access to a half needs a recall first (15 R433, R434): a read of a half in HX, a write to a half that
the host holds, any access while a recall of it is outstanding. -/
def State.needsRecall (s : State) (half : Nat) (write : Bool) : Bool :=
  (s.recalls.any fun r => r.half == half) ||
  (match s.halfAt half with | some .hx => true | some .hs => write | none => false)

/-! ### Accesses that have performed early (03 R95-R97, R114) -/

/-- Whether the access that an early one has passed has still to perform. -/
def State.earlyOpen (s : State) (e : Early) : Bool := s.openOf (e.pred, laneBit e.lane) != 0

/-- The class of an engine's accesses; none where the table lists none. -/
def Engine.cls : Engine → Option Nat
  | .lme => some 0
  | .cpe => some 1
  | .mxe => some 2
  | .fab => some 3
  | .fch => some 5
  | .tbe => some 1
  | _ => none

/-- Whether a crew belongs to the parties of a reach around another (03 R95, R96): a bin, task or recompute crew is a cluster
of its own. -/
def State.inReach (s : State) (r : Reach) (of crew : Nat) : Bool :=
  match r with
  | .crew => of == crew
  | .cluster =>
    match s.crew? of, s.crew? crew with
    | some c, some d => of == crew || (c.kind == .launch && d.kind == .launch && c.launch == d.launch && c.cluster == d.cluster)
    | _, _ => of == crew
  | _ => true

/-- Whether an access of n bytes meets one that has performed early and that it must not see yet: its party lies within the
reach, and its class in the mask. The engines of a die act for the device; peers lie outside every reach at which an access
performs early. -/
def State.earlyHeld (s : State) (w : Who) (key n : Nat) (write : Bool) : Bool :=
  s.early.any fun e =>
    s.earlyOpen e && (write || e.write) && (e.parts.any fun p => p.1 < key + n && key < p.1 + p.2) &&
    (match w.engine.cls with | some c => e.mask.getLsbD c | none => true) &&
    (match w.crew with
     | some c => s.inReach e.reach e.crew c
     | none => e.reach == .device && w.engine != .fab)

/-- The ORIGIN of a failure of an access. -/
def Who.origin (w : Who) : Word := mkOrigin w.engine w.loc.die (if w.engine.ofDie then 0xFF else w.core) w.tok

/-- A lasting failure of an access enters the error log: a poisoned granule as memory ECC, a failed die as salvage
(15 R439, R446; 18 R503). -/
def State.logLasting (s : State) (w : Who) (va kind : Nat) (origin : Option Word) : State :=
  let launch := ((w.crew.bind fun c => s.crew? c).map Crew.launch).getD 0
  s.logErr 2 kind (origin.getD w.origin) (BitVec.ofNat 64 va) launch 0

/-- Translate an address for an access; a walk read that is lost and a failed die enter the error log (01 R44; 15 R439). -/
def State.xlateAs (s : State) (w : Who) (va : Nat) (need : Need) : State × Reach1 :=
  match s.xlate w.loc w.asid va need with
  | (s, .fault k l e) => (if k = kLasting then s.logLasting w va 5 none else s, .fault k l e)
  | (s, .bad c o) => (if c = 13 then s.logLasting w va 13 o else s, .bad c o)
  | r => r

/-- An access brings a line of a recomputable page into L2 (14 R400). -/
def State.touchTile (s : State) (key : Nat) (rcmp : Bool) : State :=
  if rcmp then { s with resident := insNat (key / 128) s.resident } else s

/-- The gate of an access of n bytes within one 128-byte line. -/
def State.gate (s : State) (w : Who) (va n : Nat) (write : Bool) (need : Need) : State × Gate :=
  if 2 ^ 57 < va + n then (s, .fail 3 none)
  else
    match s.xlateAs w va need with
    | (s, .fault k l e) => (s, .fault va k l e)
    | (s, .bad c o) => (s, .fail c o)
    | (s, .ok key leaf) =>
      match s.tileGate key va n write (entRcmp leaf) w.crew with
      | .go key drop =>
        let half := if s.needsRecall (key / 64) write then some (key / 64)
          else if s.needsRecall ((key + n - 1) / 64) write then some ((key + n - 1) / 64) else none
        match half with
        | some h => (s, .recall h (!write))
        | none =>
          if s.earlyHeld w key n write then (s, .later)
          else if need.r && s.isPoisoned key n && isHbm key then (s.logLasting w va 1 none, .fail 2 none)
          else (s.touchTile key (entRcmp leaf), .go key drop)
      | g => (s, g)

/-- One part of a range that may perform. -/
structure Part where
  key  : Nat
  n    : Nat
  drop : Bool
  deriving DecidableEq, Repr

/-- The parts of a range of n bytes, split at 128-byte lines, or what stops it. -/
def State.reachLoop (w : Who) (write : Bool) (need : Need) :
    Nat → State → Nat → Nat → List Part → State × Except Gate (List Part)
  | 0, s, _, _, ps => (s, .ok ps.reverse)
  | fuel + 1, s, va, n, ps =>
    if n = 0 then (s, .ok ps.reverse)
    else
      let k := min n (128 - va % 128)
      match s.gate w va k write need with
      | (s, .go key drop) => State.reachLoop w write need fuel s (va + k) (n - k) (⟨key, k, drop⟩ :: ps)
      | (s, g) => (s, .error g)

/-- Reach a range of bytes. -/
def State.reach (s : State) (w : Who) (va n : Nat) (write : Bool) (need : Need) : State × Except Gate (List Part) :=
  State.reachLoop w write need (n / 128 + 2) s va n []

/-- The bytes of parts. -/
def State.readParts (s : State) (ps : List Part) : List Byte := ps.flatMap fun p => s.bytes p.key p.n

/-- Write bytes into parts; those of a discarded write perform nowhere. -/
def State.writeParts (s : State) : List Part → List Byte → State
  | [], _ => s
  | p :: ps, bs => State.writeParts (if p.drop then s else s.store p.key (bs.take p.n)) ps (bs.drop p.n)

/-! ### What stops an operation -/

/-- A recall starts, unless one is outstanding (15 R434). -/
def State.startRecall (s : State) (half : Nat) (share : Bool) : State :=
  if s.recalls.any fun r => r.half == half then s
  else { s with recalls := s.recalls ++ [⟨half, 1, share⟩], outputs := s.outputs ++ [.snoop half] }

/-- A Recipe Write stops every thread of the recompute crew at once (14 R413). -/
def State.stopRecompute (s : State) (crew : Nat) : State :=
  s.setCrew crew fun c =>
    { c with
      recipeWrite := true
      warps := c.warps.map fun w =>
        { w with threads := w.threads.map fun t => if t.gone then t else { t with run := .stopped } } }

/-- An operation fails with a cause; it settles when it completes. -/
def State.failOp (s : State) (id : Nat) (cause : BitVec 6) (origin : Option Word) : State :=
  s.setOp id fun o => { o with fail := o.fail.orElse fun _ => some (cause, origin.getD o.origin) }

/-- ACCESS codes of a fault record (16 R461). -/
def accRead : Nat := 0
/-- Write. -/
def accWrite : Nat := 1
/-- Atomic. -/
def accAtomic : Nat := 3

/-- What a gate that stopped an operation does to it: it waits, or it will fail. Only the forms of R460 wait for an
answer. -/
def State.stopOp (s : State) (id : Nat) (w : Who) (access : Nat) (replay : Bool) (g : Gate) : State :=
  match g with
  | .go _ _ | .later => s
  | .fault va k l e =>
    let i : FaultInfo := { die := w.loc.die, asid := w.asid, va, core := w.core, wslot := w.wslot, tok := w.tok, access, engine := w.engine }
    match s.fault i k l e (if replay then some (.op id) else none) with
    | (s, .waits) =>
      let logged := (s.die w.loc.die).faults.any fun f => f.owner == .op id && f.logged
      s.setOp id fun o => { o with wait := .answer, queued := o.queued && !(logged && queueOf o.instr == some .lme) }
    | (s, .fails c) => s.failOp id c none
  | .park d r =>
    let t : State := { s with nextId := s.nextId + 1 }
    State.request requestFuel (t.setOp id fun o => { o with wait := .recipe d r, parked := s.nextId }) d r 1
  | .recall h share =>
    let t : State := { s with nextId := s.nextId + 1 }
    (t.startRecall h share).setOp id fun o => { o with wait := .recall h, parked := s.nextId }
  | .fail c o => s.failOp id c o
  | .recipeWrite d =>
    let s := match w.crew with | some c => s.stopRecompute c | none => s
    s.failOp id 8 (some (mkOrigin .rce d w.core 0))

/-! ### CSM windows (07 R227, R228) -/

/-- A crew among others in ascending `%crew`. -/
def insCrew (c : Crew) : List Crew → List Crew
  | [] => [c]
  | d :: rest => if c.index < d.index then c :: d :: rest else d :: insCrew c rest

/-- The crews of an issuing crew's cluster on a core, in ascending `%crew`: bin, task and recompute crews are clusters of their own
(03 R96). -/
def State.clusterCrews (s : State) (c : Crew) (core : Nat) : List Crew :=
  match c.kind with
  | .launch =>
    (s.crews.filter fun x => x.kind == .launch && x.launch == c.launch && x.cluster == c.cluster && x.core == core).foldr insCrew []
  | _ => if core = c.core then [c] else []

/-- A place, as dx and dy (01 R26). -/
def placeXY (p : Nat) : Int × Int := (sext 4 (bitsNat p 3 0), sext 4 (bitsNat p 7 4))

/-- The core that a place names on the issuing core's die, if it lies in the grid (01 R26, R27). -/
def coreAt (core : Nat) (dx dy : Int) : Option Nat :=
  let x := ((core % 96 % 8 : Nat) : Int) + dx
  let y := ((core % 96 / 8 : Nat) : Int) + dy
  if 0 ≤ x ∧ x < 8 ∧ 0 ≤ y ∧ y < 12 then some (core / 96 * 96 + y.toNat * 8 + x.toNat) else none

/-- Whether a core lies in a crew's cluster rectangle (01 R22, R27). -/
def Crew.inRect (c : Crew) (core : Nat) : Bool :=
  core / 96 == c.core / 96 &&
  (let x := core % 96 % 8
   let y := core % 96 / 8
   c.corner.1 ≤ x && x < c.corner.1 + c.rect.1 && c.corner.2 ≤ y && y < c.corner.2 + c.rect.2)

/-- The cores of a crew's rectangle, row-major. -/
def Crew.rectCores (c : Crew) : List Nat :=
  (List.range c.rect.2).flatMap fun y =>
    (List.range c.rect.1).map fun x => c.core / 96 * 96 + (c.corner.2 + y) * 8 + c.corner.1 + x

/-- What a CSM pointer names. -/
inductive CsmAt
  /-- The core, whether it is the cluster window, and the effective offset. -/
  | ok (core : Nat) (window : Bool) (off : Nat)
  | placeRange (place : Nat)
  | csmRange
  deriving DecidableEq, Repr

/-- The limit of a window (07 R228). -/
def State.csmLimit (s : State) (c : Crew) (core : Nat) (window : Bool) : Nat :=
  if window then ((s.clusterCrews c core).map Crew.csmSize).foldl (· + ·) 0 else c.csmSize

/-- Resolve a CSM pointer plus an offset for an access of n bytes (07 R227). -/
def State.csmAt (s : State) (c : Crew) (ptr : Nat) (off : Int) (n : Nat) : CsmAt :=
  let dx := sext 4 (bitsNat ptr 27 24)
  let dy := sext 4 (bitsNat ptr 31 28)
  let window := bitNat ptr 23
  let eff := ((bitsNat ptr 18 0 : Nat) : Int) + off
  match coreAt c.core dx dy with
  | none => .placeRange (bitsNat ptr 31 24)
  | some core =>
    if !c.inRect core then .placeRange (bitsNat ptr 31 24)
    else if (!window && bitsNat ptr 31 24 != 0) || bitsNat ptr 22 19 != 0 then .csmRange
    else if eff < 0 ∨ (s.csmLimit c core window : Int) < eff + n then .csmRange
    else .ok core window eff.toNat

/-- A piece of a CSM range in one crew's grant: crew, offset in the grant, length. -/
structure CsmPart where
  crew : Nat
  off  : Nat
  n    : Nat
  deriving DecidableEq, Repr

/-- Split a window range at the borders of the grants. -/
def csmSplit : List Crew → Nat → Nat → List CsmPart
  | [], _, _ => []
  | c :: cs, off, n =>
    if n = 0 then []
    else if c.csmSize ≤ off then csmSplit cs (off - c.csmSize) n
    else
      let k := min n (c.csmSize - off)
      ⟨c.id, off, k⟩ :: csmSplit cs 0 (n - k)

/-- The pieces of a CSM range. -/
def State.csmParts (s : State) (c : Crew) (core : Nat) (window : Bool) (off n : Nat) : List CsmPart :=
  if window then csmSplit (s.clusterCrews c core) off n else [⟨c.id, off, n⟩]

/-- A byte of CSM: a free value until something writes it (03 R116; DEDUCED, log 6). -/
def Crew.csmByte (c : Crew) (off : Nat) : Byte :=
  match cellGet off c.csm with
  | some b => b
  | none => Config.csmByte c.id off

/-- The bytes of CSM pieces. -/
def State.csmRead (s : State) (ps : List CsmPart) : List Byte :=
  ps.flatMap fun p =>
    match s.crew? p.crew with
    | some c => (List.range p.n).map fun i => c.csmByte (p.off + i)
    | none => List.replicate p.n 0

/-- Write bytes into a crew's CSM. -/
def putCsm (cells : List Host.Cell) (off : Nat) : List Byte → List Host.Cell
  | [] => cells
  | b :: bs => putCsm (cellPut off b cells) (off + 1) bs

/-- Write bytes into CSM pieces. -/
def State.csmWrite (s : State) : List CsmPart → List Byte → State
  | [], _ => s
  | p :: ps, bs =>
    State.csmWrite (s.setCrew p.crew fun c => { c with csm := putCsm c.csm p.off (bs.take p.n) }) ps (bs.drop p.n)

/-- Whether a crew's granule is FULL. -/
def State.latchFull (s : State) (crew g : Nat) : Bool := ((s.crew? crew).map fun c => c.full.contains g).getD false

/-- Set or clear a latch (03 R116). -/
def State.setLatch (s : State) (crew g : Nat) (full : Bool) : State :=
  s.setCrew crew fun c => { c with full := if full then insNat g c.full else c.full.filter (· != g) }

end Sys2Proof.Machine
end

