-- ==== Sys2Proof/Machine/Sreg.lean ====
section
/-! DEFINITION. The special registers (02 R69, R70 and each chapter's register map): what a read returns, what a write
changes, and which accesses are refused (17 R481). -/

namespace Sys2Proof.Machine

/-! ### Values of single registers -/

/-- The bits of a list of flags, bit n from element n. -/
def bitsOf (bs : List Bool) : Nat := (bs.mapIdx fun n b => if b then 2 ^ n else 0).foldl (· + ·) 0

/-- `%tfile` (04 R164). -/
def Warp.tfile (w : Warp) : Nat :=
  ((List.range 32).map fun t => ((w.token t).word % 4) * 4 ^ t).foldl (· + ·) 0

/-- `%barN` (04 R164). -/
def Bar.word (b : Bar) : Nat :=
  b2n b.lastPoison * 2 ^ 34 + b2n b.poison * 2 ^ 33 + b2n b.phase * 2 ^ 32 + b.arrived % 2 ^ 11 * 2 ^ 16 + b.expect % 2 ^ 11

/-- Free entries of a core's queue of a kind. -/
def State.queueFree (s : State) (core : Nat) (q : Queue) (cap : Nat) : Nat :=
  cap - (s.ops.filter fun o => o.core == core && o.queued && queueOf o.instr == some q).length

/-- Free entries of a core's ward table (10 R311). -/
def State.wardFree (s : State) (core : Nat) : Nat := 64 - (s.core core).wards.length

/-- `%fpost`: the FAB operations of a warp with C = `t0` that have not settled (12 R350, R368). -/
def State.fpost (s : State) (crew warp : Nat) : Nat :=
  (s.ops.filter fun o => o.crew == crew && o.warp == warp && o.tok == 0 && engineOf o.instr == .fab).length

/-! ### Reading -/

/-- A special register as one thread reads it; an unassigned number reads 0 (it never decodes, 02 R65). -/
def Issue.sreg (I : Issue) (l n : Nat) : Nat :=
  let t := I.thread l
  let c := I.crew
  let co := I.s.core I.core
  let d := I.s.die I.die
  let tid := 32 * I.wi + l
  let la := I.s.launch? c.launch
  let bool (f : Launch → Bool) : Nat := b2n ((la.map f).getD false)
  if 0x020 ≤ n ∧ n < 0x028 then
    let j := I.warp.joins.getD (n - 0x020) {}
    j.waiting.toNat * 2 ^ 32 + j.member.toNat
  else if 0x040 ≤ n ∧ n < 0x060 then ((c.bars[n - 0x040]?).map Bar.word).getD 0
  else
    match n with
    | 0x000 => l
    | 0x001 => I.wi
    | 0x002 => tid
    | 0x003 => tid % c.dims.1
    | 0x004 => tid / c.dims.1 % c.dims.2.1
    | 0x005 => tid / c.dims.1 / c.dims.2.1
    | 0x006 => c.index
    | 0x007 => c.cluster.toNat
    | 0x008 => c.stage
    | 0x009 => co.cyc.toNat
    | 0x00A => I.die
    | 0x00B => I.core
    | 0x00C | 0x00D | 0x00E | 0x00F => (t.ix.getD (n - 0x00C) 0).toNat
    | 0x010 => I.warp.tstat.toNat
    | 0x011 => b2n I.warp.wdtrap * 2 + b2n I.warp.ptrap
    | 0x012 => I.warp.tfile
    | 0x013 => I.warp.part.toNat
    | 0x014 => I.warp.wdCount.toNat * 2 ^ 32 + I.warp.wdLimit.toNat
    | 0x015 => co.wdevt.toNat
    | 0x016 => I.mask.toNat
    | 0x017 => t.csp.toNat
    | 0x018 => I.pc.toNat
    | 0x080 => t.fflags.toNat
    | 0x081 => t.fenv.toNat
    | 0x082 => I.warp.nbv.toNat
    | 0x0A0 => c.argp.toNat
    | 0x0A1 => I.s.localBase c I.warp.slot I.wi l % 2 ^ 57
    | 0x0A2 => c.lsize.toNat
    | 0x0B0 => co.fchevt.toNat
    | 0x0C0 => co.cpevt.toNat
    | 0x0C1 => I.s.wardFree I.core
    | 0x0C2 => bitsOf (c.shapes.map Option.isSome)
    | 0x0D0 => co.mxevt.toNat
    | 0x0D1 => I.s.queueFree I.core .mxe 16
    | 0x0E0 => I.s.podSize * 2 ^ 16 + I.s.endpoint
    | 0x0E1 => co.fabevt.toNat
    | 0x0E2 => I.s.ports.toNat
    | 0x0E3 => I.s.fpost I.cid I.wi % 2 ^ 16
    | 0x100 => c.taskid.toNat
    | 0x101 => I.s.queueFree I.core .tbe 16
    | 0x110 => ((la.map Launch.rcdepth).getD 0).toNat
    | 0x111 => c.rcinfo.toNat
    | 0x112 => d.rcevt.toNat
    | 0x120 => I.asid
    | 0x121 => bool Launch.v1fmt * 2 + bool Launch.replay
    | 0x122 => d.xlwp.toNat
    | 0x123 => d.xlrp.toNat
    | 0x124 => d.dropped.toNat * 2 ^ 32 + d.written.toNat
    | 0x125 => Config.faultRing I.die
    | 0x140 => b2n d.migr
    | 0x141 => d.hmevt.toNat
    | 0x142 => d.salvCnt.toNat * 2 ^ 32 + d.salvDrop.toNat
    | 0x143 => d.hbmup.toNat
    | 0x150 => t.tcause.toNat
    | 0x151 => t.tpc.toNat
    | 0x152 => t.taddr.toNat
    | 0x153 => t.tmode.toNat
    | 0x154 => t.tscr0.toNat
    | 0x155 => t.tscr1.toNat
    | 0x156 => I.warp.waitFor.toNat * 2 ^ 32 + I.warp.heldL.toNat
    | 0x157 => ((la.map Launch.handler).getD 0).toNat
    | 0x158 => c.remain.toNat * 2 ^ 32 + b2n c.pend * 2 + b2n c.coop
    | 0x159 => c.ctxarea.toNat
    | _ => 0

/-! ### Access (17 R481) -/

/-- The registers of 0x120 to 0x17F of Thread, Warp, Crew or Launch scope. -/
def narrowScope (n : Nat) : Bool := n == 0x120 || n == 0x121 || (0x150 ≤ n && n ≤ 0x159)

/-- Whether a thread may read a special register. -/
def Issue.mayRead (I : Issue) (n : Nat) : Bool :=
  n < 0x120 || narrowScope n || privilegedOk I.s I.crew I.warp 0 0

/-- Whether a thread may write a special register. -/
def Issue.mayWrite (I : Issue) (l n : Nat) : Bool :=
  n < 0x120 || privilegedOk I.s I.crew I.warp 0 0 ||
  ((I.thread l).inHandler && [0x151, 0x154, 0x155, 0x158, 0x159].contains n)

/-! ### Writing (04 R164, R165; 02 R6 of 00) -/

/-- The RES0 bits of a register: those below its highest field that its map does not list. A bit above the highest field is
no RES0 bit, and what a write of 1 there does is stated nowhere: it is dropped (DESIGN CHOICE, log 4). -/
def res0 (n : Nat) : Nat :=
  if 0x040 ≤ n ∧ n < 0x060 then 0xF800F800
  else
    match n with
    | 0x010 => 0xFFFFC006
    | 0x014 => 0xFFFFFFE0
    | 0x081 => 0xE0
    | 0x0E0 => 0xF000
    | 0x150 => 0x0000FFE0FFFFFF00
    | 0x153 => 2
    | 0x158 => 0xFFFFFFFC
    | _ => 0

/-- A value with the RES0 bits of a register cleared: they read as 0 (00 R6). -/
def clearRes0 (n x : Nat) : Nat := Nat.land x (2 ^ 64 - 1 - res0 n)

/-- A register of Thread scope (04 R164; 06 R207; 17 R482; 18 R500). -/
def threadScope (n : Nat) : Bool :=
  n == 0x000 || (0x002 ≤ n && n ≤ 0x005) || (0x00C ≤ n && n ≤ 0x00F) || n == 0x017 || n == 0x018 || n == 0x080 || n == 0x081 ||
  n == 0x0A1 || (0x150 ≤ n && n ≤ 0x155)

/-- Whether the register's map refuses a value with Operand Range. -/
def Issue.refuses (I : Issue) (l n x : Nat) : Bool :=
  Nat.land x (res0 n) != 0 ||
  (match n with
   | 0x017 => I.crew.lsize.toNat < x
   | 0x081 => 3 < bitsNat x 10 8
   | 0x082 => x % 4 != 1 && x % 4 != 2
   | 0x110 => x % 16 == 0 || 8 < x % 16
   | 0x123 =>
     let d := I.s.die I.die
     (d.xlwp - d.xlrp).toNat < (BitVec.ofNat 32 x - d.xlrp).toNat
   | 0x151 => (I.thread l).inHandler && (2 ^ 57 ≤ x || (slotIndex (BitVec.ofNat 57 x)).isNone)
   | 0x159 => x % 4096 != 0
   | _ => false)

/-- Write a thread-scope register. -/
def Thread.setSreg (t : Thread) (n x : Nat) : Thread :=
  match n with
  | 0x00C | 0x00D | 0x00E | 0x00F => { t with ix := t.ix.set (n - 0x00C) (BitVec.ofNat 8 x) }
  | 0x017 => { t with csp := BitVec.ofNat 32 x }
  | 0x080 => { t with fflags := BitVec.ofNat 5 x }
  | 0x081 => { t with fenv := BitVec.ofNat 13 x }
  | 0x151 => if t.inHandler then { t with tpc := BitVec.ofNat 57 x } else t
  | 0x154 => { t with tscr0 := BitVec.ofNat 64 x }
  | 0x155 => { t with tscr1 := BitVec.ofNat 64 x }
  | _ => t

/-- The write of `%joinN` (04 R133): MEMBER takes the value but for absent and ended lanes; a waiting thread whose bit it
clears goes on after its JWAIT; then check(N). -/
def Warp.setJoin (w : Warp) (k : Nat) (x : Mask) : Warp :=
  let live := w.lanesWhere fun t => !t.gone
  let j := w.joins.getD k {}
  let member := x &&& live
  let freed := j.waiting &&& ~~~member
  let w : Warp := { w with
    joins := updAt k (fun _ => { member := member, waiting := j.waiting &&& member }) w.joins
    threads := w.threads.mapIdx fun l t =>
      if freed.getLsbD l && t.run == .join k then { t.goto (successor t.pc) with run := .running } else t }
  w.checkJoin k

/-- The pending acts of a line move to a slice, each queue keeping its order (15 R438). -/
def State.moveActs (s : State) (line die slice : Nat) : State :=
  let here (a : Act) : Bool := a.addr / 128 == line
  let all := s.dies.flatMap Die.slices
  let port (k : Nat) : List (Act × Bool) := (all.flatMap fun q => q.ports.getD k []).filter fun x => here x.1
  let loc := (all.flatMap Slice.loc).filter here
  let remote := (all.flatMap Slice.remote).filter here
  let dies := s.dies.map fun d =>
    { d with slices := d.slices.map fun q =>
        { q with
          ports := q.ports.map fun xs => xs.filter fun x => !here x.1
          loc := q.loc.filter fun a => !here a
          remote := q.remote.filter fun a => !here a } }
  { s with dies }.setDie die fun d =>
    { d with slices := updAt slice (fun q =>
        { q with ports := q.ports.mapIdx fun k xs => xs ++ port k, loc := q.loc ++ loc, remote := q.remote ++ remote }) d.slices }

/-- A migrated line returns to its default slice, through which its dirty granules are written back (15 R438). A line of a failed
die stays where it is (15 R439). -/
def State.returnLine (s : State) (line : Nat) : State :=
  if (s.salvaged (line * 128)).isSome then s
  else
    let s : State := { s with moved := s.moved.filter fun e => e.1 != line }
    (s.writeBack line).moveActs line (keyDie (line * 128)) (s.sliceOf line)

/-- L2 evicts a line: it is written back, and a migrated one returns to its default slice (15 R427, R438). -/
def State.evictLine (s : State) (line : Nat) : State :=
  if s.moved.any fun e => e.1 == line then s.returnLine line
  else if (s.salvaged (line * 128)).isSome then s
  else s.writeBack line

/-- A write of `%hmctl`: MIGR = 0 returns every migrated line that the die homes (15 R437, R438, R449). -/
def State.setMigr (s : State) (die : Nat) (on : Bool) : State :=
  let s := s.setDie die fun d => { d with migr := on }
  if on then s
  else
    ((s.moved.map Prod.fst).filter fun line => keyDie (line * 128) == die).foldl (fun (s : State) line => s.returnLine line) s

/-- Write a register of wider scope than a thread. -/
def Issue.setWide (I : Issue) (s : State) (n x : Nat) : State :=
  if 0x020 ≤ n ∧ n < 0x028 then s.setWarp I.cid I.wi fun w => w.setJoin (n - 0x020) (BitVec.ofNat 32 x)
  else
    match n with
    | 0x010 => if bitNat x 0 then s.setWarp I.cid I.wi fun w => { w with tstat := 0 } else s
    | 0x011 => s.setWarp I.cid I.wi fun w => { w with ptrap := bitNat x 0, wdtrap := bitNat x 1 }
    | 0x015 => s.setCore I.core fun c => { c with wdevt := BitVec.ofNat 32 x }
    | 0x082 => s.setWarp I.cid I.wi fun w => { w with nbv := BitVec.ofNat 2 x }
    | 0x0B0 => s.setCore I.core fun c => { c with fchevt := BitVec.ofNat 32 x }
    | 0x0C0 => s.setCore I.core fun c => { c with cpevt := BitVec.ofNat 32 x }
    | 0x0D0 => s.setCore I.core fun c => { c with mxevt := BitVec.ofNat 32 x }
    | 0x0E1 => s.setCore I.core fun c => { c with fabevt := BitVec.ofNat 32 x }
    | 0x110 => s.setLaunch I.crew.launch fun l => { l with rcdepth := BitVec.ofNat 4 x }
    | 0x112 => s.setDie I.die fun d => { d with rcevt := BitVec.ofNat 32 x }
    | 0x121 => s.setLaunch I.crew.launch fun l => { l with replay := bitNat x 0, v1fmt := bitNat x 1 }
    | 0x123 => s.writeXlrp I.die (BitVec.ofNat 32 x)
    | 0x124 =>
      s.setDie I.die fun d => { d with written := BitVec.ofNat 32 x, dropped := BitVec.ofNat 32 (x / 2 ^ 32) }
    | 0x140 => s.setMigr I.die (bitNat x 0)
    | 0x141 => s.setDie I.die fun d => { d with hmevt := BitVec.ofNat 32 x }
    | 0x158 => s.setCrew I.cid fun c => { c with coop := bitNat x 0 }
    | 0x159 => s.setCrew I.cid fun c => { c with ctxarea := BitVec.ofNat 57 x }
    | _ => s

end Sys2Proof.Machine
end

