-- ==== Sys2Proof/Machine/Special.lean ====
section
/-! DEFINITION. The two operations that reach special registers, shared by GETSR, SETSR and MOV (04 R165, 05 R183;
17 R481), and two small shapes of per-warp forms. -/

namespace Sys2Proof.Machine

/-- The issuing threads trap; the others of the group go on (17 R473, "Guarded"). -/
def Issue.trapAct (I : Issue) (cause : Nat) (info : Nat := 0) (detail : DWord := 0) : State :=
  { I with s := I.s.advance I.cid I.wi (I.mask &&& ~~~I.act) }.trapAll I.act cause info detail

/-- Read special register n into a destination of a width in each issuing thread. -/
def Issue.readSpecial (I : Issue) (n : Nat) (d : Opd) (bits : Nat) : State :=
  if I.mayRead n then I.perLane fun l => .ok [.reg d bits (I.sreg l n % 2 ^ bits)]
  else I.trapAll I.mask 0x07 0 (I.pc.setWidth 64)

/-- Write special register n: a thread-scope register in each issuing thread, a wider one with the value of the lowest. A
value that the register's map refuses changes nothing and raises Operand Range. -/
def Issue.writeSpecial (I : Issue) (n : Nat) (value : Nat → Nat) : State :=
  if !(I.lanes.all fun l => I.mayWrite l n) then I.trapAll I.mask 0x07 0 (I.pc.setWidth 64)
  else if threadScope n then
    let outs := I.outcomes fun l => if I.refuses l n (value l) then .trap (I.trapHere 0x0B) else .ok []
    let bad := outs.filterMap fun p => p.2.trap?.map fun t => (p.1, t)
    let failed := maskOf (bad.map Prod.fst)
    let s := (I.lanes.filter fun l => !failed.getLsbD l).foldl (fun s l => s.setThread I.cid I.wi l fun t => t.setSreg n (value l)) I.s
    (s.advance I.cid I.wi (I.mask &&& ~~~failed)).traps I.cid I.wi bad
  else
    I.lowTrap <|
      if I.refuses I.low n (value I.low) then I.trapAct 0x0B
      else I.setWide (I.s.advance I.cid I.wi I.mask) n (value I.low)

/-- The 64-bit value that a source gives a special register: a `.B32` register zero-extended, an immediate sign-extended. -/
def Issue.specialSource (I : Issue) (o : Opd) (bits : Nat) (l : Nat) : Nat :=
  match o with
  | .imm v => wrapNat 64 v.toInt
  | _ => I.read l o bits

end Sys2Proof.Machine
end

