-- ==== Sys2Proof/Machine/Integer.lean ====
section
/-! DEFINITION. The integer engine (05): exact arithmetic on unsigned or signed readings, narrowed at the end (00 R7). -/

namespace Sys2Proof.Machine

/-! ### Readings of a value by type -/

/-- Whether a type is signed. -/
def signedTy : Ty → Bool
  | .si8 | .si16 | .si32 | .si64 | .si8x4 | .si16x2 => true
  | _ => false

/-- A value of w bits as the integer that a type reads. -/
def intOf (t : Ty) (w x : Nat) : Int := if signedTy t then sext w x else ((x % 2 ^ w : Nat) : Int)

/-- Least value of a type of w bits. -/
def minOf (t : Ty) (w : Nat) : Int := if signedTy t then -(2 ^ (w - 1) : Nat) else 0
/-- Greatest value of a type of w bits. -/
def maxOf (t : Ty) (w : Nat) : Int := if signedTy t then ((2 ^ (w - 1) : Nat) : Int) - 1 else ((2 ^ w : Nat) : Int) - 1

/-! ### Addition and multiplication (R173, R174) -/

/-- D of IADD and ISUB. -/
def addSub (t : Ty) (w a b : Nat) (sub sat : Bool) : Nat :=
  let s := if sub then intOf t w a - intOf t w b else intOf t w a + intOf t w b
  wrapNat w (if sat then satInt s (minOf t w) (maxOf t w) else s)

/-- The carry of IADD and ISUB. -/
def addSubCarry (w a b : Nat) (sub : Bool) : Bool :=
  if sub then 2 ^ w ≤ a % 2 ^ w + (2 ^ w - b % 2 ^ w) else 2 ^ w ≤ a % 2 ^ w + b % 2 ^ w

/-- The exact sum of IADDX. -/
def addx (w a b cin : Nat) (sub : Bool) : Nat :=
  a % 2 ^ w + (if sub then 2 ^ w - 1 - b % 2 ^ w else b % 2 ^ w) + cin

/-- IMULH: the high half of the exact product. -/
def mulHigh (t : Ty) (w a b : Nat) : Nat := wrapNat w ((intOf t w a * intOf t w b) / (2 ^ w : Nat))

/-- IDIV (R175). -/
def divide (t : Ty) (w a b : Nat) : Nat :=
  if b % 2 ^ w = 0 then 2 ^ w - 1 else wrapNat w (Int.tdiv (intOf t w a) (intOf t w b))

/-- IREM. -/
def remainder (t : Ty) (w a b : Nat) : Nat :=
  if b % 2 ^ w = 0 then a % 2 ^ w else wrapNat w (Int.tmod (intOf t w a) (intOf t w b))

/-- IABS (R176). -/
def absOf (w a : Nat) (sat : Bool) : Nat :=
  let x := sext w a
  let y := if x < 0 then -x else x
  wrapNat w (if sat && ((2 ^ (w - 1) : Nat) : Int) ≤ y then ((2 ^ (w - 1) : Nat) : Int) - 1 else y)

/-! ### Logic, shifts and fields (R177-R181) -/

/-- A number from its bits. -/
def ofBitFn (w : Nat) (f : Nat → Bool) : Nat := (List.range w).foldl (fun x i => if f i then x + 2 ^ i else x) 0

/-- BTAB. -/
def bitTable (w a b c tab : Nat) : Nat :=
  ofBitFn w fun i => bitNat tab (b2n (bitNat a i) + 2 * b2n (bitNat b i) + 4 * b2n (bitNat c i))

/-- The four shifts. -/
inductive Shift | shl | shr | sar | rot
  deriving DecidableEq, Repr

/-- One element shifted by n (R178). -/
def shiftOf (k : Shift) (w x n : Nat) : Nat :=
  match k with
  | .shl => if n < w then x * 2 ^ n % 2 ^ w else 0
  | .shr => if n < w then x % 2 ^ w / 2 ^ n else 0
  | .sar => wrapNat w (sext w x / (2 ^ n : Nat))
  | .rot => (x % 2 ^ w * 2 ^ (n % w) % 2 ^ w) + x % 2 ^ w / 2 ^ (w - n % w)

/-- SHF (R179). -/
def funnel (w a b n : Nat) (right : Bool) : Nat :=
  let F := a % 2 ^ w * 2 ^ w + b % 2 ^ w
  if right then F / 2 ^ n % 2 ^ w else F * 2 ^ n / 2 ^ w % 2 ^ w

/-- BFE (R180). -/
def extractField (t : Ty) (w a pos len : Nat) : Nat :=
  let len := min len w
  let f := ((intOf t w a / (2 ^ pos : Nat)) % (2 ^ len : Nat)).toNat
  if len = 0 then 0 else if signedTy t then wrapNat w (sext len f) else f

/-- BFI. -/
def insertField (w a b pos len : Nat) : Nat :=
  let mask := (2 ^ min len w - 1) * 2 ^ pos % 2 ^ w
  Nat.land (b % 2 ^ w) (2 ^ w - 1 - mask) + Nat.land (a * 2 ^ pos % 2 ^ w) mask

/-- CLZ. -/
def leadingZeros (w a : Nat) : Nat := if a % 2 ^ w = 0 then w else w - 1 - Nat.log2 (a % 2 ^ w)

/-- BREV. -/
def reverseBits (w a : Nat) : Nat := ofBitFn w fun i => bitNat a (w - 1 - i)

/-- The comparison of ISETP (R182). -/
def compareInt (c : Cmp) (x y : Int) : Bool :=
  match c with
  | .eq => x == y | .ne => x != y | .lt => x < y | .le => x ≤ y | .gt => y < x | .ge => y ≤ x

/-- Boolean combination. -/
def combine (b : Bop) (k c : Bool) : Bool :=
  match b with
  | .and => k && c | .or => k || c | .xor => Bool.xor k c

/-! ### Packed elements (R167, R186) -/

/-- Width of a sub-element of a Packed type. -/
def subWidth : Ty → Nat
  | .ui8x4 | .si8x4 => 8
  | _ => 16

/-- Whether a type is of INT's Packed group. -/
def isPacked (t : Ty) : Bool := Ty.packed.contains t

/-- Sub-element j. -/
def subAt (k x j : Nat) : Nat := x / 2 ^ (k * j) % 2 ^ k

/-- Apply a function to the sub-elements of two packed values. -/
def packed (k : Nat) (f : Nat → Nat → Nat) (x y : Nat) : Nat :=
  ((List.range (32 / k)).map fun j => f (subAt k x j) (subAt k y j) % 2 ^ k * 2 ^ (k * j)).foldl (· + ·) 0

/-- A packed B operand: an immediate is narrowed to every sub-element. -/
def Issue.packedB (I : Issue) (l : Nat) (o : Opd) (k : Nat) : Nat :=
  match o with
  | .imm v => packed k (fun _ _ => wrapNat k v.toInt) 0 0
  | _ => I.read l o 32

/-- PADD and PSUB of one pair. -/
def packAdd (t : Ty) (k : Nat) (mode : PackMode) (sub : Bool) (x y : Nat) : Nat :=
  let s := if sub then intOf t k x - intOf t k y else intOf t k x + intOf t k y
  match mode with
  | .wrap => wrapNat k s
  | .sat => wrapNat k (satInt s (minOf t k) (maxOf t k))
  | .satu => wrapNat k (satInt s 0 (((2 ^ k : Nat) : Int) - 1))

/-- One target of PACS (R187): the survivor and the decision. -/
def pacsHalf (t : Ty) (max : Bool) (a bm : Nat) : Nat × Bool :=
  let add (x y : Nat) : Nat := if t = .ui16x2 then min 65535 (x + y) else (x + y) % 65536
  let c0 := add (subAt 16 a 0) (subAt 16 bm 0)
  let c1 := add (subAt 16 a 1) (subAt 16 bm 1)
  let diff : Int := if t = .ui16x2 then (c1 : Int) - c0 else sext 16 (wrapNat 16 ((c1 : Int) - c0))
  let take1 := if max then 0 < diff else diff < 0
  (if take1 then c1 else c0, take1)

/-! ### Cell keys (R188) -/

/-- A finite FP32 value in units of 2^−149; none for NaN and infinities. -/
def f32Units (x : Nat) : Option Int :=
  let e := bitsNat x 30 23
  let m := bitsNat x 22 0
  if e = 255 then none
  else
    let u : Nat := if e = 0 then m else (2 ^ 23 + m) * 2 ^ (e - 1)
    some (if bitNat x 31 then -(u : Int) else u)

/-- Whether the descriptor of CELLKEY is refused. -/
def cellBad (inv d : Nat) : Bool :=
  let bx := bitsNat d 4 0
  let byw := bitsNat d 12 8
  let bz := bitsNat d 20 16
  let mode := bitsNat d 25 24
  bitsNat d 63 26 != 0 || bitsNat d 23 21 != 0 || bitsNat d 15 13 != 0 || bitsNat d 7 5 != 0 || 2 ≤ mode ||
  31 < bx + byw + bz || (mode == 1 && (bx != byw || !(bz == bx || bz == 0))) ||
  (match f32Units inv with | some n => n ≤ 0 | none => true)

/-- The cell index of one axis; none marks a position outside the grid. -/
def cellAxis (p o inv bits : Nat) (wrap : Bool) : Option Nat :=
  match f32Units p, f32Units o, f32Units inv with
  | some p, some o, some v =>
    let c : Int := if bits = 0 then 0 else ((p - o) * v) / (2 ^ 298 : Nat)
    if wrap then some (c % (2 ^ bits : Nat)).toNat
    else if 0 ≤ c ∧ c < (2 ^ bits : Nat) then some c.toNat else none
  | _, _, _ => none

/-- The key of a position. -/
def cellKey (x y z k0 k1 k2 : Nat) (wrap : Bool) : Nat :=
  let bx := bitsNat k2 4 0
  let byw := bitsNat k2 12 8
  let bz := bitsNat k2 20 16
  let inv := bitsNat k1 63 32
  match cellAxis x (bitsNat k0 31 0) inv bx wrap, cellAxis y (bitsNat k0 63 32) inv byw wrap,
    cellAxis z (bitsNat k1 31 0) inv bz wrap with
  | some cx, some cy, some cz =>
    if bitsNat k2 25 24 = 0 then cx + cy * 2 ^ bx + cz * 2 ^ (bx + byw)
    else
      let n := if bz = 0 then 2 else 3
      ofBitFn 32 fun i => i / n < bx && bitNat (if i % n = 0 then cx else if i % n = 1 then cy else cz) (i / n)
  | _, _, _ => 2 ^ 32 - 1

/-! ### The shapes of the forms -/

/-- One result of the type's width from A and B. -/
def Issue.int2 (I : Issue) (f : Fields) (g : Nat → Nat → Nat) : State :=
  let w := f.ty.regWidth
  I.perLane fun l => .ok [.reg f.d w (g (I.read l f.a w) (I.read l f.b w))]

/-- IADD and ISUB. -/
def Issue.addForm (I : Issue) (f : Fields) (sub sat : Bool) : State :=
  let w := f.ty.regWidth
  I.perLane fun l =>
    let a := I.read l f.a w
    let b := I.read l f.b w
    .ok [.reg f.d w (addSub f.ty w a b sub sat), .pred f.e (addSubCarry w a b sub)]

/-- IDIV and IREM: with `.TRAP` a zero divisor raises Integer Divide. -/
def Issue.divForm (I : Issue) (f : Fields) (trapEn : Bool) (g : Ty → Nat → Nat → Nat → Nat) : State :=
  let w := f.ty.regWidth
  I.perLane fun l =>
    let b := I.read l f.b w
    if trapEn && b == 0 then .trap (I.trapHere 0x12) else .ok [.reg f.d w (g f.ty w (I.read l f.a w) b)]

/-- The four shifts of a Bits or a Packed type (R178). -/
def Issue.shiftForm (I : Issue) (f : Fields) (k : Shift) : State :=
  let w := f.ty.regWidth
  I.perLane fun l =>
    let a := I.read l f.a w
    if isPacked f.ty then
      let e := subWidth f.ty
      .ok [.reg f.d 32 (packed e (fun x n => shiftOf k e x (n % 256)) a
        (match f.b with | .imm _ => packed e (fun _ _ => I.read l f.b 8) 0 0 | _ => I.read l f.b 32))]
    else .ok [.reg f.d w (shiftOf k w a (I.read l f.b 8))]

/-- PADD, PSUB, PMAX and PMIN. -/
def Issue.packForm (I : Issue) (f : Fields) (g : Nat → Nat → Nat) : State :=
  let k := subWidth f.ty
  I.perLane fun l => .ok [.reg f.d 32 (packed k g (I.read l f.a 32) (I.packedB l f.b k))]

/-! ### The forms (R172) -/

/-- IADD. -/
def execIadd (f : Fields) (sat : Bool) (s : State) : Host.Outcome State Fault Refusal :=
  withIssue (.iadd f sat) s fun I => I.addForm f false sat

/-- ISUB. -/
def execIsub (f : Fields) (sat : Bool) (s : State) : Host.Outcome State Fault Refusal :=
  withIssue (.isub f sat) s fun I => I.addForm f true sat

/-- IADDX. -/
def execIaddx (f : Fields) (sub : Bool) (s : State) : Host.Outcome State Fault Refusal :=
  withIssue (.iaddx f sub) s fun I =>
    let w := f.ty.regWidth
    I.perLane fun l =>
      let x := addx w (I.read l f.a w) (I.read l f.b w) (I.read l f.c 1) sub
      .ok [.reg f.d w (x % 2 ^ w), .pred f.e (2 ^ w ≤ x)]

/-- IMUL. -/
def execImul (f : Fields) (s : State) : Host.Outcome State Fault Refusal :=
  withIssue (.imul f) s fun I => I.int2 f fun a b => a * b % 2 ^ f.ty.regWidth

/-- IMULH. -/
def execImulh (f : Fields) (s : State) : Host.Outcome State Fault Refusal :=
  withIssue (.imulh f) s fun I => I.int2 f (mulHigh f.ty f.ty.regWidth)

/-- IMAD. -/
def execImad (f : Fields) (s : State) : Host.Outcome State Fault Refusal :=
  withIssue (.imad f) s fun I =>
    let w := f.ty.regWidth
    I.perLane fun l => .ok [.reg f.d w ((I.read l f.a w * I.read l f.b w + I.read l f.c w) % 2 ^ w)]

/-- IMADW. -/
def execImadw (f : Fields) (s : State) : Host.Outcome State Fault Refusal :=
  withIssue (.imadw f) s fun I =>
    I.perLane fun l =>
      .ok [.reg f.d 64 (wrapNat 64 (intOf f.ty 32 (I.read l f.a 32) * intOf f.ty 32 (I.read l f.b 32) + I.read l f.c 64))]

/-- IDIV. -/
def execIdiv (f : Fields) (trapEn : Bool) (s : State) : Host.Outcome State Fault Refusal :=
  withIssue (.idiv f trapEn) s fun I => I.divForm f trapEn divide

/-- IREM. -/
def execIrem (f : Fields) (trapEn : Bool) (s : State) : Host.Outcome State Fault Refusal :=
  withIssue (.irem f trapEn) s fun I => I.divForm f trapEn remainder

/-- IMIN. -/
def execImin (f : Fields) (s : State) : Host.Outcome State Fault Refusal :=
  withIssue (.imin f) s fun I =>
    I.int2 f fun a b => if intOf f.ty f.ty.regWidth a ≤ intOf f.ty f.ty.regWidth b then a else b

/-- IMAX. -/
def execImax (f : Fields) (s : State) : Host.Outcome State Fault Refusal :=
  withIssue (.imax f) s fun I =>
    I.int2 f fun a b => if intOf f.ty f.ty.regWidth a ≤ intOf f.ty f.ty.regWidth b then b else a

/-- IABS. -/
def execIabs (f : Fields) (sat : Bool) (s : State) : Host.Outcome State Fault Refusal :=
  withIssue (.iabs f sat) s fun I => I.int2 f fun a _ => absOf f.ty.regWidth a sat

/-- BTAB. -/
def execBtab (f : Fields) (s : State) : Host.Outcome State Fault Refusal :=
  withIssue (.btab f) s fun I =>
    let w := f.ty.regWidth
    I.perLane fun l =>
      .ok [.reg f.d w (bitTable w (I.read l f.a w) (I.read l f.b w) (I.read l f.c w) (I.read l f.e 8))]

/-- SHL. -/
def execShl (f : Fields) (s : State) : Host.Outcome State Fault Refusal :=
  withIssue (.shl f) s fun I => I.shiftForm f .shl

/-- SHR. -/
def execShr (f : Fields) (s : State) : Host.Outcome State Fault Refusal :=
  withIssue (.shr f) s fun I => I.shiftForm f .shr

/-- SAR. -/
def execSar (f : Fields) (s : State) : Host.Outcome State Fault Refusal :=
  withIssue (.sar f) s fun I => I.shiftForm f .sar

/-- ROT. -/
def execRot (f : Fields) (s : State) : Host.Outcome State Fault Refusal :=
  withIssue (.rot f) s fun I => I.shiftForm f .rot

/-- SHF. -/
def execShf (f : Fields) (right : Bool) (s : State) : Host.Outcome State Fault Refusal :=
  withIssue (.shf f right) s fun I =>
    let w := f.ty.regWidth
    I.perLane fun l => .ok [.reg f.d w (funnel w (I.read l f.a w) (I.read l f.b w) (I.read l f.c 8) right)]

/-- BFE. -/
def execBfe (f : Fields) (s : State) : Host.Outcome State Fault Refusal :=
  withIssue (.bfe f) s fun I =>
    let w := f.ty.regWidth
    I.perLane fun l => .ok [.reg f.d w (extractField f.ty w (I.read l f.a w) (I.read l f.b 8) (I.read l f.c 8))]

/-- BFI. -/
def execBfi (f : Fields) (s : State) : Host.Outcome State Fault Refusal :=
  withIssue (.bfi f) s fun I =>
    let w := f.ty.regWidth
    I.perLane fun l =>
      .ok [.reg f.d w (insertField w (I.read l f.a w) (I.read l f.b w) (I.read l f.c 8) (I.read l f.e 8))]

/-- POPC. -/
def execPopc (f : Fields) (s : State) : Host.Outcome State Fault Refusal :=
  withIssue (.popc f) s fun I =>
    let w := f.ty.regWidth
    I.perLane fun l => .ok [.reg f.d 32 (onesNat w (I.read l f.a w))]

/-- CLZ. -/
def execClz (f : Fields) (s : State) : Host.Outcome State Fault Refusal :=
  withIssue (.clz f) s fun I =>
    let w := f.ty.regWidth
    I.perLane fun l => .ok [.reg f.d 32 (leadingZeros w (I.read l f.a w))]

/-- BREV. -/
def execBrev (f : Fields) (s : State) : Host.Outcome State Fault Refusal :=
  withIssue (.brev f) s fun I => I.int2 f fun a _ => reverseBits f.ty.regWidth a

/-- The two predicates of ISETP and FSETP (R182, 06 R213): D gets k, E its negation, each combined with C. -/
def Issue.setPreds (I : Issue) (f : Fields) (bop : Bop) (l : Nat) (k : Bool) : List Put :=
  let c := match f.c with | .pred p => some ((I.thread l).pred p) | _ => none
  let out (b : Bool) : Bool := match c with | some c => combine bop b c | none => b
  [.pred f.d (out k), .pred f.e (out !k)]

/-- ISETP. -/
def execIsetp (f : Fields) (cmp : Cmp) (bop : Bop) (s : State) : Host.Outcome State Fault Refusal :=
  withIssue (.isetp f cmp bop) s fun I =>
    let w := f.ty.regWidth
    I.perLane fun l =>
      .ok (I.setPreds f bop l (compareInt cmp (intOf f.ty w (I.read l f.a w)) (intOf f.ty w (I.read l f.b w))))

/-- SEL. -/
def execSel (f : Fields) (s : State) : Host.Outcome State Fault Refusal :=
  withIssue (.sel f) s fun I =>
    let w := f.ty.regWidth
    I.perLane fun l => .ok [.reg f.d w (if I.read l f.c 1 = 1 then I.read l f.a w else I.read l f.b w)]

/-- MOV: from or to a special register as GETSR and SETSR (R183). -/
def execMov (f : Fields) (s : State) : Host.Outcome State Fault Refusal :=
  withIssue (.mov f) s fun I =>
    let w := f.ty.regWidth
    match f.a, f.d with
    | .sreg n, _ => I.readSpecial n.toNat f.d w
    | _, .sreg n => I.writeSpecial n.toNat (I.specialSource f.a w)
    | _, _ => I.perLane fun l => .ok [.reg f.d w (I.read l f.a w)]

/-- The value of MOVI (R184). -/
def moviValue (t : Ty) (w : Nat) (v : BitVec 36) : Nat :=
  match t with
  | .si32 | .si64 => wrapNat w v.toInt
  | _ => if w = 32 ∧ 2 ^ 32 ≤ v.toNat then wrapNat w v.toInt else v.toNat % 2 ^ w

/-- MOVI. -/
def execMovi (f : FieldsI) (hi : Bool) (s : State) : Host.Outcome State Fault Refusal :=
  withIssue (.movi f hi) s fun I =>
    let w := f.ty.regWidth
    I.perLane fun l =>
      .ok [.reg f.d w (if hi then f.imm.toNat % 2 ^ 32 * 2 ^ 32 + I.read l f.d 64 % 2 ^ 32 else moviValue f.ty w f.imm)]

/-- LEA (R185). -/
def execLea (f : Fields) (s : State) : Host.Outcome State Fault Refusal :=
  withIssue (.lea f) s fun I =>
    let w := f.ty.regWidth
    I.perLane fun l =>
      .ok [.reg f.d 64 (wrapNat 64 (I.read l f.a 64 + intOf f.ty w (I.read l f.b w) * (2 ^ I.read l f.c 8 : Nat)))]

/-- PADD. -/
def execPadd (f : Fields) (mode : PackMode) (s : State) : Host.Outcome State Fault Refusal :=
  withIssue (.padd f mode) s fun I => I.packForm f (packAdd f.ty (subWidth f.ty) mode false)

/-- PSUB. -/
def execPsub (f : Fields) (mode : PackMode) (s : State) : Host.Outcome State Fault Refusal :=
  withIssue (.psub f mode) s fun I => I.packForm f (packAdd f.ty (subWidth f.ty) mode true)

/-- PMAX. -/
def execPmax (f : Fields) (s : State) : Host.Outcome State Fault Refusal :=
  withIssue (.pmax f) s fun I =>
    I.packForm f fun x y => if intOf f.ty (subWidth f.ty) x ≤ intOf f.ty (subWidth f.ty) y then y else x

/-- PMIN. -/
def execPmin (f : Fields) (s : State) : Host.Outcome State Fault Refusal :=
  withIssue (.pmin f) s fun I =>
    I.packForm f fun x y => if intOf f.ty (subWidth f.ty) x ≤ intOf f.ty (subWidth f.ty) y then x else y

/-- PACS (R187). -/
def execPacs (f : Fields) (max : Bool) (s : State) : Host.Outcome State Fault Refusal :=
  withIssue (.pacs f max) s fun I =>
    let next : Opd := match f.e with | .pred p => .pred (p + 1) | o => o
    I.perLane fun l =>
      let lo := pacsHalf f.ty max (I.read l f.a 32) (I.read l f.b 32)
      let hi := pacsHalf f.ty max (I.read l f.a 32) (I.read l f.c 32)
      .ok [.reg f.d 32 (hi.1 * 65536 + lo.1), .pred f.e lo.2, .pred next hi.2]

/-- A uniform register some places after the one an operand names. -/
def Issue.uniAfter (I : Issue) (o : Opd) (n : Nat) : Nat :=
  match o with
  | .uni r => I.warp.uni (r.toNat + n)
  | _ => 0

/-- CELLKEY (R188). -/
def execCellkey (f : Fields) (wrap : Bool) (s : State) : Host.Outcome State Fault Refusal :=
  withIssue (.cellkey f wrap) s fun I =>
    let k0 := I.uniAfter f.e 0
    let k1 := I.uniAfter f.e 1
    let k2 := I.uniAfter f.e 2
    I.perLane fun l =>
      if cellBad (bitsNat k1 63 32) k2 then .trap (I.trapHere 0x0B)
      else .ok [.reg f.d 32 (cellKey (I.read l f.a 32) (I.read l f.b 32) (I.read l f.c 32) k0 k1 k2 wrap)]

end Sys2Proof.Machine
end

