-- ==== Sys2Proof/Machine/Flt.lean ====
section
/-! DEFINITION. The float engine (06): per-thread rounding, flushing, flags and traps (R197-R204), and its forms
(R209-R222). -/

namespace Sys2Proof.Machine

/-! ### The environment of a lane (R197, R202, R203, R207) -/

/-- The mode of a rounding field in a lane. -/
def Thread.mode (t : Thread) (rm : Rm) : Rm :=
  match rm with
  | .dyn => (Rm.ofBits (t.fenv.extractLsb' 8 3)).getD .rne
  | m => m

/-- Whether a format's class is flushed in a lane of a warp with a numeric version (R202). -/
def Thread.ftz (t : Thread) (nbv : BitVec 2) (F : Fmt) : Bool :=
  if F = fp32 then t.fenv.getLsbD 11
  else if F = fp64 then nbv == 1 && t.fenv.getLsbD 11
  else if F = fp16 ∨ F = bfp16 then t.fenv.getLsbD 12
  else false

/-- The format of an element of a type. -/
def fmtOf : Ty → Fmt
  | .f16 | .f16x2 => fp16
  | .bf16 | .bf16x2 => bfp16
  | .f64 => fp64
  | .sc24 => sc24
  | _ => fp32

/-- Whether a type is packed: two elements of 16 bits. -/
def isPacked2 : Ty → Bool
  | .f16x2 | .bf16x2 => true
  | _ => false

/-- The exceptions that a result raises: its flags, and UF by tininess (R203). -/
def FRes.raised (r : FRes) : BitVec 5 := if r.tiny then r.flags ||| flagUF else r.flags

/-- What an operation of one lane gives: its results, its flags, and the exceptions it raises. -/
structure FOut where
  puts   : List Put
  flags  : BitVec 5
  raised : BitVec 5
  deriving DecidableEq, Repr

/-- The lane writes its results and flags, or takes Float Exception and keeps its flags (R203). -/
def Issue.fout (I : Issue) (l : Nat) (o : FOut) : LaneOut :=
  let te : BitVec 5 := (I.thread l).fenv.extractLsb' 0 5
  if o.raised &&& te ≠ 0 then .trap (I.trapHere 0x13 0 o.raised.toNat) [.flags o.flags]
  else .ok (o.puts ++ [.flags o.flags])

/-- Several results, one for each element; their flags are united (R201). -/
def foutOf (puts : List Put) (rs : List FRes) : FOut :=
  ⟨puts, rs.foldl (fun b r => b ||| r.flags) 0, rs.foldl (fun b r => b ||| r.raised) 0⟩

/-! ### Sources (R189, R202, R208) -/

/-- The code of an immediate in a format: its integer value, exactly. -/
def Fmt.ofImm (F : Fmt) (v : BitVec 9) : Nat := (F.roundInt .rne false false v.toInt 0).code

/-- The code of element j of a source. -/
def Issue.fsrc (I : Issue) (l : Nat) (F : Fmt) (o : Opd) (j : Nat) : Nat :=
  match o with
  | .imm v => F.ofImm v
  | _ => if F.width = 16 then subAt 16 (I.read l o 32) j else I.read l o F.width

/-- The value of element j of a source, flushed by its class. -/
def Issue.fval (I : Issue) (l : Nat) (F : Fmt) (o : Opd) (j : Nat) : FVal :=
  let x := I.fsrc l F o j
  F.decode (if (I.thread l).ftz I.warp.nbv F then F.flush x else x)

/-! ### The shape of the element-wise forms -/

/-- An element-wise form: `g` gives each element's result from the lane's mode and its flush control. -/
def Issue.floatForm (I : Issue) (f : Fields) (rm : Rm) (g : Nat → Nat → Rm → Bool → FRes) : State :=
  let F := fmtOf f.ty
  I.perLane fun l =>
    let t := I.thread l
    let r (j : Nat) := g l j (t.mode rm) (t.ftz I.warp.nbv F)
    I.fout l
      (if isPacked2 f.ty then
        foutOf [.reg f.d 32 ((r 0).code % 65536 + (r 1).code % 65536 * 65536)] [r 0, r 1]
      else foutOf [.reg f.d f.ty.regWidth (r 0).code] [r 0])

/-- FADD (R210). -/
def execFadd (f : Fields) (rm : Rm) (s : State) : Host.Outcome State Fault Refusal :=
  withIssue (.fadd f rm) s fun I =>
    let F := fmtOf f.ty
    I.floatForm f rm fun l j m z => F.add m z (I.fval l F f.a j) (I.fval l F f.b j)

/-- FMUL (R210). -/
def execFmul (f : Fields) (rm : Rm) (s : State) : Host.Outcome State Fault Refusal :=
  withIssue (.fmul f rm) s fun I =>
    let F := fmtOf f.ty
    I.floatForm f rm fun l j m z => F.ofVal m z ((I.fval l F f.a j).mul (I.fval l F f.b j))

/-- FFMA (R210). -/
def execFfma (f : Fields) (rm : Rm) (s : State) : Host.Outcome State Fault Refusal :=
  withIssue (.ffma f rm) s fun I =>
    let F := fmtOf f.ty
    I.floatForm f rm fun l j m z => F.add m z ((I.fval l F f.a j).mul (I.fval l F f.b j)) (I.fval l F f.c j)

/-- HFMA2 (R211): element j of C and D is register j of the pair. -/
def execHfma2 (f : Fields) (rm : Rm) (s : State) : Host.Outcome State Fault Refusal :=
  withIssue (.hfma2 f rm) s fun I =>
    let F := fmtOf f.ty
    I.perLane fun l =>
      let t := I.thread l
      let z := t.ftz I.warp.nbv fp32
      let c (j : Nat) : Nat := subAt 32 (I.read l f.c 64) j
      let r (j : Nat) : FRes :=
        fp32.add (t.mode rm) z ((I.fval l F f.a j).mul (I.fval l F f.b j)) (fp32.decode (if z then fp32.flush (c j) else c j))
      I.fout l (foutOf [.reg f.d 64 ((r 0).code + (r 1).code * 2 ^ 32)] [r 0, r 1])

/-! ### Minimum, maximum, comparison (R212, R213) -/

/-- Whether a number is below another, with −0 below +0. -/
def FVal.below (a b : FVal) : Bool :=
  match a, b with
  | .inf x, .inf y => x && !y
  | .inf x, _ => x
  | _, .inf y => !y
  | .fin x m e, .fin y n f =>
    if m = 0 ∧ n = 0 then x && !y
    else if x ≠ y then x
    else if x then !magLe m e n f && m != 0
    else !magLe n f m e && n != 0
  | _, _ => false

/-- A value back in its format. -/
def Fmt.codeOf (F : Fmt) : FVal → Nat
  | .nan _ => F.nanCode
  | .inf n => F.infCode n
  | .fin n m e => F.encode n m e

/-- FMIN and FMAX of one element. -/
def minMax (F : Fmt) (max nan : Bool) (a b : FVal) : FRes :=
  let nv : BitVec 5 := if a.isSig || b.isSig then flagNV else 0
  let pick : FVal :=
    match a, b with
    | .nan _, .nan _ => a
    | .nan _, _ => if nan then a else b
    | _, .nan _ => if nan then b else a
    | _, _ => if (if max then a.below b else b.below a) then b else a
  ⟨F.codeOf pick, nv, false⟩

/-- FMIN. -/
def execFmin (f : Fields) (nan : Bool) (s : State) : Host.Outcome State Fault Refusal :=
  withIssue (.fmin f nan) s fun I =>
    let F := fmtOf f.ty
    I.floatForm f .rne fun l j _ _ => minMax F false nan (I.fval l F f.a j) (I.fval l F f.b j)

/-- FMAX. -/
def execFmax (f : Fields) (nan : Bool) (s : State) : Host.Outcome State Fault Refusal :=
  withIssue (.fmax f nan) s fun I =>
    let F := fmtOf f.ty
    I.floatForm f .rne fun l j _ _ => minMax F true nan (I.fval l F f.a j) (I.fval l F f.b j)

/-- Whether a value is a zero. -/
def FVal.isZero : FVal → Bool
  | .fin _ m _ => m == 0
  | _ => false

/-- The relation of FSETP, and whether it sets NV (R213). -/
def floatCmp (cmp : FCmp) (unord : Bool) (a b : FVal) : Bool × Bool :=
  let sig := a.isSig || b.isSig
  if a.isNan || b.isNan then
    match cmp with
    | .eq => (unord, sig)
    | .lt | .le | .gt | .ge => (unord, sig || !unord)
    | .ne | .nan => (true, sig)
    | .num => (false, sig)
  else
    let zeros := a.isZero && b.isZero
    let lt := !zeros && a.below b
    let gt := !zeros && b.below a
    match cmp with
    | .eq => (!lt && !gt, false)
    | .ne => (lt || gt, false)
    | .lt => (lt, false)
    | .le => (!gt, false)
    | .gt => (gt, false)
    | .ge => (!lt, false)
    | .num => (true, false)
    | .nan => (false, false)

/-- FSETP. -/
def execFsetp (f : Fields) (cmp : FCmp) (unord : Bool) (bop : Bop) (s : State) : Host.Outcome State Fault Refusal :=
  withIssue (.fsetp f cmp unord bop) s fun I =>
    let F := fmtOf f.ty
    I.perLane fun l =>
      let k := floatCmp cmp unord (I.fval l F f.a 0) (I.fval l F f.b 0)
      let nv : BitVec 5 := if k.2 then flagNV else 0
      I.fout l ⟨I.setPreds f bop l k.1, nv, nv⟩

/-! ### Division, roots and the special functions (R214, R215) -/

/-- Round a magnitude. -/
def Fmt.roundMag (F : Fmt) (rm : Rm) (ftz neg : Bool) (x : Nat × Int) : FRes := F.round rm ftz neg x.1 x.2

/-- FDIV. -/
def divRes (F : Fmt) (rm : Rm) (ftz : Bool) (a b : FVal) : FRes :=
  let n := Bool.xor a.neg b.neg
  match a, b with
  | .nan _, _ | _, .nan _ => F.nanRes (a.isSig || b.isSig)
  | .inf _, .inf _ => F.nanRes true
  | .inf _, _ => ⟨F.infCode n, 0, false⟩
  | _, .inf _ => ⟨F.zeroCode n, 0, false⟩
  | .fin _ m e, .fin _ k g =>
    if m = 0 ∧ k = 0 then F.nanRes true
    else if k = 0 then ⟨F.infCode n, flagDZ, false⟩
    else if m = 0 then ⟨F.zeroCode n, 0, false⟩
    else F.roundMag rm ftz n (quotMag m e k g)

/-- FSQRT. -/
def sqrtRes (F : Fmt) (rm : Rm) (ftz : Bool) (a : FVal) : FRes :=
  match a with
  | .nan s => F.nanRes s
  | .inf n => if n then F.nanRes true else ⟨F.infCode false, 0, false⟩
  | .fin n m e =>
    if m = 0 then ⟨F.zeroCode n, 0, false⟩ else if n then F.nanRes true else F.roundMag rm ftz false (sqrtMag m e)

/-- RSQ. -/
def rsqRes (F : Fmt) (rm : Rm) (ftz : Bool) (a : FVal) : FRes :=
  match a with
  | .nan s => F.nanRes s
  | .inf n => if n then F.nanRes true else ⟨F.zeroCode false, 0, false⟩
  | .fin n m e =>
    if m = 0 then ⟨F.infCode n, flagDZ, false⟩
    else if n then F.nanRes true else F.roundMag rm ftz false (rsqrtMag m e)

/-- EXP2. -/
def exp2Res (F : Fmt) (rm : Rm) (ftz : Bool) (a : FVal) : FRes :=
  match a with
  | .nan s => F.nanRes s
  | .inf n => ⟨if n then F.zeroCode false else F.infCode false, 0, false⟩
  | .fin n m e => if m = 0 then F.round rm ftz false 1 0 else F.roundMag rm ftz false (exp2Mag n m e)

/-- LOG2. -/
def log2Res (F : Fmt) (rm : Rm) (ftz : Bool) (a : FVal) : FRes :=
  match a with
  | .nan s => F.nanRes s
  | .inf n => if n then F.nanRes true else ⟨F.infCode false, 0, false⟩
  | .fin n m e =>
    if m = 0 then ⟨F.infCode true, flagDZ, false⟩
    else if n then F.nanRes true
    else
      let r := log2Mag m e
      F.roundMag rm ftz r.1 r.2

/-- SIN: an integer gives a zero of its own sign. -/
def sinRes (F : Fmt) (rm : Rm) (ftz : Bool) (a : FVal) : FRes :=
  match a with
  | .nan s => F.nanRes s
  | .inf _ => F.nanRes true
  | .fin n m e =>
    if m = 0 then ⟨F.zeroCode n, 0, false⟩
    else
      match turnsOf m e with
      | none => ⟨F.zeroCode n, 0, false⟩
      | some x =>
        let r := sinTurns x
        F.roundMag rm ftz (Bool.xor n r.1) r.2

/-- COS: sin(pi (|x| + 1/2)). -/
def cosRes (F : Fmt) (rm : Rm) (ftz : Bool) (a : FVal) : FRes :=
  match a with
  | .nan s => F.nanRes s
  | .inf _ => F.nanRes true
  | .fin _ m e =>
    match turnsOf m e with
    | none => F.round rm ftz (if 0 < e then false else (m * 2 ^ e.toNat / 2 ^ (-e).toNat) % 2 == 1) 1 0
    | some x =>
      let r := sinTurns (x + 2 ^ 383)
      if r.2.1 = 0 then ⟨F.zeroCode false, 0, false⟩ else F.roundMag rm ftz r.1 r.2

/-- A form of one source. -/
def Issue.floatUnary (I : Issue) (f : Fields) (rm : Rm) (g : Fmt → Rm → Bool → FVal → FRes) : State :=
  let F := fmtOf f.ty
  I.floatForm f rm fun l j m z => g F m z (I.fval l F f.a j)

/-- FDIV. -/
def execFdiv (f : Fields) (rm : Rm) (s : State) : Host.Outcome State Fault Refusal :=
  withIssue (.fdiv f rm) s fun I =>
    let F := fmtOf f.ty
    I.floatForm f rm fun l j m z => divRes F m z (I.fval l F f.a j) (I.fval l F f.b j)

/-- FSQRT. -/
def execFsqrt (f : Fields) (rm : Rm) (s : State) : Host.Outcome State Fault Refusal :=
  withIssue (.fsqrt f rm) s fun I => I.floatUnary f rm sqrtRes

/-- RCP. -/
def execRcp (f : Fields) (rm : Rm) (s : State) : Host.Outcome State Fault Refusal :=
  withIssue (.rcp f rm) s fun I => I.floatUnary f rm fun F m z a => divRes F m z (.fin false 1 0) a

/-- RSQ. -/
def execRsq (f : Fields) (rm : Rm) (s : State) : Host.Outcome State Fault Refusal :=
  withIssue (.rsq f rm) s fun I => I.floatUnary f rm rsqRes

/-- EXP2. -/
def execExp2 (f : Fields) (rm : Rm) (s : State) : Host.Outcome State Fault Refusal :=
  withIssue (.exp2 f rm) s fun I => I.floatUnary f rm exp2Res

/-- LOG2. -/
def execLog2 (f : Fields) (rm : Rm) (s : State) : Host.Outcome State Fault Refusal :=
  withIssue (.log2 f rm) s fun I => I.floatUnary f rm log2Res

/-- SIN. -/
def execSin (f : Fields) (rm : Rm) (s : State) : Host.Outcome State Fault Refusal :=
  withIssue (.sin f rm) s fun I => I.floatUnary f rm sinRes

/-- COS. -/
def execCos (f : Fields) (rm : Rm) (s : State) : Host.Outcome State Fault Refusal :=
  withIssue (.cos f rm) s fun I => I.floatUnary f rm cosRes

/-! ### The four remaining arithmetic forms (R216) -/

/-- FRND of one element. -/
def frndRes (F : Fmt) (rm : Rm) (_ftz : Bool) (a : FVal) : FRes :=
  match a with
  | .nan s => F.nanRes s
  | .inf n => ⟨F.infCode n, 0, false⟩
  | .fin n m e =>
    let r := roundAt rm n m e 0
    if 0 ≤ e then ⟨F.encode n m e, 0, false⟩ else ⟨F.encode n r.1 0, if r.2 then flagNX else 0, false⟩

/-- FRND. -/
def execFrnd (f : Fields) (rm : Rm) (s : State) : Host.Outcome State Fault Refusal :=
  withIssue (.frnd f rm) s fun I => I.floatUnary f rm frndRes

/-- FSCALE. -/
def execFscale (f : Fields) (rm : Rm) (s : State) : Host.Outcome State Fault Refusal :=
  withIssue (.fscale f rm) s fun I =>
    let F := fmtOf f.ty
    I.floatForm f rm fun l j m z =>
      match I.fval l F f.a j with
      | .fin n k e => F.round m z n k (e + I.readInt l f.b 32)
      | v => F.ofVal m z v

/-- FGETEXP of one value. -/
def getexpRes (a : FVal) : FRes :=
  match a with
  | .nan _ => ⟨0x80000000, flagNV, false⟩
  | .inf _ => ⟨0x7FFFFFFF, flagNV, false⟩
  | .fin _ m e => if m = 0 then ⟨0x80000000, flagNV, false⟩ else ⟨wrapNat 32 (topExp m e), 0, false⟩

/-- FGETEXP. -/
def execFgetexp (f : Fields) (s : State) : Host.Outcome State Fault Refusal :=
  withIssue (.fgetexp f) s fun I =>
    I.perLane fun l =>
      let r := getexpRes (I.fval l (fmtOf f.ty) f.a 0)
      I.fout l (foutOf [.reg f.d 32 r.code] [r])

/-- The class mask of a code. -/
def classMask (F : Fmt) (x : Nat) : Nat :=
  let n := F.signOf x
  match F.decode x with
  | .nan sig => if sig then 0x100 else 0x200
  | .inf _ => if n then 0x001 else 0x080
  | .fin _ m _ =>
    if m = 0 then (if n then 0x008 else 0x010)
    else if F.expOf x = 0 then (if n then 0x004 else 0x020)
    else (if n then 0x002 else 0x040)

/-- FCLASS: no flush and no flag. -/
def execFclass (f : Fields) (s : State) : Host.Outcome State Fault Refusal :=
  withIssue (.fclass f) s fun I =>
    let F := fmtOf f.ty
    I.perLane fun l => .ok [.reg f.d 32 (classMask F (I.fsrc l F f.a 0))]

/-! ### Conversions (R217-R220) -/

/-- The format of a source code. -/
def srcFmt : SrcFmt → Fmt
  | .f16 | .f16h => fp16
  | .bf16 | .bf16h => bfp16
  | .f32 => fp32
  | .f64 => fp64
  | .sc24 => sc24
  | .acc40 => acc40

/-- The source of CVT and CVTI in a lane, flushed by its class. -/
def Issue.cvtSrc (I : Issue) (l : Nat) (src : SrcFmt) (o : Opd) : FVal :=
  let F := srcFmt src
  let x : Nat :=
    match src with
    | .f16h | .bf16h => subAt 16 (I.read l o 32) 1
    | .acc40 => I.read l o 64 % 2 ^ 40
    | .sc24 => I.read l o 32 % 2 ^ 24
    | _ => I.fsrc l F o 0
  F.decode (if (I.thread l).ftz I.warp.nbv F then F.flush x else x)

/-- CVT. -/
def execCvt (f : Fields) (rm : Rm) (src : SrcFmt) (s : State) : Host.Outcome State Fault Refusal :=
  withIssue (.cvt f rm src) s fun I =>
    let F := fmtOf f.ty
    I.floatForm f rm fun l j m z => F.ofVal m z (I.cvtSrc l src (if j = 0 then f.a else f.b))

/-- CVTI of one value into an integer type. -/
def cvtiRes (t : Ty) (w : Nat) (rm : Rm) (a : FVal) : FRes :=
  let lim (n : Bool) : FRes := ⟨wrapNat w (if n then minOf t w else maxOf t w), flagNV, false⟩
  match a with
  | .nan _ => ⟨0, flagNV, false⟩
  | .inf n => lim n
  | .fin n m e =>
    if m ≠ 0 ∧ 64 < topExp m e then lim n
    else
      let r := roundAt rm n m e 0
      let x : Int := if n then -(r.1 : Int) else r.1
      if x < minOf t w ∨ maxOf t w < x then lim n else ⟨wrapNat w x, if r.2 then flagNX else 0, false⟩

/-- CVTI. -/
def execCvti (f : Fields) (rm : Rm) (src : SrcFmt) (s : State) : Host.Outcome State Fault Refusal :=
  withIssue (.cvti f rm src) s fun I =>
    let w := f.ty.regWidth
    I.perLane fun l =>
      let r := cvtiRes f.ty w ((I.thread l).mode rm) (I.cvtSrc l src f.a)
      I.fout l (foutOf [.reg f.d w r.code] [r])

/-- The integer source of CVTF. -/
def Issue.cvtfSrc (I : Issue) (l : Nat) (src : IntSrc) (o : Opd) : Int :=
  match src with
  | .ui32 => I.read l o 32
  | .si32 => I.readInt l o 32
  | .ui64 => I.read l o 64
  | .si64 => I.readInt l o 64

/-- CVTF. -/
def execCvtf (f : Fields) (rm : Rm) (src : IntSrc) (s : State) : Host.Outcome State Fault Refusal :=
  withIssue (.cvtf f rm src) s fun I =>
    I.floatForm f rm fun l _ m z => (fmtOf f.ty).roundInt m z false (I.cvtfSrc l src f.a) 0

/-! #### binary8 (R192-R194, R220) -/

/-- Precision K. -/
def b8Prec (v : Variant) : Nat := v.k.val + 1
/-- Exponent width W. -/
def b8Ew (v : Variant) : Nat := if v.uns then 9 - (b8Prec v) else 8 - (b8Prec v)
/-- Bias B. -/
def b8Bias (v : Variant) : Int := ((2 ^ ((b8Ew v) - 1) : Nat) : Int)
/-- The NaN. -/
def b8NanCode (v : Variant) : Nat := if v.uns then 0xFF else 0x80
/-- The largest finite code. -/
def b8MaxCode (v : Variant) : Nat := (if v.uns then 0xFE else 0x7F) - (if v.fin then 0 else 1)

/-- The magnitude of a code without its sign, by the formula of R192. -/
def b8MagOf (v : Variant) (c : Nat) : Nat × Int :=
  let F := (b8Prec v) - 1
  let e := c / 2 ^ F
  let f := c % 2 ^ F
  if e = 0 then (f, 1 - (b8Bias v) - F) else (2 ^ F + f, (e : Int) - (b8Bias v) - F)

/-- The value of a code. -/
def b8Decode (v : Variant) (c : Nat) : FVal :=
  if c = (b8NanCode v) then .nan false
  else if v.uns then
    if !v.fin && c == 0xFE then .inf false else .fin false (b8MagOf v c).1 (b8MagOf v c).2
  else if !v.fin && c % 128 == 0x7F then .inf (128 ≤ c)
  else .fin (128 ≤ c) (b8MagOf v (c % 128)).1 (b8MagOf v (c % 128)).2

/-- The grid. -/
def b8Grid (v : Variant) : Grid := ⟨(b8Prec v), 1 - (b8Bias v), (b8MagOf v (b8MaxCode v)).1, (b8MagOf v (b8MaxCode v)).2⟩

/-- The code of a magnitude on the grid. -/
def b8Encode (v : Variant) (m : Nat) (e : Int) : Nat :=
  if m = 0 then 0
  else
    let F : Int := ((b8Prec v) - 1 : Nat)
    let t := topExp m e
    let u := if t < 1 - (b8Bias v) then 1 - (b8Bias v) - F else t - F
    let q := if u ≤ e then m * 2 ^ (e - u).toNat else m / 2 ^ (u - e).toNat
    if t < 1 - (b8Bias v) then q else (t + (b8Bias v)).toNat * 2 ^ F.toNat + q % 2 ^ F.toNat

/-- The code of a magnitude with a sign. -/
def b8Signed (v : Variant) (neg : Bool) (c : Nat) : Nat := if v.uns || c == 0 then c else b2n neg * 128 + c

/-- Narrowing of one value (R220). -/
def b8Narrow (v : Variant) (rm : Rm) (a : FVal) : FRes :=
  match a with
  | .nan s => ⟨(b8NanCode v), if s then flagNV else 0, false⟩
  | .inf n =>
    if v.uns && n then ⟨0xFF, flagNV, false⟩
    else if v.fin then ⟨b8Signed v n (b8MaxCode v), flagOF ||| flagNX, false⟩
    else ⟨if v.uns then 0xFE else b2n n * 128 + 0x7F, 0, false⟩
  | .fin n m e =>
    let r := (b8Grid v).round rm n m e
    if v.uns && n && m != 0 then
      if !r.overflow && r.m == 0 then ⟨0, flagNX, false⟩ else ⟨0xFF, flagNV, false⟩
    else if r.overflow then
      ⟨if v.fin || !overInf rm n then b8Signed v n (b8MaxCode v) else if v.uns then 0xFE else b2n n * 128 + 0x7F,
        flagOF ||| flagNX, false⟩
    else
      ⟨b8Signed v n (b8Encode v r.m r.e),
        (if r.inexact then flagNX else 0) ||| (if r.tiny && r.inexact then flagUF else 0), r.tiny⟩

/-- CVT8: narrowing rounds in the lane's `%fenv.RM`; widening is exact. -/
def execCvt8 (f : Fields) (var : Variant) (wide : Bool) (s : State) : Host.Outcome State Fault Refusal :=
  withIssue (.cvt8 f var wide) s fun I =>
    let n := if f.ty = .e8x4 then 4 else 1
    I.perLane fun l =>
      let t := I.thread l
      let z := t.ftz I.warp.nbv fp32
      let join (k : Nat) (rs : List FRes) : Nat := (rs.mapIdx fun j r => r.code * 2 ^ (k * j)).foldl (· + ·) 0
      if wide then
        let rs := (List.range n).map fun j =>
          match b8Decode var (subAt 8 (I.read l f.a 32) j) with
          | .nan _ => fp32.nanRes false
          | v => fp32.ofVal .rne z v
        I.fout l (foutOf [.reg f.d (32 * n) (join 32 rs)] rs)
      else
        let rs := ([f.a, f.b, f.c, f.e].take n).map fun o => b8Narrow var (t.mode .dyn) (I.fval l fp32 o 0)
        I.fout l (foutOf [.reg f.d 32 (join 8 rs)] rs)

/-! ### Flags and environment (R221, R222) -/

/-- FFLAGS. -/
def execFflags (f : Fields) (s : State) : Host.Outcome State Fault Refusal :=
  withIssue (.fflags f) s fun I =>
    let s := I.perLane fun l => .ok [.reg f.d 32 (I.thread l).fflags.toNat]
    (I.lanes.filter fun l => (I.indirectOut l).isNone).foldl (fun s l =>
      s.setThread I.cid I.wi l fun t => { t with fflags := t.fflags &&& ~~~(BitVec.ofNat 5 (I.read l f.a 32)) }) s

/-- `%fenv` after FENV. -/
def Issue.newEnv (I : Issue) (f : Fields) (l : Nat) : BitVec 13 :=
  let m : BitVec 13 := BitVec.ofNat 13 (I.read l f.b 32) &&& 0x1F1F
  ((I.thread l).fenv &&& ~~~m) ||| (BitVec.ofNat 13 (I.read l f.a 32) &&& m)

/-- FENV. -/
def execFenv (f : Fields) (s : State) : Host.Outcome State Fault Refusal :=
  withIssue (.fenv f) s fun I =>
    let bad (l : Nat) : Bool := 3 < ((I.newEnv f l).extractLsb' 8 3).toNat
    let s := I.perLane fun l =>
      if bad l then .trap (I.trapHere 0x0B) else .ok [.reg f.d 32 (I.thread l).fenv.toNat]
    (I.lanes.filter fun l => (I.indirectOut l).isNone && !bad l).foldl (fun s l =>
      s.setThread I.cid I.wi l fun t => { t with fenv := I.newEnv f l }) s

end Sys2Proof.Machine
end

