-- ==== Sys2Proof/Machine/Seq.lean ====
section
/-! DEFINITION. The sequencer engine's forms (04), but for the phase-barrier forms: control transfer and the call stack,
join points, named barriers, the token instructions, GETSR and SETSR. -/

namespace Sys2Proof.Machine

/-! ### Control transfer (04 R129, R130; 02 R48, R53) -/

/-- A branch target in J format (02 R71). -/
def jumpTarget (pc : VAddr) (f : FieldsJ) : Nat :=
  (lineBase pc + (f.off.signExtend 57) * 64 + BitVec.ofNat 57 (12 * f.slot.val)).toNat

/-- One lane moves to a target: `check` asks for LW.TGT, and `commit` is step 3 of R130, which may end in a trap of the
transfer instead. A fault of orders 1 to 4 at the target is taken there, with the check owed. An address beyond 2^57 that a
RET pops takes Address Range, as that of BRX and CALLX does (DESIGN CHOICE, log 24). -/
def Issue.moveTo (I : Issue) (s : State) (l target : Nat) (check : Bool) (commit : State → State × Option Trap) : State :=
  let trap (c d : Nat) : State := s.trap I.cid I.wi l (I.trapHere c d)
  let pc : VAddr := BitVec.ofNat 57 target
  if 2 ^ 57 ≤ target then trap 0x0C target
  else
    match slotIndex pc with
    | none => trap 0x05 target
    | some n =>
      match s.enterLine I.cid I.wi pc with
      | (s1, .error e) =>
        match commit s1 with
        | (s2, some t) => s2.trap I.cid I.wi l t
        | (s2, none) =>
          (s2.setThread I.cid I.wi l fun t => { t with pc := pc, line := none }).trap I.cid I.wi l
            { cause := e.cause, pc := pc, info := e.info % 16 + (if check then 16 else 0), detail := e.line.setWidth 64 }
      | (s1, .ok ln) =>
        if check && !tgtBit ln.bits n then s1.trap I.cid I.wi l (I.trapHere 0x05 target)
        else
          match commit s1 with
          | (s2, some t) => s2.trap I.cid I.wi l t
          | (s2, none) => s2.setThread I.cid I.wi l fun t => { t with pc := pc, line := some ln, fresh := true, owed := false }

/-- A stack access of a lane is lost for good: the lasting error is logged, and its trap is due (01 R44; 04 R130). -/
def Issue.stackLost (I : Issue) (s : State) (l off kind : Nat) : State × Option Trap :=
  let s := s.setThread I.cid I.wi l fun t => { t with lostStack := false }
  (s.logErr 2 kind (coreOrigin .seq I.core 0) (BitVec.ofNat 64 (s.localBase I.crew I.warp.slot I.wi l + off)) I.crew.launch 0,
    some (I.trapHere 0x0E off 3))

/-- Who accesses a thread's stack: its core's data TLB, with the SEQ as engine. -/
def Issue.who (I : Issue) (e : Engine) (tok : Nat) : Who :=
  { crew := some I.cid, asid := I.asid, loc := .data I.core, core := I.core, wslot := I.warp.slot, tok, engine := e }

/-- Step 1 of R130 for a stack access at an offset: go on with the parts, or the lane waits or traps. -/
def Issue.stackReach (I : Issue) (s : State) (l off : Nat) (write : Bool) (k : State → List Part → State) : State :=
  let va := s.localBase I.crew I.warp.slot I.wi l + off
  let trap (s : State) (info : Nat) : State := s.trap I.cid I.wi l (I.trapHere 0x0E off info)
  let who := I.who .seq 0
  match s.reach who va 8 write { r := !write, w := write } with
  | (s, .ok ps) => k s ps
  | (s, .error g) =>
    match g with
    | .fault v kd lv e =>
      let i : FaultInfo :=
        { die := I.die, asid := I.asid, va := v, core := I.core, wslot := I.warp.slot, access := if write then accWrite else accRead, engine := .seq }
      match s.fault i kd lv e (some (.stack I.cid I.wi l)) with
      | (s, .waits) => s.setThread I.cid I.wi l fun t => { t with run := .stackFault }
      | (s, .fails c) => trap s (if c = 5 then 2 else 1)
    | .park d r => s.request requestFuel d r 1
    | .recall h share =>
      if (I.thread l).lostStack then trap (s.setThread I.cid I.wi l fun t => { t with lostStack := false }) 3
      else (s.startRecall h share).setThread I.cid I.wi l fun t => { t with stackRecall := some (h, I.pc) }
    | .fail c _ => trap s (if c = 5 then 2 else if c = 2 ∨ c = 13 then 3 else 1)
    | .recipeWrite _ => s.stopRecompute I.cid
    | .go _ _ | .later => s

/-- push and the transfer, in the steps of 04 R130: a push whose write is lost leaves its bytes written or not, as a free value
has it. The detail of a push below offset 0 is `%csp` (DESIGN CHOICE, log 24). -/
def Issue.callTo (I : Issue) (s : State) (l target : Nat) : State :=
  let csp := (I.thread l).csp.toNat
  if 2 ^ 57 ≤ target then s.trap I.cid I.wi l (I.trapHere 0x0C target)
  else if csp < 8 then s.trap I.cid I.wi l (I.trapHere 0x0E csp)
  else
    I.stackReach s l (csp - 8) true fun s ps =>
      I.moveTo s l target true fun s =>
        let put := s.writeParts ps (leBytes 8 (successor I.pc).toNat)
        if (I.thread l).lostStack then
          let t : State := if Config.rowLanded s.nextId l then put else s
          I.stackLost { t with nextId := s.nextId + 1 } l (csp - 8) 7
        else (put.setThread I.cid I.wi l fun t => { t with csp := t.csp - 8 }, none)

/-- pop and the transfer. -/
def Issue.retFrom (I : Issue) (s : State) (l : Nat) : State :=
  let csp := (I.thread l).csp.toNat
  if I.crew.lsize.toNat < csp + 8 then s.trap I.cid I.wi l (I.trapHere 0x0E csp)
  else
    I.stackReach s l csp false fun s ps =>
      if (I.thread l).lostStack then
        match I.stackLost s l csp 2 with
        | (s, some t) => s.trap I.cid I.wi l t
        | (s, none) => s
      else
        I.moveTo s l (leNat (s.readParts ps)) false fun s =>
          (s.setThread I.cid I.wi l fun t => { t with csp := t.csp + 8 }, none)

/-- A transfer of each issuing thread; the others go on at the successor. -/
def Issue.transfer (I : Issue) (f : State → Nat → State) : State :=
  let s := I.s.advance I.cid I.wi (I.mask &&& ~~~I.act)
  I.lanes.foldl (fun s l => match I.indirectOut l with | some t => s.trap I.cid I.wi l t | none => f s l) s

/-- BRA (04 R129). -/
def execBra (f : FieldsJ) (s : State) : Host.Outcome State Fault Refusal :=
  withIssue (.bra f) s fun I => I.transfer fun s l => I.moveTo s l (jumpTarget I.pc f) true fun s => (s, none)

/-- CALL. -/
def execCall (f : FieldsJ) (s : State) : Host.Outcome State Fault Refusal :=
  withIssue (.call f) s fun I => I.transfer fun s l => I.callTo s l (jumpTarget I.pc f)

/-- BRX. -/
def execBrx (f : Fields) (s : State) : Host.Outcome State Fault Refusal :=
  withIssue (.brx f) s fun I => I.transfer fun s l => I.moveTo s l (I.read l f.a 64) true fun s => (s, none)

/-- CALLX. -/
def execCallx (f : Fields) (s : State) : Host.Outcome State Fault Refusal :=
  withIssue (.callx f) s fun I => I.transfer fun s l => I.callTo s l (I.read l f.a 64)

/-- RET. -/
def execRet (f : Fields) (s : State) : Host.Outcome State Fault Refusal :=
  withIssue (.ret f) s fun I => I.transfer fun s l => I.retFrom s l

/-- The end of threads (04 R131; 17 R472, R478): each leaves every join point, and its handler if it is in one. -/
def Warp.exitLanes (w : Warp) (lanes : Mask) : Warp :=
  let ended : Warp :=
    { w with threads := w.threads.mapIdx fun l t =>
        if lanes.getLsbD l then { t with run := .ended, tmode := t.tmode &&& ~~~1 } else t }
  ((lanesOf lanes).foldl (fun w l => if w.waitFor.getLsbD l then w.leaveHandler l else w) ended).leaveJoins lanes

/-- EXIT. -/
def execExit (f : Fields) (s : State) : Host.Outcome State Fault Refusal :=
  withIssue (.exit f) s fun I =>
    (I.s.advance I.cid I.wi (I.mask &&& ~~~I.act)).setWarp I.cid I.wi fun w => w.exitLanes I.act

/-- NOP (04 R131). -/
def execNop (f : Fields) (s : State) : Host.Outcome State Fault Refusal :=
  withIssue (.nop f) s fun I => I.done

/-! ### YIELD, watchdog, traps (04 R141-R143) -/

/-- The warp passes a progress point: its watchdog count returns to 0 (01 R36, R38). -/
def Warp.progress (w : Warp) : Warp := { w with wdCount := 0 }

/-- The warp is scheduled as after a YIELD: every other warp of its quadrant that can issue comes first, for at most 16
cycles (04 R141). -/
def State.yieldWarp (s : State) (id w : Nat) : State :=
  match s.crew? id, s.warp? id w with
  | some c, some x =>
    let others := s.crews.flatMap fun k =>
      if k.core == c.core then
        (k.warps.filter fun y => y.slot / 16 == x.slot / 16 && y.slot != x.slot && y.threads.any Thread.ready).map Warp.slot
      else []
    s.setWarp id w fun y => { y.progress with yieldTo := others, yieldCy := 16 }
  | _, _ => s

/-- YIELD. -/
def execYield (f : Fields) (s : State) : Host.Outcome State Fault Refusal :=
  withIssue (.yield f) s fun I => I.done.yieldWarp I.cid I.wi

/-- WDOG. -/
def execWdog (f : FieldsI) (trapEn : Bool) (s : State) : Host.Outcome State Fault Refusal :=
  withIssue (.wdog f trapEn) s fun I =>
    I.done.setWarp I.cid I.wi fun w => { w with wdLimit := f.imm.setWidth 5, wdtrap := trapEn }

/-- TRAP: the saved PC is the successor (04 R143). -/
def execTrap (f : FieldsI) (s : State) : Host.Outcome State Fault Refusal :=
  withIssue (.trap f) s fun I =>
    (I.s.advance I.cid I.wi (I.mask &&& ~~~I.act)).traps I.cid I.wi
      (I.lanes.map fun l => (l, { cause := 0x14, pc := successor I.pc, code := f.imm.toNat % 2 ^ 16 }))

/-- BRK: the saved PC is the slot itself. -/
def execBrk (f : Fields) (s : State) : Host.Outcome State Fault Refusal :=
  withIssue (.brk f) s fun I => I.trapAct 0x15

/-- A thread waits again in the wait that its trap entry took it out of (17 R480). -/
def State.restoreWait (s : State) (id w l : Nat) (t : Thread) : State :=
  match t.jfk, t.bw with
  | some k, _ =>
    s.setWarp id w fun x =>
      let x : Warp := { x with
        joins := updAt k (fun j => { j with waiting := j.waiting ||| laneBit l }) x.joins
        threads := updAt l (fun t => { t with run := .join k }) x.threads }
      x.checkJoin k
  | none, some (b, ph) =>
    match (s.crew? id).bind fun c => c.bars[b]? with
    | none => s
    | some bar =>
      if bar.phase = ph then s.setThread id w l fun t => { t with run := .barrier b ph }
      else
      let s := s.barReturn id w (laneBit l) bar
      if bar.lastPoison then s.observe id w [l] 0 14 (dieOrigin .hme (dieOfCore (((s.crew? id).map Crew.core).getD 0)) 0)
      else s
  | none, none => s

/-- RTT of one thread (17 R479, R480): the saved PC, the owed check, the wait, the held lanes, the held causes. -/
def State.returnFrom (s : State) (id w l : Nat) : State :=
  match s.thread? id w l with
  | none => s
  | some t =>
    let moved := t.tpc ≠ t.tpc0
    let s := s.setThread id w l fun x =>
      { x with pc := t.tpc, line := none, owed := t.tcause.getLsbD 36 && !moved, tmode := x.tmode &&& ~~~1 }
    let s := if moved then s else s.restoreWait id w l t
    let s := s.setWarp id w fun x =>
      if !x.waitFor.getLsbD l then x
      else
        let x : Warp := { x with waitFor := x.waitFor &&& ~~~laneBit l }
        let x : Warp :=
          if moved then x
          else { x with heldL := x.heldL ||| laneBit l, threads := updAt l (fun t => { t with run := .held }) x.threads }
        x.releaseHeld
    if ((s.thread? id w l).map Thread.ready).getD false then s else s.takeHeld id w l

/-- RTT: a thread outside a handler takes Privileged Instruction (04 R143). -/
def execRtt (f : Fields) (s : State) : Host.Outcome State Fault Refusal :=
  withIssue (.rtt f) s fun I =>
    let s := I.s.advance I.cid I.wi (I.mask &&& ~~~I.act)
    I.lanes.foldl (fun s l =>
      if (I.thread l).inHandler then s.returnFrom I.cid I.wi l
      else s.trap I.cid I.wi l (I.trapHere 0x07 I.pc.toNat)) s

/-! ### Partitions and election (04 R139, R140) -/

/-- The partition of a lane. -/
def Warp.partOf (w : Warp) (l : Nat) : Nat := l / 2 ^ w.part.toNat

/-- PART. -/
def execPart (f : Fields) (s : State) : Host.Outcome State Fault Refusal :=
  withIssue (.part f) s fun I =>
    I.done.setWarp I.cid I.wi fun w => { w with part := BitVec.ofNat 3 (I.read 0 f.a 32) }

/-- ELECT. -/
def execElect (f : Fields) (s : State) : Host.Outcome State Fault Refusal :=
  withIssue (.elect f) s fun I =>
    I.perLane fun l => .ok [.pred f.d (!(I.lanes.any fun m => m < l && I.warp.partOf m == I.warp.partOf l))]

/-! ### Join points (04 R132) -/

/-- JSET. -/
def execJset (f : Fields) (s : State) : Host.Outcome State Fault Refusal :=
  withIssue (.jset f) s fun I =>
    let k := I.read 0 f.a 32
    I.done.setWarp I.cid I.wi fun w =>
      let w : Warp := { w with joins := updAt k (fun j => { j with member := j.member ||| I.act }) w.joins }
      w.checkJoin k

/-- JWAIT. -/
def execJwait (f : Fields) (s : State) : Host.Outcome State Fault Refusal :=
  withIssue (.jwait f) s fun I =>
    let k := I.read 0 f.a 32
    let waits := I.act &&& (I.warp.joins.getD k {}).member
    (I.s.advance I.cid I.wi (I.mask &&& ~~~waits)).setWarp I.cid I.wi fun w =>
      let w : Warp := { w with
        joins := updAt k (fun j => { j with waiting := j.waiting ||| waits }) w.joins
        threads := w.threads.mapIdx fun l t => if waits.getLsbD l then { t with run := .join k } else t }
      let w := if waits = 0 then w else w.progress
      w.checkJoin k

/-! ### Named barriers (04 R134-R137) -/

/-- The arrival of some lanes at a barrier releases their earlier accesses (04 R137). -/
def State.noteArrival (s : State) (crew wi b : Nat) (lanes : Mask) : State :=
  let new := s.pendingOf crew wi lanes
  s.setCrew crew fun c =>
    { c with bars := updAt b (fun x => { x with before := (x.before.filter fun y => s.openOf y != 0) ++ new }) c.bars }

/-- BARA: each issuing thread arrives and goes on. -/
def execBara (f : Fields) (s : State) : Host.Outcome State Fault Refusal :=
  withIssue (.bara f) s fun I =>
    let b := Opd.tileNo f.a
    I.lanes.foldl (fun s _ => s.arrive I.cid b 1 false) (I.done.noteArrival I.cid I.wi b I.act)

/-- Whether a lane of an issue waits at a barrier. -/
def State.waitsAtBar (s : State) (crew wi : Nat) (lanes : List Nat) : Bool :=
  lanes.any fun l => match (s.thread? crew wi l).map Thread.run with | some (.barrier _ _) => true | _ => false

/-- BARW: each issuing thread arrives, in ascending lane order, and waits for the phase that it belongs to; a progress point
if one still waits (01 R36; 04 R135). -/
def execBarw (f : Fields) (s : State) : Host.Outcome State Fault Refusal :=
  withIssue (.barw f) s fun I =>
    let b := Opd.tileNo f.a
    let t := I.lanes.foldl (fun s l =>
      let ph := (((s.crew? I.cid).bind fun c => c.bars[b]?).map Bar.phase).getD false
      (s.setThread I.cid I.wi l fun t => { t with run := .barrier b ph }).arrive I.cid b 1 false)
      (I.done.noteArrival I.cid I.wi b I.act)
    if t.waitsAtBar I.cid I.wi I.lanes then t.setWarp I.cid I.wi Warp.progress else t

/-- BARS: a new EXPECT; Operand Range for 0 or above 1,024. -/
def execBars (f : Fields) (s : State) : Host.Outcome State Fault Refusal :=
  withIssue (.bars f) s fun I =>
    let n := I.read 0 f.b 64
    let b := Opd.tileNo f.a
    if n = 0 ∨ 1024 < n then I.trapAct 0x0B
    else (I.done.setCrew I.cid fun c => { c with bars := updAt b (fun x => { x with expect := n }) c.bars }).arrive I.cid b 0 false

/-! ### Token instructions (04 R151-R156) -/

/-- The bound set of SLEEP and TTEST: the keyring, or every PENDING token when it is class None. -/
def Issue.sleepKeys (I : Issue) (e : Opd) : List Bound :=
  match e with
  | .absent => I.warp.bindRing ((List.range 32).filter fun t => (I.warp.token t).st == .pending)
  | _ => I.keys e

/-- A wait on tokens returns in lanes: its acquire empties the fetch buffer (03 R123), and poison is observed. -/
def State.sleepReturn (s : State) (id w : Nat) (lanes : List Nat) (ks : List Bound) (traps : Bool) : State :=
  let s := if ks.isEmpty then s else s.flushFetch id w (maskOf lanes)
  match firstPoison ks with
  | none => s
  | some (t, c, o) => if traps then s.observe id w lanes t c o else s.setWarp id w fun x => x.observe t c o

/-- SLEEP. -/
def execSleep (f : Fields) (any : Bool) (s : State) : Host.Outcome State Fault Refusal :=
  withIssue (.sleep f any) s fun I =>
    let ks := I.sleepKeys f.e
    let s := I.s.setWarp I.cid I.wi Warp.progress
    if sleepEnds ks any then (s.advance I.cid I.wi I.mask).sleepReturn I.cid I.wi I.lanes ks true
    else
      (s.advance I.cid I.wi (I.mask &&& ~~~I.act)).setWarp I.cid I.wi fun w =>
        { w with threads := w.threads.mapIdx fun l t => if I.act.getLsbD l then { t with run := .sleep ks any } else t }

/-- TTEST. -/
def execTtest (f : Fields) (any : Bool) (s : State) : Host.Outcome State Fault Refusal :=
  withIssue (.ttest f any) s fun I =>
    let ks := I.sleepKeys f.e
    let b := sleepEnds ks any
    let s := I.perLane fun _ => .ok [.pred f.d b]
    if b then s.sleepReturn I.cid I.wi I.lanes ks false else s

/-- TSTAT. -/
def execTstat (f : Fields) (s : State) : Host.Outcome State Fault Refusal :=
  withIssue (.tstat f) s fun I =>
    I.perLane fun _ => .ok [.reg f.d 64 (I.warp.token (Opd.tokenNo f.a)).word]

/-- TFREE: of several PENDING tokens, INFO names the lowest (DESIGN CHOICE, log 18). -/
def execTfree (f : Fields) (s : State) : Host.Outcome State Fault Refusal :=
  withIssue (.tfree f) s fun I =>
    let ts := I.warp.ring f.e
    match ts.find? fun t => (I.warp.token t).st == .pending with
    | some t => I.trapAll I.mask 0x11 t
    | none => I.done.setWarp I.cid I.wi fun w => ts.foldl (fun w t => w.setTok t fun _ => {}) w

/-- TSIG.ARM: the token is PENDING with SOFT 1, until a TSIG settles it. -/
def execTsigArm (f : Fields) (s : State) : Host.Outcome State Fault Refusal :=
  withIssue (.tsigArm f) s fun I =>
    let t := Opd.tokenNo f.a
    if (I.warp.token t).st = .pending then I.trapAll I.mask 0x11 t
    else
      let s : State := { I.done with nextId := I.s.nextId + 1 }
      s.setWarp I.cid I.wi fun w => w.setTok t fun _ => { st := .pending, soft := true, bind := I.s.nextId : TokRec }

/-- A TSIG settles a token: its record, and every keyring bound to it. -/
def State.signal (s : State) (id w t : Nat) (st : BoundSt) : State :=
  match s.warp? id w with
  | none => s
  | some x =>
    let r := x.token t
    let s := s.setWarp id w fun x => x.setTok t fun r =>
      match st with
      | .poisoned c o => { r with st := .poisoned, soft := false, cause := c, origin := o, trace := none }
      | _ => { r with st := .done, soft := false, cause := 0, origin := 0, trace := none }
    if t ≠ 0 ∧ r.st = .pending then s.settleBinding r.bind st else s

/-- TSIG.DONE: the record changes once the issuing threads' earlier accesses have performed (04 R156). -/
def execTsigDone (f : Fields) (s : State) : Host.Outcome State Fault Refusal :=
  withIssue (.tsigDone f) s fun I =>
    let t := Opd.tokenNo f.a
    let r := I.warp.token t
    if t = 0 then I.done
    else if r.st = .pending ∧ !r.soft then I.trapAll I.mask 0x11 t
    else if I.s.pendingBefore I.cid I.wi I.act I.s.nextId then
      I.done.setWarp I.cid I.wi fun w => { w with sigs := w.sigs ++ [⟨t, I.s.nextId, I.act⟩] }
    else I.done.signal I.cid I.wi t .done

/-- TSIG.POISON. -/
def execTsigPoison (f : Fields) (s : State) : Host.Outcome State Fault Refusal :=
  withIssue (.tsigPoison f) s fun I =>
    let t := Opd.tokenNo f.a
    let r := I.warp.token t
    if t = 0 then I.done
    else if r.st = .pending ∧ !r.soft then I.trapAll I.mask 0x11 t
    else I.done.signal I.cid I.wi t (.poisoned 9 (coreOrigin .seq I.core t))

/-! ### Special registers (04 R165) -/

/-- The number of a special-register operand. -/
def Opd.sregNo : Opd → Nat
  | .sreg n => n.toNat
  | _ => 0

/-- GETSR. -/
def execGetsr (f : Fields) (s : State) : Host.Outcome State Fault Refusal :=
  withIssue (.getsr f) s fun I => I.readSpecial (Opd.sregNo f.a) f.d f.ty.regWidth

/-- SETSR. -/
def execSetsr (f : Fields) (s : State) : Host.Outcome State Fault Refusal :=
  withIssue (.setsr f) s fun I => I.writeSpecial (Opd.sregNo f.d) (I.specialSource f.a f.ty.regWidth)

end Sys2Proof.Machine
end

