-- ==== Sys2Proof/Machine/Order.lean ====
section
/-! DEFINITION. What an access instruction reaches (07 R224; 12 R346), its strength, reach and class, and the edges that put
earlier accesses of its threads before it (03 R95-R115; 07 R244). An access performs wholly at its home, one lane after
another; an edge whose reach or mask leaves some party out lets an access perform before an earlier one, as long as no party
inside can tell (DEDUCED, log 2). -/

namespace Sys2Proof.Machine

/-! ### The access of a form -/

/-- The window that a form reaches (03 R91; 12 R341). -/
inductive Win | global | csm | loc | peer
  deriving DecidableEq, Repr

/-- What one lane of a form accesses. -/
structure Access where
  win : Win
  n   : Nat
  rd  : Bool
  wr  : Bool
  deriving DecidableEq, Repr

/-- Bytes of a load or store type (07 R224). -/
def tyBytes : Ty → Nat
  | .ui8 | .si8 | .b8 => 1
  | .ui16 | .si16 | .b16 => 2
  | .ui64 | .si64 | .b64 | .f64 => 8
  | .b128 => 16
  | _ => 4

/-- The access of each form that carries accesses of its threads. -/
def accessOf : Instr → Option Access
  | .ld f _ => some ⟨.global, tyBytes f.ty, true, false⟩
  | .st f _ => some ⟨.global, tyBytes f.ty, false, true⟩
  | .lds f _ => some ⟨.csm, tyBytes f.ty, true, false⟩
  | .sts f => some ⟨.csm, tyBytes f.ty, false, true⟩
  | .latchSet _ | .latchClr _ => some ⟨.csm, 16, false, true⟩
  | .atom f _ c _ | .red f _ c _ => some ⟨if c then .csm else .global, tyBytes f.ty, true, true⟩
  | .mdld _ => some ⟨.global, 1, true, false⟩
  | .mdst _ => some ⟨.global, 1, false, true⟩
  | .ldloc f => some ⟨.loc, tyBytes f.ty, true, false⟩
  | .stloc f => some ⟨.loc, tyBytes f.ty, false, true⟩
  | .codeq _ => some ⟨.global, 1, true, false⟩
  | .fld f _ _ => some ⟨.peer, tyBytes f.ty, true, false⟩
  | .fst f _ _ | .fmcast f _ _ => some ⟨.peer, tyBytes f.ty, false, true⟩
  | .fstBlk .. => some ⟨.peer, 16, false, true⟩
  | .fticket .. | .fsigTret .. | .fsigTpois .. => some ⟨.peer, 16, true, true⟩
  | .fatom f _ _ _ | .fatomc f _ _ _ | .fred f _ _ _ => some ⟨.peer, tyBytes f.ty, true, true⟩
  | _ => none

/-- The strength that a form carries (07 R224, 12 R346). -/
def strengthOf : Instr → Strength
  | .ld _ s | .st _ s | .atom _ _ _ s | .red _ _ _ s | .fld _ s _ | .fst _ s _ | .fstBlk _ s _ | .fatom _ _ s _
  | .fatomc _ _ s _ | .fred _ _ s _ | .fmcast _ s _ => s
  | .latchSet _ => .rel
  | _ => .relaxed

/-- Whether a form's release covers the earlier accesses of its issuing threads (02 R57; 03 R107; 04 R156, R160, R161;
09 R279; 14 R420; 15 R436; 16 R466). -/
def isRelease (i : Instr) : Bool :=
  match i with
  | .pbinit .. | .pbarrive .. | .codepub .. | .cpatch .. | .rgnsw .. | .tlbsd .. | .rcpin .. | .rcunpin .. | .rcretire ..
  | .rcdrop .. | .fsigTret .. | .fsigTpois .. | .wqpush .. | .spawn .. | .tsubmit .. | .ctxload .. => true
  | _ => strengthOf i == .rel || strengthOf i == .ar

/-- Whether a form's access acts as an acquire when it performs. -/
def isAcquire (i : Instr) : Bool := strengthOf i == .acq || strengthOf i == .ar

/-- The reach and the mask of a strong access, a fence or a barrier form (03 R95, R97). -/
structure Scope where
  reach : Reach
  mask  : BitVec 6
  deriving DecidableEq, Repr

/-- The reach of an order descriptor (07 R225). -/
def descReach (d : BitVec 9) : Reach := (Reach.ofBits (d.extractLsb' 6 3)).getD .device

/-- The scope of an order descriptor. -/
def descScope (d : BitVec 9) : Scope := ⟨descReach d, d.extractLsb' 0 6⟩

/-- SYS of a FAB form: `.SYSTEM` (12 R347). -/
def fabSystem : Instr → Bool
  | .fld _ _ y | .fst _ _ y | .fstBlk _ _ y | .fatom _ _ _ y | .fatomc _ _ _ y | .fred _ _ _ y | .fmcast _ _ y
  | .fticket _ y | .fsigTret _ y | .fsigTpois _ y | .fflush _ y => y
  | _ => false

/-- The order descriptor of a form: its field, whose default is `.DEVICE` for every class (07 R225); the FAB forms carry
none, reach `.POD` or `.SYSTEM` and name every class (12 R347), and so do the latch acts at `.CLUSTER` (03 R117). -/
def descOf (i : Instr) : BitVec 9 :=
  if engineOf i = .fab then (if fabSystem i then 0x13F else 0x0FF)
  else
  match i with
  | .latchSet _ => 0x07F
  | _ =>
  match i.form.map Form.body with
  | some (.regs f) => (match i with | .fence .. | .promote .. => f.a | _ => f.b) |> fun o =>
    match o with | .imm v => v | _ => 0x0BF
  | _ => 0x0BF

/-- The scope that a form's own strength has: a phase-barrier form names its reach (04 R124). -/
def scopeOf (i : Instr) : Scope :=
  match i with
  | .texport _ r _ | .pbinit _ r | .pbarrive _ r _ _ | .pbwait _ r => ⟨r, 0x3F⟩
  | _ => descScope (descOf i)

/-- Whether a descriptor names class I (03 R97). -/
def namesFetch (d : BitVec 9) : Bool := d.getLsbD 5

/-- The observer class of an operation's accesses (03 R97; 13 R373); none where the table lists none, which every mask then names
(DEDUCED, log 2). -/
def classOf (i : Instr) : Option Nat :=
  match i with
  | .codepub _ | .cpatch .. => some 5
  | .mload .. | .mstore .. | .mred .. => some 2
  | _ =>
    match engineOf i with
    | .lme => some 0
    | .cpe | .tbe => some 1
    | .fab => some 3
    | _ => none

/-- Whether a mask names a class. -/
def names (m : BitVec 6) : Option Nat → Bool
  | some c => m.getLsbD c
  | none => true

/-! ### Where a lane's access lies -/

/-- A range of bytes that an access touches, or the metadata of a granule, a location of its own (07 R250). -/
inductive Span
  | va (asid lo n : Nat)
  | mdata (asid lo n : Nat)
  | csm (crew lo n : Nat)
  | peer (ep lo n : Nat)
  deriving DecidableEq, Repr

/-- Whether two ranges share a byte. -/
def Span.meets : Span → Span → Bool
  | .va a x m, .va b y n | .mdata a x m, .mdata b y n => a == b && x < y + n && y < x + m
  | .csm a x m, .csm b y n => a == b && x < y + n && y < x + m
  | .peer a x m, .peer b y n => a == b && x < y + n && y < x + m
  | _, _ => false

/-- The core and window that a CSM pointer names for a crew, whatever its range. -/
def Crew.csmTarget (c : Crew) (ptr : Nat) : Option (Nat × Bool) :=
  (coreAt c.core (sext 4 (bitsNat ptr 27 24)) (sext 4 (bitsNat ptr 31 28))).map fun core => (core, bitNat ptr 23)

/-- The CSM pieces of a lane: its pointer and effective offset (07 R228). -/
def State.lanePieces (s : State) (c : Crew) (a : LaneAcc) (n : Nat) : List CsmPart :=
  match c.csmTarget a.addr.toNat with
  | some (core, window) => s.csmParts c core window a.off n
  | none => []

/-- The storage ranges behind a virtual range, page by page, as the tables stand: two addresses of one byte are the same
byte (03 R105). -/
def State.backing (s : State) (asid va n : Nat) : List (Nat × Nat) :=
  let part (v k : Nat) : List (Nat × Nat) :=
    match s.walk asid v with
    | .ok t => ((placeOf (t.pa v)).key.map fun key => (key, k)).toList
    | _ => []
  let k := min n (4096 - va % 4096)
  part va k ++ (if k < n then part (va + k) (n - k) else [])

/-- Two lists of storage ranges share a byte. -/
def partsMeet (xs ys : List (Nat × Nat)) : Bool := xs.any fun u => ys.any fun v => u.1 < v.1 + v.2 && v.1 < u.1 + u.2

/-- A range at an endpoint: the module's own pod window when the endpoint is its own (12 R345). -/
def State.peerSpan (s : State) (ep lo n : Nat) : Span := if ep = s.endpoint then .va 4095 lo n else .peer ep lo n

/-- The ranges of a lane's access: a multicast's lie at each of its targets (12 R363). -/
def State.laneSpans (s : State) (o : Op) (a : LaneAcc) : List Span :=
  match accessOf o.instr, s.crew? o.crew with
  | some x, some c =>
    match x.win, o.instr with
    | .csm, _ => (s.lanePieces c a x.n).map fun p => .csm p.crew p.off p.n
    | .peer, .fmcast .. => o.targets.map fun e => s.peerSpan e a.addr.toNat x.n
    | .peer, _ => [s.peerSpan a.off a.addr.toNat x.n]
    | _, .mdld _ | _, .mdst _ => [.mdata (s.asidOf c) (a.addr.toNat / 16 * 16) 16]
    | _, _ => [.va (s.asidOf c) a.addr.toNat x.n]
  | _, _ => []

/-- Argument n of an operation. -/
def Op.arg (o : Op) (n : Nat) : Nat := (o.args.getD n 0).toNat

/-- The ranges of the access that an operation has still to make for a lane. The accesses of a per-warp form count as
accesses of each issuing thread (12 R353). -/
def State.spansAt (s : State) (o : Op) (l : Nat) : List Span :=
  match o.instr with
  | .fstBlk .. =>
    let n := bitsNat (o.arg 0) 48 32
    let cs : List Span :=
      match (s.crew? o.crew).map fun c => (c, s.csmAt c (o.arg 0 % 2 ^ 32) 0 n) with
      | some (c, .ok core w off) => (s.csmParts c core w off n).map fun p => .csm p.crew p.off p.n
      | _ => []
    s.peerSpan (o.arg 2) (o.arg 1) n :: cs
  | .fticket .. | .fsigTret .. | .fsigTpois .. => [s.peerSpan (o.arg 2) (o.arg 1) 16]
  | _ => (o.acc.filter fun a => a.lane == l && !a.done).flatMap fun a => s.laneSpans o a

/-- The storage ranges behind a list of spans: of data, or of metadata. -/
def State.backings (s : State) (md : Bool) (xs : List Span) : List (Nat × Nat) :=
  xs.flatMap fun x =>
    match x with
    | .va i lo n => if md then [] else s.backing i lo n
    | .mdata i lo n => if md then s.backing i lo n else []
    | _ => []

/-- Whether two lists of spans share a byte, or a location of metadata: by address, or as the tables stand. -/
def State.spansShare (s : State) (xs ys : List Span) : Bool :=
  (xs.any fun x => ys.any fun y => x.meets y) ||
  partsMeet (s.backings false xs) (s.backings false ys) || partsMeet (s.backings true xs) (s.backings true ys)

/-- Whether the accesses of two operations of one thread share a byte (03 R105). -/
def State.lanesMeet (s : State) (o p : Op) (l : Nat) : Bool := s.spansShare (s.spansAt o l) (s.spansAt p l)

/-! ### The ordering kinds of pages (03 R100-R102) -/

/-- The ordering kinds of the pages that a span touches, as the tables stand; CSM and the memory of peers follow RC. -/
def State.spanKinds (s : State) : Span → List Nat
  | .va i lo n | .mdata i lo n =>
    let kind (v : Nat) : Nat := match s.walk i v with | .ok t => entKind t.leaf.toNat | _ => 0
    if lo % 4096 + n ≤ 4096 then [kind lo] else [kind lo, kind (lo + (4096 - lo % 4096))]
  | _ => [0]

/-- Whether a part of the access lies on an SO page. -/
def State.spansSO (s : State) (xs : List Span) : Bool := xs.any fun x => (s.spanKinds x).contains 1

/-- Whether all of the access lies on UN pages. -/
def State.spansUN (s : State) (xs : List Span) : Bool := !xs.isEmpty && xs.all fun x => (s.spanKinds x).all (· == 2)

/-- Whether a lane's access touches an SO page. -/
def State.laneSO (s : State) (o : Op) (a : LaneAcc) : Bool := s.spansSO (s.laneSpans o a)

/-- Whether any lane of an operation accesses an SO page. -/
def State.opSO (s : State) (o : Op) : Bool := o.acc.any fun a => s.laneSO o a

/-! ### The edges to an access (03 R107-R111) -/

/-- The scope at which an access of an SO page acts as acquire and release: `.DEVICE`, or the wider reach that it writes
(03 R100). -/
def soScope (i : Instr) : Scope :=
  match (scopeOf i).reach with
  | .pod => ⟨.pod, 0x3F⟩
  | .system => ⟨.system, 0x3F⟩
  | _ => ⟨.device, 0x3F⟩

/-- Whether a form's release orders accesses to UN pages too (04 R163). -/
def ordersUN : Instr → Bool
  | .pbinit .. | .pbarrive .. => true
  | _ => false

/-- Whether an operation is a thread access that acts as an acquire, the call of an FTICKET among them (12 R365). -/
def acquires (i : Instr) : Bool := isAcquire i || (match i with | .fticket .. => true | _ => false)

/-- Whether the kinds of the two accesses are those that a fence of a strength orders (03 R108; 07 R245). -/
def fenceKinds (str : Strength) (p o : Instr) : Bool :=
  match str with
  | .acq => ((accessOf p).map Access.rd).getD true && isThreadAccess o
  | .rel => !isThreadAccess o || ((accessOf o).map Access.wr).getD true
  | _ => true

/-- The scopes of the edges that put the access of an earlier operation before that of another in lane l: marks, SO pages and
fences. An edge whose mask leaves out the class of either can be valid in no cycle that holds both (03 R114). -/
def State.edges (s : State) (fences : List FenceRec) (p o : Op) (l : Nat) : List Scope :=
  let xs := s.spansAt p l
  let ys := s.spansAt o l
  let un := s.spansUN xs || s.spansUN ys
  let acts := isThreadAccess o.instr
  let marks : List Scope :=
    (if isRelease o.instr && (!un || ordersUN o.instr) then [scopeOf o.instr] else []) ++
    (if acquires p.instr && acts && !un then [scopeOf p.instr] else []) ++
    (if s.spansSO xs && acts && !un then [soScope p.instr] else []) ++
    (if s.spansSO ys && acts && !un then [soScope o.instr] else [])
  let fs := (fences.filter fun f =>
    p.id < f.seq && f.seq ≤ o.id && f.lanes.getLsbD l && (!un || f.un) && fenceKinds f.str p.instr o.instr).map fun f => descScope f.desc
  (marks ++ fs).filter fun e => names e.mask (classOf p.instr) && names e.mask (classOf o.instr)

/-- How an earlier operation stands before another in lane l. -/
inductive Before
  /-- Nothing joins them. -/
  | free
  /-- Only edges of these scopes join them. -/
  | within (es : List Scope)
  /-- It must have performed first, for every party: both reach one byte (03 R105). -/
  | always
  deriving DecidableEq, Repr

/-- How operation p stands before operation o in lane l. -/
def State.standing (s : State) (fences : List FenceRec) (p o : Op) (l : Nat) : Before :=
  if !(p.crew == o.crew && p.warp == o.warp && p.id < o.id && p.undoneLanes.getLsbD l && o.lanes.getLsbD l && p.fail.isNone &&
      isThreadAccess p.instr) then .free
  else if isThreadAccess o.instr && s.lanesMeet o p l then .always
  else if (match p.wait with | .ticket _ => !(acquires p.instr && isThreadAccess o.instr) | _ => false) then .free
  else
    match s.edges fences p o l with
    | [] => .free
    | es => .within es

/-- Whether lane l of an operation comes after accesses that an arrival at a named barrier has released and that have still
to perform (04 R137). -/
def State.barrierHeld (s : State) (w : Warp) (o : Op) (l : Nat) : Bool :=
  o.lanes.getLsbD l && !(isThreadAccess o.instr && s.spansUN (s.spansAt o l)) &&
  w.acqs.any fun r => r.seq ≤ o.id && r.lanes.getLsbD l &&
    r.after.any fun x => (lanesOf (s.openOf x)).any fun m => match s.op? x.1 with | some p => !s.spansUN (s.spansAt p m) | none => false

/-- The endpoints that a FAB write, atomic, reduction, multicast, signal or peer arrival goes to: what FFLUSH covers
(12 R356). -/
def Op.flushEps (o : Op) : List Nat :=
  match o.instr with
  | .fst .. | .fatom .. | .fatomc .. | .fred .. => o.acc.map LaneAcc.off
  | .fmcast .. => o.targets
  | .fstBlk .. | .fsigTret .. | .fsigTpois .. => [o.arg 2]
  | .texport _ _ p | .pbarrive _ _ p _ => if p then [o.arg 2] else []
  | _ => []

/-- The endpoints that an FFLUSH covers; none is every endpoint. -/
def Op.flushOf (o : Op) : Option Nat := if o.arg 0 = 1 then some (o.arg 2) else none

/-- Whether an FFLUSH covers an operation. -/
def Op.flushCovers (f p : Op) : Bool :=
  p.crew == f.crew && p.warp == f.warp && p.id < f.id && (p.lanes &&& f.lanes) != 0 && !p.flushEps.isEmpty &&
  (match f.flushOf with | some e => p.flushEps.contains e | none => true)

/-- Whether an FFLUSH between two operations orders them: the earlier one is covered, and the later one goes to a covered
endpoint. -/
def State.flushed (s : State) (p o : Op) : Bool :=
  !p.flushEps.isEmpty && !o.flushEps.isEmpty && p.id < o.id &&
  s.ops.any fun f =>
    (match f.instr with | .fflush .. => true | _ => false) && f.flushCovers p && f.id < o.id && f.crew == o.crew &&
    f.warp == o.warp && (f.lanes &&& o.lanes) != 0 &&
    (match f.flushOf with | some e => o.flushEps.contains e | none => true)

/-- The warp of an operation. -/
def State.opWarp (s : State) (o : Op) : Warp := (s.warp? o.crew o.warp).getD { slot := 0, threads := [] }

/-- Whether nothing earlier holds lane l of an operation back. -/
def State.mayPerformLane (s : State) (o : Op) (l : Nat) : Bool :=
  let w := s.opWarp o
  !(s.barrierHeld w o l) && !s.ops.any fun p => s.standing w.fences p o l != .free || s.flushed p o

/-- Whether nothing earlier holds an operation back, in any lane. -/
def State.mayPerform (s : State) (o : Op) : Bool :=
  (o.acc.all fun a => s.mayPerformLane o a.lane) && (lanesOf o.lanes).all fun l => s.mayPerformLane o l

/-! ### Performing early (03 R99, R114, R115) -/

/-- A load or a store of one lane, which can perform early. -/
def isPlain : Instr → Bool
  | .ld .. | .st .. | .ldloc _ | .stloc _ => true
  | _ => false

/-- A reach that leaves the pod and the host out. -/
def narrowReach : Reach → Bool
  | .crew | .cluster | .device => true
  | _ => false

/-- What lane a of a load or store would pass if it performed now: the earlier operations with the scopes of their edges.
None where it may not: something must have performed before it for every party; what it passes may still wait long; or a
party inside a scope has something of its own under way that meets its bytes. -/
def State.passes (s : State) (o : Op) (a : LaneAcc) : Option (List (Op × List Scope)) :=
  let w := s.opWarp o
  let l := a.lane
  let st := s.ops.map fun p => (p, s.standing w.fences p o l)
  let ps := st.filterMap fun x => match x.2 with | .within es => some (x.1, es) | _ => none
  let mine := s.spansAt o l
  let write := ((accessOf o.instr).map Access.wr).getD true
  let clear (e : Scope) : Bool :=
    narrowReach e.reach && s.ops.all fun q =>
      q.id == o.id || (ps.any fun x => x.1.id == q.id) || !s.inReach e.reach o.crew q.crew || !names e.mask (classOf q.instr) ||
      (isThreadAccess q.instr && engineOf q.instr == .lme && (isPlain q.instr || (accessOf q.instr).any fun x => x.win == .csm) &&
        (lanesOf q.undoneLanes).all fun m =>
          !s.spansShare mine (s.spansAt q m) || (!write && !((accessOf q.instr).map Access.wr).getD true))
  if isPlain o.instr && !s.barrierHeld w o l && !(st.any fun x => x.2 == .always) && !(s.ops.any fun p => s.flushed p o) &&
      ps.all (fun x => isPlain x.1.instr && x.1.started && x.1.wait == .none && x.2.all clear)
  then some ps else none

/-- Lane a of an operation performs early: until what it passes has performed, no party inside the scopes may meet its
bytes. -/
def State.noteEarly (s : State) (o : Op) (a : LaneAcc) (ps : List (Op × List Scope)) : State :=
  let new : List Early := ps.flatMap fun x => x.2.map fun e =>
    { op := o.id, lane := a.lane, pred := x.1.id, crew := o.crew, reach := e.reach, mask := e.mask
      write := ((accessOf o.instr).map Access.wr).getD true, parts := s.backings false (s.spansAt o a.lane) }
  { s with early := (s.early.filter fun e => s.earlyOpen e) ++ new }

/-! ### Fetches (03 R123) -/

/-- Whether a thread may not fetch yet: an earlier acquire of it whose mask holds class I has still to perform, or accesses
that a fence with class I puts before its fetches (03 R123; an access of an SO page is an acquire for every class, R100). -/
def State.fetchHeld (s : State) (crew warp l : Nat) : Bool :=
  (s.ops.any fun p =>
    p.crew == crew && p.warp == warp && p.undoneLanes.getLsbD l && p.unperformed &&
    ((isAcquire p.instr && namesFetch (descOf p.instr)) || s.spansSO (s.spansAt p l))) ||
  (((s.warp? crew warp).map Warp.fences).getD []).any fun f =>
    namesFetch f.desc && f.lanes.getLsbD l && s.pendingBefore crew warp (laneBit l) f.seq

/-! ### Atomics (07 R241-R243) -/

/-- Elements of a float atomic. -/
def floatAtom (F : Fmt) (op : AtomOp) (x y : Nat) : Nat :=
  match op with
  | .add => (F.add .rne false (F.decode x) (F.decode y)).code
  | .min => (minMax F false false (F.decode x) (F.decode y)).code
  | _ => (minMax F true false (F.decode x) (F.decode y)).code

/-- The new value of an atomic act; none when a compare fails. -/
def atomNew (op : AtomOp) (t : Ty) (old src cmp : Nat) : Option Nat :=
  let w := 8 * tyBytes t
  match op with
  | .exch => some src
  | .cas => if old = cmp then some src else none
  | .and => some (Nat.land old src)
  | .or => some (Nat.lor old src)
  | .xor => some (Nat.xor old src)
  | _ =>
    match t with
    | .f32 | .f64 => some (floatAtom (fmtOf t) op old src)
    | .f16x2 | .bf16x2 =>
      let e (j : Nat) : Nat := floatAtom (fmtOf t) op (subAt 16 old j) (subAt 16 src j) % 65536
      some (e 0 + e 1 * 65536)
    | _ =>
      match op with
      | .add => some ((old + src) % 2 ^ w)
      | .min => some (if intOf t w old ≤ intOf t w src then old else src)
      | _ => some (if intOf t w old ≤ intOf t w src then src else old)

/-! ### Delivery of results (07 R232, R234) -/

/-- Write the results of an operation's lanes into its destination: a uniform register takes the lowest lane's. -/
def State.deliver (s : State) (o : Op) (d : Opd) (bits : Nat) (lanes : List LaneAcc) : State :=
  let low := (o.acc.head?.map LaneAcc.lane).getD 0
  s.setWarp o.crew o.warp fun w =>
    lanes.foldl (fun w a =>
      match d with
      | .uni r => if a.lane = low then { w with u := w.u.set r.toNat (BitVec.ofNat 64 (a.result.toNat % 2 ^ bits)) } else w
      | _ => w.setThread a.lane fun t => { t with v := putRegs t.v a.dst a.result.toNat (bits / 32) }) w

/-- An acquire has performed: with class I in its mask the threads' fetched lines are discarded (03 R123). -/
def State.acquired (s : State) (o : Op) (d : BitVec 9) : State :=
  if namesFetch d then s.flushFetch o.crew o.warp o.lanes else s

end Sys2Proof.Machine
end

