-- ==== Sys2Proof/Machine/Lme.lean ====
section
/-! DEFINITION. The lane memory engine (07 R224-R250): the checks of an issue, the accepted operations, how their lanes
perform, latches, atomics, fences, promotion, prefetch, cache control and metadata. -/

namespace Sys2Proof.Machine

/-! ### The checks at issue (R226-R230) -/

/-- Whether a ward covers a byte of a range. -/
def Ward.meets (w : Ward) (x : Span) : Bool :=
  match x with
  | .va a lo n => !w.csm && w.spans.any fun r => r.1 == a && lo < r.2.2 && r.2.1 < lo + n
  | .csm c lo n => w.csm && w.spans.any fun r => r.1 == c && lo < r.2.2 && r.2.1 < lo + n
  | .peer .. | .mdata .. => false

/-- Whether a ward refuses an access (03 R120). -/
def Ward.refuses (w : Ward) (write : Bool) (x : Span) : Bool := (write || w.dest) && w.meets x

/-- Whether the wards of the issuing core refuse an access. -/
def Issue.warded (I : Issue) (write : Bool) (xs : List Span) : Bool :=
  (I.s.core I.core).wards.any fun w => xs.any fun x => w.refuses write x

/-- A global access of n bytes in a lane (R226; 03 R92). -/
def Issue.globalLane (I : Issue) (l va n : Nat) (align : Nat) (write : Bool) : Except Trap LaneAcc :=
  if 2 ^ 57 < va + n then .error (I.trapHere 0x0C va)
  else if va % align ≠ 0 then .error (I.trapHere 0x0F va)
  else if I.warded write [.va I.asid va n] then .error (I.trapHere 0x10 va)
  else .ok { lane := l, addr := BitVec.ofNat 64 va }

/-- The effective address of a CSM access: its pointer with the effective offset in OFF. -/
def csmEffective (ptr off : Nat) : Nat := ptr % 2 ^ 32 / 2 ^ 19 * 2 ^ 19 + off % 2 ^ 19

/-- A CSM access of n bytes in a lane (R227, R228): Place Range comes before an indirect Register Range of the data
field (R230); `bad` tells a misaligned effective offset. -/
def Issue.csmLane (I : Issue) (l ptr : Nat) (off : Int) (n : Nat) (bad : Nat → Bool) (write : Bool) : Except Trap LaneAcc :=
  let reg : Except Trap Unit := match I.indirectOut l with | some t => .error t | none => .ok ()
  match I.s.csmAt I.crew ptr off n with
  | .placeRange p => .error (I.trapHere 0x0A p)
  | .csmRange => reg.bind fun _ => .error (I.trapHere 0x0D ptr)
  | .ok core window eff =>
    reg.bind fun _ =>
      let ea := csmEffective ptr eff
      let ps := I.s.csmParts I.crew core window eff n
      if bad eff then .error (I.trapHere 0x0F ea)
      else if I.warded write (ps.map fun p => .csm p.crew p.off p.n) then .error (I.trapHere 0x10 ea)
      else .ok { lane := l, addr := BitVec.ofNat 64 ptr, off := eff }

/-- A local access of n bytes in a lane (R229). -/
def Issue.localLane (I : Issue) (l : Nat) (off : Int) (n : Nat) (write : Bool) : Except Trap LaneAcc :=
  if off < 0 ∨ (I.crew.lsize.toNat : Int) < off + n then .error (I.trapHere 0x0E (wrapNat 64 off))
  else I.globalLane l (I.s.localBase I.crew I.warp.slot I.wi l + off.toNat) n 1 write

/-- What one lane of an access form asks for, from the form's window; `off` is absent where B holds a descriptor. -/
def Issue.laneAccess (I : Issue) (l : Nat) (x : Access) (f : Fields) (hasOff : Bool) (align : Nat) (granule : Bool) :
    Except Trap LaneAcc :=
  let off : Int := if hasOff then I.offset l f.b else 0
  match x.win with
  | .csm =>
    match I.indirectIn l (addrFields I.form) with
    | some t => .error t
    | none =>
      I.csmLane l (I.read l f.a 32) off x.n
        (fun e => e % align != 0 || (granule && e / 16 != (e + x.n - 1) / 16)) x.wr
  | .loc =>
    match I.indirectOut l with
    | some t => .error t
    | none => I.localLane l ((I.read l f.a 32 : Int) + off) x.n x.wr
  | _ =>
    match I.indirectOut l with
    | some t => .error t
    | none => I.globalLane l (wrapNat 64 (I.read l f.a 64 + off)) x.n align x.wr

/-- The lanes of an issue, or the traps of those that fail (R230). -/
def Issue.gather (I : Issue) (g : Nat → Except Trap LaneAcc) : Except (List (Nat × Trap)) (List LaneAcc) :=
  let rs := I.lanes.map fun l => (l, g l)
  let bad := rs.filterMap fun p => match p.2 with | .error t => some (p.1, t) | .ok _ => none
  if bad.isEmpty then .ok (rs.filterMap fun p => match p.2 with | .ok a => some a | .error _ => none) else .error bad

/-- Accept an operation with one access for each issuing lane, or hold the issue for the lanes that fail. -/
def Issue.acceptLanes (I : Issue) (f : Fields) (g : Nat → Except Trap LaneAcc) : State :=
  match I.gather g with
  | .error ts => I.holdFor ts
  | .ok acc => I.acceptOp { I.newOp f.c f.e with acc := acc }

/-- The destination register of a lane. -/
def Issue.dstOf (I : Issue) (l : Nat) (o : Opd) : Nat := ((I.thread l).vecIndex o).getD 0

/-- A load or store form. -/
def Issue.loadStore (I : Issue) (f : Fields) (hasOff : Bool) : State :=
  match accessOf I.i with
  | none => I.done
  | some x =>
    I.acceptLanes f fun l =>
      (I.laneAccess l x f hasOff 1 false).map fun a =>
        { a with
          dst := I.dstOf l f.d
          data := BitVec.ofNat 128 (if x.wr then I.read l f.d (8 * x.n) else 0) }

/-- LD: a strong form holds the descriptor in B (R224, R236). -/
def execLd (f : Fields) (str : Strength) (s : State) : Host.Outcome State Fault Refusal :=
  withIssue (.ld f str) s fun I => I.loadStore f (str == .relaxed)

/-- ST. -/
def execSt (f : Fields) (str : Strength) (s : State) : Host.Outcome State Fault Refusal :=
  withIssue (.st f str) s fun I => I.loadStore f (str == .relaxed)

/-- STS. -/
def execSts (f : Fields) (s : State) : Host.Outcome State Fault Refusal :=
  withIssue (.sts f) s fun I => I.loadStore f true

/-- LDLOC. -/
def execLdloc (f : Fields) (s : State) : Host.Outcome State Fault Refusal :=
  withIssue (.ldloc f) s fun I => I.loadStore f true

/-- STLOC. -/
def execStloc (f : Fields) (s : State) : Host.Outcome State Fault Refusal :=
  withIssue (.stloc f) s fun I => I.loadStore f true

/-- MDLD (R250). -/
def execMdld (f : Fields) (s : State) : Host.Outcome State Fault Refusal :=
  withIssue (.mdld f) s fun I => I.loadStore f true

/-- MDST: the data is the 32-bit source. -/
def execMdst (f : Fields) (s : State) : Host.Outcome State Fault Refusal :=
  withIssue (.mdst f) s fun I =>
    I.acceptLanes f fun l =>
      (I.laneAccess l ⟨.global, 1, false, true⟩ f true 1 false).map fun a =>
        { a with data := BitVec.ofNat 128 (I.read l f.d 32) }

/-- The CSM pieces of a lane, if they are all still there; a grant that has gone leaves the access outside its window. -/
def State.csmLanePieces (s : State) (o : Op) (a : LaneAcc) (n : Nat) : Option (List CsmPart) :=
  (s.crew? o.crew).bind fun c =>
    let ps := s.lanePieces c a n
    if (ps.map CsmPart.n).foldl (· + ·) 0 = n then some ps else none

/-- The granule of a lane of a waiting load. -/
def State.laneGranule (s : State) (o : Op) (a : LaneAcc) : Option (Nat × Nat) :=
  ((s.csmLanePieces o a 1).bind List.head?).map fun p => (p.crew, p.off / 16)

/-- Whether a lane of a waiting load finds its latch EMPTY, which is a progress point (01 R36). -/
def State.latchEmpty (s : State) (o : Op) : Bool :=
  o.acc.any fun a => !a.done && match s.laneGranule o a with | some g => !s.latchFull g.1 g.2 | none => false

/-- LDS: with `.WAIT` its threads wait at it (R239). -/
def execLds (f : Fields) (latch : LatchMode) (s : State) : Host.Outcome State Fault Refusal :=
  withIssue (.lds f latch) s fun I =>
    if latch = .none then I.loadStore f true
    else
      match I.gather fun l =>
          (I.laneAccess l ⟨.csm, tyBytes f.ty, true, false⟩ f true 1 true).map fun a => { a with dst := I.dstOf l f.d } with
      | .error ts => I.holdFor ts
      | .ok acc =>
        let o : Op := { I.newOp f.c f.e with acc := acc }
        let o := if allSettled o.keys then { o with since := o.id } else o
        let empty := I.s.latchEmpty o
        ((I.s.accept o).advance I.cid I.wi (I.mask &&& ~~~I.act)).setWarp I.cid I.wi fun w =>
          { (if empty then w.progress else w) with
            threads := w.threads.mapIdx fun l t => if I.act.getLsbD l then { t with run := .latch o.id } else t }

/-- LATCH.SET and LATCH.CLR: an effective offset that is not a multiple of 16 is misaligned (R240). -/
def Issue.latchForm (I : Issue) (f : Fields) : State :=
  I.acceptLanes f fun l => I.laneAccess l ⟨.csm, 16, false, true⟩ f true 16 false

/-- LATCH.SET. -/
def execLatchSet (f : Fields) (s : State) : Host.Outcome State Fault Refusal :=
  withIssue (.latchSet f) s fun I => I.latchForm f

/-- LATCH.CLR. -/
def execLatchClr (f : Fields) (s : State) : Host.Outcome State Fault Refusal :=
  withIssue (.latchClr f) s fun I => I.latchForm f

/-- ATOM and RED: aligned to the element; CAS holds the compare value in the lower half and the new value in the upper
half (R241). -/
def Issue.atomForm (I : Issue) (f : Fields) (op : AtomOp) (csm : Bool) : State :=
  let n := tyBytes f.ty
  I.acceptLanes f fun l =>
    (I.laneAccess l ⟨if csm then .csm else .global, n, true, true⟩ f false n false).map fun a =>
      let d := I.read l f.d (if op = .cas then 16 * n else 8 * n)
      { a with
        dst := I.dstOf l f.d
        cmp := BitVec.ofNat 128 (d % 2 ^ (8 * n))
        data := BitVec.ofNat 128 (if op = .cas then d / 2 ^ (8 * n) else d) }

/-- ATOM. -/
def execAtom (f : Fields) (op : AtomOp) (csm : Bool) (str : Strength) (s : State) : Host.Outcome State Fault Refusal :=
  withIssue (.atom f op csm str) s fun I => I.atomForm f op csm

/-- RED. -/
def execRed (f : Fields) (op : AtomOp) (csm : Bool) (str : Strength) (s : State) : Host.Outcome State Fault Refusal :=
  withIssue (.red f op csm str) s fun I => I.atomForm f op csm

/-! ### Fences and promotion (R244-R247) -/

/-- A fence enters the program order of some lanes of a warp; fences with nothing left to order are forgotten. -/
def State.addFence (s : State) (crew warp : Nat) (r : FenceRec) : State :=
  let s1 := s.setWarp crew warp fun w =>
    { w with fences := (w.fences.filter fun f => s.pendingBefore crew warp f.lanes f.seq) ++ [r] }
  if namesFetch r.desc then s1.flushFetch crew warp r.lanes else s1

/-- FENCE. -/
def execFence (f : Fields) (str : Strength) (un : Bool) (s : State) : Host.Outcome State Fault Refusal :=
  withIssue (.fence f str un) s fun I =>
    I.done.addFence I.cid I.wi ⟨I.s.nextId, I.act, str, un, descOf I.i⟩

/-- The place of a P-format field. -/
def placeBits : Opd → Nat
  | .imm v => v.toNat
  | _ => 0

/-- PROMOTE: the place is checked at issue against the cluster rectangle (01 R27). -/
def execPromote (f : Fields) (s : State) : Host.Outcome State Fault Refusal :=
  withIssue (.promote f) s fun I =>
    let p := placeBits f.b
    match coreAt I.core (placeXY p).1 (placeXY p).2 with
    | some core =>
      if I.crew.inRect core then I.acceptOp { I.newOp f.c f.e with targets := [core] }
      else I.trapAll I.mask 0x0A 0 (BitVec.ofNat 64 (p % 256))
    | none => I.trapAll I.mask 0x0A 0 (BitVec.ofNat 64 (p % 256))

/-- The fence that a PROMOTE inserts into every thread resident on a core, at one instant. -/
def State.insertFences (s : State) (core : Nat) (desc : BitVec 9) : State :=
  let s1 : State := { s with nextId := s.nextId + 1 }
  (s.crews.filter fun c => c.core == core).foldl (fun t c =>
    (List.range c.warps.length).foldl (fun t w =>
      t.addFence c.id w ⟨s.nextId, ((c.warps[w]?).map fun x => x.lanesWhere fun y => !y.gone).getD 0, .ar, true, desc⟩) t) s1

/-- Whether every access before number `seq` of the threads on a core has performed. -/
def State.coreDrained (s : State) (core seq : Nat) : Bool :=
  !s.ops.any fun o => o.core == core && o.id < seq && o.unperformed

/-! ### Prefetch and cache control (R248, R249) -/

/-- PREFETCH returns nothing, changes no value and orders nothing. -/
def execPrefetch (f : Fields) (s : State) : Host.Outcome State Fault Refusal :=
  withIssue (.prefetch f) s fun I => I.done

/-- CCTL.INV: its token becomes DONE when the discard has taken place; no address of it faults. -/
def execCctlInv (f : Fields) (s : State) : Host.Outcome State Fault Refusal :=
  withIssue (.cctlInv f) s fun I => I.acceptOp (I.newOp f.c f.e)

/-- CCTL.INVALL. -/
def execCctlInvall (f : Fields) (s : State) : Host.Outcome State Fault Refusal :=
  withIssue (.cctlInvall f) s fun I => I.acceptOp (I.newOp f.c f.e)

/-! ### Performing a lane (R232-R235, R239-R243, R250) -/

/-- What became of one lane that tried to perform. -/
inductive LaneStep
  | did (result : Nat)
  | stop (access : Nat) (replay : Bool) (g : Gate)
  deriving Repr

/-- Who makes the accesses of an operation. -/
def State.opWho (s : State) (o : Op) (e : Engine) : Who :=
  { crew := some o.crew, asid := ((s.launch? o.launch).map Launch.asid).getD 0, loc := .data o.core, core := o.core
    wslot := o.slot, tok := o.tok, engine := e }

/-- A load result, widened to the register by its type (R224). -/
def widenLoad (t : Ty) (x : Nat) : Nat :=
  match t with
  | .si8 => wrapNat 32 (sext 8 x)
  | .si16 => wrapNat 32 (sext 16 x)
  | _ => x

/-- The grade of the frame that holds a storage key (15 R445); host memory and unmapped frames have no user bits. -/
def State.gradeOf (s : State) (key : Nat) : Nat :=
  if isHbm key then ((s.grades.find? fun g => g.1 == s.frameOf key).map fun g => g.2.1).getD 0 else 0

/-- A global or local load of a lane. -/
def State.loadLane (s : State) (o : Op) (a : LaneAcc) (n : Nat) (t : Ty) : State × LaneStep :=
  match s.reach (s.opWho o .lme) a.addr.toNat n false { r := true } with
  | (s, .ok ps) => (s, .did (widenLoad t (leNat (s.readParts ps))))
  | (s, .error g) => (s, .stop accRead true g)

/-- A global or local store of a lane. -/
def State.storeLane (s : State) (o : Op) (a : LaneAcc) (n : Nat) : State × LaneStep :=
  match s.reach (s.opWho o .lme) a.addr.toNat n true { w := true } with
  | (s, .ok ps) => (s.writeParts ps (leBytes n a.data.toNat), .did 0)
  | (s, .error g) => (s, .stop accWrite true g)

/-- The stop of a CSM access whose grant has gone. -/
def csmGone : LaneStep := .stop accRead false (.fail 3 none)

/-- A CSM act of a lane: `f` takes the old bytes and gives new ones, if it writes. -/
def State.csmLaneAct (s : State) (o : Op) (a : LaneAcc) (n : Nat) (f : Nat → Option Nat) : State × LaneStep :=
  match s.csmLanePieces o a n with
  | none => (s, csmGone)
  | some ps =>
    let old := leNat (s.csmRead ps)
    match f old with
    | some x => (s.csmWrite ps (leBytes n x), .did old)
    | none => (s, .did old)

/-- A latch act of a lane (R240). -/
def State.latchLane (s : State) (o : Op) (a : LaneAcc) (full : Bool) : State × LaneStep :=
  match s.csmLanePieces o a 16 with
  | some (p :: _) => (s.setLatch p.crew (p.off / 16) full, .did 0)
  | _ => (s, csmGone)

/-- A metadata access of a lane (R250). -/
def State.metaLane (s : State) (o : Op) (a : LaneAcc) (write : Bool) : State × LaneStep :=
  match s.reach (s.opWho o .lme) a.addr.toNat 1 write { r := !write, w := write } with
  | (s, .error g) => (s, .stop (if write then accWrite else accRead) true g)
  | (s, .ok ps) =>
    let key := (ps.head?.map Part.key).getD 0
    let m := gradeBits (s.gradeOf key)
    if m = 0 then (s, .stop accRead false (.fail 5 none))
    else if write && (ps.any Part.drop) then (s, .did 0)
    else if write then (s.putMeta (granule key) (BitVec.ofNat 32 (a.data.toNat % 2 ^ m)), .did 0)
    else (s, .did ((s.metaOf (granule key)).toNat % 2 ^ m))

/-- CODEQ of a lane: the code state of a line and the generation of its frame, as the home holds them (09 R282). -/
def State.codeqLane (s : State) (o : Op) (a : LaneAcc) : State × LaneStep :=
  let w := s.opWho o .fch
  match s.xlateAs w a.addr.toNat {} with
  | (s, .fault k l e) => (s, .stop accRead false (.fault a.addr.toNat k l e))
  | (s, .bad c g) => (s, .stop accRead false (.fail c g))
  | (s, .ok key _) =>
    match s.codeAt key with
    | none => (s, .did 0)
    | some f =>
      let line : Nat :=
        match f.lines[s.paOf key % 4096 / 64]? with
        | some (_, true) => 3
        | some (some p, false) => if p.contains o.core then 2 else 1
        | _ => 0
      (s, .did (f.gen.toNat * 2 ^ 32 + 2 ^ 7 + line))

/-- One lane of an LME operation performs. Global atomics perform at their slice instead (`State.atomLane`). -/
def State.performLane (s : State) (o : Op) (a : LaneAcc) : State × LaneStep :=
  match o.instr with
  | .ld f _ | .ldloc f => s.loadLane o a (tyBytes f.ty) f.ty
  | .st f _ | .stloc f => s.storeLane o a (tyBytes f.ty)
  | .lds f _ =>
    match s.csmLaneAct o a (tyBytes f.ty) fun _ => none with
    | (s, .did x) => (s, .did (widenLoad f.ty x))
    | r => r
  | .sts f => s.csmLaneAct o a (tyBytes f.ty) fun _ => some a.data.toNat
  | .latchSet _ => s.latchLane o a true
  | .latchClr _ => s.latchLane o a false
  | .atom f op true _ | .red f op true _ =>
    s.csmLaneAct o a (tyBytes f.ty) fun old => atomNew op f.ty old a.data.toNat a.cmp.toNat
  | .mdld _ => s.metaLane o a false
  | .mdst _ => s.metaLane o a true
  | .codeq _ => s.codeqLane o a
  | _ => (s, .did 0)

/-- Whether a lane writes a byte, or the metadata of a granule, that a lower lane of its operation has still to write: the lower
one goes first (R235; for MDST, DESIGN CHOICE, log 28). -/
def State.lowerFirst (s : State) (o : Op) (left : List LaneAcc) (a : LaneAcc) : Bool :=
  ((accessOf o.instr).map Access.wr).getD false && left.any fun b => s.spansShare (s.laneSpans o b) (s.laneSpans o a)

/-- The lanes that have not performed and may do so perform in ascending order, until one stops the operation. `left` are the
lower lanes that had to be left; a lane that performed early is done once nothing comes before it any more. -/
def State.performLanes : List LaneAcc → State → Op → (left : List LaneAcc := []) → State
  | [], s, _, _ => s
  | a :: rest, s, o, left =>
    let did (s : State) (x : Nat) (done : Bool) : State :=
      s.setLane o.id a.lane fun b => { b with done := done, early := !done, result := BitVec.ofNat 128 x }
    if a.done then State.performLanes rest s o left
    else if a.early then
      State.performLanes rest (if s.mayPerformLane o a.lane then did s a.result.toNat true else s) o left
    else
      let free := s.mayPerformLane o a.lane
      let early := if free then none else s.passes o a
      if (!free && early.isNone) || s.lowerFirst o left a then State.performLanes rest s o (left ++ [a])
      else
        match s.performLane o a with
        | (t, .did x) =>
          match early with
          | none => State.performLanes rest (did t x true) o left
          | some ps => State.performLanes rest (did (t.noteEarly o a ps) x false) o left
        | (_, .stop _ _ .later) => State.performLanes rest s o (left ++ [a])
        | (t, .stop acc replay g) =>
          (t.setOp o.id fun o => { o with stuck := a.lane }).stopOp o.id (s.opWho o .lme) acc replay g

/-! ### Global atomics (R242; 15 R430) -/

/-- The one act of a lane's global atomic, at its home slice. -/
def State.atomLane (s : State) (o : Op) (a : LaneAcc) (f : Fields) (op : AtomOp) : State × LaneStep :=
  let n := tyBytes f.ty
  match s.reach (s.opWho o .lme) a.addr.toNat n true { r := true, w := true } with
  | (s, .error g) => (s, .stop accAtomic true g)
  | (s, .ok ps) =>
    let old := leNat (s.readParts ps)
    match atomNew op f.ty old a.data.toNat a.cmp.toNat with
    | some x => (s.writeParts ps (leBytes n x), .did old)
    | none => (s, .did old)

/-- Where a request comes from, as a slice's input ports tell it apart (15 R429): a core with its engines, or the FAB of a
die. -/
inductive Sender
  | core (n : Nat)
  | fab (die : Nat)
  deriving DecidableEq, Repr

/-- The die of a sender. -/
def Sender.die : Sender → Nat
  | .core n => dieOfCore n
  | .fab d => d

/-- The input port of a slice of a die at which a sender's requests arrive (15 R429). -/
def Sender.port (x : Sender) (die : Nat) : Nat :=
  if x.die ≠ die then 6
  else
    match x with
    | .core n => n % 96 / 16
    | .fab _ => 7

/-- Whether a sender's acts go to the remote queue of a slice of a die: those of port 6 and of the FAB (15 R430). -/
def Sender.remote (x : Sender) (die : Nat) : Bool := x.die != die || (match x with | .fab _ => true | _ => false)

/-- The acts that wait at a slice, at its input ports and in its queues. -/
def Slice.acts (q : Slice) : List Act := q.ports.flatten.map Prod.fst ++ q.loc ++ q.remote

/-- An act is sent to the slice that homes a storage key: it waits at its input port (15 R429). -/
def State.queueAct (s : State) (key : Nat) (x : Sender) (k : ActKind) : State :=
  let h := s.homeOf key
  s.setDie h.1 fun d =>
    { d with slices := updAt h.2 (fun q => { q with ports := updAt (x.port h.1) (· ++ [(⟨key, k⟩, x.remote h.1)]) q.ports }) d.slices }

/-- Send the acts of the lanes that are neither queued nor done and that nothing comes before; lanes at one address act in
ascending order (R242). A lane that its home stops makes the operation wait or fail. -/
def State.sendActs : List LaneAcc → State → Op → Nat → (left : List LaneAcc := []) → State
  | [], s, _, _, _ => s
  | a :: rest, s, o, n, left =>
    if a.done || a.queued then State.sendActs rest s o n left
    else if !s.mayPerformLane o a.lane || s.lowerFirst o left a then State.sendActs rest s o n (left ++ [a])
    else
      match s.reach (s.opWho o .lme) a.addr.toNat n true { r := true, w := true } with
      | (t, .ok ps) =>
        let t := t.queueAct ((ps.head?.map Part.key).getD 0) (.core o.core) (.lane o.id a.lane)
        State.sendActs rest (t.setLane o.id a.lane fun b => { b with queued := true }) o n left
      | (_, .error .later) => State.sendActs rest s o n (left ++ [a])
      | (t, .error g) =>
        (t.setOp o.id fun o => { o with stuck := a.lane }).stopOp o.id (s.opWho o .lme) accAtomic true g

/-! ### Completion (R232, R233, R239) -/

/-- The destination of a form that writes registers when it completes, and its width. -/
def resultOf : Instr → Option (Opd × Nat)
  | .ld f _ | .lds f _ | .ldloc f => some (f.d, max 32 (8 * tyBytes f.ty))
  | .mdld f => some (f.d, 32)
  | .codeq f => some (f.d, 64)
  | .atom f _ _ _ => some (f.d, 8 * tyBytes f.ty)
  | _ => none

/-- Whether a global atomic's lanes act at slices, with its fields and operation. -/
def isSliceAtomic : Instr → Option (Fields × AtomOp)
  | .atom f op false _ | .red f op false _ => some (f, op)
  | _ => none

/-- The completion of an operation is an acquire for the lanes that a busy register of it has held, at its reach and mask: a
FAB form's and an atomic's; a relaxed load declares none (03 R112, R113). -/
def State.stallReturn (s : State) (o : Op) : State :=
  let declares := engineOf o.instr == .fab || (match o.instr with | .atom .. => namesFetch (descOf o.instr) | _ => false)
  if o.stalled != 0 && declares then s.flushFetch o.crew o.warp o.stalled else s

/-- Every lane has performed: registers are written, an acquire takes effect, the token settles. A failed operation
settles POISONED and writes no register. -/
def State.completeLanes (s : State) (id : Nat) : State :=
  match s.op? id with
  | none => s
  | some o =>
    match o.fail with
    | some (c, g) => s.settle id (.poisoned c g)
    | none =>
      if o.wait ≠ .none ∨ !(o.acc.all LaneAcc.done) then s
      else
        let s := match resultOf o.instr with | some (d, bits) => s.deliver o d bits o.acc | none => s
        let s :=
          if s.opSO o then s.acquired o 0x0BF else if isAcquire o.instr then s.acquired o (descOf o.instr) else s
        (s.stallReturn o).finish id

/-- Whether a form waits on the latches of its lanes. -/
def waitsOnLatch : Instr → Bool
  | .lds _ .keep | .lds _ .clr => true
  | _ => false

/-- Some bytes of a store's lane: of each 16-byte granule all or none, as draw n has it (R233). -/
def landBytes (n lane key : Nat) (old new : List Byte) : List Byte :=
  (old.zip new).mapIdx fun k p => if Config.rowLanded n (2 * lane + ((key + k) / 16 - key / 16)) then p.2 else p.1

/-- A lane of a failed store has written of each granule all or nothing. -/
def State.landStore (s : State) (o : Op) (a : LaneAcc) (n draw : Nat) : State :=
  match o.instr with
  | .sts _ =>
    match s.csmLanePieces o a n with
    | some (p :: ps) => s.csmWrite (p :: ps) (landBytes draw a.lane p.off (s.csmRead (p :: ps)) (leBytes n a.data.toNat))
    | _ => s
  | _ =>
    match s.reach (s.opWho o .lme) a.addr.toNat n true { w := true } with
    | (t, .ok ps) =>
      t.writeParts ps (landBytes draw a.lane ((ps.head?.map Part.key).getD 0) (t.readParts ps) (leBytes n a.data.toNat))
    | _ => s

/-- The other lanes of an LME operation of which lane `unit` failed: those that nothing earlier holds back have performed or
not, as a free value has it (R233; log 28). -/
def State.landLanes (s : State) (o : Op) (unit : Nat) : State :=
  if waitsOnLatch o.instr then s
  else
    let draw := s.nextId
    o.acc.foldl (fun (s : State) (a : LaneAcc) =>
      let did (t : State) (x : Nat) : State := t.setLane o.id a.lane fun b => { b with done := true, result := BitVec.ofNat 128 x }
      if a.done || a.lane == unit || !s.mayPerformLane o a.lane then s
      else
        match o.instr with
        | .st f _ | .sts f | .stloc f => did (s.landStore o a (tyBytes f.ty) draw) 0
        | _ =>
          if !Config.rowLanded draw a.lane then s
          else
            match (match isSliceAtomic o.instr with | some (f, op) => s.atomLane o a f op | none => s.performLane o a) with
            | (t, .did x) => did t x
            | _ => s) { s with nextId := s.nextId + 1 }

/-- The lanes of an operation that have performed. -/
def Op.doneLanes (o : Op) : Mask := maskOf ((o.acc.filter LaneAcc.done).map LaneAcc.lane)

/-- The detail of the log entry of a lost access: the failing lane, and for an atomic or a latch act the lanes that have
performed in the upper half (R233; 18 R503). -/
def Op.lostDetail (o : Op) (unit : Nat) : Nat :=
  if !(o.acc.any fun a => a.lane == unit) then 0
  else 2 ^ unit + (match o.instr with | .atom .. | .red .. | .latchSet _ | .latchClr _ => o.doneLanes.toNat * 2 ^ 32 | _ => 0)

/-- A lasting error that a lane met at its home entered the log as it was met: its entry, the newest one of the launch, gets its
detail once the other lanes are settled. -/
def State.noteLanes (s : State) (id : Nat) : State :=
  match s.op? id, s.errlog.getLast? with
  | some o, some e =>
    match o.fail with
    | some (c, _) =>
      if (c == 2 || c == 13) && e.cls == 2 && e.launch == o.launch && (o.acc.any fun a => a.lane == o.stuck) then
        { s with errlog := s.errlog.dropLast ++ [{ e with detail := BitVec.ofNat 64 (o.lostDetail o.stuck) }] }
      else s
    | none => s
  | _, _ => s

/-- A failed operation whose other lanes have not been settled yet settles them; `prog` says that they are. -/
def State.landRest (s : State) (id : Nat) : State :=
  match s.op? id with
  | some o =>
    if o.fail.isSome && o.prog == 0 then ((s.landLanes o o.stuck).setOp id fun o => { o with prog := 1 }).noteLanes id else s
  | none => s

/-- A started LME operation goes on: it sends its acts, or performs its lanes, and completes when all have performed. -/
def State.runLme (s : State) (o : Op) : State :=
  let s :=
    if o.fail.isSome then s
    else
      match isSliceAtomic o.instr with
      | some (f, _) => State.sendActs o.acc s o (tyBytes f.ty)
      | none => State.performLanes o.acc s o
  (s.landRest o.id).completeLanes o.id

/-! ### Waiting loads (R239; 03 R118) -/

/-- Whether another lane waits longer on the same granule: of an operation that began to wait earlier, or a lower lane of the
same (03 R118). -/
def State.waitsLonger (s : State) (o : Op) (a : LaneAcc) (g : Nat × Nat) : Bool :=
  s.ops.any fun p =>
    waitsOnLatch p.instr && p.since != 0 &&
    p.acc.any fun b => !b.done && (p.since < o.since || (p.id == o.id && b.lane < a.lane)) && s.laneGranule p b == some g

/-- Threads of a waiting operation go on after their instruction. -/
def State.leaveWait (s : State) (crew warp : Nat) (lanes : Mask) : State :=
  s.setWarp crew warp fun w =>
    { w with threads := w.threads.mapIdx fun l t =>
        if lanes.getLsbD l then { t.goto (successor t.pc) with run := .running } else t }

/-- A waiting load completes when no lane of it waits any more (R239). -/
def State.endWaits (s : State) (id : Nat) : State :=
  match s.op? id with
  | some o => if o.acc.all LaneAcc.done then s.finish id else s
  | none => s

/-- A lane of a waiting load is served: it takes the data, empties the latch with `.CLR`, and its thread leaves the wait
(R239; an acquire for every class, 03 R117). -/
def State.serveLatch (s : State) (o : Op) (a : LaneAcc) (f : Fields) (clr : Bool) : State :=
  match s.laneGranule o a, s.performLane o a with
  | some g, (_, .did x) =>
    let s := if clr then s.setLatch g.1 g.2 false else s
    let b := { a with done := true, result := BitVec.ofNat 128 x }
    let s := s.deliver o f.d (max 32 (8 * tyBytes f.ty)) [b]
    let s := (s.setLane o.id a.lane fun _ => b).leaveWait o.crew o.warp (laneBit a.lane)
    (s.flushFetch o.crew o.warp (laneBit a.lane)).endWaits o.id
  | _, _ => s

end Sys2Proof.Machine
end

