-- ==== Sys2Proof/Machine/Phase.lean ====
section
/-! DEFINITION. Phase barriers (04 R157-R163): TEXPORT, PBARRIVE, PBINIT and PBWAIT, and their acts at the granule's home
slice. -/

namespace Sys2Proof.Machine

/-! ### Issue -/

/-- A phase-barrier operation: its datum, its address, and with PEER the endpoint. -/
def Issue.phaseOp (I : Issue) (f : Fields) (peer : Bool) (bits : Nat) : Op :=
  let addr := if peer then I.read I.low f.a 64 else wrapNat 64 (I.read I.low f.a 64 + I.offset I.low f.b)
  { I.newOp f.c f.e with
    args := [BitVec.ofNat 64 (I.read I.low f.d bits), BitVec.ofNat 64 addr, BitVec.ofNat 64 (if peer then I.s.endpointOf (I.readInt I.low f.b 12) else 0)] }

/-- TEXPORT. -/
def execTexport (f : Fields) (reach : Reach) (peer : Bool) (s : State) : Host.Outcome State Fault Refusal :=
  withIssue (.texport f reach peer) s fun I => I.lowTrap (I.acceptOp (I.phaseOp f peer 32))

/-- PBARRIVE. -/
def execPbarrive (f : Fields) (reach : Reach) (peer poison : Bool) (s : State) : Host.Outcome State Fault Refusal :=
  withIssue (.pbarrive f reach peer poison) s fun I => I.lowTrap (I.acceptOp (I.phaseOp f peer 32))

/-- PBINIT. -/
def execPbinit (f : Fields) (reach : Reach) (s : State) : Host.Outcome State Fault Refusal :=
  withIssue (.pbinit f reach) s fun I => I.lowTrap (I.acceptOp (I.phaseOp f false 64))

/-- PBWAIT: with C = `t0` its threads wait, which is a progress point (R162). -/
def execPbwait (f : Fields) (reach : Reach) (s : State) : Host.Outcome State Fault Refusal :=
  withIssue (.pbwait f reach) s fun I => I.lowTrap <|
    let o := I.phaseOp f false 32
    if o.tok ≠ 0 then I.acceptOp o
    else
      ((I.s.accept o).advance I.cid I.wi (I.mask &&& ~~~I.act)).setWarp I.cid I.wi fun w =>
        { w.progress with
          threads := w.threads.mapIdx fun l t => if I.act.getLsbD l then { t with run := .pbwait o.id } else t }

/-! ### The acts (R158, R161) -/

/-- The loop of arrive_pb: each completion flips PHASE and reloads EXPECT; `w0` is EXPECT, `w2` PHASE and POISON. -/
def arrivePbLoop : Nat → Nat → Nat → Nat → Nat → Nat × Nat × Nat
  | 0, w0, arr, w2, _ => (w0, arr, w2)
  | fuel + 1, w0, arr, w2, w3 =>
    if w0 = 0 then (w0, min arr (2 ^ 32 - 1), w2 % 2 ^ 31 + 2 ^ 31)
    else if arr < w0 then (w0, arr, w2)
    else if w0 = w3 then
      let k := arr / w0
      (w0, arr % w0, (w2 % 2 ^ 31 + k) % 2 ^ 31 + w2 / 2 ^ 31 * 2 ^ 31)
    else arrivePbLoop fuel w3 (arr - w0) ((w2 % 2 ^ 31 + 1) % 2 ^ 31 + w2 / 2 ^ 31 * 2 ^ 31) w3

/-- arrive_pb on the sixteen bytes of a granule, as one number (R158). -/
def arrivePb (g n : Nat) (poisoned : Bool) : Nat :=
  let w2 := bitsNat g 95 64
  let w2 := if poisoned then w2 % 2 ^ 31 + 2 ^ 31 else w2
  let r := arrivePbLoop 3 (bitsNat g 31 0) (bitsNat g 63 32 + n % 2 ^ 32) w2 (bitsNat g 127 96)
  r.1 + r.2.1 * 2 ^ 32 + r.2.2 * 2 ^ 64 + bitsNat g 127 96 * 2 ^ 96

/-- The granule that PBINIT writes (R161). -/
def initPb (d : Nat) : Nat := bitsNat d 31 0 + bitsNat d 63 32 * 2 ^ 96

/-- Whether PBWAIT's condition holds, and whether the barrier is poisoned (R162). -/
def phaseOver (g ph : Nat) : Bool := bitsNat g 94 64 != ph % 2 ^ 31 || bitNat g 95
/-- POISON of a granule. -/
def phasePoison (g : Nat) : Bool := bitNat g 95

/-- Whether an operation arrives at a peer's barrier (R159). -/
def isPeerArrival : Instr → Bool
  | .texport _ _ p | .pbarrive _ _ p _ => p
  | _ => false

/-- Who makes a loopback access: the die's FAB, in the module's own pod window (12 R345). -/
def State.fabWho (_s : State) (o : Op) : Who :=
  { crew := some o.crew, asid := 4095, loc := .ofDie (dieOfCore o.core), engine := .fab }

/-- RCLASS of a failure at the home. -/
def rclassOfCause (c : BitVec 6) : Nat := if c = 2 ∨ c = 13 then 3 else if c = 5 then 2 else 1

/-- What a gate that stopped a loopback access does: its failure is reported as one at a peer (12 R345). -/
def State.stopFab (s : State) (o : Op) (access : Nat) (g : Gate) : State :=
  match g with
  | .fault va k l e =>
    match s.fault { die := dieOfCore o.core, asid := 4095, va, access, engine := .fab } k l e (some (.op o.id)) with
    | (s, .waits) => s.setOp o.id fun o => { o with wait := .answer }
    | (s, .fails _) => s.failOp o.id 10 (some (peerOrigin (rclassOf k) s.endpoint))
  | .fail c _ => s.failOp o.id 10 (some (peerOrigin (rclassOfCause c) s.endpoint))
  | g => s.stopOp o.id (s.fabWho o) access false g

/-- The lanes that a failed FAB operation left undone; a per-warp form counts every issuing thread. -/
def Op.undone (o : Op) : Mask :=
  let m := maskOf ((o.acc.filter fun a => !a.done || a.fail.isSome).map LaneAcc.lane)
  if m = 0 then o.lanes else m

/-- A failure at a peer enters the error log: its lanes in [31:0], and in [63:32] those whose outcome RCLASS 11 leaves
unknown (12 R352). -/
def State.logLink (s : State) (o : Op) (origin : Word) : State :=
  let lanes := o.undone.toNat
  let lost (g : Word) : Bool := bitsNat g.toNat 26 25 = 3
  let each := maskOf ((o.acc.filter fun a => match a.fail with | some (c, g) => c == 10 && lost g | none => false).map LaneAcc.lane)
  let unknown := if o.acc.any fun a => a.fail.isSome then each.toNat else if lost origin then lanes else 0
  s.logErr 2 3 origin ((o.acc.head?.map LaneAcc.addr).getD 0) o.launch (BitVec.ofNat 64 (lanes + unknown * 2 ^ 32))

/-- What a failed FAB operation leaves for a later FFLUSH: each failed lane with its endpoint, or the operation as a whole. -/
def Op.fabFailures (o : Op) (cause : BitVec 6) (origin : Word) : List FabFail :=
  let eps (c : BitVec 6) (g : Word) (own : List Nat) : List Nat := if c = 10 then [bitsNat g.toNat 24 13] else own
  let each : List FabFail := o.acc.filterMap fun a =>
    a.fail.map fun x =>
      ⟨o.id, laneBit a.lane, eps x.1 x.2 (match o.instr with | .fmcast .. => o.targets | _ => [a.off]), x.1, x.2⟩
  (if each.isEmpty then [⟨o.id, o.lanes, eps cause origin o.flushEps, cause, origin⟩] else each).filter fun x => x.cause == 10 || x.cause == 2

/-- A FAB operation, or a peer arrival, settles POISONED; a failure that FFLUSH reports is kept for it (12 R356). -/
def State.settleFab (s : State) (o : Op) (cause : BitVec 6) (origin : Word) : State :=
  let s := if cause = 10 then s.logLink o origin else s
  let o' := (s.op? o.id).getD o
  let s :=
    if o.flushEps.isEmpty then s
    else s.setWarp o.crew o.warp fun w => { w with fabFails := w.fabFails ++ o'.fabFailures cause origin }
  s.settle o.id (.poisoned cause origin)

/-- Whether an operation arrives poisoned (R159, R160). -/
def Op.arrivesPoisoned (o : Op) : Bool :=
  (firstPoison o.keys).isSome || (match o.instr with | .pbarrive _ _ _ p => p | _ => false)

/-! ### Waiting (R151, R162) -/

/-- A PBWAIT ends: a named token settles; a blocking one lets its threads go on, which is an acquire for every class, and
observe a poison. -/
def State.endPbwait (s : State) (o : Op) (poison : Option (Nat × BitVec 6 × Word)) : State :=
  if o.tok ≠ 0 then
    match poison with
    | some (_, c, g) => s.settle o.id (.poisoned c g)
    | none => s.finish o.id
  else
    let s := (s.finish o.id).leaveWait o.crew o.warp o.lanes
    let s := s.flushFetch o.crew o.warp o.lanes
    match poison with
    | some (t, c, g) => s.observe o.crew o.warp (lanesOf o.lanes) t c g
    | none => s

/-- A phase-barrier operation fails with a cause. -/
def State.failPhase (s : State) (o : Op) (cause : BitVec 6) (origin : Option Word) : State :=
  match o.instr with
  | .pbwait _ _ => s.endPbwait o (some (0, cause, origin.getD o.origin))
  | _ => s.settleFab o cause (origin.getD o.origin)

/-- Reach the granule of a phase-barrier operation: its storage key, or what stopped it. Every phase-barrier act, the one of
PBWAIT too, needs R and W (16 R457). -/
def State.reachPhase (s : State) (o : Op) (write : Bool) : State × Except Gate (List Part) :=
  let va := o.arg 1
  if va % 16 ≠ 0 then (s, .error (.fail 15 none))
  else if isPeerArrival o.instr then s.reach (s.fabWho o) va 16 write { r := true, w := true, pod := true }
  else s.reach (s.opWho o .seq) va 16 write { r := true, w := true }

/-- What a gate that stopped a phase-barrier operation does: a failure settles it at once. -/
def State.stopPhase (s : State) (o : Op) (g : Gate) : State :=
  let s :=
    if isPeerArrival o.instr then
      (match g with | .fail 15 _ => s.failOp o.id 15 none | .fail 3 _ => s.failOp o.id 3 none | _ => s.stopFab o accAtomic g)
    else s.stopOp o.id (s.opWho o .seq) accAtomic true g
  match s.op? o.id with
  | some p => match p.fail with | some (c, g) => s.failPhase p c (some g) | none => s
  | none => s

/-- A started phase-barrier operation sends its act to the home slice; PBWAIT only looks whether its granule can be
read. A PBINIT whose words are refused settles with cause 12 before its address is looked at (DESIGN CHOICE, log 54). -/
def State.sendPhase (s : State) (o : Op) : State :=
  match o.instr with
  | .pbwait _ _ =>
    match s.reachPhase o false with
    | (s, .error g) => s.stopPhase o g
    | (s, .ok _) => s
  | .pbinit _ _ =>
    if o.arg 0 % 2 ^ 32 = 0 ∨ o.arg 0 / 2 ^ 32 = 0 then s.failPhase o 12 none else send s
  | i => if isPeerArrival i && o.arg 2 != s.endpoint then s else send s
where
  /-- Queue the act. -/
  send (s : State) : State :=
    match s.reachPhase o true with
    | (s, .error g) => s.stopPhase o g
    | (s, .ok ps) =>
      (s.queueAct ((ps.head?.map Part.key).getD 0)
        (if isPeerArrival o.instr then .fab (dieOfCore o.core) else .core o.core) (.whole o.id)).setOp o.id fun o => { o with prog := 1 }

/-- The act of a phase-barrier operation at its home slice. -/
def State.actPhase (s : State) (o : Op) : State :=
  match s.reachPhase o true with
  | (s, .error g) => (s.setOp o.id fun o => { o with prog := 0 }).stopPhase o g
  | (s, .ok ps) =>
    let old := leNat (s.readParts ps)
    let new :=
      match o.instr with
      | .pbinit _ _ => initPb (o.arg 0)
      | _ => arrivePb old (o.arg 0) o.arrivesPoisoned
    (s.writeParts ps (leBytes 16 new)).finish o.id

/-- A PBWAIT looks at its granule; it ends when its condition holds. -/
def State.checkPbwait (s : State) (o : Op) : State :=
  match s.reachPhase o false with
  | (s, .error g) => s.stopPhase o g
  | (s, .ok ps) =>
    let g := leNat (s.readParts ps)
    if !phaseOver g (o.arg 0) then s
    else if phasePoison g then
      let die := (s.homeOf ((ps.head?.map Part.key).getD 0)).1
      s.endPbwait o (some (0, 14, if o.tok = 0 then dieOrigin .hme die 0 else o.origin))
    else s.endPbwait o none

end Sys2Proof.Machine
end

