-- ==== Sys2Proof/Machine/Fch.lean ====
section
/-! DEFINITION. The forms of the fetch engine (09 R277-R282): CODEPUB, CPATCH and CODEQ. -/

namespace Sys2Proof.Machine

/-! ### Issue -/

/-- CODEPUB: address and length, with the bits above its 32 (R279). -/
def execCodepub (f : Fields) (s : State) : Host.Outcome State Fault Refusal :=
  withIssue (.codepub f) s fun I => I.lowTrap <|
    I.acceptOp { I.newOp f.c f.e with
      args := [BitVec.ofNat 64 (I.read I.low f.a 64), BitVec.ofNat 64 (I.read I.low f.d 64)] }

/-- CPATCH: address and slot (R281). -/
def execCpatch (f : Fields) (ent : PatchEntry) (s : State) : Host.Outcome State Fault Refusal :=
  withIssue (.cpatch f ent) s fun I => I.lowTrap <|
    let x := I.read I.low f.d 128
    I.acceptOp { I.newOp f.c f.e with
      args := [BitVec.ofNat 64 (I.read I.low f.a 64), BitVec.ofNat 64 x, BitVec.ofNat 64 (x / 2 ^ 64 % 2 ^ 32)] }

/-- CODEQ: a read of each issuing lane (R282). -/
def execCodeq (f : Fields) (s : State) : Host.Outcome State Fault Refusal :=
  withIssue (.codeq f) s fun I => I.loadStore f true

/-! ### Published sets (R271) -/

/-- S(r); none is every core of the module. -/
def State.coresOf (s : State) (o : Op) (r : Reach) : Option (List Nat) :=
  match r with
  | .crew => some [o.core]
  | .cluster => some (((s.crew? o.crew).map Crew.rectCores).getD [o.core])
  | _ => none

/-- The state of a line after a CODEPUB at a set of cores. -/
def pubLine (cores : Option (List Nat)) (l : Option (List Nat) × Bool) : Option (List Nat) × Bool :=
  match cores, l.1 with
  | some cs, some p => (some (cs.foldl (fun q c => insNat c q) p), false)
  | _, _ => (none, false)

/-- Change the code frame that holds a storage key. -/
def State.setCode (s : State) (key : Nat) (f : CodeFrame → CodeFrame) : State :=
  { s with code := updWhere (fun c => c.page == s.frameOf key) f s.code }

/-- One frame of a publication: its generation advances and its lines `lo` to `hi` change state. -/
def State.pubFrame (s : State) (key lo hi : Nat) (cores : Option (List Nat)) : State :=
  s.setCode key fun f =>
    { f with
      gen := f.gen + 1
      lines := f.lines.mapIdx fun i l => if lo ≤ i && i ≤ hi then pubLine cores l else l }

/-- The frames of a publication, ascending: virtual frame `page`, up to line `last`. -/
def State.pubPages (s : State) (o : Op) (cores : Option (List Nat)) (first last : Nat) : Nat → Nat → State
  | 0, _ => s
  | fuel + 1, page =>
    if last / 64 < page then s
    else
      let w := s.opWho o .fch
      match s.xlateAs w (page * 4096) {} with
      | (s, .fault k l e) => s.stopOp o.id w accRead false (.fault (page * 4096) k l e)
      | (s, .bad c g) => s.stopOp o.id w accRead false (.fail c g)
      | (s, .ok key _) =>
        let lo := max first (page * 64) - page * 64
        let hi := min last (page * 64 + 63) - page * 64
        State.pubPages (s.pubFrame key lo hi cores) o cores first last fuel (page + 1)

/-- A form of a recompute crew that R413 refuses: its threads stop, and the operation will fail with cause 8 (14 R413). -/
def State.recipeWriteOp (s : State) (o : Op) (die : Nat) : State :=
  (s.stopRecompute o.crew).failOp o.id 8 (some (mkOrigin .rce die o.core 0))

/-- CODEPUB performs (R279). -/
def State.runCodepub (s : State) (o : Op) : State :=
  let a := o.arg 0
  let n := o.arg 1
  let own := s.recomputeOf (some o.crew)
  let s :=
    if o.fail.isSome then s
    else if own.isSome then s.recipeWriteOp o ((own.map Prod.fst).getD 0)
    else if 2 ^ 32 ≤ n then s.failOp o.id 12 none
    else if 2 ^ 57 < a + n ∨ 2 ^ 57 ≤ a then s.failOp o.id 3 none
    else if n = 0 then s
    else
      let first := a / 64
      let last := (a + n - 1) / 64
      State.pubPages s o (s.coresOf o (descReach (descOf o.instr))) first last (last / 64 - first / 64 + 1) (first / 64)
  s.completeLanes o.id

/-- An act of a started CODEPUB is lost: the acts on the `unit` lines before it stay applied (R279). -/
def State.loseLine (s : State) (o : Op) (unit : Nat) : State :=
  let a := o.arg 0
  let n := o.arg 1
  if unit = 0 ∨ n = 0 ∨ 2 ^ 32 ≤ n ∨ 2 ^ 57 < a + n then s
  else
    let first := a / 64
    let last := min ((a + n - 1) / 64) (first + unit - 1)
    State.pubPages s o (s.coresOf o (descReach (descOf o.instr))) first last (last / 64 - first / 64 + 1) (first / 64)

/-- A line with a slot written into it, its LW.TGT, LW.SPAR and LW.LPAR bits set to match (R281). -/
def patchLine (b n slot : Nat) (ent : PatchEntry) : Nat :=
  let slots := b % 2 ^ 480
  let slots := slots - bitsNat slots (96 * n + 95) (96 * n) * 2 ^ (96 * n) + slot * 2 ^ (96 * n)
  let setBit (x i : Nat) (v : Bool) : Nat := x - x / 2 ^ i % 2 * 2 ^ i + b2n v * 2 ^ i
  let lw := b / 2 ^ 480
  let lw := match ent with | .keep => lw | .entry => setBit lw (27 + n) true | .noEntry => setBit lw (27 + n) false
  let lw := setBit lw (19 + n) (onesNat 96 slot % 2 == 1)
  let lw := setBit lw 18 (onesNat 13 (lw / 2 ^ 19) % 2 == 1)
  slots + lw * 2 ^ 480

/-- CPATCH performs, as one act at the home (R281). -/
def State.runCpatch (s : State) (o : Op) (ent : PatchEntry) : State :=
  let a := o.arg 0
  let w := s.opWho o .fch
  let line := a / 64 * 64
  let s :=
    if o.fail.isSome then s
    else if 2 ^ 57 ≤ a then s.failOp o.id 3 none
    else
      match slotIndex (BitVec.ofNat 57 a) with
      | none => s.failOp o.id 15 none
      | some n =>
        match s.reach w line 64 true { w := true, x := true } with
        | (s, .error g) => s.stopOp o.id w accWrite false g
        | (s, .ok ps) =>
          let key := (ps.head?.map Part.key).getD 0
          match s.codeAt key with
          | none => s.failOp o.id 5 none
          | some _ =>
            let slot := o.arg 1 + o.arg 2 * 2 ^ 64
            let st : Option (List Nat) := s.coresOf o (descReach (descOf o.instr))
            let s := s.writeParts ps (leBytes 64 (patchLine (leNat (s.readParts ps)) n slot ent))
            s.setCode key fun f =>
              { f with gen := f.gen + 1, lines := updAt (s.paOf key % 4096 / 64) (fun _ => (st, false)) f.lines }
  match s.op? o.id with
  | some p => if p.wait = .none then s.completeLanes o.id else s
  | none => s

end Sys2Proof.Machine
end

