-- ==== Sys2Proof/Machine/Cpe.lean ====
section
/-! DEFINITION. The copy engine (10 R285-R311): shape records, the checks of an issue, acceptance with its wards, and how
the rows of an accepted operation perform. -/

namespace Sys2Proof.Machine

/-! ### Shape records (R285-R288) -/

/-- The fields of a shape record. -/
structure Shape where
  cols   : Nat
  rows   : Nat
  obs    : Nat
  reach  : Nat
  scaled : Bool
  trans  : Bool
  var    : Nat
  dfmt   : Nat
  sfmt   : Nat
  dpitch : Nat
  spitch : Nat
  tbase  : Nat
  sbase  : Nat
  csh    : Nat
  rsh    : Nat
  spr    : Nat
  deriving DecidableEq, Repr

/-- Word n of a record. -/
def recWord (r : BitVec 512) (n : Nat) : Nat := bitsNat r.toNat (64 * n + 63) (64 * n)

/-- The fields of a record (R285). -/
def shapeOf (r : BitVec 512) : Shape where
  cols := bitsNat (recWord r 0) 63 48
  rows := bitsNat (recWord r 0) 47 32
  obs := bitsNat (recWord r 0) 25 20
  reach := bitsNat (recWord r 0) 19 17
  scaled := bitNat (recWord r 0) 16
  trans := bitNat (recWord r 0) 15
  var := bitsNat (recWord r 0) 14 10
  dfmt := bitsNat (recWord r 0) 9 5
  sfmt := bitsNat (recWord r 0) 4 0
  dpitch := bitsNat (recWord r 1) 63 32
  spitch := bitsNat (recWord r 1) 31 0
  tbase := bitsNat (recWord r 2) 56 0
  sbase := bitsNat (recWord r 3) 56 0
  csh := bitsNat (recWord r 4) 47 40
  rsh := bitsNat (recWord r 4) 39 32
  spr := bitsNat (recWord r 4) 31 0

/-- Width of an element format in bytes; 0 for a code that is none (R286). -/
def elemBytes (code : Nat) : Nat :=
  match code with
  | 0x01 | 0x02 | 0x16 => 1
  | 0x03 | 0x04 | 0x0C | 0x0D => 2
  | 0x05 | 0x06 | 0x0E => 4
  | 0x07 | 0x08 | 0x0F => 8
  | _ => 0

/-- es. -/
def Shape.es (h : Shape) : Nat := elemBytes h.sfmt
/-- ed. -/
def Shape.ed (h : Shape) : Nat := elemBytes h.dfmt

/-- The pairs of formats that convert (R296). -/
def convertible (sf df : Nat) : Bool :=
  sf == df || [(0x0E, 0x0D), (0x0E, 0x0C), (0x0F, 0x0E), (0x0D, 0x0E), (0x0C, 0x0E), (0x0E, 0x0F)].contains (sf, df)

/-- The RES0 bits of a record are 0. -/
def recReserved (r : BitVec 512) : Bool :=
  bitsNat (recWord r 0) 31 26 == 0 && bitsNat (recWord r 2) 63 57 == 0 && bitsNat (recWord r 3) 63 57 == 0 &&
  bitsNat (recWord r 4) 63 48 == 0 && recWord r 5 == 0 && recWord r 6 == 0 && recWord r 7 == 0

/-- Whether a record is valid (R287). -/
def shapeValid (r : BitVec 512) : Bool :=
  let h := shapeOf r
  h.es != 0 && h.ed != 0 && convertible h.sfmt h.dfmt &&
  (if h.sfmt = 0x16 then h.var % 8 != 0 else h.var == 0) &&
  h.rows != 0 && h.cols != 0 && h.reach ≤ 4 && h.obs != 0 &&
  (!h.scaled || (h.sfmt == 0x16 && h.dfmt == 0x16 && h.cols % 32 == 0)) &&
  h.spitch % h.es == 0 && h.dpitch % h.ed == 0 &&
  (!h.scaled || (h.tbase % h.es == 0 && h.sbase % 4 == 0)) && recReserved r

/-- The record of a VALID shape slot. -/
def Crew.shape? (c : Crew) (o : Opd) : Option (BitVec 512) := (c.shapes.getD (Opd.tileNo o) none)

/-! ### Placement (R289, R290) -/

/-- Bytes from the lowest to the highest byte of the source. -/
def Shape.srcExt (h : Shape) : Nat :=
  if h.trans then (h.cols - 1) * h.spitch + h.rows * h.es else (h.rows - 1) * h.spitch + h.cols * h.es
/-- Bytes from the lowest to the highest byte of the destination in memory. -/
def Shape.dstExt (h : Shape) : Nat := (h.rows - 1) * h.dpitch + h.cols * h.ed
/-- Offset of source element (i, j). -/
def Shape.srcOff (h : Shape) (i j : Nat) : Nat :=
  if h.trans then j * h.spitch + i * h.es else i * h.spitch + j * h.es
/-- Offset of element (i, j) in the operand slots. -/
def Shape.slotOff (h : Shape) (i j : Nat) : Nat := (i * h.cols + j) * h.ed
/-- Bytes that a TLOAD places. -/
def Shape.slotBytes (h : Shape) : Nat := h.rows * h.cols * h.ed
/-- Operand slots that a TLOAD fills. -/
def Shape.slotCount (h : Shape) : Nat := (h.slotBytes + 4095) / 4096

/-! ### The sides of an operation -/

/-- A side of a move: a global address, a CSM pointer, or one CSM offset at several target cores. -/
inductive Side
  | none
  | glob (a : Nat)
  | csm (ptr : Nat)
  | many (off : Nat)
  deriving DecidableEq, Repr

/-- A side from its suffix. -/
def sideOf (csm : Bool) (x : Nat) : Side := if csm then .csm (x % 2 ^ 32) else .glob x

/-- The source: argument 0. -/
def Op.srcSide (o : Op) : Side :=
  match o.instr with
  | .tload _ c | .tcopy _ c _ _ => sideOf c (o.arg 0)
  | .tstore .. | .tscatter .. => sideOf true (o.arg 0)
  | .hload _ | .tmcast .. | .tgather .. => .glob (o.arg 0)
  | _ => .none

/-- The destination in memory: argument 1. -/
def Op.dstSide (o : Op) : Side :=
  match o.instr with
  | .tcopy _ _ c _ | .tfill _ c _ => sideOf c (o.arg 1)
  | .tgather .. => sideOf true (o.arg 1)
  | .tstore .. | .tscatter .. => .glob (o.arg 1)
  | .tmcast .. => .many (o.arg 1)
  | _ => .none

/-- The index list: argument 2. -/
def Op.idxSide (o : Op) : Side :=
  match o.instr with
  | .tgather _ _ c | .tscatter _ c _ => sideOf c (o.arg 2)
  | _ => .none

/-- Whether the source is gathered, and whether the destination is scattered. -/
def Op.gathers (o : Op) : Bool := match o.instr with | .tgather .. => true | _ => false
/-- See `Op.gathers`. -/
def Op.scatters (o : Op) : Bool := match o.instr with | .tscatter .. => true | _ => false

/-- `.LATCH`. -/
def cpeLatch : Instr → Bool
  | .tcopy _ _ _ l | .tmcast _ l | .tgather _ l _ | .tfill _ _ l => l
  | _ => false

/-- The reduce suffix. -/
def cpeReduce : Instr → ReduceOp
  | .tstore _ r | .tscatter _ _ r => r
  | _ => .plain

/-- The shape of an operation. -/
def Op.sh (o : Op) : Shape := shapeOf o.shape

/-- Rows of an operation; an HLOAD is one row. -/
def Op.rowCount (o : Op) : Nat := match o.instr with | .hload _ => 1 | _ => o.sh.rows

/-! ### Issue (R293) -/

/-- A pair of uniform registers from an operand. -/
def Issue.uniPair (I : Issue) (o : Opd) : Nat × Nat :=
  match o with
  | .uni r => (I.warp.uni r.toNat, I.warp.uni (r.toNat + 1))
  | _ => (0, 0)

/-- The arguments of a form: source, destination, and index list, place mask or fill value. -/
def Issue.cpeArgs (I : Issue) (f : Fields) : List Nat :=
  let rd (o : Opd) : Nat := match o with | .imm v => wrapNat 64 v.toInt | _ => I.read I.low o 64
  match I.i with
  | .hload _ => [rd f.a, 0, 0]
  | .tload .. => [rd f.b, 0, 0]
  | .tstore .. | .tcopy .. => [rd f.b, rd f.d, 0]
  | .tmcast .. => [rd f.b, (I.uniPair f.d).1, (I.uniPair f.d).2]
  | .tgather .. => [(I.uniPair f.b).1, rd f.d, (I.uniPair f.b).2]
  | .tscatter .. => [rd f.b, (I.uniPair f.d).1, (I.uniPair f.d).2]
  | .tfill .. => [0, rd f.d, rd f.b]
  | _ => []

/-- The combinations of shape and form that Operand Range refuses (R289, R290, R300-R302). -/
def shapeRefused (i : Instr) (h : Shape) : Bool :=
  let tload := match i with | .tload .. => true | _ => false
  (h.trans && (match i with | .tgather .. | .tscatter .. | .tfill .. => true | _ => false)) ||
  (tload && 65536 < h.slotBytes) ||
  (h.scaled && !tload) ||
  (match i with | .tfill .. => h.sfmt != h.dfmt | _ => false) ||
  (cpeReduce i != .plain && !([0x05, 0x06, 0x07, 0x08, 0x0C, 0x0D, 0x0E, 0x0F].contains h.dfmt))

/-- The places of a place mask, by rising bit (R303). -/
def maskPlaces (m : Nat) : List (Int × Int) :=
  (List.range 55).filterMap fun b => if bitNat m b && b % 8 != 7 then some (((b % 8 : Nat) : Int) - 3, ((b / 8 : Nat) : Int) - 3) else none

/-- Whether a place mask is refused with Operand Range: 0, or a bit that names no place. -/
def maskRefused (m : Nat) : Bool := m % 2 ^ 64 == 0 || [7, 15, 23, 31, 39, 47].any (bitNat m) || bitsNat m 63 55 != 0

/-- A place as its eight bits (01 R26). -/
def placeCode (dx dy : Int) : Nat := wrapNat 4 dy * 16 + wrapNat 4 dx

/-- The first place that names a core outside the cluster rectangle. -/
def Crew.badPlace (c : Crew) (ps : List (Int × Int)) : Option Nat :=
  ps.findSome? fun p =>
    match coreAt c.core p.1 p.2 with
    | some k => if c.inRect k then none else some (placeCode p.1 p.2)
    | none => some (placeCode p.1 p.2)

/-- The checks of a form that names a shape slot, in the order of R293: the state with its trap, or the record. -/
def Issue.cpeCheck (I : Issue) (f : Fields) : Except State (BitVec 512) :=
  match I.crew.shape? f.a with
  | none => .error (I.trapAct 0x0B)
  | some r =>
    let h := shapeOf r
    if shapeRefused I.i h then .error (I.trapAct 0x0B)
    else
      match I.i with
      | .tload .. => if I.crew.slots < Opd.tileNo f.d + h.slotCount then .error (I.trapAll I.mask 0x08) else .ok r
      | .tmcast .. =>
        let m := (I.uniPair f.d).2
        match I.crew.badPlace (maskPlaces m) with
        | some p => .error (I.trapAll I.mask 0x0A 0 (BitVec.ofNat 64 p))
        | none => if maskRefused m then .error (I.trapAct 0x0B) else .ok r
      | _ => .ok r

/-- The operation that a CPE form makes, or the state that its trap leaves. -/
def Issue.cpeForm (I : Issue) (f : Fields) : Except State Op :=
  let base : Op := { I.newOp f.c f.e with args := (I.cpeArgs f).map (BitVec.ofNat 64) }
  match I.i with
  | .hload _ => .ok base
  | _ =>
    (I.cpeCheck f).map fun r =>
      { base with
        shape := r
        targets :=
          match I.i with
          | .tmcast .. => (maskPlaces (I.uniPair f.d).2).filterMap fun p => coreAt I.core p.1 p.2
          | _ => [] }

/-! ### Acceptance (R291, R294, R304) -/

/-- The CSM pieces of n bytes at a pointer, if the pointer passes R227. -/
def State.csmSpan (s : State) (c : Crew) (ptr n : Nat) : Option (List CsmPart) :=
  match s.csmAt c ptr 0 n with
  | .ok core window off => some (s.csmParts c core window off n)
  | _ => none

/-- The pieces of n bytes at an offset of the cluster window of a core, if they fit. -/
def State.manySpan (s : State) (c : Crew) (core off n : Nat) : Option (List CsmPart) :=
  if off + n ≤ s.csmLimit c core true then some (s.csmParts c core true off n) else none

/-- Whether a side's base is misaligned for its elements. -/
def Side.crooked : Side → Nat → Bool
  | .none, _ => false
  | .glob a, n | .csm a, n | .many a, n => n != 0 && a % n != 0

/-- Whether a side lies outside its range at acceptance: an address above 57 bits, or a CSM range that fails R227. -/
def State.sideOut (s : State) (c : Crew) (targets : List Nat) (n : Nat) : Side → Bool
  | .none => false
  | .glob a => 2 ^ 57 ≤ a
  | .csm p => (s.csmSpan c p n).isNone
  | .many o => 2 ^ 19 ≤ o || targets.any fun k => (s.manySpan c k o n).isNone

/-- The bytes of a side, for overlaps and wards: its core, whether it is CSM, and its ranges. -/
def State.sideSpans (s : State) (c : Crew) (core asid : Nat) (targets : List Nat) (n : Nat) :
    Side → List (Nat × Bool × List (Nat × Nat × Nat))
  | .none => []
  | .glob a => [(core, false, [(asid, a, a + n)])]
  | .csm p =>
    match s.csmAt c p 0 n with
    | .ok k w off => [(k, true, (s.csmParts c k w off n).map fun q => (q.crew, q.off, q.off + q.n))]
    | _ => []
  | .many o => targets.map fun k => (k, true, ((s.manySpan c k o n).getD []).map fun q => (q.crew, q.off, q.off + q.n))

/-- Whether two sides share a byte. -/
def spansMeet (xs ys : List (Nat × Bool × List (Nat × Nat × Nat))) : Bool :=
  xs.any fun x => ys.any fun y =>
    x.2.1 == y.2.1 && x.2.2.any fun u => y.2.2.any fun v => u.1 == v.1 && u.2.1 < v.2.2 && v.2.1 < u.2.2

/-- The bytes of an operation's index list. -/
def Op.idxExt (o : Op) : Nat := 4 * o.sh.rows

/-- The cause with which an operation settles at acceptance, if it does (R291, R297, R301, R303). -/
def State.cpeRefusal (s : State) (c : Crew) (o : Op) : Option (BitVec 6) :=
  let h := o.sh
  let core := o.core
  let asid := s.asidOf c
  match o.instr with
  | .hload _ => if o.arg 0 % 64 ≠ 0 then some 15 else if 2 ^ 57 ≤ o.arg 0 then some 3 else none
  | _ =>
    if o.srcSide.crooked h.es || o.dstSide.crooked h.ed || o.idxSide.crooked 4 then some 15
    else if s.sideOut c o.targets h.srcExt o.srcSide || s.sideOut c o.targets h.dstExt o.dstSide ||
        s.sideOut c o.targets o.idxExt o.idxSide then some 3
    else
      let src := match o.srcSide with | .csm p => bitsNat p 18 0 | .glob a => a | _ => 0
      let overlap :=
        (match o.instr with | .tcopy .. => true | _ => false) &&
        spansMeet (s.sideSpans c core asid o.targets h.srcExt o.srcSide) (s.sideSpans c core asid o.targets h.dstExt o.dstSide)
      if (h.scaled && (h.spitch == 0 || src < h.tbase)) || overlap then some 12 else none

/-- Whether a copy of a recompute crew writes outside its containment, which is checked at acceptance: the die of the
recipe (14 R413). A scattered row is checked when it performs. -/
def State.cpeContained (s : State) (o : Op) : Option Nat :=
  match s.recomputeOf (some o.crew), o.dstSide, o.scatters with
  | some (d, _), .glob a, false =>
    let h := o.sh
    let who : Who := { s.opWho o .cpe with loc := .ahead o.core }
    let bad := (List.range h.rows).any fun i =>
      match (s.reach who (a + i * h.dpitch) (h.cols * h.ed) true { w := true }).2 with
      | .error (.recipeWrite _) => true
      | _ => false
    if bad then some d else none
  | _, _, _ => none

/-- The wards of an operation, each with the core that holds it (R304). -/
def State.cpeWards (s : State) (c : Crew) (o : Op) : List (Nat × Ward) :=
  let h := o.sh
  let mk (dest : Bool) (n : Nat) (side : Side) : List (Nat × Ward) :=
    (s.sideSpans c o.core (s.asidOf c) o.targets n side).map fun x =>
      (x.1, { op := o.id, slot := o.slot, tok := o.tok, dest := dest, csm := x.2.1, spans := x.2.2 })
  match o.instr with
  | .hload _ => []
  | .tgather .. => mk false o.idxExt o.idxSide ++ mk true h.dstExt o.dstSide
  | .tscatter .. => mk false o.idxExt o.idxSide ++ mk false h.srcExt o.srcSide
  | _ => mk false h.srcExt o.srcSide ++ mk true h.dstExt o.dstSide

/-- Whether every ward has room on its core. -/
def State.wardsFit (s : State) (ws : List (Nat × Ward)) : Bool :=
  ws.all fun w => (ws.filter fun v => v.1 == w.1).length ≤ s.wardFree w.1

/-- Whether an issue's wards have room; an issue that will trap needs none. -/
def Issue.cpeFits (I : Issue) (f : Fields) : Bool :=
  match I.cpeForm f with
  | .error _ => true
  | .ok o => I.s.wardsFit (I.s.cpeWards I.crew o)

/-- The trace that TQUERY reads (R309). -/
def Op.cpeTrace (o : Op) (cause : Option (BitVec 6)) (done : Bool) : CpeTrace :=
  let rows := match o.instr with | .hload _ => (Config.hloadRows o.id).toNat | _ => o.sh.rows
  { rows := rows
    prog := if done then rows else o.prog
    exact := cause != some 2
    form := BitVec.ofNat 4 (opcodeOf o.instr) }

/-- Write the trace of an operation into the record bound to it. -/
def State.noteTrace (s : State) (o : Op) (cause : Option (BitVec 6)) (done : Bool) : State :=
  s.setWarp o.crew o.warp fun w => w.setTok o.tok fun r => if r.bind = o.id then { r with trace := some (o.cpeTrace cause done) } else r

/-- The failure with which an operation settles before it makes any access, if it does (R291; 14 R413). -/
def Issue.cpeFailure (I : Issue) (o : Op) : Option (BitVec 6 × Word) :=
  match I.s.cpeRefusal I.crew o with
  | some c => some (c, o.origin)
  | none => (I.s.cpeContained o).map fun d => (8, mkOrigin .rce d o.core 0)

/-- Wards enter the tables of their cores. -/
def State.register (s : State) (ws : List (Nat × Ward)) : State :=
  ws.foldl (fun s w => s.setCore w.1 fun k => { k with wards := k.wards ++ [w.2] }) s

/-- The acceptance of a CPE form: its wards are registered and its token binds. A refused one waits for nothing, and settles
POISONED at its next event (04 R149). -/
def Issue.acceptCpe (I : Issue) (f : Fields) : State :=
  match I.cpeForm f with
  | .error s => s
  | .ok o =>
    let ws := I.s.cpeWards I.crew o
    match I.cpeFailure o with
    | none => ((I.acceptOp o).noteTrace o none false).register ws
    | some x =>
      let s := ((I.acceptOp { o with started := true, fail := some x }).noteTrace o none false).register ws
      if x.1 = 8 then s.stopRecompute o.crew else s

/-- HLOAD. -/
def execHload (f : Fields) (s : State) : Host.Outcome State Fault Refusal :=
  withIssue (.hload f) s fun I => I.acceptCpe f

/-- TLOAD. -/
def execTload (f : Fields) (scsm : Bool) (s : State) : Host.Outcome State Fault Refusal :=
  withIssue (.tload f scsm) s fun I => I.acceptCpe f

/-- TSTORE. -/
def execTstore (f : Fields) (rop : ReduceOp) (s : State) : Host.Outcome State Fault Refusal :=
  withIssue (.tstore f rop) s fun I => I.acceptCpe f

/-- TCOPY. -/
def execTcopy (f : Fields) (scsm dcsm latch : Bool) (s : State) : Host.Outcome State Fault Refusal :=
  withIssue (.tcopy f scsm dcsm latch) s fun I => I.acceptCpe f

/-- TMCAST. -/
def execTmcast (f : Fields) (latch : Bool) (s : State) : Host.Outcome State Fault Refusal :=
  withIssue (.tmcast f latch) s fun I => I.acceptCpe f

/-- TGATHER. -/
def execTgather (f : Fields) (latch icsm : Bool) (s : State) : Host.Outcome State Fault Refusal :=
  withIssue (.tgather f latch icsm) s fun I => I.acceptCpe f

/-- TSCATTER. -/
def execTscatter (f : Fields) (icsm : Bool) (rop : ReduceOp) (s : State) : Host.Outcome State Fault Refusal :=
  withIssue (.tscatter f icsm rop) s fun I => I.acceptCpe f

/-- TFILL. -/
def execTfill (f : Fields) (dcsm latch : Bool) (s : State) : Host.Outcome State Fault Refusal :=
  withIssue (.tfill f dcsm latch) s fun I => I.acceptCpe f

/-! ### Queries (R305, R309) -/

/-- TQUERY of a token. -/
def TokRec.query (r : TokRec) : Nat :=
  (match r.trace with
   | some t => t.rows % 2 ^ 16 * 2 ^ 48 + t.prog % 2 ^ 16 * 2 ^ 32 + b2n t.exact * 2 ^ 12 + t.form.toNat * 2 ^ 8
   | none => 0xF * 2 ^ 8) + r.cause.toNat * 4 + r.word % 4

/-- TQUERY. -/
def execTquery (f : Fields) (s : State) : Host.Outcome State Fault Refusal :=
  withIssue (.tquery f) s fun I =>
    let x :=
      match f.a with
      | .tok t => (I.warp.token t.toNat).query
      | h =>
        match I.crew.shape? h, f.b with
        | some r, .imm n => recWord r n.toNat
        | _, _ => 0
    I.perLane fun _ => .ok [.reg f.d 64 x]

/-- The ward table that WARDQ reads and the byte that it looks for; a pointer outside its window names no byte. -/
def Issue.wardByte (I : Issue) (l : Nat) (f : Fields) (csm : Bool) : Except Trap (Nat × Option Span) :=
  if csm then
    let p := I.read l f.a 32
    match I.s.csmAt I.crew p 0 1 with
    | .placeRange q => .error (I.trapHere 0x0A q)
    | .csmRange => .ok ((coreAt I.core (sext 4 (bitsNat p 27 24)) (sext 4 (bitsNat p 31 28))).getD I.core, none)
    | .ok core window off => .ok (core, ((I.s.csmParts I.crew core window off 1).head?).map fun q => .csm q.crew q.off 1)
  else .ok (I.core, some (.va I.asid (I.read l f.a 64) 1))

/-- WARDQ. -/
def execWardq (f : Fields) (csm : Bool) (s : State) : Host.Outcome State Fault Refusal :=
  withIssue (.wardq f csm) s fun I =>
    I.allLanes fun l =>
      match I.wardByte l f csm with
      | .error t => .trap t
      | .ok (core, b) =>
        let hit := b.bind fun x => (I.s.core core).wards.find? fun w => w.meets x
        let low := match hit with | some w => w.tok % 32 * 2 ^ 16 + w.slot % 64 * 2 ^ 8 + b2n w.dest * 2 + 1 | none => 0
        .ok [.reg f.d 64 (I.s.wardFree core * 2 ^ 56 + low)]

/-! ### Elements (R296, R302) -/

/-- The float format of a code. -/
def floatCode : Nat → Option Fmt
  | 0x0C => some fp16
  | 0x0D => some bfp16
  | 0x0E => some fp32
  | 0x0F => some fp64
  | _ => none

/-- An element converted from SFMT to DFMT. -/
def convElem (sf df x : Nat) : Nat :=
  if sf = df then x
  else
    match floatCode sf, floatCode df with
    | some S, some D => (D.ofVal .rne false (S.decode x)).code
    | _, _ => x

/-- An element of the destination combined with a converted one. -/
def reduceElem (op : ReduceOp) (df old v : Nat) : Nat :=
  match op with
  | .plain => v
  | _ =>
    match floatCode df with
    | some F =>
      match op with
      | .add => (F.add .rne false (F.decode old) (F.decode v)).code
      | .min => (minMax F false false (F.decode old) (F.decode v)).code
      | _ => (minMax F true false (F.decode old) (F.decode v)).code
    | none =>
      let w := 8 * elemBytes df
      let z (x : Nat) : Int := if df % 2 = 0 then sext w x else (x : Int)
      match op with
      | .add => (old + v) % 2 ^ w
      | .min => if z old ≤ z v then old else v
      | _ => if z old ≤ z v then v else old

/-- Element k of width n of a list of bytes. -/
def elemAt (bs : List Byte) (n k : Nat) : Nat := leNat ((bs.drop (k * n)).take n)

/-! ### What a row reaches (R289, R297, R301) -/

/-- Who makes the accesses of a CPE operation: the walk-ahead TLB translates them (R306). -/
def State.cpeWho (s : State) (o : Op) : Who := { s.opWho o .cpe with loc := .ahead o.core }

/-- A global range that a row reaches: its place, what it needs of its pages, and ACCESS. -/
structure RowRange where
  va    : Nat
  n     : Nat
  write : Bool
  need  : Need
  acc   : Nat
  deriving DecidableEq, Repr

/-- A range that is read. -/
def readRange (va n : Nat) : RowRange := ⟨va, n, false, { r := true }, accRead⟩

/-- The ranges of a row of the source, as offset from its base and length. -/
def Op.srcRanges (o : Op) (i idx : Nat) : List (Nat × Nat) :=
  let h := o.sh
  match o.instr with
  | .hload _ => [(0, 64)]
  | _ =>
    if o.gathers then [(idx * h.spitch, h.cols * h.es)]
    else if h.trans then (List.range h.cols).map fun j => (h.srcOff i j, h.es)
    else [(h.srcOff i 0, h.cols * h.es)]

/-- The addresses of the scales of a row, block by block (R297). -/
def Op.scaleAddrs (o : Op) (i : Nat) : List Nat :=
  let h := o.sh
  if !h.scaled then []
  else
    let base := match o.srcSide with | .csm p => bitsNat p 18 0 | .glob a => a | _ => 0
    (List.range (h.cols / 32)).map fun b =>
      let off := base + h.srcOff i (32 * b) - h.tbase
      h.sbase + 4 * (off / h.spitch / 2 ^ h.rsh * h.spr + off % h.spitch / h.es / 2 ^ h.csh)

/-- Whether the row writes through the slice atomic units (R302). -/
def Op.reduces (o : Op) : Bool := cpeReduce o.instr != .plain

/-- The offset of a row of the destination in memory, and its length. -/
def Op.dstOff (o : Op) (i idx : Nat) : Nat := (if o.scatters then idx else i) * o.sh.dpitch
/-- See `Op.dstOff`. -/
def Op.dstLen (o : Op) : Nat := o.sh.cols * o.sh.ed

/-- The global ranges of a row in the order in which it reaches them: source, scales, destination. -/
def Op.rowRanges (o : Op) (i idx : Nat) : List RowRange :=
  (match o.srcSide with | .glob a => (o.srcRanges i idx).map fun r => readRange (a + r.1) r.2 | _ => []) ++
  (match o.instr with | .hload _ => [] | _ => (o.scaleAddrs i).map fun a => readRange a 4) ++
  (match o.dstSide with
   | .glob a => [⟨a + o.dstOff i idx, o.dstLen, true, { r := o.reduces, w := true }, if o.reduces then accAtomic else accWrite⟩]
   | _ => [])

/-! ### Translating and reaching (R306) -/

/-- What a row may have met: ACCESS and the gate. -/
abbrev RowStop := Nat × Gate

/-- Translate a range page by page, with its permissions, and go no further. -/
def State.xlateLoop (w : Who) (need : Need) : Nat → State → Nat → Nat → State × Option Gate
  | 0, s, _, _ => (s, none)
  | fuel + 1, s, va, n =>
    if n = 0 then (s, none)
    else
      let k := min n (4096 - va % 4096)
      if 2 ^ 57 < va + k then (s, some (.fail 3 none))
      else
        match s.xlateAs w va need with
        | (s, .fault q l e) => (s, some (.fault va q l e))
        | (s, .bad c o) => (s, some (.fail c o))
        | (s, .ok _ _) => State.xlateLoop w need fuel s (va + k) (n - k)

/-- Translate the ranges of a row in order. -/
def State.xlateRanges (w : Who) : List RowRange → State → State × Except RowStop Unit
  | [], s => (s, .ok ())
  | r :: rs, s =>
    match State.xlateLoop w r.need (r.n / 4096 + 2) s r.va r.n with
    | (s, none) => State.xlateRanges w rs s
    | (s, some g) => (s, .error (r.acc, g))

/-- Reach several ranges in order. -/
def State.reachAll (w : Who) : List RowRange → State → List Part → State × Except RowStop (List Part)
  | [], s, ps => (s, .ok ps)
  | r :: rest, s, ps =>
    match s.reach w r.va r.n r.write r.need with
    | (s, .ok qs) => State.reachAll w rest s (ps ++ qs)
    | (s, .error g) => (s, .error (r.acc, g))

/-- The CSM pieces of a range at a pointer plus an offset. -/
def State.csmPiece (s : State) (c : Crew) (ptr rel n : Nat) : Except RowStop (List CsmPart) :=
  match s.csmAt c ptr rel n with
  | .ok core window off => .ok (s.csmParts c core window off n)
  | _ => .error (accRead, .fail 3 none)

/-- The index entry of a row. -/
def State.rowIndex (s : State) (o : Op) (c : Crew) (i : Nat) : State × Except RowStop Nat :=
  match o.idxSide with
  | .glob a =>
    match State.reachAll (s.cpeWho o) [readRange (a + 4 * i) 4] s [] with
    | (s, .ok ps) => (s, .ok (leNat (s.readParts ps)))
    | (s, .error e) => (s, .error e)
  | .csm p => (s, (s.csmPiece c p (4 * i) 4).map fun ps => leNat (s.csmRead ps))
  | _ => (s, .ok 0)

/-- Row i is translated: its index entry is read, then every address is translated and its permission checked. -/
def State.planRow (s : State) (o : Op) (c : Crew) (i : Nat) : State × Except RowStop RowSt :=
  match s.rowIndex o c i with
  | (s, .error e) => (s, .error e)
  | (s, .ok idx) =>
    match State.xlateRanges (s.cpeWho o) (o.rowRanges i idx) s with
    | (s, .error e) => (s, .error e)
    | (s, .ok ()) => (s.setOp o.id fun p => { p with rows := p.rows ++ [{ row := i, idx := idx }] }, .ok { row := i, idx := idx })

/-! ### The reads and writes of a row (R301) -/

/-- The bytes of a row of the source. -/
def State.rowSource (s : State) (o : Op) (c : Crew) (i idx : Nat) : State × Except RowStop (List Byte) :=
  let h := o.sh
  match o.srcSide with
  | .glob a =>
    match State.reachAll (s.cpeWho o) ((o.srcRanges i idx).map fun r => readRange (a + r.1) r.2) s [] with
    | (s, .ok ps) => (s, .ok (s.readParts ps))
    | (s, .error e) => (s, .error e)
  | .csm p =>
    (s, (o.srcRanges i idx).foldl (fun (acc : Except RowStop (List Byte)) r =>
      acc.bind fun bs => (s.csmPiece c p r.1 r.2).map fun ps => bs ++ s.csmRead ps) (.ok []))
  | _ =>
    let v := leBytes h.ed (o.arg 2)
    (s, .ok ((List.range h.cols).flatMap fun _ => v))

/-- The scales of a row, block by block (R297). -/
def State.rowScales (s : State) (o : Op) (i : Nat) : State × Except RowStop (List Nat) :=
  match State.reachAll (s.cpeWho o) ((o.scaleAddrs i).map fun a => readRange a 4) s [] with
  | (s, .ok ps) =>
    let bs := s.readParts ps
    (s, .ok ((List.range (o.scaleAddrs i).length).map fun b => elemAt bs 4 b % 2 ^ 24))
  | (s, .error e) => (s, .error e)

/-- Where the bytes of a row lie. -/
inductive Place2
  | none
  | mem (ps : List Part)
  /-- CSM pieces, one list for each target. -/
  | csm (ps : List (List CsmPart))
  deriving DecidableEq, Repr

/-- Where a row of the destination lies in memory. -/
def State.rowDest (s : State) (o : Op) (c : Crew) (i idx : Nat) : State × Except RowStop Place2 :=
  let off := o.dstOff i idx
  let n := o.dstLen
  match o.dstSide with
  | .none => (s, .ok .none)
  | .glob a =>
    match State.reachAll (s.cpeWho o) [⟨a + off, n, true, { w := true }, accWrite⟩] s [] with
    | (s, .ok ps) => (s, .ok (.mem ps))
    | (s, .error e) => (s, .error e)
  | .csm p => (s, (s.csmPiece c p off n).map fun ps => .csm [ps])
  | .many q =>
    let all : List (Option (List CsmPart)) := o.targets.map fun k => s.manySpan c k (q + off) n
    (s, if all.all Option.isSome then .ok (.csm (all.filterMap id)) else .error (accWrite, .fail 3 none))

/-- The side-band entries of a row of a TLOAD, as entry and value (R299); entries count from slot q. -/
def Shape.sideEntries (h : Shape) (i : Nat) (scales : List Nat) : List (Nat × BitVec 24) :=
  let one : BitVec 24 := 0x3F8000
  if h.dfmt = 0x16 then
    (List.range ((h.cols + 31) / 32)).map fun b =>
      (h.slotOff i (32 * b) / 32, if h.scaled then BitVec.ofNat 24 (scales.getD b 0) else one)
  else
    let lo := h.slotOff i 0 / 32
    let hi := (h.slotOff i 0 + h.cols * h.ed - 1) / 32
    (List.range (hi + 1 - lo)).map fun k => (lo + k, one)

/-- Whether row r of an operation has performed. -/
def Op.rowDone (o : Op) (r : Nat) : Bool := r < o.prog || o.rowsDone.contains r

/-- Whether a byte, named by its offset from the destination base, is written by row i or by one that has performed. -/
def Op.written (o : Op) (i b : Nat) : Bool :=
  let h := o.sh
  (List.range h.rows).any fun r => (r == i || o.rowDone r) && r * h.dpitch ≤ b && b < r * h.dpitch + h.cols * h.ed

/-- Whether a granule of a row is written: every one, but of a row whose write failed each granule either is or is not, as
draw n has it (R308). -/
def landed (land : Option Nat) (g : Nat) : Bool := match land with | none => true | some n => Config.rowLanded n g

/-- The latches that a store to n bytes from `lo` of a window fills: of the granules that it touches, those that are now written
wholly and whose write has landed (03 R116). `written` asks for a byte by its offset from `base`, `landed` and `find` for a
granule by its place in the window. -/
def State.fillLatches (s : State) (base lo n : Nat) (written landed : Nat → Bool) (find : Nat → Option CsmPart) : State :=
  (List.range ((lo + n - 1) / 16 + 1 - lo / 16)).foldl (fun s k =>
    let g := (lo / 16 + k) * 16
    if landed g && (List.range 16).all fun b => base ≤ g + b && written (g + b - base) then
      match find g with
      | some p => s.setLatch p.crew (p.off / 16) true
      | none => s
    else s) s

/-- The bytes of a row after its write; `gran` names the granule of a byte. -/
def mixRow (land : Option Nat) (gran : Nat → Nat) (old new : List Byte) : List Byte :=
  match land with
  | none => new
  | some _ => (old.zip new).mapIdx fun k p => if landed land (gran k) then p.2 else p.1

/-- The number of a granule at target t among the draws of a lost write. -/
def granAt (t g : Nat) : Nat := t * 2 ^ 16 + g

/-- The latches of row i at target t, whose first byte lies at offset `first` of its grant. -/
def State.rowLatches (s : State) (o : Op) (c : Crew) (i t first : Nat) (land : Option Nat) : State :=
  let fill (base core : Nat) (window : Bool) : State :=
    let lo := base + i * o.sh.dpitch
    s.fillLatches base lo o.dstLen (o.written i) (fun g => landed land (granAt t ((first + g - lo) / 16)))
      fun g => (s.csmParts c core window g 16).head?
  if !cpeLatch o.instr then s
  else
    match o.dstSide with
    | .csm p =>
      match s.csmAt c p 0 1 with
      | .ok core window off => fill off core window
      | _ => s
    | .many q =>
      match o.targets[t]? with
      | some k => fill q k true
      | none => s
    | _ => s

/-- A row is written at its targets, from the t-th on. -/
def State.putTargets (o : Op) (c : Crew) (i : Nat) (land : Option Nat) (bs : List Byte) : State → Nat → List (List CsmPart) → State
  | s, _, [] => s
  | s, t, ps :: rest =>
    let a := (ps.head?.map CsmPart.off).getD 0
    let s := s.csmWrite ps (mixRow land (fun k => granAt t ((a + k) / 16)) (s.csmRead ps) bs)
    State.putTargets o c i land bs (s.rowLatches o c i t a land) (t + 1) rest

/-- A byte of the operand store: a free value until something writes it (10 R290; DEDUCED, log 6). -/
def Crew.slotByte (c : Crew) (off : Nat) : Byte :=
  match cellGet off c.ops with
  | some b => b
  | none => Config.slotByte c.id off

/-- Write the bytes of a row into the operand slots and the side band of a crew. -/
def State.fillSlots (s : State) (crew q : Nat) (h : Shape) (i : Nat) (land : Option Nat) (bs : List Byte) (scales : List Nat) : State :=
  let a := q * 4096 + h.slotOff i 0
  s.setCrew crew fun c =>
    { c with
      ops := putCsm c.ops a (mixRow land (fun k => (a + k) / 16) ((List.range bs.length).map fun k => c.slotByte (a + k)) bs)
      side := ((h.sideEntries i scales).filter fun e => landed land (2 * (q * 128 + e.1))).foldl
        (fun l e => cellPut (q * 128 + e.1) e.2 l) c.side }

/-- The record that an HLOAD has read enters its shape slot (R287). -/
def State.fillShape (s : State) (o : Op) (f : Fields) (bs : List Byte) : State :=
  let r := BitVec.ofNat 512 (leNat bs)
  s.setCrew o.crew fun c => { c with shapes := c.shapes.set (Opd.tileNo f.d) (if shapeValid r then some r else none) }

/-- What became of a row that was translated. -/
inductive RowStep
  | done
  /-- Its reads have returned, and these are its converted elements; its reduce acts are to be sent. -/
  | acts (bytes : List Byte)
  | stop (e : RowStop)
  deriving Repr

/-- A translated row reads, converts and writes; `land` is a draw when its write is lost (R301, R308). -/
def State.moveRow (s : State) (o : Op) (c : Crew) (i idx : Nat) (land : Option Nat) : State × RowStep :=
  let h := o.sh
  match s.rowSource o c i idx with
  | (s, .error e) => (s, .stop e)
  | (s, .ok src) =>
    match o.instr with
    | .hload f => (s.fillShape o f src, .done)
    | _ =>
      match s.rowScales o i with
      | (s, .error e) => (s, .stop e)
      | (s, .ok scales) =>
        let bs : List Byte := (List.range h.cols).flatMap fun j => leBytes h.ed (convElem h.sfmt h.dfmt (elemAt src h.es j))
        if o.reduces then (s, .acts bs)
        else
          match s.rowDest o c i idx with
          | (s, .error e) => (s, .stop e)
          | (s, .ok .none) =>
            match o.instr with
            | .tload f _ => (s.fillSlots o.crew (Opd.tileNo f.d) h i land bs scales, .done)
            | _ => (s, .done)
          | (s, .ok (.mem ps)) =>
            let a := (ps.head?.map Part.key).getD 0
            (s.writeParts ps (mixRow land (fun k => (a + k) / 16) (s.readParts ps) bs), .done)
          | (s, .ok (.csm targets)) => (State.putTargets o c i land bs s 0 targets, .done)

/-! ### Reduce acts (R302) -/

/-- The bytes of piece k of a row's destination: one act for each 16-byte granule. First byte and length, from the row's first
byte. -/
def pieceSpan (a n k : Nat) : Nat × Nat :=
  let lo := max a ((a / 16 + k) * 16)
  (lo - a, min (a + n) ((a / 16 + k + 1) * 16) - lo)

/-- How many granules a row touches. -/
def pieceCount (a n : Nat) : Nat := if n = 0 then 0 else (a + n - 1) / 16 + 1 - a / 16

/-- The first byte of a row of the destination in global memory. -/
def Op.rowAddr (o : Op) (r : RowSt) : Nat := (match o.dstSide with | .glob a => a | _ => 0) + o.dstOff r.row r.idx

/-- Change the record of a row. -/
def State.setRow (s : State) (id row : Nat) (f : RowSt → RowSt) : State :=
  s.setOp id fun o => { o with rows := updWhere (fun r => r.row == row) f o.rows }

/-- The piece of a row of a reduction is reached at its home. -/
def State.reachPiece (s : State) (o : Op) (r : RowSt) (k : Nat) : State × Except RowStop (List Part) :=
  let p := pieceSpan (o.rowAddr r) o.dstLen k
  State.reachAll (s.cpeWho o) [⟨o.rowAddr r + p.1, p.2, true, { r := true, w := true }, accAtomic⟩] s []

/-- Send the acts of a row that do not wait at a slice yet, in ascending order. -/
def State.sendPieces (o : Op) (r : RowSt) : List Nat → State → State × Option RowStop
  | [], s => (s, none)
  | k :: ks, s =>
    match s.reachPiece o r k with
    | (s, .error e) => (s, some e)
    | (s, .ok ps) =>
      let s := s.queueAct ((ps.head?.map Part.key).getD 0) (.core o.core) (.row o.id r.row k)
      State.sendPieces o r ks (s.setRow o.id r.row fun x => { x with sent := x.sent ++ [k] })

/-- The elements of the destination in a piece, combined with those of the row. -/
def Op.combine (o : Op) (r : RowSt) (k : Nat) (old : List Byte) : List Byte :=
  let h := o.sh
  let p := pieceSpan (o.rowAddr r) o.dstLen k
  (List.range (p.2 / h.ed)).flatMap fun j =>
    leBytes h.ed (reduceElem (cpeReduce o.instr) h.dfmt (elemAt old h.ed j) (elemAt r.bytes h.ed (p.1 / h.ed + j)))

/-! ### The rows of an operation (R306-R308) -/

/-- PROG after rows above it have performed: the leading rows. -/
def leadRows : Nat → Nat → List Nat → Nat
  | 0, p, _ => p
  | n + 1, p, ds => if ds.contains p then leadRows n (p + 1) ds else p

/-- Row i has performed. -/
def State.rowFinished (s : State) (id i : Nat) : State :=
  let s := s.setOp id fun o =>
    let ds := o.rowsDone ++ [i]
    let p := leadRows ds.length o.prog ds
    { o with prog := p, rowsDone := ds.filter (p ≤ ·), rows := o.rows.filter fun r => r.row != i }
  match s.op? id with
  | some o => s.noteTrace o none false
  | none => s

/-- Whether a row must wait for a lower one that has not performed: both write one byte, or one granule under a reduce suffix, or
an SO page is among their pages (R301, R302; 03 R102). -/
def State.rowBehind (s : State) (o : Op) (r : RowSt) : Bool :=
  let unit := if o.reduces then 16 else 1
  let base := match o.dstSide with | .glob a => a | _ => 0
  let lo (x : RowSt) : Nat := (base + o.dstOff x.row x.idx) / unit
  let hi (x : RowSt) : Nat := (base + o.dstOff x.row x.idx + o.dstLen - 1) / unit
  let so (x : RowSt) : Bool := s.spansSO ((o.rowRanges x.row x.idx).map fun q => .va (s.opWho o .cpe).asid q.va q.n)
  o.rows.any fun x => x.row < r.row &&
    ((o.dstSide != .none && lo x ≤ hi r && lo r ≤ hi x) || so x || so r)

/-- A row is stopped by its home. Parked, it makes a request and waits; a recall and an access that must not tell yet are tried
again; a failure fails the operation at that row. A failed operation gives up the row instead of waiting for an answer. -/
def State.stopRow (s : State) (o : Op) (i : Nat) (e : RowStop) : State :=
  match e.2 with
  | .park d r =>
    let t : State := { s with nextId := s.nextId + 1 }
    State.request requestFuel (t.setRow o.id i fun x => { x with wait := some (d, r), place := s.nextId }) d r 1
  | .recall h share => (s.startRecall h share).setRow o.id i fun x => { x with recalled := some h }
  | .later => s
  | .go _ _ => s
  | .fail c g => s.setOp o.id fun p => p.failAt i (c, g.getD p.origin)
  | .recipeWrite d =>
    (s.stopRecompute o.crew).setOp o.id fun p => p.failAt i (8, mkOrigin .rce d o.core 0)
  | .fault .. =>
    if o.fail.isSome then s.setOp o.id fun p => { p with rows := p.rows.filter fun x => x.row != i }
    else if i = o.prog then s.stopOp o.id (s.cpeWho o) e.1 true e.2
    else s

/-- A translated row goes on; it waits behind a lower one that it must follow. -/
def State.goRow (s : State) (o : Op) (c : Crew) (r : RowSt) (land : Option Nat) : State :=
  if s.rowBehind o r then s
  else
    let send (s : State) (r : RowSt) : State :=
      match State.sendPieces o r (r.left.filter fun k => !r.sent.contains k) s with
      | (s, none) => s
      | (s, some e) => s.stopRow o r.row e
    if !r.left.isEmpty then send s r
    else
      match s.moveRow o c r.row r.idx land with
      | (s, .done) => s.rowFinished o.id r.row
      | (s, .stop e) => s.stopRow o r.row e
      | (s, .acts bs) =>
        let r := { r with bytes := bs, left := List.range (pieceCount (o.rowAddr r) o.dstLen) }
        send (s.setRow o.id r.row fun _ => r) r

/-- The walk-ahead: rows go on from i up to `last`, at most 16 ahead of the first that has not performed. A row that cannot be
translated stops the rows from it on; with every row below it performed, its failure takes effect. -/
def State.cpeLoop (c : Crew) (last : Nat) : Nat → State → Nat → Nat → State
  | 0, s, _, _ => s
  | fuel + 1, s, id, i =>
    match s.op? id with
    | none => s
    | some o =>
      if last ≤ i || o.wait != .none || o.prog + 16 < i then s
      else if o.rowDone i then State.cpeLoop c last fuel s id (i + 1)
      else
        match o.rows.find? fun r => r.row == i with
        | some r => State.cpeLoop c last fuel (if r.wait.isSome then s else s.goRow o c r none) id (i + 1)
        | none =>
          if o.fail.isSome then State.cpeLoop c last fuel s id (i + 1)
          else
            match s.planRow o c i with
            | (s, .ok r) =>
              match s.op? id with
              | some o => State.cpeLoop c last fuel (s.goRow o c r none) id (i + 1)
              | none => s
            | (s, .error e) => if i = o.prog then s.stopOp id (s.cpeWho o) e.1 true e.2 else s

/-- Whether every row below i has been translated. -/
def Op.plannedTo (o : Op) (i : Nat) : Bool := (List.range i).all fun r => o.rowDone r || o.rows.any fun x => x.row == r

/-- The reduce acts of a row whose write is lost that are still to perform: each performs or does not, as a draw has it. -/
def State.landPieces (o : Op) (r : RowSt) (draw : Nat) : List Nat → State → State
  | [], s => s
  | k :: ks, s =>
    if !Config.rowLanded draw k then State.landPieces o r draw ks s
    else
      match s.reachPiece o r k with
      | (t, .ok ps) => State.landPieces o r draw ks (t.writeParts ps (o.combine r k (t.readParts ps)))
      | (_, .error _) => State.landPieces o r draw ks s

/-- The write of a translated row is lost: each granule, and each reduce act, is performed or not (R308). -/
def State.landRow (s : State) (o : Op) (c : Crew) (r : RowSt) : State :=
  let t : State := { s with nextId := s.nextId + 1 }
  if !r.left.isEmpty then State.landPieces o r s.nextId r.left t
  else
    match t.moveRow o c r.row r.idx (some s.nextId) with
    | (t, .done) => t
    | (t, .acts bs) =>
      State.landPieces o { r with bytes := bs } s.nextId (List.range (pieceCount (o.rowAddr r) o.dstLen)) t
    | (_, .stop _) => s

/-- A read or the write of row i of a started CPE operation is lost, once every row up to it is translated (R307, R308). A row
that is parked, or behind another, makes no access. -/
def State.loseRow (s : State) (o : Op) (i : Nat) (write : Bool) : State :=
  match s.crew? o.crew with
  | none => s
  | some c =>
    if o.fail.isSome || o.rowCount ≤ i || o.rowDone i then s
    else
      let s := State.cpeLoop c i (i + 1) s o.id o.prog
      match s.op? o.id with
      | none => s
      | some o =>
        if o.fail.isSome || o.wait != .none || !o.plannedTo i then s
        else
          let x : State × Except RowStop RowSt :=
            match o.rows.find? fun r => r.row == i with
            | some r => (s, .ok r)
            | none => s.planRow o c i
          match x with
          | (_, .error _) => s
          | (t, .ok r) =>
            if r.wait.isSome || t.rowBehind o r then t
            else (if write then t.landRow o c r else t).setOp o.id fun p => p.failAt i (2, p.origin)

/-- The rows of a failed operation that still finish: those that it has kept. -/
def Op.rowsLeft (o : Op) : Bool := o.rows.any fun r => o.fail.isNone || (o.fail.map Prod.fst) == some 2 || r.row < o.failRow

/-- A CPE operation goes on with its rows, and settles when all have performed, or when it has failed and the rows that
finish have done so (R295, R307, R308). -/
def State.runCpe (s : State) (o : Op) : State :=
  match s.crew? o.crew with
  | none => s
  | some c =>
    let s := if o.fail.isSome && !o.rowsLeft then s else State.cpeLoop c o.rowCount (o.rowCount + 1) s o.id o.prog
    match s.op? o.id with
    | none => s
    | some o =>
      match o.fail with
      | some (cause, g) => if o.rowsLeft then s else (s.noteTrace o (some cause) false).settle o.id (.poisoned cause g)
      | none => if o.rowCount ≤ o.prog then (s.noteTrace o none true).finish o.id else s.noteTrace o none false

/-- The reduce act of piece k of row i, at its slice. An act that its home stops, or that a lower row has still to come before,
leaves the slice and is sent again. -/
def State.actRow (s : State) (id i k : Nat) : State :=
  match s.op? id with
  | none => s
  | some o =>
    match o.rows.find? fun r => r.row == i && r.sent.contains k with
    | none => s
    | some r =>
      let back (s : State) : State := s.setRow id i fun x => { x with sent := x.sent.filter (· != k) }
      let g := o.rowAddr r / 16 + k
      if o.rows.any fun x => x.row < i && x.left.any fun m => o.rowAddr x / 16 + m == g then back s
      else
        match s.reachPiece o r k with
        | (s, .error e) => (back s).stopRow o i e
        | (s, .ok ps) =>
          let s := s.writeParts ps (o.combine r k (s.readParts ps))
          if r.left.all (· == k) then s.rowFinished id i
          else s.setRow id i fun x => { x with left := x.left.filter (· != k), sent := x.sent.filter (· != k) }

end Sys2Proof.Machine
end

