-- ==== Sys2Proof/Machine/Mxe.lean ====
section
/-! DEFINITION. The matrix engine (11 R312-R339): accumulator tiles, the checks of an issue, multiplication, ganged
multiplies, and the forms that fill, move and finish accumulators. -/

namespace Sys2Proof.Machine

/-! ### Tiles (R312) -/

/-- Rows or columns of a dimension code. -/
def dimSize : Dim → Nat
  | .d16 => 16 | .d32 => 32 | .d64 => 64

/-- The dimension of a code; 11 is none. -/
def dimOfCode : Nat → Option Dim
  | 0 => some .d16 | 1 => some .d32 | 2 => some .d64 | _ => none

/-- The code of a dimension. -/
def dimCode : Dim → Nat
  | .d16 => 0 | .d32 => 1 | .d64 => 2

/-- The code of a FORMAT. -/
def accCode : AccFmt → Nat
  | .f64 => 0 | .f32 => 1 | .acc40 => 2 | .ia40 => 3

/-- Bits that a FORMAT uses. -/
def accBits : AccFmt → Nat
  | .f64 => 64 | .f32 => 32 | _ => 40

/-- The float format of a FORMAT. -/
def accFloat : AccFmt → Option Fmt
  | .f64 => some fp64 | .f32 => some fp32 | .acc40 => some acc40 | .ia40 => none

/-- SAT of FLAGS. -/
def flagSAT : BitVec 6 := 32

/-- A tile of a crew. -/
def Crew.tile? (c : Crew) (n : Nat) : Option AccTile := c.acc.getD n none

/-- Change an accumulator tile of a crew. -/
def State.setTile (s : State) (crew n : Nat) (t : Option AccTile) : State :=
  s.setCrew crew fun c => { c with acc := c.acc.set n t }

/-! ### Descriptors (R315, R316) -/

/-- A multiply descriptor. -/
structure MmaDesc where
  ks : Nat
  mc : Dim
  nc : Dim
  qb : Nat
  deriving DecidableEq, Repr

/-- sk of MMA and MMAG; none where Operand Range is due. -/
def mmaDesc (x : Nat) : Option MmaDesc :=
  match dimOfCode (bitsNat x 9 8), dimOfCode (bitsNat x 11 10) with
  | some mc, some nc =>
    if bitsNat x 63 28 ≠ 0 ∨ bitsNat x 15 12 ≠ 0 ∨ bitsNat x 7 6 ≠ 0 ∨ bitsNat x 27 16 = 0 then none
    else some ⟨bitsNat x 27 16, mc, nc, bitsNat x 5 0⟩
  | _, _ => none

/-- The partner places of sk+1; none where Operand Range is due: places equal, at (0, 0), or nonzero beyond NP. -/
def gangPlaces (x : Nat) : Option (List Nat) :=
  let np := bitsNat x 25 24
  let ps := [bitsNat x 7 0, bitsNat x 15 8, bitsNat x 23 16]
  if bitsNat x 63 32 ≠ 0 ∨ np = 0 ∨ (ps.drop np).any (· != 0) ∨ (ps.take np).contains 0 ∨ !(ps.take np).Nodup then none
  else some (ps.take np)

/-- K-step of a type. -/
def kStep : Ty → Nat
  | .f64 => 4 | .f32 => 8 | .bf16 | .f16 => 32 | _ => 64

/-- Slots of an operand of r rows. -/
def mmaSlots (t : Ty) (d : MmaDesc) (r : Nat) : Nat := (r * (d.ks * kStep t) * tyElem t + 4095) / 4096
where
  /-- Element width. -/
  tyElem : Ty → Nat
    | .f64 => 8 | .f32 | .si32 => 4 | .bf16 | .f16 => 2 | .b64 => 8 | _ => 1

/-- Element width of a type of the MXE forms. -/
def mxeElem (t : Ty) : Nat := mmaSlots.tyElem t

/-- Whether the slot ranges of a multiply fit a grant. -/
def slotsFit (c : Crew) (t : Ty) (d : MmaDesc) (qa : Nat) : Bool :=
  qa + mmaSlots t d (dimSize d.mc) ≤ c.slots && d.qb + mmaSlots t d (dimSize d.nc) ≤ c.slots

/-! ### Issue (R317, R325) -/

/-- The gang crew of a partner: the crew of the issuing cluster on the core with the lowest `%crew`. -/
def State.gangCrew (s : State) (c : Crew) (core : Nat) : Option Crew :=
  (s.clusterCrews c core).foldl (fun best x =>
    match best with
    | some b => if x.index < b.index then some x else some b
    | none => some x) none

/-- Sort numbers ascending, with no repeats. -/
def sortNat (xs : List Nat) : List Nat := xs.foldl (fun l x => insNat x l) []

/-- MMA. -/
def execMma (f : Fields) (var : BitVec 5) (s : State) : Host.Outcome State Fault Refusal :=
  withIssue (.mma f var) s fun I =>
    let x := I.read I.low f.b 64
    match mmaDesc x with
    | none => I.trapAct 0x0B
    | some d =>
      if slotsFit I.crew f.ty d (Opd.tileNo f.a) then I.acceptOp { I.newOp f.c f.e with args := [BitVec.ofNat 64 x, 0] }
      else I.trapAll I.mask 0x08

/-- The members of a gang with their gang crews, ascending, or the place that fails (R325). -/
def Issue.members (I : Issue) (places : List Nat) : Except Nat (List (Nat × Crew)) :=
  let look (p : Nat) : Except Nat (Nat × Crew) :=
    match coreAt I.core (placeXY p).1 (placeXY p).2 with
    | some k =>
      if I.crew.inRect k then
        match I.s.gangCrew I.crew k with
        | some c => .ok (k, c)
        | none => .error p
      else .error p
    | none => .error p
  let rs := places.map look
  match rs.findSome? fun r => match r with | .error p => some p | .ok _ => none with
  | some p => .error p
  | none =>
    let ms := (I.core, I.crew) :: rs.filterMap fun r => match r with | .ok m => some m | .error _ => none
    .ok ((sortNat (ms.map Prod.fst)).filterMap fun k => ms.find? fun m => m.1 == k)

/-- MMAG. -/
def execMmag (f : Fields) (var : BitVec 5) (s : State) : Host.Outcome State Fault Refusal :=
  withIssue (.mmag f var) s fun I =>
    let x := (I.uniPair f.b).1
    let y := (I.uniPair f.b).2
    match mmaDesc x, gangPlaces y with
    | some d, some places =>
      if !slotsFit I.crew f.ty d (Opd.tileNo f.a) then I.trapAll I.mask 0x08
      else
        match I.members places with
        | .error p => I.trapAll I.mask 0x0A 0 (BitVec.ofNat 64 p)
        | .ok ms =>
          let fits (c : Crew) : Bool :=
            slotsFit c f.ty d (Opd.tileNo f.a) && Opd.tileNo f.d < c.accs && (!bitNat y 26 || bitsNat y 31 27 < c.barsN)
          if ms.all fun m => fits m.2 then
            I.acceptOp { I.newOp f.c f.e with
              args := [BitVec.ofNat 64 x, BitVec.ofNat 64 y] ++ ms.map fun m => BitVec.ofNat 64 m.2.id
              targets := ms.map Prod.fst }
          else I.trapAll I.mask 0x08
    | _, _ => I.trapAct 0x0B

/-- MZERO. -/
def execMzero (f : Fields) (mc nc : Dim) (s : State) : Host.Outcome State Fault Refusal :=
  withIssue (.mzero f mc nc) s fun I => I.acceptOp (I.newOp f.c f.e)

/-- A form with a CSM pointer and a pitch. -/
def Issue.tileMove (I : Issue) (f : Fields) (ptr : Opd) : State :=
  I.acceptOp { I.newOp f.c f.e with
    args := [BitVec.ofNat 64 (I.read I.low ptr 64), BitVec.ofNat 64 (I.read I.low f.b 64)] }

/-- MLOAD. -/
def execMload (f : Fields) (mc nc : Dim) (fmt : AccFmt) (s : State) : Host.Outcome State Fault Refusal :=
  withIssue (.mload f mc nc fmt) s fun I => I.tileMove f f.a

/-- MSTORE. -/
def execMstore (f : Fields) (latch : Bool) (s : State) : Host.Outcome State Fault Refusal :=
  withIssue (.mstore f latch) s fun I => I.tileMove f f.d

/-- MRED. -/
def execMred (f : Fields) (latch : Bool) (op : MredOp) (s : State) : Host.Outcome State Fault Refusal :=
  withIssue (.mred f latch op) s fun I => I.tileMove f f.d

/-- MEPI. -/
def execMepi (f : Fields) (op : MepiOp) (s : State) : Host.Outcome State Fault Refusal :=
  withIssue (.mepi f op) s fun I =>
    let v := match op with | .scale => I.read I.low f.b 64 | _ => 0
    I.acceptOp { I.newOp f.c f.e with args := [BitVec.ofNat 64 v] }

/-- What MFLAGS reads of a tile (R337). -/
def tileWord : Option AccTile → Nat
  | some t => 2 ^ 31 + accCode t.fmt * 2 ^ 28 + dimCode t.nc * 2 ^ 26 + dimCode t.mc * 2 ^ 24 + t.flags.toNat
  | none => 0

/-- MFLAGS. -/
def execMflags (f : Fields) (s : State) : Host.Outcome State Fault Refusal :=
  withIssue (.mflags f) s fun I =>
    let n := Opd.tileNo f.a
    let t := I.crew.tile? n
    let clear : BitVec 6 := match f.b with | .imm v => v.setWidth 6 | _ => 0
    let s := I.perLane fun _ => .ok [.reg f.d 32 (tileWord t)]
    match t with
    | some t => s.setTile I.cid n (some { t with flags := t.flags &&& ~~~clear })
    | none => s

/-! ### Sums (R322, R323) -/

/-- Flags of the float engine in FLAGS. -/
def accFlags (b : BitVec 5) : BitVec 6 := b.setWidth 6

/-- The exact sum of a K-step's products. -/
def exactSum (ps : List FVal) : FVal :=
  let both := ps.any (fun p => p == .inf false) && ps.any fun p => p == .inf true
  if both || ps.any FVal.isNan then .nan (both || ps.any FVal.isSig)
  else
    match ps.find? fun p => match p with | .inf _ => true | _ => false with
    | some p => p
    | none =>
      let e : Int := ps.foldl (fun e p => match p with | .fin _ m f => if m = 0 then e else min e f | _ => e) 0
      let x : Int := ps.foldl (fun x p => match p with | .fin n m f => if m = 0 then x else x + scaled n m f e | _ => x) 0
      if x = 0 then .fin (ps.all fun p => match p with | .fin n m _ => n && m == 0 | _ => false) 0 0
      else .fin (x < 0) x.natAbs e

/-- Adjacent entries summed and rounded, with the flags raised. -/
def pairSums : List FVal → List FVal × BitVec 5
  | a :: b :: rest =>
    let r := fp32.add .rne true a b
    let q := pairSums rest
    (fp32.decode r.code :: q.1, r.flags ||| q.2)
  | xs => (xs, 0)

/-- The V1 tree of a K-step (R323). -/
def pairTree : Nat → List FVal → BitVec 5 → FVal × BitVec 5
  | 0, ps, b => (ps.headD (.fin false 0 0), b)
  | fuel + 1, ps, b =>
    match ps with
    | [] => (.fin false 0 0, b)
    | [p] => (p, b)
    | _ =>
      let q := pairSums ps
      pairTree fuel q.1 (b ||| q.2)

/-- One step of an element under a float FORMAT. -/
def floatStep (F : Fmt) (v1 : Bool) (acc : Nat) (ps : List FVal) : Nat × BitVec 6 :=
  if v1 then
    let t := pairTree 8 ps 0
    let r := fp32.add .rne true (fp32.decode acc) t.1
    (r.code, accFlags (r.flags ||| t.2))
  else
    let r := F.add .rne false (F.decode acc) (exactSum ps)
    (r.code, accFlags r.flags)

/-- Saturate to the range of IA40. -/
def satIA40 (x : Int) : Nat × BitVec 6 :=
  let y := satInt x (-(2 ^ 39 : Nat)) ((2 ^ 39 : Nat) - 1)
  (wrapNat 40 y, if y = x then 0 else flagSAT)

/-! ### Operands (R290, R299, R316) -/

/-- A number in the operand store. -/
def Crew.slotNat (c : Crew) (off n : Nat) : Nat := leNat ((List.range n).map fun k => c.slotByte (off + k))

/-- A side-band entry (10 R299). -/
def Crew.sideAt (c : Crew) (m : Nat) : Nat :=
  match cellGet m c.side with
  | some b => b.toNat
  | none => (Config.sideBand c.id m).toNat

/-- The value of an operand element with its scale. -/
def Crew.operand (c : Crew) (t : Ty) (var : BitVec 5) (off : Nat) : FVal :=
  match t with
  | .f64 => fp64.decode (c.slotNat off 8)
  | .f32 => fp32.decode (c.slotNat off 4)
  | .bf16 => bfp16.decode (c.slotNat off 2)
  | .f16 => fp16.decode (c.slotNat off 2)
  | .si8 => .fin (sext 8 (c.slotNat off 1) < 0) (sext 8 (c.slotNat off 1)).natAbs 0
  | .ui8 => .fin false (c.slotNat off 1) 0
  | _ =>
    let x := match Variant.ofBits var with | some v => b8Decode v (c.slotNat off 1) | none => .nan false
    x.mul (sc24.decode (c.sideAt (off / 32)))

/-- The elements of a row of an operand in K-step t. -/
def Crew.operandRow (c : Crew) (ty : Ty) (var : BitVec 5) (d : MmaDesc) (q i t : Nat) : List FVal :=
  let st := kStep ty
  (List.range st).map fun k => c.operand ty var (q * 4096 + (i * (d.ks * st) + t * st + k) * mxeElem ty)

/-- The products of one element in one K-step. -/
def stepProducts (xs ys : List FVal) : List FVal := List.zipWith FVal.mul xs ys

/-- An exact product of integers. -/
def intOfVal : FVal → Int
  | .fin n m _ => if n then -(m : Int) else (m : Int)
  | _ => 0

/-- The FORMAT that a multiply requires (R321). -/
def mmaFormat (t : Ty) (nbv : BitVec 2) : AccFmt :=
  match t with
  | .f64 => .f64
  | .f32 => .f32
  | .si8 | .ui8 => .ia40
  | _ => if nbv = 1 then .f32 else .acc40

/-- Whether a multiply sums in the V1 order. -/
def v1Order (t : Ty) (nbv : BitVec 2) : Bool := nbv == 1 && (t == .bf16 || t == .f16 || t == .e8)

/-- The result of a multiply on one member: its A rows and the leader's B rows, K-step by K-step (R322, R323). -/
def mmaTile (t : Ty) (var : BitVec 5) (nbv : BitVec 2) (d : MmaDesc) (a b : Crew) (qa : Nat) (tile : AccTile) : AccTile :=
  let rowsA := (List.range (dimSize d.mc)).map fun i => (List.range d.ks).map fun k => a.operandRow t var d qa i k
  let rowsB := (List.range (dimSize d.nc)).map fun j => (List.range d.ks).map fun k => b.operandRow t var d d.qb j k
  let one (x : Nat) (xs ys : List FVal) : Nat × BitVec 6 :=
    match accFloat tile.fmt with
    | some F => floatStep F (v1Order t nbv) x (stepProducts xs ys)
    | none => satIA40 (sext 40 x + ((stepProducts xs ys).map intOfVal).foldl (· + ·) 0)
  let elem (x : Nat) (ra rb : List (List FVal)) : Nat × BitVec 6 :=
    (ra.zip rb).foldl (fun acc p => let r := one acc.1 p.1 p.2; (r.1, acc.2 ||| r.2)) (x, 0)
  let nc := dimSize d.nc
  let rs := (rowsA.mapIdx fun i ra => rowsB.mapIdx fun j rb => elem (tile.elems.getD (i * nc + j) 0).toNat ra rb).flatten
  { tile with elems := rs.map fun r => BitVec.ofNat 64 r.1, flags := rs.foldl (fun b r => b ||| r.2) tile.flags }

/-! ### What an operation finds when it starts (R320, R334) -/

/-- The origin of a member's failure. -/
def mxeOrigin (core tok : Nat) : Word := coreOrigin .mxe core tok

/-- Whether a multiply may run on a member's tile. -/
def mmaReady (c : Crew) (n : Nat) (t : Ty) (nbv : BitVec 2) (d : MmaDesc) : Bool :=
  match c.tile? n with
  | some x => x.fmt == mmaFormat t nbv && x.mc == d.mc && x.nc == d.nc
  | none => false

/-- The descriptor of an accepted multiply. -/
def Op.desc (o : Op) : MmaDesc := (mmaDesc (o.arg 0)).getD ⟨1, .d16, .d16, 0⟩

/-- The pairs of FORMAT and TY of MSTORE (R333). -/
def mstorePair : AccFmt → Ty → Bool
  | _, .b64 => true
  | .f64, .f64 | .f64, .f32 => true
  | .f32, .f32 | .f32, .bf16 | .f32, .f16 | .acc40, .f32 | .acc40, .bf16 | .acc40, .f16 => true
  | .ia40, .si32 => true
  | _, _ => false

/-- The pairs of MRED (R335). -/
def mredPair : AccFmt → Ty → Bool
  | .f64, .f64 | .f32, .f32 | .acc40, .f32 | .ia40, .si32 => true
  | _, _ => false

/-- The bytes of CSM that a form moves. -/
def moveExt (mc nc : Dim) (t : Ty) (pitch : Nat) : Nat := (dimSize mc - 1) * pitch + dimSize nc * mxeElem t

/-- The cause of R334 with which a move settles, if it does. -/
def State.moveRefusal (s : State) (c : Crew) (o : Op) (t : Ty) (mc nc : Dim) : Option (BitVec 6) :=
  let p := o.arg 0 % 2 ^ 32
  let pitch := o.arg 1
  if 2 ^ 32 ≤ pitch then some 12
  else if p % mxeElem t ≠ 0 ∨ pitch % mxeElem t ≠ 0 then some 15
  else if (s.csmSpan c p (moveExt mc nc t pitch)).isNone then some 3
  else none

/-- The members of a multiply with their gang crews: a plain MMA has one. -/
def State.mmaMembers (s : State) (o : Op) : List (Nat × Crew) :=
  match o.instr with
  | .mmag .. => (o.targets.zip o.gangCrews).filterMap fun m => (s.crew? m.2).map fun c => (m.1, c)
  | _ => ((s.crew? o.crew).map fun c => (o.core, c)).toList

/-- The cause and ORIGIN with which an operation settles when it starts, if it does. -/
def State.mxeRefusal (s : State) (o : Op) : Option (BitVec 6 × Word) :=
  let own := mxeOrigin o.core o.tok
  match s.crew? o.crew with
  | none => none
  | some c =>
    match o.instr with
    | .mma f _ | .mmag f _ =>
      ((s.mmaMembers o).find? fun m => !mmaReady m.2 (Opd.tileNo f.d) f.ty o.nbv o.desc).map fun m => (12, mxeOrigin m.1 o.tok)
    | .mzero .. => none
    | .mload f mc nc _ => (s.moveRefusal c o f.ty mc nc).map fun x => (x, own)
    | .mstore f _ =>
      match c.tile? (Opd.tileNo f.a) with
      | some t => if mstorePair t.fmt f.ty then (s.moveRefusal c o f.ty t.mc t.nc).map fun x => (x, own) else some (12, own)
      | none => some (12, own)
    | .mred f _ _ =>
      match c.tile? (Opd.tileNo f.a) with
      | some t => if mredPair t.fmt f.ty then (s.moveRefusal c o f.ty t.mc t.nc).map fun x => (x, own) else some (12, own)
      | none => some (12, own)
    | .mepi f op =>
      match c.tile? (Opd.tileNo f.a) with
      | some t => if op = .scale ∧ t.fmt = .ia40 then some (12, own) else none
      | none => some (12, own)
    | _ => none

/-! ### Conversions (R332, R333, R335, R336) -/

/-- The float format of a TY. -/
def floatTy : Ty → Option Fmt
  | .f64 => some fp64 | .f32 => some fp32 | .bf16 => some bfp16 | .f16 => some fp16 | _ => none

/-- An element that MLOAD reads. -/
def loadElem (t : Ty) (fmt : AccFmt) (x : Nat) : Nat :=
  match t, accFloat fmt with
  | .b64, _ => x % 2 ^ accBits fmt
  | .f64, _ => x
  | .si32, _ => wrapNat 40 (sext 32 x)
  | _, some F => (F.ofVal .rne false (((floatTy t).map fun S => S.decode x).getD (.fin false 0 0))).code
  | _, none => x

/-- An element that MSTORE writes. -/
def storeElem (t : Ty) (fmt : AccFmt) (x : Nat) : Nat :=
  match t, accFloat fmt with
  | .b64, _ => x
  | .si32, _ => wrapNat 32 (satInt (sext 40 x) (-(2 ^ 31 : Nat)) ((2 ^ 31 : Nat) - 1))
  | _, some F => ((floatTy t).map fun T => (T.ofVal .rne false (F.decode x)).code).getD 0
  | _, none => x

/-- FMIN and FMAX without `.NAN` on values (06 R212). -/
def pickMin (max : Bool) (a b : FVal) : FVal :=
  if a.isNan then b
  else if b.isNan then a
  else if (if max then a.below b else b.below a) then b else a

/-- An element of CSM combined with one of a tile. -/
def redElem (op : MredOp) (t : Ty) (fmt : AccFmt) (old x : Nat) : Nat :=
  match floatTy t, accFloat fmt with
  | some T, some F =>
    match op with
    | .add => (T.add .rne false (T.decode old) (F.decode x)).code
    | .min => (T.ofVal .rne false (pickMin false (T.decode old) (F.decode x))).code
    | .max => (T.ofVal .rne false (pickMin true (T.decode old) (F.decode x))).code
  | _, _ =>
    let m := sext 32 old
    let v := satInt (sext 40 x) (-(2 ^ 31 : Nat)) ((2 ^ 31 : Nat) - 1)
    match op with
    | .add => wrapNat 32 (m + v)
    | .min => wrapNat 32 (if m ≤ v then m else v)
    | .max => wrapNat 32 (if m ≤ v then v else m)

/-- An element that MEPI makes, with the flags it raises: `v` is the scale, or the bias of its column. -/
def epiElem (op : MepiOp) (fmt : AccFmt) (v1 : Bool) (v x : Nat) : Nat × BitVec 6 :=
  match accFloat fmt with
  | some F =>
    let V := if fmt = .f64 then fp64 else fp32
    let z := v1 && fmt == .f32
    let r : FRes :=
      match op with
      | .scale => F.ofVal .rne z ((F.decode x).mul (V.decode v))
      | .bias => F.add .rne z (F.decode x) (V.decode v)
      | .relu => match F.decode x with
        | .nan s => F.nanRes s
        | y => if y.neg then ⟨F.zeroCode false, 0, false⟩ else F.ofVal .rne z y
    (r.code, accFlags r.flags)
  | none =>
    match op with
    | .bias => satIA40 (sext 40 x + sext 32 v)
    | _ => (if sext 40 x < 0 then 0 else x, 0)

/-! ### Performing (R324, R327, R331-R336) -/

/-- The window of a CSM pointer. -/
def State.window (s : State) (c : Crew) (p : Nat) : Option (Nat × Bool × Nat) :=
  match s.csmAt c p 0 1 with
  | .ok core window off => some (core, window, off)
  | _ => none

/-- The elements of a tile moved to or from CSM, row-major: old bytes, then new ones from `g`, in ascending (i, j). -/
def State.moveTile (s : State) (c : Crew) (p pitch e nr nc : Nat) (g : Nat → Nat → Nat) : State :=
  match s.window c p with
  | none => s
  | some (core, window, off) =>
    (List.range nr).foldl (fun s i =>
      (List.range nc).foldl (fun s j =>
        let ps := s.csmParts c core window (off + i * pitch + j * e) e
        s.csmWrite ps (leBytes e (g (i * nc + j) (leNat (s.csmRead ps))))) s) s

/-- The latches of the granules that a tile store covers wholly. -/
def State.moveLatches (s : State) (c : Crew) (p pitch e nr nc : Nat) : State :=
  match s.window c p with
  | none => s
  | some (core, window, off) =>
    s.fillLatches off off ((nr - 1) * pitch + nc * e)
      (fun b => (List.range nr).any fun r => r * pitch ≤ b && b < r * pitch + nc * e) (fun _ => true)
      fun g => (s.csmParts c core window g 16).head?

/-- The elements that MLOAD reads. -/
def State.readTile (s : State) (c : Crew) (p pitch e nr nc : Nat) : List Nat :=
  match s.window c p with
  | none => []
  | some (core, window, off) =>
    (List.range (nr * nc)).map fun k => leNat (s.csmRead (s.csmParts c core window (off + k / nc * pitch + k % nc * e) e))

/-- A member commits the result of a multiply. -/
def State.commitMma (s : State) (o : Op) (f : Fields) (var : BitVec 5) (leader member : Crew) : State :=
  match member.tile? (Opd.tileNo f.d) with
  | some t => s.setTile member.id (Opd.tileNo f.d) (some (mmaTile f.ty var o.nbv o.desc member leader (Opd.tileNo f.a) t))
  | none => s

/-- A tile move out of an accumulator, with its latches. -/
def State.storeTile (s : State) (c : Crew) (o : Op) (f : Fields) (latch : Bool) (t : AccTile) (g : Nat → Nat → Nat) : State :=
  let p := o.arg 0 % 2 ^ 32
  let e := mxeElem f.ty
  let s1 := s.moveTile c p (o.arg 1) e (dimSize t.mc) (dimSize t.nc) fun k old => g old (t.elems.getD k 0).toNat
  if latch then s1.moveLatches c p (o.arg 1) e (dimSize t.mc) (dimSize t.nc) else s1

/-- The format of MZERO's type. -/
def zeroFmt : Ty → AccFmt
  | .f64 => .f64 | .f32 => .f32 | .acc40 => .acc40 | _ => .ia40

/-- What an MXE operation does when it commits, its settlement apart. -/
def State.commitMxe (s : State) (o : Op) (c : Crew) : State :=
  match o.instr with
  | .mma f var | .mmag f var => (s.mmaMembers o).foldl (fun t m => t.commitMma o f var c m.2) s
  | .mzero f mc nc =>
    s.setTile o.crew (Opd.tileNo f.d) (some ⟨zeroFmt f.ty, mc, nc, 0, List.replicate (dimSize mc * dimSize nc) 0⟩)
  | .mload f mc nc fmt =>
    let xs := s.readTile c (o.arg 0 % 2 ^ 32) (o.arg 1) (mxeElem f.ty) (dimSize mc) (dimSize nc)
    s.setTile o.crew (Opd.tileNo f.d) (some ⟨fmt, mc, nc, 0, xs.map fun x => BitVec.ofNat 64 (loadElem f.ty fmt x)⟩)
  | .mstore f latch =>
    match c.tile? (Opd.tileNo f.a) with
    | some t => s.storeTile c o f latch t fun _ x => storeElem f.ty t.fmt x
    | none => s
  | .mred f latch op =>
    match c.tile? (Opd.tileNo f.a) with
    | some t => s.storeTile c o f latch t fun old x => redElem op f.ty t.fmt old x
    | none => s
  | .mepi f op =>
    match c.tile? (Opd.tileNo f.a) with
    | some t =>
      let w := if t.fmt = .f64 then 8 else 4
      let v (j : Nat) : Nat := match op with | .bias => c.slotNat (Opd.tileNo f.b * 4096 + w * j) w | _ => o.arg 0 % 2 ^ (8 * w)
      let rs := t.elems.mapIdx fun k x => epiElem op t.fmt (o.nbv == 1) (v (k % dimSize t.nc)) x.toNat
      s.setTile o.crew (Opd.tileNo f.d)
        (some { t with elems := rs.map fun r => BitVec.ofNat 64 r.1, flags := rs.foldl (fun b r => b ||| r.2) t.flags })
    | none => s
  | _ => s

/-- The tile that an MXE operation commits. -/
def mxeDest : Instr → Option Nat
  | .mma f _ | .mmag f _ | .mzero f _ _ | .mload f _ _ _ | .mepi f _ => some (Opd.tileNo f.d)
  | _ => none

/-! ### The MXE of a core (R318, R326) -/

/-- The head of a core's MXE queue. -/
def State.mxeHead (s : State) (core : Nat) : Option Op := s.ops.find? fun o => o.core == core && queueOf o.instr == some .mxe

/-- Whether an operation is a ganged multiply. -/
def isGang : Instr → Bool
  | .mmag .. => true
  | _ => false

/-- The next member that a gang acquires: ascending, one after another. -/
def Op.nextMember (o : Op) : Option Nat := o.targets.find? fun k => !o.holds.contains k

/-- The gangs that ask for a core's MXE, by ascending leader core. -/
def State.gangsFor (s : State) (core : Nat) : Option Op :=
  (List.range 192).findSome? fun k =>
    match s.mxeHead k with
    | some o => if isGang o.instr && o.started && o.nextMember == some core then some o else none
    | none => none

/-- Whether the gang crew of an operation on a core is being saved. -/
def State.memberSaved (s : State) (o : Op) (core : Nat) : Bool :=
  (o.targets.zip o.gangCrews).any fun m => m.1 == core && ((s.crew? m.2).map fun c => c.save.isSome).getD false

/-- A gang takes a member's MXE, when it is free; it stops with cause 11 when the member's crew is being saved (17 R485). -/
def State.acquireMember (s : State) (core : Nat) : State :=
  match s.gangsFor core with
  | some o =>
    if s.memberSaved o core then s.poisonOp o.id 11
    else if (s.core core).mxe = .idle then
      (s.setCore core fun c => { c with mxe := .gang o.id }).setOp o.id fun o => { o with holds := o.holds ++ [core] }
    else s
  | none => s

/-- The head of a core's queue starts: its MXE is free, or every member of its gang is held; then R320 and R334. -/
def State.startMxe (s : State) (core : Nat) : State :=
  match s.mxeHead core with
  | none => s
  | some o =>
    if !o.started || o.prog != 0 || !s.mayPerform o then s
    else
      let free := if isGang o.instr then o.nextMember.isNone else (s.core core).mxe == .idle && (s.gangsFor core).isNone
      if !free then s
      else
        match s.mxeRefusal o with
        | some (c, g) => s.settle o.id (.poisoned c g)
        | none =>
          let s := if isGang o.instr then s else s.setCore core fun c => { c with mxe := .running o.id }
          s.setOp o.id fun o => { o with prog := 1 }

/-- The CSM bytes that a store of a tile touches, piece by piece. -/
def State.storedSpan (s : State) (c : Crew) (o : Op) : List CsmPart :=
  let ext (f : Fields) : Nat := match c.tile? (Opd.tileNo f.a) with | some t => moveExt t.mc t.nc f.ty (o.arg 1) | none => 0
  match o.instr with
  | .mstore f _ | .mred f _ _ => (s.csmSpan c (o.arg 0 % 2 ^ 32) (ext f)).getD []
  | _ => []

/-- Of the pieces that state `t` has written, each granule is taken over or not, as draw n has it, with its latch (11 R334). -/
def State.landParts (t : State) (n : Nat) : State → List CsmPart → State
  | s, [] => s
  | s, p :: ps =>
    let lo := p.off / 16
    let s1 := s.csmWrite [p] (mixRow (some n) (fun k => granAt p.crew ((p.off + k) / 16)) (s.csmRead [p]) (t.csmRead [p]))
    let s2 := (List.range ((p.off + p.n - 1) / 16 + 1 - lo)).foldl (fun (s : State) k =>
      if Config.rowLanded n (granAt p.crew (lo + k)) && t.latchFull p.crew (lo + k) then s.setLatch p.crew (lo + k) true else s) s1
    State.landParts t n s2 ps

/-- A write of a running operation fails: a tile of member `unit` becomes INVALID while the others are committed (11 R324, R338),
and of a store each granule is written or not (R334). -/
def State.loseCommit (s : State) (o : Op) (unit : Nat) : State :=
  match s.crew? o.crew with
  | none => s
  | some c =>
    let t := s.commitMxe o c
    match mxeDest o.instr, (s.mmaMembers o)[unit]? with
    | some d, some m => t.setTile m.2.id d none
    | some _, none => s
    | none, _ => State.landParts t s.nextId { s with nextId := s.nextId + 1 } (s.storedSpan c o)

/-- An access of a running operation is lost for good: cause 2 with the ORIGIN of the member whose access that was (R324, R327). -/
def State.loseMxe (s : State) (o : Op) (unit : Nat) (write : Bool) : State :=
  let core := (((s.mmaMembers o)[unit]?).map Prod.fst).getD o.core
  (if write then s.loseCommit o unit else s).failOp o.id 2 (some (mxeOrigin core o.tok))

/-- A running operation commits and settles; one whose read failed settles POISONED and commits nothing (R324, R327). -/
def State.endMxe (s : State) (o : Op) : State :=
  if o.prog = 0 then s
  else
    match o.fail with
    | some (c, g) => s.settle o.id (.poisoned c g)
    | none =>
      match s.crew? o.crew with
      | some c => (s.commitMxe o c).finish o.id
      | none => s

end Sys2Proof.Machine
end

