-- ==== Sys2Proof/Machine/Fab.lean ====
section
/-! DEFINITION. The fabric engine (12 R341-R369): the checks of an issue, loopback accesses, what a peer's answer does,
atomics and their combining, tickets, FFLUSH, and the accesses that peers make here. The memory of a peer is no part of
the state (DESIGN CHOICE, log 8). -/

namespace Sys2Proof.Machine

/-! ### Issue (R343, R346-R349) -/

/-- The endpoint that an operand names in a lane: a signed 12-bit offset, or an immediate (R343). -/
def Issue.endpoint (I : Issue) (l : Nat) (o : Opd) : Nat :=
  I.s.endpointOf (match o with | .imm v => v.toInt | _ => I.readInt l o 12)

/-- A remote access of n bytes in a lane (R348; 03 R92). -/
def Issue.fabLane (I : Issue) (l : Nat) (f : Fields) (n align : Nat) : Except Trap LaneAcc :=
  match I.indirectOut l with
  | some t => .error t
  | none =>
    let va := I.read l f.a 64
    if 2 ^ 57 < va + n then .error (I.trapHere 0x0C va)
    else if va % align ≠ 0 then .error (I.trapHere 0x0F va)
    else .ok { lane := l, addr := BitVec.ofNat 64 va, off := I.endpoint l f.b, dst := I.dstOf l f.d }

/-- A per-lane form whose source is `bits` wide. -/
def Issue.fabForm (I : Issue) (f : Fields) (align bits : Nat) : State :=
  I.acceptLanes f fun l => (I.fabLane l f (tyBytes f.ty) align).map fun a => { a with data := BitVec.ofNat 128 (I.read l f.d bits) }

/-- FLD. -/
def execFld (f : Fields) (str : Strength) (sys : Bool) (s : State) : Host.Outcome State Fault Refusal :=
  withIssue (.fld f str sys) s fun I => I.acceptLanes f fun l => I.fabLane l f (tyBytes f.ty) (tyBytes f.ty)

/-- FST. -/
def execFst (f : Fields) (str : Strength) (sys : Bool) (s : State) : Host.Outcome State Fault Refusal :=
  withIssue (.fst f str sys) s fun I => I.fabForm f (tyBytes f.ty) (8 * tyBytes f.ty)

/-- FATOM: the operands of R241. -/
def execFatom (f : Fields) (op : AtomOp) (str : Strength) (sys : Bool) (s : State) : Host.Outcome State Fault Refusal :=
  withIssue (.fatom f op str sys) s fun I =>
    let n := tyBytes f.ty
    I.acceptLanes f fun l =>
      (I.fabLane l f n n).map fun a =>
        let d := I.read l f.d (if op = .cas then 16 * n else 8 * n)
        { a with
          cmp := BitVec.ofNat 128 (d % 2 ^ (8 * n))
          data := BitVec.ofNat 128 (if op = .cas then d / 2 ^ (8 * n) else d) }

/-- FATOMC. -/
def execFatomc (f : Fields) (op : AtomOp) (str : Strength) (sys : Bool) (s : State) : Host.Outcome State Fault Refusal :=
  withIssue (.fatomc f op str sys) s fun I => I.fabForm f (tyBytes f.ty) (8 * tyBytes f.ty)

/-- FRED. -/
def execFred (f : Fields) (op : AtomOp) (str : Strength) (sys : Bool) (s : State) : Host.Outcome State Fault Refusal :=
  withIssue (.fred f op str sys) s fun I => I.fabForm f (tyBytes f.ty) (8 * tyBytes f.ty)

/-- The endpoints of a multicast group, member by member; none where Operand Range is due (R363). -/
def State.groupOf (s : State) (x : Nat) : Option (List Nat) :=
  let count := bitsNat x 34 24
  let stride := sext 12 (bitsNat x 23 12)
  if bitsNat x 63 35 ≠ 0 ∨ count = 0 ∨ 1024 < count ∨ (1 < count ∧ stride = 0) then none
  else some ((List.range count).map fun (k : Nat) => s.endpointOf (sext 12 (bitsNat x 11 0) + (k : Int) * stride))

/-- FMCAST. -/
def execFmcast (f : Fields) (str : Strength) (sys : Bool) (s : State) : Host.Outcome State Fault Refusal :=
  withIssue (.fmcast f str sys) s fun I =>
    match I.gather fun l =>
        (I.fabLane l { f with b := .imm 0 } (tyBytes f.ty) 1).map fun a => { a with data := BitVec.ofNat 128 (I.read l f.d (8 * tyBytes f.ty)) } with
    | .error ts => I.holdFor ts
    | .ok acc =>
      match I.s.groupOf (I.read I.low f.b 64) with
      | none => I.trapAct 0x0B
      | some eps => I.acceptOp { I.newOp f.c f.e with acc := acc, targets := eps }

/-- What fails in a lane of a per-warp form: an indirect register, D in every lane and End in the lowest, then Address Range of n
bytes (R345, R348; 02 R59). -/
def Issue.fabWarpTrap (I : Issue) (f : Fields) (n l : Nat) : Option Trap :=
  let va := I.read I.low f.a 64
  (I.indirectIn l ((f.d, I.form.d) :: if l = I.low then [(f.b, I.form.b)] else [])).orElse fun _ =>
    if 2 ^ 57 < va + n then some (I.trapHere 0x0C va) else none

/-- A per-warp form with a uniform address. -/
def Issue.fabWarp (I : Issue) (f : Fields) (n : Nat) (body : Nat → State) : State :=
  match I.lanes.filterMap fun l => (I.fabWarpTrap f n l).map fun t => (l, t) with
  | [] => body (I.read I.low f.a 64)
  | bad => I.holdFor bad

/-- Accept an operation that may already be refused: it then waits for nothing, and settles POISONED at its next event
(04 R149). -/
def Issue.acceptOr (I : Issue) (o : Op) (refused : Option (BitVec 6)) : State :=
  match refused with
  | none => I.acceptOp o
  | some c => I.acceptOp { o with started := true, fail := some (c, o.origin) }

/-- Whether a block word is well formed (R359). -/
def blockOk (d : Nat) : Bool :=
  bitsNat d 63 49 == 0 && bitsNat d 48 32 % 16 == 0 && 16 ≤ bitsNat d 48 32 && bitsNat d 48 32 ≤ 65536

/-- FST.BLK: a bad pointer or address settles it at acceptance; alignment is looked at first (DESIGN CHOICE, log 32). -/
def execFstBlk (f : Fields) (str : Strength) (sys : Bool) (s : State) : Host.Outcome State Fault Refusal :=
  withIssue (.fstBlk f str sys) s fun I =>
    let d := I.read I.low f.d 64
    let n := bitsNat d 48 32
    I.fabWarp f (if blockOk d then n else 1) fun va =>
      if !blockOk d then I.trapAct 0x0B
      else
        I.acceptOr
          { I.newOp f.c f.e with args := [BitVec.ofNat 64 d, BitVec.ofNat 64 va, BitVec.ofNat 64 (I.endpoint I.low f.b)] }
          (if d % 16 ≠ 0 ∨ va % 16 ≠ 0 then some 15
           else if (I.s.csmSpan I.crew (d % 2 ^ 32) n).isNone then some 3
           else none)

/-- A form that acts on a window at an endpoint: a misaligned window poisons its token (R364). -/
def Issue.windowForm (I : Issue) (f : Fields) : State :=
  I.fabWarp f 16 fun va =>
    I.acceptOr
      { I.newOp f.c f.e with
        args := [0, BitVec.ofNat 64 va, BitVec.ofNat 64 (I.endpoint I.low f.b)]
        acc := I.lanes.map fun l => { lane := l, dst := I.dstOf l f.d } }
      (if va % 16 ≠ 0 then some 15 else none)

/-- FTICKET: its result goes to every issuing lane, whose destination must be in range. -/
def execFticket (f : Fields) (sys : Bool) (s : State) : Host.Outcome State Fault Refusal :=
  withIssue (.fticket f sys) s fun I => I.windowForm f

/-- FSIG.TRET. -/
def execFsigTret (f : Fields) (sys : Bool) (s : State) : Host.Outcome State Fault Refusal :=
  withIssue (.fsigTret f sys) s fun I => I.windowForm f

/-- FSIG.TPOIS. -/
def execFsigTpois (f : Fields) (sys : Bool) (s : State) : Host.Outcome State Fault Refusal :=
  withIssue (.fsigTpois f sys) s fun I => I.windowForm f

/-- FFLUSH: with B, only the accesses to one endpoint (R356). -/
def execFflush (f : Fields) (sys : Bool) (s : State) : Host.Outcome State Fault Refusal :=
  withIssue (.fflush f sys) s fun I => I.lowTrap <|
    let one := match f.b with | .absent => false | _ => true
    I.acceptOp { I.newOp f.c f.e with args := [BitVec.ofNat 64 (b2n one), 0, BitVec.ofNat 64 (I.endpoint I.low f.b)] }

/-- The record of an endpoint (R367): which ports have a route to it is a free value, cut to the ports in service. -/
def State.endpointWord (s : State) (ep : Nat) : Nat :=
  let ports := onesNat 18 (Config.routeMask ep &&& s.ports).toNat
  if ep = s.endpoint then 2 ^ 12 + ep
  else ports * 2 ^ 16 + b2n (s.vistitum && ports != 0) * 2 ^ 14 + b2n (ports != 0) * 2 ^ 13 + ep

/-- FQUERY. -/
def execFquery (f : Fields) (s : State) : Host.Outcome State Fault Refusal :=
  withIssue (.fquery f) s fun I => I.perLane fun l => .ok [.reg f.d 64 (I.s.endpointWord (I.endpoint l f.a))]

/-! ### Who goes where -/

/-- Whether a lane of an operation goes to this module, and whether it goes to a peer. -/
def State.laneLocal (s : State) (o : Op) (a : LaneAcc) : Bool :=
  match o.instr with | .fmcast .. => o.targets.contains s.endpoint | _ => a.off == s.endpoint
/-- See `State.laneLocal`. -/
def State.laneRemote (s : State) (o : Op) (a : LaneAcc) : Bool :=
  match o.instr with | .fmcast .. => o.targets.any (· != s.endpoint) | _ => a.off != s.endpoint

/-- The endpoint that a failure of an operation's remote part names: the first that is not this module. -/
def State.peerOf (s : State) (o : Op) : Nat :=
  let eps : List Nat :=
    match o.instr with
    | .fmcast .. => o.targets
    | .fstBlk .. | .fticket .. | .fsigTret .. | .fsigTpois .. | .texport .. | .pbarrive .. => [o.arg 2]
    | _ => (o.acc.filter fun (a : LaneAcc) => !a.done).map LaneAcc.off
  (eps.find? fun e => e != s.endpoint).getD s.endpoint

/-- What an answer says of the request of a lane: its data, or the number of a failed request of it with its RCLASS; none while it
is unanswered. The requests of a multicast's lane are numbered lane + 32 × target. -/
def answerOf (ans : FabAnswer) (l : Nat) : Option (Except (Nat × Nat) QWord) :=
  let value (ls : List (Nat × QWord)) : Option QWord := (ls.find? fun p => p.1 == l).map Prod.snd
  match ans with
  | .data ls => some (.ok ((value ls).getD 0))
  | .undelivered => some (.error (l, 0))
  | .translation => some (.error (l, 1))
  | .permission => some (.error (l, 2))
  | .lasting => some (.error (l, 3))
  | .some ls fs =>
    match fs.find? fun p => p.1 % 32 == l with
    | some x => some (.error x)
    | none => (value ls).map .ok

/-- What an answer says of an operation that makes one request, or one block of requests (R351): RCLASS of its first failure,
or data. -/
def answerWhole : FabAnswer → Option (Except Nat QWord)
  | .data ls => some (.ok ((ls.head?.map Prod.snd).getD 0))
  | .undelivered => some (.error 0)
  | .translation => some (.error 1)
  | .permission => some (.error 2)
  | .lasting => some (.error 3)
  | .some ls fs =>
    match fs with
    | x :: _ => some (.error x.2)
    | [] => ls.head?.map fun p => .ok p.2

/-- Whether a write, atomic or signal of a recompute crew is refused: it lies outside the containment (14 R413). -/
def State.fabContained (s : State) (o : Op) : Option Nat :=
  match o.instr with
  | .fld .. | .fflush .. => none
  | _ => (s.recomputeOf (some o.crew)).map Prod.fst

/-! ### Combined atomics (R361) -/

/-- The operation and type of a FAB atomic. -/
def fabAtomic : Instr → Option (Fields × AtomOp)
  | .fatom f op _ _ | .fatomc f op _ _ | .fred f op _ _ => some (f, op)
  | _ => none

/-- Whether lanes of one issue are combined. -/
def isCombined : Instr → Bool
  | .fatomc .. => true
  | _ => false

/-- The lanes that one act serves: a lane's group, ascending. -/
def Op.groupOfLane (o : Op) (a : LaneAcc) : List LaneAcc :=
  if isCombined o.instr then o.acc.filter fun b => b.off == a.off && b.addr == a.addr else [a]

/-- Whether a lane is the first of its group. -/
def Op.leads (o : Op) (a : LaneAcc) : Bool := ((o.groupOfLane a).head?.map LaneAcc.lane) == some a.lane

/-- `x op y` of a combined atomic. -/
def combineWith (op : AtomOp) (t : Ty) (x y : Nat) : Nat := (atomNew op t x y 0).getD x

/-- The operand of a group. -/
def groupOperand (op : AtomOp) (t : Ty) : List LaneAcc → Nat
  | [] => 0
  | a :: rest => rest.foldl (fun v b => combineWith op t v b.data.toNat) a.data.toNat

/-- The results of a group's lanes from the old value: each takes the old value combined with the lanes below it. -/
def groupResults (op : AtomOp) (t : Ty) (old : Nat) : List LaneAcc → List (Nat × Nat)
  | [] => []
  | a :: rest => (a.lane, old) :: groupResults op t (combineWith op t old a.data.toNat) rest

/-- The lanes of a group have performed. -/
def State.groupDone (s : State) (id : Nat) (rs : List (Nat × Nat)) : State :=
  rs.foldl (fun s r => s.setLane id r.1 fun a => { a with done := true, result := BitVec.ofNat 128 r.2 }) s

/-! ### Lanes that fail (R352) -/

/-- The failure of a lane. -/
def LaneAcc.failed (a : LaneAcc) (c : BitVec 6) (g : Word) : LaneAcc := { a with done := true, fail := some (c, g) }

/-- Whether the lanes of a FAB form succeed and fail each by itself. -/
def perLaneFab : Instr → Bool
  | .fld .. | .fst .. | .fatom .. | .fatomc .. | .fred .. | .fmcast .. => true
  | _ => false

/-- A lane of an operation fails, with those that its act serves. -/
def State.failLanes (s : State) (o : Op) (a : LaneAcc) (x : BitVec 6 × Word) : State :=
  (o.groupOfLane a).foldl (fun s b => s.setLane o.id b.lane fun b => b.failed x.1 x.2) s

/-- The failure that stopped a lane becomes that lane's; the others go on. -/
def State.laneFailed (s : State) (id : Nat) (a : LaneAcc) : State :=
  match s.op? id with
  | none => s
  | some o =>
    match o.fail with
    | some x => (s.failLanes o a x).setOp id fun o => { o with fail := none }
    | none => s

/-- A failure that came while an operation waited is that of the loopback lane at which it stopped. -/
def State.stuckFails (s : State) (o : Op) : State :=
  match o.acc.find? fun (a : LaneAcc) => !a.done && !a.queued && s.laneLocal o a && o.leads a with
  | some a => s.laneFailed o.id a
  | none => s

/-! ### Loopback (R345) -/

/-- The permissions of a loopback access. -/
def podNeed (r w : Bool) : Need := { r, w, pod := true }

/-- The loopback part of a lane that no atomic unit performs. -/
def State.localLaneAct (s : State) (o : Op) (a : LaneAcc) : State × LaneStep :=
  match o.instr with
  | .fld f _ _ =>
    match s.reach (s.fabWho o) a.addr.toNat (tyBytes f.ty) false (podNeed true false) with
    | (s, .ok ps) => (s, .did (widenLoad f.ty (leNat (s.readParts ps))))
    | (s, .error g) => (s, .stop accRead true g)
  | .fst f _ _ | .fmcast f _ _ =>
    match s.reach (s.fabWho o) a.addr.toNat (tyBytes f.ty) true (podNeed false true) with
    | (s, .ok ps) => (s.writeParts ps (leBytes (tyBytes f.ty) a.data.toNat), .did 0)
    | (s, .error g) => (s, .stop accWrite true g)
  | _ => (s, .did 0)

/-- Whether an operation waits for an answer or a recall, or has failed as a whole. -/
def State.opStopped (s : State) (id : Nat) : Bool :=
  match s.op? id with
  | some o => o.fail.isSome || o.wait != .none
  | none => true

/-- Whether a lane may go, with those that its act serves: nothing earlier holds them back. -/
def State.laneGoes (s : State) (o : Op) (a : LaneAcc) : Bool := (o.groupOfLane a).all fun b => s.mayPerformLane o b.lane

/-- Whether a loopback store must let a lower lane go first (R358). -/
def State.behindLower (s : State) (o : Op) (a : LaneAcc) : Bool :=
  match s.op? o.id with
  | some p => s.lowerFirst o (p.acc.filter fun b => b.lane < a.lane && !b.done && !b.queued && s.laneLocal o b) a
  | none => false

/-- The loopback lanes that may go, in ascending order: loads and stores perform, atomics queue at their slice; a lane that
fails leaves the others to go on, and one that waits holds those above it. -/
def State.localLanes : List LaneAcc → State → Op → State
  | [], s, _ => s
  | a :: rest, s, o =>
    if a.done || a.queued || !s.laneLocal o a || s.opStopped o.id || !s.laneGoes o a || s.behindLower o a then
      State.localLanes rest s o
    else
      match fabAtomic o.instr with
      | some (f, _) =>
        if !o.leads a then State.localLanes rest s o
        else
          match s.reach (s.fabWho o) a.addr.toNat (tyBytes f.ty) true (podNeed true true) with
          | (s, .ok ps) =>
            let s := s.queueAct ((ps.head?.map Part.key).getD 0) (.fab (dieOfCore o.core)) (.lane o.id a.lane)
            State.localLanes rest (s.setLane o.id a.lane fun b => { b with queued := true }) o
          | (s, .error g) => State.localLanes rest ((s.stopFab o accAtomic g).laneFailed o.id a) o
      | none =>
        match s.localLaneAct o a with
        | (s, .did x) =>
          let whole := !s.laneRemote o a
          State.localLanes rest
            (s.setLane o.id a.lane fun b => { b with queued := true, done := whole, result := BitVec.ofNat 128 x }) o
        | (s, .stop acc _ g) => State.localLanes rest ((s.stopFab o acc g).laneFailed o.id a) o

/-- The one act of a loopback atomic at its slice: a group's for FATOMC. -/
def State.fabAtomLane (s : State) (o : Op) (a : LaneAcc) (f : Fields) (op : AtomOp) : State × Except Gate Unit :=
  let n := tyBytes f.ty
  match s.reach (s.fabWho o) a.addr.toNat n true (podNeed true true) with
  | (s, .error g) => (s, .error g)
  | (s, .ok ps) =>
    let old := leNat (s.readParts ps)
    let grp := o.groupOfLane a
    let src := if isCombined o.instr then groupOperand op f.ty grp else a.data.toNat
    let s := match atomNew op f.ty old src a.cmp.toNat with
      | some x => s.writeParts ps (leBytes n x)
      | none => s
    let rs := if isCombined o.instr then groupResults op f.ty old grp else [(a.lane, old)]
    (s.groupDone o.id rs, .ok ())

/-! ### Answers and settlement (R350-R352) -/

/-- The destination of a FAB form, and its width. -/
def fabResult : Instr → Option (Opd × Nat)
  | .fld f _ _ => some (f.d, max 32 (8 * tyBytes f.ty))
  | .fatom f _ _ _ | .fatomc f _ _ _ => some (f.d, 8 * tyBytes f.ty)
  | .fticket f _ => some (f.d, 32)
  | _ => none

/-- A FAB operation settles DONE: registers are written, and an acquire takes effect. -/
def State.doneFab (s : State) (o : Op) : State :=
  let s := match fabResult o.instr with | some (d, bits) => s.deliver o d bits o.acc | none => s
  ((if isAcquire o.instr then s.acquired o (descOf o.instr) else s).stallReturn o).finish o.id

/-- Settle an operation if it has failed. -/
def State.endFailed (s : State) (o : Op) : State :=
  match (s.op? o.id).bind Op.fail with
  | some (c, g) => s.settleFab o c g
  | none => s

/-- Settle an operation that has failed, or whose lanes have all performed. -/
def State.endFab (s : State) (id : Nat) : State :=
  match s.op? id with
  | none => s
  | some o =>
    match o.fail with
    | some (c, g) => s.settleFab o c g
    | none =>
      if o.wait == .none && o.acc.all LaneAcc.done then
        match o.acc.findSome? LaneAcc.fail with
        | some (c, g) => s.settleFab o c g
        | none => s.doneFab o
      else s

/-- The endpoint of the request of a lane: a multicast's is numbered lane + 32 × target. -/
def State.requestEp (s : State) (o : Op) (a : LaneAcc) (n : Nat) : Nat :=
  match o.instr with
  | .fmcast .. => (o.targets[n / 32]?).getD (s.peerOf o)
  | _ => a.off

/-- The request of a lane fails with an RCLASS, and with it the lanes that its act serves (R351, R352). -/
def State.requestFails (s : State) (o : Op) (a : LaneAcc) (n r : Nat) : State :=
  s.failLanes o a (10, peerOrigin r (s.requestEp o a n))

/-- The results of the lanes that one act serves, from the value that a peer returned. -/
def Op.answered (o : Op) (a : LaneAcc) (x : QWord) : List (Nat × Nat) :=
  match o.instr with
  | .fatomc f op _ _ => groupResults op f.ty (x.toNat % 2 ^ (8 * tyBytes f.ty)) (o.groupOfLane a)
  | .fld f _ _ => [(a.lane, widenLoad f.ty (x.toNat % 2 ^ (8 * tyBytes f.ty)))]
  | .fatom f _ _ _ => [(a.lane, x.toNat % 2 ^ (8 * tyBytes f.ty))]
  | _ => [(a.lane, 0)]

/-- A peer's answer reaches the remote lanes of an operation that have been sent, each by itself (R352). -/
def State.answerLanes (s : State) (o : Op) (ans : FabAnswer) : State :=
  (o.acc.filter fun a => !a.done && s.laneRemote o a && o.leads a && s.laneGoes o a).foldl (fun s a =>
    match answerOf ans a.lane with
    | none => s
    | some (.error x) => s.requestFails o a x.1 x.2
    | some (.ok x) => s.groupDone o.id (o.answered a x)) s

/-- A per-lane operation goes on: its loopback lanes perform or queue, and the answer reaches the others. -/
def State.runFabLanes (s : State) (o : Op) (ans : FabAnswer) : State :=
  let s1 := State.localLanes o.acc s o
  match s1.op? o.id with
  | none => s1
  | some o1 => (if o1.fail.isNone then s1.answerLanes o1 ans else s1).endFab o.id

/-- A peer's answer reaches an operation that makes one request, or one block of them: a failure settles it. -/
def State.wholeAnswer (s : State) (o : Op) (ans : FabAnswer) (done : State → QWord → State) : State :=
  match answerWhole ans with
  | none => s
  | some (.error r) => s.settleFab o 10 (peerOrigin r (s.peerOf o))
  | some (.ok x) => done s x

/-- FST.BLK (R359): the block is read from CSM and written to its address. -/
def State.runBlock (s : State) (o : Op) (ans : FabAnswer) : State :=
  let n := bitsNat (o.arg 0) 48 32
  match (s.crew? o.crew).bind fun c => s.csmSpan c (o.arg 0 % 2 ^ 32) n with
  | none => s.settleFab o 3 o.origin
  | some cs =>
    if o.arg 2 = s.endpoint then
      match s.reach (s.fabWho o) (o.arg 1) n true (podNeed false true) with
      | (s, .ok ps) => (s.writeParts ps (s.csmRead cs)).finish o.id
      | (s, .error g) => (s.stopFab o accWrite g).endFailed o
    else
      s.wholeAnswer o ans fun s _ => s.finish o.id

/-! ### Tickets and signals (R364-R366) -/

/-- Reach the window of an operation. -/
def State.reachWindow (s : State) (o : Op) : State × Except Gate (List Part) :=
  s.reach (s.fabWho o) (o.arg 1) 16 true (podNeed true true)

/-- Whether ticket t is called by a window. -/
def ticketCalled (g t : Nat) : Bool := decide ((t + 2 ^ 32 - bitsNat g 63 32) % 2 ^ 32 < bitsNat g 79 64)

/-- POISON of a window. -/
def windowPoison (g : Nat) : Bool := bitNat g 95

/-- The act of an FSIG on a window. -/
def signalWindow (g : Nat) (poison : Bool) : Nat :=
  let w1 := bitsNat g 63 32
  let g := g - w1 * 2 ^ 32 + (w1 + 1) % 2 ^ 32 * 2 ^ 32
  if poison && !windowPoison g then g + 2 ^ 95 else g

/-- A call or a poison reaches the issuer of a recorded ticket; a ticket whose issuer was saved or ended is returned
(17 R485). -/
def State.callOne (s : State) (key : Nat) (t : Word) (k : ActKind) (poison : Bool) : State :=
  match k with
  | .whole id =>
    match s.op? id with
    | none => if poison then s else s.storeNat key 16 (signalWindow (s.nat key 16) false)
    | some o =>
      if poison then s.settleFab o 10 (peerOrigin 2 s.endpoint)
      else
        let acc := o.acc.map fun a => { a with result := BitVec.ofNat 128 t.toNat, done := true }
        let s := match fabResult o.instr with | some (d, bits) => s.deliver o d bits acc | none => s
        ((s.acquired o (descOf o.instr)).stallReturn o).finish id
  | .peer p => s.emit (if poison then .peerFail p.source p.seq 2 else .peerData p.source p.seq (leBytes 4 t.toNat))
  | .lane _ _ | .row _ _ _ => s

/-- Insert a ticket by its distance from RETURNED. -/
def insTicket (w1 : Nat) (x : Nat × Word × ActKind) : List (Nat × Word × ActKind) → List (Nat × Word × ActKind)
  | [] => [x]
  | y :: ys =>
    let d (z : Nat × Word × ActKind) : Nat := (z.2.1.toNat + 2 ^ 32 - w1) % 2 ^ 32
    if d x < d y then x :: y :: ys else y :: insTicket w1 x ys

/-- The recorded tickets of one window that are now called or poisoned are sent, in call order, and forgotten. -/
def State.callWindow (s : State) (key : Nat) : State :=
  let g := s.nat key 16
  let mine := s.tickets.filter fun t => t.1 == key
  let due := if windowPoison g then mine else mine.filter fun t => ticketCalled g t.2.1.toNat
  let sorted := due.foldl (fun l t => insTicket (bitsNat g 63 32) t l) []
  let s : State := { s with tickets := s.tickets.filter fun t => !due.contains t }
  sorted.foldl (fun s t => s.callOne key t.2.1 t.2.2 (windowPoison g)) s

/-- After every act on a window, the home checks its recorded tickets. -/
def State.callTickets (s : State) : State :=
  (sortNat (s.tickets.map fun t => t.1)).foldl (fun s k => s.callWindow k) s

/-- The act of an FTICKET on a window: the ticket that it records, or poison. -/
def takeTicket (g : Nat) : Option (Nat × Nat) :=
  if windowPoison g || bitsNat g 79 64 == 0 then none
  else
    let t := bitsNat g 31 0
    some (t, g - t + (t + 1) % 2 ^ 32)

/-- Whether a signal poisons. -/
def isPoisonSignal : Instr → Bool
  | .fsigTpois .. => true
  | _ => false

/-- The act of an FTICKET or FSIG at its window's slice. -/
def State.actWindow (s : State) (o : Op) : State :=
  match s.reachWindow o with
  | (s, .error g) =>
    ((s.setOp o.id fun o => { o with prog := 0 }).stopFab o accAtomic g).endFailed o
  | (s, .ok ps) =>
    let g := leNat (s.readParts ps)
    let key := (ps.head?.map Part.key).getD 0
    match o.instr with
    | .fticket .. =>
      match takeTicket g with
      | none => s.settleFab o 10 (peerOrigin 2 s.endpoint)
      | some (t, new) =>
        let s := (s.writeParts ps (leBytes 16 new)).setOp o.id fun o => { o with wait := .ticket (BitVec.ofNat 32 t) }
        { s with tickets := s.tickets ++ [(key, BitVec.ofNat 32 t, .whole o.id)] }
    | i => (s.writeParts ps (leBytes 16 (signalWindow g (isPoisonSignal i)))).finish o.id

/-- An FTICKET or FSIG goes on: a loopback one queues its act, a remote one takes the peer's answer. -/
def State.runWindow (s : State) (o : Op) (ans : FabAnswer) : State :=
  if o.arg 2 = s.endpoint then
    if o.prog != 0 then s
    else
      match s.reachWindow o with
      | (s, .ok ps) =>
        (s.queueAct ((ps.head?.map Part.key).getD 0) (.fab (dieOfCore o.core)) (.whole o.id)).setOp o.id fun o => { o with prog := 1 }
      | (s, .error g) => (s.stopFab o accAtomic g).endFailed o
  else
    s.wholeAnswer o ans fun s x =>
      match o.instr with
      | .fticket .. => s.callOne 0 (x.setWidth 32) (.whole o.id) false
      | _ => s.finish o.id

/-! ### FFLUSH (R356) -/

/-- FFLUSH settles when nothing that it covers is left; a covered failure poisons it, the first in program order. -/
def State.runFlush (s : State) (o : Op) : State :=
  if s.ops.any fun p => o.flushCovers p then s
  else
    let fails := ((s.warp? o.crew o.warp).map Warp.fabFails).getD []
    let mine := fails.filter fun x =>
      x.id < o.id && (x.lanes &&& o.lanes) != 0 && (match o.flushOf with | some e => x.eps.contains e | none => true)
    match minNat (mine.map FabFail.id) with
    | none => s.finish o.id
    | some k =>
      match mine.find? fun x => x.id == k with
      | some x => s.settle o.id (.poisoned x.cause x.origin)
      | none => s.finish o.id

/-! ### Arrivals at a peer (R357) -/

/-- A TEXPORT or PBARRIVE with PEER goes on: at this module it queues its act, at a peer it takes the answer. -/
def State.runArrival (s : State) (o : Op) (ans : FabAnswer) : State :=
  if o.arg 1 % 16 ≠ 0 then s.failPhase o 15 none
  else if 2 ^ 57 ≤ o.arg 1 then s.failPhase o 3 none
  else if o.arg 2 = s.endpoint then (if o.prog = 0 then s.sendPhase o else s)
  else s.wholeAnswer o ans fun s _ => s.finish o.id

/-- Whether the settling of an operation belongs to FAB_OPERATION_SETTLE. -/
def settlesInFab (i : Instr) : Bool := engineOf i == .fab || isPeerArrival i

/-- A started FAB operation, or a peer arrival, goes on with a peer's answer. -/
def State.runFab (s : State) (o : Op) (ans : FabAnswer) : State :=
  let s := if perLaneFab o.instr then s.stuckFails o else s
  let o := (s.op? o.id).getD o
  match o.fail with
  | some (c, g) => s.settleFab o c g
  | none =>
    match s.fabContained o with
    | some d => (s.stopRecompute o.crew).settleFab o 8 (mkOrigin .rce d o.core 0)
    | none =>
      match o.instr with
      | .fflush .. => s.runFlush o
      | .fstBlk .. => s.runBlock o ans
      | .fticket .. | .fsigTret .. | .fsigTpois .. => s.runWindow o ans
      | .texport .. | .pbarrive .. => s.runArrival o ans
      | _ => s.runFabLanes o ans

/-! ### Requests that are resent (R342, R351) -/

/-- The lane whose request to a peer has number n, of a form with a request for each lane: it has been sent and is unanswered. -/
def State.openLane (s : State) (o : Op) (n : Nat) : Option LaneAcc :=
  o.acc.find? fun a => a.lane == n % 32 && !a.done && s.laneRemote o a && o.leads a && s.laneGoes o a &&
    (match o.instr with
     | .fmcast .. => (o.targets[n / 32]?).any (· != s.endpoint)
     | _ => n < 32)

/-- Whether request n of an operation to a peer is under way: a lane's, a granule's of a block, or the one request of the other
per-warp forms. A recorded ticket waits for no answer (R365). -/
def State.requestOpen (s : State) (o : Op) (n : Nat) : Bool :=
  if perLaneFab o.instr then (s.openLane o n).isSome
  else
    match o.instr with
    | .fticket .. | .fflush .. => false
    | i => settlesInFab i && o.arg 2 != s.endpoint &&
        decide (n < (match i with | .fstBlk .. => bitsNat (o.arg 0) 48 32 / 16 | _ => 1))

/-- Whether an operation has a request under way to a peer. -/
def State.hasRemote (s : State) (o : Op) : Bool :=
  if perLaneFab o.instr then o.acc.any fun a => !a.done && s.laneRemote o a else s.requestOpen o 0

/-- Request n of an operation is lost on its way: the first time it is resent, which `%fabevt` counts; after that it fails with an
RCLASS. -/
def State.resend (s : State) (o : Op) (n r : Nat) : State :=
  if !s.requestOpen o n then s
  else if !o.resent.contains n then
    let s := s.setCore o.core fun c => { c with fabevt := c.fabevt + 1 }
    (s.logErr 1 3 (coreOrigin .fab o.core o.tok) 0 o.launch 0).setOp o.id fun o => { o with resent := o.resent ++ [n] }
  else
    match s.openLane o n with
    | some a => if perLaneFab o.instr then (s.requestFails o a n r).endFab o.id else s.settleFab o 10 (peerOrigin r (s.peerOf o))
    | none => s.settleFab o 10 (peerOrigin r (s.peerOf o))

/-! ### Accesses of peers (R344, R354) -/

/-- Who makes the accesses of peers: each die's FAB; those of this module enter at die 0. -/
def peerWho : Who := { crew := none, asid := 4095, loc := .ofDie 0, engine := .fab }

/-- Bytes that a packet accesses. -/
def packetSize (p : PeerPacket) : Nat :=
  match p.act with
  | .read n => n
  | .write d => d.length
  | .atomic _ t _ _ => tyBytes t
  | _ => 16

/-- Whether a packet writes. -/
def packetWrites (p : PeerPacket) : Bool := match p.act with | .read _ => false | _ => true

/-- ACCESS of a packet. -/
def packetAccess (p : PeerPacket) : Nat :=
  match p.act with | .read _ => accRead | .write _ => accWrite | _ => accAtomic

/-- Whether two packets touch one 16-byte granule. -/
def packetMeets (p q : PeerPacket) : Bool :=
  p.addr.toNat / 16 ≤ (q.addr.toNat + (packetSize q) - 1) / 16 && q.addr.toNat / 16 ≤ (p.addr.toNat + (packetSize p) - 1) / 16

/-- Whether an act of a source's earlier packet is still queued at a slice. -/
def State.peerQueued (s : State) (f : PeerPacket → Bool) : Bool :=
  s.dies.any fun d => d.slices.any fun q => q.acts.any fun a => match a.kind with | .peer p => f p | _ => false

/-- Whether a packet must stay in its reorder buffer: behind the packets that its source names, which need not have arrived yet; a
release behind its thread's earlier writes, a write behind an earlier one of its warp to the same granule; an act already
queued, or an access that waits for an answer (R354, R355). -/
def State.packetHeld (s : State) (p : PeerPacket) : Bool :=
  let before (q : PeerPacket) : Bool :=
    q.source == p.source && q.warp == p.warp && q.seq < p.seq && (packetWrites q) && (p.release || ((packetWrites p) && packetMeets p q))
  let same (q : PeerPacket) : Bool := q.source == p.source && q.seq == p.seq
  (p.after.any fun n => !s.seen.contains (p.source, n)) || s.reorder.any before || s.peerQueued (fun q => before q || same q) ||
  s.dies.any fun d => d.faults.any fun f => match f.owner with | .peer q => same q | _ => false

/-- A packet has performed: it leaves its buffer and is remembered, so that a resent copy is discarded. -/
def State.packetDone (s : State) (p : PeerPacket) (out : Output) : State :=
  { s with
    reorder := s.reorder.filter fun q => !(q.source == p.source && q.seq == p.seq)
    seen := (p.source, p.seq) :: s.seen }.emit out

/-- What a gate that stopped a packet does. -/
def State.stopPacket (s : State) (p : PeerPacket) (g : Gate) : State :=
  match g with
  | .fault va k l e =>
    match s.fault { die := 0, asid := 4095, va, access := (packetAccess p), engine := .fab } k l e (some (.peer p)) with
    | (s, .waits) => s
    | (s, .fails _) => s.packetDone p (.peerFail p.source p.seq (rclassOf k))
  | .recall h share => s.startRecall h share
  | .later => s
  | .fail c _ => s.packetDone p (.peerFail p.source p.seq (rclassOfCause c))
  | _ => s.packetDone p (.peerFail p.source p.seq 2)

/-- Reach the bytes of a packet. -/
def State.reachPacket (s : State) (p : PeerPacket) : State × Except Gate (List Part) :=
  s.reach peerWho p.addr.toNat (packetSize p) (packetWrites p) (podNeed ((packetAccess p) != accWrite) (packetWrites p))

/-- One packet tries to perform: a read or a write at once, an act by queueing at its slice. -/
def State.tryPacket (s : State) (p : PeerPacket) : State :=
  if s.packetHeld p then s
  else
    match s.reachPacket p with
    | (s, .error g) => s.stopPacket p g
    | (s, .ok ps) =>
      match p.act with
      | .read _ => s.packetDone p (.peerData p.source p.seq (s.readParts ps))
      | .write d => (s.writeParts ps d).packetDone p (.peerData p.source p.seq [])
      | _ => s.queueAct ((ps.head?.map Part.key).getD 0) (.fab 0) (.peer p)

/-- The packets of the reorder buffers try to perform, in order of arrival. -/
def State.drainPackets (s : State) : State := s.reorder.foldl (fun s p => s.tryPacket p) s

/-- A packet arrives: a duplicate is discarded, a full buffer holds its source, and a packet already there tries again. -/
def State.packetArrives (s : State) (p : PeerPacket) : State :=
  let same (q : PeerPacket) : Bool := q.source == p.source && q.seq == p.seq
  if s.seen.contains (p.source, p.seq) then s
  else if s.reorder.any same then s.drainPackets
  else if 512 ≤ (s.reorder.filter fun q => q.source == p.source).length then s
  else { s with reorder := s.reorder ++ [p] }.drainPackets

/-- The act of a packet at its slice. -/
def State.actPacket (s : State) (p : PeerPacket) : State :=
  match s.reachPacket p with
  | (s, .error g) => s.stopPacket p g
  | (s, .ok ps) =>
    let old := leNat (s.readParts ps)
    let key := (ps.head?.map Part.key).getD 0
    let put (s : State) (n x : Nat) : State := s.writeParts ps (leBytes n x)
    let ok (s : State) (bs : List Byte) : State := s.packetDone p (.peerData p.source p.seq bs)
    match p.act with
    | .atomic op t src cmp =>
      let s := match atomNew op t old src.toNat cmp.toNat with | some x => put s (tyBytes t) x | none => s
      ok s (leBytes (tyBytes t) old)
    | .arrive n poison => ok (put s 16 (arrivePb old n.toNat poison)) []
    | .signal poison => ok (put s 16 (signalWindow old poison)) []
    | .ticket =>
      match takeTicket old with
      | none => s.packetDone p (.peerFail p.source p.seq 2)
      | some (t, new) =>
        let s := put s 16 new
        { s with
          tickets := s.tickets ++ [(key, BitVec.ofNat 32 t, .peer p)]
          reorder := s.reorder.filter fun q => !(q.source == p.source && q.seq == p.seq)
          seen := (p.source, p.seq) :: s.seen }
    | _ => s

end Sys2Proof.Machine
end

