-- ==== Sys2Proof/Machine/Crews.lean ====
section
/-! DEFINITION. Crews and the resources of a core: what a crew takes, where its warps go, the state it starts in, and when
it ends (01 R16, R19-R23, R31-R35; 13 R378, R393, R394; 14 R410). -/

namespace Sys2Proof.Machine

/-! ### Resources (01 R16, R31) -/

/-- Amounts of a core's resources; the register file and CSM count bytes. -/
structure Needs where
  warps  : Nat := 0
  rf     : Nat := 0
  csm    : Nat := 0
  slots  : Nat := 0
  accs   : Nat := 0
  shapes : Nat := 0
  bars   : Nat := 0
  deriving DecidableEq, Repr

/-- What one core has (01 R16). -/
def coreNeeds : Needs := ⟨64, 262144, 524288, 64, 16, 16, 32⟩

/-- The sum of two needs. -/
def Needs.add (a b : Needs) : Needs :=
  ⟨a.warps + b.warps, a.rf + b.rf, a.csm + b.csm, a.slots + b.slots, a.accs + b.accs, a.shapes + b.shapes, a.bars + b.bars⟩

/-- n times a need. -/
def Needs.times (n : Nat) (a : Needs) : Needs :=
  ⟨n * a.warps, n * a.rf, n * a.csm, n * a.slots, n * a.accs, n * a.shapes, n * a.bars⟩

/-- Whether one need lies within another. -/
def Needs.within (a b : Needs) : Bool :=
  a.warps ≤ b.warps && a.rf ≤ b.rf && a.csm ≤ b.csm && a.slots ≤ b.slots && a.accs ≤ b.accs && a.shapes ≤ b.shapes &&
  a.bars ≤ b.bars

/-- The warps of a crew of T threads. -/
def warpCount (threads : Nat) : Nat := (threads + 31) / 32

/-- What a crew of some threads and registers takes, beside its other grants. -/
def threadNeeds (threads regs : Nat) : Needs := { warps := warpCount threads, rf := warpCount threads * 32 * regs * 4 }

/-- What a crew takes from its core. -/
def Crew.needs (c : Crew) : Needs :=
  { warps := c.warps.length, rf := c.warps.length * 32 * c.regs * 4, csm := c.csmSize, slots := c.slots, accs := c.accs
    shapes := c.shapesN, bars := c.barsN }

/-- Threads, registers and needs of a descriptor's word 1 (13 R386; 18 R498 RCNEEDS). -/
def descThreads (w : Nat) : Nat := bitsNat w 9 0 + 1
/-- Registers per thread. -/
def descRegs (w : Nat) : Nat := (bitsNat w 14 10 + 1) * 8
/-- See `descThreads`. -/
def descNeeds (w : Nat) : Needs :=
  { threadNeeds (descThreads w) (descRegs w) with
    csm := bitsNat w 23 16 * 4096, slots := bitsNat w 30 24, accs := bitsNat w 36 32, shapes := bitsNat w 41 37
    bars := bitsNat w 47 42 }

/-- What one crew of a launch takes. -/
def Launch.needs (l : Launch) : Needs :=
  { threadNeeds (l.dims.1 * l.dims.2.1 * l.dims.2.2) l.regs with
    csm := l.csmSize, slots := l.slots, accs := l.accs, shapes := l.shapesN, bars := l.barsN }

/-- A sum of needs. -/
def sumNeeds (ns : List Needs) : Needs := ns.foldl Needs.add {}

/-- What is taken of a core: its crews but for recomputes, and every slot of the reserves that stand on it (01 R34;
13 R394). -/
def State.usedOf (s : State) (core : Nat) : Needs :=
  (sumNeeds ((s.crews.filter fun c =>
      c.core == core && (match c.kind with | .recompute _ _ => false | _ => true)).map Crew.needs)).add
    (sumNeeds (s.launches.map fun l =>
      if l.reserves.any fun r => r.2 == core then (descNeeds l.rcneeds.toNat).times l.rcslots else {}))

/-- Whether a core has some resources free. -/
def State.hasRoom (s : State) (core : Nat) (n : Needs) : Bool := ((s.usedOf core).add n).within coreNeeds

/-- The cores of a die, ascending. -/
def dieCores (die : Nat) : List Nat := (List.range 96).map (96 * die + ·)

/-- Whether a die can be given work (01 R15; 15 R439). -/
def State.dieServes (s : State) (die : Nat) : Bool := (s.die die).avail && !(s.die die).failed

/-! ### Warp slots (01 R20) -/

/-- The warp slots of a core that are taken. -/
def State.slotsTaken (s : State) (core : Nat) : List Nat :=
  (s.crews.filter fun c => c.core == core).flatMap fun c => c.warps.map Warp.slot

/-- The lowest free slot of a quadrant: which free one a warp takes is stated nowhere (DESIGN CHOICE, log 15). -/
def freeSlot (taken : List Nat) (q : Nat) : Option Nat := ((List.range 16).map (16 * q + ·)).find? fun k => !taken.contains k

/-- The slot for a warp that should go to quadrant q, or to the next one with room. -/
def pickSlot (taken : List Nat) (q : Nat) : Option Nat := ((List.range 4).map fun i => (q + i) % 4).findSome? (freeSlot taken)

/-- The quadrant with the fewest resident warps, the lowest on a tie. -/
def emptiestQuadrant (taken : List Nat) : Nat :=
  let n (q : Nat) : Nat := (taken.filter fun k => k / 16 == q).length
  (List.range 4).foldl (fun best q => if n q < n best then q else best) 0

/-- The slots of n warps, in warp order. -/
def placeWarps : Nat → List Nat → Nat → List Nat
  | 0, _, _ => []
  | n + 1, taken, q =>
    match pickSlot taken q with
    | some k => k :: placeWarps n (k :: taken) ((k / 16 + 1) % 4)
    | none => []

/-! ### Making a crew -/

/-- What the maker of a crew says of it. -/
structure CrewSpec where
  launch  : Launch
  kind    : CrewKind
  core    : Nat
  cluster : Word := 0xFFFFFFFF
  index   : Nat := 0
  stage   : Nat := 0
  dims    : Nat × Nat × Nat
  regs    : Nat
  needs   : Needs
  corner  : Nat × Nat
  rect    : Nat × Nat := (1, 1)
  nbv     : BitVec 2
  /-- The uniform registers that do not start at 0, from `s0`. -/
  u       : List DWord := []
  taskid  : Word := 0
  rcinfo  : Word := 0

/-- The coordinates of a core on its die (01 R14). -/
def coreXY (core : Nat) : Nat × Nat := (core % 96 % 8, core % 96 / 8)

/-- A thread that starts at an entry: the check of 02 R53 is owed at its first issue, its call stack is empty, the offset at
the size of its local area (04 R129, R164), and under `%nbv` 1 it flushes (06 R207). -/
def newThread (entry : VAddr) (regs : Nat) (lsize : Word) (nbv : BitVec 2) : Thread :=
  { pc := entry, owed := true, csp := lsize, fenv := if nbv = 1 then 0x1800 else 0, v := List.replicate regs 0 }

/-- Warp k of a crew of T threads. -/
def newWarp (slot k threads : Nat) (entry : VAddr) (regs : Nat) (lsize : Word) (nbv : BitVec 2) (u : List DWord) : Warp where
  slot := slot
  threads := (List.range 32).map fun l =>
    if 32 * k + l < threads then newThread entry regs lsize nbv else { newThread entry 0 0 nbv with run := .absent, owed := false }
  u := u ++ List.replicate (64 - u.length) 0
  nbv := nbv

/-- A crew is created with fresh grants (01 R31; 03 R116). -/
def State.makeCrew (s : State) (p : CrewSpec) (entry : VAddr) : State :=
  let threads := p.dims.1 * p.dims.2.1 * p.dims.2.2
  let taken := s.slotsTaken p.core
  let slots := placeWarps (warpCount threads) taken (emptiestQuadrant taken)
  let c : Crew :=
    { id := s.nextId, launch := p.launch.num, kind := p.kind, core := p.core, cluster := p.cluster, index := p.index
      stage := p.stage, dims := p.dims, regs := p.regs, csmSize := p.needs.csm, slots := p.needs.slots
      accs := p.needs.accs, shapesN := p.needs.shapes, barsN := p.needs.bars, corner := p.corner, rect := p.rect
      argp := p.launch.argp, lsize := p.launch.lsize
      warps := slots.mapIdx fun k slot => newWarp slot k threads entry p.regs p.launch.lsize p.nbv p.u
      bars := List.replicate p.needs.bars { expect := threads }
      shapes := List.replicate p.needs.shapes none, acc := List.replicate p.needs.accs none
      coop := p.launch.coop, ctxarea := p.launch.ctxarea, taskid := p.taskid, rcinfo := p.rcinfo }
  { s with nextId := s.nextId + 1, crews := s.crews ++ [c] }

/-! ### The end of a crew (01 R33; 13 R393) -/

/-- Whether an operation counts for a crew: its own, but for a TSUBMIT without a token (13 R372), and a gang in which it
is a partner (11 R325). -/
def Op.countsFor (o : Op) (crew : Nat) : Bool :=
  (o.crew == crew && !o.orphan && !(o.tok == 0 && (match o.instr with | .tsubmit .. => true | _ => false))) ||
  o.gangCrews.contains crew

/-- Whether some token of a crew is PENDING. -/
def Crew.tokenPending (c : Crew) : Bool := c.warps.any fun w => w.toks.any fun t => t.st == .pending

/-- Whether a thread was stopped (14 R413; 18 R501). -/
def Crew.hasStopped (c : Crew) : Bool := c.warps.any fun w => w.threads.any fun t => t.run == .stopped

/-- Whether a crew has ended: every thread has exited, and every token of its warps, every operation and every arrival
that counts for it has settled. A token held by TSIG.ARM does not keep a stopped crew. -/
def State.crewEnded (s : State) (c : Crew) : Bool :=
  c.save.isNone && !c.heldLoad && c.warps.all Warp.exited && (c.hasStopped || !c.tokenPending) &&
  !(s.ops.any fun o => o.countsFor c.id) && !(s.arrivals.any fun a => a.crew == c.id)

/-- A crew ends with poison (13 R393): its lowest warp with `%tstat.POISON`, or the first token that settled POISONED
after the exit of its warp. -/
def Crew.poison (c : Crew) : Option (BitVec 6 × Word) :=
  match c.warps.find? fun w => w.tstat.getLsbD 0 with
  | some w => some (BitVec.ofNat 6 (bitsNat w.tstat.toNat 13 8), BitVec.ofNat 32 (bitsNat w.tstat.toNat 63 32))
  | none => c.latePoison

/-- The resources of a crew are released. -/
def State.dropCrew (s : State) (id : Nat) : State := { s with crews := s.crews.filter fun c => c.id != id }

end Sys2Proof.Machine
end

