-- ==== Sys2Proof/Machine/Tbe.lean ====
section
/-! DEFINITION. The task and bin engine (13 R371-R397), less the grants of the dispatcher and the completion of a task:
spawn bins, work queues, streams, submissions and queries. -/

namespace Sys2Proof.Machine

/-! ### Tables -/

/-- The value of a direct immediate field. -/
def immNo : Opd → Nat
  | .imm v => v.toNat
  | _ => 0

/-- A queue or stream number: an immediate, or a uniform whose bits [63:6] must be 0 (R371). -/
def Issue.tableNo (I : Issue) (o : Opd) : Option Nat :=
  match o with
  | .imm v => some v.toNat
  | _ => if I.read I.low o 64 < 64 then some (I.read I.low o 64) else none

/-- A bin of a core. -/
def State.bin (s : State) (core b : Nat) : Bin := (s.core core).bins.getD b {}
/-- Change a bin. -/
def State.setBin (s : State) (core b : Nat) (f : Bin → Bin) : State :=
  s.setCore core fun c => { c with bins := updAt b f c.bins }
/-- A queue of a die. -/
def State.queue (s : State) (die q : Nat) : WorkQueue := (s.die die).queues.getD q {}
/-- Change a queue. -/
def State.setQueue (s : State) (die q : Nat) (f : WorkQueue → WorkQueue) : State :=
  s.setDie die fun d => { d with queues := updAt q f d.queues }
/-- A stream of a die. -/
def State.stream (s : State) (die n : Nat) : Stream := (s.die die).streams.getD n {}
/-- Change a stream. -/
def State.setStream (s : State) (die n : Nat) (f : Stream → Stream) : State :=
  s.setDie die fun d => { d with streams := updAt n f d.streams }

/-- Whether a bin, a queue or a stream entry belongs to another launch (R373). -/
def Bin.foreign (b : Bin) (launch : Nat) : Bool := b.st != .free && b.owner != launch
/-- See `Bin.foreign`. -/
def WorkQueue.foreign (q : WorkQueue) (launch : Nat) : Bool := q.en && q.owner != launch
/-- See `Bin.foreign`. -/
def Stream.foreign (t : Stream) (launch : Nat) : Bool := t.used && t.owner != launch

/-- Whether a base address is refused: a bit above 56, or no multiple of the alignment. -/
def baseBad (x align : Nat) : Bool := 2 ^ 57 ≤ x || x % align != 0

/-- Who makes the accesses of the TBE for an operation or, without one, for a launch. -/
def State.tbeWho (s : State) (die launch : Nat) (o : Option Op) : Who :=
  { crew := o.map Op.crew, asid := ((s.launch? launch).map Launch.asid).getD 0, loc := .ofDie die
    core := ((o.map Op.core).getD 0xFF), wslot := ((o.map Op.slot).getD 0), tok := ((o.map Op.tok).getD 0), engine := .tbe }

/-! ### Bins (R374-R377) -/

/-- The timer of a bin: cycles of its core since the arrival of its oldest record (R376). -/
def State.binTimer (s : State) (core b : Nat) : Nat :=
  match (s.bin core b).recs with
  | [] => 0
  | r :: _ => ((s.core core).cyc - r.cyc).toNat

/-- The fields of a bin word. -/
def binOf (launch : Nat) (base word : Nat) : Bin where
  st := .idle
  owner := launch
  entry := BitVec.ofNat 57 base
  wait := BitVec.ofNat 32 (bitsNat word 63 32)
  csm := bitsNat word 23 16 * 4096
  regs := (bitsNat word 12 8 + 1) * 8

/-- Whether a bin of a core cannot be configured for an entry of a launch: it is not FREE, or another bin holds the entry. -/
def State.binTaken (s : State) (core launch b base : Nat) : Bool :=
  (s.bin core b).st != .free || (s.core core).bins.any fun x => x.st != .free && x.owner == launch && x.entry.toNat == base

/-- Whether an EN = 1 is refused (R374). -/
def Issue.binRefused (I : Issue) (b base word : Nat) : Bool :=
  bitsNat word 31 24 != 0 || bitsNat word 15 13 != 0 || bitsNat word 7 1 != 0 || 128 < bitsNat word 23 16 ||
  2 ^ 57 ≤ base || I.s.binTaken I.core I.crew.launch b base

/-- EN = 0 reaches a bin (R377); `req` numbers the request that a HOLDING bin makes. -/
def Bin.release (b : Bin) (req : Nat) : Bin :=
  match b.st with
  | .idle => {}
  | .holding => { b with st := .draining, req := req }
  | .forming => { b with st := .draining }
  | _ => b

/-- A bin word is applied; a bin that another operation has taken since the issue stays as it is (DEDUCED, log 33). -/
def State.applyBin (s : State) (core launch b base word : Nat) : State :=
  if (s.bin core b).foreign launch then s
  else if bitNat word 0 then (if s.binTaken core launch b base then s else s.setBin core b fun _ => binOf launch base word)
  else { (s.setBin core b fun x => x.release s.nextId) with nextId := s.nextId + 1 }

/-- The entry address whose bin an accepted BINCFG names. -/
def State.entryOf (s : State) (core b base word : Nat) : Nat := if bitNat word 0 then base else (s.bin core b).entry.toNat

/-- Whether an operation is a BINCFG of a bin. -/
def Op.setsBin (o : Op) (core b : Nat) : Bool :=
  (match o.instr with | .bincfg _ => true | _ => false) && o.core == core && o.arg 0 == b

/-- Whether an operation numbered below `seq` has still to be applied to the bin of an entry at a core (R372): a SPAWN with a
record for it, or a BINCFG. -/
def State.binBusy (s : State) (seq core launch entry : Nat) : Bool :=
  s.ops.any fun p =>
    p.id < seq && p.launch == launch &&
    match p.instr with
    | .spawn _ => p.targets == [core] && p.acc.any fun a => !a.done && a.addr.toNat == entry
    | .bincfg _ => p.core == core && s.entryOf core (p.arg 0) (p.arg 1) (p.arg 2) == entry
    | _ => false

/-- Whether a BINCFG with number `seq` must wait for operations accepted before it. -/
def State.binWaits (s : State) (seq core launch b base word : Nat) : Bool :=
  s.binBusy seq core launch (s.entryOf core b base word) || s.ops.any fun p => p.id < seq && p.setsBin core b

/-- BINCFG: checked at issue, and applied at once unless operations accepted earlier for its bin have still to be (R372). -/
def execBincfg (f : Fields) (s : State) : Host.Outcome State Fault Refusal :=
  withIssue (.bincfg f) s fun I =>
    let b := immNo f.a
    let base := I.read I.low f.b 64
    let word := I.read I.low f.c 64
    if (I.s.bin I.core b).foreign I.crew.launch || (bitNat word 0 && I.binRefused b base word) then I.trapAct 0x0B
    else if I.s.binWaits I.s.nextId I.core I.crew.launch b base word then
      I.acceptOp { I.newOp .absent .absent with args := [BitVec.ofNat 64 b, BitVec.ofNat 64 base, BitVec.ofNat 64 word] }
    else I.done.applyBin I.core I.crew.launch b base word

/-- A BINCFG that waited is applied, once its turn has come. -/
def State.runBincfg (s : State) (o : Op) : State :=
  if s.binWaits o.id o.core o.launch (o.arg 0) (o.arg 1) (o.arg 2) then s
  else (s.applyBin o.core o.launch (o.arg 0) (o.arg 1) (o.arg 2)).dropOp o.id

/-- Whether a bin takes a record of a launch for an entry. -/
def Bin.takes (b : Bin) (launch : Nat) (entry : VAddr) : Bool :=
  b.owner == launch && b.entry == entry && b.recs.length < 256 && (b.st == .idle || b.st == .holding || b.st == .forming)

/-- A record arrives at a bin that takes it (R377). -/
def Bin.arrive (b : Bin) (r : SpawnRec) (req : Nat) : Bin :=
  let recs := b.recs ++ [r]
  if b.st ≠ .forming ∧ 32 ≤ recs.length then { b with recs := recs, st := .forming, req := req }
  else { b with recs := recs, st := if b.st = .idle then .holding else b.st }

/-- A record reaches its bin at a core; none when no bin takes it (R375). -/
def State.deposit (s : State) (core launch : Nat) (entry : VAddr) (data : QWord) : Option State :=
  (indexOf (fun (b : Bin) => b.takes launch entry) (s.core core).bins).map fun i =>
    { (s.setBin core i fun b => b.arrive ⟨entry, data, (s.core core).cyc⟩ s.nextId) with nextId := s.nextId + 1 }

/-- Whether a core holds a crew or a bin of a launch, which SPAWN asks of its target (01 R27). -/
def State.holdsLaunch (s : State) (core launch : Nat) : Bool :=
  (s.crews.any fun c => c.core == core && c.launch == launch) ||
  ((s.core core).bins.any fun b => b.st != .free && b.owner == launch)

/-- SPAWN: the place, then the operands and the address of each lane (R375; 07 R230). -/
def execSpawn (f : Fields) (s : State) : Host.Outcome State Fault Refusal :=
  withIssue (.spawn f) s fun I =>
    let p := placeBits f.b
    let target := (coreAt I.core (placeXY p).1 (placeXY p).2).bind fun c => if I.s.holdsLaunch c I.crew.launch then some c else none
    match target with
    | none => I.holdFor (I.lanes.map fun l => (l, I.trapHere 0x0A (p % 256)))
    | some core =>
      match I.gather fun l =>
          match I.indirectOut l with
          | some t => .error t
          | none =>
            let va := I.read l f.a 64
            if 2 ^ 57 ≤ va then .error (I.trapHere 0x0C va)
            else .ok { lane := l, addr := BitVec.ofNat 64 va, data := BitVec.ofNat 128 (I.read l f.d 128) } with
      | .error ts => I.holdFor ts
      | .ok acc => I.acceptOp { I.newOp f.c f.e with acc := acc, targets := [core] }

/-- Whether an operation is a SPAWN. -/
def isSpawn : Instr → Bool
  | .spawn _ => true
  | _ => false

/-- Whether a SPAWN accepted earlier has still to send a record to the same bin, or a BINCFG to be applied to it (R372). -/
def State.earlierSpawn (s : State) (o : Op) (a : LaneAcc) : Bool := s.binBusy o.id (o.targets.headD 0) o.launch a.addr.toNat

/-- The lanes of an operation that failed. -/
def Op.failedLanes (o : Op) : Mask := maskOf ((o.acc.filter fun a => a.fail.isSome).map LaneAcc.lane)

/-- An operation whose lanes are all done settles: its failed lanes are logged, and the lowest gives the cause. -/
def State.endTbe (s : State) (id : Nat) : State :=
  match s.op? id with
  | none => s
  | some o =>
    if !(o.acc.all LaneAcc.done) then s
    else
      match o.acc.findSome? LaneAcc.fail with
      | none => s.finish id
      | some (c, g) => (s.logErr 3 10 g 0 o.launch (o.failedLanes.setWidth 64)).settle id (.poisoned c g)

/-- A form of a recompute crew that R413 refuses: its threads stop and it settles POISONED with cause 8. -/
def State.refuseRecompute (s : State) (o : Op) (die : Nat) : State :=
  (s.stopRecompute o.crew).settle o.id (.poisoned 8 (mkOrigin .rce die o.core 0))

/-- One record of a SPAWN reaches its target core. -/
def State.spawnArrive (s : State) (o : Op) (a : LaneAcc) : State :=
  match s.recomputeOf (some o.crew) with
  | some (d, _) => s.refuseRecompute o d
  | none =>
    let core := o.targets.headD 0
    let s :=
      match s.deposit core o.launch (BitVec.ofNat 57 a.addr.toNat) a.data with
      | some t => t.setLane o.id a.lane fun b => { b with done := true }
      | none => s.setLane o.id a.lane fun b => b.failed 12 (mkOrigin .tbe (dieOfCore core) core o.tok)
    s.endTbe o.id

/-! ### Work queues (R380-R383) -/

/-- The queue that a queue word and a base describe. -/
def queueOfWord (launch core base word : Nat) : WorkQueue where
  en := true
  owner := launch
  base := BitVec.ofNat 57 base
  logcap := bitsNat word 4 0
  bin := bitsNat word 11 8
  core := core
  low := bitsNat word 23 16

/-- Whether a configuration rebinds an entry (R383). -/
def WorkQueue.rebinds (q : WorkQueue) (launch base word : Nat) : Bool :=
  q.en && q.owner == launch && q.base.toNat == base && q.logcap == bitsNat word 4 0

/-- Whether an EN = 1 is refused (R380). -/
def Issue.queueRefused (I : Issue) (q : WorkQueue) (base word : Nat) : Bool :=
  let b := I.s.bin I.core (bitsNat word 11 8)
  bitsNat word 63 33 != 0 || bitsNat word 31 24 != 0 || bitsNat word 15 12 != 0 || bitsNat word 7 5 != 0 ||
  20 < bitsNat word 4 0 || baseBad base 16 || (q.en && !q.rebinds I.crew.launch base word) ||
  !(b.owner == I.crew.launch && (b.st == .idle || b.st == .holding))

/-- Whether an operation is a push to a queue of a die. -/
def Op.pushes (o : Op) (die q : Nat) : Bool :=
  (match o.instr with | .wqpush _ => true | _ => false) && dieOfCore o.core == die && o.arg 0 == q

/-- The pushes in flight to a queue fail with cause 12 (R380). -/
def State.failPushes (s : State) (die q : Nat) : State :=
  (s.ops.filter fun o => o.pushes die q && o.prog == 1).foldl (fun s o =>
    (s.setOp o.id fun o =>
      { o with wait := .none, acc := o.acc.map fun a => if a.done then a else a.failed 12 o.origin }).endTbe o.id) s

/-- A queue word is applied: a fresh entry, a rebinding, or the release of the entry; an entry that another operation has taken
since the issue stays as it is (DEDUCED, log 33). -/
def State.applyQueue (s : State) (core launch n base word : Nat) : State :=
  let die := dieOfCore core
  let q := s.queue die n
  if q.foreign launch then s
  else if !bitNat word 32 then (s.failPushes die n).setQueue die n fun _ => {}
  else if !q.en then s.setQueue die n fun _ => queueOfWord launch core base word
  else if q.rebinds launch base word then
    s.setQueue die n fun q => { q with bin := bitsNat word 11 8, core := core, low := bitsNat word 23 16 }
  else s

/-- Whether an operation is a WQCFG of a queue of a die. -/
def Op.setsQueue (o : Op) (die q : Nat) : Bool :=
  (match o.instr with | .wqcfg _ => true | _ => false) && dieOfCore o.core == die && o.arg 0 == q

/-- Whether an operation numbered below `seq` has still to be applied to a queue of a die (R372). -/
def State.queueBusy (s : State) (seq die q : Nat) : Bool :=
  s.ops.any fun p => p.id < seq && ((p.pushes die q && p.prog == 0) || p.setsQueue die q)

/-- WQCFG: checked at issue, and applied at once unless operations accepted earlier for its queue have still to be (R372). -/
def execWqcfg (f : Fields) (s : State) : Host.Outcome State Fault Refusal :=
  withIssue (.wqcfg f) s fun I =>
    let n := immNo f.a
    let base := I.read I.low f.b 64
    let word := I.read I.low f.c 64
    let q := I.s.queue I.die n
    if q.foreign I.crew.launch || (bitNat word 32 && I.queueRefused q base word) then I.trapAct 0x0B
    else if I.s.queueBusy I.s.nextId I.die n then
      I.acceptOp { I.newOp .absent .absent with args := [BitVec.ofNat 64 n, BitVec.ofNat 64 base, BitVec.ofNat 64 word] }
    else I.done.applyQueue I.core I.crew.launch n base word

/-- A WQCFG that waited is applied, once its turn has come. -/
def State.runWqcfg (s : State) (o : Op) : State :=
  if s.queueBusy o.id (dieOfCore o.core) (o.arg 0) then s
  else (s.applyQueue o.core o.launch (o.arg 0) (o.arg 1) (o.arg 2)).dropOp o.id

/-- WQPUSH: Register Range of a lane comes before what is wrong with the queue (02 R79). -/
def execWqpush (f : Fields) (s : State) : Host.Outcome State Fault Refusal :=
  withIssue (.wqpush f) s fun I =>
    match I.gather fun l =>
        match I.indirectOut l with
        | some t => .error t
        | none => .ok { lane := l, data := BitVec.ofNat 128 (I.read l f.d 128) } with
    | .error ts => I.holdFor ts
    | .ok acc =>
      match I.tableNo f.a with
      | none => I.trapAct 0x0B
      | some n =>
        if (I.s.queue I.die n).foreign I.crew.launch then I.trapAct 0x0B
        else I.acceptOp { I.newOp f.c f.e with acc := acc, args := [BitVec.ofNat 64 n] }

/-- CAP. -/
def WorkQueue.cap (q : WorkQueue) : Nat := 2 ^ q.logcap
/-- The address of the item with an index. -/
def WorkQueue.item (q : WorkQueue) (i : Nat) : Nat := q.base.toNat + 16 * (i % q.cap)
/-- RSV − HEAD. -/
def WorkQueue.count (q : WorkQueue) : Nat := (q.rsv - q.head).toNat

/-- One lane takes an index, or fails (R381). -/
def State.reserveLane (s : State) (o : Op) (a : LaneAcc) : State :=
  let die := dieOfCore o.core
  let q := s.queue die (o.arg 0)
  if !q.en || q.owner != o.launch || q.count == q.cap then s.setLane o.id a.lane fun b => b.failed 12 o.origin
  else
    let i := q.rsv.toNat
    (s.setQueue die (o.arg 0) fun q => { q with rsv := q.rsv + 1, ready := q.ready ++ [(i, false, false)] }).setLane o.id
      a.lane fun b => { b with queued := true, off := i }

/-- An index becomes ready; `lost` when its item was not written. -/
def WorkQueue.setReady (q : WorkQueue) (i : Nat) (lost : Bool) : WorkQueue :=
  { q with ready := q.ready.map fun r => if r.1 = i then (i, true, lost) else r }

/-- The items of the lanes that took an index are written, in order, until one has to wait; a failed write is not retried
and loses its item. -/
def State.writeItems : List LaneAcc → State → Op → State
  | [], s, _ => s
  | a :: rest, s, o =>
    if a.done then State.writeItems rest s o
    else
      let die := dieOfCore o.core
      let q := s.queue die (o.arg 0)
      let w := s.tbeWho die o.launch (some o)
      let lose (s : State) : State :=
        (((s.logErr 2 7 o.origin (BitVec.ofNat 64 (q.item a.off)) o.launch 0).setQueue die (o.arg 0) fun q =>
          q.setReady a.off true)).setLane o.id a.lane fun b => b.failed 2 o.origin
      match s.reach w (q.item a.off) 16 true { w := true } with
      | (s, .ok ps) =>
        let s := (s.writeParts ps (leBytes 16 a.data.toNat)).setQueue die (o.arg 0) fun q => q.setReady a.off false
        State.writeItems rest (s.setLane o.id a.lane fun b => { b with done := true }) o
      | (s, .error g) =>
        match g with
        | .park _ _ | .recall _ _ | .later => s.stopOp o.id w accWrite false g
        | .fault va k l e =>
          let s := (s.fault { die, asid := w.asid, va, core := w.core, wslot := w.wslot, tok := w.tok, access := accWrite, engine := .tbe } k l e none).1
          State.writeItems rest (lose s) o
        | _ => State.writeItems rest (lose s) o

/-- A push goes on (R381): its lanes take their indices, then write their items. -/
def State.runPush (s : State) (o : Op) : State :=
  match s.recomputeOf (some o.crew) with
  | some (d, _) => s.refuseRecompute o d
  | none =>
    let s :=
      match o.fail with
      | some (c, g) =>
        (o.acc.filter fun (a : LaneAcc) => !a.done).foldl (fun (s : State) (a : LaneAcc) =>
          (s.setQueue (dieOfCore o.core) (o.arg 0) fun q => if a.queued then q.setReady a.off true else q).setLane o.id a.lane
            fun b => b.failed c g) s
      | none =>
        let s :=
          if o.prog = 1 then s
          else (o.acc.foldl (fun (s : State) (a : LaneAcc) => s.reserveLane o a) s).setOp o.id fun o => { o with prog := 1, queued := false }
        match s.op? o.id with
        | some p => State.writeItems p.acc s p
        | none => s
    s.endTbe o.id

/-- Whether a push accepted earlier to the same queue has not taken its indices, or a WQCFG has not been applied (R372). -/
def State.earlierPush (s : State) (o : Op) : Bool := s.queueBusy o.id (dieOfCore o.core) (o.arg 0)

/-- The write of the item of one lane is lost: its index becomes ready with the item flagged lost (R381). -/
def State.loseItem (s : State) (o : Op) (lane : Nat) : State :=
  if !s.mayPerform o || (o.prog != 1 && s.earlierPush o) then s
  else
    let s :=
      if o.prog = 1 then s
      else (o.acc.foldl (fun (s : State) (a : LaneAcc) => s.reserveLane o a) s).setOp o.id fun o => { o with prog := 1, queued := false }
    match (s.op? o.id).bind fun o => o.acc.find? fun a => a.lane == lane && a.queued && !a.done with
    | some a =>
      (s.setQueue (dieOfCore o.core) (o.arg 0) fun q => q.setReady a.off true).setLane o.id lane fun b => b.failed 2 o.origin
    | none => s

/-- The read of an item that waits for its tile or for a recall: an operation of the queue itself. -/
def State.refillOp? (s : State) (die q : Nat) : Option Op := s.ops.find? fun o => o.instr == .queueRefill die q

/-- Index HEAD is passed. -/
def WorkQueue.pass (q : WorkQueue) : WorkQueue := { q with head := q.head + 1, ready := q.ready.filter fun r => r.1 != q.head.toNat }

/-- Whether a refill takes the item at HEAD, and whether that item is flagged lost (R382). -/
def State.refillDue (s : State) (die n : Nat) : Option Bool :=
  let q := s.queue die n
  let b := s.bin q.core q.bin
  match q.ready.find? fun r => r.1 == q.head.toNat with
  | some (_, true, lost) =>
    if q.en && q.count != 0 && b.recs.length < q.low && b.owner == q.owner && (b.st == .idle || b.st == .holding) then some lost
    else none
  | _ => none

/-- The item at HEAD is skipped: its index enters the log (R382). -/
def State.skipItem (s : State) (die n : Nat) : State :=
  let q := s.queue die n
  (s.logErr 3 10 (dieOrigin .tbe die 0) (BitVec.ofNat 64 q.head.toNat) q.owner 0).setQueue die n WorkQueue.pass

/-- The read of the item at HEAD waits for its tile or for a recall. -/
def State.refillWaits (s : State) (die n : Nat) (g : Gate) : State :=
  let q := s.queue die n
  let o : Op :=
    { id := s.nextId, crew := 0, warp := 0, core := 96 * die, slot := 0, launch := q.owner, instr := .queueRefill die n
      lanes := 0, tok := 0, keys := [], started := true, queued := false, orphan := true }
  let s : State := { s with nextId := s.nextId + 1, ops := s.ops ++ [o] }
  s.stopOp o.id (s.tbeWho die q.owner none) accRead false g

/-- One item of a refill; none when the refill stops (R382). `failed` tells that its read has failed. -/
def State.refillOne (s : State) (die n : Nat) (failed : Bool) : Option State :=
  let q := s.queue die n
  match s.refillDue die n with
  | none => none
  | some lost =>
    if lost || failed then some (s.skipItem die n)
    else
      let w := s.tbeWho die q.owner none
      match s.reach w (q.item q.head.toNat) 16 false { r := true } with
      | (s, .ok ps) =>
        let s := s.setQueue die n WorkQueue.pass
        some ((s.deposit q.core q.owner (s.bin q.core q.bin).entry (BitVec.ofNat 128 (leNat (s.readParts ps)))).getD s)
      | (s, .error g) =>
        match g with
        | .park _ _ | .recall _ _ => some (s.refillWaits die n g)
        | .later => none
        | .fault va k l e => some ((s.fault { die, asid := w.asid, va, access := accRead, engine := .tbe } k l e none).1.skipItem die n)
        | _ => some (s.skipItem die n)

/-- The read of the item at HEAD fails: its retry is logged and counted, and a lasting failure skips the item (R382;
01 R43, R44). -/
def State.retryItem (s : State) (die n : Nat) (lasting : Bool) : State :=
  let q := s.queue die n
  let addr : DWord := BitVec.ofNat 64 (q.item q.head.toNat)
  let waits := (s.refillOp? die n).any fun o => o.wait != .none || o.fail.isSome
  if s.refillDue die n != some false || waits then s
  else if lasting then
    let s := match s.refillOp? die n with | some o => s.dropOp o.id | none => s
    (s.logErr 2 2 (dieOrigin .tbe die 0) addr q.owner 0).skipItem die n
  else (s.setDie die fun d => { d with hmevt := d.hmevt + 1 }).logErr 1 2 (dieOrigin .tbe die 0) addr q.owner 0

/-- A refill act: at most 32 items. -/
def State.refillLoop : Nat → State → Nat → Nat → State
  | 0, s, _, _ => s
  | fuel + 1, s, die, n =>
    if (s.refillOp? die n).isSome then s
    else
      match s.refillOne die n false with
      | some t => State.refillLoop fuel t die n
      | none => s

/-- Refill of a queue. -/
def State.refill (s : State) (die n : Nat) : State :=
  match s.refillOp? die n with
  | some o =>
    if o.wait ≠ .none ∨ !s.inTurn o then s
    else if o.fail.isSome then
      let s := s.dropOp o.id
      State.refillLoop 31 ((s.refillOne die n true).getD s) die n
    else State.refillLoop 32 (s.dropOp o.id) die n
  | none => State.refillLoop 32 s die n

/-! ### Streams (R384, R385, R390) -/

/-- Whether any task of a stream is in the dependence table. -/
def State.hasTasks (s : State) (die n : Nat) : Bool := (s.die die).tasks.any fun t => t.stream == n

/-- Whether an open is refused (R384). -/
def streamRefused (t : Stream) (base word : Nat) : Bool :=
  bitsNat word 63 33 != 0 || bitsNat word 31 21 != 0 || bitsNat word 20 0 == 0 || 2 ^ 20 < bitsNat word 20 0 ||
  baseBad base 4096 || t.used

/-- TSTREAM: a close is pending until the recipes of the stream are retired, which follows every act. -/
def execTstream (f : Fields) (s : State) : Host.Outcome State Fault Refusal :=
  withIssue (.tstream f) s fun I =>
    let n := immNo f.a
    let base := I.read I.low f.b 64
    let word := I.read I.low f.c 64
    let t := I.s.stream I.die n
    if t.foreign I.crew.launch then I.trapAct 0x0B
    else if bitNat word 32 then
      if streamRefused t base word then I.trapAct 0x0B
      else
        I.done.setStream I.die n fun _ =>
          { used := true, owner := I.crew.launch, base := BitVec.ofNat 57 base, tiles := bitsNat word 20 0 }
    else if I.s.hasTasks I.die n then I.trapAct 0x0B
    else I.done.setStream I.die n fun t => if t.used then { t with closing := true } else t

/-- Whether a stream is open. -/
def Stream.isOpen (t : Stream) : Bool := t.used && !t.closing

/-- TSUBMIT. -/
def execTsubmit (f : Fields) (s : State) : Host.Outcome State Fault Refusal :=
  withIssue (.tsubmit f) s fun I =>
    match I.tableNo f.d with
    | none => I.trapAct 0x0B
    | some n =>
      if (I.s.stream I.die n).foreign I.crew.launch then I.trapAct 0x0B
      else I.acceptOp { I.newOp f.c f.e with args := [BitVec.ofNat 64 n, BitVec.ofNat 64 (I.read I.low f.a 64)] }

/-- Whether an operation is one of a stream of a die that has not been applied (R372, R384). -/
def Op.onStream (o : Op) (die n : Nat) : Bool :=
  (match o.instr with | .tsubmit _ | .trelease _ => true | _ => false) && dieOfCore o.core == die && o.arg 0 == n && o.prog == 0

/-- The operation that is next on a stream. -/
def State.streamHead (s : State) (die n : Nat) : Option Op := s.ops.find? fun o => o.onStream die n

/-- A handle leaves the map of an open stream (R390). -/
def State.releaseHandle (s : State) (die n handle launch : Nat) : State :=
  s.setStream die n fun t =>
    if t.isOpen && t.owner == launch then
      { t with versions := updWhere (fun v => v.current && v.handle.toNat == handle) (fun v => { v with current := false }) t.versions }
    else t

/-- TRELEASE: applied at once when nothing accepted earlier is waiting on its stream, otherwise in the stream's order. -/
def execTrelease (f : Fields) (s : State) : Host.Outcome State Fault Refusal :=
  withIssue (.trelease f) s fun I =>
    let n := immNo f.a
    let h := I.read I.low f.b 64 % 2 ^ 32
    if (I.s.stream I.die n).foreign I.crew.launch then I.trapAct 0x0B
    else if (I.s.streamHead I.die n).isNone then I.done.releaseHandle I.die n h I.crew.launch
    else I.acceptOp { I.newOp .absent .absent with args := [BitVec.ofNat 64 n, BitVec.ofNat 64 h] }

/-- A TRELEASE that waited is applied. -/
def State.runRelease (s : State) (o : Op) : State :=
  ((s.releaseHandle (dieOfCore o.core) (o.arg 0) (o.arg 1) o.launch).dropOp o.id)

/-! ### The pool of a stream (R388, R389) -/

/-- Whether a run of tiles is free. -/
def runFree (vs : List Version) (tiles t len : Nat) : Bool :=
  t + len ≤ tiles && vs.all fun v => t + len ≤ v.tile || v.tile + v.len ≤ t

/-- The lowest-numbered first tile of a free run. -/
def firstFit (vs : List Version) (tiles len : Nat) : Option Nat :=
  minNat ((0 :: vs.map fun v => v.tile + v.len).filter fun t => runFree vs tiles t len)

/-- Free tiles of a stream. -/
def Stream.freeTiles (t : Stream) : Nat := t.tiles - (t.versions.map Version.len).foldl (· + ·) 0

/-- The longest free run of a stream. -/
def Stream.longestRun (t : Stream) : Nat :=
  ((0 :: t.versions.map fun v => v.tile + v.len).map fun a =>
    if t.versions.any fun v => v.tile ≤ a && a < v.tile + v.len then 0
    else ((minNat ((t.versions.filter fun v => a ≤ v.tile).map Version.tile)).getD t.tiles) - a).foldl max 0

/-! ### Submissions (R386-R388) -/

/-- Word n of a descriptor. -/
def descWord (d : List DWord) (n : Nat) : Nat := (d.getD n 0).toNat
/-- NR. -/
def descNR (d : List DWord) : Nat := bitsNat (descWord d 1) 50 48
/-- NW. -/
def descNW (d : List DWord) : Nat := bitsNat (descWord d 1) 52 51
/-- HANDLE and LEN of range word n. -/
def descRange (d : List DWord) (n : Nat) : Nat × Nat := (descWord d (4 + n) % 2 ^ 32, bitsNat (descWord d (4 + n)) 47 32)
/-- The read ranges, in order. -/
def readRanges (d : List DWord) : List (Nat × Nat) := (List.range (descNR d)).map fun n => descRange d n
/-- The write ranges, in order. -/
def writeRanges (d : List DWord) : List (Nat × Nat) := (List.range (descNW d)).map fun n => descRange d (descNR d + n)

/-- Whether the fields of a descriptor are well formed and its crew fits one core (R386, R387). -/
def descOk (d : List DWord) : Bool :=
  let w := descWord d 1
  descWord d 0 < 2 ^ 57 && w < 2 ^ 55 && !bitNat w 31 && !bitNat w 15 && descNW d ≤ 2 && descNR d ≤ 4 &&
  bitsNat w 47 42 ≤ 32 && bitsNat w 41 37 ≤ 16 && bitsNat w 36 32 ≤ 16 && bitsNat w 30 24 ≤ 64 && bitsNat w 23 16 ≤ 128 &&
  ((List.range 6).all fun n =>
    let x := descWord d (4 + n)
    if n < descNR d + descNW d then x < 2 ^ 48 && 1 ≤ bitsNat x 47 32 && bitsNat x 47 32 ≤ 4096 else x == 0) &&
  ((List.range 6).all fun n => descWord d (10 + n) == 0) && (descNeeds w).within coreNeeds

/-- The current version of a handle. -/
def Stream.current (t : Stream) (h : Nat) : Option Version := t.versions.find? fun v => v.current && v.handle.toNat == h

/-- Tiles for the write ranges in order, each after the earlier ones are placed; none when one has no room. -/
def placeWrites (vs : List Version) (tiles : Nat) : List (Nat × Nat) → Option (List Nat)
  | [] => some []
  | (h, n) :: rest =>
    (firstFit vs tiles n).bind fun t =>
      let v : Version := { id := 0, tile := t, len := n, handle := BitVec.ofNat 32 h, current := false, writer := none, poison := none }
      (placeWrites (v :: vs) tiles rest).map (t :: ·)

/-- Whether the ranges of a descriptor match the stream (R387). -/
def Stream.rangesOk (t : Stream) (d : List DWord) : Bool :=
  let rs := readRanges d
  let ws := writeRanges d
  let same (r : Nat × Nat) : Bool := match t.current r.1 with | some v => v.len == r.2 | none => false
  (rs.all same) && (ws.map Prod.fst).Nodup && (ws.all fun r => (t.current r.1).isNone || same r) &&
  (t.versions.filter Version.current).length + (ws.filter fun r => (t.current r.1).isNone).length ≤ 1024 &&
  (placeWrites t.versions t.tiles ws).isSome

/-- The poison of a task that would keep it from running: the lowest range, then the keyring (R393). -/
def State.taskPoison (s : State) (die : Nat) (t : Task) : Option Word :=
  let vs := (s.stream die t.stream).versions
  match t.reads.findSome? fun id => (vs.find? fun v => v.id == id).bind fun v => v.poison with
  | some (_, g) => some g
  | none => (firstPoison t.keys).map fun p => p.2.2

/-- Whether a task is clear (R391). -/
def State.taskClear (s : State) (die : Nat) (t : Task) : Bool :=
  t.deps.isEmpty && allSettled t.keys && (s.taskPoison die t).isNone

/-- A WAITING task that is clear becomes READY. -/
def State.wakeTasks (s : State) (die : Nat) : State :=
  s.setDie die fun d =>
    { d with tasks := d.tasks.map fun t => if t.st = .waiting ∧ s.taskClear die t then { t with st := .ready } else t }

/-- The bytes of a new version's tiles are undefined until its writer writes them (R388). -/
def State.undefineTiles (s : State) (asid : Nat) (base : VAddr) (tile len : Nat) : State :=
  (List.range len).foldl (fun s i =>
    match s.walk asid (base.toNat + 4096 * (tile + i)) with
    | .ok t => s.undefineFrame (t.pa (base.toNat + 4096 * (tile + i)) / 4096)
    | _ => s) s

/-- A submission enters the dependence table: its reads are matched and its writes renamed (R388). -/
def State.enterTask (s : State) (o : Op) (die n : Nat) (d : List DWord) : State :=
  let t := s.stream die n
  let rs := (readRanges d).filterMap fun r => t.current r.1
  let ws := writeRanges d
  let places := (placeWrites t.versions t.tiles ws).getD []
  let entry := ((List.range 4096).find? fun k => !(s.die die).tasks.any fun x => x.entry == k).getD 0
  let seq := s.nextId
  let news : List Version := (ws.zip places).mapIdx fun k p =>
    { id := seq + 1 + k, tile := p.2, len := p.1.2, handle := BitVec.ofNat 32 p.1.1, current := true, writer := some seq, poison := none }
  let olds := updWhere (fun (v : Version) => ws.any fun r => v.handle.toNat == r.1) (fun v => { v with current := false }) t.versions
  let task : Task :=
    { entry, seq, stream := n, launch := o.launch, desc := d, st := .waiting, op := o.id, keys := o.keys
      reads := rs.map Version.id, writes := news.map Version.id
      deps := (rs.filter fun v => v.writer.isSome).map Version.id, nbv := o.nbv }
  let s := news.foldl (fun s v => s.undefineTiles (((s.launch? o.launch).map Launch.asid).getD 0) t.base v.tile v.len) s
  let s : State := { s with nextId := seq + 1 + news.length }
  let s := s.setStream die n fun t => { t with versions := olds ++ news }
  let s := s.setDie die fun x => { x with tasks := x.tasks ++ [task] }
  (s.setOp o.id fun o => { o with prog := 1, wait := .task, queued := false }).wakeTasks die

/-- A submission at the head of its stream is processed (R387). -/
def State.submit (s : State) (o : Op) (die n : Nat) : State :=
  let a := o.arg 1
  let s := s.setOp o.id fun o => { o with queued := false }
  match o.fail, s.recomputeOf (some o.crew) with
  | some (c, g), _ => s.settle o.id (.poisoned c g)
  | none, some (d, _) => s.refuseRecompute o d
  | none, none =>
    if a % 128 ≠ 0 then s.poisonOp o.id 15
    else if 2 ^ 57 ≤ a then s.poisonOp o.id 3
    else
      let w := s.tbeWho die o.launch (some o)
      match s.reach w a 128 false { r := true } with
      | (s, .error g) =>
        let s := s.stopOp o.id w accRead false g
        match (s.op? o.id).bind Op.fail with
        | some (c, g) => s.settle o.id (.poisoned c g)
        | none => s
      | (s, .ok ps) =>
        let bs := s.readParts ps
        let d := (List.range 16).map fun k => BitVec.ofNat 64 (leNat ((bs.drop (8 * k)).take 8))
        let t := s.stream die n
        if !(t.isOpen && t.owner == o.launch && descOk d && t.rangesOk d) then s.poisonOp o.id 12
        else if 4096 ≤ (s.die die).tasks.length then s
        else s.enterTask o die n d

/-! ### TASKINFO (R395) -/

/-- The record of a selector; none where the argument is out of range. -/
def Issue.taskRecord (I : Issue) (sel b : Nat) : Option Nat :=
  let own := I.crew.launch
  match sel with
  | 0 => some I.crew.taskid.toNat
  | 1 =>
    let t := I.s.stream I.die b
    if 64 ≤ b then none
    else if !t.used || t.owner != own then some 0
    else
      some (b2n t.isOpen * 2 ^ 63 + ((I.s.die I.die).tasks.filter fun k => k.stream == b).length % 2 ^ 13 * 2 ^ 50 +
        t.longestRun * 2 ^ 21 + t.freeTiles)
  | 2 =>
    let q := I.s.queue I.die b
    if 64 ≤ b then none
    else if !q.en || q.owner != own then some 0
    else some (2 ^ 63 + q.count % 2 ^ 21 * 2 ^ 32 + q.rsv.toNat % 2 ^ 32)
  | _ =>
    let x := I.s.bin I.core b
    if 16 ≤ b then none
    else if x.st = .free ∨ x.owner ≠ own then some 0
    else
      let st := match x.st with | .free => 0 | .idle => 1 | .holding => 2 | .forming => 3 | .draining => 4
      some (2 ^ 63 + st * 2 ^ 56 + x.recs.length % 2 ^ 9 * 2 ^ 32 + min (I.s.binTimer I.core b) (2 ^ 32 - 1))

/-- TASKINFO. -/
def execTaskinfo (f : Fields) (s : State) : Host.Outcome State Fault Refusal :=
  withIssue (.taskinfo f) s fun I =>
    I.perLane fun l =>
      match I.taskRecord (immNo f.a) (I.read l f.b 64) with
      | some x => .ok [.reg f.d 64 x]
      | none => .trap (I.trapHere 0x0B)

/-! ### Holds of the scoreboard (R384) -/

/-- Whether a TSTREAM may issue: everything accepted earlier for its stream has been applied (R384). -/
def Issue.tbeFits (I : Issue) : Bool :=
  match I.i with
  | .tstream f => (I.s.streamHead I.die (immNo f.a)).isNone
  | _ => true

/-! ### Events -/

/-- SPAWN_RECORD_ARRIVAL (R375, R376). -/
def execSpawnRecordArrival (op lane : Nat) (s : State) : Host.Outcome State Fault Refusal :=
  .next <|
    match s.op? op with
    | none => s
    | some o =>
      match o.acc.find? fun a => !a.done with
      | none => s
      | some a =>
        if isSpawn o.instr && o.started && a.lane == lane && s.mayPerform o && !s.earlierSpawn o a then s.spawnArrive o a else s

/-- BIN_TIMER_EXPIRY (R377). -/
def execBinTimerExpiry (core bin : Nat) (s : State) : Host.Outcome State Fault Refusal :=
  .next <|
    let b := s.bin core bin
    if b.st = .holding ∧ b.wait ≠ 0 ∧ b.wait.toNat ≤ s.binTimer core bin then
      { (s.setBin core bin fun b => { b with st := .forming, req := s.nextId }) with nextId := s.nextId + 1 }
    else s

/-- QUEUE_REFILL (R382). -/
def execQueueRefill (die queue : Nat) (s : State) : Host.Outcome State Fault Refusal := .next (s.refill die queue)

/-- TASK_ENTRY (R387): the head submission of a stream, once the accesses that its release covers have performed. -/
def execTaskEntry (die stream : Nat) (s : State) : Host.Outcome State Fault Refusal :=
  .next <|
    match s.streamHead die stream with
    | some o =>
      match o.instr with
      | .tsubmit _ => if o.wait = .none ∧ s.mayPerform o then s.onTurn o fun s => s.submit o die stream else s
      | _ => s
    | none => s

end Sys2Proof.Machine
end

