-- ==== Sys2Proof/Machine/Rce.lean ====
section
/-! DEFINITION. The recipe engine (14 R398-R424) and what it does when a task completes (13 R391-R393): making a recipe,
recomputes, evictions, the five forms, and the acts that follow every step. -/

namespace Sys2Proof.Machine

/-! ### Tiles of versions (R398, R399) -/

/-- The physical frame of a pool tile and whether its page is recomputable; none where nothing is mapped. -/
def State.tilePage (s : State) (asid : Nat) (base : VAddr) (tile : Nat) : Option (Nat × Bool) :=
  match s.walk asid (base.toNat + 4096 * tile) with
  | .ok t =>
    let pa := t.pa (base.toNat + 4096 * tile)
    ((placeOf pa).key).map fun _ => (pa / 4096, entRcmp t.leaf.toNat)
  | _ => none

/-- The tile numbers of a version. -/
def Version.tiles (v : Version) : List Nat := (List.range v.len).map (v.tile + ·)

/-- The versions of a stream with some numbers, in that order. -/
def Stream.pick (t : Stream) (ids : List Nat) : List Version := ids.filterMap fun i => t.versions.find? fun v => v.id == i

/-- A task is dispatched: each recomputable tile that it writes is WRITING (R399). -/
def State.markWriting (s : State) (die : Nat) (k : Task) : State :=
  let t := s.stream die k.stream
  let asid := s.streamAsid die k.stream
  ((t.pick k.writes).flatMap Version.tiles).foldl (fun (s : State) n =>
    match s.tilePage asid t.base n with
    | some (page, true) =>
      { s with tiles := ⟨page, .writing, die, k.stream, n⟩ :: s.tiles.filter fun x => x.page != page }
    | _ => s) s

/-! ### Making a recipe (R401-R404) -/

/-- The first condition of R401 that fails, of 3 to 6 (the completion's poison is 1); none when a recipe is made. -/
def State.recipeRefusal (s : State) (die : Nat) (k : Task) (poisoned : Bool) : Option Nat :=
  if poisoned then some 1
  else
    match s.launch? k.launch with
    | none => some 3
    | some l =>
      if !(l.recipes.any fun e => e.toNat == descWord k.desc 0) then some 3
      else if k.codegen.isNone then some 4
      else if !((l.reserves.any fun r => r.1 == die) && (descNeeds (descWord k.desc 1)).within (descNeeds l.rcneeds.toNat)) then some 5
      else if 65536 ≤ (s.die die).recipes.length then some 6
      else none

/-- DEPTH of a new recipe (R403). -/
def State.recipeDepth (s : State) (die stream : Nat) (reads : List Version) : Nat :=
  min 15 (1 + (((reads.filterMap fun v => s.sourceRecipe die stream v).map Recipe.depth).foldl max 0))

/-- The record of a task's recipe (R402). -/
def State.newRecipe (s : State) (die : Nat) (k : Task) : Recipe :=
  let t := s.stream die k.stream
  let reads := t.pick k.reads
  { idx := ((List.range 65536).find? fun i => !(s.die die).recipes.any fun r => r.idx == i).getD 0
    depth := s.recipeDepth die k.stream reads
    nbv := k.nbv, entry := BitVec.ofNat 57 (descWord k.desc 0), needs := BitVec.ofNat 55 (descWord k.desc 1)
    arg0 := k.desc.getD 2 0, arg1 := k.desc.getD 3 0, codegen := k.codegen.getD 0, stream := k.stream
    srcs := reads, dsts := t.pick k.writes }

/-- Whether a task that has not run has a recomputable tile in a write range. -/
def State.wouldWrite (s : State) (die : Nat) (k : Task) : Bool :=
  let t := s.stream die k.stream
  k.st == .waiting && ((t.pick k.writes).flatMap Version.tiles).any fun n =>
    match s.tilePage (s.streamAsid die k.stream) t.base n with | some (_, r) => r | none => false

/-- What a completing task leaves of the recomputable tiles that it wrote, or would have written: a recipe, or ordinary memory
(R401, R404). -/
def State.leaveRecipe (s : State) (die : Nat) (k : Task) (poisoned : Bool) : State :=
  let vs := (s.stream die k.stream).pick k.writes
  let mine (t : Tile) : Bool := t.die == die && t.stream == k.stream && t.st == .writing && vs.any fun v => v.holds t.tile
  if !s.tiles.any mine && !s.wouldWrite die k then s
  else
    match s.recipeRefusal die k poisoned with
    | some n =>
      let s := s.logErr 3 11 (rceOrigin die) (k.desc.getD 0 0) k.launch (BitVec.ofNat 64 (k.entry * 2 ^ 32 + n))
      { s with tiles := s.tiles.filter fun t => !mine t }
    | none =>
      let r := s.newRecipe die k
      let s := s.setDie die fun d => { d with recipes := d.recipes ++ [r] }
      { s with tiles := updWhere mine (fun t => { t with st := .present }) s.tiles }

/-! ### Completion of a task (13 R391-R393) -/

/-- A task completes, DONE or with a cause: one act. -/
def State.completeTask (s : State) (die : Nat) (k : Task) (poison : Option (BitVec 6 × Word)) : State :=
  let s := s.leaveRecipe die k poison.isSome
  let s := s.setStream die k.stream fun t =>
    { t with versions := updWhere (fun v => k.writes.contains v.id) (fun v => { v with writer := none, poison := poison }) t.versions }
  let s := s.setDie die fun d =>
    { d with
      tasks := (d.tasks.filter fun x => x.seq != k.seq).map fun x =>
        { x with deps := x.deps.filter fun v => !k.writes.contains v }
      chosen := if d.chosen = some k.seq then none else d.chosen }
  let s := match k.crew with | some c => s.dropCrew c | none => s
  (s.settle k.op (match poison with | some (c, g) => .poisoned c g | none => .done)).wakeTasks die

/-- TASK_COMPLETION: a running task whose crew has ended, or one that waits and is poisoned, which does not run. -/
def execTaskCompletion (die entry : Nat) (s : State) : Host.Outcome State Fault Refusal :=
  .next <|
    match (s.die die).tasks.find? fun k => k.entry == entry with
    | none => s
    | some k =>
      match k.st with
      | .running =>
        match k.crew.bind fun c => s.crew? c with
        | some c => if s.crewEnded c && !c.hasStopped then s.completeTask die k c.poison else s
        | none => s
      | .waiting =>
        match s.taskPoison die k with
        | some g => s.completeTask die k (some (1, g))
        | none => s
      | .ready => s

/-! ### Running a recompute (R410-R413, R415) -/

/-- The reserve of the launch that owns a stream. -/
def State.reserveOf (s : State) (die stream : Nat) : Option (Launch × Nat) :=
  (s.launch? (s.stream die stream).owner).bind fun l => (l.reserves.find? fun r => r.1 == die).map fun r => (l, r.2)

/-- The recompute crews of a launch on a die. -/
def State.recomputes (s : State) (launch die : Nat) : Nat :=
  (s.crews.filter fun c => c.launch == launch && (match c.kind with | .recompute d _ => d == die | _ => false)).length

/-- Whether a queued request can be dispatched: a slot of its reserve and a ward entry are free. -/
def State.canDispatch (s : State) (die : Nat) (q : Request) : Bool :=
  q.queued.isSome && q.crew.isNone &&
  (match s.recipe? die q.recipe with
   | none => false
   | some r =>
     match s.reserveOf die r.stream with
     | some (l, core) => s.recomputes l.num die < l.rcslots && (s.core core).wards.length < 64
     | none => false)

/-- The request that is served next: the one queued first. -/
def State.nextRequest (s : State) (die : Nat) : Option Request :=
  ((s.die die).requests.filter fun q => s.canDispatch die q).foldl (fun best q =>
    match best with
    | none => some q
    | some b => if (q.queued.getD 0) < (b.queued.getD 0) then some q else some b) none

/-- `s0` to `s8` of a task crew: ARG0, ARG1, the address of each range, `%taskid` (13 R394). -/
def taskRegs (base : VAddr) (arg0 arg1 : DWord) (vs : List Version) (taskid : Word) : List DWord :=
  [arg0, arg1] ++ ((List.range 6).map fun i =>
    match vs[i]? with
    | some v => BitVec.ofNat 64 (base.toNat + 4096 * v.tile)
    | none => 0) ++ [taskid.setWidth 64]

/-- Dispatch of a recompute (R410). -/
def State.dispatchRecompute (s : State) (die : Nat) (q : Request) (r : Recipe) (l : Launch) (core : Nat) : State :=
  let w := r.needs.toNat
  let id := s.nextId
  let taskid : Word := BitVec.ofNat 32 (2 ^ 31 + 2 ^ 30 + r.stream * 2 ^ 12 + 0xFFF)
  let p : CrewSpec :=
    { launch := l, kind := .recompute die r.idx, core, dims := (descThreads w, 1, 1), regs := descRegs w, needs := descNeeds w
      corner := coreXY core, nbv := r.nbv, taskid
      u := taskRegs (s.stream die r.stream).base r.arg0 r.arg1 (r.srcs ++ r.dsts) taskid
      rcinfo := BitVec.ofNat 32 (2 ^ 31 + q.level) }
  let s := s.makeCrew p r.entry
  let s := (s.tiles.filter fun t => t.die == die && r.covers t.stream t.tile && t.st == .absent).foldl (fun (s : State) t => s.undefineFrame t.page) s
  let s := s.setTiles die r fun st => if st = .absent then .rebuilding else st
  let s := s.setRecipe die r.idx fun r => { r with st := .running, rpin := r.rpin + 1 }
  let s := s.setRequest die r.idx fun q => { q with crew := some id }
  s.setCore core fun c => { c with wards := c.wards ++ [⟨id, 0, 0, false, false, []⟩] }

/-- RECOMPUTE_DISPATCH. -/
def execRecomputeDispatch (die : Nat) (s : State) : Host.Outcome State Fault Refusal :=
  .next <|
    match s.nextRequest die with
    | none => s
    | some q =>
      match s.recipe? die q.recipe with
      | none => s
      | some r =>
        match s.reserveOf die r.stream with
        | some (l, core) => s.dispatchRecompute die q r l core
        | none => s

/-- The crew of a recompute is gone, with its reserve slot and its ward entry. -/
def State.endRecompute (s : State) (c : Crew) : State :=
  (s.setCore c.core fun k => { k with wards := k.wards.filter fun w => w.op != c.id }).dropCrew c.id

/-- A recompute succeeds (R411): tiles, pins, state and count in one act; what waited goes on. -/
def State.recomputeDone (s : State) (die : Nat) (r : Recipe) (pins : List Nat) : State :=
  let s := s.setTiles die r fun st => if st = .rebuilding then .present else st
  let s := s.unpin die (pins ++ [r.idx])
  let s := s.setRecipe die r.idx fun r => { r with st := .idle }
  let s := s.setDie die fun d => { d with rcevt := d.rcevt + 1, requests := d.requests.filter fun q => q.recipe != r.idx }
  (s.unpark die r.idx none).resumeRequests die r.idx

/-- Why a recompute that has ended fails, if it does (R411, R413). -/
def State.recomputeFailure (s : State) (die : Nat) (r : Recipe) (c : Crew) : Option (BitVec 6 × Word) :=
  if c.recipeWrite then some (8, mkOrigin .rce die c.core 0)
  else if c.hasStopped then some (11, rceOrigin die)
  else
    match c.poison with
    | some p => some p
    | none => if s.codeGen (s.streamAsid die r.stream) r.entry = some r.codegen then none else some (7, rceOrigin die)

/-- RECOMPUTE_SETTLE. -/
def execRecomputeSettle (die recipe : Nat) (s : State) : Host.Outcome State Fault Refusal :=
  .next <|
    match (s.die die).requests.find? fun q => q.recipe == recipe, s.recipe? die recipe with
    | some q, some r =>
      match q.crew.bind fun c => s.crew? c with
      | none => s
      | some c =>
        if !s.crewEnded c then s
        else
          let why := s.recomputeFailure die r c
          let s := s.endRecompute c
          match why with
          | some (cause, g) => s.failAll die recipe cause g
          | none => s.recomputeDone die r q.pins
    | _, _ => s

/-! ### Evictions (R399, R400; 15 R427) -/

/-- L2_LINE_EVICTION of a storage line: a line that L2 holds of a PRESENT tile whose recipe is unpinned drops the tile; any other
line is written back, and L2 holds it no more. -/
def execL2LineEviction (line : Nat) (s : State) : Host.Outcome State Fault Refusal :=
  .next <|
    let held := s.resident.contains line
    let s : State := { s with resident := s.resident.filter (· != line) }
    match s.tileAt (line * 128) with
    | some t =>
      if held ∧ t.st = .present ∧ ((s.coverOf t).map fun r => !r.pinned).getD false then s.dropTile t else s.evictLine line
    | none => s.evictLine line

/-! ### The forms (R419-R421) -/

/-- RCPIN, RCUNPIN, RCRETIRE and RCDROP at issue: length and address. -/
def Issue.rceForm (I : Issue) (f : Fields) : State :=
  I.lowTrap <| I.acceptOp { I.newOp f.c f.e with
    args := [BitVec.ofNat 64 (match f.d with | .imm v => v.toNat | o => I.read I.low o 64), BitVec.ofNat 64 (I.read I.low f.a 64)] }

/-- RCPIN. -/
def execRcpin (f : Fields) (s : State) : Host.Outcome State Fault Refusal := withIssue (.rcpin f) s fun I => I.rceForm f

/-- RCUNPIN. -/
def execRcunpin (f : Fields) (s : State) : Host.Outcome State Fault Refusal := withIssue (.rcunpin f) s fun I => I.rceForm f

/-- RCRETIRE. -/
def execRcretire (f : Fields) (s : State) : Host.Outcome State Fault Refusal := withIssue (.rcretire f) s fun I => I.rceForm f

/-- RCDROP. -/
def execRcdrop (f : Fields) (s : State) : Host.Outcome State Fault Refusal := withIssue (.rcdrop f) s fun I => I.rceForm f

/-- What a form needs of a page's leaf. -/
def rceNeed : Instr → Need
  | .rcpin _ | .rcunpin _ => { r := true }
  | _ => { w := true }

/-- How an act on one tile ends: applied, or to be tried again. -/
inductive RceAct
  | done (s : State)
  | again (s : State)
  deriving Repr

/-- Whether another live recipe references a version that a recipe writes (R405, R421). -/
def State.referenced (s : State) (die : Nat) (r : Recipe) : Bool :=
  (s.die die).recipes.any fun o => o.idx != r.idx && (o.srcs ++ o.dsts).any fun w => r.dsts.any fun v => v.id == w.id

/-- Whether some destination tile of a recipe is ABSENT or REBUILDING. -/
def State.recipeLost (s : State) (die : Nat) (r : Recipe) : Bool := r.dsts.any fun v => s.versionLost die r.stream v

/-- The act of a form on the recipe that covers a touched tile (R421). An RCPIN from inside a recompute starts no request and
waits for none (R413; log 34). -/
def State.rceAct (s : State) (o : Op) (t : Tile) (r : Recipe) : RceAct :=
  let die := t.die
  match o.instr with
  | .rcpin _ =>
    if o.holds = [r.idx] then .done (s.setOp o.id fun o => { o with holds := [] })
    else if s.recipeLost die r && (s.recomputeOf (some o.crew)).isSome then .done (s.failOp o.id 6 (some (rceOrigin die)))
    else if s.recipeLost die r then
      .again (State.request requestFuel (s.setOp o.id fun o => { o with wait := .recipe die r.idx }) die r.idx 1)
    else if r.ppin = 255 then .done (s.failOp o.id 12 none)
    else .done (s.setRecipe die r.idx fun r => { r with ppin := r.ppin + 1 })
  | .rcunpin _ => .done (s.setRecipe die r.idx fun r => { r with ppin := r.ppin - 1 })
  | .rcretire _ =>
    if r.st ≠ .idle then .again s
    else if r.ppin ≠ 0 ∨ s.referenced die r then .done (s.failOp o.id 12 none)
    else .done (s.retire die r.idx)
  | _ => .done (s.dropTile t)

/-- The key of a recipe among those that an operation has treated. -/
def recipeKey (die idx : Nat) : Nat := 2 * idx + die % 2

/-- The pages of the range, ascending, from the one the operation has come to (R420): `prog` counts pages, `rowsDone`
holds the recipes treated. The loop ends the operation, or leaves it to go on later. -/
def State.rceLoop : Nat → State → Nat → State
  | 0, s, _ => s
  | fuel + 1, s, id =>
    match s.op? id with
    | none => s
    | some o =>
      let n := o.arg 0
      let page := o.arg 1 / 4096 + o.prog
      if n = 0 ∨ (o.arg 1 + n - 1) / 4096 < page then
        match o.fail with
        | some (c, g) => s.settle id (.poisoned c g)
        | none => s.finish id
      else
        let w : Who := { s.opWho o .rce with loc := .ofDie (dieOfCore o.core) }
        match s.xlateAs w (page * 4096) (rceNeed o.instr) with
        | (s, .fault k l e) =>
          let s := s.stopOp id w (if (rceNeed o.instr).w then accWrite else accRead) false (.fault (page * 4096) k l e)
          match (s.op? id).bind Op.fail with
          | some (c, g) => s.settle id (.poisoned c g)
          | none => s
        | (s, .bad c g) =>
          let s := s.failOp id c g
          match (s.op? id).bind Op.fail with
          | some (c, g) => s.settle id (.poisoned c g)
          | none => s
        | (s, .ok key leaf) =>
          let next (s : State) : State := State.rceLoop fuel (s.setOp id fun o => { o with prog := o.prog + 1 }) id
          match if entRcmp leaf then (s.tileAt key).bind fun t => (s.coverOf t).map fun r => (t, r) else none with
          | none => next s
          | some (t, r) =>
            let drop := match o.instr with | .rcdrop _ => true | _ => false
            if !drop && o.rowsDone.contains (recipeKey t.die r.idx) then next s
            else
              match s.rceAct o t r with
              | .again s => s
              | .done s => next (s.setOp id fun o => { o with rowsDone := recipeKey t.die r.idx :: o.rowsDone })

/-- An RCE operation goes on (R420). -/
def State.runRce (s : State) (o : Op) : State :=
  let s := s.setOp o.id fun o => { o with queued := false }
  let n := o.arg 0
  let a := o.arg 1
  if 2 ^ 57 ≤ a ∨ 2 ^ 57 < a + n then s.poisonOp o.id 3
  else if 2 ^ 32 ≤ n then s.poisonOp o.id 12
  else State.rceLoop (n / 4096 + 3) s o.id

/-- Whether an operation is one of the four forms. -/
def isRceForm : Instr → Bool
  | .rcpin _ | .rcunpin _ | .rcretire _ | .rcdrop _ => true
  | _ => false

/-- The read of a recipe's record fails while a request for it is open (01 R43, R44; R415). -/
def State.retryRecipe (s : State) (die idx : Nat) (lasting : Bool) : State :=
  match (s.die die).requests.find? fun q => q.recipe == idx with
  | none => s
  | some q =>
    if q.crew.isSome then s
    else
      let launch := ((s.recipe? die idx).map fun r => (s.stream die r.stream).owner).getD 0
      if lasting then
        (s.logErr 2 2 (rceOrigin die) 0 launch (BitVec.ofNat 64 idx)).failAll die idx 2 (rceOrigin die)
      else (s.setDie die fun d => { d with hmevt := d.hmevt + 1 }).logErr 1 2 (rceOrigin die) 0 launch (BitVec.ofNat 64 idx)

/-- TBE_OPERATION_SETTLE: a push, a configuration that waited, a TRELEASE that waited, or an RCE form goes on. -/
def execTbeOperationSettle (op : Nat) (s : State) : Host.Outcome State Fault Refusal :=
  .next <|
    match s.op? op with
    | none => s
    | some o =>
      if !o.started || o.wait != .none then s
      else
        match o.instr with
        | .wqpush _ => if s.mayPerform o && (o.prog == 1 || !s.earlierPush o) then s.onTurn o fun s => s.runPush o else s
        | .bincfg _ => s.runBincfg o
        | .wqcfg _ => s.runWqcfg o
        | .trelease _ => if (s.streamHead (dieOfCore o.core) (o.arg 0)).map Op.id = some op then s.runRelease o else s
        | i => if isRceForm i && s.mayPerform o then s.runRce o else s

/-! ### RCQUERY (R422) -/

/-- A version word (R402). -/
def Version.word (v : Version) : Nat := v.tile % 2 ^ 20 * 2 ^ 12 + (v.len - 1) % 2 ^ 12

/-- Word n of a list of versions. -/
def versionWord (vs : List Version) (n : Nat) : Nat := ((vs[n]?).map Version.word).getD 0

/-- STATE of a record. -/
def RecipeSt.code : RecipeSt → Nat
  | .idle => 0 | .open => 1 | .running => 2

/-- Word n of a record (R402). -/
def Recipe.word (r : Recipe) (n : Nat) : Nat :=
  match n with
  | 0 => 2 ^ 63 + r.depth % 16 * 2 ^ 59 + r.nbv.toNat * 2 ^ 57 + r.entry.toNat
  | 1 => r.needs.toNat
  | 2 => r.arg0.toNat
  | 3 => r.arg1.toNat
  | 4 => r.codegen.toNat * 2 ^ 32 + r.ppin % 256 * 2 ^ 24 + r.rpin % 256 * 2 ^ 16 + r.st.code * 2 ^ 6 + r.stream % 64
  | 5 => versionWord r.srcs 1 * 2 ^ 32 + versionWord r.srcs 0
  | 6 => versionWord r.srcs 3 * 2 ^ 32 + versionWord r.srcs 2
  | _ => versionWord r.dsts 1 * 2 ^ 32 + versionWord r.dsts 0

/-- TSTATE (R422). -/
def TileSt.code : TileSt → Nat
  | .writing => 1 | .present => 2 | .absent => 3 | .rebuilding => 4

/-- The word that RCQUERY gives for an address. -/
def State.queryRecipe (s : State) (asid va b : Nat) : Nat :=
  let there : Option (Option Tile) :=
    if 2 ^ 57 ≤ va then none
    else
      match s.walk asid va with
      | .ok t => ((placeOf (t.pa va)).key).map fun k => if entRcmp t.leaf.toNat then s.tileAt k else none
      | _ => none
  match there with
  | none => if b = 8 then 7 else 0
  | some tile =>
    let rec? := tile.bind fun t => s.coverOf t
    if b = 8 then
      (match rec? with
       | some r => b2n (r.st != .idle) * 2 ^ 7 + b2n r.pinned * 2 ^ 6 + 2 ^ 3
       | none => 0) + ((tile.map fun t => t.st.code).getD 0)
    else (rec?.map fun r => r.word b).getD 0

/-- RCQUERY. -/
def execRcquery (f : Fields) (s : State) : Host.Outcome State Fault Refusal :=
  withIssue (.rcquery f) s fun I =>
    I.perLane fun l =>
      let b := match f.b with | .imm v => v.toNat | o => I.read l o 64
      if 8 < b then .trap (I.trapHere 0x0B) else .ok [.reg f.d 64 (I.s.queryRecipe I.asid (I.read l f.a 64) b)]

/-! ### What follows every act (R417; 13 R384, R389) -/

/-- A pending close of a stream: its idle recipes are retired, and with none left the close applies. -/
def State.closeStream (s : State) (die n : Nat) : State :=
  if !(s.stream die n).closing then s
  else
    let mine := (s.die die).recipes.filter fun r => r.stream == n
    let s := (mine.filter fun r => r.st == .idle).foldl (fun (s : State) r => s.retire die r.idx) s
    if (s.die die).recipes.any fun r => r.stream == n then s else s.setStream die n fun _ => {}

/-- The retirements of a die, the closes of its streams, and the tiles that return to their pools. -/
def State.settleDie (s : State) (die : Nat) : State :=
  if (s.die die).streams.all fun t => !t.used then s
  else
    (List.range 64).foldl (fun (s : State) n => if (s.stream die n).used then (s.freeVersions die n).closeStream die n else s)
      (State.retireAll (s.die die).recipes.length s die)

/-- What follows every act: calls of tickets (12 R365), retirements, closes and freed tiles. -/
def State.afterAct (s : State) : State := (s.callTickets.settleDie 0).settleDie 1

end Sys2Proof.Machine
end

