-- ==== Sys2Proof/Machine/Xle.lean ====
section
/-! DEFINITION. The forms of the translation engine and of the home engine: TLBSD, TLBINV, ADDRQ (16 R465-R468) and RGNSW
(15 R435, R436). -/

namespace Sys2Proof.Machine

/-! ### TLBSD and TLBINV (16 R465-R467) -/

/-- Whether an ASID operand is refused: bits [63:12] or a value of 0; `.ALL` has none. -/
def asidBad (mode : TlbMode) (x : Nat) : Bool := mode != .all && (4096 ≤ x || x == 0)

/-- What a form covers. -/
def coverOfMode (mode : TlbMode) (asid va n : Nat) : Cover :=
  match mode with
  | .va => .va asid va n
  | .asid => .asid asid
  | .all => .all

/-- TLBSD: length, address and ASID. -/
def execTlbsd (f : Fields) (mode : TlbMode) (s : State) : Host.Outcome State Fault Refusal :=
  withIssue (.tlbsd f mode) s fun I =>
    I.acceptOp { I.newOp f.c f.e with
      args := [BitVec.ofNat 64 (I.read I.low f.d 64), BitVec.ofNat 64 (I.read I.low f.a 64), BitVec.ofNat 64 (I.read I.low f.b 64)] }

/-- TLBINV: the covered entries of the issuing core's TLBs; it names one address, and no length. -/
def execTlbinv (f : Fields) (mode : TlbMode) (s : State) : Host.Outcome State Fault Refusal :=
  withIssue (.tlbinv f mode) s fun I =>
    let asid := I.read I.low f.b 64
    if asidBad mode asid then I.trapAct 0x0B
    else I.done.invalidateCore I.core (coverOfMode mode asid (I.read I.low f.a 64) 1)

/-- The address space in which an operation translates. -/
def State.opAsid (s : State) (o : Op) : Nat :=
  if engineOf o.instr = .fab ∨ isPeerArrival o.instr then 4095 else ((s.launch? o.launch).map Launch.asid).getD 0

/-- Whether a shootdown reaches the entries of an address space. -/
def Cover.reachesAsid : Cover → Nat → Bool
  | .va a _ _, x => a == x
  | .asid a, x => a == x
  | .all, _ => true

/-- Whether an operation has an access that is translated and has not performed: parked at a tile, waiting for a recall,
or queued at a slice. Every other access of the model translates in the act in which it performs (DEDUCED, log 2). -/
def State.bound (s : State) (o : Op) : Bool :=
  (match o.wait with | .recipe _ _ | .recall _ => true | _ => false) || !o.rows.isEmpty ||
  s.dies.any fun d => d.slices.any fun q => q.acts.any fun a =>
    match a.kind with
    | .lane id _ | .whole id | .row id _ _ => id == o.id
    | .peer _ => false

/-- Whether a peer's packet waits at a slice or in a reorder buffer. -/
def State.peerBound (s : State) : Bool :=
  !s.reorder.isEmpty || s.dies.any fun d => d.slices.any fun q => q.acts.any fun a =>
    match a.kind with | .peer _ => true | _ => false

/-- Whether every TLB can acknowledge a shootdown (R466): no access translated in a covered address space is still to
perform, and no save holds translations of it (17 R484). -/
def State.drained (s : State) (c : Cover) (self : Nat) : Bool :=
  !(s.ops.any fun o => o.id != self && c.reachesAsid (s.opAsid o) && s.bound o) &&
  !(c.reachesAsid 4095 && s.peerBound) &&
  !(s.crews.any fun k => k.save.isSome && c.reachesAsid (s.asidOf k))

/-- The refusal of a shootdown's operands: cause 12, then cause 3. -/
def shootRefusal (mode : TlbMode) (n va asid : Nat) : Option (BitVec 6) :=
  if asidBad mode asid then some 12
  else if mode == .va && (2 ^ 57 ≤ va || 2 ^ 57 < va + n) then some 3
  else none

/-- TLBSD_COMPLETE: once its earlier accesses have performed and everything it covers is drained, the entries go and the
token settles. -/
def execTlbsdComplete (op : Nat) (s : State) : Host.Outcome State Fault Refusal :=
  .next <|
    match s.op? op with
    | none => s
    | some o =>
      match o.instr with
      | .tlbsd _ mode =>
        if !o.started || !s.mayPerform o then s
        else
          match shootRefusal mode (o.arg 0) (o.arg 1) (o.arg 2) with
          | some c => s.poisonOp op c
          | none =>
            let cover := coverOfMode mode (o.arg 2) (o.arg 1) (o.arg 0)
            if s.drained cover op then (s.shootdown cover).finish op else s
      | _ => s

/-! ### ADDRQ (R468) -/

/-- ADDRQ: the checks of an access but for its address range. -/
def execAddrq (f : Fields) (acc : AddrqAccess) (s : State) : Host.Outcome State Fault Refusal :=
  withIssue (.addrq f acc) s fun I =>
    I.acceptLanes f fun l =>
      match I.indirectOut l with
      | some t => .error t
      | none =>
        let va := wrapNat 64 (I.read l f.a 64 + I.offset l f.b)
        if va < 2 ^ 57 ∧ I.warded (acc == .w) [.va I.asid va 1] then .error (I.trapHere 0x10 va)
        else .ok { lane := l, addr := BitVec.ofNat 64 va, dst := I.dstOf l f.d }

/-- SIZE of a page. -/
def sizeCode (n : Nat) : Nat := if n = 2 ^ 12 then 0 else if n = 2 ^ 16 then 1 else if n = 2 ^ 21 then 2 else 3

/-- The word that ADDRQ gives for an address. -/
def addrqWord (va : Nat) : Option Walk → Nat
  | none => 4 * 2 ^ 4
  | some (.ok t) =>
    2 ^ 63 + bitsNat t.leaf.toNat 62 52 * 2 ^ 52 + bitsNat (t.pa va) 51 12 * 2 ^ 12 + sizeCode t.size * 2 ^ 10 + t.level * 2 ^ 7
  | some (.fault k level _) => level * 2 ^ 7 + k * 2 ^ 4

/-- ADDRQ completes: each lane is translated, and nothing waits or is recorded; a lane whose walk was lost says so. -/
def State.runAddrq (s : State) (o : Op) (f : Fields) (acc : AddrqAccess) : State :=
  let need : Need := match acc with | .r => { r := true } | .w => { w := true } | .x => { x := true }
  let word (a : LaneAcc) : Nat :=
    let va := a.addr.toNat
    addrqWord va
      (if 2 ^ 57 ≤ va then none
      else if a.fail.isSome then some (.fault kLasting a.off 0)
      else some (s.lookup (.data o.core) (s.opAsid o) va need).2)
  let lanes := o.acc.map fun a => { a with done := true, result := BitVec.ofNat 128 (word a) }
  (s.deliver o f.d 64 lanes).finish o.id

/-! ### RGNSW (15 R435, R436) -/

/-- RGNSW: length and physical address. -/
def execRgnsw (f : Fields) (mode : RegionMode) (s : State) : Host.Outcome State Fault Refusal :=
  withIssue (.rgnsw f mode) s fun I =>
    I.acceptOp { I.newOp f.c f.e with args := [BitVec.ofNat 64 (I.read I.low f.d 64), BitVec.ofNat 64 (I.read I.low f.a 64)] }

/-- Mode of a coherence region; every unlisted one is DEVICE (R432). -/
def State.regionMode (s : State) (g : Nat) : RegionMode := (cellGet g s.regions).getD .dev

/-- Set the mode of a region. -/
def State.setRegion (s : State) (g : Nat) (m : RegionMode) : State :=
  { s with regions := if m = .dev then cellDel g s.regions else cellPut g m s.regions }

/-- The halves of a region that the host holds. -/
def State.heldHalves (s : State) (g : Nat) : List Nat := (s.halves.filter fun h => h.1 / 2 ^ 15 == g).map Prod.fst

/-- How a switch of regions stands. -/
inductive Switch
  | done
  | fails (cause : BitVec 6)
  /-- It waits for the recall of a half. -/
  | waits (half : Nat)
  deriving DecidableEq, Repr

/-- The regions from g on, n of them, switch in ascending order. -/
def State.switchRegions (mode : RegionMode) : Nat → State → Nat → State × Switch
  | 0, s, _ => (s, .done)
  | n + 1, s, g =>
    if s.bandOf (g * 2 ^ 21) ≠ .rowMajor then (s, .fails 5)
    else
      match s.heldHalves g with
      | h :: hs =>
        if mode = .shared then State.switchRegions mode n (s.setRegion g mode) (g + 1)
        else ((h :: hs).foldl (fun (s : State) x => s.startRecall x false) s, .waits h)
      | [] => State.switchRegions mode n (s.setRegion g mode) (g + 1)

/-- The refusal of a range: cause 15, then cause 3. -/
def rangeRefusal (a n : Nat) : Option (BitVec 6) :=
  if a % 2 ^ 21 ≠ 0 ∨ n % 2 ^ 21 ≠ 0 then some 15 else if 2 ^ 39 ≤ a ∨ 2 ^ 39 < a + n then some 3 else none

/-- RGNSW performs (R436). A range of length 0 changes nothing. -/
def State.runRgnsw (s : State) (o : Op) (mode : RegionMode) : State :=
  match o.fail with
  | some (c, g) => s.settle o.id (.poisoned c g)
  | none =>
    match if o.arg 0 = 0 ∧ o.arg 1 % 2 ^ 21 = 0 ∧ o.arg 1 ≤ 2 ^ 39 then none else rangeRefusal (o.arg 1) (o.arg 0) with
    | some c => s.poisonOp o.id c
    | none =>
      match State.switchRegions mode (o.arg 0 / 2 ^ 21) s (o.arg 1 / 2 ^ 21) with
      | (s, .done) => s.finish o.id
      | (s, .fails c) => s.poisonOp o.id c
      | (s, .waits h) => s.setOp o.id fun o => { o with wait := .recall h, prog := h / 2 ^ 15 + 1 }

end Sys2Proof.Machine
end

