-- ==== Sys2Proof/Machine/Ctx.lean ====
section
/-! DEFINITION. Saving a crew and loading it again (17 R483-R491): what a capture discards, the area byte by byte, CTXSAVE,
the forced save, CTXLOAD, and what an end of a launch shares with them (18 R501). -/

namespace Sys2Proof.Machine

/-! ### What a capture discards (R485) -/

/-- What a capture or the end of a launch does to an accepted operation. -/
inductive Discard
  /-- It runs to settlement. -/
  | runs
  /-- Its token becomes POISONED with cause 11. -/
  | poison
  /-- The token of a TSUBMIT becomes POISONED with cause 11; the submission goes on. -/
  | submission
  /-- Nothing is recorded; its threads, which waited in it, will execute it again. -/
  | withdraw
  /-- A FAB request without its answer: cause 10, RCLASS 11 (18 R501). -/
  | unanswered
  deriving DecidableEq, Repr

/-- Whether an operation keeps its issuing threads waiting: a blocking PBWAIT, or a load with `.WAIT`. -/
def Op.blocks (o : Op) : Bool :=
  match o.instr with
  | .pbwait .. => o.tok == 0
  | .lds _ .keep | .lds _ .clr => true
  | _ => false

/-- Whether an operand log holds an operation. -/
def State.inLog (s : State) (o : Op) : Bool :=
  o.wait == .answer && s.dies.any fun d => d.faults.any fun f => f.owner == .op o.id && f.logged

/-- Whether a gang does not hold every member. -/
def Op.gangOpen (o : Op) : Bool := isGang o.instr && o.prog == 0

/-- The class of an operation at a capture, or with `ending` at the end of its launch. -/
def State.discardOf (s : State) (ending : Bool) (o : Op) : Discard :=
  match o.instr with
  | .queueRefill .. => if ending then .withdraw else .runs
  | .tsubmit .. => if ending then .poison else .submission
  | _ =>
    if o.blocks then .withdraw
    else if !o.started && !allSettled o.keys then .poison
    else if s.inLog o || o.gangOpen || (ending && (o.wait == .answer || o.wait == .grant)) then .poison
    else
      match o.wait, o.instr with
      | .ticket _, _ => .poison
      | _, .pbwait .. => .poison
      | _, .fticket .. => if o.started && o.arg 2 != s.endpoint then .poison else .runs
      | .recipe _ _, _ => if ending then .poison else .runs
      | _, _ =>
        if ending && o.rows.any (fun r => r.wait.isSome) then .poison else if ending && o.started && s.hasRemote o then .unanswered else .runs

/-- An operation is discarded. -/
def State.discard (s : State) (o : Op) (d : Discard) : State :=
  match d with
  | .runs => s
  | .poison => s.settle o.id (.poisoned 11 o.origin)
  | .unanswered => s.settleFab o 10 (peerOrigin 3 (s.peerOf o))
  | .withdraw =>
    (s.dropOp o.id).setWarp o.crew o.warp fun w =>
      { w with threads := w.threads.map fun t => if t.run = .pbwait o.id ∨ t.run = .latch o.id then { t with run := .running } else t }
  | .submission =>
    let s := s.setWarp o.crew o.warp fun w => w.settleTok o.tok o.id (.poisoned 11 o.origin)
    let s := if o.tok = 0 then s.notePoison o.launch 11 o.origin else s
    (s.settleBinding o.id (.poisoned 11 o.origin)).setOp o.id fun o => { o with tok := 0, orphan := true }

/-- Every operation of a class is discarded at one instant, in ascending token order (04 R149): the classes are those before any
of them is. -/
def State.discardAll (s : State) (ending : Bool) (mine : Op → Bool) : State × Nat :=
  let hit := (s.ops.filter mine).filterMap fun o => if s.discardOf ending o = .runs then none else some (o, s.discardOf ending o)
  let byToken := (List.range 32).flatMap fun k => hit.filter fun p => p.1.tok == k
  (byToken.foldl (fun (s : State) (p : Op × Discard) => s.discard p.1 p.2) s, (hit.filter fun p => p.2 != .withdraw).length)

/-- The operations that a capture of a crew concerns (R484, R485). -/
def Op.captured (o : Op) (crew : Nat) : Bool := o.crew == crew && !o.orphan || o.gangCrews.contains crew

/-! ### The layout of an area (R486) -/

/-- What the size of an area depends on: warps, registers per thread, operand slots, accumulators, bytes of CSM. -/
structure AreaDims where
  w : Nat
  v : Nat
  q : Nat
  a : Nat
  c : Nat
  deriving DecidableEq, Repr

/-- The dimensions of a crew. -/
def Crew.area (c : Crew) : AreaDims := ⟨c.warps.length, c.regs, c.slots, c.accs, c.csmSize⟩

/-- The sizes of the sections in order. -/
def AreaDims.sizes (d : AreaDims) : List Nat :=
  [256, d.w * 1024, 32 * d.w * (4 * d.v + 64), 256, 1024, d.a * 32832, d.q * 4608, d.c, (d.c / 128 + 63) / 64 * 64]

/-- The offset of section n; section 9 is the end. -/
def AreaDims.at (d : AreaDims) (n : Nat) : Nat := (d.sizes.take n).foldl (· + ·) 0

/-- SIZE of an area. -/
def AreaDims.size (d : AreaDims) : Nat := d.at 9

/-! ### Writing an area (R487) -/

/-- Words as bytes. -/
def wordsBytes (ws : List Nat) : List Byte := ws.flatMap fun w => leBytes 8 w

/-- Bytes padded with zeros to a length. -/
def padTo (n : Nat) (bs : List Byte) : List Byte := (bs ++ List.replicate (n - bs.length) 0).take n

/-- The header, with VALID = 1. -/
def Crew.headerWords (c : Crew) (asid : Nat) (sv : SaveSt) : List Nat :=
  let xy := coreXY c.core
  let n (x hi lo : Nat) : Nat := x % 2 ^ (hi + 1 - lo) * 2 ^ lo
  [2 ^ 63 + n 2 47 32 + n c.area.size 31 0,
   n asid 63 52 + n c.launch 31 0,
   n c.cluster.toNat 63 32 + n c.index 31 26 + n c.stage 25 23 + n (c.rect.1 - 1) 19 18 + n (c.rect.2 - 1) 17 16 +
     n (xy.1 - c.corner.1) 15 14 + n (xy.2 - c.corner.2) 13 12,
   n (c.dims.1 - 1) 63 54 + n (c.dims.2.1 - 1) 53 44 + n (c.dims.2.2 - 1) 43 34 + n c.warps.length 33 28 +
     n (c.regs / 8 - 1) 27 23 + n c.slots 22 16 + n c.accs 15 11 + n (c.csmSize / 4096) 7 0,
   n c.barsN 37 32 + n c.shapesN 28 24 + b2n sv.forced,
   n c.core 63 56 + n sv.discarded 31 0]

/-- A warp record: 1,024 bytes. -/
def Warp.areaBytes (w : Warp) (fpost : Nat) : List Byte :=
  padTo 1024 <| wordsBytes <|
    w.toks.map TokRec.word ++ w.u.map BitVec.toNat ++ w.joins.map (fun j => j.waiting.toNat * 2 ^ 32 + j.member.toNat) ++
    [w.part.toNat, w.tstat.toNat, b2n w.wdtrap * 2 + b2n w.ptrap, w.wdCount.toNat * 2 ^ 32 + w.wdLimit.toNat, w.nbv.toNat,
     w.waitFor.toNat * 2 ^ 32 + w.heldL.toNat, fpost, w.slot % 64]

/-- WAIT of a thread: a wait that is executed again after the load is saved as 0. -/
def Run.waitCode : Run → Nat
  | .join _ => 1 | .barrier _ _ => 2 | .held => 3 | .halted => 4 | .ended | .stopped => 5 | .absent => 6
  | _ => 0

/-- The barrier and phase of a thread in BARW. -/
def Run.barCode : Run → Nat
  | .barrier b ph => b2n ph * 2 ^ 61 + b % 32 * 2 ^ 56
  | _ => 0

/-- Word 7 of a thread record; of the two held causes, the Watchdog takes the higher bit. -/
def Thread.word7 (t : Thread) : Nat :=
  t.preds.toNat + (leNat (t.ix.take 4)) * 2 ^ 8 + t.tmode.toNat * 2 ^ 40 + t.run.waitCode * 2 ^ 53 + t.run.barCode +
  b2n t.heldPreempt * 2 ^ 62 + b2n t.heldWatchdog * 2 ^ 63

/-- A thread record: V registers and eight words. -/
def Thread.areaBytes (t : Thread) (regs : Nat) : List Byte :=
  (List.range regs).flatMap (fun r => leBytes 4 (t.v.getD r 0).toNat) ++
  wordsBytes [t.pc.toNat, t.tpc.toNat, t.tcause.toNat, t.taddr.toNat, t.tscr0.toNat, t.tscr1.toNat,
    t.csp.toNat + t.fflags.toNat * 2 ^ 32 + t.fenv.toNat * 2 ^ 40, t.word7]

/-- An accumulator: its state, then its elements in 64 columns. -/
def accBytes (t : Option AccTile) : List Byte :=
  let elem (i j : Nat) : Nat :=
    match t with
    | some t => if j < dimSize t.nc then (t.elems.getD (i * dimSize t.nc + j) 0).toNat else 0
    | none => 0
  padTo 64 (leBytes 8 (tileWord t)) ++
  (List.range 64).flatMap fun i => (List.range 64).flatMap fun j => leBytes 8 (elem i j)

/-- An operand slot: its bytes and its side band. -/
def Crew.slotAreaBytes (c : Crew) (q : Nat) : List Byte :=
  (List.range 4096).map (fun k => c.slotByte (4096 * q + k)) ++
  (List.range 128).flatMap fun k => leBytes 4 (c.sideAt (128 * q + k))

/-- The latch bits. -/
def Crew.latchBytes (c : Crew) : List Byte :=
  padTo ((c.csmSize / 128 + 63) / 64 * 64) <|
    (List.range (c.csmSize / 128)).map fun k => BitVec.ofNat 8 (bitsOf ((List.range 8).map fun i => c.full.contains (8 * k + i)))

/-- The whole area of a crew. -/
def State.areaBytes (s : State) (c : Crew) (sv : SaveSt) : List Byte :=
  padTo 256 (wordsBytes (c.headerWords (s.asidOf c) sv)) ++
  ((List.range c.warps.length).zip c.warps).flatMap (fun p => p.2.areaBytes (s.fpost c.id p.1)) ++
  c.warps.flatMap (fun w => (List.range 32).flatMap fun l => (w.thread l).areaBytes c.regs) ++
  padTo 256 (wordsBytes (c.bars.map Bar.word)) ++
  padTo 1024 (c.shapes.flatMap fun h => leBytes 64 (match h with | some r => r.toNat | none => 0)) ++
  c.acc.flatMap accBytes ++
  (List.range c.slots).flatMap c.slotAreaBytes ++
  (List.range c.csmSize).map c.csmByte ++
  c.latchBytes

/-! ### Beginning a save (R484) -/

/-- Who makes the accesses of a save. -/
def State.saveWho (s : State) (c : Crew) : Who :=
  { crew := some c.id, asid := s.asidOf c, loc := .data c.core, core := c.core, engine := .xle }

/-- Every page of an area is translated for write, without replay. -/
def State.checkPages (c : Crew) : Nat → State → Nat → State × Bool
  | 0, s, _ => (s, true)
  | n + 1, s, va =>
    match s.lookup (.data c.core) (s.asidOf c) va { w := true } with
    | (s, .ok _) => State.checkPages c n s (va + 4096)
    | (s, .fault k l e) =>
      ((s.fault { die := dieOfCore c.core, asid := s.asidOf c, va, core := c.core, access := accWrite, engine := .xle } k l e none).1, false)

/-- A Save Fault is logged. -/
def State.saveFault (s : State) (c : Crew) (base : VAddr) : State :=
  s.logErr 3 9 (coreOrigin .seq c.core 0) (base.setWidth 64) c.launch 0

/-- The status of CTXSAVE is written in its issuing threads (R490). -/
def State.saveStatus (s : State) (id : Nat) (sv : SaveSt) (x : Nat) : State :=
  if sv.forced then s
  else
    s.setWarp id sv.warp fun w =>
      w.puts ((lowestLane sv.lanes).getD 0) ((lanesOf sv.lanes).map fun l => (l, [.reg sv.status 32 x]))

/-- The threads of a crew that still owe the check of an entry make it: the area has no place for it (02 R53). -/
def State.settleEntries (s : State) (c : Crew) : State :=
  (List.range c.warps.length).foldl (fun s w => (List.range 32).foldl (fun s l => s.settleOwed c.id w l) s) s

/-- A save of a crew begins: the check, then the capture with its discards. -/
def State.beginSave (s : State) (c : Crew) (sv : SaveSt) : State :=
  let n := c.area.size
  let base := sv.base.toNat
  let r : State × Bool :=
    if 2 ^ 57 < base + n ∨ base % 4096 ≠ 0 then (s, false) else State.checkPages c ((n + 4095) / 4096) s base
  if r.2 then
    let d := (r.1.settleEntries c).discardAll false fun o => o.captured c.id
    d.1.setCrew c.id fun c => { c with save := some { sv with discarded := d.2 } }
  else
    let s := (r.1.saveFault c sv.base).saveStatus c.id sv 2
    if sv.forced then s.setCrew c.id fun c => { c with pend := false } else s

/-- CTXSAVE: its threads go on at the successor, and its crew is captured there. -/
def execCtxsave (f : Fields) (s : State) : Host.Outcome State Fault Refusal :=
  withIssue (.ctxsave f) s fun I =>
    let a := I.read I.low f.a 64
    let bad := I.lanes.filterMap fun l => (I.indirectOut l).map fun t => (l, t)
    if !bad.isEmpty then I.holdFor bad
    else if (I.s.recomputeOf (some I.cid)).isSome then I.trapAct 0x0B
    else if 2 ^ 57 ≤ a then I.trapAct 0x0C 0 (BitVec.ofNat 64 a)
    else if a % 4096 ≠ 0 then I.trapAct 0x0F 0 (BitVec.ofNat 64 a)
    else
      I.done.beginSave I.crew
        { base := BitVec.ofNat 57 a, forced := false, warp := I.wi, lanes := I.act, status := f.d, discarded := 0 }

/-- A forced save into `%ctxarea` (R483); one that falls due during a save joins it. -/
def State.forceSave (s : State) (id : Nat) : State :=
  match s.crew? id with
  | none => s
  | some c =>
    if c.save.isSome then s
    else s.beginSave c { base := c.ctxarea, forced := true, warp := 0, lanes := 0, status := .absent, discarded := 0 }

/-- PREEMPT_DEADLINE_EXPIRY: REMAIN of a crew with an open request has reached 0. -/
def execPreemptDeadlineExpiry (crew : Nat) (s : State) : Host.Outcome State Fault Refusal :=
  .next <|
    match s.crew? crew with
    | some c => if c.pend ∧ c.remain = 0 then s.forceSave crew else s
    | none => s

/-! ### Writing the area (R484, R488) -/

/-- Whether nothing of a captured crew is still to settle. -/
def State.saveSettled (s : State) (c : Crew) : Bool :=
  !(s.ops.any fun o => o.countsFor c.id) && !(s.arrivals.any fun a => a.crew == c.id) && c.warps.all fun w => w.sigs.isEmpty

/-- A save is abandoned: the crew goes on. -/
def State.abandonSave (s : State) (c : Crew) (sv : SaveSt) : State :=
  ((s.saveFault c sv.base).saveStatus c.id sv 2).setCrew c.id fun c => { c with save := none, pend := false }

/-- A cluster none of whose crews is resident any more leaves its rectangle. -/
def State.leaveRect (s : State) (launch : Nat) (cluster : Word) : State :=
  if s.crews.any fun c => c.kind == .launch && c.launch == launch && c.cluster == cluster then s
  else s.setLaunch launch fun l => { l with live := l.live.filter fun k => k.index != cluster.toNat }

/-- A save is complete: the save list has it, and the crew's resources are released. -/
def State.completeSave (s : State) (c : Crew) (sv : SaveSt) : State :=
  let s := s.setLaunch c.launch fun l =>
    { l with saves := (l.saves.filter fun r => r.base != sv.base) ++ [⟨sv.base, c.core, sv.forced, c.kind, c.taskid, c.latePoison⟩] }
  let s :=
    match c.kind with
    | .task die _ =>
      s.setDie die fun d => { d with tasks := updWhere (fun t => t.crew == some c.id) (fun t => { t with crew := none }) d.tasks }
    | _ => s
  (s.dropCrew c.id).leaveRect c.launch c.cluster

/-- CONTEXT_SAVE_WRITE: the area of a captured crew is written. With `writeFails` a write meets a lasting error: word 0 of
the header reads 0, and which other bytes were written before it is left open. -/
def execContextSaveWrite (crew : Nat) (writeFails : Bool) (s : State) : Host.Outcome State Fault Refusal :=
  .next <|
    match s.crew? crew with
    | none => s
    | some c =>
      match c.save with
      | none => s
      | some sv =>
        if !s.saveSettled c then s
        else
          match s.reach (s.saveWho c) sv.base.toNat c.area.size true { w := true } with
          | (s, .error (.recall h share)) => s.startRecall h share
          | (s, .error .later) => s
          | (s, .error (.park d r)) => State.request requestFuel s d r 1
          | (s, .error _) => s.abandonSave c sv
          | (s, .ok ps) =>
            if writeFails then
              let s := s.writeParts ps (List.replicate c.area.size 0)
              let s := ps.foldl (fun (s : State) (p : Part) => s.undefine p.key p.n) s
              (s.writeParts (ps.take 1) (leBytes 8 0)).abandonSave c sv
            else
              let s := s.saveStatus crew sv 1
              match s.crew? crew with
              | some c => (s.writeParts ps (s.areaBytes c sv)).completeSave c sv
              | none => s

/-! ### CTXLOAD (R491) -/

/-- CTXLOAD: the load word and the area. -/
def execCtxload (f : Fields) (s : State) : Host.Outcome State Fault Refusal :=
  withIssue (.ctxload f) s fun I =>
    I.acceptOp { I.newOp f.c f.e with args := [BitVec.ofNat 64 (I.read I.low f.d 64), BitVec.ofNat 64 (I.read I.low f.a 64)] }

/-- Word n of bytes. -/
def areaWord (bs : List Byte) (off : Nat) : Nat := leNat ((bs.drop off).take 8)

/-- What a header says. -/
structure Header where
  valid   : Bool
  format  : Nat
  size    : Nat
  launch  : Nat
  cluster : Word
  index   : Nat
  stage   : Nat
  rect    : Nat × Nat
  dxy     : Nat × Nat
  dims    : Nat × Nat × Nat
  area    : AreaDims
  bars    : Nat
  shapes  : Nat
  core    : Nat
  deriving DecidableEq, Repr

/-- A header read from its words. -/
def headerOf (bs : List Byte) : Header :=
  let w (n : Nat) : Nat := areaWord bs (8 * n)
  { valid := bitNat (w 0) 63, format := bitsNat (w 0) 47 32, size := bitsNat (w 0) 31 0, launch := bitsNat (w 1) 31 0
    cluster := BitVec.ofNat 32 (bitsNat (w 2) 63 32), index := bitsNat (w 2) 31 26, stage := bitsNat (w 2) 25 23
    rect := (bitsNat (w 2) 19 18 + 1, bitsNat (w 2) 17 16 + 1), dxy := (bitsNat (w 2) 15 14, bitsNat (w 2) 13 12)
    dims := (bitsNat (w 3) 63 54 + 1, bitsNat (w 3) 53 44 + 1, bitsNat (w 3) 43 34 + 1)
    area := ⟨bitsNat (w 3) 33 28, (bitsNat (w 3) 27 23 + 1) * 8, bitsNat (w 3) 22 16, bitsNat (w 3) 15 11, bitsNat (w 3) 7 0 * 4096⟩
    bars := bitsNat (w 4) 37 32, shapes := bitsNat (w 4) 28 24, core := bitsNat (w 5) 63 56 }

/-- What the crew of a header takes from its core. -/
def Header.needs (h : Header) : Needs :=
  { warps := h.area.w, rf := h.area.w * 32 * h.area.v * 4, csm := h.area.c, slots := h.area.q, accs := h.area.a
    shapes := h.shapes, bars := h.bars }

/-- Where a crew is loaded: the issuing core and the place of the rectangle's top-left core, or a corner that Javatra
names (18 R502). -/
def loadCorner (core place : Nat) : Option (Nat × Nat) := (coreAt core (placeXY place).1 (placeXY place).2).map coreXY

/-- The module core of a header's crew in a rectangle at a corner of a die. -/
def Header.coreAt (h : Header) (die : Nat) (corner : Nat × Nat) : Nat := 96 * die + (corner.2 + h.dxy.2) * 8 + corner.1 + h.dxy.1

/-- Whether a header's rectangle at a corner lies in the die grid, with the crew's core within it. -/
def Header.fits (h : Header) (corner : Nat × Nat) : Bool :=
  corner.1 + h.rect.1 ≤ 8 && corner.2 + h.rect.2 ≤ 12 && h.dxy.1 < h.rect.1 && h.dxy.2 < h.rect.2

/-- The entry of a launch's save list for an area. -/
def State.saveRec (s : State) (launch : Nat) (base : Nat) : Option SaveRec :=
  (s.launch? launch).bind fun l => l.saves.find? fun r => r.base.toNat == base

/-- Whether the crew of an area is one of the launch's clusters, and not of a bin or of a task (R500). -/
def State.isClusterArea (s : State) (h : Header) (base : Nat) : Bool :=
  match s.saveRec h.launch base with
  | some r => r.origin == .launch
  | none => h.cluster != 0xFFFFFFFF

/-- Whether a launch still runs or can run again. -/
def Launch.alive (l : Launch) : Bool := match l.st with | .ending _ _ => false | _ => true

/-- The checks of cause 12 (R491; R500): `word` is the load word. -/
def State.loadRefused (s : State) (h : Header) (base word : Nat) (die : Nat) (corner : Option (Nat × Nat)) : Bool :=
  word / 2 ^ 9 != 0 || !h.valid || h.format != 2 || h.size < h.area.size ||
  !(((s.launch? h.launch).map Launch.alive).getD false) ||
  (match corner with
   | none => true
   | some k => !h.fits k || (!s.isClusterArea h base && h.coreAt die k != h.core))

/-- The saved warp slots of an area. -/
def savedSlots (bs : List Byte) (d : AreaDims) : List Nat := (List.range d.w).map fun w => areaWord bs (d.at 1 + 1024 * w + 888) % 64

/-- The cores of a rectangle at a corner of a die. -/
def rectAt (die : Nat) (corner rect : Nat × Nat) : List Nat :=
  (List.range rect.2).flatMap fun y => (List.range rect.1).map fun x => 96 * die + (corner.2 + y) * 8 + corner.1 + x

/-- Whether a core is held by a cluster. -/
def State.heldBy (s : State) (core : Nat) (p : Launch → Cluster → Bool) : Bool :=
  s.launches.any fun l => l.live.any fun k => p l k && (rectAt k.die k.corner l.rect).contains core

/-- Whether a cluster already holds its rectangle at a corner. -/
def State.rectHeld (s : State) (launch die : Nat) (cluster : Word) (corner : Nat × Nat) : Bool :=
  ((s.launch? launch).map fun l => l.live.any fun k => k.index == cluster.toNat && k.die == die && k.corner == corner).getD false

/-- Whether the rectangle and the grants of a crew are free. A crew of a bin or of a task needs its own warp slots again, by
which its local areas are named (18 R500). -/
def State.loadRoom (s : State) (h : Header) (cluster : Bool) (die : Nat) (corner : Nat × Nat) (slots : List Nat) : Bool :=
  let core := h.coreAt die corner
  s.dieServes die && s.hasRoom core h.needs &&
  (if cluster then
     s.rectHeld h.launch die h.cluster corner ||
     (rectAt die corner h.rect).all fun k => !s.heldBy k fun _ _ => true
   else slots.all fun x => !(s.slotsTaken core).contains x)

/-! ### Reading the sections -/

/-- A token record from its word: a PENDING one gets a fresh binding. -/
def tokOfWord (x bind : Nat) : TokRec :=
  { st := match x % 4 with | 0 => .free | 1 => .pending | 2 => .done | _ => .poisoned
    cause := BitVec.ofNat 6 (bitsNat x 7 2), soft := bitNat x 8, origin := BitVec.ofNat 32 (bitsNat x 63 32), bind }

/-- A thread from its record at an offset, its RES0 bits 0 (00 R6); `join` tells which join point it waits in. -/
def threadOf (bs : List Byte) (off regs : Nat) (join : Nat) : Thread :=
  let w (n : Nat) : Nat := areaWord bs (off + 4 * regs + 8 * n)
  let w7 := w 7
  { run := match bitsNat w7 55 53 with
      | 0 => .running | 1 => .join join | 2 => .barrier (bitsNat w7 60 56) (bitNat w7 61) | 3 => .held | 4 => .halted
      | 5 => .ended | _ => .absent
    pc := BitVec.ofNat 57 (w 0), preds := BitVec.ofNat 8 w7
    v := (List.range regs).map fun r => BitVec.ofNat 32 (leNat ((bs.drop (off + 4 * r)).take 4))
    ix := (List.range 4).map fun k => BitVec.ofNat 8 (w7 / 2 ^ (8 + 8 * k))
    csp := BitVec.ofNat 32 (w 6), fflags := BitVec.ofNat 5 (w 6 / 2 ^ 32), fenv := BitVec.ofNat 13 (clearRes0 0x081 (w 6 / 2 ^ 40))
    tcause := BitVec.ofNat 64 (clearRes0 0x150 (w 2)), tpc := BitVec.ofNat 57 (w 1), tpc0 := BitVec.ofNat 57 (w 1)
    taddr := BitVec.ofNat 64 (w 3), tmode := BitVec.ofNat 13 (clearRes0 0x153 (w7 / 2 ^ 40)), tscr0 := BitVec.ofNat 64 (w 4)
    tscr1 := BitVec.ofNat 64 (w 5), heldWatchdog := bitNat w7 63, heldPreempt := bitNat w7 62 }

/-- A warp from its record and its thread records. -/
def warpOf (bs : List Byte) (d : AreaDims) (k slot bind : Nat) : Warp :=
  let off := d.at 1 + 1024 * k
  let w (n : Nat) : Nat := areaWord bs (off + n)
  let joins : List Join := (List.range 8).map fun n =>
    { member := BitVec.ofNat 32 (w (768 + 8 * n)), waiting := BitVec.ofNat 32 (w (768 + 8 * n) / 2 ^ 32) }
  { slot
    threads := (List.range 32).map fun l =>
      threadOf bs (d.at 2 + (32 * k + l) * (4 * d.v + 64)) d.v ((indexOf (fun (j : Join) => j.waiting.getLsbD l) joins).getD 0)
    toks := (List.range 32).map fun t => tokOfWord (w (8 * t)) (bind + t)
    u := (List.range 64).map fun n => BitVec.ofNat 64 (w (256 + 8 * n))
    joins, part := BitVec.ofNat 3 (w 832), tstat := BitVec.ofNat 64 (clearRes0 0x010 (w 840)), ptrap := bitNat (w 848) 0, wdtrap := bitNat (w 848) 1
    wdCount := BitVec.ofNat 32 (w 856 / 2 ^ 32), wdLimit := BitVec.ofNat 5 (w 856), nbv := BitVec.ofNat 2 (w 864)
    heldL := BitVec.ofNat 32 (w 872), waitFor := BitVec.ofNat 32 (w 872 / 2 ^ 32) }

/-- A named barrier from its word. -/
def barOf (x : Nat) : Bar :=
  { expect := bitsNat x 10 0, arrived := bitsNat x 26 16, phase := bitNat x 32, poison := bitNat x 33, lastPoison := bitNat x 34 }

/-- An accumulator from its section at an offset. -/
def accOf (bs : List Byte) (off : Nat) : Option AccTile :=
  let x := areaWord bs off
  if !bitNat x 31 then none
  else
    let fmt : AccFmt := match bitsNat x 30 28 with | 0 => .f64 | 1 => .f32 | 2 => .acc40 | _ => .ia40
    let mc := (dimOfCode (bitsNat x 25 24)).getD .d16
    let nc := (dimOfCode (bitsNat x 27 26)).getD .d16
    some { fmt, mc, nc, flags := BitVec.ofNat 6 x
           elems := (List.range (dimSize mc)).flatMap fun i => (List.range (dimSize nc)).map fun j =>
             BitVec.ofNat 64 (areaWord bs (off + 64 + 8 * (64 * i + j))) }

/-- The crew of an area. -/
def State.crewOf (s : State) (bs : List Byte) (h : Header) (l : Launch) (r : Option SaveRec) (die : Nat) (corner : Nat × Nat)
    (slots : List Nat) (go : Bool) : Crew :=
  let d := h.area
  let shape (n : Nat) : Option (BitVec 512) :=
    let x := leNat ((bs.drop (d.at 4 + 64 * n)).take 64)
    if x = 0 then none else some (BitVec.ofNat 512 x)
  let cells (off n : Nat) : List Host.Cell := (List.range n).map fun k => (k, bs.getD (off + k) 0)
  let core := h.coreAt die corner
  { id := s.nextId, launch := h.launch
    kind := match r with | some r => r.origin | none => if h.cluster = 0xFFFFFFFF then .bin core 0 else .launch
    core, cluster := h.cluster, index := h.index, stage := h.stage, dims := h.dims, regs := d.v, csmSize := d.c, slots := d.q
    accs := d.a, shapesN := h.shapes, barsN := h.bars, corner, rect := h.rect, argp := l.argp, lsize := l.lsize
    warps := slots.mapIdx fun k slot => warpOf bs d k slot (s.nextId + 1 + 32 * k)
    csm := cells (d.at 7) d.c
    full := (List.range (d.c / 16)).filter fun g => bitNat (bs.getD (d.at 8 + g / 8) 0).toNat (g % 8)
    bars := (List.range h.bars).map fun n => barOf (areaWord bs (d.at 3 + 8 * n))
    shapes := (List.range h.shapes).map shape
    acc := (List.range d.a).map fun n => accOf bs (d.at 5 + 32832 * n)
    ops := (List.range d.q).flatMap fun q => (List.range 4096).map fun k => (4096 * q + k, bs.getD (d.at 6 + 4608 * q + k) 0)
    side := (List.range d.q).flatMap fun q => (List.range 128).map fun k =>
      (128 * q + k, BitVec.ofNat 24 (leNat ((bs.drop (d.at 6 + 4608 * q + 4096 + 4 * k)).take 4)))
    coop := l.coop, ctxarea := l.ctxarea, taskid := (r.map SaveRec.taskid).getD 0, latePoison := r.bind SaveRec.latePoison, heldLoad := !go }

/-- The crew is resident: its rectangle is held for its cluster, its area leaves the save list, its task has it again, and
with GO it and the crews of its cluster that were loaded held start. -/
def State.placeLoaded (s : State) (c : Crew) (base die : Nat) : State :=
  let s : State := { s with nextId := s.nextId + 1 + 32 * c.warps.length, crews := s.crews ++ [c] }
  let s := s.setLaunch c.launch fun l =>
    let saves := l.saves.filter fun r => r.base.toNat != base
    { l with
      saves
      st := if saves.isEmpty ∧ l.st = .preempted then .running else l.st
      live :=
        if c.kind != .launch || s.rectHeld c.launch die c.cluster c.corner then l.live
        else l.live ++ [⟨c.cluster.toNat, die, c.corner⟩] }
  let s :=
    match c.kind with
    | .task d e =>
      s.setDie d fun x =>
        { x with tasks := updWhere (fun t => t.entry == e && t.launch == c.launch && t.crew.isNone && t.st == .running) (fun t => { t with crew := some c.id }) x.tasks }
    | _ => s
  if c.heldLoad then s
  else
    { s with crews := s.crews.map fun x =>
        if x.launch == c.launch && x.cluster == c.cluster && x.corner == c.corner && x.core / 96 == c.core / 96 && x.kind == c.kind
        then { x with heldLoad := false } else x }

/-- How a load of an area ended, for CTXLOAD and for LAUNCHCTL.resume. -/
inductive Load
  | loaded
  | fails (cause : BitVec 6) (origin : Option Word)
  /-- It cannot go on yet: what stopped it at the home. -/
  | stops (g : Gate)
  | noRoom
  deriving Repr

/-- The header of an area, or what stops its read. -/
def State.readHeader (s : State) (w : Who) (base : Nat) : State × Except Gate Header :=
  match s.reach w base 256 false { r := true } with
  | (s, .ok ps) => (s, .ok (headerOf (s.readParts ps)))
  | (s, .error g) => (s, .error g)

/-- The grant and the load of an area (R491): room, the act on VALID at the home, then the sections. -/
def State.loadArea (s : State) (w : Who) (base : Nat) (h : Header) (die : Nat) (corner : Nat × Nat) (go readFails : Bool) :
    State × Load :=
  match s.reach w base h.area.size false { r := true } with
  | (s, .error g) => (s, .stops g)
  | (s, .ok ps) =>
    let bs := s.readParts ps
    let cluster := s.isClusterArea h base
    let saved := savedSlots bs h.area
    if !s.loadRoom h cluster die corner saved then (s, .noRoom)
    else
      let now := headerOf bs
      if !now.valid then (s, .fails 12 none)
      else
        match s.reach w base 8 true { r := true, w := true } with
        | (s, .error g) => (s, .stops g)
        | (s, .ok v) =>
          let s := s.writeParts v (leBytes 8 (areaWord bs 0 - 2 ^ 63))
          if readFails then (s, .fails 2 none)
          else
            match s.launch? h.launch with
            | none => (s, .fails 12 none)
            | some l =>
              let core := h.coreAt die corner
              let taken := s.slotsTaken core
              let slots := if cluster then placeWarps h.area.w taken (emptiestQuadrant taken) else saved
              (s.placeLoaded (s.crewOf bs h l (s.saveRec h.launch base) die corner slots go) base die, .loaded)

/-- A CTXLOAD starts: the checks, then its request to the dispatcher, whose arrival number is its third argument. -/
def State.runCtxload (s : State) (o : Op) : State :=
  let base := o.arg 1
  match o.fail with
  | some (c, g) => s.settle o.id (.poisoned c g)
  | none =>
    if 2 ^ 57 ≤ base then s.poisonOp o.id 3
    else if base % 4096 ≠ 0 then s.poisonOp o.id 15
    else
      match s.readHeader (s.opWho o .seq) base with
      | (s, .error g) =>
        let s := s.stopOp o.id (s.opWho o .seq) accRead false g
        match (s.op? o.id).bind Op.fail with
        | some (c, g) => s.settle o.id (.poisoned c g)
        | none => s
      | (s, .ok h) =>
        if s.loadRefused h base (o.arg 0) (dieOfCore o.core) (loadCorner o.core (o.arg 0 % 256)) then s.poisonOp o.id 12
        else
          { (s.setOp o.id fun o => { o with args := o.args.take 2 ++ [BitVec.ofNat 64 s.nextId], wait := .grant }) with
            nextId := s.nextId + 1 }

/-- The grant of a waiting CTXLOAD, if it can be made: its request is withdrawn when the load ends. -/
def State.grantCtxload (s : State) (o : Op) (readFails : Bool) : State × Bool :=
  let base := o.arg 1
  let die := dieOfCore o.core
  let w := s.opWho o .seq
  let stop (s : State) (g : Gate) : State × Bool :=
    let s := s.stopOp o.id w accRead false g
    match (s.op? o.id).bind Op.fail with
    | some (c, g) => (s.settle o.id (.poisoned c g), false)
    | none => (s.setOp o.id fun o => { o with wait := .grant }, false)
  match s.readHeader w base, loadCorner o.core (o.arg 0 % 256) with
  | (s, .error g), _ => stop s g
  | (s, .ok _), none => (s.poisonOp o.id 12, false)
  | (s, .ok h), some corner =>
    if s.loadRefused h base (o.arg 0) die (some corner) then (s.poisonOp o.id 12, false)
    else
      match s.loadArea w base h die corner (bitNat (o.arg 0) 8) readFails with
      | (s, .loaded) => (s.finish o.id, true)
      | (s, .fails c g) => (s.settle o.id (.poisoned c (g.getD o.origin)), true)
      | (s, .stops g) => stop s g
      | (s, .noRoom) => (s, false)

end Sys2Proof.Machine
end

