-- ==== Sys2Proof/Machine/Grant.lean ====
section
/-! DEFINITION. The dispatchers of the two dies (01 R22-R24, R29-R37; 13 R378, R394; 17 R491): which source is served next,
where a cluster goes, and the crews that a grant makes; then the release of crews (01 R33). -/

namespace Sys2Proof.Machine

/-! ### The crews of a cluster (01 R23) -/

/-- One crew of a cluster: its stage and its core's offset in the rectangle. -/
structure Seat where
  stage : Nat
  dx    : Nat
  dy    : Nat
  deriving DecidableEq, Repr

/-- Byte s of a stage map. -/
def stageByte (stages : DWord) (st : Nat) : Nat := bitsNat stages.toNat (8 * st + 7) (8 * st)

/-- The crews of a cluster in `%crew` order. -/
def Launch.seats (l : Launch) : List Seat :=
  if l.stages = 0 then
    (List.range l.rect.2).flatMap fun y => (List.range l.rect.1).map fun x => ⟨0, x, y⟩
  else
    (List.range 8).flatMap fun st =>
      let b := stageByte l.stages st
      if bitNat b 7 then List.replicate (bitsNat b 6 4 + 1) ⟨st, bitsNat b 1 0, bitsNat b 3 2⟩ else []

/-- What the crews of a cluster take from the core at an offset. -/
def Launch.needsAt (l : Launch) (dx dy : Nat) : Needs :=
  l.needs.times (l.seats.filter fun t => t.dx == dx && t.dy == dy).length

/-! ### Placing a rectangle (01 R29, R30) -/

/-- Whether a cluster of a launch fits at a corner of a die. -/
def State.fitsAt (s : State) (l : Launch) (die x y : Nat) : Bool :=
  x + l.rect.1 ≤ 8 && y + l.rect.2 ≤ 12 &&
  (List.range l.rect.2).all fun dy => (List.range l.rect.1).all fun dx =>
    let core := 96 * die + (y + dy) * 8 + x + dx
    !(s.heldBy core fun _ _ => true) && s.hasRoom core (l.needsAt dx dy)

/-- The first corner of a die at which a cluster fits, in row-major order. -/
def State.cornerOn (s : State) (l : Launch) (die : Nat) : Option (Nat × Nat) :=
  if !s.dieServes die then none
  else ((List.range 96).map fun k => (k % 8, k / 8)).find? fun c => s.fitsAt l die c.1 c.2

/-- The pages of a placement entry that lie in a die's HBM4E. -/
def State.pagesOn (s : State) (asid : Nat) (va : VAddr) (n die : Nat) : Nat :=
  ((List.range n).filter fun k =>
    match s.walk asid (va.toNat + 4096 * k) with
    | .ok t =>
      match placeOf (t.pa (va.toNat + 4096 * k)) with
      | .hbm o _ => o / 2 ^ 38 == die
      | _ => false
    | _ => false).length

/-- The pages that a cluster's map lists on a die. -/
def State.mapPages (s : State) (l : Launch) (cluster die : Nat) : Nat :=
  ((l.placement.filter fun e => e.2.2 = 0xFFFFFFFF ∨ e.2.2.toNat = cluster).map fun e => s.pagesOn l.asid e.1 e.2.1 die).foldl (· + ·) 0

/-- How many cores of a die no cluster holds. -/
def State.freeCores (s : State) (die : Nat) : Nat := ((dieCores die).filter fun k => !(s.heldBy k fun _ _ => true)).length

/-- The preferred die of a cluster. The rule has it worked out when the cluster is ready for dispatch; the model works it out at each
attempt to grant it, from what then holds (DESIGN CHOICE, log 15). -/
def State.preferredDie (s : State) (l : Launch) (cluster : Nat) : Nat :=
  if l.placement.isEmpty then cluster % 2
  else
    let a := s.mapPages l cluster 0
    let b := s.mapPages l cluster 1
    if a < b then 1 else if b < a then 0 else if s.freeCores 0 < s.freeCores 1 then 1 else 0

/-- Where a cluster goes now: its preferred die, otherwise the other. -/
def State.placeCluster (s : State) (l : Launch) (cluster : Nat) : Option (Nat × Nat × Nat) :=
  let d := s.preferredDie l cluster
  match s.cornerOn l d with
  | some k => some (d, k)
  | none => (s.cornerOn l (1 - d)).map fun k => (1 - d, k)

/-- A cluster is dispatched: its rectangle is held and its crews are made (01 R22, R23). -/
def State.startCluster (s : State) (num cluster die : Nat) (corner : Nat × Nat) : State :=
  match s.launch? num with
  | none => s
  | some l =>
    let s := s.setLaunch num fun l => { l with live := l.live ++ [⟨cluster, die, corner⟩], nextCl := cluster + 1, req := s.nextId }
    let s : State := { s with nextId := s.nextId + 1 }
    (l.seats.zip (List.range l.seats.length)).foldl (fun (s : State) (p : Seat × Nat) =>
      s.makeCrew
        { launch := l, kind := .launch, core := 96 * die + (corner.2 + p.1.dy) * 8 + corner.1 + p.1.dx
          cluster := BitVec.ofNat 32 cluster, index := p.2, stage := p.1.stage, dims := l.dims, regs := l.regs
          needs := l.needs, corner, rect := l.rect, nbv := l.nbv } l.entry) s

/-- All clusters of a launch from one on, placed one after the other; none when one does not fit (01 R24). -/
def State.startAll : Nat → State → Nat → Nat → Option State
  | 0, _, _, _ => none
  | fuel + 1, s, num, cluster =>
    match s.launch? num with
    | none => none
    | some l =>
      if l.clusters ≤ cluster then some s
      else (s.placeCluster l cluster).bind fun p => State.startAll fuel (s.startCluster num cluster p.1 p.2) num (cluster + 1)

/-! ### Requests of the host-launch source (01 R35) -/

/-- A request of the host-launch source. -/
inductive HostReq
  | cluster (launch : Nat)
  | load (op : Nat)
  deriving DecidableEq, Repr

/-- Whether a launch asks for its next cluster. -/
def Launch.asks (l : Launch) : Bool := l.st == .running && l.nextCl < l.clusters

/-- The requests that a die's dispatcher holds in this source, each with its arrival number. -/
def State.hostReqs (s : State) (die : Nat) : List (Nat × HostReq) :=
  ((s.launches.filter fun l => l.asks && (!l.cor || die == 0)).map fun l => (l.req, .cluster l.num)) ++
  (s.ops.filter fun o => o.wait == .grant && dieOfCore o.core == die).map fun o => (o.arg 2, .load o.id)

/-- The request with the lowest number. -/
def earliest {α : Type} : List (Nat × α) → Option (Nat × α)
  | [] => none
  | x :: xs => some (xs.foldl (fun b y => if y.1 < b.1 then y else b) x)

/-- The request that is next. -/
def State.hostHead (s : State) (die : Nat) : Option HostReq := (earliest (s.hostReqs die)).map Prod.snd

/-- Whether a waiting CTXLOAD could be granted now: there is room for it, or nothing left to wait for. -/
def State.loadReady (s : State) (o : Op) : Bool :=
  let base := o.arg 1
  let die := dieOfCore o.core
  let corner := loadCorner o.core (o.arg 0 % 256)
  match (s.readHeader (s.opWho o .seq) base).2, corner with
  | .error (.fail _ _), _ | .error (.fault _ _ _ _), _ | .ok _, none => true
  | .error _, _ => false
  | .ok h, some k =>
    s.loadRefused h base (o.arg 0) die (some k) ||
    (match (s.reach (s.opWho o .seq) base h.area.size false { r := true }).2 with
     | .ok ps => s.loadRoom h (s.isClusterArea h base) die k (savedSlots (s.readParts ps) h.area)
     | .error (.fail _ _) | .error (.fault _ _ _ _) => true
     | .error _ => false)

/-- Whether a die's dispatcher could grant a request now. -/
def State.hostReady (s : State) (die : Nat) : HostReq → Bool
  | .cluster n =>
    match s.launch? n with
    | none => false
    | some l =>
      if l.cor then (State.startAll 200 s n 0).isSome
      else ((s.placeCluster l l.nextCl).map fun p => p.1 == die).getD false
  | .load id => ((s.op? id).map fun o => s.loadReady o).getD false

/-! ### Tasks (13 R394) -/

/-- PRIO of a task as the dispatcher treats it. -/
def Task.prio (t : Task) : Nat := if 64 ≤ t.passes then 3 else bitsNat (descWord t.desc 1) 54 53

/-- The READY task that is chosen: the highest PRIO, then the one entered first. -/
def pickTask (ts : List Task) : Option Task :=
  (ts.filter fun t => t.st == .ready).foldl (fun (b : Option Task) t =>
    match b with
    | none => some t
    | some x => if x.prio < t.prio ∨ (x.prio = t.prio ∧ t.seq < x.seq) then some t else some x) none

/-- Whether a launch gives out new crews. -/
def State.launchRuns (s : State) (n : Nat) : Bool := ((s.launch? n).map fun l => l.st == .running).getD false

/-- The chosen task of a die: once it has been chosen it stays so until it is dispatched. -/
def State.chosenTask (s : State) (die : Nat) : Option Task :=
  let ts := (s.die die).tasks.filter fun t => s.launchRuns t.launch
  match (s.die die).chosen.bind fun q => ts.find? fun t => t.seq == q && t.st == .ready with
  | some t => some t
  | none => pickTask ts

/-- The core that takes a task's crew: the first of the die with room. -/
def State.taskCore (s : State) (die : Nat) (t : Task) : Option Nat :=
  if s.dieServes die then (dieCores die).find? fun k => s.hasRoom k (descNeeds (descWord t.desc 1)) else none

/-! ### Bins (13 R378; 01 R37) -/

/-- Whether a bin asks for a warp. -/
def State.binAsks (s : State) (b : Bin) : Bool :=
  (b.st == .forming || b.st == .draining) && !b.recs.isEmpty && s.launchRuns b.owner

/-- The bin that is next on a core: round-robin after the one served last. -/
def State.nextBin (s : State) (core : Nat) : Option Nat :=
  ((List.range 16).map fun k => ((s.core core).binLast + 1 + k) % 16).find? fun b => s.binAsks (s.bin core b)

/-- The core and bin whose turn it is on a die: the core whose request came first. -/
def State.binHead (s : State) (die : Nat) : Option (Nat × Nat) :=
  let reqs := (dieCores die).flatMap fun k => ((s.core k).bins.filter fun b => s.binAsks b).map fun b => (b.req, k)
  (earliest reqs).bind fun p => (s.nextBin p.2).map fun b => (p.2, b)

/-- What a bin's warp takes. -/
def Bin.needs (b : Bin) : Needs := { threadNeeds (min 32 b.recs.length) b.regs with csm := b.csm }

/-! ### Round-robin over the sources (01 R35, R37) -/

/-- Whether the head of a source could be granted. -/
def State.sourceReady (s : State) (die : Nat) : Source → Bool
  | .cluster => ((s.hostHead die).map fun r => s.hostReady die r).getD false
  | .task => ((s.chosenTask die).map fun t => (s.taskCore die t).isSome).getD false
  | .bin => ((s.binHead die).map fun p => s.dieServes die && s.hasRoom p.1 (s.bin p.1 p.2).needs).getD false

/-- The source after a source. -/
def Source.next : Source → Source
  | .cluster => .task
  | .task => .bin
  | .bin => .cluster

/-- Whether it is a source's turn: it could be granted, and no source between the one served last and it could. -/
def State.turnOf (s : State) (die : Nat) (x : Source) : Bool :=
  let a := (s.die die).served.next
  let b := a.next
  s.sourceReady die x &&
  (x == a || (!s.sourceReady die a && (x == b || !s.sourceReady die b)))

/-- A grant of a source. -/
def State.noteServed (s : State) (die : Nat) (x : Source) : State := s.setDie die fun d => { d with served := x }

/-! ### The grants -/

/-- CLUSTER_DISPATCH: the dispatcher of a die grants the cluster at the head of its host-launch source. -/
def execClusterDispatch (die : Nat) (s : State) : Host.Outcome State Fault Refusal :=
  .next <|
    match s.hostHead die with
    | some (.cluster n) =>
      match s.launch? n with
      | none => s
      | some l =>
        if l.cor || !s.turnOf die .cluster then s
        else
          match s.placeCluster l l.nextCl with
          | some (d, k) => (s.startCluster n l.nextCl d k).noteServed die .cluster
          | none => s
    | _ => s

/-- CORESIDENT_LAUNCH_GRANT: die 0's dispatcher grants every cluster of a launch at once (01 R24). -/
def execCoresidentLaunchGrant (s : State) : Host.Outcome State Fault Refusal :=
  .next <|
    match s.hostHead 0 with
    | some (.cluster n) =>
      match s.launch? n with
      | none => s
      | some l =>
        if !l.cor || !s.turnOf 0 .cluster then s
        else ((State.startAll 200 s n 0).map fun t => t.noteServed 0 .cluster).getD s
    | _ => s

/-- CTXLOAD_GRANT (17 R491). With `readFails` a section meets a lasting error. -/
def execCtxloadGrant (op : Nat) (readFails : Bool) (s : State) : Host.Outcome State Fault Refusal :=
  .next <|
    match s.op? op with
    | none => s
    | some o =>
      let die := dieOfCore o.core
      if o.wait ≠ .grant ∨ s.hostHead die ≠ some (.load op) then s
      else if s.turnOf die .cluster then
        let r := s.grantCtxload o readFails
        if r.2 then r.1.noteServed die .cluster else r.1
      else if s.loadReady o then s
      else (s.grantCtxload o readFails).1

/-- The crew of a task starts (13 R394). -/
def State.dispatchTask (s : State) (die : Nat) (t : Task) (core : Nat) : State :=
  match s.launch? t.launch with
  | none => s
  | some l =>
    let w := descWord t.desc 1
    let entry : VAddr := BitVec.ofNat 57 (descWord t.desc 0)
    let st := s.stream die t.stream
    let taskid : Word := BitVec.ofNat 32 (2 ^ 31 + t.stream * 2 ^ 12 + t.entry)
    let gen := s.codeGen l.asid entry
    let id := s.nextId
    let s := s.makeCrew
      { launch := l, kind := .task die t.entry, core, dims := (descThreads w, 1, 1), regs := descRegs w, needs := descNeeds w
        corner := coreXY core, nbv := t.nbv, taskid
        u := taskRegs st.base (t.desc.getD 2 0) (t.desc.getD 3 0) (st.pick t.reads ++ st.pick t.writes) taskid } entry
    let s := s.setDie die fun d =>
      { d with
        chosen := none
        tasks := d.tasks.map fun x =>
          if x.seq = t.seq then { x with st := .running, crew := some id, codegen := gen }
          else if x.st = .ready ∧ x.prio < t.prio then { x with passes := x.passes + 1 } else x }
    s.markWriting die t

/-- TASK_DISPATCH: the chosen task keeps its turn while it waits for room. -/
def execTaskDispatch (die : Nat) (s : State) : Host.Outcome State Fault Refusal :=
  .next <|
    match s.chosenTask die with
    | none => s
    | some t =>
      match s.taskCore die t with
      | some core => if s.turnOf die .task then (s.dispatchTask die t core).noteServed die .task else s
      | none => s.setDie die fun d => { d with chosen := some t.seq }

/-- A bin after its oldest n records have left (13 R377). -/
def Bin.taken (b : Bin) (n req : Nat) : Bin :=
  let recs := b.recs.drop n
  match b.st with
  | .draining => if recs.isEmpty then {} else { b with recs := recs, req := req }
  | _ =>
    if recs.isEmpty then { b with recs := recs, st := .idle }
    else if 32 ≤ recs.length then { b with recs := recs, st := .forming, req := req }
    else { b with recs := recs, st := .holding }

/-- v0 to v3 of a thread from a record. -/
def recordRegs (v : List Word) (r : SpawnRec) : List Word := putRegs v 0 r.data.toNat 4

/-- A warp forms from the oldest records of a bin (13 R378). -/
def State.formWarp (s : State) (core n : Nat) (l : Launch) : State :=
  let b := s.bin core n
  let take := b.recs.take 32
  let id := s.nextId
  let s := s.makeCrew
    { launch := l, kind := .bin core n, core, dims := (take.length, 1, 1), regs := b.regs, needs := b.needs
      corner := coreXY core, nbv := l.nbv } b.entry
  let s := s.setWarp id 0 fun w =>
    { w with threads := w.threads.mapIdx fun k t => match take[k]? with | some r => { t with v := recordRegs t.v r } | none => t }
  let s := s.setCore core fun c => { c with binLast := n }
  { (s.setBin core n fun b => b.taken take.length s.nextId) with nextId := s.nextId + 1 }

/-- BIN_WARP_FORMATION. -/
def execBinWarpFormation (die : Nat) (s : State) : Host.Outcome State Fault Refusal :=
  .next <|
    match s.binHead die with
    | none => s
    | some (core, n) =>
      match s.launch? (s.bin core n).owner with
      | some l => if s.turnOf die .bin then (s.formWarp core n l).noteServed die .bin else s
      | none => s

/-! ### Release (01 R33) -/

/-- CREW_RELEASE: a launch's or a bin's crew has ended. The crews of tasks and recomputes go with their completion. -/
def execCrewRelease (crew : Nat) (s : State) : Host.Outcome State Fault Refusal :=
  .next <|
    match s.crew? crew with
    | none => s
    | some c =>
      if !s.crewEnded c then s
      else
        match c.kind with
        | .launch => (s.dropCrew crew).leaveRect c.launch c.cluster
        | .bin _ _ => s.dropCrew crew
        | _ => s

end Sys2Proof.Machine
end

