-- ==== Sys2Proof/Machine/Settle.lean ====
section
/-! DEFINITION. The events by which accepted operations start, go on and settle (04 R148-R162; 07 R232, R239; 10 R295;
11 R318-R327; 12 R350-R354), retries (01 R43-R46), the acts of the slice atomic units (15 R430, R431), and the events that
reach threads (01 R38; 04 R152, R156; 17 R474, R475). An event that is not due changes nothing. -/

namespace Sys2Proof.Machine

/-! ### Starting (04 R148) -/

/-- Whether a form arrives at a barrier all the same when its keyring is poisoned (04 R159, R160). -/
def arrivesAnyway : Instr → Bool
  | .texport .. | .pbarrive .. => true
  | _ => false

/-- Whether an operation acts on a phase barrier through a queue of a slice. -/
def isPhaseAct : Instr → Bool
  | .texport .. | .pbarrive .. | .pbinit .. => true
  | _ => false

/-- A phase-barrier operation goes on to its home slice, once what it must follow has performed. -/
def State.goPhase (s : State) (o : Op) : State :=
  if !isPhaseAct o.instr || !o.started || o.wait != .none || o.prog != 0 then s
  else
    match o.fail with
    | some (c, g) => s.failPhase o c (some g)
    | none => if s.mayPerform o then s.onTurn o fun s => s.sendPhase o else s

/-- A load with `.WAIT` whose keyring has settled begins to wait: waits are served in the order in which they began (03 R118). An
EMPTY latch makes it a progress point of its warp (01 R36). -/
def State.beginWait (s : State) (o : Op) : State :=
  if !waitsOnLatch o.instr then s
  else
    let s : State := { (s.setOp o.id fun o => { o with since := s.nextId }) with nextId := s.nextId + 1 }
    if s.latchEmpty o then s.setWarp o.crew o.warp Warp.progress else s

/-- The threads that wait in a load with `.WAIT` go on without their data and observe a poison. -/
def State.endLatchWait (s : State) (o : Op) (tok : Nat) (cause : BitVec 6) (origin : Word) : State :=
  let lanes := maskOf ((o.acc.filter fun a => !a.done).map LaneAcc.lane)
  let s := (s.dropOp o.id).leaveWait o.crew o.warp lanes
  s.observe o.crew o.warp (lanesOf lanes) tok cause origin

/-- A poisoned keyring stops an operation: cause 1 with the ORIGIN of its lowest POISONED token; a form that keeps its
threads waiting ends the wait, and they observe the token as SLEEP would (04 R162; 07 R239). -/
def State.stopPoisoned (s : State) (o : Op) (tok : Nat) (cause : BitVec 6) (origin : Word) : State :=
  match o.instr with
  | .pbwait .. =>
    if o.tok = 0 then s.endPbwait o (some (tok, cause, origin)) else s.settle o.id (.poisoned 1 origin)
  | _ => if o.blocks then s.endLatchWait o tok cause origin else s.settle o.id (.poisoned 1 origin)

/-- OPERATION_START: the keyring of an operation has settled. A TSUBMIT does not wait for its keyring, which gates its task
(13 R387); an operation of an MXE waits until it is the head of its queue (11 R318). -/
def execOperationStart (op : Nat) (s : State) : Host.Outcome State Fault Refusal :=
  .next <|
    match s.op? op with
    | none => s
    | some o =>
      match o.instr with
      | .tsubmit _ => s.wakeTasks (dieOfCore o.core)
      | _ =>
        if o.started then s.goPhase o
        else if !allSettled o.keys || (queueOf o.instr == some .mxe && (s.mxeHead o.core).map Op.id != some op) then s
        else
          let go : State :=
            let s := (s.setOp op fun o => { o with started := true }).beginWait o
            match s.op? op with | some o => s.goPhase o | none => s
          match firstPoison o.keys with
          | none => go
          | some (t, c, g) => if arrivesAnyway o.instr then go else s.stopPoisoned o t c g

/-! ### The lane memory engine (07 R232, R239, R246) -/

/-- PROMOTE inserts its fences, and completes when every access before them has performed (07 R246). -/
def State.runPromote (s : State) (o : Op) : State :=
  match o.targets with
  | [] => s.finish o.id
  | core :: _ =>
    if o.prog = 0 then
      let s := s.insertFences core (descOf o.instr)
      s.setOp o.id fun o => { o with prog := s.nextId }
    else if s.coreDrained core o.prog then s.finish o.id
    else s

/-- Whether the lanes of an operation of an LME queue perform each by itself, when nothing earlier holds that lane back. -/
def lanesAlone : Instr → Bool
  | .ld .. | .st .. | .lds _ .none | .sts _ | .latchSet _ | .latchClr _ | .atom .. | .red .. | .mdld _ | .mdst _
  | .ldloc _ | .stloc _ | .codeq _ => true
  | _ => false

/-- An operation of an LME queue goes on. -/
def State.goLme (s : State) (o : Op) : State :=
  if lanesAlone o.instr then s.runLme o
  else
    match o.instr with
    | .lds .. => match o.fail with | some (c, g) => s.endLatchWait o 0 c g | none => s
    | .cctlInv _ | .cctlInvall _ => s.finish o.id
    | .promote _ => if o.fail.isSome then s.completeLanes o.id else s.runPromote o
    | .codepub _ => s.runCodepub o
    | .cpatch _ ent => s.runCpatch o ent
    | .addrq f acc => s.runAddrq o f acc
    | .rgnsw _ mode => s.runRgnsw o mode
    | .ctxload _ => s.runCtxload o
    | _ => s

/-- LME_OPERATION_COMPLETE: a started operation of an LME queue performs and settles, or goes on as far as it can. -/
def execLmeOperationComplete (op : Nat) (s : State) : Host.Outcome State Fault Refusal :=
  .next <|
    match s.op? op with
    | none => s
    | some o =>
      if !o.started || o.wait != .none || !(lanesAlone o.instr || s.mayPerform o) then s
      else s.onTurn o fun s => s.goLme o

/-- LATCH_WAIT_SERVED: a lane of a waiting load finds its granule FULL, and no other lane has waited longer for it. -/
def execLatchWaitServed (op lane : Nat) (s : State) : Host.Outcome State Fault Refusal :=
  .next <|
    match s.op? op with
    | none => s
    | some o =>
      match o.instr, o.acc.find? fun a => a.lane == lane && !a.done with
      | .lds f mode, some a =>
        match s.laneGranule o a with
        | some g =>
          if mode != .none && o.started && s.mayPerformLane o lane && s.latchFull g.1 g.2 && !s.waitsLonger o a g then
            s.serveLatch o a f (mode == .clr)
          else s
        | none => s
      | _, _ => s

/-! ### The other engines -/

/-- PBWAIT_CONDITION_MET: a PBWAIT looks at its granule. -/
def execPbwaitConditionMet (op : Nat) (s : State) : Host.Outcome State Fault Refusal :=
  .next <|
    match s.op? op with
    | none => s
    | some o =>
      match o.instr with
      | .pbwait .. =>
        if !o.started || o.wait != .none || !s.mayPerform o then s
        else
          match o.fail with
          | some (c, g) => s.failPhase o c (some g)
          | none => s.onTurn o fun s => s.checkPbwait o
      | _ => s

/-- Whether a CPE operation can go on. -/
def State.cpeGoes (s : State) (o : Op) : Bool :=
  queueOf o.instr == some .cpe && (o.fail.isSome || (o.started && o.wait == .none && s.mayPerform o))

/-- CPE_OPERATION_SETTLE. -/
def execCpeOperationSettle (op : Nat) (s : State) : Host.Outcome State Fault Refusal :=
  .next <|
    match s.op? op with
    | some o => if s.cpeGoes o then s.onTurn o fun s => s.runCpe o else s
    | none => s

/-- MXE_OPERATION_START. -/
def execMxeOperationStart (core : Nat) (s : State) : Host.Outcome State Fault Refusal := .next (s.startMxe core)

/-- MXE_COMMIT: the operation that runs on a core's MXE. -/
def execMxeCommit (core : Nat) (s : State) : Host.Outcome State Fault Refusal :=
  .next <|
    match (s.core core).mxe with
    | .running id => match s.op? id with | some o => s.endMxe o | none => s
    | _ => s

/-- GANG_MEMBER_ACQUIRE. -/
def execGangMemberAcquire (core : Nat) (s : State) : Host.Outcome State Fault Refusal := .next (s.acquireMember core)

/-- GANG_SETTLE. -/
def execGangSettle (op : Nat) (s : State) : Host.Outcome State Fault Refusal :=
  .next <|
    match s.op? op with
    | some o => if isGang o.instr then s.endMxe o else s
    | none => s

/-- Whether a FAB operation, or a peer arrival, can go on; the lanes of a per-lane form are held back each by itself. -/
def State.fabGoes (s : State) (o : Op) : Bool :=
  settlesInFab o.instr && (o.fail.isSome || (o.started && o.wait == .none && (perLaneFab o.instr || s.mayPerform o)))

/-- FAB_OPERATION_SETTLE. -/
def execFabOperationSettle (op : Nat) (answer : FabAnswer) (s : State) : Host.Outcome State Fault Refusal :=
  .next <|
    match s.op? op with
    | some o => if s.fabGoes o then s.onTurn o fun s => s.runFab o answer else s
    | none => s

/-- A request of an operation that has gone to a peer is lost: resent once, then failed with an RCLASS. -/
def State.loseRequest (s : State) (op n r : Nat) : State :=
  match s.op? op with
  | some o => if s.fabGoes o && o.fail.isNone then s.resend o n r else s
  | none => s

/-- FAB_REQUEST_TIMEOUT of a request: the lane's, or its number as `State.requestOpen` counts them (12 R351). -/
def execFabRequestTimeout (op : FabRequest) (s : State) : Host.Outcome State Fault Refusal := .next (s.loseRequest op.op op.req 3)

/-- PEER_PACKET_ARRIVAL. -/
def execPeerPacketArrival (packet : PeerPacket) (s : State) : Host.Outcome State Fault Refusal := .next (s.packetArrives packet)

/-- PORT_OUT_OF_SERVICE: the port drops out of the choice; the requests in flight on it, by operation and number, are resent on
another, which is the one retry of each (12 R342, R369). -/
def execPortOutOfService (port : PortLoss) (s : State) : Host.Outcome State Fault Refusal :=
  .next <|
    let n := port.port
    if n < 18 ∧ s.ports.getLsbD n then
      port.inFlight.foldl (fun (s : State) x => s.loseRequest x.op x.req 0)
        ({ s with ports := s.ports &&& ~~~((1 : BitVec 18) <<< n) }.logErr 1 3 (dieOrigin .fab (if n < 9 then 0 else 1) 0) 0 0 (BitVec.ofNat 64 n))
    else s

/-- ENGINE_BARRIER_ARRIVAL: the first of those that are due, by sending core, ENGINE and acceptance (04 R138). -/
def execEngineBarrierArrival (s : State) : Host.Outcome State Fault Refusal :=
  .next <|
    match s.arrivals with
    | a :: rest => { s with arrivals := rest }.arrive a.crew a.bar 1 a.poison
    | [] => s

/-! ### The slice atomic units (15 R430, R431) -/

/-- The act of a lane's atomic. A stopped act, and one that a lower lane at its address has still to come before (07 R242), leaves its
queue; its operation sends it again when it goes on. -/
def State.actLane (s : State) (o : Op) (a : LaneAcc) : State :=
  let back (s : State) : State := s.setLane o.id a.lane fun b => { b with queued := false }
  if s.lowerFirst o (o.acc.filter fun b => b.lane < a.lane && !b.done && (engineOf o.instr != .fab || (o.leads b && s.laneLocal o b))) a then back s
  else
  match isSliceAtomic o.instr, fabAtomic o.instr with
  | some (f, op), _ =>
    match s.atomLane o a f op with
    | (s, .did x) =>
      (s.setLane o.id a.lane fun b => { b with done := true, result := BitVec.ofNat 128 x }).completeLanes o.id
    | (s, .stop acc replay g) => (back s).stopOp o.id (s.opWho o .lme) acc replay g
  | none, some (f, op) =>
    match s.fabAtomLane o a f op with
    | (s, .ok ()) => s.endFab o.id
    | (s, .error g) =>
      (((back s).stopFab o accAtomic g).laneFailed o.id a).endFab o.id
  | none, none => s

/-- One act is performed. -/
def State.doAct (s : State) : ActKind → State
  | .lane id l =>
    match s.op? id with
    | some o => if o.fail.isSome then s else match o.acc.find? fun a => a.lane == l && !a.done with | some a => s.actLane o a | none => s
    | none => s
  | .whole id =>
    match s.op? id with
    | some o => if isPhaseAct o.instr then s.actPhase o else s.actWindow o
    | none => s
  | .peer p => (s.actPacket p).drainPackets
  | .row op row piece => s.actRow op row piece

/-- The ports of a slice in the order in which its arbiter looks at them. -/
def Slice.portOrder (q : Slice) : List Nat := (List.range 8).map fun k => (q.next + k) % 8

/-- Whether the queue that an act goes to has room. -/
def Slice.hasRoom (q : Slice) (remote : Bool) : Bool := (if remote then q.remote else q.loc).length < 16

/-- The arbiter grants the head of the first port, in its turn, whose queue has room (01 R37; 15 R429, R430). -/
def Slice.grantOne (q : Slice) : Option Slice :=
  q.portOrder.findSome? fun p =>
    match q.ports.getD p [] with
    | (a, r) :: rest =>
      if q.hasRoom r then
        some { q with
          ports := q.ports.set p rest, next := (p + 1) % 8
          loc := if r then q.loc else q.loc ++ [a], remote := if r then q.remote ++ [a] else q.remote }
      else none
    | [] => none

/-- The arbiter grants what it can. -/
def Slice.grant : Nat → Slice → Slice
  | 0, q => q
  | n + 1, q => match q.grantOne with | some q => Slice.grant n q | none => q

/-- The act that a slice performs next, and the slice without it. -/
def Slice.pop (q : Slice) : Option (Act × Slice) :=
  match q.loc, q.remote with
  | [], [] => none
  | a :: rest, [] => some (a, { q with loc := rest })
  | [], b :: rest => some (b, { q with remote := rest })
  | a :: as, b :: bs =>
    if q.toggle then some (b, { q with remote := bs, toggle := false }) else some (a, { q with loc := as, toggle := true })

/-- ATOMIC_UNIT_ACT: the arbiter grants what waits at the ports, and the unit performs one act. -/
def execAtomicUnitAct (die slice : Nat) (s : State) : Host.Outcome State Fault Refusal :=
  .next <|
    match ((s.die die).slices[slice]?).bind fun q => (Slice.grant q.ports.flatten.length q).pop with
    | some (a, q) => (s.setDie die fun d => { d with slices := updAt slice (fun _ => q) d.slices }).doAct a.kind
    | none => s

/-! ### Retries (01 R43-R46) -/

/-- The address that an error log entry of an operation's unit names. -/
def Op.unitAddr (o : Op) (unit : Nat) : DWord :=
  match o.acc.find? fun a => a.lane == unit with
  | some a => a.addr
  | none => o.args.getD 0 0

/-- The core whose MXE makes the accesses of member `unit` of a multiply; its own for every other operation. -/
def State.unitCore (s : State) (o : Op) (unit : Nat) : Nat :=
  if queueOf o.instr = some .mxe then (((s.mmaMembers o)[unit]?).map Prod.fst).getD o.core else o.core

/-- A transient reread is counted where its engine counts it (10 R311; 11 R330, R339; 15 R449). -/
def State.countRetry (s : State) (o : Op) (unit : Nat) : State :=
  match queueOf o.instr with
  | some .cpe => s.setCore o.core fun c => { c with cpevt := c.cpevt + 1 }
  | some .mxe => s.setCore (s.unitCore o unit) fun c => { c with mxevt := c.mxevt + 1 }
  | _ => s.setDie (dieOfCore o.core) fun d => { d with hmevt := d.hmevt + 1 }

/-- What the loss of an access of a FAB operation or a peer arrival gives: at this module's own pod window the failure of a
peer, of a packet that is not delivered RCLASS 00, otherwise cause 2 (12 R345, R351). -/
def State.fabLoss (s : State) (o : Op) (unit : Nat) (write link : Bool) : BitVec 6 × Word :=
  let ep : Nat := match o.acc.find? fun (a : LaneAcc) => a.lane == unit with
    | some a => if s.laneRemote o a then (match o.instr with | .fmcast .. => s.peerOf o | _ => a.off) else s.endpoint
    | none => o.arg 2
  let block := match o.instr with | .fstBlk .. => !write | _ => false
  if ep = s.endpoint && !block then (10, peerOrigin 3 ep)
  else if link then (10, peerOrigin 0 ep)
  else (2, o.origin)

/-- An access of a FAB operation is lost: its lane fails, and the others go on (12 R352). An operation that waits for an
answer or a recall makes no access. -/
def State.loseFab (s : State) (o : Op) (unit : Nat) (write link : Bool) : State :=
  let x := s.fabLoss o unit write link
  match o.wait with
  | .none =>
    match o.acc.find? fun (a : LaneAcc) => a.lane == unit && !a.done with
    | some a => if perLaneFab o.instr then (s.failLanes o a x).endFab o.id else s.failOp o.id x.1 (some x.2)
    | none => if perLaneFab o.instr then s else s.failOp o.id x.1 (some x.2)
  | _ => s

/-- An access of an operation is lost for good: it fails with cause 2 (01 R44), after what its form performs all the same.
`unit` counts its lanes, rows, lines or members. -/
def State.loseAccess (s : State) (o : Op) (unit : Nat) (write link : Bool) : State :=
  match queueOf o.instr with
  | some .cpe => s.loseRow o unit write
  | some .mxe => s.loseMxe o unit write
  | _ =>
    match o.instr with
    | .wqpush _ => s.loseItem o unit
    | .codepub _ => (s.loseLine o unit).failOp o.id 2 none
    | i =>
      if isPhaseAct i then
        if isPeerArrival i then let x := s.fabLoss o unit write link; s.failPhase o x.1 (some x.2) else s.failPhase o 2 none
      else if engineOf i == .fab then s.loseFab o unit write link
      else if queueOf i == some .lme then ((s.landLanes o unit).setOp o.id fun o => { o with prog := 1 }).failOp o.id 2 none
      else s.failOp o.id 2 none

/-- Whether an operation makes no access that can fail: a CODEPUB or a CPATCH that is refused or names no byte (09 R279,
R281), a discard (07 R249), a promotion (07 R246), a flush (12 R356), a shootdown (16 R466), a SPAWN, a TRELEASE and the
configuration forms, which only pass messages (13 R372, R375, R390). -/
def Op.makesNoAccess (o : Op) : Bool :=
  match o.instr with
  | .cctlInv _ | .cctlInvall _ | .promote _ | .fflush .. | .tlbsd .. | .spawn _ | .trelease _ | .bincfg _ | .wqcfg _ => true
  | .codepub _ => o.arg 1 == 0 || 2 ^ 32 ≤ o.arg 1 || 2 ^ 57 ≤ o.arg 0 || 2 ^ 57 < o.arg 0 + o.arg 1
  | .cpatch .. => 2 ^ 57 ≤ o.arg 0 || (slotIndex (BitVec.ofNat 57 (o.arg 0))).isNone
  | _ => false

/-- Whether a form makes no access but its walks (14 R420; 16 R468). -/
def onlyWalks (i : Instr) : Bool := (match i with | .addrq .. => true | _ => false) || isRceForm i

/-- Whether a form makes reads that are retried once (01 R43): an atomic, a reduction and a form that only writes make none. -/
def readsRetried (i : Instr) : Bool :=
  match accessOf i with
  | some x => (x.rd && !x.wr) || (match i with | .fstBlk .. => true | _ => false)
  | none =>
    !isPhaseAct i &&
    (match i with | .tfill .. | .mzero .. | .wqpush _ | .rgnsw .. | .codepub _ => false | _ => true)

/-- Whether a form makes writes, or acts at a slice, which are never retried (01 R43). -/
def writesOnce (i : Instr) : Bool :=
  match accessOf i with
  | some x => x.wr
  | none => (match i with | .pbwait .. | .tsubmit _ | .ctxload _ | .rgnsw .. => false | _ => true)

/-- Whether unit `unit` of an operation may be making an access now: it has started, waits for nothing, and nothing earlier holds that
access back. A TSUBMIT reads its descriptor without having started; rows and items are looked at where they are lost. -/
def State.accessing (s : State) (o : Op) (unit : Nat) : Bool :=
  o.fail.isNone && o.wait == .none && !o.makesNoAccess &&
  match o.instr with
  | .tsubmit _ => s.mayPerform o && (s.streamHead (dieOfCore o.core) (o.arg 0)).map Op.id == some o.id
  | i =>
    o.started &&
    if queueOf i = some .mxe then o.prog != 0
    else if lanesAlone i || perLaneFab i || waitsOnLatch i then
      o.acc.any fun a => a.lane == unit && !a.done && s.mayPerformLane o a.lane
    else s.mayPerform o

/-- A packet of a request to a peer is lost, and resent; `lasting` tells that the resent one is lost too (01 R43). -/
def State.retryLink (s : State) (o : Op) (n : Nat) (lasting : Bool) : State :=
  if !s.fabGoes o then s
  else if lasting then
    let s := s.setOp o.id fun o => { o with resent := o.resent ++ [n] }
    match s.op? o.id with | some o => s.resend o n 0 | none => s
  else if o.resent.contains n then s
  else s.resend o n 0

/-- A failure in the accesses of an operation: a transient one is logged and counted, a lasting one fails it. -/
def State.retryOp (s : State) (id unit kind : Nat) (lasting : Bool) : State :=
  match s.op? id with
  | none => s
  | some o =>
    if !s.accessing o unit || (onlyWalks o.instr && kind != 5) || (kind == 2 && !readsRetried o.instr) || (kind == 7 && !writesOnce o.instr) then s
    else if kind = 3 ∧ s.requestOpen o unit then s.retryLink o unit lasting
    else
      let addr := o.unitAddr unit
      let origin : Word := if queueOf o.instr = some .mxe then mxeOrigin (s.unitCore o unit) o.tok else o.origin
      if lasting then
        let t := s.loseAccess o unit (kind == 7) (kind == 3)
        if t.op? id = some o then s
        else t.logErr 2 kind origin addr o.launch (BitVec.ofNat 64 (((t.op? id).getD o).lostDetail unit))
      else
        let s := s.logErr 1 kind origin addr o.launch 0
        if kind = 2 then s.countRetry o unit
        else if kind = 3 then s.setCore o.core fun c => { c with fabevt := c.fabevt + 1 }
        else s

/-- ACCESS of an operation in a fault record (16 R461). -/
def recordAccess : Instr → Nat
  | .st .. | .stloc .. | .mdst .. | .fst .. | .tstore .. | .wqpush .. => accWrite
  | .atom .. | .red .. | .fatom .. | .fatomc .. | .fred .. => accAtomic
  | i => if isPhaseAct i then accAtomic else accRead

/-- A walk read for an operation is lost: a record of kind LASTING, whose entry nothing could read, and cause 2 (16 R458,
R460). An ADDRQ writes no record, and its lane reads KIND 5 (16 R468). -/
def State.loseWalk (s : State) (id unit level : Nat) : State :=
  match s.op? id with
  | none => s
  | some o =>
    if !s.accessing o unit then s
    else if (match o.instr with | .addrq .. => true | _ => false) then
      (s.setLane id unit fun a => { a with fail := some (2, o.origin), off := level % 5 }).logErr 2 5 o.origin (o.unitAddr unit) o.launch 0
    else
      let w := s.opWho o (engineOf o.instr)
      let i : FaultInfo :=
        { die := w.loc.die, asid := w.asid, va := (o.unitAddr unit).toNat, core := w.core, wslot := w.wslot, tok := w.tok
          access := recordAccess o.instr, engine := w.engine }
      let t := s.retryOp id unit 5 true
      if t.op? id = some o then s
      else ({ t with nextId := t.nextId + 1 }.fault i kLasting (level % 5) (Config.lostEntry t.nextId).toNat none).1

/-- The next line that a warp reads from its home is lost: the threads that enter it take Fetch Error (01 R44; 09 R276). -/
def State.fetchLost (s : State) (core slot : Nat) : State :=
  match s.warpAt core slot with
  | none => s
  | some (c, wi, _) => s.setWarp c.id wi fun w => { w with lostLine := true }

/-- The stack access of a thread's next CALL or RET fails (04 R130): a lasting failure waits for that access, and a retry that
succeeds, which only the read of a RET can have, is logged and counted. -/
def State.retryStack (s : State) (core slot lane : Nat) (lasting : Bool) : State :=
  match s.warpAt core slot with
  | none => s
  | some (c, wi, _) =>
    if lasting then s.setThread c.id wi lane fun t => { t with lostStack := true }
    else
      (s.setDie (dieOfCore core) fun d => { d with hmevt := d.hmevt + 1 }).logErr 1 2 (coreOrigin .seq core 0)
        (BitVec.ofNat 64 (s.localBase c slot wi lane + (((s.thread? c.id wi lane).map fun t => t.csp.toNat).getD 0))) c.launch 0

/-- ECC corrects an error of a line, which is no failure: it is logged and counted (01 R43; 15 R446). -/
def State.eccCorrected (s : State) (line : Nat) : State :=
  let die := (s.homeOf (128 * line)).1
  (s.setDie die fun d => { d with hmevt := d.hmevt + 1 }).logErr 0 1 (dieOrigin .hme die 0) (BitVec.ofNat 64 (s.paOf (128 * line))) 0 0

/-- READ_RETRY. A write is never retried, so its failure is always lasting. -/
def execReadRetry (target : RetryTarget) (lasting : Bool) (s : State) : Host.Outcome State Fault Refusal :=
  .next <|
    match target with
    | .read op unit => s.retryOp op unit 2 lasting
    | .write op unit => s.retryOp op unit 7 true
    | .link op unit => s.retryOp op unit 3 lasting
    | .walk op unit level => if lasting then s.loseWalk op unit level else s.retryOp op unit 5 false
    | .ecc line => s.eccCorrected line
    | .stack core slot lane => s.retryStack core slot lane lasting
    | .item die queue => s.retryItem die queue lasting
    | .recipe die index => s.retryRecipe die index lasting
    | .fetch core slot =>
      if lasting then s.fetchLost core slot
      else
        (s.setCore core fun c => { c with fchevt := c.fchevt + 1 }).logErr 1 4 (coreOrigin .fch core 0) 0 0 0

/-! ### Events that reach threads -/

/-- SLEEP_WAKE: a sleeping thread whose tokens have settled goes on (04 R152). -/
def execSleepWake (core slot lane : Nat) (s : State) : Host.Outcome State Fault Refusal :=
  .next <|
    match s.warpAt core slot with
    | none => s
    | some (c, wi, w) =>
      match (w.thread lane).run with
      | .sleep keys any =>
        if c.save.isNone && sleepEnds keys any then
          (s.leaveWait c.id wi (laneBit lane)).sleepReturn c.id wi [lane] keys true
        else s
      | _ => s

/-- TSIG_DONE_APPLY: the accesses that a TSIG.DONE covers have performed, and it is the first for its token (04 R156). -/
def execTsigDoneApply (core slot tok : Nat) (s : State) : Host.Outcome State Fault Refusal :=
  .next <|
    match s.warpAt core slot with
    | none => s
    | some (c, wi, w) =>
      match w.sigs.find? fun g => g.tok == tok with
      | none => s
      | some g =>
        if s.pendingBefore c.id wi g.lanes g.seq then s
        else (s.setWarp c.id wi fun w => { w with sigs := w.sigs.erase g }).signal c.id wi tok .done

/-- WATCHDOG_FIRE: the count of a warp has reached its limit (01 R38). In a handler a firing acts as a YIELD (17 R475). -/
def execWatchdogFire (core slot : Nat) (s : State) : Host.Outcome State Fault Refusal :=
  .next <|
    match s.warpAt core slot with
    | none => s
    | some (c, wi, w) =>
      if w.wdCount.toNat < 2 ^ w.wdLimit.toNat ∨ c.save.isSome then s
      else
        let s := (s.setWarp c.id wi Warp.progress).setCore core fun k => { k with wdevt := k.wdevt + 1 }
        if w.wdtrap ∧ w.threads.any (fun t => !t.gone && t.run != .halted && !t.inHandler) then
          (List.range w.threads.length).foldl (fun (s : State) l => s.asyncTrap c.id wi l 0x16) s
        else s.setWarp c.id wi fun x => { x with wdYield := true }

/-- TRAP_ENTRY: a thread takes a cause that is held for it (17 R474, R475). The traps of an instruction, of an observed
poison and of a request are taken in the act that brings them about. -/
def execTrapEntry (core slot lane : Nat) (s : State) : Host.Outcome State Fault Refusal :=
  .next <|
    match s.warpAt core slot with
    | some (c, wi, _) => if c.save.isNone then s.takeHeld c.id wi lane else s
    | none => s

/-- FETCH_LINE_ARRIVAL: a line comes into the fetch buffer of a warp, unless a thread of it may not fetch yet; a line that cannot be read leaves it as it was, and
faults when a thread enters it (09 R268). -/
def execFetchLineArrival (core slot : Nat) (line : VAddr) (s : State) : Host.Outcome State Fault Refusal :=
  .next <|
    match s.warpAt core slot with
    | none => s
    | some (c, wi, w) =>
      if (w.fbuf.any fun x => x.va == lineBase line) || (List.range w.threads.length).any (s.fetchHeld c.id wi) then s
      else
        match s.readLine core (s.asidOf c) (lineBase line) with
        | (t, .ok b) => t.buffer c.id wi ⟨lineBase line, b⟩
        | (_, .error _) => s

end Sys2Proof.Machine
end

