-- ==== Sys2Proof/Machine/Home.lean ====
section
/-! DEFINITION. The home engine's events (15): the host's accesses to device memory, the halves of SHARED regions and
their recalls, migration, the failure of a die, refresh; and the ends of launches that a failed die brings (18 R501). -/

namespace Sys2Proof.Machine

/-! ### CXL.mem (R432; 14 R406; 18 R494) -/

/-- ORIGIN of an entry that a home writes into the error log. -/
def homeOrigin (key : Nat) : Word := dieOrigin .hme (keyDie key) 0

/-- Whether a host access to a half is turned away: it reads poison, or its write is discarded, and the log says so. -/
def State.hostRefused (s : State) (half : Nat) : Bool :=
  let key := half * 64
  !(s.die (keyDie key)).avail || s.regionMode (key / 2 ^ 21) == .priv || s.bandOf key != .rowMajor ||
  (match s.tileAt key with | some t => t.st == .absent || t.st == .rebuilding | none => false)

/-- A poison indication or a discarded write enters the log. -/
def State.logHost (s : State) (key : Nat) : State := s.logErr 3 12 (homeOrigin key) (BitVec.ofNat 64 key) 0 0

/-- The part of a range that lies in a half: its first byte and its length. -/
def halfPart (offset length half : Nat) : Nat × Nat :=
  let lo := max offset (half * 64)
  (lo, min (offset + length) (half * 64 + 64) - lo)

/-- A host access brings a line of a recomputable page into L2 (14 R400). -/
def State.hostTouch (s : State) (key : Nat) : State :=
  if s.hostRefused (key / 64) then s else s.touchTile key (s.rcmps.any fun r => r.2 == s.frameOf key)

/-- The host reads part of a half (R446): poison comes with the data where the access is turned away, where the die has
failed, and where a granule is poisoned, which is a lasting error. -/
def State.hostReadPart (s : State) (key n : Nat) : State :=
  let s := s.hostTouch key
  let data := s.bytes key n
  if s.hostRefused (key / 64) then (s.logHost key).emit (.hostData data true)
  else if (s.salvaged key).isSome then
    (s.logErr 2 13 (homeOrigin key) (BitVec.ofNat 64 key) 0 0).emit (.hostData data true)
  else if s.isPoisoned key n then
    (s.logErr 2 1 (homeOrigin key) (BitVec.ofNat 64 key) 0 0).emit (.hostData data true)
  else s.emit (.hostData data false)

/-- The granules that a range touches. -/
def granulesOf (key n : Nat) : List Nat :=
  if n = 0 then [] else (List.range (granule (key + n - 1) - granule key + 1)).map (granule key + ·)

/-- Data that carries poison is stored with the reserved check pattern, or in grade 3 as received (R446). -/
def State.poisonStored (s : State) (key n : Nat) : State :=
  if s.gradeOf key = 3 then s.logHost key
  else { s with poisoned := (granulesOf key n).foldl (fun (p : List Nat) g => insNat g p) s.poisoned }

/-- The host writes part of a half. -/
def State.hostWritePart (s : State) (key : Nat) (data : List Byte) (poison : Bool) : State :=
  if s.hostRefused (key / 64) then s.logHost key
  else if (s.salvaged key).isSome then s.logErr 2 13 (homeOrigin key) (BitVec.ofNat 64 key) 0 0
  else
    let s := (s.hostTouch key).store key data
    if poison then s.poisonStored key data.length else s

/-- Whether a recall of a half is outstanding. -/
def State.recalling (s : State) (half : Nat) : Bool := s.recalls.any fun r => r.half == half

/-! ### Halves (R433, R434) -/

/-- Set the host state of a half; HI is not listed. -/
def State.setHalf (s : State) (half : Nat) (st : Option HalfSt) : State :=
  { s with halves := match st with | some x => cellPut half x s.halves | none => cellDel half s.halves }

/-- Whether the host may take or give up copies of a half. -/
def State.halfOpen (s : State) (half : Nat) : Bool := s.bar0.ready && half < 2 ^ 33 && s.regionMode (half / 2 ^ 15) == .shared

/-! ### The host's accesses (R432-R434, R436) -/

/-- The halves that an access of the host touches. -/
def HostAccess.halves : HostAccess → List Nat
  | .read o n => halvesOf o n
  | .write o bs _ => halvesOf o bs.length
  | .shared h | .own h | .writeBack h _ | .evict h => [h]

/-- Whether an access is one that the module takes up: after READY and within the decoder (18 R494). -/
def State.hostInside (s : State) (a : HostAccess) : Bool :=
  s.bar0.ready && (match a with | .read o n => o + n ≤ 2 ^ 39 | .write o bs _ => o + bs.length ≤ 2 ^ 39 | _ => true)

/-- An access of the host performs: each half answers on its own. The device caches of the model hold no copy of their own
(DEDUCED, log 2). -/
def State.hostDoes (s : State) (a : HostAccess) : State :=
  match a with
  | .read offset length =>
    (halvesOf offset length).foldl (fun (s : State) h =>
      s.hostReadPart (halfPart offset length h).1 (halfPart offset length h).2) s
  | .write offset data poison =>
    (halvesOf offset data.length).foldl (fun (s : State) h =>
      let p := halfPart offset data.length h
      s.hostWritePart p.1 ((data.drop (p.1 - offset)).take p.2) poison) s
  | .shared half =>
    if !s.halfOpen half ∨ s.halfAt half = some .hx then s
    else if s.hostRefused half then s.hostReadPart (half * 64) 64
    else (s.setHalf half (some .hs)).hostReadPart (half * 64) 64
  | .own half =>
    if !s.halfOpen half ∨ s.halfAt half = some .hx then s
    else if s.hostRefused half then s.hostReadPart (half * 64) 64
    else (s.setHalf half (some .hx)).hostReadPart (half * 64) 64
  | .writeBack half data =>
    if !s.halfOpen half ∨ s.halfAt half ≠ some .hx ∨ data.length ≠ 64 then s
    else (s.setHalf half none).hostWritePart (half * 64) data false
  | .evict half => if s.halfOpen half then s.setHalf half none else s

/-- Whether a form stands at a region, of which it has recalled halves (R436). -/
def Op.switches (o : Op) (g : Nat) : Bool := match o.instr with | .rgnsw .. => o.prog == g + 1 | _ => false

/-- The stack accesses that wait for a recall learn how it ended. -/
def State.endStackRecalls (s : State) (half : Nat) (lost : Bool) : State :=
  let one (t : Thread) : Thread :=
    match t.stackRecall with
    | some (h, pc) => if h = half then { t with stackRecall := none, lostStack := t.lostStack || (lost && pc == t.pc) } else t
    | none => t
  { s with crews := s.crews.map fun c => { c with warps := c.warps.map fun w => { w with threads := w.threads.map one } } }

/-- The requests held behind a recall go on. -/
def State.wakeRecall (s : State) (half : Nat) : State :=
  let s : State :=
    { s with
      recalls := s.recalls.filter fun r => r.half != half
      ops := s.ops.map fun o =>
        let o : Op := if o.wait = .recall half then { o with wait := .none } else o
        { o with rows := o.rows.map fun r => if r.recalled = some half then { r with recalled := none } else r } }
  (s.endStackRecalls half false).drainPackets

/-- RECALL_RESPONSE: the host answers, with the half's data if it had modified it. -/
def execRecallResponse (half : Nat) (modified : Option (List Byte)) (s : State) : Host.Outcome State Fault Refusal :=
  .next <|
    match s.recalls.find? fun r => r.half == half with
    | none => s
    | some r =>
      let old := s.halfAt half
      let s :=
        match old, modified with
        | some .hx, some data => s.store (half * 64) ((data ++ s.bytes (half * 64 + data.length) (64 - data.length)).take 64)
        | _, _ => s
      (s.setHalf half (if r.share && old.isSome then some .hs else none)).wakeRecall half

/-! ### Migration (R437, R438) -/

/-- Whether a PBWAIT waits on a line. -/
def State.waitedOn (s : State) (line : Nat) : Bool :=
  s.ops.any fun o =>
    match o.instr with
    | .pbwait .. =>
      (match s.walk (s.opAsid o) (o.arg 1) with
       | .ok t => ((placeOf (t.pa (o.arg 1))).key.map fun k => k / 128 == line).getD false
       | _ => false)
    | _ => false

/-- Whether a line may migrate. -/
def State.mayMigrate (s : State) (line : Nat) : Bool :=
  let key := line * 128
  isHbm key && (s.die (keyDie key)).migr && s.dieServes (keyDie key) && s.dieServes (s.homeOf key).1 && s.regionMode (key / 2 ^ 21) != .shared &&
  (s.codeAt key).isNone && (s.tileAt key).isNone && !(s.rcmps.any fun r => r.2 == s.frameOf key) &&
  !(s.tickets.any fun t => t.1 / 128 == line) && !s.waitedOn line

/-- A line's home moves; the forwarding entries of its default slice are 1,024, and one of a failed die is not replaced. -/
def State.migrate (s : State) (line die slice : Nat) : State :=
  let mine := (s.moved.map Prod.fst).filter fun x => keyDie (x * 128) == keyDie (line * 128) && s.sliceOf x == s.sliceOf line && x != line
  let go (s : State) : State :=
    { s with moved := (s.moved.filter fun (e : Nat × Nat × Nat) => e.1 != line) ++ [(line, die, slice)] }.moveActs line die slice
  if mine.length < 1024 then go s
  else
    match mine.find? fun x => (s.salvaged (x * 128)).isNone with
    | some x => go (s.returnLine x)
    | none => s

/-- MIGRATION: a slice moves the current home of a line. -/
def execMigration (line die slice : Nat) (s : State) : Host.Outcome State Fault Refusal :=
  .next <|
    if !s.mayMigrate line ∨ 2 ≤ die ∨ 48 ≤ slice ∨ !s.dieServes die then s
    else if die = keyDie (line * 128) ∧ slice = s.sliceOf line then
      if s.moved.any fun e => e.1 == line then s.returnLine line else s
    else s.migrate line die slice

/-- MIGRATION_RETURN. -/
def execMigrationReturn (line : Nat) (s : State) : Host.Outcome State Fault Refusal :=
  .next <| if s.moved.any fun e => e.1 == line then s.returnLine line else s

/-! ### Refresh (R447, R448) -/

/-- The key of a bank in the table of postponed refreshes. -/
def bankKey (sub bank : Nat) : Nat := sub % 512 * 16 + bank % 16

/-- Set a bank's postponed refreshes; 0 is not listed. -/
def State.setRefresh (s : State) (die key n : Nat) : State :=
  s.setDie die fun d => { d with refresh := if n = 0 then cellDel key d.refresh else cellPut key n d.refresh }

/-- BANK_REFRESH: a refresh falls due. While the bank has requests it may be postponed, the ninth never; otherwise it is
issued, with those postponed. -/
def execBankRefresh (die sub bank : Nat) (requests : Bool) (s : State) : Host.Outcome State Fault Refusal :=
  .next <|
    let n := (cellGet (bankKey sub bank) (s.die die).refresh).getD 0
    if requests then s.setRefresh die (bankKey sub bank) (if n < 8 then n + 1 else 8) else s.setRefresh die (bankKey sub bank) 0

/-- ABO_ALERT: every postponed refresh of the bank is issued. -/
def execAboAlert (die sub bank : Nat) (s : State) : Host.Outcome State Fault Refusal :=
  .next (s.setRefresh die (bankKey sub bank) 0)

/-- V1_RECORD_FLUSH: the oldest open record of a die is written. -/
def execV1RecordFlush (die : Nat) (s : State) : Host.Outcome State Fault Refusal := .next (s.flushV1 die)

/-! ### A launch that is made to end (18 R501) -/

/-- Every crew of a launch stops: its threads are stopped where they stand, and none is ended. -/
def Crew.stop (c : Crew) : Crew :=
  { c with
    pend := false
    heldLoad := false
    warps := c.warps.map fun w => { w with threads := w.threads.map fun t => if t.gone then t else { t with run := .stopped } } }

/-- A launch begins to end for a REASON: its crews stop, and what waits for another party is discarded. -/
def State.beginEnd (s : State) (num reason : Nat) (tag : Option (BitVec 16)) : State :=
  let s := s.setLaunch num fun l => { l with st := .ending reason tag }
  let s : State := { s with crews := s.crews.map fun c => if c.launch == num then c.stop else c }
  (s.discardAll true fun o => o.launch == num).1

/-! ### When a die fails (R439, R440) -/

/-- The bytes of a salvage entry of the line at a physical address. -/
def salvageBytes (pa die seq : Nat) (lost : Bool) (dirty : Nat) (data : List Byte) : List Byte :=
  leBytes 8 (pa / 128 * 128 + b2n lost) ++ leBytes 16 dirty ++ leBytes 4 die ++ leBytes 4 seq ++
  (if lost then List.replicate 128 0 else data)

/-- One entry of a survivor's salvage log, if its area has room. -/
def State.salvage (s : State) (survivor die line : Nat) (lost : Bool) : State :=
  let d := s.die survivor
  let n := d.salvCnt.toNat
  if Config.salvageEntries ≤ n then s.setDie survivor fun d => { d with salvDrop := d.salvDrop + 1 }
  else
    let dirty := if lost then 0 else bitsOf ((List.range 128).map fun i => (cellGet (line * 128 + i) s.stale).isSome)
    let s := s.store (Config.salvageLog survivor + 160 * n) (salvageBytes (s.paOf (line * 128)) die n lost dirty (s.bytes (line * 128) 128))
    s.setDie survivor fun d => { d with salvCnt := d.salvCnt + 1 }

/-- Whether any byte of a line is dirty. -/
def State.dirtyLine (s : State) (line : Nat) : Bool := s.stale.any fun c => c.1 / 128 == line

/-- Insert by a key into an ascending list. -/
def insBy (key : Nat → Nat) (x : Nat) : List Nat → List Nat
  | [] => [x]
  | y :: ys => if key x < key y then x :: y :: ys else y :: insBy key x ys

/-- The dirty lines that a survivor holds for a failed die, by slice and then by address. -/
def State.strandedLines (s : State) (survivor die : Nat) : List Nat :=
  let held := s.moved.filter fun e => e.2.1 == survivor && keyDie (e.1 * 128) == die && s.dirtyLine e.1
  held.foldl (fun (xs : List Nat) (e : Nat × Nat × Nat) => insBy (fun line => (s.homeOf (line * 128)).2 * 2 ^ 45 + s.paOf (line * 128) / 128) e.1 xs) []

/-- The survivor's lines whose forwarding entry names the failed die. -/
def State.lostLines (s : State) (survivor die : Nat) : List Nat :=
  (s.moved.filter fun e => e.2.1 == die && keyDie (e.1 * 128) == survivor).map Prod.fst

/-- The rows of a CPE operation that are parked on a recipe of a die. -/
def Op.deadRows (o : Op) (die : Nat) : List Nat :=
  (o.rows.filter fun r => match r.wait with | some (d, _) => d == die | none => false).map RowSt.row

/-- Rows of a CPE operation fail with cause 13; so does the row at which it waits for an answer or a recall. -/
def Op.failRows (o : Op) (die : Nat) (rows : List Nat) : Op :=
  let o : Op := { o with wait := .none }
  rows.foldl (fun (o : Op) r => o.failAt r (13, dieOrigin .hme die 0)) o

/-- Whether an operation waits on a die. -/
def State.waitsOn (s : State) (die : Nat) (o : Op) : Bool :=
  match o.wait with
  | .recipe d _ => d == die
  | .recall h => keyDie (h * 64) == die
  | .ticket t => s.tickets.any fun x => x.2.1 == t && x.2.2 == .whole o.id && (s.salvaged x.1).isSome
  | .task => dieOfCore o.core == die
  | .answer => (s.die die).faults.any fun f => f.owner == .op o.id
  | _ => !(o.deadRows die).isEmpty

/-- The acts that wait at a failed die's slices. -/
def Die.acts (d : Die) : List Act := d.slices.flatMap Slice.acts

/-- An operation fails with cause 13 and the ORIGIN of the failed die; what does not settle by itself settles now. -/
def State.failDead (s : State) (die id : Nat) : State :=
  let g := dieOrigin .hme die 0
  match s.op? id with
  | none => s
  | some o =>
    if queueOf o.instr = some .cpe then
      s.setOp id fun o => o.failRows die (if o.wait = .none then o.deadRows die else o.prog :: o.deadRows die)
    else
    let s := s.setOp id fun o =>
      { o with wait := .none, fail := o.fail.orElse fun _ => some (13, g), acc := o.acc.map fun a => { a with queued := false } }
    match s.op? id with
    | none => s
    | some p =>
      if isPhaseAct o.instr then s.failPhase p 13 (some g)
      else if engineOf o.instr = .fab then s.settleFab p 13 g
      else if (isSliceAtomic o.instr).isSome ∨ o.wait = .task then s.settle id (.poisoned 13 g)
      else s

/-- One act that waited at a failed die. -/
def State.failAct (s : State) (die : Nat) : ActKind → State
  | .lane id _ | .whole id => s.failDead die id
  | .row id row _ => s.setOp id fun o => o.failAt row (13, dieOrigin .hme die 0)
  | .peer p => s.packetDone p (.peerFail p.source p.seq 3)

/-- DIE_FAILURE: the survivor acts once. Launches with a crew on the failed die end with REASON 3. -/
def execDieFailure (die : Nat) (s : State) : Host.Outcome State Fault Refusal :=
  .next <|
    if 2 ≤ die ∨ (s.die die).failed then s
    else
      let survivor := 1 - die
      let stranded := s.strandedLines survivor die
      let lost := s.lostLines survivor die
      let s := stranded.foldl (fun (s : State) line => s.salvage survivor die line false) s
      let s := lost.foldl (fun (s : State) line => s.salvage survivor die line true) s
      let acts := (s.die die).acts
      let waiting := (s.ops.filter fun o => s.waitsOn die o).map Op.id
      let s := s.setDie die fun d => { d with failed := true, slices := List.replicate 48 {}, faults := [], v1 := [] }
      let s : State := { s with recalls := s.recalls.filter fun r => keyDie (r.half * 64) != die }
      let s := acts.foldl (fun (s : State) a => s.failAct die a.kind) s
      let s := waiting.foldl (fun (s : State) id => s.failDead die id) s
      let s := s.logErr 2 13 (dieOrigin .hme die 0) 0 0 (BitVec.ofNat 64 die)
      let hit := s.launches.filter fun l => l.alive && s.crews.any fun c => c.launch == l.num && dieOfCore c.core == die
      let s := hit.foldl (fun (s : State) l => s.beginEnd l.num 3 none) s
      { s with crews := s.crews.map fun c => if dieOfCore c.core == die then { c with save := none } else c }

end Sys2Proof.Machine
end

