-- ==== Sys2Proof/Machine/Ring.lean ====
section
/-! DEFINITION. Writes of registers by their own events (00 R6; 04 R133, R164; 15 R449; 16 R462; 18 R495), and the Ublys
rings: how a command is taken, when it is malformed, and how a completion is posted (18 R496, R497). -/

namespace Sys2Proof.Machine

/-! ### Special registers written by name -/

/-- A write of a special register as a thread of a warp names it: refused where SETSR would trap, and no thread moves. -/
def State.writeNamed (s : State) (core slot lane : Nat) (num : BitVec 9) (x : Nat) : State :=
  let i : Instr := .setsr ⟨⟨false, 0⟩, ⟨false, 0⟩, .b64, .dflt, .sreg num, .uni 0, .imm 0, .imm 0, .imm 0⟩
  match s.warpAt core slot, i.form with
  | some (c, wi, w), some F =>
    let n := num.toNat
    let I : Issue :=
      { s, i, form := F, cid := c.id, wi, crew := c, warp := w, mask := laneBit lane, act := laneBit lane
        pc := (w.thread lane).pc }
    if (w.thread lane).run == .absent || F.check.isSome || c.tileOut (.sreg num) || !I.mayWrite lane n || I.refuses lane n x then s
    else if threadScope n then s.setThread c.id wi lane fun t => t.setSreg n x
    else I.setWide s n x
  | _, _ => s

/-- TSTAT_POISON_CLEAR: 1 is written to `%tstat.POISON` of a warp. -/
def execTstatPoisonClear (core slot : Nat) (s : State) : Host.Outcome State Fault Refusal :=
  .next <|
    match s.warpAt core slot with
    | some (c, wi, _) => s.setWarp c.id wi fun w => { w with tstat := 0 }
    | none => s

/-- JOIN_REGISTER_WRITE: `%joinN` of a warp. -/
def execJoinRegisterWrite (core slot join : Nat) (member : Mask) (s : State) : Host.Outcome State Fault Refusal :=
  .next <|
    match s.warpAt core slot with
    | some (c, wi, _) => if join < 8 then s.setWarp c.id wi fun w => w.setJoin join member else s
    | none => s

/-- HMCTL_WRITE: `%hmctl.MIGR` of a die. -/
def execHmctlWrite (die : Nat) (migr : Bool) (s : State) : Host.Outcome State Fault Refusal := .next (s.setMigr die migr)

/-- XLRP_WRITE: `%xlrp` of a die; a value that its map refuses changes nothing (16 R469). -/
def execXlrpWrite (die : Nat) (value : DWord) (s : State) : Host.Outcome State Fault Refusal :=
  .next <|
    let d := s.die die
    let x : Word := value.setWidth 32
    if 2 ^ 32 ≤ value.toNat ∨ d.ringUse < (x - d.xlrp).toNat then s else s.writeXlrp die x

/-! ### BAR0 (18 R495) -/

/-- Entries of the completion ring that the host has not consumed. -/
def Bar0.unread (b : Bar0) : Nat := (b.cplTail - b.cplHead).toNat

/-- Whether the completion ring is full. -/
def Bar0.full (b : Bar0) : Bool := 2 ^ b.cplSize.toNat ≤ b.unread

/-- Whether a command is outstanding: not taken yet, or taken and its completion not posted yet. -/
def State.outstanding (s : State) : Bool :=
  s.bar0.cmdHead != s.bar0.cmdTail || (s.completions.any fun c => !c.event) ||
  s.launches.any fun l => match l.st with | .ending _ (some _) => true | _ => false

/-- Change BAR0. -/
def State.setBar (s : State) (f : Bar0 → Bar0) : State := { s with bar0 := f s.bar0 }

/-- A write of a ring register that is ignored enters the log. -/
def State.logRing (s : State) : State := s.logErr 3 15 0 0 0 0

/-- A write of CMDTAIL. -/
def State.writeCmdTail (s : State) (x : Word) : State :=
  let b := s.bar0
  let n := (x - b.cmdHead).toNat
  if 2 ^ b.cmdSize.toNat < n ∨ n < (b.cmdTail - b.cmdHead).toNat then s.logRing else s.setBar fun b => { b with cmdTail := x }

/-- A write of CPLHEAD. -/
def State.writeCplHead (s : State) (x : Word) : State :=
  if !s.bar0.ready then s
  else if s.bar0.unread < (x - s.bar0.cplHead).toNat then s.logRing
  else s.setBar fun b => { b with cplHead := x }

/-- A write of a BAR0 register; read-only and unlisted offsets ignore it. -/
def State.writeBar (s : State) (offset x : Nat) : State :=
  let ring (f : Bar0 → Bar0) : State := if !s.bar0.ready ∨ s.outstanding then s else s.setBar f
  let size : BitVec 5 := BitVec.ofNat 5 x
  let sizeOk := 4 ≤ size.toNat && size.toNat ≤ 16
  match offset with
  | 0x00 => ring fun b => { b with cmdBase := BitVec.ofNat 64 (x % 2 ^ 57 / 64 * 64) }
  | 0x08 => if sizeOk then ring fun b => { b with cmdSize := size } else s
  | 0x10 => if s.bar0.ready then s.writeCmdTail (BitVec.ofNat 32 x) else s
  | 0x20 => ring fun b => { b with cplBase := BitVec.ofNat 64 (x % 2 ^ 57 / 16 * 16) }
  | 0x28 => if sizeOk then ring fun b => { b with cplSize := size } else s
  | 0x38 => s.writeCplHead (BitVec.ofNat 32 x)
  | 0x48 => if 600 ≤ x % 4096 ∧ x % 4096 ≤ 2400 then s.setBar fun b => { b with pwrCap := BitVec.ofNat 12 x } else s
  | _ => s

/-- REGISTER_WRITE. -/
def execRegisterWrite (target : RegTarget) (value : DWord) (s : State) : Host.Outcome State Fault Refusal :=
  .next <|
    match target with
    | .bar0 offset => s.writeBar offset value.toNat
    | .special core slot lane num => s.writeNamed core slot lane num value.toNat

/-- CPLHEAD_WRITE. -/
def execCplheadWrite (value : Word) (s : State) : Host.Outcome State Fault Refusal := .next (s.writeCplHead value)

/-- The value that a read of a BAR0 offset returns. -/
def State.readBar (s : State) (offset : Nat) : Nat :=
  let b := s.bar0
  match offset with
  | 0x00 => b.cmdBase.toNat
  | 0x08 => b.cmdSize.toNat
  | 0x10 => b.cmdTail.toNat
  | 0x18 => b.cmdHead.toNat
  | 0x20 => b.cplBase.toNat
  | 0x28 => b.cplSize.toNat
  | 0x30 => b.cplTail.toNat
  | 0x38 => b.cplHead.toNat
  | 0x40 => b2n (s.die 1).avail * 4 + b2n (s.die 0).avail * 2 + b2n b.ready
  | 0x48 => b.pwrCap.toNat
  | 0x50 => b.pwrNow.toNat
  | 0x58 => b.junction.toNat * 256 + b.inlet.toNat
  | 0x60 => if b.ready then Config.faultRing 0 else 0
  | 0x68 => if b.ready then Config.faultRing 1 else 0
  | _ => 0

/-! ### Completions (18 R496) -/

/-- A completion waits to be posted. -/
def State.complete (s : State) (tag : BitVec 16) (status word1 : Nat) : State :=
  { s with completions := s.completions ++ [{ tag, status, event := false, word1 := BitVec.ofNat 64 word1 }] }

/-- The 16 bytes of a completion. -/
def Completion.bytes (c : Completion) : List Byte :=
  leBytes 8 (b2n c.event * 2 ^ 24 + c.status % 256 * 2 ^ 16 + c.tag.toNat) ++ leBytes 8 c.word1.toNat

/-- COMPLETION_POST: the oldest completion is written, CPLTAIL advances and the vector fires. -/
def execCompletionPost (s : State) : Host.Outcome State Fault Refusal :=
  .next <|
    match s.completions with
    | [] => s
    | c :: rest =>
      let b := s.bar0
      if !b.ready ∨ b.full then s
      else
        let at_ := hostMem + b.cplBase.toNat + 16 * (b.cplTail.toNat % 2 ^ b.cplSize.toNat)
        let s := { s with completions := rest }.store at_ c.bytes
        (s.setBar fun b => { b with cplTail := b.cplTail + 1 }).emit (.msix (if c.event then 3 else 0))

/-! ### Commands (18 R496, R497) -/

/-- A command: its eight words. -/
structure Cmd where
  words : List Nat
  deriving DecidableEq, Repr

/-- Word n of a command. -/
def Cmd.word (c : Cmd) (n : Nat) : Nat := c.words.getD n 0
/-- OPC. -/
def Cmd.opc (c : Cmd) : Nat := bitsNat (c.word 0) 7 0
/-- SUB. -/
def Cmd.sub (c : Cmd) : Nat := bitsNat (c.word 0) 15 8
/-- TAG. -/
def Cmd.tag (c : Cmd) : BitVec 16 := BitVec.ofNat 16 (bitsNat (c.word 0) 31 16)

/-- Word n of little-endian words in memory. -/
def State.wordsAt (s : State) (key n : Nat) : List Nat := (List.range n).map fun i => s.nat (key + 8 * i) 8

/-- The command at the head of the ring, when Javatra takes one. -/
def State.headCmd (s : State) : Option Cmd :=
  let b := s.bar0
  if b.ready ∧ b.cmdHead ≠ b.cmdTail ∧ !b.full then
    some ⟨s.wordsAt (hostMem + b.cmdBase.toNat + 64 * (b.cmdHead.toNat % 2 ^ b.cmdSize.toNat)) 8⟩
  else none

/-- The bits of words 1 to 7 that a command uses; none for an unknown command. The others are RES0. -/
def cmdBits (opc sub : Nat) : Option (List Nat) :=
  let w := 2 ^ 64 - 1
  let pad (xs : List Nat) : Option (List Nat) := some (xs ++ List.replicate (7 - xs.length) 0)
  match opc, sub with
  | 1, 0 => pad [w]
  | 2, 0 | 2, 1 => pad [w, w, w, 0x7FF, w]
  | 2, 2 => pad [0x31F]
  | 2, 3 => pad [3]
  | 2, 4 => pad [w, w, w]
  | 3, 0 | 3, 1 | 3, 2 => pad [w, w, w]
  | 4, 0 | 4, 1 | 4, 2 => pad [w, w]
  | 5, 0 => pad [w, w, w]
  | 6, 0 | 6, 1 => pad []
  | 7, 0 => pad [w, w, w, w, w]
  | 8, 0 => pad [w, w]
  | 8, 1 | 8, 2 => pad [w]
  | 9, 0 | 9, 1 => pad [w, w]
  | _, _ => none

/-- Whether a command is malformed: an unknown OPC or SUB, or a nonzero RES0 bit. -/
def Cmd.malformed (c : Cmd) : Bool :=
  bitsNat (c.word 0) 63 32 != 0 ||
  (match cmdBits c.opc c.sub with
   | none => true
   | some bits => (List.range 7).any fun n => Nat.land (c.word (n + 1)) (bits.getD n 0) != c.word (n + 1))

/-- How a command goes. -/
inductive CmdOut
  /-- It completes, with a STATUS and a result. -/
  | done (s : State) (status : Nat) (result : Nat := 0)
  /-- It is accepted and completes later. -/
  | taken (s : State)
  /-- It waits at the head of the ring. -/
  | waits (s : State)

/-- The command at the head is taken. -/
def State.advanceRing (s : State) : State := s.setBar fun b => { b with cmdHead := b.cmdHead + 1 }

/-- Javatra takes the command at the head of the ring, if it has the OPC and SUB of the event; a malformed command
completes with STATUS 1 whichever event finds it. -/
def withCommand (opc sub : Nat) (s : State) (body : Cmd → CmdOut) : Host.Outcome State Fault Refusal :=
  .next <|
    match s.headCmd with
    | none => s
    | some c =>
      if c.malformed then s.advanceRing.complete c.tag 1 0
      else if c.opc ≠ opc ∨ c.sub ≠ sub then s
      else
        match body c with
        | .done s st r => s.advanceRing.complete c.tag st r
        | .taken s => s.advanceRing
        | .waits s => s

/-- Whether a host buffer lies in host memory. -/
def hostRange (a n : Nat) : Bool := a + n ≤ 2 ^ 51

end Sys2Proof.Machine
end

