-- ==== Sys2Proof/Machine/Maps.lean ====
section
/-! DEFINITION. The MAP commands of Ublys and the other commands on mappings (18 R497): checking and building page tables
(16 R452-R455), code frames (09 R270), grades (15 R445), recomputable pages and reserves (01 R34), bands (15 R443), the
pod window (16 R460), code publishing, SHOOTDOWN and REGION (15 R436), and the accesses of the host that wait behind a recall or a switch
(15 R434, R436). -/

namespace Sys2Proof.Machine

/-! ### Leaves -/

/-- Level of a leaf of a page-size code. -/
def levelOf (code : Nat) : Nat := if code = 2 then 1 else if code = 3 then 2 else 0

/-- Bytes of a page-size code. -/
def pageBytes (code : Nat) : Nat := leafSize (levelOf code) (code == 1)

/-- A leaf from bits [62:54], a page-size code and a physical address. -/
def leafWord (bits code pa : Nat) : Nat := 2 ^ 63 + bits * 2 ^ 54 + pa / 4096 * 4096 + b2n (code == 1) * 2 ^ 11 + 2 ^ 10

/-- The frames of HBM4E that a leaf maps. -/
def framesOf (pa size : Nat) : List Nat := if bitNat pa 51 then [] else (List.range (size / 4096)).map (pa / 4096 + ·)

/-- The storage address of the entry for an address in a table of a level. -/
def entryKey (base va level : Nat) : Nat := base + 8 * bitsNat va (9 * level + 20) (9 * level + 12)

/-- The entries of a leaf: one, or the 16 of a C64 group. -/
def leafKeys (base va code : Nat) : List Nat :=
  if code = 1 then (List.range 16).map fun i => entryKey base (va / 65536 * 65536) 0 + 8 * i else [entryKey base va (levelOf code)]

/-- The root of an address space. -/
def State.rootOf (s : State) (asid : Nat) : Option Nat := (s.roots.find? fun r => r.1 == asid).map Prod.snd

/-- What a walk to a table of a level meets. -/
inductive Path
  | table (base : Nat)
  | missing
  | leaf
  deriving DecidableEq, Repr

/-- The table that holds the entry of a level for an address. -/
def State.tableAt (s : State) (target va : Nat) : List Nat → Nat → Path
  | [], base => .table base
  | level :: rest, base =>
    if level ≤ target then .table base
    else
      let e := s.nat (entryKey base va level) 8
      if !entV e then .missing else if entLeaf e then .leaf else State.tableAt s target va rest (entFrame e)

/-- Whether no leaf hangs below a table of a level. -/
def State.emptyTable (s : State) : Nat → Nat → Bool
  | 0, base => (List.range 512).all fun i => !entV (s.nat (base + 8 * i) 8)
  | level + 1, base =>
    (List.range 512).all fun i =>
      let e := s.nat (base + 8 * i) 8
      !entV e || (!entLeaf e && State.emptyTable s level (entFrame e))

/-- Whether another mapping of a different page size stands where a leaf would go. -/
def State.mapConflict (s : State) (asid va code : Nat) : Bool :=
  match s.rootOf asid with
  | none => false
  | some root =>
    match s.tableAt (levelOf code) va [4, 3, 2, 1] root with
    | .missing => false
    | .leaf => true
    | .table base =>
      (leafKeys base va code).any fun k =>
        let e := s.nat k 8
        entV e &&
        (if entLeaf e then levelOf code == 0 && entC64 e != (code == 1) else !s.emptyTable (levelOf code - 1) (entFrame e))

/-! ### Checks of one page (18 R497; 09 R270; 15 R443, R445; 16 R455, R461) -/

/-- Whether a range of storage touches a reserved area. -/
def touchesReserved (o n : Nat) : Bool := Config.isReserved o || Config.isReserved (o + n - 1)

/-- Whether a page lies wholly in a fault ring and is mapped as R461 allows. -/
def ringMapping (o n leaf : Nat) : Bool :=
  Config.isFaultRing o && Config.isFaultRing (o + n - 1) && entR leaf && entW leaf && !entX leaf && !entRcmp leaf

/-- Whether MAP refuses a page with STATUS 3. -/
def State.pageRefused (s : State) (asid va pa code bits : Nat) : Bool :=
  let size := pageBytes code
  let leaf := leafWord bits code pa
  va % size != 0 || pa % size != 0 || 2 ^ 57 < va + size || 2 ^ 52 < pa + size || !leafOk leaf size ||
  s.mapConflict asid va code ||
  (match placeOf pa with
   | .reserved => true
   | .host _ => entX leaf
   | .hbm o ap =>
     (List.range (max 1 (size / 2 ^ 21))).any (fun k =>
       match placeOf (pa + k * 2 ^ 21) with
       | .hbm p _ => s.bandOf p != ap
       | _ => true) ||
     (ap == .rowMajor && touchesReserved o size && !ringMapping o size leaf) ||
     (framesOf pa size).any fun f =>
       (s.grades.any fun g => g.1 == f && g.2.2 != 0 && g.2.1 != entGrade leaf) ||
       (entX leaf && s.rcmps.any fun r => r.2 == f) || (entRcmp leaf && s.code.any fun c => c.page == f))

/-! ### The recompute reserve (01 R34) -/

/-- The core of a die that takes every slot of a launch's reserve now. -/
def State.reserveCore (s : State) (l : Launch) (die : Nat) : Option Nat :=
  let one := descNeeds l.rcneeds.toNat
  if l.rcslots = 0 ∨ !one.within coreNeeds ∨ !s.dieServes die then none
  else (dieCores die).reverse.find? fun k => s.hasRoom k (one.times l.rcslots)

/-- The reserves of a launch on some dies, each allocated unless it has one; none when one cannot be. -/
def State.allocReserves (s : State) (num : Nat) : List Nat → Option State
  | [] => some s
  | d :: ds =>
    match s.launch? num with
    | none => some s
    | some l =>
      if l.reserves.any fun r => r.1 == d then State.allocReserves s num ds
      else
        match s.reserveCore l d with
        | some k => State.allocReserves (s.setLaunch num fun l => { l with reserves := l.reserves ++ [(d, k)] }) num ds
        | none => none

/-- The die whose HBM4E holds a frame. -/
def frameDie (f : Nat) : Nat := bitsNat (f * 4096) 38 38

/-- The live launch that runs in an address space. -/
def State.launchOfAsid (s : State) (asid : Nat) : Option Launch := s.launches.find? fun l => l.asid == asid

/-! ### Changing a leaf -/

/-- A fresh table frame. -/
def State.newTable (s : State) : State × Nat := ({ s with tables := s.tables + 1 }, Config.tableFrames + 4096 * s.tables)

/-- Write a table entry through to HBM4E. -/
def State.putEntry (s : State) (k e : Nat) : State := (s.storeNat k 8 e).writeBack (k / 128)

/-- The root of an address space, made when there is none (16 R451). -/
def State.needRoot (s : State) (asid : Nat) : State × Nat :=
  match s.rootOf asid with
  | some r => (s, r)
  | none =>
    let t := s.newTable
    ({ t.1 with roots := t.1.roots ++ [(asid, t.2)] }, t.2)

/-- The table for a leaf of a level, with the tables on the way to it made. -/
def State.needTable (target va : Nat) : List Nat → State → Nat → State × Nat
  | [], s, base => (s, base)
  | level :: rest, s, base =>
    if level ≤ target then (s, base)
    else
      let k := entryKey base va level
      let e := s.nat k 8
      if entV e then State.needTable target va rest s (entFrame e)
      else
        let t := s.newTable
        State.needTable target va rest (t.1.putEntry k (2 ^ 63 + t.2)) t.2

/-- A frame gains or loses a mapping with X: it becomes a code frame with the first and ceases with the last. -/
def State.countX (s : State) (f : Nat) (up : Bool) : State :=
  let n := (cellGet f s.xmaps).getD 0
  if up then
    { s with
      xmaps := cellPut f (n + 1) s.xmaps
      code := if n = 0 then s.code ++ [⟨f, 0, List.replicate 64 (some [], true)⟩] else s.code }
  else if n ≤ 1 then { s with xmaps := cellDel f s.xmaps, code := s.code.filter fun c => c.page != f }
  else { s with xmaps := cellPut f (n - 1) s.xmaps }

/-- A frame gains a mapping of a grade: one that changes the grade leaves data and metadata undefined (15 R445). -/
def State.addGrade (s : State) (f grade : Nat) : State :=
  match s.grades.find? fun g => g.1 == f with
  | none => { s with grades := s.grades ++ [(f, grade, 1)] }
  | some (_, old, n) =>
    let s := if old ≠ grade then s.undefineFrame f else s
    { s with grades := updWhere (fun g => g.1 == f) (fun _ => (f, grade, n + 1)) s.grades }

/-- A frame gains a mapping with a leaf. -/
def State.addFrame (s : State) (asid leaf f : Nat) : State :=
  let s := s.addGrade f (entGrade leaf)
  let s := if entX leaf then s.countX f true else s
  if entRcmp leaf then { s with rcmps := s.rcmps ++ [(asid, f)] } else s

/-- A frame loses a mapping with a leaf. -/
def State.dropFrame (s : State) (asid leaf f : Nat) : State :=
  let s : State := { s with grades := updWhere (fun g => g.1 == f) (fun g => (g.1, g.2.1, g.2.2 - 1)) s.grades }
  let s := if entX leaf then s.countX f false else s
  if entRcmp leaf then { s with rcmps := s.rcmps.erase (asid, f) } else s

/-- Clear the leaf that a walk found: its entries become 0 and its frames lose a mapping. -/
def State.clearLeaf (s : State) (t : TlbEnt) : State :=
  match s.rootOf t.asid with
  | none => s
  | some root =>
    match s.tableAt t.level t.base [4, 3, 2, 1] root with
    | .table base =>
      let code := if t.level = 2 then 3 else if t.level = 1 then 2 else if entC64 t.leaf.toNat then 1 else 0
      let s := (leafKeys base t.base code).foldl (fun (s : State) k => s.putEntry k 0) s
      (framesOf (entFrame t.leaf.toNat) t.size).foldl (fun (s : State) f => s.dropFrame t.asid t.leaf.toNat f) s
    | _ => s

/-- Map one page: a mapping of the same page that stands there is replaced. -/
def State.mapPage (s : State) (asid va pa code bits : Nat) : State :=
  let s := match s.walk asid va with | .ok t => s.clearLeaf t | _ => s
  let r := s.needRoot asid
  let t := State.needTable (levelOf code) va [4, 3, 2, 1] r.1 r.2
  let leaf := leafWord bits code pa
  let s := ((leafKeys t.2 va code).zip (List.range 16)).foldl (fun (s : State) (p : Nat × Nat) => s.putEntry p.1 (leaf + 4096 * p.2)) t.1
  (framesOf pa (pageBytes code)).foldl (fun (s : State) f => s.addFrame asid leaf f) s

/-- The first n pages of a command, ascending. -/
def State.mapPages1 (s : State) (asid va pa code bits n : Nat) : State :=
  (List.range n).foldl (fun (s : State) i => s.mapPage asid (va + i * pageBytes code) (pa + i * pageBytes code) code bits) s

/-! ### MAP -/

/-- Whether an address space is one that MAP names: 1 to 4,094, or the pod window's 4,095. -/
def knownAsid (a : Nat) : Bool := 1 ≤ a && a ≤ 4095

/-- MAP. With `writeFails` a leaf write meets a lasting error after some of the pages. -/
def execMap (writeFails : Bool) (s : State) : Host.Outcome State Fault Refusal :=
  withCommand 2 0 s fun c =>
    let asid := c.word 1
    let va := c.word 2
    let pa := c.word 3
    let bits := c.word 4 % 512
    let code := c.word 4 / 512 % 4
    let n := c.word 5
    let size := pageBytes code
    if !knownAsid asid then .done s 4
    else if 2 ^ 57 < va + n * size ∨ 2 ^ 52 < pa + n * size then .done s 3
    else if !s.dieServes 0 then .done s 6
    else
      let pages := (List.range n).map (· * size)
      let dies := (pages.flatMap fun d => framesOf (pa + d) size).map frameDie
      if dies.any fun d => !s.dieServes d then .done s 6
      else if Config.tableCount < s.tables + 4 * n + 1 ∨ pages.any fun d => s.pageRefused asid (va + d) (pa + d) code bits then .done s 3
      else
        let rcmp := entRcmp (leafWord bits code pa)
        let held : Option State :=
          match s.launchOfAsid asid with
          | some l => if rcmp then s.allocReserves l.num dies.eraseDups else some s
          | none => some s
        match held with
        | none => .done s 3
        | some s =>
          if writeFails ∧ n ≠ 0 then
            .done { s.mapPages1 asid va pa code bits (Config.pagesDone s.freeCount % n) with freeCount := s.freeCount + 1 } 7
          else .done (s.mapPages1 asid va pa code bits n) 0

/-- Clear every leaf that maps a byte of a range, from an address on. -/
def State.unmapFrom (asid stop : Nat) : Nat → State → Nat → State
  | 0, s, _ => s
  | fuel + 1, s, va =>
    if stop ≤ va then s
    else
      match s.walk asid va with
      | .ok t => State.unmapFrom asid stop fuel (s.clearLeaf t) (t.base + t.size)
      | .fault _ level _ =>
        let span := 2 ^ (12 + 9 * level)
        State.unmapFrom asid stop fuel s ((va / span + 1) * span)

/-- The cover of a shootdown that Javatra has begun. -/
def HostShoot.cover (h : HostShoot) : Cover := coverOfMode h.mode h.asid h.va h.n

/-- The oldest shootdown of a kind of command that has drained is completed. -/
def State.endShoot (s : State) (unmap : Bool) : Option State :=
  (s.shoots.find? fun h => h.unmap == unmap && s.drained h.cover 0).map fun h =>
    { s with shoots := s.shoots.erase h }.shootdown h.cover |>.complete h.tag 0 0

/-- UNMAP: the leaves are cleared, and the covering TLBSD begins; the command completes when it is DONE. -/
def execUnmap (s : State) : Host.Outcome State Fault Refusal :=
  match s.endShoot true with
  | some t => .next t
  | none =>
    withCommand 2 1 s fun c =>
      let asid := c.word 1
      let va := c.word 2
      let n := c.word 5 * pageBytes (c.word 4 / 512 % 4)
      if !knownAsid asid then .done s 4
      else if 2 ^ 57 < va + n ∨ va % pageBytes (c.word 4 / 512 % 4) ≠ 0 then .done s 3
      else if !s.dieServes 0 then .done s 6
      else
        let s := State.unmapFrom asid (va + n) (n / 4096 + 1) s va
        .taken { s with shoots := s.shoots ++ [⟨c.tag, true, .va, asid, va, n⟩] }

/-- SHOOTDOWN: its operands are those of TLBSD. One event serves the three modes. -/
def execShootdown (s : State) : Host.Outcome State Fault Refusal :=
  match s.endShoot false with
  | some t => .next t
  | none =>
    let mode : TlbMode :=
      match s.headCmd with
      | some c => if c.sub = 0 then .va else if c.sub = 1 then .asid else .all
      | none => .all
    withCommand 3 ((s.headCmd.map Cmd.sub).getD 0) s fun c =>
      match shootRefusal mode (c.word 1) (c.word 2) (c.word 3) with
      | some _ => .done s 1
      | none => .taken { s with shoots := s.shoots ++ [⟨c.tag, false, mode, c.word 3, c.word 2, c.word 1⟩] }

/-! ### Bands and the pod window -/

/-- Whether some mapping covers a byte of a band. -/
def State.bandMapped (s : State) (band : Nat) : Bool :=
  s.grades.any fun g => g.2.2 != 0 && (match placeOf (g.1 * 4096) with | .hbm o _ => keyBand o == band | _ => false)

/-- Mode of a code of BAND_MODE. -/
def bandOfCode : Nat → Option Band
  | 0 => some .rowMajor | 1 => some .swizzled | 2 => some .bankPrivate
  | _ => none

/-- A band takes a mode: its contents and metadata are undefined until they are written. -/
def State.setBand (s : State) (band base : Nat) (m : Band) : State :=
  let here (f : Nat) : Bool := match placeOf (f * 4096) with | .hbm o _ => keyBand o == band | _ => false
  { s with bands := s.bands.set band m, grades := s.grades.filter fun g => !here g.1 }.undefine base (2 ^ 34)

/-- BAND_MODE. -/
def execBandMode (s : State) : Host.Outcome State Fault Refusal :=
  withCommand 2 2 s fun c =>
    let band := c.word 1 % 32
    let base := band / 16 * 2 ^ 38 + band % 16 * 2 ^ 34
    match bandOfCode (c.word 1 / 256) with
    | none => .done s 1
    | some m =>
      if !s.dieServes (band / 16) then .done s 6
      else if s.bandMapped band ∨ touchesReserved base (2 ^ 34) then .done s 3
      else if s.bandOf base = m then .done s 0
      else .done (s.setBand band base m) 0

/-- POD_WINDOW_CONTROL. -/
def execPodWindowControl (s : State) : Host.Outcome State Fault Refusal :=
  withCommand 2 3 s fun c => .done { s with podReplay := bitNat (c.word 1) 0, podV1fmt := bitNat (c.word 1) 1 } 0

/-! ### Code publishing -/

/-- The frames of a publication by the host, ascending, `left` of them at most: the STATUS that ends it. -/
def State.hostPublish (asid first last left : Nat) : Nat → State → Nat → State × Nat
  | 0, s, _ => (s, 0)
  | fuel + 1, s, page =>
    if last / 64 < page then (s, 0)
    else if left ≤ page - first / 64 then (s, 7)
    else
      match s.walk asid (page * 4096) with
      | .fault k _ _ => (s, if k = kLasting then 7 else 3)
      | .ok t =>
        match placeOf (t.pa (page * 4096)) with
        | .hbm o ap =>
          if s.bandOf o ≠ ap then (s, 3)
          else if (s.salvaged o).isSome then (s, 7)
          else
            State.hostPublish asid first last left fuel
              (s.pubFrame o (max first (page * 64) - page * 64) (min last (page * 64 + 63) - page * 64) none) (page + 1)
        | _ => State.hostPublish asid first last left fuel s (page + 1)

/-- CODE_PUBLISH. With `actFails` it meets a lasting error after some of its frames. -/
def execCodePublish (actFails : Bool) (s : State) : Host.Outcome State Fault Refusal :=
  withCommand 2 4 s fun c =>
    let va := c.word 2
    let n := c.word 3
    if !knownAsid (c.word 1) then .done s 4
    else if 2 ^ 32 ≤ n ∨ 2 ^ 57 ≤ va ∨ 2 ^ 57 < va + n then .done s 3
    else if n = 0 then .done s 0
    else
      let first := va / 64
      let last := (va + n - 1) / 64
      let pages := last / 64 - first / 64 + 1
      let left := if actFails then Config.pagesDone s.freeCount % pages else pages
      let s : State := if actFails then { s with freeCount := s.freeCount + 1 } else s
      match State.hostPublish (c.word 1) first last left pages s (first / 64) with
      | (s, st) => .done s st

/-! ### REGION and the recalls that it waits for -/

/-- Mode of a SUB of REGION. -/
def regionOfSub (sub : Nat) : RegionMode := if sub = 0 then .dev else if sub = 1 then .shared else .priv

/-- REGION: as RGNSW; it waits at the head of the ring while a half is recalled. -/
def execRegion (s : State) : Host.Outcome State Fault Refusal :=
  withCommand 4 ((s.headCmd.map Cmd.sub).getD 0) s fun c =>
    let n := c.word 1
    let a := c.word 2
    if n = 0 ∧ a % 2 ^ 21 = 0 ∧ a ≤ 2 ^ 39 then .done s 0
    else
      match rangeRefusal a n with
      | some x => .done s (if x = 15 then 1 else 3)
      | none =>
        if !s.dieServes (keyDie a) || !s.dieServes (keyDie (a + n - 1)) then .done s 6
        else
          match State.switchRegions (regionOfSub c.sub) (n / 2 ^ 21) s (a / 2 ^ 21) with
          | (s, .done) => .done s 0
          | (s, .fails _) => .done s 3
          | (s, .waits _) => .waits s

/-- Whether the command at the head of the ring waits for the recall of a half. -/
def State.headWaits (s : State) (half : Nat) : Option Cmd :=
  s.headCmd.filter fun c =>
    !c.malformed && c.opc == 4 && regionOfSub c.sub != .shared && c.word 2 ≤ half * 64 && half * 64 < c.word 2 + c.word 1

/-! ### The host's accesses and what they wait for (15 R432-R434, R436) -/

/-- Whether Javatra has come to a REGION command that takes a region out of SHARED. -/
def State.headSwitches (s : State) (g : Nat) : Bool := s.regionMode g == .shared && (s.headWaits (g * 2 ^ 15)).isSome

/-- Whether an access of the host must wait: a half that it touches is being recalled, or its region is being switched; or an
access that waited before it has still to perform. -/
def State.hostHeld (s : State) (a : HostAccess) (place : Nat) : Bool :=
  a.halves.any fun h =>
    s.recalling h || s.headSwitches (h / 2 ^ 15) || (s.ops.any fun o => o.switches (h / 2 ^ 15)) ||
    (s.hostWaits.any fun w => w.place < place && w.access.halves.contains h) ||
    s.ops.any fun o => o.parked != 0 && o.parked < place && o.wait == .none

/-- The host makes an access: it performs, or waits at its home. Before READY, and beyond the decoder, it completes with an
error (18 R494). -/
def State.hostAsks (s : State) (a : HostAccess) : Host.Outcome State Fault Refusal :=
  .next <|
    if !s.hostInside a then (match a with | .read .. | .write .. => s.emit (.hostData [] true) | _ => s)
    else if s.hostHeld a s.nextId then
      { s with hostWaits := s.hostWaits ++ [⟨s.nextId, a⟩], nextId := s.nextId + 1 }
    else s.hostDoes a

/-- The accesses of the host that nothing holds any more perform, in order of arrival: part of what follows every act. -/
def State.drainHost (s : State) : State :=
  s.hostWaits.foldl (fun (s : State) w =>
    if s.hostHeld w.access w.place then s
    else { s with hostWaits := s.hostWaits.filter fun x => x.place != w.place }.hostDoes w.access) s

/-- HOST_CXL_MEM_READ. -/
def execHostCxlMemRead (offset length : Nat) (s : State) : Host.Outcome State Fault Refusal := s.hostAsks (.read offset length)

/-- HOST_CXL_MEM_WRITE. -/
def execHostCxlMemWrite (offset : Nat) (data : List Byte) (poison : Bool) (s : State) : Host.Outcome State Fault Refusal :=
  s.hostAsks (.write offset data poison)

/-- HOST_READ_SHARED. -/
def execHostReadShared (half : Nat) (s : State) : Host.Outcome State Fault Refusal := s.hostAsks (.shared half)

/-- HOST_READ_FOR_OWNERSHIP. -/
def execHostReadForOwnership (half : Nat) (s : State) : Host.Outcome State Fault Refusal := s.hostAsks (.own half)

/-- HOST_WRITE_BACK. -/
def execHostWriteBack (half : Nat) (data : List Byte) (s : State) : Host.Outcome State Fault Refusal := s.hostAsks (.writeBack half data)

/-- HOST_CLEAN_EVICTION. -/
def execHostCleanEviction (half : Nat) (s : State) : Host.Outcome State Fault Refusal := s.hostAsks (.evict half)

end Sys2Proof.Machine
end

