-- ==== Sys2Proof/Machine/Launching.lean ====
section
/-! DEFINITION. Launches (18 R498-R502; 01 R22-R24, R34): the launch record and its checks, acceptance, LAUNCHCTL, the
resume of saved crews, the end of a launch, ERRLOG (18 R503), and the timeout of a recall (15 R434). -/

namespace Sys2Proof.Machine

/-! ### The launch record (R498, R499) -/

/-- The bits that each word of a record lists. -/
def recordMasks : List Nat :=
  [2 ^ 57 - 1, 2 ^ 43 - 1 - 3 * 2 ^ 30, 2 ^ 64 - 1, 2 ^ 32 - 1, 2 ^ 36 - 1, 2 ^ 32 - 1, 2 ^ 57 - 1, 2 ^ 57 - 1, 2 ^ 57 - 1,
   2 ^ 57 - 1, 2 ^ 57 - 1, 2 ^ 32 - 1, 15, 2 ^ 55 - 1 - 2 ^ 31 - 2 ^ 15, 2 ^ 57 - 1, 2 ^ 64 - 1]

/-- A launch record: its sixteen words. -/
structure LRec where
  w : List Nat
  deriving DecidableEq, Repr

/-- Bits of a word of a record. -/
def LRec.bits (r : LRec) (n hi lo : Nat) : Nat := bitsNat (r.w.getD n 0) hi lo

/-- Whether a bit that is not listed is set. -/
def LRec.res0 (r : LRec) : Bool := (List.range 16).any fun n => Nat.land (r.w.getD n 0) (recordMasks.getD n 0) != r.w.getD n 0

/-- X, Y and Z of the crew shape. -/
def LRec.dims (r : LRec) : Nat × Nat × Nat := (r.bits 1 9 0 + 1, r.bits 1 19 10 + 1, r.bits 1 29 20 + 1)

/-- W and H of the rectangle. -/
def LRec.rect (r : LRec) : Nat × Nat := (r.bits 1 33 32 + 1, r.bits 1 35 34 + 1)

/-- How many clusters the grid holds. -/
def LRec.clusters (r : LRec) : Nat := r.bits 2 31 0 * r.bits 2 63 32 * r.bits 3 31 0

/-- The launch that a record describes, with the lists that Javatra reads beside it. -/
def LRec.launch (r : LRec) (num asid req : Nat) (tag : BitVec 16) (placement : List (VAddr × Nat × Word)) (recipes : List VAddr) :
    Launch where
  num := num
  tag := tag
  asid := asid
  entry := BitVec.ofNat 57 (r.bits 0 56 0)
  dims := r.dims
  rect := r.rect
  cor := r.bits 1 36 36 == 1
  priv := r.bits 1 37 37 == 1
  coop := r.bits 1 38 38 == 1
  replay := r.bits 1 39 39 == 1
  v1fmt := r.bits 1 40 40 == 1
  nbv := if r.bits 1 42 41 = 0 then 2 else BitVec.ofNat 2 (r.bits 1 42 41)
  clusters := r.clusters
  regs := (r.bits 4 4 0 + 1) * 8
  csmSize := r.bits 4 12 5 * 4096
  slots := r.bits 4 19 13
  accs := r.bits 4 24 20
  shapesN := r.bits 4 29 25
  barsN := r.bits 4 35 30
  lsize := BitVec.ofNat 32 (r.bits 5 31 0)
  argp := BitVec.ofNat 57 (r.bits 6 56 0)
  lbase := BitVec.ofNat 57 (r.bits 7 56 0)
  handler := BitVec.ofNat 57 (r.bits 8 56 0)
  ctxarea := BitVec.ofNat 57 (r.bits 9 56 0)
  placement := placement
  recipes := recipes
  rcslots := r.bits 12 3 0
  rcneeds := BitVec.ofNat 55 (r.bits 13 54 0)
  stages := BitVec.ofNat 64 (r.w.getD 15 0)
  req := req

/-- Whether the stage map fails R23 or R498: a byte without V that is not 0, or an offset outside the rectangle. -/
def stagesBad (l : Launch) : Bool :=
  l.stages != 0 && (List.range 8).any fun st =>
    let b := stageByte l.stages st
    if bitNat b 7 then l.rect.1 ≤ bitsNat b 1 0 || l.rect.2 ≤ bitsNat b 3 2 else b != 0

/-- Whether the crews on some core of the rectangle exceed the core. -/
def coresExceed (l : Launch) : Bool :=
  (List.range l.rect.2).any fun dy => (List.range l.rect.1).any fun dx => !(l.needsAt dx dy).within coreNeeds

/-- Whether a field of a record is out of range. -/
def LRec.rangeBad (r : LRec) (l : Launch) : Bool :=
  let n := descNeeds l.rcneeds.toNat
  1024 < l.dims.1 * l.dims.2.1 * l.dims.2.2 || r.bits 1 42 41 == 3 ||
  r.clusters == 0 || 2 ^ 32 ≤ r.clusters ||
  128 * 4096 < l.csmSize || 64 < l.slots || 16 < l.accs || 16 < l.shapesN || 32 < l.barsN || l.lsize.toNat % 16 != 0 ||
  r.bits 10 56 0 % 16 != 0 || !hostRange (r.bits 10 56 0) (16 * r.bits 11 15 0) ||
  r.bits 14 56 0 % 8 != 0 || !hostRange (r.bits 14 56 0) (8 * r.bits 11 31 16) || 8 < l.rcslots ||
  128 * 4096 < n.csm || 64 < n.slots || 16 < n.accs || 16 < n.shapes || 32 < n.bars

/-- The co-resident test: every cluster at once on an idle module (01 R24). -/
def State.corFits (s : State) (l : Launch) : Bool :=
  !l.cor || (State.startAll 200 { s with crews := [], ops := [], launches := [l] } l.num 0).isSome

/-- Whether Javatra refuses a launch with a launch error (R501). -/
def State.launchRefused (s : State) (r : LRec) (l : Launch) : Bool :=
  r.res0 || r.rangeBad l || stagesBad l || coresExceed l || !s.corFits l

/-- The placement map of a record (R499). -/
def State.placementOf (s : State) (r : LRec) : List (VAddr × Nat × Word) :=
  (List.range (r.bits 11 15 0)).map fun i =>
    let k := hostMem + r.bits 10 56 0 + 16 * i
    let w := s.nat (k + 8) 8
    (BitVec.ofNat 57 (s.nat k 8), bitsNat w 63 32, BitVec.ofNat 32 w)

/-- The recipe entries of a record. -/
def State.recipesOf (s : State) (r : LRec) : List VAddr :=
  (List.range (r.bits 11 31 16)).map fun i => BitVec.ofNat 57 (s.nat (hostMem + r.bits 14 56 0 + 8 * i) 8)

/-- The ASID of launch n: (n − 1) mod 4,094 + 1, or the next one that no live launch uses (16 R451). -/
def State.nextAsid (s : State) (num : Nat) : Nat :=
  (((List.range 4094).map fun i => (num - 1 + i) % 4094 + 1).find? fun a => (s.launchOfAsid a).isNone).getD 1

/-- LAUNCH. With `readFails` a read of the record or of its lists fails. -/
def execLaunch (readFails : Bool) (s : State) : Host.Outcome State Fault Refusal :=
  withCommand 1 0 s fun c =>
    let a := c.word 1
    if a % 64 ≠ 0 ∨ !hostRange a 128 then .done s 1
    else if !s.dieServes 0 then .done s 6
    else if readFails then .done s 7
    else
      let r : LRec := ⟨s.wordsAt (hostMem + a) 16⟩
      let l := r.launch s.nextLaunch (s.nextAsid s.nextLaunch) s.nextId c.tag (s.placementOf r) (s.recipesOf r)
      if s.launchRefused r l then .done s 2
      else
        let t : State := { s with launches := s.launches ++ [l], nextLaunch := s.nextLaunch + 1, nextId := s.nextId + 1 }
        let dies := ((s.rcmps.filter fun p => p.1 == l.asid).map fun p => frameDie p.2).eraseDups
        match t.allocReserves l.num dies with
        | none => .done s 3
        | some t => .done (t.needRoot l.asid).1 0 l.num

/-! ### LAUNCHCTL (R497, R501, R502; 17 R483) -/

/-- The request reaches one crew. -/
def State.askSave (s : State) (n : Nat) (c : Crew) : State :=
  let s := s.setCrew c.id fun c => { c with pend := true, remain := BitVec.ofNat 32 n }
  if c.save.isSome then s
  else if c.coop then
    (List.range c.warps.length).foldl (fun (s : State) w => (List.range 32).foldl (fun (s : State) l => s.asyncTrap c.id w l 0x18) s) s
  else s.forceSave c.id

/-- Whether a crew is a recompute's. -/
def Crew.isRecompute (c : Crew) : Bool := match c.kind with | .recompute _ _ => true | _ => false

/-- LAUNCHCTL_PREEMPT: the request is open for every crew but those of recomputes. -/
def execLaunchctlPreempt (s : State) : Host.Outcome State Fault Refusal :=
  withCommand 8 0 s fun c =>
    if 2 ^ 32 ≤ c.word 2 then .done s 1
    else
      match s.launch? (c.word 1) with
      | none => .done s 4
      | some l =>
        if !l.alive then .done s 4
        else
          let s := s.setLaunch l.num fun l => { l with st := .preempting }
          let mine := s.crews.filter fun k => k.launch == l.num && !k.isRecompute
          .done (mine.foldl (fun (s : State) k => s.askSave (c.word 2) k) s) 0

/-- LAUNCHCTL_END: it waits for a save that is under way (R513), and for an end that has already begun. -/
def execLaunchctlEnd (s : State) : Host.Outcome State Fault Refusal :=
  withCommand 8 1 s fun c =>
    match s.launch? (c.word 1) with
    | none => if 1 ≤ c.word 1 ∧ c.word 1 < s.nextLaunch then .done s 0 else .done s 4
    | some l =>
      if !l.alive ∨ s.crews.any fun k => k.launch == l.num && k.save.isSome then .waits s
      else .taken (s.beginEnd l.num 1 (some c.tag))

/-- Who reads the area of a saved crew for a resume. -/
def Launch.resumeWho (l : Launch) (a : SaveRec) : Who :=
  { crew := none, asid := l.asid, loc := .data a.core, core := a.core, engine := .xle }

/-- What the read of a saved area must wait for: a recall or a recompute, which is asked for, or an access that has performed
early. -/
def State.resumeStop (s : State) (l : Launch) (a : SaveRec) : Option State :=
  let w := l.resumeWho a
  let asks : State × Gate → Option State
    | (s, .recall h share) => some (s.startRecall h share)
    | (s, .park d i) => some (State.request requestFuel s d i 1)
    | (s, .later) => some s
    | _ => none
  match s.readHeader w a.base.toNat with
  | (s, .error g) => asks (s, g)
  | (s, .ok h) =>
    match s.reach w a.base.toNat h.area.size true { r := true, w := true } with
    | (s, .error g) => asks (s, g)
    | _ => none

/-- A resume under way: the state, the crews not loaded, whether one failed on a lasting error, and whether one found no
room. -/
structure Resume where
  s       : State
  failed  : Nat := 0
  lasting : Bool := false
  noRoom  : Bool := false

/-- Where the crew of an area goes: its cluster's rectangle, or the core it was saved from. -/
def State.resumeAt (s : State) (l : Launch) (r : SaveRec) (h : Header) : Option (Nat × (Nat × Nat)) :=
  match r.origin with
  | .launch =>
    match l.live.find? fun k => k.index == h.cluster.toNat with
    | some k => some (k.die, k.corner)
    | none => s.placeCluster l h.cluster.toNat
  | _ => some (dieOfCore r.core, coreXY r.core)

/-- One area is loaded, held. -/
def Resume.load (r : Resume) (l : Launch) (a : SaveRec) : Resume :=
  let base := a.base.toNat
  let fails (s : State) (c : BitVec 6) : Resume := { r with s, failed := r.failed + 1, lasting := r.lasting || c == 2 || c == 13 }
  let stops (s : State) (g : Gate) : Resume :=
    match g with
    | .fault _ k _ _ => fails s (causeOfKind k)
    | .fail c _ => fails s c
    | .recall _ _ => fails s 2
    | _ => fails s 12
  match r.s.readHeader (l.resumeWho a) base, r.s.launch? l.num with
  | (s, .error g), _ => stops s g
  | (s, .ok _), none => fails s 12
  | (s, .ok h), some now =>
    match s.resumeAt now a h with
    | none => { r with noRoom := true }
    | some (die, corner) =>
      if h.launch ≠ l.num ∨ s.loadRefused h base 0 die (some corner) then fails s 12
      else
        match s.loadArea (l.resumeWho a) base h die corner false false with
        | (s, .loaded) => { r with s }
        | (s, .fails c _) => fails s c
        | (s, .stops g) => stops s g
        | (_, .noRoom) => { r with noRoom := true }

/-- The crews that a resume has loaded start, and the command completes. -/
def Resume.ends (r : Resume) (l : Launch) (first : Nat) : CmdOut :=
  let t := r.s.setLaunch l.num fun l => { l with st := .running }
  .done { t with crews := t.crews.map fun k => if k.launch = l.num ∧ first ≤ k.id then { k with heldLoad := false } else k }
    (if r.lasting then 7 else if r.failed ≠ 0 then 2 else 0) r.failed

/-- LAUNCHCTL_RESUME: the areas of the save list are loaded when all of them can be, and their crews start. -/
def execLaunchctlResume (s : State) : Host.Outcome State Fault Refusal :=
  withCommand 8 2 s fun c =>
    match s.launch? (c.word 1) with
    | none => .done s 4
    | some l =>
      if !l.alive then .done s 4
      else if l.st = .preempting then .waits s
      else
        match l.saves.findSome? fun a => s.resumeStop l a with
        | some t => .waits t
        | none =>
          let r := l.saves.foldl (fun (r : Resume) a => r.load l a) { s }
          if r.noRoom then .waits s else r.ends l s.nextId

/-! ### A recall that fails (15 R434) -/

/-- Whether what stopped an access is the recall of a half. -/
def stoppedAt {α : Type} (half : Nat) : Except Gate α → Bool
  | .error (.recall h _) => h == half
  | _ => false

/-- The packets of peers that a recall holds back. -/
def State.packetsAt (s : State) (half : Nat) : List PeerPacket :=
  s.reorder.filter fun p => !s.packetHeld p && stoppedAt half (s.reachPacket p).2

/-- The saves that a recall holds back. -/
def State.savesAt (s : State) (half : Nat) : List (Crew × SaveSt) :=
  s.crews.filterMap fun c =>
    match c.save with
    | some sv =>
      if s.saveSettled c && stoppedAt half (s.reach (s.saveWho c) sv.base.toNat c.area.size true { w := true }).2 then some (c, sv) else none
    | none => none

/-- The LAUNCHCTL.resume at the head of the ring, when the read of one of its areas waits for a half. -/
def State.resumeAtHalf (s : State) (half : Nat) : Option (Cmd × Launch) :=
  match s.headCmd with
  | none => none
  | some c =>
    if c.malformed ∨ c.opc ≠ 8 ∨ c.sub ≠ 2 then none
    else
      match s.launch? (c.word 1) with
      | none => none
      | some l =>
        let waits (a : SaveRec) : Bool :=
          let w := l.resumeWho a
          match s.readHeader w a.base.toNat with
          | (s, .ok h) => stoppedAt half (s.reach w a.base.toNat h.area.size true { r := true, w := true }).2
          | (_, e) => stoppedAt half e
        if l.saves.any waits then some (c, l) else none

/-- The command of Javatra that waited for a recall ends with a lasting error: a REGION, or a resume, whose other areas are
loaded. -/
def State.endCommandAt (s : State) (half : Nat) : State :=
  match s.headWaits half, s.resumeAtHalf half with
  | some c, _ => s.advanceRing.complete c.tag 7 0
  | none, some (c, l) =>
    match (l.saves.foldl (fun (r : Resume) a => r.load l a) { s }).ends l s.nextId with
    | .done t st r => t.advanceRing.complete c.tag st r
    | .taken t | .waits t => t
  | none, none => s

/-- A recall has failed: what needed it fails with cause 2 and an ORIGIN naming HME, a save of which it stopped a write is
abandoned, and a command of Javatra ends with STATUS 7. The half keeps its state. -/
def State.failRecall (s : State) (half : Nat) : State :=
  let g := homeOrigin (half * 64)
  let packets := s.packetsAt half
  let saves := s.savesAt half
  let s := (s.logErr 2 6 g (BitVec.ofNat 64 (half / 2 * 128)) 0 0).endCommandAt half
  let s : State :=
    { s with
      recalls := s.recalls.filter fun r => r.half != half
      ops := s.ops.map fun o =>
        if o.wait = .recall half then
          let o : Op := { o with wait := .none }
          if queueOf o.instr = some .cpe then o.failAt o.prog (2, g) else { o with fail := o.fail.orElse fun _ => some (2, g) }
        else (o.rows.filter fun r => r.recalled == some half).foldl (fun (o : Op) r => o.failAt r.row (2, g)) o }
  let s := s.endStackRecalls half true
  let s := saves.foldl (fun (s : State) p => s.abandonSave p.1 p.2) s
  let s := packets.foldl (fun (s : State) p => s.packetDone p (.peerFail p.source p.seq (rclassOfCause 2))) s
  s.drainPackets

/-- RECALL_TIMEOUT: the first is sent once more, the second is a lasting failure. -/
def execRecallTimeout (half : Nat) (s : State) : Host.Outcome State Fault Refusal :=
  .next <|
    match s.recalls.find? fun r => r.half == half with
    | none => s
    | some r =>
      if r.sent ≤ 1 then
        ({ s with recalls := updWhere (fun r => r.half == half) (fun r => { r with sent := 2 }) s.recalls }.logErr 1 6
          (homeOrigin (half * 64)) (BitVec.ofNat 64 (half / 2 * 128)) 0 0).emit (.snoop half)
      else s.failRecall half

/-- A pre-empt request has been served for every crew of a launch, and its recomputes have settled (17 R483). -/
def State.saved (s : State) (l : Launch) : Bool :=
  l.st == .preempting && !(s.crews.any fun c => c.launch == l.num && (c.pend || c.isRecompute)) &&
  !(s.dies.any fun d => d.requests.any fun q =>
    match d.recipes.find? fun r => r.idx == q.recipe with
    | some r => ((d.streams[r.stream]?).map Stream.owner) == some l.num
    | none => false)

/-- The launches whose pre-emption has been served are pre-empted (R502): part of what follows every act. -/
def State.settleLaunches (s : State) : State :=
  { s with launches := s.launches.map fun l => if s.saved l then { l with st := .preempted } else l }

/-! ### The end of a launch (R501; 13 R373; 14 R417) -/

/-- Whether a launch has ended by itself: every cluster has been dispatched, no crew is left or can still come, and
nothing that it submitted is under way. -/
def State.endedAlone (s : State) (l : Launch) : Bool :=
  l.alive && l.nextCl == l.clusters && l.saves.isEmpty && !(s.crews.any fun c => c.launch == l.num) &&
  !(s.ops.any fun o => o.launch == l.num && !(match o.instr with | .queueRefill .. => true | _ => false)) &&
  !(s.dies.any fun d => d.tasks.any fun t => t.launch == l.num) &&
  !(s.cores.any fun c => c.bins.any fun b => b.owner == l.num && (b.st == .forming || b.st == .draining))

/-- Whether a launch that is made to end has settled. -/
def State.endSettled (s : State) (l : Launch) : Bool :=
  (match l.st with | .ending _ _ => true | _ => false) && !(s.ops.any fun o => o.launch == l.num) &&
  !(s.arrivals.any fun a => s.crews.any fun c => c.id == a.crew && c.launch == l.num)

/-- Items of a queue that have not been consumed. -/
def WorkQueue.left (q : WorkQueue) : Nat := if q.en then (q.rsv - q.head).toNat else 0

/-- Records and items of a launch that had not formed warps. -/
def State.undelivered (s : State) (num : Nat) : Nat :=
  ((s.cores.flatMap Core.bins).filter fun b => b.st != .free && b.owner == num).foldl (fun n b => n + b.recs.length) 0 +
  ((s.dies.flatMap Die.queues).filter fun q => q.en && q.owner == num).foldl (fun n q => n + q.left) 0

/-- The recipes of a launch's streams on a die. -/
def State.launchRecipes (s : State) (num die : Nat) : List Nat :=
  ((s.die die).recipes.filter fun r => (s.stream die r.stream).used && (s.stream die r.stream).owner == num).map Recipe.idx

/-- The recipes of a launch are retired, whatever waits for them, and its entries on a die are freed. -/
def State.freeDie (s : State) (num die : Nat) : State :=
  let s := (s.launchRecipes num die).foldl (fun (s : State) i =>
    let s := s.setDie die fun d => { d with requests := d.requests.filter fun q => q.recipe != i }
    (s.unpark die i none).retire die i) s
  s.setDie die fun d =>
    { d with
      tasks := d.tasks.filter fun t => t.launch != num
      streams := d.streams.map fun t => if t.used && t.owner == num then {} else t
      queues := d.queues.map fun q => if q.en && q.owner == num then {} else q }

/-- The word that a launch's second completion holds. -/
def Launch.endWord (l : Launch) (reason : Nat) : Nat :=
  reason * 2 ^ 56 + min l.haltedN 255 * 2 ^ 48 + min l.discards 65535 * 2 ^ 32 + l.poisons % 2 ^ 32

/-- A launch ends for a REASON: what it holds is freed and its second completion is written. -/
def State.endLaunch (s : State) (num reason : Nat) (tag : Option (BitVec 16)) : State :=
  let n := s.undelivered num
  let s := s.setLaunch num fun l => { l with discards := l.discards + n }
  let s := if n = 0 then s else s.logErr 3 10 (dieOrigin .tbe 0 0) 0 num (BitVec.ofNat 64 n)
  match s.launch? num with
  | none => s
  | some l =>
    let s := (s.freeDie num 0).freeDie num 1
    let s : State :=
      { s with
        crews := s.crews.filter fun c => c.launch != num
        ops := s.ops.filter fun o => o.launch != num
        cores := s.cores.map fun c =>
          { c with
            bins := c.bins.map fun b => if b.st != .free && b.owner == num then {} else b }
        launches := s.launches.filter fun x => x.num != num }
    let s := s.complete l.tag 0 (l.endWord reason)
    match tag with
    | some t => s.complete t 0 0
    | none => s

/-- LAUNCH_END. -/
def execLaunchEnd (launch : Nat) (s : State) : Host.Outcome State Fault Refusal :=
  .next <|
    match s.launch? launch with
    | none => s
    | some l =>
      match l.st with
      | .ending reason tag => if s.endSettled l then s.endLaunch launch reason tag else s
      | _ => if s.endedAlone l then s.endLaunch launch 0 none else s

/-! ### ERRLOG (R503) -/

/-- The 32 bytes of an entry. -/
def ErrEnt.bytes (e : ErrEnt) : List Byte :=
  leBytes 8 (e.cls % 256 * 2 ^ 56 + e.kind % 256 * 2 ^ 48 + e.count % 65536 * 2 ^ 32 + e.origin.toNat) ++ leBytes 8 e.addr.toNat ++
  leBytes 8 (e.launch % 2 ^ 32 * 2 ^ 32 + e.seq % 2 ^ 32) ++ leBytes 8 e.detail.toNat

/-- ERRLOG. -/
def execErrlog (s : State) : Host.Outcome State Fault Refusal :=
  withCommand 5 0 s fun c =>
    let es := (s.errlog.filter fun e => c.word 2 ≤ e.seq).take (c.word 3)
    if !hostRange (c.word 1) (32 * es.length) then .done s 1
    else if !s.dieServes 0 then .done s 6
    else .done (s.store (hostMem + c.word 1) (es.flatMap ErrEnt.bytes)) 0 es.length

end Sys2Proof.Machine
end

