-- ==== Sys2Proof/Machine/Javatra.lean ====
section
/-! DEFINITION. What Javatra does to the module as a whole: resets (18 R504-R507), firmware items (18 R508; 01 R15),
attestation (18 R509-R511) and throttling (18 R512). -/

namespace Sys2Proof.Machine

/-! ### Resets (R504-R507) -/

/-- Whether a repair map names 96 distinct physical cores of 104 (01 R15). -/
def mapOk (m : List Nat) : Bool := m.length == 96 && m.all (· < 104) && m.eraseDups.length == 96

/-- The repair map that flash gives a die at a cold reset; none when its signature fails or it is not one-to-one. -/
def Flash.mapOf (f : Flash) (die : Nat) : List Nat :=
  match f.maps[die]? with
  | some (m, good) => if good && mapOk m then m else []
  | none => []

/-- A die after a reset. -/
def freshDie (tr : Training) (n : Nat) (repair : List Nat) : Die :=
  { avail := (if n = 0 then tr.dies.1 else tr.dies.2) && !repair.isEmpty
    repair
    hbmup := tr.hbmUp.extractLsb' (4 * n) 4 }

/-- The pod size that Javatra configures: up to 1,024 behind standard switches, and up to 4,096 behind Vistitum switches
(01 R28). -/
def podOf (tr : Training) : Nat := max 1 (min tr.podSize (if tr.vistitum then 4096 else 1024))

/-- What training and Javatra set before READY (R506; 12 R342); E is one of the endpoints 0 to N − 1. -/
def State.trained (s : State) (tr : Training) : State :=
  { s with ports := tr.ports, endpoint := tr.endpoint % podOf tr, podSize := podOf tr, vistitum := tr.vistitum, bar0 := { ready := true } }

/-- The memory of the host, which no reset of the module touches. -/
def State.hostCells (s : State) : List Host.Cell := s.mem.filter fun c => !isHbm c.1

/-- A cold reset: the module as it leaves the factory, but for its flash (R504). -/
def State.coldReset (s : State) (tr : Training) : State :=
  let d (n : Nat) : Die := freshDie tr n (s.flash.mapOf n)
  { State.reset with
    agenda := s.agenda
    nextId := s.nextId
    freeCount := s.freeCount
    outputs := s.outputs
    mem := s.hostCells
    undef := s.undef.filter fun r => 2 ^ 39 < r.hi
    dies := [d 0, d 1]
    flash := { s.flash with runSha := s.flash.imageSha }
    secret := tr.secret }.trained tr

/-- Every cache's dirty data is discarded: HBM4E holds what it held at the last write-back (R505). -/
def State.dropDirty (s : State) : State :=
  { s with mem := s.stale.foldl (fun (m : List Host.Cell) c => memPut s.undef m c.1 c.2) s.mem, stale := [] }

/-- The second completion of a launch that a warm reset ends. -/
def State.warmEnd (s : State) (l : Launch) : Completion :=
  let l : Launch := { l with discards := l.discards + s.undelivered l.num }
  { tag := l.tag, status := 0, event := false, word1 := BitVec.ofNat 64 (l.endWord 2) }

/-- A warm reset (R504, R505). -/
def State.warmReset (s : State) (tr : Training) : State :=
  let m := s.dropDirty
  let d (n : Nat) : Die := { freshDie tr n (s.die n).repair with salvCnt := (s.die n).salvCnt, salvDrop := (s.die n).salvDrop }
  { State.reset with
    agenda := s.agenda
    nextId := s.nextId
    freeCount := s.freeCount
    outputs := s.outputs
    nextLaunch := s.nextLaunch
    mem := m.mem
    undef := s.undef
    mdata := s.mdata
    grades := s.grades
    poisoned := s.poisoned
    code := s.code
    xmaps := s.xmaps
    rcmps := s.rcmps
    roots := s.roots
    tables := s.tables
    bands := s.bands
    errlog := s.errlog
    errSeq := s.errSeq
    completions := s.launches.map s.warmEnd
    dies := [d 0, d 1]
    flash := s.flash
    secret := s.secret }.trained tr

/-- Whether the command at the head of the ring is RESET with a SUB. -/
def State.resetAsked (s : State) (sub : Nat) : Bool :=
  (s.headCmd.map fun c => !c.malformed && c.opc == 6 && c.sub == sub).getD false

/-- RESET_COLD: the last command taken; it has no completion (R507). -/
def execResetCold (training : Training) (s : State) : Host.Outcome State Fault Refusal :=
  if s.resetAsked 0 then .next (s.coldReset training) else withCommand 6 0 s fun _ => .waits s

/-- RESET_WARM. -/
def execResetWarm (training : Training) (s : State) : Host.Outcome State Fault Refusal :=
  if s.resetAsked 1 then .next (s.warmReset training) else withCommand 6 1 s fun _ => .waits s

/-- POWER_ON: power-up starts a cold reset. -/
def execPowerOn (training : Training) (s : State) : Host.Outcome State Fault Refusal := .next (s.coldReset training)

/-! ### Firmware items (R508; 01 R15) -/

/-- The item that a FWLOAD names, when its signature verifies. -/
def State.itemOf (s : State) (c : Cmd) : Option (List Byte) :=
  let bs := s.bytes (hostMem + c.word 1) (c.word 2)
  if Config.hssVerifies bs then some bs else none

/-- FWLOAD_IMAGE: a new image takes effect at the next cold reset. -/
def execFwloadImage (s : State) : Host.Outcome State Fault Refusal :=
  withCommand 9 0 s fun c =>
    if !hostRange (c.word 1) (c.word 2) then .done s 1
    else
      match s.itemOf c with
      | none => .done s 8
      | some bs =>
        if Config.itemVersion bs % 2 ^ 32 < s.flash.minImage then .done s 8
        else .done { s with flash := { s.flash with imageSha := Config.sha256 bs } } 0

/-- The 96 indices of a repair map. -/
def itemMap (bs : List Byte) : List Nat := (List.range 96).map fun k => Config.itemCore bs k % 256

/-- A repair map is written to flash; that of an unavailable die also goes into always-on SRAM, and the die is released. -/
def State.loadMap (s : State) (bs : List Byte) (die : Nat) : State :=
  let m := itemMap bs
  let s : State := { s with flash := { s.flash with maps := s.flash.maps.set die (m, true) } }
  if (s.die die).avail || !mapOk m then s else s.setDie die fun d => { d with repair := m, avail := true }

/-- FWLOAD_REPAIR_MAP. -/
def execFwloadRepairMap (s : State) : Host.Outcome State Fault Refusal :=
  withCommand 9 1 s fun c =>
    if !hostRange (c.word 1) (c.word 2) then .done s 1
    else
      match s.itemOf c with
      | none => .done s 8
      | some bs =>
        let die := Config.itemDie bs % 2
        if Config.itemVersion bs % 2 ^ 32 < s.flash.minMap.getD die 0 then .done s 8 else .done (s.loadMap bs die) 0

/-! ### Attestation (R509-R511) -/

/-- The 32 bytes of a digest. -/
def shaBytes (d : BitVec 256) : List Byte := leBytes 32 d.toNat

/-- The 136 bytes that an attestation signs. -/
def State.measurement (s : State) (nonce : List Nat) : List Byte :=
  let map (n : Nat) : List Byte :=
    if (s.die n).repair.isEmpty then List.replicate 32 0
    else shaBytes (Config.sha256 ((s.die n).repair.map fun k => BitVec.ofNat 8 k))
  nonce.flatMap (leBytes 8) ++ shaBytes s.flash.runSha ++ map 0 ++ map 1 ++ leBytes 8 s.flash.q

/-- The bytes of a signature over a message, with counter q (18 R510; DESIGN CHOICE, log 14). -/
def attestBytes (q : Nat) (msg : List Byte) : List Byte := (List.range 5396).map fun k => Config.attestSignature q msg k

/-- ATTEST. With `flashFails` the write of the counter fails, and no signature is released. -/
def execAttest (flashFails : Bool) (s : State) : Host.Outcome State Fault Refusal :=
  withCommand 7 0 s fun c =>
    if !hostRange (c.word 1) 5532 then .done s 1
    else if !s.secret then .done s 7
    else if 2 ^ 30 ≤ s.flash.q then .done s 5
    else if flashFails then .done s 7
    else
      let q := s.flash.q
      let msg := s.measurement [c.word 2, c.word 3, c.word 4, c.word 5]
      let s : State := { s with flash := { s.flash with q := q + 1 } }
      .done (s.store (hostMem + c.word 1) (msg ++ attestBytes q msg)) 0

/-! ### Power and temperature (R512) -/

/-- THROTTLE_STEP: the sensors are read, and the arithmetic clock moves by one step towards what they ask for. -/
def execThrottleStep (power junction inlet : Nat) (s : State) : Host.Outcome State Fault Refusal :=
  let s := s.setBar fun b =>
    { b with pwrNow := BitVec.ofNat 12 power, junction := BitVec.ofNat 8 junction, inlet := BitVec.ofNat 8 inlet }
  let hot := s.bar0.pwrCap.toNat < power || 95 < junction
  let f := if hot then max 700 (s.clock - 100) else min 2100 (s.clock + 100)
  .next (if f = s.clock then s else { s with clock := f }.logErr Config.throttleClass Config.throttleKind 0 0 0 (BitVec.ofNat 64 f))

end Sys2Proof.Machine
end

