-- ==== Sys2Proof/Machine/Board.lean ====
section
/-! DEFINITION. The scoreboard of a warp and the other holds of an issue (02 R80; 04 R127, R156; 10 R288, R294, R310;
11 R313, R317; and the queues of 01 R515). A held group is passed over; the hold changes nothing but the watchdog count
of 01 R36. -/

namespace Sys2Proof.Machine

/-! ### Registers that operations have still to write (R80; 07 R232) -/

/-- The destination of an operation that writes registers when it performs, and its width in bits. -/
def opResult (i : Instr) : Option (Opd × Nat) :=
  match i with
  | .addrq f _ => some (f.d, 64)
  | _ => (resultOf i).orElse fun _ => fabResult i

/-- The accepted operations of a warp. -/
def State.opsOf (s : State) (crew warp : Nat) : List Op := s.ops.filter fun o => o.crew == crew && o.warp == warp && !o.orphan

/-- Whether an operation has still to write vector register r of lane l. -/
def Op.writesVec (o : Op) (l r : Nat) : Bool :=
  match opResult o.instr with
  | some (.uni _, _) | none => false
  | some (_, bits) => o.acc.any fun a => a.lane == l && a.dst ≤ r && r < a.dst + bits / 32

/-- Whether an operation has still to write uniform register r. -/
def Op.writesUni (o : Op) (r : Nat) : Bool :=
  match opResult o.instr with
  | some (.uni d, _) => d.toNat == r
  | _ => false

/-- How many registers a uniform operand takes. -/
def uniSpan : List Cls → Nat
  | [] => 1
  | .uni n :: _ => n
  | _ :: cs => uniSpan cs

/-- Whether a field admits vector registers. -/
def admitsVec (cs : List Cls) : Bool := cs.any fun c => match c with | .vec _ | .vecDirect => true | _ => false

/-- The vector registers that an operand names in a thread. -/
def Thread.names (t : Thread) (i : Instr) (o : Opd) (cs : List Cls) : List Nat :=
  if !admitsVec cs then []
  else
    match t.vecIndex o with
    | none => []
    | some r =>
      let n := match i, cs with
        | .tlu _ k, [.vecDirect] => k.toNat + 1
        | _, _ => vecSpan cs
      (List.range n).map (r + ·)

/-- The uniform registers that an operand names; a keyring in a register reads it. -/
def uniNames (o : Opd) (cs : List Cls) : List Nat :=
  match o with
  | .uni r => (List.range (uniSpan cs)).map (r.toNat + ·)
  | .ring r => [r.toNat]
  | _ => []

/-- Whether an issue names a register that an operation has still to write. -/
def Issue.busyWith (I : Issue) (o : Op) : Bool :=
  (formFields I.form).any fun p =>
    (uniNames p.1 p.2).any o.writesUni ||
    I.lanes.any fun l => ((I.thread l).names I.i p.1 p.2).any (o.writesVec l)

/-! ### Tokens of a TSIG.DONE that has still to change its record (04 R156) -/

/-- Whether an issue names such a token. -/
def Issue.namesSignal (I : Issue) : Bool :=
  (formFields I.form).any fun p => (I.warp.ring p.1).any fun t => I.warp.sigs.any fun g => g.tok == t

/-! ### Tiles (10 R288, R310; 11 R313) -/

/-- A run of tiles of one kind: kind, first number, how many. -/
abbrev TileRun := TileKind × Nat × Nat

/-- Whether two runs share a tile. -/
def tilesMeet (x y : TileRun) : Bool := x.1 == y.1 && x.2.1 < y.2.1 + y.2.2 && y.2.1 < x.2.1 + x.2.2

/-- The tiles that an accepted operation writes. -/
def Op.tilesOut (o : Op) : List TileRun :=
  match o.instr with
  | .hload f => [(.h, Opd.tileNo f.d, 1)]
  | .tload f _ => [(.q, Opd.tileNo f.d, o.sh.slotCount)]
  | .mma f _ | .mmag f _ | .mzero f _ _ | .mload f _ _ _ | .mepi f _ => [(.a, Opd.tileNo f.d, 1)]
  | _ => []

/-- The operand slots that a multiply reads. -/
def mmaReads (f : Fields) (desc : Nat) : List TileRun :=
  match mmaDesc desc with
  | some d => [(.q, Opd.tileNo f.a, mmaSlots f.ty d (dimSize d.mc)), (.q, d.qb, mmaSlots f.ty d (dimSize d.nc))]
  | none => []

/-- The operand slots that an accepted operation reads. -/
def Op.slotsIn (o : Op) : List TileRun :=
  match o.instr with
  | .mma f _ | .mmag f _ => mmaReads f (o.arg 0)
  | .mepi f .bias => [(.q, Opd.tileNo f.b, 1)]
  | _ => []

/-- The operand slots that an issue would fill. -/
def Issue.slotsOut (I : Issue) : List TileRun :=
  match I.i with
  | .tload f _ =>
    match I.crew.shape? f.a with
    | some r => [(.q, Opd.tileNo f.d, (shapeOf r).slotCount)]
    | none => []
  | _ => []

/-- The tiles that an issue reads or writes: those that its fields name, the runs that a multiply reads and the run that a
TLOAD fills. -/
def Issue.tiles (I : Issue) : List TileRun :=
  let named := (formFields I.form).filterMap fun p => match p.1 with | .tile k n => some (k, n.toNat, 1) | _ => none
  let runs :=
    match I.i with
    | .mma f _ => mmaReads f (I.read I.low f.b 64)
    | .mmag f _ => mmaReads f (I.uniPair f.b).1
    | _ => []
  named ++ runs ++ I.slotsOut

/-- Whether a PENDING operation of the warp holds an issue for its tiles. An MXE operation does not wait for another: the
MXE orders the two (11 R313). -/
def Issue.tileHeld (I : Issue) (o : Op) : Bool :=
  (o.tilesOut.any fun x => I.tiles.any (tilesMeet x) &&
    !(queueOf o.instr == some .mxe && queueOf I.i == some .mxe)) ||
  (o.slotsIn.any fun x => I.slotsOut.any (tilesMeet x))

/-! ### The stack (04 R130; 03 R105) -/

/-- The access that CALL, CALLX or RET would make to its stack, as an access of the thread behind every earlier one. -/
def Issue.stackOp (I : Issue) (l : Nat) : Option Op :=
  let op (i : Instr) (off : Nat) : Op :=
    { id := I.s.nextId, crew := I.cid, warp := I.wi, core := I.core, slot := I.warp.slot, launch := I.crew.launch, instr := i
      lanes := laneBit l, tok := 0, keys := []
      acc := [{ lane := l, addr := BitVec.ofNat 64 (I.s.localBase I.crew I.warp.slot I.wi l + off) }] }
  let zero : Fields := ⟨.always, .always, .b64, .dflt, .vec 0, .vec 0, .vec 0, .vec 0, .vec 0⟩
  let csp := (I.thread l).csp.toNat
  match I.i with
  | .call _ | .callx _ => if csp < 8 then none else some (op (.stloc zero) (csp - 8))
  | .ret _ => some (op (.ldloc zero) csp)
  | _ => none

/-- Whether earlier accesses of a thread have still to perform before its stack access. -/
def Issue.stackHeld (I : Issue) : Bool :=
  I.lanes.any fun l => match I.stackOp l with | some o => !I.s.mayPerform o | none => false

/-! ### The answers of fault records (16 R462) -/

/-- Whether a form writes `%xlrp`. -/
def writesXlrp : Instr → Bool
  | .setsr f | .mov f => f.d == .sreg 0x123
  | _ => false

/-- Whether earlier accesses of the threads have still to perform before a write of `%xlrp`, which is a release. -/
def Issue.xlrpHeld (I : Issue) : Bool := writesXlrp I.i && I.s.pendingBefore I.cid I.wi I.act I.s.nextId

/-! ### Queues (01 R515) -/

/-- How many operations a queue holds. -/
def Queue.size : Queue → Nat
  | .lme => 64 | .cpe => 32 | .fab => 32 | .mxe => 16 | .tbe => 16

/-- Whether the queue that an issue's form goes to has room: an LME queue serves one quadrant, the others a core. -/
def Issue.queueRoom (I : Issue) : Bool :=
  match queueOf I.i with
  | none => true
  | some q =>
    (I.s.ops.filter fun o =>
      o.core == I.core && o.queued && queueOf o.instr == some q && (q != .lme || o.slot / 16 == I.warp.slot / 16)).length < q.size

/-- Whether the wards of a CPE form have room (10 R294). -/
def Issue.wardRoom (I : Issue) : Bool :=
  match I.form.body with
  | .regs f => if queueOf I.i = some .cpe then I.cpeFits f else true
  | _ => true

/-! ### The holds together -/

/-- Why a group does not issue: whether a register that a PENDING token has made busy holds it, which is a progress point
(01 R36), and the operations whose busy registers hold it, each with the lanes that wait for it (03 R112). -/
structure Hold where
  progress : Bool := false
  ops      : List (Nat × Mask) := []
  deriving DecidableEq, Repr

/-- The holds of two groups of a warp together. -/
def Hold.and (x y : Hold) : Hold := ⟨x.progress || y.progress, x.ops ++ y.ops⟩

/-- The hold of an issue; none when it can go. `accepts` tells that the issue, made now, would have an operation accepted: only
such a one waits for room (10 R294; 11 R317). An issue that traps before its effect, or whose guard is 0 everywhere, is never
held. -/
def Issue.hold (I : Issue) (accepts : Bool) : Option Hold :=
  let mine := I.s.opsOf I.cid I.wi
  let busy := mine.filter I.busyWith
  if !busy.isEmpty || I.namesSignal || mine.any I.tileHeld || I.stackHeld || I.xlrpHeld || !I.tbeFits || (!(I.queueRoom && I.wardRoom) && accepts) then
    some { progress := busy.any fun o => o.tok != 0, ops := busy.map fun o => (o.id, I.act) }
  else none

end Sys2Proof.Machine
end

