-- ==== Sys2Proof/Machine/Xbr.lean ====
section
/-! DEFINITION. The lane crossbar engine (08 R253-R264): values that move between the participants of a partition, votes,
folds and scans, and the two byte permutes. Every form goes through `Issue.allLanes`, so that no lane writes anything
when one of them has an indirect operand out of range (08 R257). -/

namespace Sys2Proof.Machine

/-! ### Partitions (R255) -/

/-- The partition size n. -/
def Issue.partSize (I : Issue) : Nat := 2 ^ I.warp.part.toNat
/-- base(l). -/
def Issue.partBase (I : Issue) (l : Nat) : Nat := l - l % I.partSize
/-- The participants of a lane's partition, ascending. -/
def Issue.partners (I : Issue) (l : Nat) : List Nat := I.lanes.filter fun m => I.partBase m == I.partBase l
/-- Whether a lane is a participant. -/
def Issue.takesPart (I : Issue) (l : Nat) : Bool := I.act.getLsbD l

/-! ### Shuffle and broadcast (R258, R259) -/

/-- The source lane of XGET, if its position lies in the partition. -/
def Issue.xgetFrom (I : Issue) (mode : XMode) (l k : Nat) : Option Nat :=
  let n := I.partSize
  let j := l % n
  match mode with
  | .pos => some (I.partBase l + k % n)
  | .rot => some (I.partBase l + (j + k) % n)
  | .off =>
    let q : Int := (j : Int) + sext 8 k
    if 0 ≤ q ∧ q < n then some (I.partBase l + q.toNat) else none
  | .swap => some (I.partBase l + Nat.xor j (k % n))

/-- XGET. -/
def execXget (f : Fields) (mode : XMode) (s : State) : Host.Outcome State Fault Refusal :=
  withIssue (.xget f mode) s fun I =>
    let w := f.ty.regWidth
    I.allLanes fun l =>
      match (I.xgetFrom mode l (I.read l f.b 32 % 256)).filter I.takesPart with
      | some m => .ok [.reg f.d w (I.read m f.a w), .pred f.e true]
      | none => .ok [.reg f.d w (I.read l f.a w), .pred f.e false]

/-- BCAST. -/
def execBcast (f : Fields) (first : Bool) (s : State) : Host.Outcome State Fault Refusal :=
  withIssue (.bcast f first) s fun I =>
    let w := f.ty.regWidth
    I.allLanes fun l =>
      let low := (I.partners l).headD l
      let src := if first then low else I.partBase l + I.read low f.b 32 % 256 % I.partSize
      .ok (if I.takesPart src then [.reg f.d w (I.read src f.a w)] else [])

/-! ### Votes and matches (R260, R261) -/

/-- The predicate result of POLL. -/
def pollBit (mode : PollMode) (all some' : Bool) : Bool :=
  match mode with
  | .every => all
  | .some => some'
  | _ => all || !some'

/-- POLL. -/
def execPoll (f : Fields) (mode : PollMode) (inv : Bool) (s : State) : Host.Outcome State Fault Refusal :=
  withIssue (.poll f mode inv) s fun I =>
    I.allLanes fun l =>
      let t := (I.partners l).filter fun m => Bool.xor (I.read m f.a 1 == 1) inv
      match mode with
      | .mask => .ok [.reg f.d 32 (maskOf t).toNat]
      | .count => .ok [.reg f.d 32 t.length]
      | _ => .ok [.pred f.d (pollBit mode (t.length == (I.partners l).length) (!t.isEmpty))]

/-- PEERS. -/
def execPeers (f : Fields) (unif : Bool) (s : State) : Host.Outcome State Fault Refusal :=
  withIssue (.peers f unif) s fun I =>
    let w := f.ty.regWidth
    I.allLanes fun l =>
      let ps := I.partners l
      let same := ps.filter fun m => I.read m f.a w == I.read l f.a w
      let all := same.length == ps.length
      .ok [.reg f.d 32 (if unif then (if all then (maskOf ps).toNat else 0) else (maskOf same).toNat), .pred f.e all]

/-! ### Reductions and scans (R262) -/

/-- One step of a fold. -/
def foldStep (op : FoldOp) (t : Ty) (s x : Nat) : Nat :=
  let w := t.regWidth
  if t = .f32 then
    match op with
    | .add => (fp32.add .rne false (fp32.decode s) (fp32.decode x)).code
    | .min => (minMax fp32 false false (fp32.decode s) (fp32.decode x)).code
    | _ => (minMax fp32 true false (fp32.decode s) (fp32.decode x)).code
  else
    match op with
    | .add => (s + x) % 2 ^ w
    | .min => if intOf t w s ≤ intOf t w x then s else x
    | .max => if intOf t w s ≤ intOf t w x then x else s
    | .and => Nat.land s x
    | .or => Nat.lor s x
    | .xor => Nat.xor s x

/-- The identity of an operation. -/
def foldUnit (op : FoldOp) (t : Ty) : Nat :=
  let w := t.regWidth
  if t = .f32 then
    match op with
    | .add => fp32.zeroCode true
    | .min => fp32.infCode false
    | _ => fp32.infCode true
  else
    match op with
    | .min => wrapNat w (maxOf t w)
    | .max => wrapNat w (minOf t w)
    | .and => 2 ^ w - 1
    | _ => 0

/-- The fold of values in order. -/
def foldAll (op : FoldOp) (t : Ty) : List Nat → Nat
  | [] => foldUnit op t
  | x :: xs => xs.foldl (foldStep op t) x

/-- FOLDX. -/
def execFoldx (f : Fields) (op : FoldOp) (s : State) : Host.Outcome State Fault Refusal :=
  withIssue (.foldx f op) s fun I =>
    let w := f.ty.regWidth
    I.allLanes fun l => .ok [.reg f.d w (foldAll op f.ty ((I.partners l).map fun m => I.read m f.a w))]

/-- SCANX. -/
def execScanx (f : Fields) (op : FoldOp) (excl : Bool) (s : State) : Host.Outcome State Fault Refusal :=
  withIssue (.scanx f op excl) s fun I =>
    let w := f.ty.regWidth
    I.allLanes fun l =>
      let below := (I.partners l).filter fun m => if excl then m < l else m ≤ l
      .ok [.reg f.d w (foldAll op f.ty (below.map fun m => I.read m f.a w))]

/-! ### Byte permutes (R263, R264) -/

/-- The byte that one control selects. -/
def byteSel (a b c : Nat) : Nat :=
  let x := subAt 8 (b * 2 ^ 32 + a) (c % 8)
  match bitsNat c 5 4 with
  | 0 => x
  | 1 => 0
  | 2 => if bitNat x 7 then 0xFF else 0
  | _ => 0xFF

/-- A word from its four bytes. -/
def wordOf (g : Nat → Nat) : Nat := g 0 + g 1 * 2 ^ 8 + g 2 * 2 ^ 16 + g 3 * 2 ^ 24

/-- BYSEL. -/
def execBysel (f : Fields) (s : State) : Host.Outcome State Fault Refusal :=
  withIssue (.bysel f) s fun I =>
    I.allLanes fun l =>
      .ok [.reg f.d 32 (wordOf fun i => byteSel (I.read l f.a 32) (I.read l f.b 32) (subAt 8 (I.read l f.c 32) i))]

/-- TLU: `n` is N - 1. -/
def execTlu (f : Fields) (n : BitVec 3) (s : State) : Host.Outcome State Fault Refusal :=
  withIssue (.tlu f n) s fun I =>
    let base := match f.a with | .vec r => r.toNat | _ => 0
    I.allLanes fun l =>
      .ok [.reg f.d 32 (wordOf fun i =>
        let x := subAt 8 (I.read l f.b 32) i
        if x < 4 * (n.toNat + 1) then subAt 8 ((I.thread l).reg (base + x / 4)) (x % 4) else I.read l f.c 32 % 256)]

end Sys2Proof.Machine
end

