-- ==== Sys2Proof/Machine/Dispatch.lean ====
section
/-! DEFINITION. The one dispatch from a constructor to its meaning. -/

namespace Sys2Proof.Machine

/-- What each instruction and each event does (spec/opcode_table.json, one arm per row). -/
def exec (i : Instr) (s : State) : Host.Outcome State Fault Refusal :=
  match i with
  | .nop f => Sys2Proof.Machine.execNop f s
  | .yield f => Sys2Proof.Machine.execYield f s
  | .exit f => Sys2Proof.Machine.execExit f s
  | .brk f => Sys2Proof.Machine.execBrk f s
  | .trap f => Sys2Proof.Machine.execTrap f s
  | .rtt f => Sys2Proof.Machine.execRtt f s
  | .elect f => Sys2Proof.Machine.execElect f s
  | .wdog f trapEn => Sys2Proof.Machine.execWdog f trapEn s
  | .bra f => Sys2Proof.Machine.execBra f s
  | .call f => Sys2Proof.Machine.execCall f s
  | .brx f => Sys2Proof.Machine.execBrx f s
  | .callx f => Sys2Proof.Machine.execCallx f s
  | .ret f => Sys2Proof.Machine.execRet f s
  | .jset f => Sys2Proof.Machine.execJset f s
  | .jwait f => Sys2Proof.Machine.execJwait f s
  | .bara f => Sys2Proof.Machine.execBara f s
  | .barw f => Sys2Proof.Machine.execBarw f s
  | .bars f => Sys2Proof.Machine.execBars f s
  | .part f => Sys2Proof.Machine.execPart f s
  | .sleep f any => Sys2Proof.Machine.execSleep f any s
  | .ttest f any => Sys2Proof.Machine.execTtest f any s
  | .tstat f => Sys2Proof.Machine.execTstat f s
  | .tfree f => Sys2Proof.Machine.execTfree f s
  | .tsigArm f => Sys2Proof.Machine.execTsigArm f s
  | .tsigDone f => Sys2Proof.Machine.execTsigDone f s
  | .tsigPoison f => Sys2Proof.Machine.execTsigPoison f s
  | .texport f reach peer => Sys2Proof.Machine.execTexport f reach peer s
  | .pbinit f reach => Sys2Proof.Machine.execPbinit f reach s
  | .pbarrive f reach peer poison => Sys2Proof.Machine.execPbarrive f reach peer poison s
  | .pbwait f reach => Sys2Proof.Machine.execPbwait f reach s
  | .getsr f => Sys2Proof.Machine.execGetsr f s
  | .setsr f => Sys2Proof.Machine.execSetsr f s
  | .iadd f sat => Sys2Proof.Machine.execIadd f sat s
  | .isub f sat => Sys2Proof.Machine.execIsub f sat s
  | .iaddx f sub => Sys2Proof.Machine.execIaddx f sub s
  | .imul f => Sys2Proof.Machine.execImul f s
  | .imulh f => Sys2Proof.Machine.execImulh f s
  | .imad f => Sys2Proof.Machine.execImad f s
  | .imadw f => Sys2Proof.Machine.execImadw f s
  | .idiv f trapEn => Sys2Proof.Machine.execIdiv f trapEn s
  | .irem f trapEn => Sys2Proof.Machine.execIrem f trapEn s
  | .imin f => Sys2Proof.Machine.execImin f s
  | .imax f => Sys2Proof.Machine.execImax f s
  | .iabs f sat => Sys2Proof.Machine.execIabs f sat s
  | .btab f => Sys2Proof.Machine.execBtab f s
  | .shl f => Sys2Proof.Machine.execShl f s
  | .shr f => Sys2Proof.Machine.execShr f s
  | .sar f => Sys2Proof.Machine.execSar f s
  | .rot f => Sys2Proof.Machine.execRot f s
  | .shf f right => Sys2Proof.Machine.execShf f right s
  | .bfe f => Sys2Proof.Machine.execBfe f s
  | .bfi f => Sys2Proof.Machine.execBfi f s
  | .popc f => Sys2Proof.Machine.execPopc f s
  | .clz f => Sys2Proof.Machine.execClz f s
  | .brev f => Sys2Proof.Machine.execBrev f s
  | .isetp f cmp bop => Sys2Proof.Machine.execIsetp f cmp bop s
  | .sel f => Sys2Proof.Machine.execSel f s
  | .mov f => Sys2Proof.Machine.execMov f s
  | .movi f hi => Sys2Proof.Machine.execMovi f hi s
  | .lea f => Sys2Proof.Machine.execLea f s
  | .padd f mode => Sys2Proof.Machine.execPadd f mode s
  | .psub f mode => Sys2Proof.Machine.execPsub f mode s
  | .pmax f => Sys2Proof.Machine.execPmax f s
  | .pmin f => Sys2Proof.Machine.execPmin f s
  | .pacs f max => Sys2Proof.Machine.execPacs f max s
  | .cellkey f wrap => Sys2Proof.Machine.execCellkey f wrap s
  | .fadd f rm => Sys2Proof.Machine.execFadd f rm s
  | .fmul f rm => Sys2Proof.Machine.execFmul f rm s
  | .ffma f rm => Sys2Proof.Machine.execFfma f rm s
  | .fmin f nan => Sys2Proof.Machine.execFmin f nan s
  | .fmax f nan => Sys2Proof.Machine.execFmax f nan s
  | .fsetp f cmp unord bop => Sys2Proof.Machine.execFsetp f cmp unord bop s
  | .hfma2 f rm => Sys2Proof.Machine.execHfma2 f rm s
  | .fdiv f rm => Sys2Proof.Machine.execFdiv f rm s
  | .fsqrt f rm => Sys2Proof.Machine.execFsqrt f rm s
  | .rcp f rm => Sys2Proof.Machine.execRcp f rm s
  | .rsq f rm => Sys2Proof.Machine.execRsq f rm s
  | .exp2 f rm => Sys2Proof.Machine.execExp2 f rm s
  | .log2 f rm => Sys2Proof.Machine.execLog2 f rm s
  | .sin f rm => Sys2Proof.Machine.execSin f rm s
  | .cos f rm => Sys2Proof.Machine.execCos f rm s
  | .frnd f rm => Sys2Proof.Machine.execFrnd f rm s
  | .fclass f => Sys2Proof.Machine.execFclass f s
  | .fscale f rm => Sys2Proof.Machine.execFscale f rm s
  | .fgetexp f => Sys2Proof.Machine.execFgetexp f s
  | .cvt f rm src => Sys2Proof.Machine.execCvt f rm src s
  | .cvti f rm src => Sys2Proof.Machine.execCvti f rm src s
  | .cvtf f rm src => Sys2Proof.Machine.execCvtf f rm src s
  | .cvt8 f var wide => Sys2Proof.Machine.execCvt8 f var wide s
  | .fflags f => Sys2Proof.Machine.execFflags f s
  | .fenv f => Sys2Proof.Machine.execFenv f s
  | .xget f mode => Sys2Proof.Machine.execXget f mode s
  | .poll f mode inv => Sys2Proof.Machine.execPoll f mode inv s
  | .peers f unif => Sys2Proof.Machine.execPeers f unif s
  | .foldx f op => Sys2Proof.Machine.execFoldx f op s
  | .scanx f op excl => Sys2Proof.Machine.execScanx f op excl s
  | .tlu f n => Sys2Proof.Machine.execTlu f n s
  | .bysel f => Sys2Proof.Machine.execBysel f s
  | .bcast f first => Sys2Proof.Machine.execBcast f first s
  | .ld f str => Sys2Proof.Machine.execLd f str s
  | .st f str => Sys2Proof.Machine.execSt f str s
  | .lds f latch => Sys2Proof.Machine.execLds f latch s
  | .sts f => Sys2Proof.Machine.execSts f s
  | .latchSet f => Sys2Proof.Machine.execLatchSet f s
  | .latchClr f => Sys2Proof.Machine.execLatchClr f s
  | .atom f op csm str => Sys2Proof.Machine.execAtom f op csm str s
  | .red f op csm str => Sys2Proof.Machine.execRed f op csm str s
  | .fence f str un => Sys2Proof.Machine.execFence f str un s
  | .promote f => Sys2Proof.Machine.execPromote f s
  | .prefetch f => Sys2Proof.Machine.execPrefetch f s
  | .mdld f => Sys2Proof.Machine.execMdld f s
  | .mdst f => Sys2Proof.Machine.execMdst f s
  | .ldloc f => Sys2Proof.Machine.execLdloc f s
  | .stloc f => Sys2Proof.Machine.execStloc f s
  | .cctlInv f => Sys2Proof.Machine.execCctlInv f s
  | .cctlInvall f => Sys2Proof.Machine.execCctlInvall f s
  | .codepub f => Sys2Proof.Machine.execCodepub f s
  | .cpatch f ent => Sys2Proof.Machine.execCpatch f ent s
  | .codeq f => Sys2Proof.Machine.execCodeq f s
  | .hload f => Sys2Proof.Machine.execHload f s
  | .tload f scsm => Sys2Proof.Machine.execTload f scsm s
  | .tstore f rop => Sys2Proof.Machine.execTstore f rop s
  | .tcopy f scsm dcsm latch => Sys2Proof.Machine.execTcopy f scsm dcsm latch s
  | .tmcast f latch => Sys2Proof.Machine.execTmcast f latch s
  | .tgather f latch icsm => Sys2Proof.Machine.execTgather f latch icsm s
  | .tscatter f icsm rop => Sys2Proof.Machine.execTscatter f icsm rop s
  | .tfill f dcsm latch => Sys2Proof.Machine.execTfill f dcsm latch s
  | .tquery f => Sys2Proof.Machine.execTquery f s
  | .wardq f csm => Sys2Proof.Machine.execWardq f csm s
  | .mma f var => Sys2Proof.Machine.execMma f var s
  | .mmag f var => Sys2Proof.Machine.execMmag f var s
  | .mzero f mc nc => Sys2Proof.Machine.execMzero f mc nc s
  | .mload f mc nc fmt => Sys2Proof.Machine.execMload f mc nc fmt s
  | .mstore f latch => Sys2Proof.Machine.execMstore f latch s
  | .mred f latch op => Sys2Proof.Machine.execMred f latch op s
  | .mepi f op => Sys2Proof.Machine.execMepi f op s
  | .mflags f => Sys2Proof.Machine.execMflags f s
  | .fld f str sys => Sys2Proof.Machine.execFld f str sys s
  | .fst f str sys => Sys2Proof.Machine.execFst f str sys s
  | .fstBlk f str sys => Sys2Proof.Machine.execFstBlk f str sys s
  | .fatom f op str sys => Sys2Proof.Machine.execFatom f op str sys s
  | .fatomc f op str sys => Sys2Proof.Machine.execFatomc f op str sys s
  | .fticket f sys => Sys2Proof.Machine.execFticket f sys s
  | .fred f op str sys => Sys2Proof.Machine.execFred f op str sys s
  | .fmcast f str sys => Sys2Proof.Machine.execFmcast f str sys s
  | .fflush f sys => Sys2Proof.Machine.execFflush f sys s
  | .fsigTret f sys => Sys2Proof.Machine.execFsigTret f sys s
  | .fsigTpois f sys => Sys2Proof.Machine.execFsigTpois f sys s
  | .fquery f => Sys2Proof.Machine.execFquery f s
  | .spawn f => Sys2Proof.Machine.execSpawn f s
  | .bincfg f => Sys2Proof.Machine.execBincfg f s
  | .wqcfg f => Sys2Proof.Machine.execWqcfg f s
  | .wqpush f => Sys2Proof.Machine.execWqpush f s
  | .tstream f => Sys2Proof.Machine.execTstream f s
  | .tsubmit f => Sys2Proof.Machine.execTsubmit f s
  | .trelease f => Sys2Proof.Machine.execTrelease f s
  | .taskinfo f => Sys2Proof.Machine.execTaskinfo f s
  | .rcpin f => Sys2Proof.Machine.execRcpin f s
  | .rcunpin f => Sys2Proof.Machine.execRcunpin f s
  | .rcretire f => Sys2Proof.Machine.execRcretire f s
  | .rcdrop f => Sys2Proof.Machine.execRcdrop f s
  | .rcquery f => Sys2Proof.Machine.execRcquery f s
  | .tlbsd f mode => Sys2Proof.Machine.execTlbsd f mode s
  | .tlbinv f mode => Sys2Proof.Machine.execTlbinv f mode s
  | .addrq f acc => Sys2Proof.Machine.execAddrq f acc s
  | .rgnsw f mode => Sys2Proof.Machine.execRgnsw f mode s
  | .ctxsave f => Sys2Proof.Machine.execCtxsave f s
  | .ctxload f => Sys2Proof.Machine.execCtxload f s
  | .operationStart op => Sys2Proof.Machine.execOperationStart op s
  | .readRetry target lasting => Sys2Proof.Machine.execReadRetry target lasting s
  | .lmeOperationComplete op => Sys2Proof.Machine.execLmeOperationComplete op s
  | .latchWaitServed op lane => Sys2Proof.Machine.execLatchWaitServed op lane s
  | .sleepWake core slot lane => Sys2Proof.Machine.execSleepWake core slot lane s
  | .tsigDoneApply core slot tok => Sys2Proof.Machine.execTsigDoneApply core slot tok s
  | .pbwaitConditionMet op => Sys2Proof.Machine.execPbwaitConditionMet op s
  | .cpeOperationSettle op => Sys2Proof.Machine.execCpeOperationSettle op s
  | .mxeOperationStart core => Sys2Proof.Machine.execMxeOperationStart core s
  | .mxeCommit core => Sys2Proof.Machine.execMxeCommit core s
  | .gangMemberAcquire core => Sys2Proof.Machine.execGangMemberAcquire core s
  | .gangSettle op => Sys2Proof.Machine.execGangSettle op s
  | .fabOperationSettle op answer => Sys2Proof.Machine.execFabOperationSettle op answer s
  | .fabRequestTimeout op => Sys2Proof.Machine.execFabRequestTimeout op s
  | .peerPacketArrival packet => Sys2Proof.Machine.execPeerPacketArrival packet s
  | .portOutOfService port => Sys2Proof.Machine.execPortOutOfService port s
  | .atomicUnitAct die slice => Sys2Proof.Machine.execAtomicUnitAct die slice s
  | .watchdogFire core slot => Sys2Proof.Machine.execWatchdogFire core slot s
  | .trapEntry core slot lane => Sys2Proof.Machine.execTrapEntry core slot lane s
  | .preemptDeadlineExpiry crew => Sys2Proof.Machine.execPreemptDeadlineExpiry crew s
  | .contextSaveWrite crew writeFails => Sys2Proof.Machine.execContextSaveWrite crew writeFails s
  | .ctxloadGrant op readFails => Sys2Proof.Machine.execCtxloadGrant op readFails s
  | .clusterDispatch die => Sys2Proof.Machine.execClusterDispatch die s
  | .crewRelease crew => Sys2Proof.Machine.execCrewRelease crew s
  | .spawnRecordArrival op lane => Sys2Proof.Machine.execSpawnRecordArrival op lane s
  | .binTimerExpiry core bin => Sys2Proof.Machine.execBinTimerExpiry core bin s
  | .binWarpFormation die => Sys2Proof.Machine.execBinWarpFormation die s
  | .queueRefill die queue => Sys2Proof.Machine.execQueueRefill die queue s
  | .taskEntry die stream => Sys2Proof.Machine.execTaskEntry die stream s
  | .taskDispatch die => Sys2Proof.Machine.execTaskDispatch die s
  | .taskCompletion die entry => Sys2Proof.Machine.execTaskCompletion die entry s
  | .l2LineEviction line => Sys2Proof.Machine.execL2LineEviction line s
  | .recomputeDispatch die => Sys2Proof.Machine.execRecomputeDispatch die s
  | .recomputeSettle die recipe => Sys2Proof.Machine.execRecomputeSettle die recipe s
  | .hostCxlMemRead offset length => Sys2Proof.Machine.execHostCxlMemRead offset length s
  | .hostCxlMemWrite offset data poison => Sys2Proof.Machine.execHostCxlMemWrite offset data poison s
  | .hostReadShared half => Sys2Proof.Machine.execHostReadShared half s
  | .hostReadForOwnership half => Sys2Proof.Machine.execHostReadForOwnership half s
  | .hostWriteBack half data => Sys2Proof.Machine.execHostWriteBack half data s
  | .hostCleanEviction half => Sys2Proof.Machine.execHostCleanEviction half s
  | .recallTimeout half => Sys2Proof.Machine.execRecallTimeout half s
  | .migration line die slice => Sys2Proof.Machine.execMigration line die slice s
  | .migrationReturn line => Sys2Proof.Machine.execMigrationReturn line s
  | .dieFailure die => Sys2Proof.Machine.execDieFailure die s
  | .bankRefresh die sub bank requests => Sys2Proof.Machine.execBankRefresh die sub bank requests s
  | .aboAlert die sub bank => Sys2Proof.Machine.execAboAlert die sub bank s
  | .fetchLineArrival core slot line => Sys2Proof.Machine.execFetchLineArrival core slot line s
  | .v1RecordFlush die => Sys2Proof.Machine.execV1RecordFlush die s
  | .tlbsdComplete op => Sys2Proof.Machine.execTlbsdComplete op s
  | .xlrpWrite die value => Sys2Proof.Machine.execXlrpWrite die value s
  | .tstatPoisonClear core slot => Sys2Proof.Machine.execTstatPoisonClear core slot s
  | .joinRegisterWrite core slot join member => Sys2Proof.Machine.execJoinRegisterWrite core slot join member s
  | .hmctlWrite die migr => Sys2Proof.Machine.execHmctlWrite die migr s
  | .registerWrite target value => Sys2Proof.Machine.execRegisterWrite target value s
  | .cplheadWrite value => Sys2Proof.Machine.execCplheadWrite value s
  | .completionPost => Sys2Proof.Machine.execCompletionPost s
  | .launch readFails => Sys2Proof.Machine.execLaunch readFails s
  | .launchEnd launch => Sys2Proof.Machine.execLaunchEnd launch s
  | .map writeFails => Sys2Proof.Machine.execMap writeFails s
  | .codePublish actFails => Sys2Proof.Machine.execCodePublish actFails s
  | .resetCold training => Sys2Proof.Machine.execResetCold training s
  | .resetWarm training => Sys2Proof.Machine.execResetWarm training s
  | .powerOn training => Sys2Proof.Machine.execPowerOn training s
  | .attest flashFails => Sys2Proof.Machine.execAttest flashFails s
  | .launchctlPreempt => Sys2Proof.Machine.execLaunchctlPreempt s
  | .launchctlEnd => Sys2Proof.Machine.execLaunchctlEnd s
  | .launchctlResume => Sys2Proof.Machine.execLaunchctlResume s
  | .fwloadImage => Sys2Proof.Machine.execFwloadImage s
  | .fwloadRepairMap => Sys2Proof.Machine.execFwloadRepairMap s
  | .throttleStep power junction inlet => Sys2Proof.Machine.execThrottleStep power junction inlet s
  | .recallResponse half modified => Sys2Proof.Machine.execRecallResponse half modified s
  | .tbeOperationSettle op => Sys2Proof.Machine.execTbeOperationSettle op s
  | .coresidentLaunchGrant => Sys2Proof.Machine.execCoresidentLaunchGrant s
  | .engineBarrierArrival => Sys2Proof.Machine.execEngineBarrierArrival s
  | .errlog => Sys2Proof.Machine.execErrlog s
  | .region => Sys2Proof.Machine.execRegion s
  | .shootdown => Sys2Proof.Machine.execShootdown s
  | .podWindowControl => Sys2Proof.Machine.execPodWindowControl s
  | .bandMode => Sys2Proof.Machine.execBandMode s
  | .unmap => Sys2Proof.Machine.execUnmap s

end Sys2Proof.Machine
end

