-- ==== Sys2Proof/Machine/Turn.lean ====
section
/-! DEFINITION. The turns of the machine (DESIGN CHOICE, log 1): how a quadrant issues a group (01 R37; 02 R79; 04 R126, R127; 09 R266),
how cycles pass (01 R13, R38), and which turn the model takes when none is asked for. -/

namespace Sys2Proof.Machine

/-! ### Groups of a warp (04 R126, R127) -/

/-- An issue group: the lanes at one PC that hold one copy of its line, or would enter it alike. -/
structure Group where
  pc   : VAddr
  line : Option Line
  mask : Mask
  deriving DecidableEq, Repr

/-- Put a lane at a PC with a copy into its group. -/
def addLane (l : Nat) (pc : VAddr) (ln : Option Line) : List Group → List Group
  | [] => [⟨pc, ln, laneBit l⟩]
  | g :: gs => if g.pc = pc ∧ g.line = ln then { g with mask := g.mask ||| laneBit l } :: gs else g :: addLane l pc ln gs

/-- Whether a thread's entry of its line must wait (03 R123). -/
def State.entryHeld (s : State) (crew wi l : Nat) (t : Thread) : Bool := (t.line.isNone || t.fresh) && s.fetchHeld crew wi l

/-- The copy from which a thread would issue: the one it holds, or the one its warp has buffered when it may enter its line
(04 R126; 09 R267). -/
def State.copyOf (s : State) (crew wi : Nat) (w : Warp) (l : Nat) (t : Thread) : Option Line :=
  if s.entryHeld crew wi l t then none
  else t.line.orElse fun _ => w.fbuf.find? fun y => y.va == lineBase t.pc

/-- The groups of a warp, by their lowest lane. -/
def State.groups (s : State) (crew wi : Nat) (w : Warp) : List Group :=
  (List.range w.threads.length).foldl (fun gs l =>
    let t := w.thread l
    if t.ready then addLane l t.pc (s.copyOf crew wi w l t) gs else gs) []

/-- The lowest lane of a group. -/
def Group.low (g : Group) : Nat := (lowestLane g.mask).getD 0

/-- The groups in the order in which the warp chooses them: after the group that issued last, wrapping. -/
def State.choices (s : State) (crew wi : Nat) (w : Warp) : List Group :=
  let gs := s.groups crew wi w
  (gs.filter fun g => w.last < 32 && w.last < g.low) ++ gs.filter fun g => !(w.last < 32 && w.last < g.low)

/-! ### One group tries to issue -/

/-- What becomes of a group that tries to issue. -/
inductive Try
  | held (h : Hold)
  /-- Some lanes take a trap, or a held cause, before any instruction. -/
  | traps (lanes : Mask) (s : State)
  /-- The instruction runs in this state, which names the issue. -/
  | runs (i : Instr) (s : State)

/-- Whether a thread has a held cause to take at this boundary (17 R475). -/
def Thread.due (t : Thread) : Bool := (t.heldWatchdog || t.heldPreempt) && !t.inHandler

/-- Whether a form transfers control, and so fetches as it issues. -/
def transfers : Instr → Bool
  | .bra _ | .call _ | .brx _ | .callx _ | .ret _ => true
  | _ => false

/-- Every lane of a list takes a trap at a PC. -/
def State.trapLanes (s : State) (crew wi : Nat) (ls : List Nat) (pc : VAddr) (cause info : Nat) (detail : VAddr) : Try :=
  .traps (maskOf ls) (s.traps crew wi (ls.map fun l => (l, { cause := cause, pc := pc, info := info, detail := detail.setWidth 64 })))

/-- The lanes of a group go on with a copy of their line. -/
def State.holdLine (s : State) (crew wi : Nat) (mask : Mask) (ln : Line) (fresh : Bool) : State :=
  s.setWarp crew wi fun w =>
    { w with threads := w.threads.mapIdx fun l t =>
        if mask.getLsbD l then { t with line := some ln, fresh := fresh, owed := t.owed && fresh } else t }

/-- Whether an instruction, executed now, would have an operation accepted. -/
def State.accepts (s : State) (i : Instr) : Bool :=
  match exec i s with
  | .next t => s.ops.length < t.ops.length
  | _ => false

/-- The slot has been read: decode it, make the holds, and name the issue. -/
def State.tryDecoded (s : State) (crew wi : Nat) (mask : Mask) (pc : VAddr) (i : Instr) (F : Form) : Try :=
  match s.crew? crew, s.warp? crew wi with
  | some c, some w =>
    let I : Issue := { s, i, form := F, cid := crew, wi, crew := c, warp := w, mask, act := guardMask w mask F.body, pc }
    let named : State := { s with cur := some ⟨crew, wi, mask, pc⟩ }
    if (orderChecks s c w mask pc i F).isSome || I.act = 0 then .runs i named
    else if transfers i && I.lanes.any fun l => s.fetchHeld crew wi l then .held {}
    else match I.hold (named.accepts i) with
      | some h => .held h
      | none => .runs i named
  | _, _ => .held {}

/-- The lanes of one copy issue: orders 5 to 7 of 02 R79. -/
def State.trySlot (s : State) (crew wi : Nat) (mask : Mask) (owed : List Nat) (pc : VAddr) (ln : Line) : Try :=
  match slotIndex pc with
  | none => s.trapLanes crew wi (lanesOf mask) pc 5 (if owed.isEmpty then 0 else 16) pc
  | some n =>
    if !owed.isEmpty && !tgtBit ln.bits n then s.trapLanes crew wi owed pc 5 16 pc
    else
      match s.checkSlot crew wi ln n with
      | (s, .error e) => s.trapLanes crew wi (lanesOf mask) pc e.cause e.info e.line
      | (s, .ok l2) =>
        let s := s.holdLine crew wi mask l2 false
        match decode (slotOfLine l2.bits n) with
        | none => s.trapLanes crew wi (lanesOf mask) pc 6 0 pc
        | some i =>
          match i.form with
          | some F => s.tryDecoded crew wi mask pc i F
          | none => s.trapLanes crew wi (lanesOf mask) pc 6 0 pc

/-- The lanes that issue with a copy: every ready lane at the PC that holds it, and that has nothing to take first. -/
def State.sharers (s : State) (crew wi : Nat) (pc : VAddr) (ln : Line) : List Nat :=
  match s.warp? crew wi with
  | none => []
  | some w => (List.range w.threads.length).filter fun l =>
      let t := w.thread l
      t.ready && t.pc == pc && t.line == some ln && !t.due && !s.entryHeld crew wi l t

/-- A group tries to issue: the held causes of its lanes come first, then the entry of the line by those that do not hold it yet
(orders 1 to 4). Lanes that may not enter it wait. -/
def State.tryGroup (s : State) (crew wi : Nat) (w : Warp) (g : Group) : Try :=
  let ls := lanesOf g.mask
  let due := ls.filter fun l => (w.thread l).due
  let may := ls.filter fun l => !s.entryHeld crew wi l (w.thread l)
  let enters := may.filter fun l => (w.thread l).line.isNone
  let owed (ls : List Nat) : List Nat := ls.filter fun l => (w.thread l).owed
  if !due.isEmpty then .traps (maskOf due) (due.foldl (fun (s : State) l => s.takeHeld crew wi l) s)
  else if may.isEmpty then .held {}
  else
    let entered : State × Except FetchFault Line :=
      match g.line, enters with
      | some ln, [] => (s, .ok ln)
      | _, _ => s.enterLine crew wi g.pc
    match entered with
    | (s, .error e) =>
      .traps (maskOf enters) (s.traps crew wi (enters.map fun l =>
        (l, { cause := e.cause, pc := g.pc, info := e.info % 16 + (if (w.thread l).owed then 16 else 0), detail := e.line.setWidth 64 })))
    | (s, .ok ln) =>
      let s := if enters.isEmpty then s else s.holdLine crew wi (maskOf enters) ln true
      let all := s.sharers crew wi g.pc ln
      s.trySlot crew wi (maskOf all) (owed all) g.pc ln

/-! ### One warp (01 R36-R38) -/

/-- What a warp can do in a turn: the first of its groups that is not held, with the hold of the others that are, or only how its
groups are held. -/
inductive WarpTry
  | goes (t : Try) (h : Hold)
  | held (h : Hold)
  /-- No thread of it is ready. -/
  | idle

/-- How the groups of a list are held, together. -/
def State.holds (s : State) (crew wi : Nat) (w : Warp) : List Group → Hold
  | [] => {}
  | g :: gs =>
    match s.tryGroup crew wi w g with
    | .held h => h.and (State.holds s crew wi w gs)
    | _ => State.holds s crew wi w gs

/-- Try the groups of a warp in order; the hold is that of the groups passed over. -/
def State.tryGroups (s : State) (crew wi : Nat) (w : Warp) : List Group → Hold → WarpTry
  | [], h => .held h
  | g :: gs, h =>
    match s.tryGroup crew wi w g with
    | .held k => State.tryGroups s crew wi w gs (h.and k)
    | t => .goes t (h.and (s.holds crew wi w gs))

/-- Try a warp; a crew that is being saved, or loaded and not started, issues nothing (17 R484, R491). -/
def State.tryWarp (s : State) (c : Crew) (wi : Nat) (w : Warp) : WarpTry :=
  if c.save.isSome || c.heldLoad then .idle
  else match s.choices c.id wi w with
    | [] => .idle
    | gs => s.tryGroups c.id wi w gs {}

/-- Whether a warp is ready (01 R38). -/
def State.warpReady (s : State) (c : Crew) (wi : Nat) (w : Warp) : Bool :=
  match s.tryWarp c wi w with
  | .goes _ _ => true
  | _ => false

/-! ### A quadrant (01 R37; 04 R127, R141) -/

/-- The warps of a quadrant: crew, place in the crew, warp. -/
def State.quadWarps (s : State) (core q : Nat) : List (Crew × Nat × Warp) :=
  (s.crews.filter fun c => c.core == core).flatMap fun c =>
    (c.warps.mapIdx fun wi w => (c, wi, w)).filter fun x => x.2.2.slot / 16 == q

/-- How far a warp slot stands behind the slot that the quadrant chose last, round-robin. -/
def State.slotTurn (s : State) (core q slot : Nat) : Nat := (slot + 63 - (s.core core).last.getD q 0) % 16

/-- The warps of a quadrant in the order of its choice. -/
def State.quadOrder (s : State) (core q : Nat) : List (Crew × Nat × Warp) :=
  let ws := s.quadWarps core q
  (List.range 16).flatMap fun k => ws.filter fun x => s.slotTurn core q x.2.2.slot == k

/-- The warp slots of a quadrant, but one, whose warps are ready. -/
def State.readySlots (s : State) (core q slot : Nat) : List Nat :=
  ((s.quadWarps core q).filter fun y => y.2.2.slot != slot && s.warpReady y.1 y.2.1 y.2.2).map fun y => y.2.2.slot

/-- Whether a warp lets others go first: after a YIELD, every other warp of the quadrant that was ready then, for at most 16
cycles (04 R141). -/
def Warp.defers (w : Warp) : Bool := w.yieldCy != 0 && !w.yieldTo.isEmpty

/-- What holds the groups of a warp: a busy register of a PENDING token is a progress point (01 R36), and the completion of the
operation is an acquire of the lanes that wait for it (03 R112). -/
def State.noteHold (s : State) (crew wi : Nat) (h : Hold) : State :=
  let s := h.ops.foldl (fun (s : State) p => s.setOp p.1 fun o => { o with stalled := o.stalled ||| p.2 }) s
  if h.progress then s.setWarp crew wi Warp.progress else s

/-- Whether a form closes its cycle on its core: a BARS is applied after the arrivals of its cycle (04 R138). -/
def closesCycle : Instr → Bool
  | .bars .. => true
  | _ => false

/-- What the quadrant notes of an issue: the lanes and the warp that it chose, what holds the warp's other groups, a YIELD owed by
the watchdog, that this warp has gone before those that yielded to it, and, after a YIELD, the warps that were ready. -/
def State.noteIssue (s before : State) (core q crew wi slot : Nat) (lanes : Mask) (h : Hold) (i : Option Instr) (yielded : Bool) : State :=
  let s := (s.noteHold crew wi h).setWarp crew wi fun w => { w with last := (lowestLane lanes).getD 0, wdYield := false }
  let s := s.setCore core fun c =>
    { c with
      last := updAt q (fun _ => slot) c.last
      issued := c.issued ++ slot :: (if (i.map closesCycle).getD false then [64] else []) }
  let s : State := { s with
    crews := s.crews.map fun c =>
      if c.core == core then { c with warps := c.warps.map fun w => { w with yieldTo := w.yieldTo.filter (· != slot) } } else c }
  let s := if yielded then s.yieldWarp crew wi else s
  if yielded || (match i with | some (.yield _) => true | _ => false) then
    let ready := before.readySlots core q slot
    s.setWarp crew wi fun w => { w with yieldTo := w.yieldTo.filter ready.contains }
  else s

/-- A quadrant issues: the first warp in its order that does not defer and can go. What holds the others is noted. -/
def State.issueFrom (core q : Nat) : List (Crew × Nat × Warp) → State → Host.Outcome State Fault Refusal
  | [], s => .next s
  | (c, wi, w) :: rest, s =>
    match s.tryWarp c wi w with
    | .idle => State.issueFrom core q rest s
    | .held h => State.issueFrom core q rest (s.noteHold c.id wi h)
    | .goes t h =>
      if w.defers then State.issueFrom core q rest s
      else
        match t with
        | .held _ => .next s
        | .traps lanes t => .next (t.noteIssue s core q c.id wi w.slot lanes h none w.wdYield)
        | .runs i u =>
          match exec i u with
          | .next t => .next (t.noteIssue s core q c.id wi w.slot ((u.cur.map Cur.mask).getD 0) h (some i) w.wdYield)
          | r => r

/-! ### Cycles (01 R13, R38; 04 R138, R141; 17 R483) -/

/-- The engine arrivals at the barriers of a core's crews, brought about in an earlier cycle, are applied in their order
(04 R134, R138). -/
def State.applyArrivals (s : State) (core : Nat) : State :=
  let mine (a : Arrival) : Bool := s.crews.any fun c => c.id == a.crew && c.core == core
  (s.arrivals.filter mine).foldl (fun (s : State) a => s.arrive a.crew a.bar 1 a.poison)
    { s with arrivals := s.arrivals.filter fun a => !mine a }

/-- The cycles that a warp's watchdog counts when n pass: those in which another warp of its quadrant is ready but not issued; the
first is the one in which the slots of `Core.issued` have issued (01 R38). -/
def State.waitCycles (s : State) (core slot n : Nat) : Nat :=
  let ready := s.readySlots core (slot / 16) slot
  if n = 0 ∨ ready.isEmpty then 0
  else if ready.all (s.core core).issued.contains then n - 1 else n

/-- A warp that a busy register of a PENDING token holds passes a progress point (01 R36). -/
def State.progressHeld (s : State) (c : Crew) (wi : Nat) (w : Warp) : Bool :=
  match s.tryWarp c wi w with
  | .held h | .goes _ h => h.progress
  | .idle => false

/-- n cycles pass on a core: its cycle counter, the watchdog counts of its warps, the cycles left of a YIELD and of a pre-empt
request, and the engine arrivals that are due. -/
def State.passCycles (s : State) (core n : Nat) : State :=
  let s1 := s.setCore core fun c => { c with cyc := c.cyc + BitVec.ofNat 64 n, issued := [] }
  let s2 : State := { s1 with
    crews := s1.crews.map fun c =>
      if c.core == core then
        { c with
          remain := if c.pend then BitVec.ofNat 32 (c.remain.toNat - n) else c.remain
          warps := c.warps.mapIdx fun wi w =>
            { w with
              wdCount :=
                if s.progressHeld c wi w then 0
                else BitVec.ofNat 32 (min (2 ^ 32 - 1) (w.wdCount.toNat + s.waitCycles core w.slot n))
              yieldCy := w.yieldCy - n } }
      else c }
  if n = 0 then s2 else s2.applyArrivals core

/-- A quadrant issues once in a cycle, and within one the quadrants go in ascending order, as the arrivals of their warps are
applied (04 R127, R138): an issue that is not behind those of the current cycle opens the next. -/
def State.openCycle (s : State) (core q : Nat) : State :=
  if (s.core core).issued.any fun x => q ≤ x / 16 then s.passCycles core 1 else s

/-- One issue turn of a quadrant of a core; a core of a failed die issues nothing (15 R439). -/
def State.issueTurn (s : State) (core q : Nat) : Host.Outcome State Fault Refusal :=
  if s.dieFailed (dieOfCore core) then .next s
  else
    let s := s.openCycle core q
    State.issueFrom core q (s.quadOrder core q) s

/-! ### The turns that the model takes itself (DESIGN CHOICE, log 1) -/

/-- The event by which Javatra serves a command. -/
def cmdEvent (opc sub : Nat) : Option Instr :=
  match opc, sub with
  | 1, _ => some (.launch false)
  | 2, 0 => some (.map false)
  | 2, 1 => some .unmap
  | 2, 2 => some .bandMode
  | 2, 3 => some .podWindowControl
  | 2, 4 => some (.codePublish false)
  | 3, _ => some .shootdown
  | 4, _ => some .region
  | 5, _ => some .errlog
  | 6, _ => none
  | 7, _ => some (.attest false)
  | 8, 0 => some .launchctlPreempt
  | 8, 1 => some .launchctlEnd
  | 8, 2 => some .launchctlResume
  | 9, 0 => some .fwloadImage
  | 9, 1 => some .fwloadRepairMap
  | _, _ => some .errlog

/-- The events by which an accepted operation may go on. -/
def Op.turns (o : Op) : List Instr :=
  (match o.instr with | .tsubmit _ => [Instr.taskEntry (dieOfCore o.core) (o.arg 0)] | _ => []) ++
  if !o.started && (match o.instr with | .queueRefill .. => false | _ => true) then [.operationStart o.id]
  else
    match o.instr with
    | .queueRefill d q => [.queueRefill d q]
    | .pbwait .. => [.pbwaitConditionMet o.id]
    | .tlbsd .. => [.tlbsdComplete o.id]
    | .ctxload _ => [.lmeOperationComplete o.id, .ctxloadGrant o.id false]
    | .lds _ .keep | .lds _ .clr =>
      .lmeOperationComplete o.id :: (o.acc.filter fun a => !a.done).map fun a => .latchWaitServed o.id a.lane
    | .spawn _ => (o.acc.filter fun a => !a.done).map fun a => .spawnRecordArrival o.id a.lane
    | i =>
      if isPhaseAct i && !isPeerArrival i then [.operationStart o.id]
      else if isPeerArrival i then [.operationStart o.id, .fabOperationSettle o.id (.data [])]
      else if isGang i then o.targets.map Instr.gangMemberAcquire ++ [.mxeOperationStart o.core, .gangSettle o.id]
      else
        match queueOf i with
        | some .cpe => [.cpeOperationSettle o.id]
        | some .mxe => [.mxeOperationStart o.core, .mxeCommit o.core]
        | some .fab => [.fabOperationSettle o.id (.data [])]
        | some .tbe => [.tbeOperationSettle o.id]
        | _ => [.lmeOperationComplete o.id]

/-- The events that concern the threads of a crew. -/
def Crew.turns (c : Crew) : List Instr :=
  (c.warps.flatMap fun w =>
    ((List.range w.threads.length).flatMap fun l =>
      (match (w.thread l).run with | .sleep _ _ => [Instr.sleepWake c.core w.slot l] | _ => []) ++
      (if (w.thread l).due then [.trapEntry c.core w.slot l] else [])) ++
    (w.sigs.map fun g => .tsigDoneApply c.core w.slot g.tok) ++
    (if 2 ^ w.wdLimit.toNat ≤ w.wdCount.toNat then [.watchdogFire c.core w.slot] else [])) ++
  (if c.save.isSome then [.contextSaveWrite c.id false] else []) ++
  (if c.pend && c.remain == 0 then [.preemptDeadlineExpiry c.id] else []) ++ [.crewRelease c.id]

/-- The events of a die. -/
def Die.turns (d : Die) (n : Nat) : List Instr :=
  [.clusterDispatch n, .taskDispatch n, .binWarpFormation n, .recomputeDispatch n] ++
  ((List.range d.slices.length).flatMap fun k =>
    if (((d.slices[k]?).map Slice.acts).getD []).isEmpty then [] else [Instr.atomicUnitAct n k]) ++
  (d.tasks.map fun t => .taskCompletion n t.entry) ++ (d.requests.map fun q => .recomputeSettle n q.recipe) ++
  ((List.range d.queues.length).filterMap fun k =>
    if ((d.queues[k]?).map WorkQueue.en).getD false then some (.queueRefill n k) else none) ++
  (if d.v1.isEmpty then [] else [.v1RecordFlush n])

/-- Every turn that may be due: events of the module and of Javatra, issues and cycles. The events of the world outside
(the host, peers, failures, resets) are never among them. -/
def State.dueTurns (s : State) : List Turn :=
  let events : List Instr :=
    s.ops.flatMap Op.turns ++ s.crews.flatMap Crew.turns ++ (s.dies.mapIdx fun n d => d.turns n).flatten ++
    (if s.arrivals.isEmpty then [] else [.engineBarrierArrival]) ++
    (if s.completions.isEmpty then [] else [.completionPost]) ++
    (match s.headCmd with | some c => (cmdEvent c.opc c.sub).toList | none => []) ++
    (if s.shoots.isEmpty then [] else [.unmap, .shootdown]) ++
    (if s.launches.isEmpty then [] else [.coresidentLaunchGrant]) ++ s.launches.map fun l => .launchEnd l.num
  let busy := (List.range 192).filter fun k => s.crews.any fun c => c.core == k
  events.map .act ++
  (busy.flatMap fun k => [Turn.issue k 0, .issue k 1, .issue k 2, .issue k 3, .cycles k 1]) ++
  busy.flatMap fun k => (List.range 16).filterMap fun b =>
    if (s.bin k b).st = .holding then some (.act (.binTimerExpiry k b)) else none

/-- The turn that comes next, and the state without it: the head of the agenda, else one of the due turns, chosen by
`tick`. -/
def State.nextTurn (s : State) : Option Turn × State :=
  match s.agenda with
  | t :: rest => (some t, { s with agenda := rest })
  | [] => (s.dueTurns[s.tick % s.dueTurns.length]?, { s with tick := s.tick + 1 })

/-- Take a turn. An instruction of MB2 runs only through an issue. -/
def State.take (s : State) : Turn → Host.Outcome State Fault Refusal
  | .act i => if i.form.isSome then .next s else exec i s
  | .issue core q => s.issueTurn core q
  | .cycles core n => .next (s.passCycles core n)
  | .hostStore a bs => .next (s.store (hostMem + a) bs)
  | .directory half => .next (if (s.halfAt half).isSome then s.startRecall half false else s)

/-- What every turn leaves: the acts that follow at once (12 R365; 13 R389; 14 R404; 15 R434; 18 R502), and no issue in
progress. -/
def State.settleTurn (s : State) : State := { s.afterAct.settleLaunches.drainHost with cur := none }

end Sys2Proof.Machine
end

