-- ==== Sys2Proof/Machine/Boot.lean ====
section
/-! DEFINITION. A program placed by hand (DEDUCED, log 7): a launch with one crew of one thread whose entry slot holds a given
instruction, mapped and published, and an issue of its quadrant as the next turn. No run from reset goes through it: the
host's POWER_ON, MAP, LAUNCH and the dispatcher do the same step by step. -/

namespace Sys2Proof.Machine

/-- The virtual address of the placed line. -/
def bootVA : Nat := 2 ^ 16
/-- The frame of HBM4E that holds it. -/
def bootPA : Nat := 0

/-- The bytes of a line whose slot 0 holds an instruction that transfers may enter, and whose other slots hold NOP: the
line word with LW.TGT and LW.SPAR of slot 0 and LW.LPAR (02 R50). -/
def bootLine (w : Slot) : LineBits :=
  let word := 2 ^ 27 + (if onesNat 96 w.toNat % 2 = 1 then 2 ^ 19 else 2 ^ 18)
  BitVec.ofNat 512 (w.toNat + 2 ^ 480 * word)

/-- A privileged launch of one cluster of one crew of one thread, with everything that a core can grant. -/
def bootLaunch (num asid : Nat) : Launch where
  num := num
  tag := 0
  asid := asid
  entry := BitVec.ofNat 57 bootVA
  dims := (1, 1, 1)
  rect := (1, 1)
  cor := false
  priv := true
  coop := false
  replay := false
  v1fmt := false
  nbv := 2
  clusters := 1
  regs := 256
  csmSize := 65536
  slots := 64
  accs := 16
  shapesN := 16
  barsN := 32
  lsize := 0
  argp := 0
  lbase := 0
  handler := 0
  ctxarea := 0
  placement := []
  recipes := []
  rcslots := 0
  rcneeds := 0
  stages := 0
  nextCl := 1
  live := [⟨0, 0, (0, 0)⟩]

/-- Place the line: its page is mapped with R and X, the bytes stand in HBM4E, and its line is CLEAN. -/
def State.placeLine (s : State) (asid : Nat) (w : Slot) : State :=
  let s := s.mapPage asid bootVA bootPA 0 48
  let s := s.storeNat bootPA 64 (bootLine w).toNat
  { s with code := updWhere (fun f => f.page == bootPA / 4096) (fun f => { f with lines := f.lines.set 0 (none, false) }) s.code }

/-- Place a slot: its line, a launch and its crew on core 0, and an issue of the crew's quadrant as the next turn. -/
def State.placeSlot (s : State) (w : Slot) : State :=
  let num := s.nextLaunch
  let asid := s.nextAsid num
  let l := bootLaunch num asid
  let s := s.placeLine asid w
  let s : State := { s with nextLaunch := num + 1, launches := s.launches ++ [l] }
  let id := s.nextId
  let s := s.makeCrew
    { launch := l, kind := .launch, core := 0, cluster := 0, dims := l.dims, regs := l.regs, needs := l.needs
      corner := (0, 0), nbv := l.nbv } l.entry
  let slot := ((s.warp? id 0).map Warp.slot).getD 0
  let s := s.setCore 0 fun c => { c with last := updAt (slot / 16) (fun _ => slot / 16 * 16 + (slot + 15) % 16) c.last }
  { s with agenda := .issue 0 (slot / 16) :: s.agenda, dies := updAt 0 (fun d => { d with avail := true }) s.dies }

end Sys2Proof.Machine
end

