-- ==== Sys2Proof/Machine/Step.lean ====
section
/-! DEFINITION. The step: one turn (DESIGN CHOICE, log 1). -/

namespace Sys2Proof.Machine

/-- One step: the next turn is taken, and what must follow it at once follows. -/
def step (s : State) : Host.Outcome State Fault Refusal :=
  match s.nextTurn with
  | (none, t) => .next t
  | (some turn, t) =>
    match t.take turn with
    | .next u => .next u.settleTurn
    | r => r

/-- The state with an instruction of some bits placed as the first of a crew that issues in the next step (DEDUCED, log 7). -/
def State.withFetchWord (s : State) (_nbits w : Nat) : State := s.placeSlot (BitVec.ofNat 96 w)

end Sys2Proof.Machine
end

