-- ==== Sys2Proof/Safety.lean ====
section
/-! DEFINITION. The terms in which claims are stated: what counts as a safe run, when an instruction issues and executes,
and what it means that an instruction completes with a result in each lane and changes nothing else. Everything here is
said through readings of the state, so that nothing is assumed of how a state came about. -/

namespace Sys2Proof.Machine

/-- A run is safe as long as its steps answer a next state. -/
def StepsOn (s : State) : Prop := ∃ t, step s = .next t

/-! ### Issues -/

/-- `I` is the issue of `i` that the state names: its crew, its warp, its group, its program counter, and the threads
whose guard is 1 (02 R56, R57; 04 R127). -/
structure Issuing (i : Instr) (s : State) (I : Issue) : Prop where
  state : I.s = s
  instr : I.i = i
  form  : i.form = some I.form
  cur   : s.cur = some ⟨I.cid, I.wi, I.mask, I.pc⟩
  crew  : s.crew? I.cid = some I.crew
  warp  : s.warp? I.cid I.wi = some I.warp
  act   : I.act = guardMask I.warp I.mask I.form.body

/-- The issue meets none of the conditions of orders 7 to 10 that stop a whole group (02 R79), at least one thread's
guard is 1 (02 R57), and no token clashes (04 R147): the instruction's own effect follows. -/
structure Executes (i : Instr) (s : State) (I : Issue) : Prop where
  issuing : Issuing i s I
  checks  : orderChecks s I.crew I.warp I.mask I.pc i I.form = none
  some    : I.act ≠ 0
  token   : I.tokenClash = none

/-- No indirect operand of an issuing thread is out of range (02 R59, R79). -/
def Issue.InRange (I : Issue) : Prop := ∀ l ∈ I.lanes, I.indirectOut l = none

/-! ### One warp changes -/

/-- Of the whole state only the issuing warp changes: it becomes `w`. -/
structure WarpBecomes (I : Issue) (w : Warp) (t : State) : Prop where
  rest  : { t with crews := I.s.crews } = I.s
  crews : ∀ id, t.crew? id =
    if id = I.cid then some { I.crew with warps := I.crew.warps.set I.wi w } else I.s.crew? id

/-- Of the whole state only the issuing crew changes: it becomes `c`. -/
structure CrewBecomes (I : Issue) (c : Crew) (t : State) : Prop where
  rest  : { t with crews := I.s.crews } = I.s
  crews : ∀ id, t.crew? id = if id = I.cid then some c else I.s.crew? id

/-- A thread goes on at the successor of its program counter. -/
def Thread.goesOn (t : Thread) : Thread := t.goto (successor t.pc)

/-- The threads of the issuing warp afterwards: `f` says what becomes of an issuing thread; the threads of the group whose
guard is 0 go on, and every other thread is as before (02 R57). -/
def Issue.threadsAfter (I : Issue) (f : Nat → Thread → Thread) : List Thread :=
  I.warp.threads.mapIdx fun l t => if I.act.getLsbD l then f l t else if I.mask.getLsbD l then t.goesOn else t

/-- The issuing warp when its whole group goes on. -/
def Issue.warpOn (I : Issue) : Warp := { I.warp with threads := I.threadsAfter fun _ t => t.goesOn }

/-- An operation is accepted, and nothing else happens: it joins the accepted operations under the next number, the record
of its token (unless it is `t0`) becomes PENDING and bound to it, with the trace of a copy (04 R147, R148; 10 R309), and the
issuing warp is otherwise `w`. -/
structure Accepts (I : Issue) (o : Op) (w : Warp) (t : State) (trace : Option CpeTrace := none) : Prop where
  number : o.id = I.s.nextId ∧ t.nextId = I.s.nextId + 1
  ops    : t.ops = I.s.ops ++ [o]
  warp   : WarpBecomes I
    { w with toks := if o.tok = 0 then w.toks else updAt o.tok (fun _ => { st := .pending, bind := o.id, trace := trace }) w.toks }
    { t with ops := I.s.ops, nextId := I.s.nextId }

/-! ### Results -/

/-- What an instruction gives one thread: a register operand with its width in bits and its value, predicates, and sticky
flags. -/
structure Result where
  reg   : Option (Opd × Nat × Nat) := none
  preds : List (BitVec 3 × Bool) := []
  flags : BitVec 5 := 0
  deriving DecidableEq, Repr

/-- Vector register k of a thread after a result: the registers that the operand resolves to hold the value, the lowest
register least significant, and every other register is as before (02 R59, R60). -/
def Result.vecAfter (r : Result) (t : Thread) (k : Nat) : Option Word :=
  match r.reg with
  | some (o, bits, x) =>
    match t.vecIndex o with
    | some b =>
      if b ≤ k ∧ k < b + bits / 32 then t.v[k]?.map fun _ => BitVec.ofNat 32 (x / 2 ^ (32 * (k - b))) else t.v[k]?
    | none => t.v[k]?
  | none => t.v[k]?

/-- Predicate p of a thread after a result; p0 always reads 1 and is not written (02 R62). -/
def Result.predAfter (r : Result) (t : Thread) (p : BitVec 3) : Bool :=
  if p = 0 then t.preds.getLsbD 0
  else r.preds.foldl (fun b q => if q.1 = p then q.2 else b) (t.preds.getLsbD p.toNat)

/-- Uniform register k after the result of the lowest-numbered issuing lane (02 R61). -/
def Result.uniAfter (r : Result) (w : Warp) (k : Nat) : Option DWord :=
  match r.reg with
  | some (.uni u, bits, x) => if k = u.toNat then w.u[k]?.map fun _ => BitVec.ofNat 64 (x % 2 ^ bits) else w.u[k]?
  | _ => w.u[k]?

/-- A thread goes on at the successor of its program counter with a result, and nothing else of it changes. -/
structure GoesOn (old new : Thread) (r : Result) : Prop where
  frame : new = { old.goto (successor old.pc) with v := new.v, preds := new.preds, fflags := old.fflags ||| r.flags }
  regs  : ∀ k, new.v[k]? = r.vecAfter old k
  preds : ∀ p : BitVec 3, new.preds.getLsbD p.toNat = r.predAfter old p

/-- The instruction completes with a result in each issuing thread: those threads go on with their results, the threads of
the group whose guard is 0 go on unchanged (02 R57), every other thread, and every other thing in the state, is as before.
A thread for which `res` gives nothing stays as it was. -/
def Completes (I : Issue) (res : Nat → Option Result) (t : State) : Prop :=
  ∃ w : Warp, WarpBecomes I w t ∧
    w = { I.warp with threads := w.threads, u := w.u } ∧
    w.threads.length = I.warp.threads.length ∧
    (∀ l old, I.warp.threads[l]? = some old → ∃ new, w.threads[l]? = some new ∧
      if I.act.getLsbD l then
        match res l with
        | some r => GoesOn old new r
        | none => new = old
      else if I.mask.getLsbD l then new = old.goto (successor old.pc)
      else new = old) ∧
    ∀ k, w.u[k]? = match res I.low with | some r => r.uniAfter I.warp k | none => I.warp.u[k]?

/-- Every instruction to whose issuing lanes `res` gives a result completes with it, on every state on which it executes. -/
def CompletesWith (res : Issue → Instr → Nat → Option Result) : Prop :=
  ∀ (i : Instr) (s : State) (I : Issue), Executes i s I → I.InRange → (∀ l ∈ I.lanes, (res I i l).isSome) →
    ∃ t, exec i s = .next t ∧ Completes I (res I i) t

/-- Every thread of the group runs, as the threads of an issue group do (04 R126). -/
def Issue.GroupRuns (I : Issue) : Prop := ∀ l ∈ I.group, (I.thread l).run = .running

/-! ### What every step keeps -/

/-- What holds of every state that a run meets: memory stands in its canonical form (15 R442), the module has its 192 cores,
2 dies and 32 bands (01 R14, R17; 15 R443), and the arithmetic clock stands at a step of 100 MHz from 700 to 2100
(18 R512). -/
structure State.Inv (s : State) : Prop where
  memory : Memory.wf s.undef s.mem = true
  cores  : s.cores.length = 192
  dies   : s.dies.length = 2
  bands  : s.bands.length = 32
  clock  : 700 ≤ s.clock ∧ s.clock ≤ 2100 ∧ s.clock % 100 = 0

/-- The fields of a slot without guards and without a cache hint. -/
def plainFields (ty : Ty) (d a b c e : Opd) : Fields := ⟨⟨false, 0⟩, ⟨false, 0⟩, ty, .dflt, d, a, b, c, e⟩

end Sys2Proof.Machine
end

