-- ==== Sys2Proof/Claims/Integer.lean ====
section
/-! DEFINITION. What each INT form gives one lane, written from 05 over bit vectors and rational numbers and without the
integer engine's own definitions: the right-hand sides of the claims about INT. Each function answers nothing for an
instruction of another group, and nothing for a lane that traps. -/

namespace Sys2Proof.Claims

open Sys2Proof.Machine

/-- An operand of a lane as a bit vector of a width. -/
def val (I : Issue) (l : Nat) (o : Opd) (w : Nat) : BitVec w := BitVec.ofNat w (I.read l o w)

/-- A count: bits [7:0] of a 32-bit operand (R168). -/
def count (I : Issue) (l : Nat) (o : Opd) : Nat := ((val I l o 32).setWidth 8).toNat

/-- A predicate operand of a lane. -/
def flag (I : Issue) (l : Nat) (o : Opd) : Bool :=
  match o with
  | .pred p => (I.thread l).pred p
  | _ => false

/-- A predicate destination; class None takes nothing. -/
def toPred (o : Opd) (b : Bool) : List (BitVec 3 × Bool) :=
  match o with
  | .pred p => [(p, b)]
  | _ => []

/-- A register result. -/
def toReg (o : Opd) {w : Nat} (x : BitVec w) : Result := { reg := some (o, w, x.toNat) }

/-- Whether a Scalar type is signed (R167). -/
def isSigned : Ty → Bool
  | .si32 | .si64 | .si8x4 | .si16x2 => true
  | _ => false

/-- A value read by type: signed or unsigned. -/
def asInt (t : Ty) {w : Nat} (x : BitVec w) : Int := if isSigned t then x.toInt else x.toNat

/-- The least and the greatest value of a type of w bits. -/
def tyMin (t : Ty) (w : Nat) : Int := if isSigned t then -(2 : Int) ^ (w - 1) else 0
/-- See `tyMin`. -/
def tyMax (t : Ty) (w : Nat) : Int := if isSigned t then (2 : Int) ^ (w - 1) - 1 else (2 : Int) ^ w - 1

/-- A value clamped into a range. -/
def clamp (x lo hi : Int) : Int := max lo (min hi x)

/-! ### Addition and multiplication (R173, R174) -/

/-- IADD, ISUB and IADDX. -/
def addResult (I : Issue) (i : Instr) (l : Nat) : Option Result :=
  match i with
  | .iadd f sat =>
    let w := f.ty.regWidth
    let a := val I l f.a w
    let b := val I l f.b w
    some { toReg f.d (if sat then BitVec.ofInt w (clamp (asInt f.ty a + asInt f.ty b) (tyMin f.ty w) (tyMax f.ty w)) else a + b) with
           preds := toPred f.e (decide (2 ^ w ≤ a.toNat + b.toNat)) }
  | .isub f sat =>
    let w := f.ty.regWidth
    let a := val I l f.a w
    let b := val I l f.b w
    some { toReg f.d (if sat then BitVec.ofInt w (clamp (asInt f.ty a - asInt f.ty b) (tyMin f.ty w) (tyMax f.ty w)) else a - b) with
           preds := toPred f.e (decide (b.toNat ≤ a.toNat)) }
  | .iaddx f sub =>
    let w := f.ty.regWidth
    let a := val I l f.a w
    let b := if sub then ~~~val I l f.b w else val I l f.b w
    let c := (flag I l f.c).toNat
    some { toReg f.d (a + b + BitVec.ofNat w c) with preds := toPred f.e (decide (2 ^ w ≤ a.toNat + b.toNat + c)) }
  | _ => none

/-- IMUL, IMULH, IMAD and IMADW: products of twice the width. -/
def mulResult (I : Issue) (i : Instr) (l : Nat) : Option Result :=
  match i with
  | .imul f =>
    let w := f.ty.regWidth
    some (toReg f.d (val I l f.a w * val I l f.b w))
  | .imulh f =>
    let w := f.ty.regWidth
    let wide (x : BitVec w) : BitVec (2 * w) := if isSigned f.ty then x.signExtend (2 * w) else x.setWidth (2 * w)
    some (toReg f.d ((wide (val I l f.a w) * wide (val I l f.b w)).extractLsb' w w))
  | .imad f =>
    let w := f.ty.regWidth
    some (toReg f.d (val I l f.a w * val I l f.b w + val I l f.c w))
  | .imadw f =>
    let wide (x : BitVec 32) : BitVec 64 := if isSigned f.ty then x.signExtend 64 else x.setWidth 64
    some (toReg f.d (wide (val I l f.a 32) * wide (val I l f.b 32) + val I l f.c 64))
  | _ => none

/-! ### Division (R175) -/

/-- IDIV and IREM: with `.TRAP` a zero divisor gives nothing. -/
def divResult (I : Issue) (i : Instr) (l : Nat) : Option Result :=
  match i with
  | .idiv f trapEn =>
    let w := f.ty.regWidth
    let a := val I l f.a w
    let b := val I l f.b w
    if b = 0 then (if trapEn then none else some (toReg f.d (BitVec.allOnes w)))
    else some (toReg f.d (if isSigned f.ty then a.sdiv b else a.udiv b))
  | .irem f trapEn =>
    let w := f.ty.regWidth
    let a := val I l f.a w
    let b := val I l f.b w
    if b = 0 then (if trapEn then none else some (toReg f.d a))
    else some (toReg f.d (if isSigned f.ty then a.srem b else a.umod b))
  | _ => none

/-! ### Minimum, maximum, absolute value, selection, comparison (R176, R182) -/

/-- Whether a is below b in the order of a type. -/
def below (t : Ty) {w : Nat} (a b : BitVec w) : Bool := if isSigned t then a.slt b else a.ult b

/-- The relation that ISETP tests. -/
def relation (c : Cmp) (t : Ty) {w : Nat} (a b : BitVec w) : Bool :=
  match c with
  | .eq => a == b
  | .ne => a != b
  | .lt => below t a b
  | .le => !below t b a
  | .gt => below t b a
  | .ge => !below t a b

/-- k bop c, with c the value of predicate C, or k alone when C is None. -/
def withC (I : Issue) (l : Nat) (f : Fields) (bop : Bop) (k : Bool) : Bool :=
  if f.c = .absent then k
  else
    match bop with
    | .and => k && flag I l f.c
    | .or => k || flag I l f.c
    | .xor => k ^^ flag I l f.c

/-- IMIN, IMAX, IABS, ISETP and SEL. -/
def pickResult (I : Issue) (i : Instr) (l : Nat) : Option Result :=
  match i with
  | .imin f =>
    let w := f.ty.regWidth
    let a := val I l f.a w
    let b := val I l f.b w
    some (toReg f.d (if below f.ty b a then b else a))
  | .imax f =>
    let w := f.ty.regWidth
    let a := val I l f.a w
    let b := val I l f.b w
    some (toReg f.d (if below f.ty a b then b else a))
  | .iabs f sat =>
    let w := f.ty.regWidth
    let a := val I l f.a w
    some (toReg f.d (if sat && a == BitVec.intMin w then BitVec.intMax w else if a.msb then -a else a))
  | .isetp f cmp bop =>
    let w := f.ty.regWidth
    let k := relation cmp f.ty (val I l f.a w) (val I l f.b w)
    some { preds := toPred f.d (withC I l f bop k) ++ toPred f.e (withC I l f bop !k) }
  | .sel f =>
    let w := f.ty.regWidth
    some (toReg f.d (if flag I l f.c then val I l f.a w else val I l f.b w))
  | _ => none

/-! ### Logic, shifts and bit fields (R177-R181) -/

/-- The bits where a table of three inputs holds 1: the union of its minterms (R177). -/
def tableOf {w : Nat} (tab : BitVec 8) (a b c : BitVec w) : BitVec w :=
  (List.range 8).foldl (fun (x : BitVec w) j =>
    if tab.getLsbD j then
      x ||| ((if j.testBit 0 then a else ~~~a) &&& (if j.testBit 1 then b else ~~~b) &&& (if j.testBit 2 then c else ~~~c))
    else x) 0

/-- One element shifted (R178). -/
def shifted (k : Shift) {w : Nat} (x : BitVec w) (n : Nat) : BitVec w :=
  match k with
  | .shl => x <<< n
  | .shr => x >>> n
  | .sar => x.sshiftRight n
  | .rot => x.rotateLeft n

/-- A function of the sub-elements of two packed values (R167). -/
def byElement (t : Ty) (f : {k : Nat} → BitVec k → BitVec k → BitVec k) (x y : BitVec 32) : BitVec 32 :=
  match t with
  | .ui8x4 | .si8x4 =>
    f (x.extractLsb' 24 8) (y.extractLsb' 24 8) ++ f (x.extractLsb' 16 8) (y.extractLsb' 16 8) ++
      f (x.extractLsb' 8 8) (y.extractLsb' 8 8) ++ f (x.extractLsb' 0 8) (y.extractLsb' 0 8)
  | _ => f (x.extractLsb' 16 16) (y.extractLsb' 16 16) ++ f (x.extractLsb' 0 16) (y.extractLsb' 0 16)

/-- The shift amounts of a packed shift: an immediate gives its bits [7:0] to every sub-element (R178). -/
def packedAmounts (I : Issue) (l : Nat) (t : Ty) (o : Opd) : BitVec 32 :=
  match o with
  | .imm v =>
    let n : BitVec 8 := v.setWidth 8
    match t with
    | .ui8x4 | .si8x4 => n ++ n ++ n ++ n
    | _ => n.setWidth 16 ++ n.setWidth 16
  | _ => val I l o 32

/-- A shift of a Bits type by B[7:0], or of each sub-element by its own amount (R178). -/
def shiftResult (I : Issue) (l : Nat) (f : Fields) (k : Shift) : Result :=
  if f.ty ∈ Ty.packed then
    toReg f.d (byElement f.ty (fun x n => shifted k x (n.setWidth 8).toNat) (val I l f.a 32) (packedAmounts I l f.ty f.b))
  else toReg f.d (shifted k (val I l f.a f.ty.regWidth) (count I l f.b))

/-- BTAB, the shifts and SHF. -/
def logicResult (I : Issue) (i : Instr) (l : Nat) : Option Result :=
  match i with
  | .btab f =>
    let w := f.ty.regWidth
    some (toReg f.d (tableOf (val I l f.e 8) (val I l f.a w) (val I l f.b w) (val I l f.c w)))
  | .shl f => some (shiftResult I l f .shl)
  | .shr f => some (shiftResult I l f .shr)
  | .sar f => some (shiftResult I l f .sar)
  | .rot f => some (shiftResult I l f .rot)
  | .shf f right =>
    let w := f.ty.regWidth
    let F : BitVec (w + w) := val I l f.a w ++ val I l f.b w
    let n := count I l f.c
    some (toReg f.d (if right then (F >>> n).extractLsb' 0 w else (F <<< n).extractLsb' w w))
  | _ => none

/-- BFE, BFI, POPC, CLZ and BREV. -/
def fieldResult (I : Issue) (i : Instr) (l : Nat) : Option Result :=
  match i with
  | .bfe f =>
    let w := f.ty.regWidth
    let x := val I l f.a w
    let pos := count I l f.b
    let len := min (count I l f.c) w
    some (toReg f.d
      (if isSigned f.ty then ((x.sshiftRight pos).setWidth len).signExtend w else ((x >>> pos).setWidth len).setWidth w))
  | .bfi f =>
    let w := f.ty.regWidth
    let pos := count I l f.c
    let len := min (count I l f.e) w
    let mask : BitVec w := (BitVec.allOnes len).setWidth w <<< pos
    some (toReg f.d ((val I l f.b w &&& ~~~mask) ||| ((val I l f.a w <<< pos) &&& mask)))
  | .popc f =>
    let w := f.ty.regWidth
    some (toReg f.d (BitVec.ofNat 32 ((List.range w).countP fun k => (val I l f.a w).getLsbD k)))
  | .clz f =>
    let w := f.ty.regWidth
    some (toReg f.d (BitVec.ofNat 32 ((List.range w).takeWhile fun k => !(val I l f.a w).getMsbD k).length))
  | .brev f =>
    let w := f.ty.regWidth
    some (toReg f.d (val I l f.a w).reverse)
  | _ => none

/-! ### Moves (R183-R185) -/

/-- MOV without a special register, MOVI and LEA. -/
def moveResult (I : Issue) (i : Instr) (l : Nat) : Option Result :=
  match i with
  | .mov f => if f.d.isSpecial || f.a.isSpecial then none else some (toReg f.d (val I l f.a f.ty.regWidth))
  | .movi f hi =>
    match f.ty with
    | .si64 => some (toReg f.d (if hi then f.imm.setWidth 32 ++ val I l f.d 32 else f.imm.signExtend 64))
    | .ui64 | .b64 => some (toReg f.d (if hi then f.imm.setWidth 32 ++ val I l f.d 32 else f.imm.setWidth 64))
    | _ => some (toReg f.d (f.imm.setWidth 32))
  | .lea f =>
    let w := f.ty.regWidth
    let b : BitVec 64 := if isSigned f.ty then (val I l f.b w).signExtend 64 else (val I l f.b w).setWidth 64
    some (toReg f.d (val I l f.a 64 + b <<< count I l f.c))
  | _ => none

/-! ### Packed arithmetic and PACS (R186, R187) -/

/-- B of a packed form: an immediate is sign-extended to the sub-element and given to every one (R186). -/
def packedB (I : Issue) (l : Nat) (t : Ty) (o : Opd) : BitVec 32 :=
  match o with
  | .imm v =>
    match t with
    | .ui8x4 | .si8x4 => v.signExtend 8 ++ v.signExtend 8 ++ v.signExtend 8 ++ v.signExtend 8
    | _ => v.signExtend 16 ++ v.signExtend 16
  | _ => val I l o 32

/-- One sum or difference of sub-elements under a mode (R186). -/
def packSum (t : Ty) (mode : PackMode) (sub : Bool) {k : Nat} (x y : BitVec k) : BitVec k :=
  let s : Int := if sub then asInt t x - asInt t y else asInt t x + asInt t y
  match mode with
  | .wrap => if sub then x - y else x + y
  | .sat => BitVec.ofInt k (clamp s (tyMin t k) (tyMax t k))
  | .satu => BitVec.ofInt k (clamp s 0 ((2 : Int) ^ k - 1))

/-- One target of PACS: the survivor and the decision (R187). -/
def survivor (t : Ty) (max : Bool) (a bm : BitVec 32) : BitVec 16 × Bool :=
  let add (x y : BitVec 16) : BitVec 16 := if t = .ui16x2 && 65536 ≤ x.toNat + y.toNat then 65535 else x + y
  let c0 := add (a.extractLsb' 0 16) (bm.extractLsb' 0 16)
  let c1 := add (a.extractLsb' 16 16) (bm.extractLsb' 16 16)
  let below : Bool := if t = .ui16x2 then c1.ult c0 else (c1 - c0).msb
  let take1 := if max then !below && c1 != c0 else below
  (if take1 then c1 else c0, take1)

/-- PADD, PSUB, PMAX, PMIN and PACS. -/
def packResult (I : Issue) (i : Instr) (l : Nat) : Option Result :=
  match i with
  | .padd f mode =>
    some (toReg f.d (byElement f.ty (packSum f.ty mode false) (val I l f.a 32) (packedB I l f.ty f.b)))
  | .psub f mode =>
    some (toReg f.d (byElement f.ty (packSum f.ty mode true) (val I l f.a 32) (packedB I l f.ty f.b)))
  | .pmax f =>
    some (toReg f.d (byElement f.ty (fun x y => if below f.ty x y then y else x) (val I l f.a 32) (packedB I l f.ty f.b)))
  | .pmin f =>
    some (toReg f.d (byElement f.ty (fun x y => if below f.ty y x then y else x) (val I l f.a 32) (packedB I l f.ty f.b)))
  | .pacs f max =>
    let lo := survivor f.ty max (val I l f.a 32) (val I l f.b 32)
    let hi := survivor f.ty max (val I l f.a 32) (val I l f.c 32)
    match f.e with
    | .pred p => some { toReg f.d (hi.1 ++ lo.1) with preds := [(p, lo.2), (p + 1, hi.2)] }
    | _ => none
  | _ => none

/-! ### Cell keys (R188) -/

/-- The value of a finite FP32 code (06 R190); none for an infinity or a NaN. -/
def f32Value (x : BitVec 32) : Option Rat :=
  let e := (x.extractLsb' 23 8).toNat
  let f := (x.extractLsb' 0 23).toNat
  let m : Rat := if e = 0 then (f : Rat) * 2 / 2 ^ 150 else ((2 ^ 23 + f : Nat) : Rat) * 2 ^ e / 2 ^ 150
  if e = 255 then none else some (if x.msb then -m else m)

/-- A grid descriptor: origin, inverse cell size, the bits of each axis, and the order of the key. -/
structure Grid3 where
  ox  : BitVec 32
  oy  : BitVec 32
  oz  : BitVec 32
  inv : BitVec 32
  bx  : Nat
  byy : Nat
  bz  : Nat
  interleaved : Bool

/-- The descriptor of the three registers from one on; none where it raises Operand Range. -/
def gridOf (k0 k1 k2 : BitVec 64) : Option Grid3 :=
  let bx := (k2.extractLsb' 0 5).toNat
  let byy := (k2.extractLsb' 8 5).toNat
  let bz := (k2.extractLsb' 16 5).toNat
  let inter := k2.getLsbD 24
  let reserved := k2.extractLsb' 26 38 ≠ 0 ∨ k2.extractLsb' 21 3 ≠ 0 ∨ k2.extractLsb' 13 3 ≠ 0 ∨ k2.extractLsb' 5 3 ≠ 0
  match f32Value (k1.extractLsb' 32 32) with
  | some v =>
    if reserved ∨ k2.getLsbD 25 ∨ 31 < bx + byy + bz ∨ (inter ∧ (bx ≠ byy ∨ (bz ≠ bx ∧ bz ≠ 0))) ∨ v ≤ 0 then none
    else some ⟨k0.extractLsb' 0 32, k0.extractLsb' 32 32, k1.extractLsb' 0 32, k1.extractLsb' 32 32, bx, byy, bz, inter⟩
  | none => none

/-- The cell index of one axis; none for a position outside the grid. -/
def axisCell (g : Grid3) (wrap : Bool) (p o : BitVec 32) (bits : Nat) : Option Nat :=
  match f32Value p, f32Value o, f32Value g.inv with
  | some p, some o, some v =>
    let c : Int := if bits = 0 then 0 else ((p - o) * v).floor
    if wrap then some (c % 2 ^ bits).toNat else if 0 ≤ c ∧ c < 2 ^ bits then some c.toNat else none
  | _, _, _ => none

/-- The key of three cell indexes. -/
def keyOf (g : Grid3) (x y z : Nat) : BitVec 32 :=
  if !g.interleaved then BitVec.ofNat 32 (x + y * 2 ^ g.bx + z * 2 ^ (g.bx + g.byy))
  else
    (List.range g.bx).foldl (fun (k : BitVec 32) i =>
      let bit (b : Bool) (at' : Nat) : BitVec 32 := if b then 1 <<< at' else 0
      if g.bz = 0 then k ||| bit (x.testBit i) (2 * i) ||| bit (y.testBit i) (2 * i + 1)
      else k ||| bit (x.testBit i) (3 * i) ||| bit (y.testBit i) (3 * i + 1) ||| bit (z.testBit i) (3 * i + 2)) 0

/-- CELLKEY: a refused descriptor gives nothing. -/
def cellResult (I : Issue) (i : Instr) (l : Nat) : Option Result :=
  match i with
  | .cellkey f wrap =>
    match f.e with
    | .uni r =>
      let k (n : Nat) : BitVec 64 := BitVec.ofNat 64 (I.warp.uni (r.toNat + n))
      match gridOf (k 0) (k 1) (k 2) with
      | none => none
      | some g =>
        match axisCell g wrap (val I l f.a 32) g.ox g.bx, axisCell g wrap (val I l f.b 32) g.oy g.byy,
          axisCell g wrap (val I l f.c 32) g.oz g.bz with
        | some x, some y, some z => some (toReg f.d (keyOf g x y z))
        | _, _, _ => some (toReg f.d (BitVec.allOnes 32))
    | _ => none
  | _ => none

end Sys2Proof.Claims
end

