-- ==== Sys2Proof/Claims/Crossbar.lean ====
section
/-! DEFINITION. What each XBR form gives one lane, written from 08 over bit vectors and lists of lanes: the right-hand sides
of the claims about XBR. -/

namespace Sys2Proof.Claims

open Sys2Proof.Machine

/-- The participants of a lane's partition, ascending: threads of the issue whose guard is 1 (R255). -/
def party (I : Issue) (l : Nat) : List Nat :=
  (List.range 32).filter fun m => I.act.getLsbD m && m / 2 ^ I.warp.part.toNat == l / 2 ^ I.warp.part.toNat

/-- The mask of a list of lanes. -/
def laneSet (ls : List Nat) : BitVec 32 := ls.foldl (fun (m : BitVec 32) l => m ||| (1#32 <<< l)) 0

/-- The source lane of XGET in the partition of n lanes (R258). -/
def sourceLane (mode : XMode) (n l : Nat) (k : BitVec 8) : Option Nat :=
  let j := l % n
  let base := l - j
  match mode with
  | .pos => some (base + k.toNat % n)
  | .rot => some (base + (j + k.toNat) % n)
  | .off =>
    let q : Int := (j : Int) + k.toInt
    if 0 ≤ q ∧ q < n then some (base + q.toNat) else none
  | .swap => some (base + (j ^^^ (k.toNat % n)))

/-- XGET and BCAST. -/
def shuffleResult (I : Issue) (i : Instr) (l : Nat) : Option Result :=
  let n := 2 ^ I.warp.part.toNat
  match i with
  | .xget f mode =>
    let w := f.ty.regWidth
    match sourceLane mode n l (BitVec.ofNat 8 (count I l f.b)) with
    | some m =>
      if I.act.getLsbD m then some { toReg f.d (val I m f.a w) with preds := toPred f.e true }
      else some { toReg f.d (val I l f.a w) with preds := toPred f.e false }
    | none => some { toReg f.d (val I l f.a w) with preds := toPred f.e false }
  | .bcast f first =>
    match party I l with
    | [] => none
    | low :: _ =>
      let src := if first then low else l / n * n + count I low f.b % n
      some (if I.act.getLsbD src then toReg f.d (val I src f.a f.ty.regWidth) else {})
  | _ => none

/-- POLL and PEERS. -/
def voteResult (I : Issue) (i : Instr) (l : Nat) : Option Result :=
  let S := party I l
  match i with
  | .poll f mode inv =>
    let T := S.filter fun m => flag I m f.a ^^ inv
    match mode with
    | .every => some { preds := toPred f.d (decide (T = S)) }
    | .some => some { preds := toPred f.d (decide (T ≠ [])) }
    | .same => some { preds := toPred f.d (decide (T = S ∨ T = [])) }
    | .mask => some (toReg f.d (laneSet T))
    | .count => some (toReg f.d (BitVec.ofNat 32 T.length))
  | .peers f unif =>
    let w := f.ty.regWidth
    let equal := S.filter fun m => val I m f.a w == val I l f.a w
    let all : Bool := decide (equal = S)
    some { toReg f.d (if unif then (if all then laneSet S else 0) else laneSet equal) with preds := toPred f.e all }
  | _ => none

/-- One step of an integer fold. -/
def foldOp (op : FoldOp) (t : Ty) {w : Nat} (s x : BitVec w) : BitVec w :=
  match op with
  | .add => s + x
  | .min => if below t x s then x else s
  | .max => if below t s x then x else s
  | .and => s &&& x
  | .or => s ||| x
  | .xor => s ^^^ x

/-- The identity of an integer fold. -/
def foldZero (op : FoldOp) (t : Ty) (w : Nat) : BitVec w :=
  match op with
  | .min => BitVec.ofInt w (tyMax t w)
  | .max => BitVec.ofInt w (tyMin t w)
  | .and => BitVec.allOnes w
  | _ => 0

/-- One step of an FP32 fold: the rounded sum in RNE, or the number-preferring minimum or maximum, never flushed. -/
def foldF32 (op : FoldOp) (s x : BitVec 32) : BitVec 32 :=
  let a := fp32.decode s.toNat
  let b := fp32.decode x.toNat
  BitVec.ofNat 32
    (match op with
     | .add => (fp32.add .rne false a b).code
     | .min => (minMax fp32 false false a b).code
     | _ => (minMax fp32 true false a b).code)

/-- The identity of an FP32 fold: −0, +∞ and −∞. -/
def foldZeroF32 (op : FoldOp) : BitVec 32 :=
  match op with
  | .add => 0x80000000
  | .min => 0x7F800000
  | _ => 0xFF800000

/-- fold(x1, ..., xm) (R262). -/
def foldLanes {α : Type} (g : α → α → α) (z : α) : List α → α
  | [] => z
  | x :: xs => xs.foldl g x

/-- A fold of A over lanes in a type. -/
def foldOver (I : Issue) (f : Fields) (op : FoldOp) (ls : List Nat) : Result :=
  if f.ty = .f32 then toReg f.d (foldLanes (foldF32 op) (foldZeroF32 op) (ls.map fun m => val I m f.a 32))
  else
    let w := f.ty.regWidth
    toReg f.d (foldLanes (foldOp op f.ty) (foldZero op f.ty w) (ls.map fun m => val I m f.a w))

/-- FOLDX and SCANX. -/
def foldResult (I : Issue) (i : Instr) (l : Nat) : Option Result :=
  match i with
  | .foldx f op => some (foldOver I f op (party I l))
  | .scanx f op excl => some (foldOver I f op ((party I l).filter fun m => if excl then m < l else m ≤ l))
  | _ => none

/-- Four bytes as a word, byte 0 lowest. -/
def fourBytes (g : Nat → BitVec 8) : BitVec 32 := g 3 ++ g 2 ++ g 1 ++ g 0

/-- The byte that a control selects (R263). -/
def selected (a b : BitVec 32) (c : BitVec 8) : BitVec 8 :=
  let x : BitVec 8 := (b ++ a).extractLsb' (8 * (c.extractLsb' 0 3).toNat) 8
  if c.getLsbD 5 then (if c.getLsbD 4 then 0xFF else if x.msb then 0xFF else 0)
  else if c.getLsbD 4 then 0 else x

/-- BYSEL and TLU. -/
def byteResult (I : Issue) (i : Instr) (l : Nat) : Option Result :=
  match i with
  | .bysel f =>
    some (toReg f.d (fourBytes fun k => selected (val I l f.a 32) (val I l f.b 32) ((val I l f.c 32).extractLsb' (8 * k) 8)))
  | .tlu f n =>
    match f.a with
    | .vec r =>
      some (toReg f.d (fourBytes fun k =>
        let x := ((val I l f.b 32).extractLsb' (8 * k) 8).toNat
        if x < 4 * (n.toNat + 1) then ((I.thread l).v.getD (r.toNat + x / 4) 0).extractLsb' (8 * (x % 4)) 8
        else (val I l f.c 32).setWidth 8))
    | _ => none
  | _ => none

end Sys2Proof.Claims
end

