-- ==== Sys2Proof/Claims/Sequencer.lean ====
section
/-! DEFINITION. What each SEQ form leaves, written from 04 and 17 on the issuing warp, its crew and its tokens: the
right-hand sides of the claims about SEQ. Each function answers nothing for an instruction of another group, and nothing
where the form traps, or reaches memory, or lets other threads go. -/

namespace Sys2Proof.Claims

open Sys2Proof.Machine

/-! ### Results that lanes take (R140, R154, R165) -/

/-- STATE of a token record as TSTAT reports it (R154). -/
def stateCode : TokState → Nat
  | .free => 0
  | .pending => 1
  | .done => 2
  | .poisoned => 3

/-- A token record; `t0` reads DONE with CAUSE 0 (R144). -/
def record (w : Warp) (t : Nat) : TokRec := if t = 0 then { st := .done } else w.toks.getD t {}

/-- The word of TSTAT: ORIGIN, SOFT, CAUSE, STATE (R154). -/
def recordWord (r : TokRec) : BitVec 64 := r.origin ++ (0 : BitVec 23) ++ BitVec.ofBool r.soft ++ r.cause ++ BitVec.ofNat 2 (stateCode r.st)

/-- The number of a token operand. -/
def tokenOf (o : Opd) : Nat := match o with | .tok t => t.toNat | _ => 0

/-- The value of an immediate operand. -/
def small (o : Opd) : Nat := match o with | .imm v => v.toNat | _ => 0

/-- The partition of a lane: 2 to the PART lanes each (R139). -/
def partition (I : Issue) (l : Nat) : Nat := l >>> I.warp.part.toNat

/-- Whether a special register is one that every thread may read: numbers below 0x120, and those of Thread, Warp, Crew or
Launch scope; the others need a privileged launch (17 R481). -/
def readable (I : Issue) (n : BitVec 9) : Bool :=
  decide (n.toNat < 0x120) || [0x120, 0x121].contains n.toNat || (decide (0x150 ≤ n.toNat) && decide (n.toNat ≤ 0x159)) ||
  (match I.s.launch? I.crew.launch with | some l => l.priv | none => false)

/-- NOP, PREFETCH, ELECT, TSTAT, and the forms that read a special register. -/
def seqResult (I : Issue) (i : Instr) (l : Nat) : Option Result :=
  match i with
  | .nop _ | .prefetch _ => some {}
  | .elect f =>
    some { preds := toPred f.d ((List.range l).all fun m => !(I.act.getLsbD m && partition I m == partition I l)) }
  | .tstat f => some (toReg f.d (recordWord (record I.warp (tokenOf f.a))))
  | .getsr f =>
    match f.a with
    | .sreg n => if readable I n then some (toReg f.d (BitVec.ofNat f.ty.regWidth (I.sreg l n.toNat))) else none
    | _ => none
  | .mov f =>
    match f.a with
    | .sreg n => if readable I n then some (toReg f.d (BitVec.ofNat f.ty.regWidth (I.sreg l n.toNat))) else none
    | _ => none
  | _ => none

/-! ### Entering a line from the fetch buffer (R129; 02 R51, R53) -/

/-- The copy that a thread enters at an address whose line the warp's fetch buffer holds: the address is that of a slot, the
line word has sound parity and no reserved code, and LW.TGT of the slot is 1. -/
def entryAt (w : Warp) (a : Nat) : Option Line :=
  if 2 ^ 57 ≤ a ∨ a % 64 % 12 ≠ 0 ∨ 48 < a % 64 then none
  else
    match w.fbuf.find? fun y => y.va.toNat == a / 64 * 64 with
    | some ln =>
      if lparOk ln.bits && !lineIllegal ln.bits && ln.bits.getLsbD (480 + 27 + a % 64 / 12) then some ln else none
    | none => none

/-- A thread at a slot whose line it has just entered. -/
def entered (t : Thread) (a : Nat) (ln : Line) : Thread :=
  { t with pc := BitVec.ofNat 57 a, line := some ln, fresh := true, owed := false }

/-- The target of a branch in J format: a signed number of lines from the line of the slot, and a slot (02 R71). -/
def lineTarget (pc : VAddr) (f : FieldsJ) : Nat :=
  (BitVec.ofInt 57 ((pc.toNat / 64 * 64 : Nat) + f.off.toInt * 64 + f.slot.val * 12)).toNat

/-- The target of each issuing lane, if all of them enter it. -/
def branchWarp (I : Issue) (target : Nat → Nat) : Option Warp :=
  if I.lanes.all fun l => (entryAt I.warp (target l)).isSome then
    some { I.warp with
      threads := I.threadsAfter fun l t =>
        match entryAt I.warp (target l) with
        | some ln => entered t (target l) ln
        | none => t }
  else none

/-! ### Traps (17 R474) -/

/-- A thread in the handler of its launch after a synchronous trap: the saved PC, CAUSE with INFO and CODE, the detail, and
HANDLER with no wait saved (R474, R482). -/
def handled (t : Thread) (h : VAddr) (ln : Line) (saved : VAddr) (cause : BitVec 8) (code : BitVec 16) (detail : DWord) : Thread :=
  { t with
    run := .running
    pc := h
    line := some ln
    fresh := true
    owed := false
    tcause := code ++ (0 : BitVec 40) ++ cause
    tpc := saved
    tpc0 := saved
    taddr := detail
    tmode := 1 }

/-- The handler of the issuing crew's launch and the copy that a thread enters there; none when the launch has no handler. -/
def handlerEntry (I : Issue) : Option (VAddr × Line) :=
  match I.s.launch? I.crew.launch with
  | some l => if l.handler = 0 then none else (entryAt I.warp l.handler.toNat).map fun ln => (l.handler, ln)
  | none => none

/-- Every issuing thread takes a trap into its handler: none of them is in handler mode. -/
def trapWarp (I : Issue) (saved : VAddr) (cause : BitVec 8) (code : BitVec 16) (detail : DWord) : Option Warp :=
  match handlerEntry I with
  | some (h, ln) =>
    if I.lanes.all fun l => !(I.thread l).tmode.getLsbD 0 then
      some { I.warp with threads := I.threadsAfter fun _ t => handled t h ln saved cause code detail }
    else none
  | none => none

/-! ### Waits on tokens (R151, R152) -/

/-- What SLEEP and TTEST wait on: a keyring, or every PENDING token of the warp (R152). -/
def waitedFor (I : Issue) (e : Opd) : List Bound :=
  let ts : List Nat :=
    match e with
    | .absent => (List.range 32).filter fun t => (record I.warp t).st == .pending
    | e => I.warp.ring e
  ts.map fun t =>
    let r := record I.warp t
    ⟨t, r.bind, match r.st with | .pending => .pending | .poisoned => .poisoned r.cause r.origin | _ => .done⟩

/-- Whether the wait is over: all tokens have settled, or with `.ANY` at least one has. -/
def waitOver (ks : List Bound) (any : Bool) : Bool :=
  (ks.all fun k => k.st != .pending) || (any && ks.any fun k => k.st != .pending)

/-- The lowest-numbered POISONED token of a wait. -/
def poisonOf (ks : List Bound) : Option (BitVec 5 × BitVec 6 × Word) :=
  ks.findSome? fun k => match k.st with | .poisoned c o => some (BitVec.ofNat 5 k.tok, c, o) | _ => none

/-- `%tstat` after an observation; only the first is kept (R151, R164). -/
def observed (w : DWord) (p : Option (BitVec 5 × BitVec 6 × Word)) : DWord :=
  match p with
  | some (t, c, o) => if w.getLsbD 0 then w else o ++ (0 : BitVec 18) ++ c ++ t ++ (0 : BitVec 2) ++ (1 : BitVec 1)
  | none => w

/-- A thread drops a line that it has fetched and not issued from (03 R123). -/
def unfetched (t : Thread) : Thread := if t.fresh then { t with line := none, fresh := false } else t

/-- Write a predicate; a write to `p0` is discarded (02 R62). -/
def setPred (t : Thread) (o : Opd) (b : Bool) : Thread :=
  match o with
  | .pred p =>
    if p = 0 then t
    else { t with preds := BitVec.ofNat 8 (t.preds.toNat - 2 ^ p.toNat * (t.preds.getLsbD p.toNat).toNat + 2 ^ p.toNat * b.toNat) }
  | _ => t

/-- The warp when a wait on tokens is over: with a token in it, an acquire that empties the fetch buffer. -/
def wokenWarp (I : Issue) (ks : List Bound) (f : Thread → Thread) : Warp :=
  let drop (t : Thread) : Thread := if ks.isEmpty then t else unfetched t
  { I.warp with
    threads := I.threadsAfter fun _ t => drop (f t).goesOn
    fbuf := if ks.isEmpty then I.warp.fbuf else []
    tstat := observed I.warp.tstat (poisonOf ks) }

/-! ### Join points (R132) -/

/-- A join point of a warp. -/
def joinOf (w : Warp) (k : Nat) : Join := w.joins.getD k {}

/-- The warp after JWAIT k: its members among the issuing threads wait; when every member waits, all of them go on. -/
def joinWarp (I : Issue) (k : Nat) : Warp :=
  let j := joinOf I.warp k
  let waits := I.act &&& j.member
  let all := j.waiting ||| waits
  let w := if waits = 0 then I.warp else { I.warp with wdCount := 0 }
  if j.member ≠ 0 ∧ all = j.member then
    { w with
      joins := updAt k (fun _ => {}) w.joins
      threads := w.threads.mapIdx fun l t =>
        if waits.getLsbD l || (all.getLsbD l && t.run == .join k && !I.mask.getLsbD l) then { t.goesOn with run := .running, owed := t.owed }
        else if I.mask.getLsbD l then t.goesOn
        else t }
  else
    { w with
      joins := updAt k (fun j => { j with waiting := all }) w.joins
      threads := I.threadsAfter fun l t => if waits.getLsbD l then { t with run := .join k } else t.goesOn }

/-! ### The warp after a SEQ form -/

/-- What the issuing warp becomes; nothing else in the state changes. -/
def warpResult (I : Issue) (i : Instr) : Option Warp :=
  match i with
  | .wdog f trapEn => some { I.warpOn with wdLimit := f.imm.extractLsb' 0 5, wdtrap := trapEn }
  | .part f => some { I.warpOn with part := BitVec.ofNat 3 (small f.a) }
  | .yield _ =>
    some { I.warpOn with
      wdCount := 0
      yieldCy := 16
      yieldTo := I.s.crews.flatMap fun k =>
        if k.core = I.crew.core then
          (k.warps.filter fun y =>
            decide (y.slot / 16 = I.warp.slot / 16) && decide (y.slot ≠ I.warp.slot) && y.threads.any fun t => t.run == .running).map Warp.slot
        else [] }
  | .tfree f =>
    let ts := I.warp.ring f.e
    if ts.any fun t => (record I.warp t).st == .pending then none
    else some { I.warpOn with toks := I.warp.toks.mapIdx fun t r => if ts.contains t then {} else r }
  | .bra f => branchWarp I fun _ => lineTarget I.pc f
  | .brx f => branchWarp I fun l => (val I l f.a 64).toNat
  | .jset f =>
    let k := small f.a
    let j := joinOf I.warp k
    if j.waiting = j.member ||| I.act then none
    else some { I.warpOn with joins := updAt k (fun j => { j with member := j.member ||| I.act }) I.warp.joins }
  | .jwait f => some (joinWarp I (small f.a))
  | .exit _ =>
    let joins := I.warp.joins.mapIdx fun k j =>
      if k < 8 then { member := j.member &&& ~~~I.act, waiting := j.waiting &&& ~~~I.act : Join } else j
    if I.warp.waitFor &&& I.act ≠ 0 ∨ (joins.take 8).any fun j => decide (j.member ≠ 0) && decide (j.waiting = j.member) then none
    else
      some { I.warp with
        joins := joins
        threads := I.threadsAfter fun _ t => { t with run := .ended, tmode := t.tmode &&& 0x1FFE } }
  | .sleep f any =>
    let ks := waitedFor I f.e
    if waitOver ks any then
      if (poisonOf ks).isSome ∧ I.warp.ptrap then none else some { wokenWarp I ks id with wdCount := 0 }
    else
      some { I.warp with
        wdCount := 0
        threads := I.threadsAfter fun _ t => { t with run := .sleep ks any } }
  | .ttest f any =>
    let ks := waitedFor I f.e
    let b := waitOver ks any
    some (if b then wokenWarp I ks fun t => setPred t f.d b else { I.warp with threads := I.threadsAfter fun _ t => (setPred t f.d b).goesOn })
  | .trap f => trapWarp I (successor I.pc) 0x14 (f.imm.extractLsb' 0 16) 0
  | .brk _ => trapWarp I I.pc 0x15 0 0
  | .rtt _ =>
    if I.lanes.any fun l =>
        let t := I.thread l
        !t.tmode.getLsbD 0 || (t.tpc = t.tpc0 && (t.tmode.getLsbD 5 || t.tmode.getLsbD 12)) || I.warp.waitFor.getLsbD l ||
        t.run != .running then none
    else
      some { I.warp with
        threads := I.threadsAfter fun _ t =>
          { t with pc := t.tpc, line := none, owed := t.tcause.getLsbD 36 && decide (t.tpc = t.tpc0), tmode := t.tmode &&& 0x1FFE } }
  | _ => none

/-! ### Writing special registers (R165; 02 R69, R70; 17 R481) -/

/-- The 64 bits that a source gives a special register in a lane: a register zero-extended, an immediate sign-extended. -/
def written (I : Issue) (f : Fields) (l : Nat) : BitVec 64 :=
  match f.a with
  | .imm v => v.signExtend 64
  | o => (val I l o f.ty.regWidth).setWidth 64

/-- Whether a thread may write a special register: every one below 0x120, all of them in a privileged launch, and five of
them in a handler (17 R481). -/
def writable (I : Issue) (l n : Nat) : Bool :=
  decide (n < 0x120) || ((I.thread l).tmode.getLsbD 0 && [0x151, 0x154, 0x155, 0x158, 0x159].contains n) ||
  (match I.s.launch? I.crew.launch with | some l => l.priv | none => false)

/-- What a write of a thread-scope register leaves of a thread; none where the map refuses the value, or where the register
is none of these. -/
def threadWrite (I : Issue) (n : Nat) (x : BitVec 64) (t : Thread) : Option Thread :=
  if 0x00C ≤ n ∧ n ≤ 0x00F then some { t with ix := t.ix.set (n - 0x00C) (x.setWidth 8) }
  else if n = 0x017 then if x.toNat ≤ I.crew.lsize.toNat then some { t with csp := x.setWidth 32 } else none
  else if n = 0x080 then some { t with fflags := x.setWidth 5 }
  else if n = 0x081 then
    if x.extractLsb' 5 3 = 0 ∧ x.extractLsb' 8 3 ≤ 3 then some { t with fenv := x.setWidth 13 } else none
  else if n = 0x151 then
    if t.tmode.getLsbD 0 ∧ x < 2 ^ 57 ∧ x.toNat % 64 % 12 = 0 ∧ x.toNat % 64 ≤ 48 then some { t with tpc := x.setWidth 57 } else none
  else if n = 0x154 then some { t with tscr0 := x }
  else if n = 0x155 then some { t with tscr1 := x }
  else none

/-- What a write of a warp-scope register leaves of the warp. -/
def warpWrite (n : Nat) (x : BitVec 64) (w : Warp) : Option Warp :=
  if n = 0x010 then
    if x &&& 0xFFFFC006 ≠ 0 then none else if x.getLsbD 0 then some { w with tstat := 0 } else some w
  else if n = 0x011 then some { w with wdtrap := x.getLsbD 1, ptrap := x.getLsbD 0 }
  else if n = 0x082 then if x.setWidth 2 = 1 ∨ x.setWidth 2 = 2 then some { w with nbv := x.setWidth 2 } else none
  else if 0x020 ≤ n ∧ n < 0x028 then
    let j := joinOf w (n - 0x020)
    let live : Mask := w.lanesWhere fun t => !(t.run == .ended || t.run == .absent || t.run == .stopped)
    let member := x.setWidth 32 &&& live
    if j.waiting &&& ~~~member ≠ 0 ∨ (member ≠ 0 ∧ j.waiting = member) then none
    else some { w with joins := updAt (n - 0x020) (fun j => { j with member := member }) w.joins }
  else none

/-- What a write of a register of wider scope leaves of the state: the event counters of a core and of a die, the settings
of a launch, and those of a crew. -/
def wideWrite (I : Issue) (n : Nat) (x : BitVec 64) (s : State) : Option State :=
  let core (f : Core → Core) : Option State := some { s with cores := updAt I.crew.core f s.cores }
  let die (f : Die → Die) : Option State := some { s with dies := updAt (I.crew.core / 96) f s.dies }
  let launch (f : Launch → Launch) : Option State :=
    some { s with launches := s.launches.map fun l => if l.num == I.crew.launch then f l else l }
  if n = 0x015 then core fun c => { c with wdevt := x.setWidth 32 }
  else if n = 0x0B0 then core fun c => { c with fchevt := x.setWidth 32 }
  else if n = 0x0C0 then core fun c => { c with cpevt := x.setWidth 32 }
  else if n = 0x0D0 then core fun c => { c with mxevt := x.setWidth 32 }
  else if n = 0x0E1 then core fun c => { c with fabevt := x.setWidth 32 }
  else if n = 0x112 then die fun d => { d with rcevt := x.setWidth 32 }
  else if n = 0x124 then die fun d => { d with dropped := x.extractLsb' 32 32, written := x.setWidth 32 }
  else if n = 0x141 then die fun d => { d with hmevt := x.setWidth 32 }
  else if n = 0x110 then
    if x.setWidth 4 = (0 : BitVec 4) ∨ 8 < (x.setWidth 4 : BitVec 4) then none else launch fun l => { l with rcdepth := x.setWidth 4 }
  else if n = 0x121 then launch fun l => { l with v1fmt := x.getLsbD 1, replay := x.getLsbD 0 }
  else none

/-- The register that SETSR, or MOV to a special register, names. -/
def specialDest : Instr → Option (Fields × Nat)
  | .setsr f => match f.d with | .sreg n => some (f, n.toNat) | _ => none
  | .mov f => match f.d, f.a with | .sreg _, .sreg _ => none | .sreg n, _ => some (f, n.toNat) | _, _ => none
  | _ => none

/-- The issuing warp after a write of a register of thread or warp scope that every issuing thread may write and whose map
takes the value. -/
def specialWarp (I : Issue) (i : Instr) : Option Warp :=
  match specialDest i with
  | none => none
  | some (f, n) =>
    if !I.lanes.all fun l => writable I l n then none
    else if I.lanes.all fun l => (threadWrite I n (written I f l) (I.thread l)).isSome then
      some { I.warp with
        threads := I.threadsAfter fun l t => ((threadWrite I n (written I f l) t).getD t).goesOn }
    else warpWrite n (written I f I.low) I.warpOn

/-! ### Signals (R155, R156) -/

/-- What a TSIG leaves of its token's record. -/
def signalled : Instr → TokRec → Issue → TokRec
  | .tsigArm _, _, I => { st := .pending, soft := true, bind := I.s.nextId }
  | .tsigDone _, r, _ => { r with st := .done, soft := false, cause := 0, origin := 0, trace := none }
  | .tsigPoison f, r, I =>
    { r with
      st := .poisoned
      soft := false
      cause := 9
      origin := (0 : BitVec 5) ++ BitVec.ofNat 1 (I.crew.core / 96) ++ BitVec.ofNat 8 I.crew.core ++ BitVec.ofNat 5 (tokenOf f.a) ++ (0 : BitVec 13)
      trace := none }
  | _, r, _ => r

/-- The issuing warp after a TSIG of a token. -/
def signalWarp (I : Issue) (i : Instr) (t : Nat) : Warp :=
  if t = 0 then I.warpOn else { I.warpOn with toks := updAt t (fun r => signalled i r I) I.warp.toks }

/-! ### Named barriers (R134, R135) -/

/-- A barrier at which the issuing threads arrive: it counts them, and holds what their arrival releases, the earlier accesses that
have still to perform (R137). -/
def countArrivals (I : Issue) (x : Bar) : Bar :=
  { x with
    arrived := x.arrived + I.lanes.length
    before := (x.before.filter fun y => I.s.openOf y != 0) ++ I.s.pendingOf I.cid I.wi I.act }

/-- The issuing crew after its threads have arrived at a barrier without completing its phase. -/
def arrivedCrew (I : Issue) (b : Nat) (w : Warp) (f : Bar → Bar) : Crew :=
  { I.crew with warps := I.crew.warps.set I.wi w, bars := updAt b f I.crew.bars }

/-- BARA and BARW, where the arrivals do not complete a phase, and BARS, where the new EXPECT does not. -/
def crewResult (I : Issue) (i : Instr) : Option Crew :=
  match i with
  | .bara f =>
    let b := Opd.tileNo f.a
    match I.crew.bars[b]? with
    | some x =>
      if x.expect = 0 ∨ x.arrived + I.lanes.length < x.expect then
        some (arrivedCrew I b I.warpOn (countArrivals I))
      else none
    | none => none
  | .barw f =>
    let b := Opd.tileNo f.a
    match I.crew.bars[b]? with
    | some x =>
      if x.expect = 0 ∨ x.arrived + I.lanes.length < x.expect then
        some (arrivedCrew I b { I.warp with wdCount := 0, threads := I.threadsAfter fun _ t => { t.goesOn with run := .barrier b x.phase } }
          (countArrivals I))
      else none
    | none => none
  | .bars f =>
    let b := Opd.tileNo f.a
    let n := (val I I.low f.b 64).toNat
    match I.crew.bars[b]? with
    | some x => if n = 0 ∨ 1024 < n ∨ n ≤ x.arrived then none else some (arrivedCrew I b I.warpOn fun x => { x with expect := n })
    | none => none
  | _ => none

end Sys2Proof.Claims
end

