-- ==== Sys2Proof/Claims/Acceptance.lean ====
section
/-! DEFINITION. The operation that each form of the LME, the FCH, the FAB and the phase barriers has accepted, and how it
leaves the issuing warp, written from 04, 07, 09 and 12: the right-hand sides of the claims about acceptance. Each function
answers nothing for an instruction of another group, and nothing where a check at issue fails. -/

namespace Sys2Proof.Claims

open Sys2Proof.Machine

/-! ### Operands -/

/-- The operation of an issue, before its own operands: its token, its keyring as the records now stand, its threads. -/
def operation (I : Issue) (c e : Opd) : Op :=
  { id := I.s.nextId, crew := I.cid, warp := I.wi, core := I.crew.core, slot := I.warp.slot, launch := I.crew.launch
    instr := I.i, lanes := I.act, tok := tokenOf c, nbv := I.warp.nbv
    keys := (I.warp.ring e).map fun t =>
      let r := record I.warp t
      ⟨t, r.bind, match r.st with | .pending => .pending | .poisoned => .poisoned r.cause r.origin | _ => .done⟩ }

/-- A signed offset: an immediate, or a 32-bit register (07 R226). -/
def offsetOf (I : Issue) (l : Nat) (o : Opd) : Int :=
  match o with
  | .imm v => v.toInt
  | o => (val I l o 32).toInt

/-- The vector register that a destination names in a lane (02 R59). -/
def destOf (I : Issue) (l : Nat) (o : Opd) : Nat :=
  match o with
  | .vec r => r.toNat
  | .vecInd ix k => ((I.thread l).ix.getD ix.toNat 0).toNat + k.toNat
  | _ => 0

/-- The bytes of a load, store or atomic type (07 R224). -/
def bytesOf : Ty → Nat
  | .ui8 | .si8 | .b8 => 1
  | .ui16 | .si16 | .b16 => 2
  | .ui64 | .si64 | .b64 | .f64 => 8
  | .b128 => 16
  | _ => 4

/-! ### The checks of a lane (07 R226-R229; 03 R119, R120) -/

/-- Whether a ward of the issuing core refuses bytes lo to lo + n - 1 of an address space, or of a crew's grant. -/
def wardBars (I : Issue) (write csm : Bool) (space lo n : Nat) : Bool :=
  (I.s.core I.crew.core).wards.any fun w =>
    w.csm == csm && (write || w.dest) && w.spans.any fun r => decide (r.1 = space ∧ lo < r.2.2 ∧ r.2.1 < lo + n)

/-- A global access: within 57 bits, aligned, and behind no ward. -/
def globalLane (I : Issue) (l a n align : Nat) (write : Bool) : Option LaneAcc :=
  if a + n ≤ 2 ^ 57 ∧ a % align = 0 ∧ !wardBars I write false I.asid a n then some { lane := l, addr := BitVec.ofNat 64 a } else none

/-- A local access: within the local area of the thread. -/
def localLane (I : Issue) (l : Nat) (off : Int) (n : Nat) (write : Bool) : Option LaneAcc :=
  if 0 ≤ off ∧ off + n ≤ I.crew.lsize.toNat then globalLane I l (I.s.localBase I.crew I.warp.slot I.wi l + off.toNat) n 1 write else none

/-- The core of a place in the issuing crew's rectangle: the two signed coordinates are added to the issuing core's own. -/
def placeCore (I : Issue) (p : BitVec 8) : Option Nat :=
  let x : Int := (I.crew.core % 96 % 8 : Nat) + (p.extractLsb' 0 4).toInt
  let y : Int := (I.crew.core % 96 / 8 : Nat) + (p.extractLsb' 4 4).toInt
  if x < I.crew.corner.1 ∨ I.crew.corner.1 + I.crew.rect.1 ≤ x ∨ y < I.crew.corner.2 ∨ I.crew.corner.2 + I.crew.rect.2 ≤ y then none
  else if 0 ≤ x ∧ x < 8 ∧ 0 ≤ y ∧ y < 12 then some (I.crew.core / 96 * 96 + 8 * y.toNat + x.toNat) else none

/-- The core, window and effective offset that a CSM pointer names for n bytes. -/
def csmPlace (I : Issue) (p : BitVec 32) (off : Int) (n : Nat) : Option (Nat × Bool × Nat) :=
  let eff : Int := (p.extractLsb' 0 19).toNat + off
  match placeCore I (p.extractLsb' 24 8) with
  | none => none
  | some core =>
    let shared := p.getLsbD 23
    let limit := if shared then ((I.s.clusterCrews I.crew core).map Crew.csmSize).foldl (· + ·) 0 else I.crew.csmSize
    if p.extractLsb' 19 4 ≠ 0 ∨ (!shared && p.extractLsb' 24 8 != 0) ∨ eff < 0 ∨ limit < eff + n then none
    else some (core, shared, eff.toNat)

/-- A CSM access: in its window, as aligned as the form asks, and behind no ward. -/
def csmLane (I : Issue) (l : Nat) (p : BitVec 32) (off : Int) (n align : Nat) (granule write : Bool) : Option LaneAcc :=
  match csmPlace I p off n with
  | some (core, shared, e) =>
    if e % align ≠ 0 ∨ (granule && e / 16 != (e + n - 1) / 16) then none
    else if (I.s.csmParts I.crew core shared e n).any fun q => wardBars I write true q.crew q.off q.n then none
    else some { lane := l, addr := p.setWidth 64, off := e }
  | none => none

/-! ### The LME (07 R224-R250) -/

/-- The global address of a lane with an offset: the sum wraps at 64 bits. -/
def globalAddr (I : Issue) (l : Nat) (f : Fields) (hasOff : Bool) : Nat :=
  (val I l f.a 64 + if hasOff then BitVec.ofInt 64 (offsetOf I l f.b) else 0).toNat

/-- The data of an atomic: with CAS the compare value and then the new one. -/
def atomLane (I : Issue) (l : Nat) (f : Fields) (op : AtomOp) (a : LaneAcc) : LaneAcc :=
  let w := 8 * bytesOf f.ty
  if op = .cas then
    let d := val I l f.d (2 * w)
    { a with dst := destOf I l f.d, cmp := (d.extractLsb' 0 w).setWidth 128, data := (d.extractLsb' w w).setWidth 128 }
  else
    let d := val I l f.d w
    { a with dst := destOf I l f.d, cmp := d.setWidth 128, data := d.setWidth 128 }

/-- The access that a lane of an LME form, or of CODEQ, asks for. -/
def accessLane (I : Issue) (i : Instr) (l : Nat) : Option LaneAcc :=
  match i with
  | .ld f str => (globalLane I l (globalAddr I l f (str == .relaxed)) (bytesOf f.ty) 1 false).map fun a => { a with dst := destOf I l f.d }
  | .st f str =>
    (globalLane I l (globalAddr I l f (str == .relaxed)) (bytesOf f.ty) 1 true).map fun a =>
      { a with dst := destOf I l f.d, data := (val I l f.d (8 * bytesOf f.ty)).setWidth 128 }
  | .lds f _ =>
    (csmLane I l (val I l f.a 32) (offsetOf I l f.b) (bytesOf f.ty) 1 (match i with | .lds _ .none => false | _ => true) false).map fun a =>
      { a with dst := destOf I l f.d }
  | .sts f =>
    (csmLane I l (val I l f.a 32) (offsetOf I l f.b) (bytesOf f.ty) 1 false true).map fun a =>
      { a with dst := destOf I l f.d, data := (val I l f.d (8 * bytesOf f.ty)).setWidth 128 }
  | .latchSet f | .latchClr f => csmLane I l (val I l f.a 32) (offsetOf I l f.b) 16 16 false true
  | .atom f op csm _ | .red f op csm _ =>
    (if csm then csmLane I l (val I l f.a 32) 0 (bytesOf f.ty) (bytesOf f.ty) false true
     else globalLane I l (globalAddr I l f false) (bytesOf f.ty) (bytesOf f.ty) true).map (atomLane I l f op)
  | .mdld f | .codeq f => (globalLane I l (globalAddr I l f true) 1 1 false).map fun a => { a with dst := destOf I l f.d }
  | .mdst f => (globalLane I l (globalAddr I l f true) 1 1 true).map fun a => { a with data := (val I l f.d 32).setWidth 128 }
  | .ldloc f =>
    (localLane I l ((val I l f.a 32).toNat + offsetOf I l f.b) (bytesOf f.ty) false).map fun a => { a with dst := destOf I l f.d }
  | .stloc f =>
    (localLane I l ((val I l f.a 32).toNat + offsetOf I l f.b) (bytesOf f.ty) true).map fun a =>
      { a with dst := destOf I l f.d, data := (val I l f.d (8 * bytesOf f.ty)).setWidth 128 }
  | _ => none

/-- The fields of the forms whose lanes make accesses. -/
def accessFields : Instr → Option Fields
  | .ld f _ | .st f _ | .lds f _ | .sts f | .latchSet f | .latchClr f | .atom f _ _ _ | .red f _ _ _ | .mdld f | .mdst f
  | .ldloc f | .stloc f | .codeq f | .fld f _ _ | .fst f _ _ | .fatom f _ _ _ | .fatomc f _ _ _ | .fred f _ _ _ => some f
  | _ => none

/-! ### The FAB (12 R343-R364) -/

/-- The endpoint of a signed offset from this module, modulo the pod (12 R343). -/
def endpointAt (I : Issue) (off : Int) : Nat := ((I.s.endpoint + off) % (max I.s.podSize 1 : Nat)).toNat

/-- The endpoint that an operand names in a lane. -/
def endpointOf (I : Issue) (l : Nat) (o : Opd) : Nat :=
  endpointAt I (match o with | .imm v => v.toInt | o => (val I l o 12).toInt)

/-- A remote access of a lane: every byte within 57 bits, and aligned. -/
def remoteLane (I : Issue) (l : Nat) (f : Fields) (n : Nat) : Option LaneAcc :=
  let a := val I l f.a 64
  if a.toNat + n ≤ 2 ^ 57 ∧ a.toNat % n = 0 then some { lane := l, addr := a, off := endpointOf I l f.b, dst := destOf I l f.d } else none

/-- The access that a lane of a FAB form asks for. -/
def fabAccess (I : Issue) (i : Instr) (l : Nat) : Option LaneAcc :=
  match i with
  | .fld f _ _ => remoteLane I l f (bytesOf f.ty)
  | .fst f _ _ | .fatomc f _ _ _ | .fred f _ _ _ =>
    (remoteLane I l f (bytesOf f.ty)).map fun a => { a with data := (val I l f.d (8 * bytesOf f.ty)).setWidth 128 }
  | .fatom f op _ _ => (remoteLane I l f (bytesOf f.ty)).map (atomLane I l f op)
  | _ => none

/-- An operation with one access for each issuing lane, if every lane passes its checks. -/
def laneOperation (I : Issue) (i : Instr) : Option Op :=
  match accessFields i with
  | none => none
  | some f =>
    let lane (l : Nat) : Option LaneAcc := (accessLane I i l).orElse fun _ => fabAccess I i l
    if I.lanes.all fun l => (lane l).isSome then some { operation I f.c f.e with acc := I.lanes.filterMap lane } else none

/-- The endpoints of a multicast group (12 R363). -/
def groupWord (I : Issue) (x : BitVec 64) : Option (List Nat) :=
  let n := (x.extractLsb' 24 11).toNat
  let stride := (x.extractLsb' 12 12).toInt
  if x.extractLsb' 35 29 ≠ 0 ∨ n = 0 ∨ 1024 < n ∨ (1 < n ∧ stride = 0) then none
  else some ((List.range n).map fun (k : Nat) => endpointAt I ((x.extractLsb' 0 12).toInt + (k : Int) * stride))

/-- An operation accepted although it is refused: it waits for nothing, and settles POISONED in a later act (04 R149) with its
cause and an ORIGIN that names an engine and a core (04 R146). -/
def refusedWith (I : Issue) (o : Op) (engine : BitVec 4) (core : BitVec 8) (cause : BitVec 6) : Op :=
  { o with
    started := true
    fail := some (cause, engine ++ (0 : BitVec 1) ++ BitVec.ofNat 1 (I.crew.core / 96) ++ core ++ BitVec.ofNat 5 o.tok ++ (0 : BitVec 13)) }

/-- The operation of a per-warp form of the FAB, of a phase barrier, of the FCH and of the other LME forms. -/
def warpOperation (I : Issue) (i : Instr) : Option Op :=
  let low (o : Opd) (w : Nat) : BitVec 64 := (val I I.low o w).setWidth 64
  match i with
  | .texport f _ peer | .pbarrive f _ peer _ =>
    some { operation I f.c f.e with
      args := [low f.d 32, if peer then low f.a 64 else low f.a 64 + BitVec.ofInt 64 (offsetOf I I.low f.b),
        BitVec.ofNat 64 (if peer then endpointAt I (val I I.low f.b 12).toInt else 0)] }
  | .pbinit f _ =>
    some { operation I f.c f.e with args := [low f.d 64, low f.a 64 + BitVec.ofInt 64 (offsetOf I I.low f.b), 0] }
  | .pbwait f _ =>
    some { operation I f.c f.e with args := [low f.d 32, low f.a 64 + BitVec.ofInt 64 (offsetOf I I.low f.b), 0] }
  | .cctlInv f | .cctlInvall f => some (operation I f.c f.e)
  | .promote f => (placeCore I (BitVec.ofNat 8 (small f.b))).map fun k => { operation I f.c f.e with targets := [k] }
  | .codepub f => some { operation I f.c f.e with args := [low f.a 64, low f.d 64] }
  | .cpatch f _ =>
    some { operation I f.c f.e with
      args := [low f.a 64, (val I I.low f.d 128).extractLsb' 0 64, ((val I I.low f.d 128).extractLsb' 64 32).setWidth 64] }
  | .fmcast f _ _ =>
    let lane (l : Nat) : Option LaneAcc :=
      let a := val I l f.a 64
      if a.toNat + bytesOf f.ty ≤ 2 ^ 57 then
        some { lane := l, addr := a, off := endpointAt I 0, dst := destOf I l f.d, data := (val I l f.d (8 * bytesOf f.ty)).setWidth 128 }
      else none
    match groupWord I (low f.b 64) with
    | some eps =>
      if I.lanes.all fun l => (lane l).isSome then some { operation I f.c f.e with acc := I.lanes.filterMap lane, targets := eps } else none
    | none => none
  | .fstBlk f _ _ =>
    let d := low f.d 64
    let n := (d.extractLsb' 32 17).toNat
    let a := low f.a 64
    let o : Op := { operation I f.c f.e with args := [d, a, BitVec.ofNat 64 (endpointOf I I.low f.b)] }
    if d.extractLsb' 49 15 ≠ 0 ∨ n % 16 ≠ 0 ∨ n < 16 ∨ 65536 < n ∨ 2 ^ 57 < a.toNat + n then none
    else if a.toNat % 16 ≠ 0 ∨ d.toNat % 16 ≠ 0 then some (refusedWith I o 8 0xFF 15)
    else if (csmPlace I (d.setWidth 32) 0 n).isNone then some (refusedWith I o 8 0xFF 3)
    else some o
  | .fticket f _ | .fsigTret f _ | .fsigTpois f _ =>
    let a := low f.a 64
    let o : Op := { operation I f.c f.e with
      args := [0, a, BitVec.ofNat 64 (endpointOf I I.low f.b)]
      acc := I.lanes.map fun l => { lane := l, dst := destOf I l f.d } }
    if 2 ^ 57 < a.toNat + 16 then none else if a.toNat % 16 ≠ 0 then some (refusedWith I o 8 0xFF 15) else some o
  | .fflush f _ =>
    some { operation I f.c f.e with args := [if f.b = .absent then 0 else 1, 0, BitVec.ofNat 64 (endpointOf I I.low f.b)] }
  | _ => none

/-! ### Acceptance -/

/-- Whether a granule of CSM stands EMPTY. -/
def emptyGranule (I : Issue) (a : LaneAcc) : Bool :=
  match placeCore I (a.addr.extractLsb' 24 8) with
  | some core =>
    match I.s.csmParts I.crew core (a.addr.getLsbD 23) a.off 1 with
    | p :: _ => !I.s.latchFull p.crew (p.off / 16)
    | [] => false
  | none => false

/-- The threads of a blocking PBWAIT, and of a load with `.WAIT`, wait at it; those of every other form go on. Waiting on an
EMPTY granule is a progress point (01 R36). -/
def warpAfter (I : Issue) (i : Instr) (o : Op) : Warp :=
  match i with
  | .pbwait _ _ =>
    if o.tok = 0 then { I.warp with wdCount := 0, threads := I.threadsAfter fun _ t => { t with run := .pbwait o.id } } else I.warpOn
  | .lds _ .keep | .lds _ .clr =>
    { I.warp with
      wdCount := if o.acc.any (emptyGranule I) then 0 else I.warp.wdCount
      threads := I.threadsAfter fun _ t => { t with run := .latch o.id } }
  | _ => I.warpOn

/-- A load with `.WAIT` whose keyring has settled waits from its acceptance on (03 R118). -/
def waitingSince (i : Instr) (o : Op) : Op :=
  match i with
  | .lds _ .keep | .lds _ .clr => if o.keys.all fun k => k.st != .pending then { o with since := o.id } else o
  | _ => o

/-- The operation that an issue has accepted. -/
def accepted (I : Issue) (i : Instr) : Option Op :=
  ((laneOperation I i).map (waitingSince i)).orElse fun _ => warpOperation I i

/-- FENCE: it is accepted by no engine, but enters the program order of its threads; with class I their fetched lines go
(07 R244; 03 R123). -/
def fenceWarp (I : Issue) (i : Instr) : Option Warp :=
  match i with
  | .fence f str un =>
    let kept := I.warp.fences.filter fun x => I.s.pendingBefore I.cid I.wi x.lanes x.seq
    let desc := BitVec.ofNat 9 (small f.a)
    let w : Warp := { I.warpOn with fences := kept ++ [⟨I.s.nextId, I.act, str, un, desc⟩] }
    some (if desc.getLsbD 5 then { w with fbuf := [], threads := I.threadsAfter fun _ t => unfetched t.goesOn } else w)
  | _ => none

end Sys2Proof.Claims
end

