-- ==== Sys2Proof/Claims/Engines.lean ====
section
/-! DEFINITION. The operation that each form of the CPE, the MXE, the TBE, the RCE, the XLE and the HME has accepted, what
the queries give, and what the forms that change a table at issue change, written from 10, 11, 12, 13, 14, 15, 16 and 17:
the right-hand sides of the claims about these engines. -/

namespace Sys2Proof.Claims

open Sys2Proof.Machine

/-- A 64-bit operand of the lowest issuing lane, an immediate sign-extended. -/
def word (I : Issue) (o : Opd) : BitVec 64 := val I I.low o 64

/-- Word n from a uniform register on. -/
def pairWord (I : Issue) (o : Opd) (n : Nat) : BitVec 64 :=
  match o with
  | .uni r => I.warp.u.getD (r.toNat + n) 0
  | _ => 0

/-! ### The CPE (10 R288-R309) -/

/-- The record of a VALID shape slot. -/
def shapeRecord (I : Issue) (o : Opd) : Option (BitVec 512) := I.crew.shapes.getD (Opd.tileNo o) none

/-- The places of a place mask, bit by bit; none where Operand Range is due (10 R303). -/
def maskCores (I : Issue) (m : BitVec 64) : Option (List Nat) :=
  if m = 0 ∨ m.extractLsb' 55 9 ≠ 0 ∨ m &&& 0x0000808080808080 ≠ 0 then none
  else
    let ks := ((List.range 55).filter fun b => m.getLsbD b).map fun b =>
      placeCore I (BitVec.ofInt 4 ((b / 8 : Nat) - 3) ++ BitVec.ofInt 4 ((b % 8 : Nat) - 3))
    if ks.all Option.isSome then some (ks.filterMap id) else none

/-- The operation that a CPE form makes: arguments are the source, the destination, and the index list, the place mask or
the fill value. -/
def cpeOperation (I : Issue) (i : Instr) : Option Op :=
  let shaped (f : Fields) (args : List (BitVec 64)) (ok : Shape → Bool) : Option Op :=
    match shapeRecord I f.a with
    | some r =>
      if !shapeRefused i (shapeOf r) && ok (shapeOf r) then some { operation I f.c f.e with args := args, shape := r } else none
    | none => none
  match i with
  | .hload f => some { operation I f.c f.e with args := [word I f.a, 0, 0] }
  | .tload f _ => shaped f [word I f.b, 0, 0] fun h => Opd.tileNo f.d + (h.rows * h.cols * h.ed + 4095) / 4096 ≤ I.crew.slots
  | .tstore f _ | .tcopy f _ _ _ => shaped f [word I f.b, word I f.d, 0] fun _ => true
  | .tfill f _ _ => shaped f [0, word I f.d, word I f.b] fun _ => true
  | .tgather f _ _ => shaped f [pairWord I f.b 0, word I f.d, pairWord I f.b 1] fun _ => true
  | .tscatter f _ _ => shaped f [word I f.b, pairWord I f.d 0, pairWord I f.d 1] fun _ => true
  | .tmcast f _ =>
    match maskCores I (pairWord I f.d 1) with
    | some ks => (shaped f [word I f.b, pairWord I f.d 0, pairWord I f.d 1] fun _ => true).map fun o => { o with targets := ks }
    | none => none
  | _ => none

/-- The trace that TQUERY reads of a CPE operation just accepted (10 R309). -/
def newTrace (i : Instr) (o : Op) : CpeTrace :=
  { rows := match i with | .hload _ => (Config.hloadRows o.id).toNat | _ => (shapeOf o.shape).rows
    prog := 0
    exact := true
    form := match i with
      | .hload _ => 0 | .tload .. => 1 | .tstore .. => 2 | .tcopy .. => 3 | .tmcast .. => 4 | .tgather .. => 5 | .tscatter .. => 6
      | _ => 7 }

/-! ### The MXE (11 R314-R337) -/

/-- A multiply descriptor: K-steps, rows, columns, first B slot; none where Operand Range is due (11 R315). -/
def multiplyWord (x : BitVec 64) : Option MmaDesc :=
  let dim (c : BitVec 2) : Option Dim := if c = 0 then some .d16 else if c = 1 then some .d32 else if c = 2 then some .d64 else none
  match dim (x.extractLsb' 8 2), dim (x.extractLsb' 10 2) with
  | some mc, some nc =>
    if x.extractLsb' 28 36 ≠ 0 ∨ x.extractLsb' 12 4 ≠ 0 ∨ x.extractLsb' 6 2 ≠ 0 ∨ x.extractLsb' 16 12 = 0 then none
    else some ⟨(x.extractLsb' 16 12).toNat, mc, nc, (x.extractLsb' 0 6).toNat⟩
  | _, _ => none

/-- The operation that an MXE form makes. -/
def mxeOperation (I : Issue) (i : Instr) : Option Op :=
  match i with
  | .mma f _ =>
    match multiplyWord (word I f.b) with
    | some d => if slotsFit I.crew f.ty d (Opd.tileNo f.a) then some { operation I f.c f.e with args := [word I f.b, 0] } else none
    | none => none
  | .mmag f _ =>
    let y := pairWord I f.b 1
    match multiplyWord (pairWord I f.b 0), gangPlaces y.toNat with
    | some d, some ps =>
      match I.members ps with
      | .ok ms =>
        if (slotsFit I.crew f.ty d (Opd.tileNo f.a)) && ms.all fun m =>
            slotsFit m.2 f.ty d (Opd.tileNo f.a) && decide (Opd.tileNo f.d < m.2.accs) && (!y.getLsbD 26 || decide ((y.extractLsb' 27 5).toNat < m.2.barsN)) then
          some { operation I f.c f.e with
            args := [pairWord I f.b 0, y] ++ ms.map fun m => BitVec.ofNat 64 m.2.id
            targets := ms.map Prod.fst }
        else none
      | .error _ => none
    | _, _ => none
  | .mzero f _ _ => some (operation I f.c f.e)
  | .mload f _ _ _ => some { operation I f.c f.e with args := [word I f.a, word I f.b] }
  | .mstore f _ | .mred f _ _ => some { operation I f.c f.e with args := [word I f.d, word I f.b] }
  | .mepi f op => some { operation I f.c f.e with args := [match op with | .scale => word I f.b | _ => 0] }
  | _ => none

/-! ### The TBE and the RCE (13 R371-R390; 14 R419) -/

/-- A queue or stream number: an immediate, or a uniform register below 64 (13 R371). -/
def tableNumber (I : Issue) (o : Opd) : Option Nat :=
  match o with
  | .imm v => some v.toNat
  | o => if (word I o).toNat < 64 then some (word I o).toNat else none

/-- The core of a place, where it lies in the grid of the die (01 R26). -/
def gridCore (I : Issue) (p : BitVec 8) : Option Nat :=
  let x : Int := (I.crew.core % 96 % 8 : Nat) + (p.extractLsb' 0 4).toInt
  let y : Int := (I.crew.core % 96 / 8 : Nat) + (p.extractLsb' 4 4).toInt
  if 0 ≤ x ∧ x < 8 ∧ 0 ≤ y ∧ y < 12 then some (I.crew.core / 96 * 96 + 8 * y.toNat + x.toNat) else none

/-! ### Bins and queues: what may be configured, and what must wait (13 R372, R374, R380, R383) -/

/-- Whether a bin word may be applied to a bin. -/
def binLegal (I : Issue) (n : Nat) (base x : BitVec 64) : Bool :=
  let b := I.s.bin I.crew.core n
  (b.st == .free || b.owner == I.crew.launch) &&
  (!x.getLsbD 0 ||
    (x.extractLsb' 24 8 == 0 && x.extractLsb' 13 3 == 0 && x.extractLsb' 1 7 == 0 && decide ((x.extractLsb' 16 8).toNat ≤ 128) &&
      decide (base.toNat < 2 ^ 57) && b.st == .free &&
      !(I.s.core I.crew.core).bins.any fun y => y.st != .free && y.owner == I.crew.launch && y.entry.toNat == base.toNat))

/-- Whether operations accepted earlier have still to be applied to the bin of an issue: a BINCFG of it, a BINCFG of its entry
address, or a record of a SPAWN for that address. -/
def binQueued (I : Issue) (n : Nat) (base x : BitVec 64) : Bool :=
  let entry (m : Nat) (on : Bool) (a : Nat) : Nat := if on then a else (I.s.bin I.crew.core m).entry.toNat
  let mine := entry n (x.getLsbD 0) base.toNat
  I.s.ops.any fun p => decide (p.id < I.s.nextId) &&
    match p.instr with
    | .bincfg _ =>
      p.core == I.crew.core && (p.arg 0 == n || (p.launch == I.crew.launch && entry (p.arg 0) ((p.arg 2).testBit 0) (p.arg 1) == mine))
    | .spawn _ => p.launch == I.crew.launch && p.targets == [I.crew.core] && p.acc.any fun a => !a.done && a.addr.toNat == mine
    | _ => false

/-- Whether a queue word may be applied to a queue: a fresh entry, a rebinding of the same base and capacity, or a release. -/
def queueLegal (I : Issue) (n : Nat) (base x : BitVec 64) : Bool :=
  let q := I.s.queue (I.crew.core / 96) n
  let target := I.s.bin I.crew.core (x.extractLsb' 8 4).toNat
  (!q.en || q.owner == I.crew.launch) &&
  (!x.getLsbD 32 ||
    (x.extractLsb' 33 31 == 0 && x.extractLsb' 24 8 == 0 && x.extractLsb' 12 4 == 0 && x.extractLsb' 5 3 == 0 &&
      decide ((x.extractLsb' 0 5).toNat ≤ 20) && decide (base.toNat < 2 ^ 57) && base.toNat % 16 == 0 &&
      target.owner == I.crew.launch && (target.st == .idle || target.st == .holding) &&
      (!q.en || (q.base.toNat == base.toNat && q.logcap == (x.extractLsb' 0 5).toNat))))

/-- Whether operations accepted earlier have still to be applied to a queue: a push without its indices, or a WQCFG. -/
def queueQueued (I : Issue) (n : Nat) : Bool :=
  I.s.ops.any fun p => decide (p.id < I.s.nextId) && p.core / 96 == I.crew.core / 96 && p.arg 0 == n &&
    match p.instr with | .wqpush _ => p.prog == 0 | .wqcfg _ => true | _ => false

/-- Whether a TSUBMIT or a TRELEASE accepted earlier for a stream has still to be applied. -/
def streamQueued (I : Issue) (n : Nat) : Bool :=
  I.s.ops.any fun o => o.core / 96 == I.crew.core / 96 && o.arg 0 == n && o.prog == 0 &&
    match o.instr with | .tsubmit _ | .trelease _ => true | _ => false

/-- The operation that a TBE or RCE form makes. BINCFG, WQCFG and TRELEASE are operations where they must wait. -/
def tbeOperation (I : Issue) (i : Instr) : Option Op :=
  match i with
  | .spawn f =>
    match gridCore I (BitVec.ofNat 8 (small f.b)) with
    | some k =>
      if (I.s.holdsLaunch k I.crew.launch) && I.lanes.all fun l => decide ((val I l f.a 64).toNat < 2 ^ 57) then
        some { operation I f.c f.e with
          targets := [k]
          acc := I.lanes.map fun l => { lane := l, addr := val I l f.a 64, data := val I l f.d 128 } }
      else none
    | none => none
  | .wqpush f =>
    match tableNumber I f.a with
    | some n =>
      if (I.s.queue (I.crew.core / 96) n).en ∧ (I.s.queue (I.crew.core / 96) n).owner ≠ I.crew.launch then none
      else
        some { operation I f.c f.e with
          args := [BitVec.ofNat 64 n]
          acc := I.lanes.map fun l => { lane := l, data := val I l f.d 128 } }
    | none => none
  | .tsubmit f =>
    match tableNumber I f.d with
    | some n =>
      if (I.s.stream (I.crew.core / 96) n).used ∧ (I.s.stream (I.crew.core / 96) n).owner ≠ I.crew.launch then none
      else some { operation I f.c f.e with args := [BitVec.ofNat 64 n, word I f.a] }
    | none => none
  | .bincfg f =>
    if binLegal I (small f.a) (word I f.b) (word I f.c) && binQueued I (small f.a) (word I f.b) (word I f.c) then
      some { operation I .absent .absent with args := [BitVec.ofNat 64 (small f.a), word I f.b, word I f.c] }
    else none
  | .wqcfg f =>
    if queueLegal I (small f.a) (word I f.b) (word I f.c) && queueQueued I (small f.a) then
      some { operation I .absent .absent with args := [BitVec.ofNat 64 (small f.a), word I f.b, word I f.c] }
    else none
  | .trelease f =>
    let t := I.s.stream (I.crew.core / 96) (small f.a)
    if (!t.used || t.owner == I.crew.launch) && streamQueued I (small f.a) then
      some { operation I .absent .absent with args := [BitVec.ofNat 64 (small f.a), (word I f.b) &&& 0xFFFFFFFF] }
    else none
  | .rcpin f | .rcunpin f | .rcretire f | .rcdrop f =>
    some { operation I f.c f.e with args := [match f.d with | .imm v => v.setWidth 64 | o => word I o, word I f.a] }
  | _ => none

/-! ### The XLE and the HME (15 R435; 16 R465; 17 R489) -/

/-- The operation that an XLE or HME form makes. -/
def xleOperation (I : Issue) (i : Instr) : Option Op :=
  match i with
  | .tlbsd f _ => some { operation I f.c f.e with args := [word I f.d, word I f.a, word I f.b] }
  | .rgnsw f _ | .ctxload f => some { operation I f.c f.e with args := [word I f.d, word I f.a] }
  | .addrq f acc =>
    let lane (l : Nat) : Option LaneAcc :=
      let a := val I l f.a 64 + BitVec.ofInt 64 (offsetOf I l f.b)
      if a.toNat < 2 ^ 57 ∧ wardBars I (acc == .w) false I.asid a.toNat 1 then none
      else some { lane := l, addr := a, dst := destOf I l f.d }
    if I.lanes.all fun l => (lane l).isSome then some { operation I f.c f.e with acc := I.lanes.filterMap lane } else none
  | _ => none

/-- The operation that an issue of these engines has accepted. -/
def engineAccepted (I : Issue) (i : Instr) : Option Op :=
  (mxeOperation I i).orElse fun _ => (tbeOperation I i).orElse fun _ => xleOperation I i

/-! ### Queries -/

/-- The word of TQUERY of a token (10 R309). -/
def traceWord (r : TokRec) : BitVec 64 :=
  match r.trace with
  | some t =>
    BitVec.ofNat 16 t.rows ++ BitVec.ofNat 16 t.prog ++ (0 : BitVec 19) ++ BitVec.ofBool t.exact ++ t.form ++ r.cause ++ BitVec.ofNat 2 (stateCode r.st)
  | none => (0 : BitVec 52) ++ (0xF : BitVec 4) ++ r.cause ++ BitVec.ofNat 2 (stateCode r.st)

/-- The word of WARDQ: free entries of a core's table, and its lowest-numbered ward over a byte (10 R305). -/
def wardWord (ws : List Ward) (csm : Bool) (space b : Nat) : BitVec 64 :=
  BitVec.ofNat 8 (64 - ws.length) ++ (0 : BitVec 35) ++
  match ws.find? fun w => w.csm == csm && w.spans.any fun r => decide (r.1 = space ∧ r.2.1 ≤ b ∧ b < r.2.2) with
  | some w => BitVec.ofNat 5 w.tok ++ (0 : BitVec 2) ++ BitVec.ofNat 6 w.slot ++ (0 : BitVec 6) ++ BitVec.ofBool w.dest ++ (1 : BitVec 1)
  | none => 0

/-- The word of MFLAGS (11 R337). -/
def flagsWord : Option AccTile → BitVec 32
  | some t => (1 : BitVec 1) ++ (0 : BitVec 1) ++ BitVec.ofNat 2 (accCode t.fmt) ++ BitVec.ofNat 2 (dimCode t.nc) ++ BitVec.ofNat 2 (dimCode t.mc) ++
      (0 : BitVec 18) ++ t.flags
  | none => 0

/-- The word of FQUERY: the ports that have a route are a free value, of which those in service count (12 R367). -/
def endpointRecord (I : Issue) (ep : Nat) : BitVec 64 :=
  let n := ((List.range 18).filter fun p => (Config.routeMask ep).getLsbD p && I.s.ports.getLsbD p).length
  if ep = I.s.endpoint then (0 : BitVec 51) ++ (1 : BitVec 1) ++ BitVec.ofNat 12 ep
  else
    (0 : BitVec 43) ++ BitVec.ofNat 5 n ++ (0 : BitVec 1) ++ BitVec.ofBool (I.s.vistitum && n != 0) ++ BitVec.ofBool (n != 0) ++ (0 : BitVec 1) ++
      BitVec.ofNat 12 ep

/-- What a form gives its lanes when it is no operation: the queries, FFLAGS, FENV, and the forms that change a table, which
give nothing. -/
def formResult (I : Issue) (i : Instr) (l : Nat) : Option Result :=
  match i with
  | .tquery f =>
    match f.a, f.b with
    | .tok t, _ => some (toReg f.d (traceWord (record I.warp t.toNat)))
    | h, .imm n => some (toReg f.d (match shapeRecord I h with | some r => r.extractLsb' (64 * n.toNat) 64 | none => 0))
    | _, _ => none
  | .wardq f csm =>
    if csm then
      match csmPlace I (val I l f.a 32) 0 1 with
      | some (core, shared, e) =>
        match I.s.csmParts I.crew core shared e 1 with
        | q :: _ => some (toReg f.d (wardWord (I.s.core core).wards true q.crew q.off))
        | [] => none
      | none => (placeCore I ((val I l f.a 32).extractLsb' 24 8)).map fun k => toReg f.d (wardWord ((I.s.core k).wards.map fun w => { w with spans := [] }) true 0 0)
    else some (toReg f.d (wardWord (I.s.core I.crew.core).wards false I.asid (val I l f.a 64).toNat))
  | .mflags f => some (toReg f.d (flagsWord (I.crew.acc.getD (Opd.tileNo f.a) none)))
  | .fquery f => some (toReg f.d (endpointRecord I (endpointOf I l f.a)))
  | .taskinfo f => (I.taskRecord (small f.a) (val I l f.b 64).toNat).map fun x => toReg f.d (BitVec.ofNat 64 x)
  | .rcquery f =>
    let n := match f.b with | .imm v => v.toNat | o => (val I l o 64).toNat
    if 8 < n then none else some (toReg f.d (BitVec.ofNat 64 (I.s.queryRecipe I.asid (val I l f.a 64).toNat n)))
  | .fflags f => some (toReg f.d ((I.thread l).fflags.setWidth 32))
  | .fenv f =>
    let m := (val I l f.b 32).setWidth 13 &&& 0x1F1F
    let x := ((I.thread l).fenv &&& ~~~m) ||| ((val I l f.a 32).setWidth 13 &&& m)
    if x.extractLsb' 8 3 ≤ 3 then some (toReg f.d ((I.thread l).fenv.setWidth 32)) else none
  | .bincfg _ | .wqcfg _ | .tstream _ | .trelease _ | .tlbinv _ _ => some {}
  | _ => none

/-! ### Changes of tables -/

/-- A change of the issuing threads. -/
def eachThread (I : Issue) (f : Nat → Thread → Thread) (s : State) : State :=
  { s with crews := s.crews.map fun c =>
      if c.id == I.cid then
        { c with warps := updAt I.wi (fun w => { w with threads := w.threads.mapIdx fun l t => if I.act.getLsbD l then f l t else t }) c.warps }
      else c }

/-- A bin just configured: its entry, the longest wait, and what each of its crews gets (13 R374). -/
def newBin (launch : Nat) (base x : BitVec 64) : Bin where
  st := .idle
  owner := launch
  entry := base.setWidth 57
  wait := x.extractLsb' 32 32
  csm := 4096 * (x.extractLsb' 16 8).toNat
  regs := 8 * ((x.extractLsb' 8 5).toNat + 1)

/-- A bin that EN = 0 reaches (13 R377). -/
def released (req : Nat) (b : Bin) : Bin :=
  match b.st with
  | .idle => {}
  | .holding => { b with st := .draining, req := req }
  | .forming => { b with st := .draining }
  | _ => b

/-- A queue just configured (13 R380). -/
def newQueue (launch : Nat) (base x : BitVec 64) : WorkQueue :=
  { en := true, owner := launch, base := base.setWidth 57, logcap := (x.extractLsb' 0 5).toNat }

/-- The bin, the core and the low mark that a queue word gives a queue (13 R380, R383). -/
def feeding (core : Nat) (x : BitVec 64) (q : WorkQueue) : WorkQueue :=
  { q with bin := (x.extractLsb' 8 4).toNat, core := core, low := (x.extractLsb' 16 8).toNat }

/-- A stream just opened (13 R384). -/
def newStream (launch : Nat) (base : BitVec 64) (tiles : Nat) : Stream :=
  { used := true, owner := launch, base := base.setWidth 57, tiles := tiles }

/-- A stream whose map loses a handle (13 R390). -/
def unmapped (launch : Nat) (h : BitVec 32) (y : Stream) : Stream :=
  if y.used && !y.closing && y.owner == launch then
    { y with versions := y.versions.map fun v => if v.current && v.handle == h then { v with current := false } else v }
  else y

/-- What a form changes beside its lanes' registers; none where it is refused, or is none of these. -/
def formChange (I : Issue) (i : Instr) : Option (State → State) :=
  let die := I.crew.core / 96
  let core (f : Core → Core) (s : State) : State := { s with cores := updAt I.crew.core f s.cores }
  let onDie (f : Die → Die) (s : State) : State := { s with dies := updAt die f s.dies }
  match i with
  | .tquery _ | .wardq _ _ | .fquery _ | .taskinfo _ | .rcquery _ => some id
  | .mflags f =>
    let n := Opd.tileNo f.a
    match I.crew.acc.getD n none with
    | none => some id
    | some t =>
      some fun s => { s with crews := s.crews.map fun c =>
        if c.id == I.cid then { c with acc := c.acc.set n (some { t with flags := t.flags &&& ~~~(BitVec.ofNat 6 (small f.b)) }) } else c }
  | .fflags f => some (eachThread I fun l t => { t with fflags := t.fflags &&& ~~~(val I l f.a 32).setWidth 5 })
  | .fenv f =>
    some (eachThread I fun l t =>
      let m := (val I l f.b 32).setWidth 13 &&& 0x1F1F
      { t with fenv := (t.fenv &&& ~~~m) ||| ((val I l f.a 32).setWidth 13 &&& m) })
  | .bincfg f =>
    let n := small f.a
    let base := word I f.b
    let x := word I f.c
    if !binLegal I n base x || binQueued I n base x then none
    else if x.getLsbD 0 then some (core fun k => { k with bins := updAt n (fun _ => newBin I.crew.launch base x) k.bins })
    else
      some fun s => { core (fun k => { k with bins := updAt n (released I.s.nextId) k.bins }) s with nextId := I.s.nextId + 1 }
  | .wqcfg f =>
    let n := small f.a
    let base := word I f.b
    let x := word I f.c
    if !queueLegal I n base x || queueQueued I n then none
    else if x.getLsbD 32 then
      if (I.s.queue die n).en then some (onDie fun d => { d with queues := updAt n (fun y => feeding I.crew.core x y) d.queues })
      else
        some (onDie fun d => { d with queues := updAt n (fun _ => feeding I.crew.core x (newQueue I.crew.launch base x)) d.queues })
    else if I.s.ops.any fun o => o.pushes die n && o.prog == 1 then none
    else some (onDie fun d => { d with queues := updAt n (fun _ => {}) d.queues })
  | .tstream f =>
    let n := small f.a
    let t := I.s.stream die n
    let base := word I f.b
    let x := word I f.c
    if t.used ∧ t.owner ≠ I.crew.launch then none
    else if x.getLsbD 32 then
      let tiles := (x.extractLsb' 0 21).toNat
      if x.extractLsb' 33 31 ≠ 0 ∨ x.extractLsb' 21 11 ≠ 0 ∨ tiles = 0 ∨ 2 ^ 20 < tiles ∨ 2 ^ 57 ≤ base.toNat ∨ base.toNat % 4096 ≠ 0 ∨ t.used then none
      else
        some (onDie fun d => { d with streams := updAt n (fun _ => newStream I.crew.launch base tiles) d.streams })
    else if (I.s.die die).tasks.any fun k => k.stream == n then none
    else some (onDie fun d => { d with streams := updAt n (fun y => if y.used then { y with closing := true } else y) d.streams })
  | .trelease f =>
    let n := small f.a
    let t := I.s.stream die n
    let h : BitVec 32 := (word I f.b).setWidth 32
    if t.used ∧ t.owner ≠ I.crew.launch then none
    else if streamQueued I n then none
    else
      some (onDie fun d => { d with streams := updAt n (fun y => unmapped I.crew.launch h y) d.streams })
  | .tlbinv f mode =>
    let asid := (word I f.b).toNat
    let a := (word I f.a).toNat
    if mode ≠ .all ∧ (asid = 0 ∨ 4096 ≤ asid) then none
    else
      let keep (e : TlbEnt) : Bool :=
        match mode with
        | .va => !(e.asid == asid && decide (e.base ≤ a) && decide (a < e.base + e.size))
        | .asid => e.asid != asid
        | .all => false
      some (core fun k => { k with dtlb := k.dtlb.filter keep, itlb := k.itlb.filter keep, wtlb := k.wtlb.filter keep })
  | _ => none

end Sys2Proof.Claims
end

