-- ==== Sys2Proof/Claims/Float.lean ====
section
/-! DEFINITION. What each FLT form gives one lane, written from 06 over rational numbers: a code is decoded into an exact
value, the exact result is formed, and R197's three steps round it once. The right-hand sides of the claims about FLT. -/

namespace Sys2Proof.Claims

open Sys2Proof.Machine

/-! ### Exact values (R190-R196) -/

/-- A power of two. -/
def pow2 (e : Int) : Rat := if 0 ≤ e then 2 ^ e.toNat else 1 / 2 ^ (-e).toNat

/-- What a code means: a NaN, an infinity, or a finite number of a sign and a magnitude. -/
inductive Num
  | nan (signalling : Bool)
  | inf (neg : Bool)
  | num (neg : Bool) (x : Rat)
  deriving DecidableEq

/-- A format: exponent and fraction widths; acc40 has no subnormals (R190, R195, R196). -/
structure Format where
  eb : Nat
  fb : Nat
  subnormals : Bool := true
  deriving DecidableEq

/-- FP64, FP32, FP16, BF16, SC24 and acc40. -/
def F64 : Format := ⟨11, 52, true⟩
/-- See `F64`. -/
def F32 : Format := ⟨8, 23, true⟩
/-- See `F64`. -/
def F16 : Format := ⟨5, 10, true⟩
/-- See `F64`. -/
def BF16 : Format := ⟨8, 7, true⟩
/-- See `F64`. -/
def SC24 : Format := ⟨8, 15, true⟩
/-- See `F64`. -/
def ACC40 : Format := ⟨9, 30, false⟩

/-- Exponent bias. -/
def Format.bias (F : Format) : Int := 2 ^ (F.eb - 1) - 1
/-- Sign, exponent field and fraction field of a code. -/
def Format.neg (F : Format) (x : Nat) : Bool := x.testBit (F.eb + F.fb)
/-- See `Format.neg`. -/
def Format.exp (F : Format) (x : Nat) : Nat := x / 2 ^ F.fb % 2 ^ F.eb
/-- See `Format.neg`. -/
def Format.frac (F : Format) (x : Nat) : Nat := x % 2 ^ F.fb
/-- The smallest normal and the largest finite magnitude. -/
def Format.minNormal (F : Format) : Rat := pow2 (1 - F.bias)
/-- See `Format.minNormal`. -/
def Format.maxFinite (F : Format) : Rat := (2 - pow2 (-F.fb)) * pow2 F.bias
/-- The codes of an infinity, of the canonical NaN and of a zero (R191). -/
def Format.inf (F : Format) (neg : Bool) : Nat := (if neg then 2 ^ (F.eb + F.fb) else 0) + (2 ^ F.eb - 1) * 2 ^ F.fb
/-- See `Format.inf`. -/
def Format.nan (F : Format) : Nat := F.inf false + 2 ^ (F.fb - 1)
/-- See `Format.inf`. -/
def Format.zero (F : Format) (neg : Bool) : Nat := if neg then 2 ^ (F.eb + F.fb) else 0

/-- The value of a code. -/
def Format.value (F : Format) (x : Nat) : Num :=
  if F.exp x = 2 ^ F.eb - 1 then
    if F.frac x = 0 then .inf (F.neg x) else .nan (!(F.frac x).testBit (F.fb - 1))
  else if F.exp x = 0 then .num (F.neg x) (if F.subnormals then F.frac x * pow2 (1 - F.bias - F.fb) else 0)
  else .num (F.neg x) ((2 ^ F.fb + F.frac x : Nat) * pow2 (F.exp x - F.bias - F.fb))

/-! ### Rounding (R197-R203) -/

/-- A positive real number, as rounding sees it: the exponent of its leading bit, and for each u how many whole 2^u it
holds, how the rest compares with half of one, and whether there is a rest. -/
structure Real where
  top  : Int
  cut  : Int → Nat × Ordering × Bool

/-- The exponent of the leading bit of a positive rational. -/
def topOf (x : Rat) : Int :=
  let k : Int := (Nat.log2 x.num.natAbs : Int) - Nat.log2 x.den
  if pow2 k ≤ x then k else k - 1

/-- A positive rational. -/
def Real.ofRat (x : Rat) : Real where
  top := topOf x
  cut u :=
    let q := x / pow2 u
    let r := q - q.floor
    (q.floor.toNat, (if r < 1 / 2 then .lt else if r = 1 / 2 then .eq else .gt), decide (r ≠ 0))

/-- The greatest number whose square is at most z. -/
def floorRoot (z : Nat) : Nat :=
  (List.range (Nat.log2 z / 2 + 1)).reverse.foldl (fun n k => if (n + 2 ^ k) * (n + 2 ^ k) ≤ z then n + 2 ^ k else n) 0

/-- The square root of a positive rational. -/
def Real.ofRoot (x : Rat) : Real where
  top := topOf x / 2
  cut u :=
    let z := x / (pow2 u * pow2 u)
    let n := floorRoot z.floor.toNat
    let h : Rat := n + 1 / 2
    (n, (if z < h * h then .lt else if z = h * h then .eq else .gt), decide (z ≠ (n * n : Nat)))

/-- The multiple of 2^u that a number rounds to, and whether that was inexact (R197). -/
def Real.roundAt (x : Real) (rm : Rm) (neg : Bool) (u : Int) : Nat × Bool :=
  let c := x.cut u
  let up : Bool :=
    match rm with
    | .rne => c.2.1 == .gt || (c.2.1 == .eq && c.1 % 2 == 1)
    | .ru => !neg && c.2.2
    | .rd => neg && c.2.2
    | _ => false
  (if up then c.1 + 1 else c.1, c.2.2)

/-- A result: its code, the flags it sets, and the exceptions it raises (R199, R203). -/
structure Rounding where
  code   : Nat
  flags  : BitVec 5 := 0
  raised : BitVec 5 := flags
  deriving DecidableEq

/-- The code of a magnitude on the grid of a format. -/
def Format.codeOf (F : Format) (neg : Bool) (y : Rat) : Nat :=
  F.zero neg +
    (if y < F.minNormal then (y / pow2 (1 - F.bias - F.fb)).floor.toNat
     else
      let t := topOf y
      (t + F.bias).toNat * 2 ^ F.fb + ((y / pow2 (t - F.fb)).floor.toNat - 2 ^ F.fb))

/-- `round(x, fmt, mode)` of a positive number of a sign, with flushing (R197-R199, R202). -/
def Format.round (F : Format) (rm : Rm) (ftz neg : Bool) (x : Real) : Rounding :=
  let u := x.top - F.fb
  let one := x.roundAt rm neg u
  let y : Rat := one.1 * pow2 u
  if F.maxFinite < y then
    let toInf := match rm with | .rne => true | .ru => !neg | .rd => neg | _ => false
    ⟨if toInf then F.inf neg else F.inf neg - 1, 5, 5⟩
  else if y < F.minNormal then
    let sub := 1 - F.bias - F.fb
    let two := x.roundAt rm neg sub
    let z : Rat := two.1 * pow2 sub
    if ftz ∧ z ≠ 0 ∧ z < F.minNormal then ⟨F.zero neg, 3, 3⟩
    else if two.2 then ⟨F.codeOf neg z, 3, 3⟩
    else ⟨F.codeOf neg z, 0, 2⟩
  else ⟨F.codeOf neg y, if one.2 then 1 else 0, if one.2 then 1 else 0⟩

/-- A NaN result, with NV or without (R200). -/
def Format.nanOf (F : Format) (nv : Bool) : Rounding := { code := F.nan, flags := if nv then 16 else 0 }

/-- A rational of a sign, rounded; an exact zero takes the sign. -/
def Format.ofRat (F : Format) (rm : Rm) (ftz neg : Bool) (x : Rat) : Rounding :=
  if x = 0 then { code := F.zero neg } else F.round rm ftz neg (Real.ofRat x)

/-! ### Arithmetic (R200, R210-R215) -/

/-- Whether a value is a signalling NaN. -/
def Num.sig : Num → Bool
  | .nan s => s
  | _ => false

/-- A signed rational. -/
def signed (neg : Bool) (x : Rat) : Rat := if neg then -x else x

/-- FADD of two values: exact zero sums of opposite signs are +0, and −0 in RD. -/
def sum (F : Format) (rm : Rm) (ftz : Bool) (a b : Num) : Rounding :=
  match a, b with
  | .nan s, .nan t => F.nanOf (s || t)
  | .nan s, _ | _, .nan s => F.nanOf s
  | .inf m, .inf n => if m = n then { code := F.inf m } else F.nanOf true
  | .inf m, .num _ _ | .num _ _, .inf m => { code := F.inf m }
  | .num m x, .num n y =>
    let z := signed m x + signed n y
    if z = 0 then { code := F.zero (if m = n then m else decide (rm = .rd)) }
    else F.round rm ftz (decide (z < 0)) (Real.ofRat (if z < 0 then -z else z))

/-- The exact product; 0 × ∞ is invalid, which a signalling NaN stands for. -/
def product (a b : Num) : Num :=
  match a, b with
  | .nan s, .nan t => .nan (s || t)
  | .nan s, _ | _, .nan s => .nan s
  | .inf m, .inf n => .inf (m ^^ n)
  | .inf m, .num n x | .num n x, .inf m => if x = 0 then .nan true else .inf (m ^^ n)
  | .num m x, .num n y => .num (m ^^ n) (x * y)

/-- A value rounded into a format. -/
def convert (F : Format) (rm : Rm) (ftz : Bool) (a : Num) : Rounding :=
  match a with
  | .nan s => F.nanOf s
  | .inf n => { code := F.inf n }
  | .num n x => F.ofRat rm ftz n x

/-- FDIV. -/
def quotient (F : Format) (rm : Rm) (ftz : Bool) (a b : Num) : Rounding :=
  match a, b with
  | .nan s, .nan t => F.nanOf (s || t)
  | .nan s, _ | _, .nan s => F.nanOf s
  | .inf _, .inf _ => F.nanOf true
  | .inf m, .num n _ => { code := F.inf (m ^^ n) }
  | .num m _, .inf n => { code := F.zero (m ^^ n) }
  | .num m x, .num n y =>
    if y = 0 then (if x = 0 then F.nanOf true else { code := F.inf (m ^^ n), flags := 8 })
    else F.ofRat rm ftz (m ^^ n) (x / y)

/-- FSQRT. -/
def root (F : Format) (rm : Rm) (ftz : Bool) (a : Num) : Rounding :=
  match a with
  | .nan s => F.nanOf s
  | .inf n => if n then F.nanOf true else { code := F.inf false }
  | .num n x => if x = 0 then { code := F.zero n } else if n then F.nanOf true else F.round rm ftz false (Real.ofRoot x)

/-- RSQ. -/
def inverseRoot (F : Format) (rm : Rm) (ftz : Bool) (a : Num) : Rounding :=
  match a with
  | .nan s => F.nanOf s
  | .inf n => if n then F.nanOf true else { code := F.zero false }
  | .num n x =>
    if x = 0 then { code := F.inf n, flags := 8 }
    else if n then F.nanOf true else F.round rm ftz false (Real.ofRoot (1 / x))

/-! ### Lanes (R189, R201-R203, R208) -/

/-- The element format of a type. -/
def formatOf : Ty → Format
  | .f16 | .f16x2 => F16
  | .bf16 | .bf16x2 => BF16
  | .f64 => F64
  | .sc24 => SC24
  | _ => F32

/-- The rounding mode of a lane: `.DYN` is `%fenv.RM` (R197). -/
def modeOf (t : Thread) (rm : Rm) : Rm :=
  match rm with
  | .dyn =>
    match (t.fenv.extractLsb' 8 3).toNat with
    | 1 => .rz
    | 2 => .ru
    | 3 => .rd
    | 4 => .dyn
    | _ => .rne
  | m => m

/-- Whether a format's class is flushed in a lane (R202). -/
def flushed (I : Issue) (l : Nat) (F : Format) : Bool :=
  let t := I.thread l
  if F = F32 then t.fenv.getLsbD 11
  else if F = F64 then I.warp.nbv == 1 && t.fenv.getLsbD 11
  else if F = F16 ∨ F = BF16 then t.fenv.getLsbD 12
  else false

/-- A code read in a lane: a subnormal of a flushed class reads as a zero of its sign (R202). -/
def readCode (I : Issue) (l : Nat) (F : Format) (x : Nat) : Num :=
  F.value (if flushed I l F ∧ F.exp x = 0 then F.zero (F.neg x) else x)

/-- Element j of a source; an immediate is its integer value, given to every element (R208). -/
def element (I : Issue) (l : Nat) (F : Format) (o : Opd) (j : Nat) : Num :=
  match o with
  | .imm v => .num (decide (v.toInt < 0)) (v.toInt.natAbs : Rat)
  | _ =>
    readCode I l F
      (if F = F16 ∨ F = BF16 then ((val I l o 32).extractLsb' (16 * j) 16).toNat
       else if F = F64 then (val I l o 64).toNat else (val I l o 32).toNat)

/-- A register result with flags, or nothing when an enabled exception is raised: the lane then takes Float Exception
(R203). -/
def withFlags (I : Issue) (l : Nat) (r : Result) (rs : List Rounding) : Option Result :=
  let raised := rs.foldl (fun (b : BitVec 5) x => b ||| x.raised) 0
  let enabled : BitVec 5 := (I.thread l).fenv.setWidth 5
  if raised &&& enabled = 0 then some { r with flags := rs.foldl (fun (b : BitVec 5) x => b ||| x.flags) 0 } else none

/-- An element-wise result: one element, or the two of a packed type (R189, R208). -/
def elementwise (I : Issue) (l : Nat) (f : Fields) (g : Nat → Rounding) : Option Result :=
  match f.ty with
  | .f16x2 | .bf16x2 =>
    withFlags I l (toReg f.d (BitVec.ofNat 16 (g 1).code ++ BitVec.ofNat 16 (g 0).code)) [g 0, g 1]
  | t => withFlags I l (toReg f.d (BitVec.ofNat t.regWidth (g 0).code)) [g 0]

/-- FADD, FMUL, FFMA and HFMA2 (R210, R211). -/
def floatSumResult (I : Issue) (i : Instr) (l : Nat) : Option Result :=
  match i with
  | .fadd f rm =>
    let F := formatOf f.ty
    elementwise I l f fun j => sum F (modeOf (I.thread l) rm) (flushed I l F) (element I l F f.a j) (element I l F f.b j)
  | .fmul f rm =>
    let F := formatOf f.ty
    elementwise I l f fun j =>
      convert F (modeOf (I.thread l) rm) (flushed I l F) (product (element I l F f.a j) (element I l F f.b j))
  | .ffma f rm =>
    let F := formatOf f.ty
    elementwise I l f fun j =>
      sum F (modeOf (I.thread l) rm) (flushed I l F) (product (element I l F f.a j) (element I l F f.b j)) (element I l F f.c j)
  | .hfma2 f rm =>
    let F := formatOf f.ty
    let c (j : Nat) : Num := readCode I l F32 ((val I l f.c 64).extractLsb' (32 * j) 32).toNat
    let r (j : Nat) : Rounding :=
      sum F32 (modeOf (I.thread l) rm) (flushed I l F32) (product (element I l F f.a j) (element I l F f.b j)) (c j)
    withFlags I l (toReg f.d (BitVec.ofNat 32 (r 1).code ++ BitVec.ofNat 32 (r 0).code)) [r 0, r 1]
  | _ => none

/-- FDIV, FSQRT, RCP and RSQ (R214, R215). -/
def floatDivResult (I : Issue) (i : Instr) (l : Nat) : Option Result :=
  match i with
  | .fdiv f rm =>
    let F := formatOf f.ty
    elementwise I l f fun j =>
      quotient F (modeOf (I.thread l) rm) (flushed I l F) (element I l F f.a j) (element I l F f.b j)
  | .fsqrt f rm =>
    let F := formatOf f.ty
    elementwise I l f fun j => root F (modeOf (I.thread l) rm) (flushed I l F) (element I l F f.a j)
  | .rcp f rm =>
    let F := formatOf f.ty
    elementwise I l f fun j => quotient F (modeOf (I.thread l) rm) (flushed I l F) (.num false 1) (element I l F f.a j)
  | .rsq f rm =>
    let F := formatOf f.ty
    elementwise I l f fun j => inverseRoot F (modeOf (I.thread l) rm) (flushed I l F) (element I l F f.a j)
  | _ => none

/-! ### Special functions at the arguments where they are rational (R215) -/

/-- EXP2 of a NaN, an infinity or an integer; beyond 400 every integer overflows or is lost like 400 itself. -/
def exp2At (F : Format) (rm : Rm) (ftz : Bool) (a : Num) : Option Rounding :=
  match a with
  | .nan s => some (F.nanOf s)
  | .inf n => some { code := if n then F.zero false else F.inf false }
  | .num n x =>
    if x.den = 1 then some (F.ofRat rm ftz false (pow2 (if n then -(min x.num 400) else min x.num 400))) else none

/-- LOG2 of a NaN, an infinity, a zero, a negative number or a power of two. -/
def log2At (F : Format) (rm : Rm) (ftz : Bool) (a : Num) : Option Rounding :=
  match a with
  | .nan s => some (F.nanOf s)
  | .inf n => some (if n then F.nanOf true else { code := F.inf false })
  | .num n x =>
    if x = 0 then some { code := F.inf true, flags := 8 }
    else if n then some (F.nanOf true)
    else if x = pow2 (topOf x) then some (F.ofRat rm ftz (decide (topOf x < 0)) (topOf x).natAbs)
    else none

/-- SIN of a NaN, an infinity, an integer or a half-integer, in half-turns. -/
def sinAt (F : Format) (rm : Rm) (ftz : Bool) (a : Num) : Option Rounding :=
  match a with
  | .nan s => some (F.nanOf s)
  | .inf _ => some (F.nanOf true)
  | .num n x =>
    if x.den = 1 then some { code := F.zero n }
    else if x.den = 2 then some (F.ofRat rm ftz (n ^^ (x.num % 4 == 3)) 1)
    else none

/-- COS of the same. -/
def cosAt (F : Format) (rm : Rm) (ftz : Bool) (a : Num) : Option Rounding :=
  match a with
  | .nan s => some (F.nanOf s)
  | .inf _ => some (F.nanOf true)
  | .num _ x =>
    if x.den = 1 then some (F.ofRat rm ftz (x.num % 2 == 1) 1)
    else if x.den = 2 then some { code := F.zero false }
    else none

/-- EXP2, LOG2, SIN and COS where the exact result is rational. -/
def specialFunction (I : Issue) (i : Instr) (l : Nat) : Option Rounding :=
  let at_ (f : Fields) (rm : Rm) (g : Format → Rm → Bool → Num → Option Rounding) : Option Rounding :=
    g (formatOf f.ty) (modeOf (I.thread l) rm) (flushed I l (formatOf f.ty)) (element I l (formatOf f.ty) f.a 0)
  match i with
  | .exp2 f rm => at_ f rm exp2At
  | .log2 f rm => at_ f rm log2At
  | .sin f rm => at_ f rm sinAt
  | .cos f rm => at_ f rm cosAt
  | _ => none

/-- The result of a special function where its exact value is rational. -/
def specialResult (I : Issue) (i : Instr) (l : Nat) : Option Result :=
  match i with
  | .exp2 f _ | .log2 f _ | .sin f _ | .cos f _ =>
    (specialFunction I i l).bind fun r => elementwise I l f fun _ => r
  | _ => none

/-! ### Minimum, maximum, comparison, classes (R212, R213, R216) -/

/-- The order of R212 on numbers: −∞ < … < −0 < +0 < … < +∞. -/
def Num.lt (a b : Num) : Bool :=
  match a, b with
  | .inf m, .inf n => m && !n
  | .inf m, .num _ _ => m
  | .num _ _, .inf n => !n
  | .num m x, .num n y => decide (signed m x < signed n y) || (x == 0 && y == 0 && m && !n)
  | _, _ => false

/-- The code of a value of a format. -/
def Format.code (F : Format) (a : Num) : Nat :=
  match a with
  | .nan _ => F.nan
  | .inf n => F.inf n
  | .num n x => F.codeOf n x

/-- FMIN and FMAX of two values (R212). -/
def least (F : Format) (max nan : Bool) (a b : Num) : Rounding :=
  let isNan (x : Num) : Bool := match x with | .nan _ => true | _ => false
  let r : Num :=
    if isNan a && isNan b then .nan false
    else if isNan a || isNan b then (if nan then .nan false else if isNan a then b else a)
    else if max then (if a.lt b then b else a) else (if b.lt a then b else a)
  { code := F.code r, flags := if a.sig || b.sig then 16 else 0 }

/-- The relation of FSETP, and whether it sets NV (R213). -/
def floatRelation (cmp : FCmp) (unord : Bool) (a b : Num) : Bool × Bool :=
  let isNan (x : Num) : Bool := match x with | .nan _ => true | _ => false
  let lt (a b : Num) : Bool :=
    match a, b with
    | .num m x, .num n y => decide (signed m x < signed n y)
    | _, _ => a.lt b
  if isNan a || isNan b then
    let sig := a.sig || b.sig
    match cmp with
    | .eq => (unord, sig)
    | .lt | .le | .gt | .ge => (unord, sig || !unord)
    | .ne | .nan => (true, sig)
    | .num => (false, sig)
  else
    (match cmp with
     | .eq => !lt a b && !lt b a
     | .ne => lt a b || lt b a
     | .lt => lt a b
     | .le => !lt b a
     | .gt => lt b a
     | .ge => !lt a b
     | .num => true
     | .nan => false, false)

/-- The bit that FCLASS sets (R216). -/
def classBit (F : Format) (x : Nat) : Nat :=
  match F.value x with
  | .nan s => if s then 8 else 9
  | .inf n => if n then 0 else 7
  | .num n y => if y = 0 then (if n then 3 else 4) else if F.exp x = 0 then (if n then 2 else 5) else (if n then 1 else 6)

/-- FMIN, FMAX, FSETP, FCLASS and FGETEXP. -/
def floatPickResult (I : Issue) (i : Instr) (l : Nat) : Option Result :=
  match i with
  | .fmin f nan =>
    let F := formatOf f.ty
    elementwise I l f fun j => least F false nan (element I l F f.a j) (element I l F f.b j)
  | .fmax f nan =>
    let F := formatOf f.ty
    elementwise I l f fun j => least F true nan (element I l F f.a j) (element I l F f.b j)
  | .fsetp f cmp unord bop =>
    let F := formatOf f.ty
    let k := floatRelation cmp unord (element I l F f.a 0) (element I l F f.b 0)
    withFlags I l { preds := toPred f.d (withC I l f bop k.1) ++ toPred f.e (withC I l f bop !k.1) }
      [{ code := 0, flags := if k.2 then 16 else 0 }]
  | .fclass f =>
    let F := formatOf f.ty
    let x : Nat := if F = F16 ∨ F = BF16 then ((val I l f.a 32).setWidth 16).toNat else (val I l f.a f.ty.regWidth).toNat
    some (toReg f.d (1#32 <<< classBit F x))
  | .fgetexp f =>
    let a := element I l (formatOf f.ty) f.a 0
    let r : BitVec 32 × BitVec 5 :=
      match a with
      | .nan _ => (0x80000000, 16)
      | .inf _ => (0x7FFFFFFF, 16)
      | .num _ x => if x = 0 then (0x80000000, 16) else (BitVec.ofInt 32 (topOf x), 0)
    withFlags I l (toReg f.d r.1) [{ code := 0, flags := r.2 }]
  | _ => none

/-! ### Conversions (R216-R220) -/

/-- The source of CVT and CVTI (R217). -/
def convSource (I : Issue) (l : Nat) (src : SrcFmt) (o : Opd) : Num :=
  match src with
  | .f16 => readCode I l F16 ((val I l o 32).extractLsb' 0 16).toNat
  | .bf16 => readCode I l BF16 ((val I l o 32).extractLsb' 0 16).toNat
  | .f16h => readCode I l F16 ((val I l o 32).extractLsb' 16 16).toNat
  | .bf16h => readCode I l BF16 ((val I l o 32).extractLsb' 16 16).toNat
  | .f32 => readCode I l F32 (val I l o 32).toNat
  | .f64 => readCode I l F64 (val I l o 64).toNat
  | .sc24 => SC24.value ((val I l o 32).setWidth 24).toNat
  | .acc40 => ACC40.value ((val I l o 64).setWidth 40).toNat

/-- FRND: the integral value, of the source's sign. -/
def integral (F : Format) (rm : Rm) (a : Num) : Rounding :=
  match a with
  | .nan s => F.nanOf s
  | .inf n => { code := F.inf n }
  | .num n x =>
    if x = 0 then { code := F.zero n }
    else
      let r := (Real.ofRat x).roundAt rm n 0
      { code := F.codeOf n r.1, flags := if r.2 then 1 else 0 }

/-- CVTI: the integer, or the nearer end of the type with NV. -/
def toInteger (t : Ty) (w : Nat) (rm : Rm) (a : Num) : BitVec w × BitVec 5 :=
  match a with
  | .nan _ => (0, 16)
  | .inf n => (BitVec.ofInt w (if n then tyMin t w else tyMax t w), 16)
  | .num n x =>
    if x = 0 then (0, 0)
    else
      let r := (Real.ofRat x).roundAt rm n 0
      let y : Int := if n then -(r.1 : Int) else r.1
      if y < tyMin t w then (BitVec.ofInt w (tyMin t w), 16)
      else if tyMax t w < y then (BitVec.ofInt w (tyMax t w), 16)
      else (BitVec.ofInt w y, if r.2 then 1 else 0)

/-- FRND, FSCALE, CVT, CVTI and CVTF. -/
def floatConvResult (I : Issue) (i : Instr) (l : Nat) : Option Result :=
  match i with
  | .frnd f rm =>
    let F := formatOf f.ty
    elementwise I l f fun j => integral F (modeOf (I.thread l) rm) (element I l F f.a j)
  | .fscale f rm =>
    let F := formatOf f.ty
    elementwise I l f fun j =>
      convert F (modeOf (I.thread l) rm) (flushed I l F)
        (match element I l F f.a j with
         | .num n x => .num n (x * pow2 (val I l f.b 32).toInt)
         | a => a)
  | .cvt f rm src =>
    let F := formatOf f.ty
    elementwise I l f fun j =>
      convert F (modeOf (I.thread l) rm) (flushed I l F) (convSource I l src (if j = 0 then f.a else f.b))
  | .cvti f rm src =>
    let w := f.ty.regWidth
    let r := toInteger f.ty w (modeOf (I.thread l) rm) (convSource I l src f.a)
    withFlags I l (toReg f.d r.1) [{ code := 0, flags := r.2 }]
  | .cvtf f rm src =>
    let F := formatOf f.ty
    let x : Int :=
      match src with
      | .ui32 => (val I l f.a 32).toNat
      | .si32 => (val I l f.a 32).toInt
      | .ui64 => (val I l f.a 64).toNat
      | .si64 => (val I l f.a 64).toInt
    elementwise I l f fun _ => F.ofRat (modeOf (I.thread l) rm) (flushed I l F) (decide (x < 0)) (x.natAbs : Rat)
  | _ => none

/-! ### binary8 (R192-R194, R220) -/

/-- The value of a binary8 code (R192). -/
def byteValue (v : Variant) (c : Nat) : Num :=
  let F := v.k.val
  let W := if v.uns then 8 - F else 7 - F
  let B : Int := 2 ^ (W - 1)
  let neg := !v.uns && c.testBit 7
  let e := (if v.uns then c else c % 128) / 2 ^ F
  let f := c % 2 ^ F
  let x : Rat := if e = 0 then (f : Rat) / 2 ^ F * pow2 (1 - B) else (1 + (f : Rat) / 2 ^ F) * pow2 (e - B)
  if v.uns then
    if c = 0xFF then .nan false else if !v.fin && c == 0xFE then .inf false else .num false x
  else
    if c = 0x80 then .nan false else if !v.fin && c % 128 == 0x7F then .inf neg else .num neg x

/-- The code of the largest finite value, without its sign. -/
def byteMax (v : Variant) : Nat := (if v.uns then 0xFE else 0x7F) - (if v.fin then 0 else 1)

/-- The code, without its sign, of a magnitude of the variant's grid: the one code at most `byteMax` with that value. -/
def byteCode (v : Variant) (x : Rat) : Nat :=
  ((List.range (byteMax v + 1)).find? fun c => byteValue v c == .num false x).getD 0

/-- CVT8 narrowing of one FP32 value (R220). -/
def narrow (v : Variant) (rm : Rm) (a : Num) : Rounding :=
  let put (neg : Bool) (c : Nat) : Nat := if neg && !v.uns && c != 0 then 128 + c else c
  let maxR : Rat := match byteValue v (byteMax v) with | .num _ x => x | _ => 0
  let F := v.k.val
  let W := if v.uns then 8 - F else 7 - F
  let B : Int := 2 ^ (W - 1)
  match a with
  | .nan s => { code := if v.uns then 0xFF else 0x80, flags := if s then 16 else 0 }
  | .inf n =>
    if v.uns && n then { code := 0xFF, flags := 16 }
    else if v.fin then { code := put n (byteMax v), flags := 5 }
    else { code := if v.uns then 0xFE else if n then 0xFF else 0x7F }
  | .num n x =>
    if x = 0 then { code := 0 }
    else
      let r := Real.ofRat x
      let one := r.roundAt rm n (r.top - F)
      let y : Rat := one.1 * pow2 (r.top - F)
      let tiny := decide (y < pow2 (1 - B))
      let two := r.roundAt rm n (1 - B - F)
      let z : Rat := if tiny then two.1 * pow2 (1 - B - F) else y
      let inexact := if tiny then two.2 else one.2
      if v.uns && n then
        if z = 0 then { code := 0, flags := 1 } else { code := 0xFF, flags := 16 }
      else if maxR < y then
        let toInf := !v.fin && (match rm with | .rne => true | .ru => !n | .rd => n | _ => false)
        { code := if toInf then (if v.uns then 0xFE else if n then 0xFF else 0x7F) else put n (byteMax v), flags := 5 }
      else
        let flags : BitVec 5 := if inexact then (if tiny then 3 else 1) else 0
        { code := put n (byteCode v z), flags := flags, raised := if tiny then flags ||| 2 else flags }

/-- CVT8 (R220). -/
def byteConvResult (I : Issue) (i : Instr) (l : Nat) : Option Result :=
  match i with
  | .cvt8 f v wide =>
    let z := flushed I l F32
    let up (c : BitVec 8) : Rounding :=
      match byteValue v c.toNat with
      | .nan _ => F32.nanOf false
      | a => convert F32 .rne z a
    let down (o : Opd) : Rounding := narrow v (modeOf (I.thread l) .dyn) (element I l F32 o 0)
    let a := val I l f.a 32
    match f.ty, wide with
    | .e8x4, true =>
      let r (j : Nat) : Rounding := up (a.extractLsb' (8 * j) 8)
      withFlags I l
        (toReg f.d (BitVec.ofNat 32 (r 3).code ++ BitVec.ofNat 32 (r 2).code ++ BitVec.ofNat 32 (r 1).code ++
          BitVec.ofNat 32 (r 0).code)) [r 0, r 1, r 2, r 3]
    | _, true =>
      let r := up (a.extractLsb' 0 8)
      withFlags I l (toReg f.d (BitVec.ofNat 32 r.code)) [r]
    | .e8x4, false =>
      let r0 := down f.a
      let r1 := down f.b
      let r2 := down f.c
      let r3 := down f.e
      withFlags I l
        (toReg f.d (BitVec.ofNat 8 r3.code ++ BitVec.ofNat 8 r2.code ++ BitVec.ofNat 8 r1.code ++ BitVec.ofNat 8 r0.code))
        [r0, r1, r2, r3]
    | _, false =>
      let r := down f.a
      withFlags I l (toReg f.d (BitVec.ofNat 32 r.code)) [r]
  | _ => none

end Sys2Proof.Claims
end

