-- ==== Sys2Proof/Certificates/Slice0/Obligations.lean ====
section
/-! DEFINITION. The obligations. Each is a statement about every state, every instruction and every operand that meets its
hypotheses; what it says of an instruction is written in Sys2Proof/Claims from the spec, apart from the meanings. -/

open Sys2Proof Sys2Proof.Machine Sys2Proof.Claims

/-! ### The integer engine -/

/-- 05 R173: IADD, ISUB and IADDX complete with the sum, the difference, the saturated value and the carry. -/
def Obligations.IntegerSumsComplete : Prop := CompletesWith addResult

/-- 05 R174: IMUL, IMULH, IMAD and IMADW complete with the halves of products of twice the width. -/
def Obligations.IntegerProductsComplete : Prop := CompletesWith mulResult

/-- 05 R175: IDIV and IREM complete with the quotient toward zero and the remainder; without `.TRAP` a division by 0 gives
all ones and the dividend. -/
def Obligations.IntegerDivisionsComplete : Prop := CompletesWith divResult

/-- 05 R175, R170: with `.TRAP` exactly the lanes that divide by 0 take Integer Divide by Zero at the slot, and the others
complete. -/
def Obligations.DivisionsByZeroTrapTheirLanes : Prop :=
  ∀ (i : Instr) (s : State) (I : Issue), Executes i s I → I.InRange → (∃ f, i = .idiv f true ∨ i = .irem f true) →
    ∃ u, Completes I (divResult I i) u ∧
      exec i s = .next (u.traps I.cid I.wi ((I.lanes.filter fun l => (divResult I i l).isNone).map fun l => (l, { cause := 0x12, pc := I.pc })))

/-- 05 R176 to R181: IMIN, IMAX, IABS, ISETP and SEL complete. -/
def Obligations.IntegerChoicesComplete : Prop := CompletesWith pickResult

/-- 05: BTAB and the shifts and rotates complete, whatever the count. -/
def Obligations.ShiftsAndLogicComplete : Prop := CompletesWith logicResult

/-- 05: BFE, BFI, POPC, CLZ and BREV complete. -/
def Obligations.BitFieldsComplete : Prop := CompletesWith fieldResult

/-- 05 R183 to R185: MOV between registers, MOVI and LEA complete. -/
def Obligations.MovesComplete : Prop := CompletesWith moveResult

/-- 05 R186, R187: PADD, PSUB, PMAX, PMIN and PACS complete on their elements. -/
def Obligations.PackedFormsComplete : Prop := CompletesWith packResult

/-- 05 R188: CELLKEY completes with the cell of each coordinate and the key. -/
def Obligations.CellKeysComplete : Prop := CompletesWith cellResult

/-! ### The float engine -/

/-- 06: FADD, FMUL, FFMA and HFMA2 complete with the exact sum or product, rounded once. -/
def Obligations.FloatSumsComplete : Prop := CompletesWith floatSumResult

/-- 06 R214, R215: FDIV, FSQRT, RCP and RSQ complete with the exact quotient or root, rounded once. -/
def Obligations.FloatQuotientsComplete : Prop := CompletesWith floatDivResult

/-- 06 R212, R213, R216: FMIN, FMAX, FSETP, FCLASS and FGETEXP complete. -/
def Obligations.FloatChoicesComplete : Prop := CompletesWith floatPickResult

/-- 06 R216 to R219: FRND, FSCALE, CVT, CVTI and CVTF complete. -/
def Obligations.FloatConversionsComplete : Prop := CompletesWith floatConvResult

/-- 06 R220: CVT8 completes, both ways, in every variant. -/
def Obligations.ByteConversionsComplete : Prop := CompletesWith byteConvResult

/-- 06 R215: EXP2, LOG2, SIN and COS complete with the exact value, rounded, wherever that value is rational. -/
def Obligations.SpecialFunctionsAtRationalPoints : Prop := CompletesWith specialResult

/-- 06 R215: with no exception enabled, EXP2, LOG2, SIN and COS complete for every source, with a value of the format; where
the exact value is not rational the result is inexact (which value is correctly rounded is log 10's). -/
def Obligations.SpecialFunctionsComplete : Prop :=
  ∀ (i : Instr) (f : Fields) (rm : Rm) (s : State) (I : Issue), i = .exp2 f rm ∨ i = .log2 f rm ∨ i = .sin f rm ∨ i = .cos f rm →
    Executes i s I → I.InRange → (∀ l ∈ I.lanes, (I.thread l).fenv.setWidth 5 = (0 : BitVec 5)) →
    (∀ l ∈ I.lanes, modeOf (I.thread l) rm ≠ .dyn) →
    ∃ (t : State) (res : Nat → Option Result), exec i s = .next t ∧ Completes I res t ∧
      ∀ l ∈ I.lanes, ∃ x b, res l = some { reg := some (f.d, 32, x), flags := b } ∧
        match specialFunction I i l with
        | some r => x = r.code ∧ b = r.flags
        | none => b.getLsbD 0 = true

/-! ### The crossbar -/

/-- 08 R258, R259: XGET and BCAST complete with the value of the source lane and whether it took part. -/
def Obligations.ShufflesComplete : Prop := CompletesWith shuffleResult

/-- 08 R260, R261: POLL and PEERS complete with the votes of their partitions. -/
def Obligations.VotesComplete : Prop := CompletesWith voteResult

/-- 08 R262: FOLDX and SCANX complete with the folds of their partitions. -/
def Obligations.FoldsComplete : Prop := CompletesWith foldResult

/-- 08 R263, R264: BYSEL and TLU complete. -/
def Obligations.ByteSelectionsComplete : Prop := CompletesWith byteResult

/-! ### The sequencer -/

/-- 04: NOP, ELECT, TSTAT and GETSR, MOV from a special register, and PREFETCH complete. -/
def Obligations.SequencerReadsComplete : Prop := CompletesWith seqResult

/-- 04, 17: WDOG, PART, YIELD, TFREE, BRA, BRX, JSET, JWAIT, EXIT, SLEEP, TTEST, TRAP, BRK and RTT change the issuing warp
as the rules say, and nothing else. -/
def Obligations.SequencerFormsComplete : Prop :=
  ∀ (i : Instr) (s : State) (I : Issue) (w : Warp), Executes i s I → I.InRange → I.GroupRuns → warpResult I i = some w →
    ∃ t, exec i s = .next t ∧ WarpBecomes I w t

/-- 04 R134, R135: BARA and BARW arrive once for each issuing thread, and BARS changes EXPECT, where no phase completes. -/
def Obligations.BarrierFormsComplete : Prop :=
  ∀ (i : Instr) (s : State) (I : Issue) (c : Crew), Executes i s I → I.InRange → I.GroupRuns → crewResult I i = some c →
    ∃ t, exec i s = .next t ∧ CrewBecomes I c t

/-- 04 R147, R156: TSIG.ARM of a token that is not PENDING makes its record PENDING with SOFT, bound to nothing but itself. -/
def Obligations.TokensAreArmed : Prop :=
  ∀ (f : Fields) (s : State) (I : Issue), Executes (.tsigArm f) s I → (record I.warp (tokenOf f.a)).st ≠ .pending →
    ∃ t, exec (.tsigArm f) s = .next t ∧ t.nextId = s.nextId + 1 ∧
      WarpBecomes I (signalWarp I (.tsigArm f) (tokenOf f.a)) { t with nextId := s.nextId }

/-- 04 R156: TSIG.POISON, and TSIG.DONE where no earlier access of its threads is still to perform, settle their token:
the record takes its state, and every keyring that was bound to a PENDING one learns it. -/
def Obligations.SignalsSettleTokens : Prop :=
  ∀ (i : Instr) (f : Fields) (s : State) (I : Issue), Executes i s I →
    (i = .tsigPoison f ∨ (i = .tsigDone f ∧ I.s.pendingBefore I.cid I.wi I.act I.s.nextId = false)) →
    let t := tokenOf f.a
    let r := record I.warp t
    (t ≠ 0 → r.st = .pending → r.soft = true) →
    ∃ u, WarpBecomes I (signalWarp I i t) u ∧
      exec i s = .next (if t ≠ 0 ∧ r.st = .pending then
        u.settleBinding r.bind (match signalled i r I with | { st := .poisoned, cause := c, origin := o, .. } => .poisoned c o | _ => .done)
        else u)

/-- 04 R165, 17 R481: SETSR, and MOV to a special register, write the registers of thread and warp scope that their threads
may write, with values that the registers take. -/
def Obligations.SpecialWritesComplete : Prop :=
  ∀ (i : Instr) (s : State) (I : Issue) (w : Warp), Executes i s I → I.InRange → specialWarp I i = some w →
    ∃ t, exec i s = .next t ∧ WarpBecomes I w t

/-- 04 R165: the same for the event counters of a core and of a die and for the settings of a launch. -/
def Obligations.WideSpecialWritesComplete : Prop :=
  ∀ (i : Instr) (f : Fields) (n : Nat) (s : State) (I : Issue), Executes i s I → I.InRange → specialDest i = some (f, n) →
    (∀ l ∈ I.lanes, writable I l n = true) → (wideWrite I n (written I f I.low) s).isSome = true →
    ∃ u, WarpBecomes I I.warpOn u ∧ ∃ t, wideWrite I n (written I f I.low) u = some t ∧ exec i s = .next t

/-! ### Calls -/

/-- 04 R129, R130: a call of one thread stores the address of its successor 8 bytes below `%csp`, moves `%csp` down by 8, and
enters its target. `ps` is where the eight bytes lie. -/
def Obligations.CallsPushAndEnter : Prop :=
  ∀ (i : Instr) (s s1 : State) (I : Issue) (l target : Nat) (ps : List Part) (ln : Line), Executes i s I → I.InRange → I.GroupRuns →
    I.lanes = [l] → (I.thread l).lostStack = false →
    ((∃ f, i = .call f ∧ target = lineTarget I.pc f) ∨ (∃ f, i = .callx f ∧ target = (val I l f.a 64).toNat)) →
    8 ≤ (I.thread l).csp.toNat →
    (s.advance I.cid I.wi (I.mask &&& ~~~I.act)).reach
      { crew := some I.cid, asid := I.asid, loc := .data I.crew.core, core := I.crew.core, wslot := I.warp.slot, engine := .seq }
      (s.localBase I.crew I.warp.slot I.wi l + (I.thread l).csp.toNat - 8) 8 true { w := true } = (s1, .ok ps) →
    (∃ w, s1.warp? I.cid I.wi = some w ∧ entryAt w target = some ln) →
    exec i s = .next ((s1.writeParts ps (leBytes 8 (successor I.pc).toNat)).setThread I.cid I.wi l fun t =>
      { entered t target ln with csp := t.csp - 8 })

/-- 04 R129, R130: a return of one thread enters the address in the eight bytes at `%csp`, which moves up by 8. -/
def Obligations.ReturnsPopAndEnter : Prop :=
  ∀ (f : Fields) (s s1 : State) (I : Issue) (l : Nat) (ps : List Part) (ln : Line), Executes (.ret f) s I → I.GroupRuns → I.lanes = [l] →
    (I.thread l).lostStack = false →
    (I.thread l).csp.toNat + 8 ≤ I.crew.lsize.toNat →
    (s.advance I.cid I.wi (I.mask &&& ~~~I.act)).reach
      { crew := some I.cid, asid := I.asid, loc := .data I.crew.core, core := I.crew.core, wslot := I.warp.slot, engine := .seq }
      (s.localBase I.crew I.warp.slot I.wi l + (I.thread l).csp.toNat) 8 false { r := true } = (s1, .ok ps) →
    let target := leNat (s1.readParts ps)
    target < 2 ^ 57 → target % 64 % 12 = 0 → target % 64 ≤ 48 →
    (∃ w, s1.warp? I.cid I.wi = some w ∧ (w.fbuf.find? fun y => y.va.toNat == target / 64 * 64) = some ln) → lparOk ln.bits = true →
    lineIllegal ln.bits = false →
    exec (.ret f) s = .next (s1.setThread I.cid I.wi l fun t => { entered t target ln with csp := t.csp + 8 })

/-! ### Issues that stop a whole group, and issues that do nothing -/

/-- 02 R56, R57: a form whose guard is 0 in every thread of the group, and that no check of orders 7 to 9 stops, only goes
on. This holds of every instruction. -/
def Obligations.GuardedOffFormsGoOn : Prop :=
  ∀ (i : Instr) (s : State) (I : Issue), Issuing i s I → orderChecks s I.crew I.warp I.mask I.pc i I.form = none → I.act = 0 →
    ∃ t, exec i s = .next t ∧ Completes I (fun _ => some {}) t

/-- 02 R77, R79; 17 R471: an illegal form traps every thread of the group with Illegal Instruction, whatever its guards; then
comes a form of opcodes 0xD0 to 0xD5 outside a privileged launch, with Privileged Instruction; but for CTXSAVE, opcode 0xD4, where
every thread of the group is in a handler that it entered for a Pre-empt Request. -/
def Obligations.IllegalFormsTrap : Prop :=
  ∀ (i : Instr) (s : State) (I : Issue), Issuing i s I →
    (i.wf = false → exec i s = .next (s.traps I.cid I.wi (I.group.map fun l => (l, { cause := 0x06, pc := I.pc, detail := I.pc.setWidth 64 })))) ∧
    (i.wf = true → 0xD0 ≤ I.form.op → I.form.op ≤ 0xD5 → (∀ n, s.launch? I.crew.launch = some n → n.priv = false) →
      (I.form.op = 0xD4 → ∃ l ∈ I.group, (I.thread l).inHandler = false ∨ (I.thread l).cause ≠ 0x18) →
      exec i s = .next (s.traps I.cid I.wi (I.group.map fun l => (l, { cause := 0x07, pc := I.pc, detail := I.pc.setWidth 64 }))))

/-- 04 R147: a destination token that is PENDING, or that the form's own keyring names, traps every thread of the group with
Illegal Token and its number. -/
def Obligations.TokenClashesTrap : Prop :=
  ∀ (i : Instr) (s : State) (I : Issue) (n : Nat), Issuing i s I → orderChecks s I.crew I.warp I.mask I.pc i I.form = none → I.act ≠ 0 →
    I.tokenClash = some n →
    exec i s = .next (s.traps I.cid I.wi (I.group.map fun l => (l, { cause := 0x11, pc := I.pc, info := n })))

/-- 17 R474, R482: a thread outside its handler whose launch has one enters it: the saved PC, CAUSE with INFO and CODE, the
detail and HANDLER are written, and the thread stands at the handler with its line; nothing else changes. -/
def Obligations.TrapsEnterTheHandler : Prop :=
  ∀ (s : State) (id w l : Nat) (tr : Trap) (c : Crew) (x : Warp) (th : Thread) (la : Launch) (ln : Line),
    s.crew? id = some c → s.warp? id w = some x → s.thread? id w l = some th → s.launch? c.launch = some la → la.handler ≠ 0 →
    entryAt x la.handler.toNat = some ln → th.tmode.getLsbD 0 = false → tr.cause < 256 →
    s.trap id w l tr = s.setThread id w l fun t =>
      { t with
        run := .running, pc := la.handler, line := some ln, fresh := true, owed := false, tpc := tr.pc, tpc0 := tr.pc, taddr := tr.detail, tmode := 1
        tcause := BitVec.ofNat 16 tr.code ++ (0 : BitVec 11) ++ BitVec.ofNat 5 tr.info ++ (0 : BitVec 24) ++ BitVec.ofNat 8 tr.cause }

/-- 17 R476: a thread that traps with no handler, or synchronously inside one, halts: CAUSE reads 0x19 and INFO the cause,
its launch counts it, and the error log records the thread. -/
def Obligations.TrapsWithoutHandlerHalt : Prop :=
  ∀ (s : State) (id w l : Nat) (tr : Trap) (c : Crew) (th : Thread), s.crew? id = some c → s.thread? id w l = some th → tr.cause < 32 →
    ((∀ la, s.launch? c.launch = some la → la.handler = 0) ∨ (th.tmode.getLsbD 0 = true ∧ tr.cause ≠ 0x16 ∧ tr.cause ≠ 0x17 ∧ tr.cause ≠ 0x18)) →
    ∃ u, u = ((s.setThread id w l fun t =>
        { t with run := .halted, tcause := t.tcause.extractLsb' 48 16 ++ (0 : BitVec 11) ++ BitVec.ofNat 5 tr.cause ++ (0x19 : BitVec 32) }).setLaunch
          c.launch fun x => { x with haltedN := x.haltedN + 1 }) ∧
      s.trap id w l tr = u.logErr 3 8 (BitVec.ofNat 32 (c.core / 96 % 2 * 2 ^ 26 + c.core % 256 * 2 ^ 18)) (th.pc.setWidth 64) c.launch (BitVec.ofNat 64 tr.cause)

/-! ### Acceptance -/

/-- 04 R157 to R162, 07, 09, 12: the forms of the LME, the FCH, the FAB and the phase barriers whose checks at issue pass are
accepted: one operation joins, its token is PENDING, and its threads go on, or wait at a load with `.WAIT` and at a blocking
PBWAIT. -/
def Obligations.AccessesAreAccepted : Prop :=
  ∀ (i : Instr) (s : State) (I : Issue) (o : Op), Executes i s I → I.InRange → accepted I i = some o →
    ∃ t, exec i s = .next t ∧ Accepts I o (warpAfter I i o) t

/-- 07 R244, R245; 03 R123: FENCE enters the program order of its threads at once. -/
def Obligations.FencesComplete : Prop :=
  ∀ (i : Instr) (s : State) (I : Issue) (w : Warp), Executes i s I → fenceWarp I i = some w → ∃ t, exec i s = .next t ∧ WarpBecomes I w t

/-- 10 R291 to R304: a copy form that is not refused at issue is accepted with its wards; one that is refused at acceptance
waits for nothing and settles POISONED in a later act (04 R149). -/
def Obligations.CopiesAreAccepted : Prop :=
  ∀ (i : Instr) (s : State) (I : Issue) (o : Op), Executes i s I → I.InRange → cpeOperation I i = some o → s.cpeContained o = none →
    let p := match s.cpeRefusal I.crew o with
      | some c => refusedWith I o 6 (BitVec.ofNat 8 I.crew.core) c
      | none => o
    ∃ t, exec i s = .next t ∧ Accepts I p I.warpOn { t with cores := s.cores } (some (newTrace i o)) ∧
      t.cores = s.cores.mapIdx fun k c => { c with wards := c.wards ++ ((s.cpeWards I.crew o).filter fun w => w.1 == k).map Prod.snd }

/-- 11, 13, 14, 15, 16, 17: the forms of the MXE, the TBE, the RCE, the XLE and the HME whose checks at issue pass are
accepted. -/
def Obligations.EngineFormsAreAccepted : Prop :=
  ∀ (i : Instr) (s : State) (I : Issue) (o : Op), Executes i s I → I.InRange → engineAccepted I i = some o →
    ∃ t, exec i s = .next t ∧ Accepts I o I.warpOn t

/-- The queries TQUERY, WARDQ, MFLAGS, FQUERY, TASKINFO and RCQUERY, with FFLAGS and FENV, complete with their words, and
BINCFG, WQCFG, TSTREAM, TRELEASE and TLBINV with their change of a table; nothing else changes. -/
def Obligations.QueriesAndTablesComplete : Prop :=
  ∀ (i : Instr) (s : State) (I : Issue) (g : State → State), Executes i s I → I.InRange → (∀ l ∈ I.lanes, (formResult I i l).isSome) →
    formChange I i = some g → ∃ u, Completes I (formResult I i) u ∧ exec i s = .next (g u)

/-- 17 R484, R490: CTXSAVE to a page-aligned area whose pages can be written begins a save of its crew: the crew is captured
with its threads after the form. -/
def Obligations.SavesBegin : Prop :=
  ∀ (f : Fields) (s s1 s2 : State) (I : Issue), Executes (.ctxsave f) s I → I.InRange → s.recomputeOf (some I.cid) = none →
    (word I f.a).toNat + I.crew.area.size ≤ 2 ^ 57 → (word I f.a).toNat % 4096 = 0 →
    State.checkPages I.crew ((I.crew.area.size + 4095) / 4096) (s.advance I.cid I.wi I.mask) (word I f.a).toNat = (s1, true) →
    s2 = s1.settleEntries I.crew → (∀ o ∈ s2.ops, o.captured I.cid = false) →
    exec (.ctxsave f) s = .next (s2.setCrew I.cid fun c =>
      { c with save := some { base := (word I f.a).setWidth 57, forced := false, warp := I.wi, lanes := I.act, status := f.d, discarded := 0 } })

/-! ### Accepted operations start and perform -/

/-- 04 R148, R134, R152, R156, R162; 07 R239: an operation whose keyring has settled starts, or settles POISONED with cause 1
and the ORIGIN of its lowest POISONED token; a PBWAIT whose phase is over, a waiting load whose granule is FULL, a SLEEP
whose tokens have settled and a TSIG.DONE whose accesses have performed end; a due arrival reaches its barrier. -/
def Obligations.WaitsEnd : Prop :=
  ∀ s : State,
    (∀ (n : Nat) (o : Op), s.op? n = some o → o.started = false → allSettled o.keys = true → isPhaseAct o.instr = false →
      queueOf o.instr ≠ some .mxe → (∀ f, o.instr ≠ .tsubmit f) →
      (firstPoison o.keys = none → exec (.operationStart n) s = .next
        (let t := s.setOp n fun o => { o with started := true }
         if waitsOnLatch o.instr then
           let u : State := { (t.setOp n fun o => { o with since := s.nextId }) with nextId := s.nextId + 1 }
           if u.latchEmpty o then u.setWarp o.crew o.warp fun w => { w with wdCount := 0 } else u
         else t)) ∧
      (∀ t c g, firstPoison o.keys = some (t, c, g) → o.blocks = false →
        exec (.operationStart n) s = .next (s.settle n (.poisoned 1 g)))) ∧
    (∀ (n : Nat) (o : Op) (f : Fields) (r : Reach) (u : State) (ps : List Part), s.op? n = some o → o.instr = .pbwait f r →
      o.started = true → o.wait = .none → o.parked = 0 → o.fail = none → o.tok ≠ 0 → s.mayPerform o = true → o.arg 1 % 16 = 0 →
      s.reach (s.opWho o .seq) (o.arg 1) 16 false { r := true, w := true } = (u, .ok ps) →
      bitsNat (leNat (u.readParts ps)) 94 64 ≠ o.arg 0 % 2 ^ 31 → bitNat (leNat (u.readParts ps)) 95 = false →
      exec (.pbwaitConditionMet n) s = .next (u.settle n .done)) ∧
    (∀ (n : Nat) (o : Op) (a : LaneAcc) (f : Fields) (mode : LatchMode) (p : CsmPart), s.op? n = some o → o.instr = .lds f mode →
      mode ≠ .none → o.started = true → s.mayPerformLane o a.lane = true → o.acc = [a] → a.done = false →
      s.csmLanePieces o a 1 = some [p] → s.csmLanePieces o a (tyBytes f.ty) = some [{ p with n := tyBytes f.ty }] →
      s.latchFull p.crew (p.off / 16) = true → s.waitsLonger o a (p.crew, p.off / 16) = false →
      let b := { a with
        done := true, result := BitVec.ofNat 128 (widenLoad f.ty (leNat (s.csmRead [{ p with n := tyBytes f.ty }]))) }
      let u := if mode = .clr then s.setLatch p.crew (p.off / 16) false else s
      exec (.latchWaitServed n a.lane) s = .next
        ((((u.deliver o f.d (max 32 (8 * tyBytes f.ty)) [b]).leaveWait o.crew o.warp (laneBit a.lane)).flushFetch o.crew o.warp
          (laneBit a.lane)).settle n .done)) ∧
    (∀ (core slot lane wi : Nat) (c : Crew) (w : Warp) (keys : List Bound) (any : Bool), s.warpAt core slot = some (c, wi, w) →
      (w.thread lane).run = .sleep keys any → c.save = none → (allSettled keys = true ∨ (any = true ∧ keys.any Bound.settled = true)) →
      firstPoison keys = none → keys ≠ [] →
      exec (.sleepWake core slot lane) s = .next ((s.leaveWait c.id wi (laneBit lane)).flushFetch c.id wi (maskOf [lane]))) ∧
    (∀ (core slot tok wi : Nat) (c : Crew) (w : Warp) (g : SigPending), s.warpAt core slot = some (c, wi, w) →
      (w.sigs.find? fun g => g.tok == tok) = some g → s.pendingBefore c.id wi g.lanes g.seq = false →
      exec (.tsigDoneApply core slot tok) s =
        .next ((s.setWarp c.id wi fun w => { w with sigs := w.sigs.erase g }).signal c.id wi tok .done)) ∧
    (∀ (a : Arrival) (rest : List Arrival), s.arrivals = a :: rest →
      exec .engineBarrierArrival s = .next ({ s with arrivals := rest }.arrive a.crew a.bar 1 a.poison))

/-- 07 R232, R234, R235, R242: a load of one thread whose bytes can be read gives them, widened, to its destination; a store of
one thread writes its bytes; an atomic of one thread performs its read and its write as one act of its home slice and gives
the old value; then the token settles DONE. -/
def Obligations.AccessesPerform : Prop :=
  ∀ (s u : State) (n : Nat) (o : Op) (a : LaneAcc) (f : Fields) (ps : List Part), s.op? n = some o → o.started = true →
    o.wait = .none → o.parked = 0 → o.stalled = 0 → o.fail = none → o.acc = [a] → a.done = false → a.early = false →
    isAcquire o.instr = false →
    (∀ str, o.instr = .ld f str → s.mayPerformLane o a.lane = true → u.opSO o = false →
      s.reach (s.opWho o .lme) a.addr.toNat (tyBytes f.ty) false { r := true } = (u, .ok ps) →
      exec (.lmeOperationComplete n) s = .next ((u.deliver o f.d (max 32 (8 * tyBytes f.ty))
        [{ a with done := true, result := BitVec.ofNat 128 (widenLoad f.ty (leNat (u.readParts ps))) }]).settle n .done)) ∧
    (∀ str t, o.instr = .st f str → s.mayPerformLane o a.lane = true →
      s.reach (s.opWho o .lme) a.addr.toNat (tyBytes f.ty) true { w := true } = (u, .ok ps) →
      t = u.writeParts ps (leBytes (tyBytes f.ty) a.data.toNat) → t.opSO o = false →
      exec (.lmeOperationComplete n) s = .next (t.settle n .done)) ∧
    (∀ op str die slice key x v old t, o.instr = .atom f op false str →
      (((s.die die).slices[slice]?).bind fun q => (Slice.grant q.ports.flatten.length q).pop) = some (⟨key, .lane n a.lane⟩, x) →
      v = (s.setDie die fun d => { d with slices := updAt slice (fun _ => x) d.slices }) →
      v.reach (v.opWho o .lme) a.addr.toNat (tyBytes f.ty) true { r := true, w := true } = (u, .ok ps) →
      old = leNat (u.readParts ps) →
      t = (match atomNew op f.ty old a.data.toNat a.cmp.toNat with
        | some y => u.writeParts ps (leBytes (tyBytes f.ty) y)
        | none => u) →
      t.opSO o = false →
      exec (.atomicUnitAct die slice) s =
        .next ((t.deliver o f.d (8 * tyBytes f.ty) [{ a with done := true, result := BitVec.ofNat 128 old }]).settle n .done))

/-- 07 R235; 03 R105: of all storage a store of one thread changes only the bytes that its address reaches, which take the
bytes of its source. -/
def Obligations.StoresWriteTheirBytes : Prop :=
  ∀ (s u : State) (n : Nat) (o : Op) (a : LaneAcc) (f : Fields) (str : Strength) (p : Part), Memory.wf s.undef s.mem = true →
    s.op? n = some o → o.started = true → o.wait = .none → o.parked = 0 → o.stalled = 0 → o.fail = none → o.acc = [a] →
    a.done = false → a.early = false → o.instr = .st f str → isAcquire o.instr = false → s.mayPerformLane o a.lane = true →
    s.reach (s.opWho o .lme) a.addr.toNat (tyBytes f.ty) true { w := true } = (u, .ok [p]) → p.drop = false → p.n = tyBytes f.ty →
    (u.store p.key (leBytes (tyBytes f.ty) a.data.toNat)).opSO o = false →
    ∃ t, exec (.lmeOperationComplete n) s = .next t ∧
      (∀ k, k < p.key ∨ p.key + tyBytes f.ty ≤ k → memByte t.undef t.mem k = memByte s.undef s.mem k) ∧
      t.bytes p.key (tyBytes f.ty) = leBytes (tyBytes f.ty) a.data.toNat

/-- 10 R295, R308; 11 R318, R324 to R327: a copy whose rows have all performed settles DONE with its trace; HLOAD fills its
shape slot; the head of an MXE queue starts on a free MXE, a gang takes its members one after another, and a running
operation commits and settles. -/
def Obligations.CopiesAndMultipliesPerform : Prop :=
  ∀ s : State,
    (∀ (n : Nat) (o : Op) (c : Crew), s.op? n = some o → queueOf o.instr = some .cpe → o.started = true → o.wait = .none →
      o.parked = 0 → s.mayPerform o = true → o.fail = none → s.crew? o.crew = some c → o.rowCount ≤ o.prog →
      exec (.cpeOperationSettle n) s = .next ((s.noteTrace o none true).settle n .done)) ∧
    (∀ (n : Nat) (o p : Op) (c : Crew) (f : Fields) (u v : State) (row : RowSt) (bs : List Byte), s.op? n = some o →
      o.instr = .hload f → o.started = true → o.wait = .none → o.parked = 0 → s.mayPerform o = true → o.fail = none →
      s.crew? o.crew = some c → o.prog = 0 → o.rowsDone = [] → o.rows = [] → s.planRow o c 0 = (u, .ok row) → u.op? n = some p →
      u.rowSource p c 0 row.idx = (v, .ok bs) → v.op? n = some p →
      let r := BitVec.ofNat 512 (leNat bs)
      let t := v.setCrew o.crew fun c => { c with shapes := c.shapes.set (Opd.tileNo f.d) (if shapeValid r then some r else none) }
      exec (.cpeOperationSettle n) s = .next ((t.noteTrace o none true).settle n .done)) ∧
    (∀ (core : Nat) (o : Op), s.mxeHead core = some o → o.started = true → s.mayPerform o = true → o.prog = 0 → isGang o.instr = false →
      (s.core core).mxe = .idle → s.gangsFor core = none → s.mxeRefusal o = none →
      exec (.mxeOperationStart core) s =
        .next ((s.setCore core fun c => { c with mxe := .running o.id }).setOp o.id fun o => { o with prog := 1 })) ∧
    (∀ (core n : Nat) (o : Op) (c : Crew), (s.core core).mxe = .running n → s.op? n = some o → o.prog ≠ 0 → o.fail = none →
      s.crew? o.crew = some c →
      exec (.mxeCommit core) s = .next ((s.commitMxe o c).settle n .done) ∧
      ∀ f mc nc, o.instr = .mzero f mc nc →
        s.commitMxe o c =
          s.setTile o.crew (Opd.tileNo f.d) (some ⟨zeroFmt f.ty, mc, nc, 0, List.replicate (dimSize mc * dimSize nc) 0⟩)) ∧
    (∀ (core : Nat) (o : Op), s.gangsFor core = some o → s.memberSaved o core = false → (s.core core).mxe = .idle →
      exec (.gangMemberAcquire core) s =
        .next ((s.setCore core fun c => { c with mxe := .gang o.id }).setOp o.id fun o => { o with holds := o.holds ++ [core] })) ∧
    (∀ (n : Nat) (o : Op) (c : Crew), s.op? n = some o → isGang o.instr = true → o.prog ≠ 0 → o.fail = none → s.crew? o.crew = some c →
      exec (.gangSettle n) s = .next ((s.commitMxe o c).settle n .done))

/-- 12 R342, R350 to R356, R369: an FFLUSH with nothing left to cover and no failure settles DONE; a signal at a peer settles as
the peer answers; the first timeout of a request resends it and the second is a lasting failure of its lane, or of an operation
that makes no request for each lane; a peer's read answers its bytes and its write performs; a port that fails drops out of
the choice, and its requests in flight are resent. -/
def Obligations.FabricEventsSettle : Prop :=
  ∀ s : State,
    (∀ (n : Nat) (o : Op) (f : Fields) (e : Bool) (ans : FabAnswer), s.op? n = some o → o.instr = .fflush f e → s.fabGoes o = true →
      o.parked = 0 → o.fail = none → (s.ops.any fun p => o.flushCovers p) = false → (∀ w, s.warp? o.crew o.warp = some w → w.fabFails = []) →
      exec (.fabOperationSettle n ans) s = .next (s.settle n .done)) ∧
    (∀ (n : Nat) (o : Op) (f : Fields) (e : Bool) (bs : List (Nat × QWord)), s.op? n = some o →
      o.instr = .fsigTret f e ∨ o.instr = .fsigTpois f e → s.fabGoes o = true →
      o.parked = 0 → o.fail = none → s.fabContained o = none → o.arg 2 ≠ s.endpoint →
      exec (.fabOperationSettle n (.data bs)) s = .next (s.settle n .done)) ∧
    (∀ (n : Nat) (o : Op) (f : Fields) (e : Bool) (ans : FabAnswer) (r : Nat), s.op? n = some o →
      o.instr = .fsigTret f e ∨ o.instr = .fsigTpois f e → s.fabGoes o = true → o.parked = 0 →
      o.fail = none → s.fabContained o = none → o.arg 2 ≠ s.endpoint → answerWhole ans = some (.error r) →
      exec (.fabOperationSettle n ans) s = .next (s.settleFab o 10 (peerOrigin r (o.arg 2)))) ∧
    (∀ (n k : Nat) (o : Op), s.op? n = some o → s.fabGoes o = true → o.fail = none → s.requestOpen o k = true →
      (o.resent.contains k = false →
        exec (.fabRequestTimeout ⟨n, k⟩) s = .next (((s.setCore o.core fun c => { c with fabevt := c.fabevt + 1 }).logErr 1 3
          (coreOrigin .fab o.core o.tok) 0 o.launch 0).setOp n fun o => { o with resent := o.resent ++ [k] })) ∧
      (o.resent.contains k = true → perLaneFab o.instr = false →
        exec (.fabRequestTimeout ⟨n, k⟩) s = .next (s.settleFab o 10 (peerOrigin 3 (s.peerOf o)))) ∧
      (∀ a, o.resent.contains k = true → perLaneFab o.instr = true → s.openLane o k = some a →
        exec (.fabRequestTimeout ⟨n, k⟩) s =
          .next ((s.failLanes o a (10, peerOrigin 3 (s.requestEp o a k))).endFab n))) ∧
    (∀ (p : PeerPacket) (u : State) (ps : List Part), s.reorder = [] → s.seen.contains (p.source, p.seq) = false →
      let v := { s with reorder := [p] }
      v.packetHeld p = false → v.reachPacket p = (u, .ok ps) →
      (∀ n, p.act = .read n →
        exec (.peerPacketArrival p) s = .next (u.packetDone p (.peerData p.source p.seq (u.readParts ps)))) ∧
      (∀ bs, p.act = .write bs →
        exec (.peerPacketArrival p) s = .next ((u.writeParts ps bs).packetDone p (.peerData p.source p.seq [])))) ∧
    (∀ port (flying : List FabRequest), port < 18 → s.ports.getLsbD port = true →
      ∃ t : State, t.ports = s.ports &&& ~~~((1 : BitVec 18) <<< port) ∧
        t = { s with ports := t.ports, errlog := t.errlog, errSeq := t.errSeq } ∧
        exec (.portOutOfService ⟨port, flying⟩) s = .next (flying.foldl (fun v x => v.loseRequest x.op x.req 0) t))

/-- 01 R38, R43, R46; 04 R133, R151; 09 R268; 17 R475: the watchdog fires at its limit and counts, as a YIELD or as a trap
of every thread; a held Watchdog, then a held Pre-empt Request, is taken; a line arrives in the fetch buffer; %tstat and a
join register are written; a correction and a transient failure are counted and logged. -/
def Obligations.ThreadEventsTakeEffect : Prop :=
  ∀ (s : State),
    (∀ (core slot wi : Nat) (c : Crew) (w : Warp), s.warpAt core slot = some (c, wi, w) →
      (2 ^ w.wdLimit.toNat ≤ w.wdCount.toNat → c.save = none →
        let u := (s.setWarp c.id wi Warp.progress).setCore core fun k => { k with wdevt := k.wdevt + 1 }
        (w.wdtrap = false → exec (.watchdogFire core slot) s = .next (u.setWarp c.id wi fun x => { x with wdYield := true })) ∧
        (w.wdtrap = true → (w.threads.any fun t => t.run == .running && !t.inHandler) = true →
          exec (.watchdogFire core slot) s =
            .next ((List.range w.threads.length).foldl (fun v l => v.asyncTrap c.id wi l 0x16) u))) ∧
      (∀ (lane : Nat) (t : Thread), s.thread? c.id wi lane = some t → c.save = none → t.run = .running → t.inHandler = false → t.owed = false →
        (t.heldWatchdog = true → exec (.trapEntry core slot lane) s =
          .next ((s.setThread c.id wi lane fun x => { x with heldWatchdog := false }).trap c.id wi lane { cause := 0x16, pc := t.pc })) ∧
        (t.heldWatchdog = false → t.heldPreempt = true → exec (.trapEntry core slot lane) s =
          .next ((s.setThread c.id wi lane fun x => { x with heldPreempt := false }).trap c.id wi lane { cause := 0x18, pc := t.pc }))) ∧
      (∀ (line : VAddr) (u : State) (b : LineBits), (w.fbuf.any fun x => x.va == lineBase line) = false →
        (List.range w.threads.length).any (s.fetchHeld c.id wi) = false →
        s.readLine core (s.asidOf c) (lineBase line) = (u, .ok b) →
        exec (.fetchLineArrival core slot line) s = .next (u.buffer c.id wi ⟨lineBase line, b⟩)) ∧
      exec (.tstatPoisonClear core slot) s = .next (s.setWarp c.id wi fun w => { w with tstat := 0 }) ∧
      ∀ (join : Nat) (m : Mask), join < 8 →
        exec (.joinRegisterWrite core slot join m) s = .next (s.setWarp c.id wi fun w => w.setJoin join m)) ∧
    (∀ line, exec (.readRetry (.ecc line) false) s =
      .next ((s.setDie (s.homeOf (128 * line)).1 fun d => { d with hmevt := d.hmevt + 1 }).logErr 0 1
        (dieOrigin .hme (s.homeOf (128 * line)).1 0) (BitVec.ofNat 64 (s.paOf (128 * line))) 0 0)) ∧
    (∀ (n unit : Nat) (o : Op) (f : Fields) (str : Strength), s.op? n = some o → o.instr = .ld f str → o.started = true → o.fail = none →
      o.wait = .none → (∃ a ∈ o.acc, a.lane = unit ∧ a.done = false) → s.mayPerformLane o unit = true →
      exec (.readRetry (.read n unit) false) s =
        .next ((s.logErr 1 2 o.origin (o.unitAddr unit) o.launch 0).setDie (dieOfCore o.core) fun d => { d with hmevt := d.hmevt + 1 })) ∧
    (∀ core slot, exec (.readRetry (.fetch core slot) false) s =
      .next ((s.setCore core fun c => { c with fchevt := c.fchevt + 1 }).logErr 1 4 (coreOrigin .fch core 0) 0 0 0))

/-! ### Dispatchers, bins, tasks and recomputes -/

/-- 01 R24, R33, R35; 13 R375 to R382; 17 R484, R491: the dispatcher grants the cluster whose turn it is, or every cluster of
a co-resident launch at once, or the load of a saved crew; a crew that has ended is released; records reach bins, bins ask
when their timer expires and warps form from their oldest records; a refill moves an item from a queue to its bin. -/
def Obligations.DispatchersGrant : Prop :=
  ∀ s : State,
    (∀ (die n d : Nat) (k : Nat × Nat) (l : Launch), s.hostHead die = some (.cluster n) → s.launch? n = some l → l.cor = false →
      s.turnOf die .cluster = true → s.placeCluster l l.nextCl = some (d, k) →
      exec (.clusterDispatch die) s =
        .next ((s.startCluster n l.nextCl d k).setDie die fun x => { x with served := .cluster })) ∧
    (∀ (n : Nat) (l : Launch) (u : State), s.hostHead 0 = some (.cluster n) → s.launch? n = some l → l.cor = true →
      s.turnOf 0 .cluster = true → State.startAll 200 s n 0 = some u →
      exec .coresidentLaunchGrant s = .next (u.setDie 0 fun x => { x with served := .cluster })) ∧
    (∀ (n : Nat) (o : Op) (u : State), s.op? n = some o → o.wait = .grant → s.hostHead (dieOfCore o.core) = some (.load n) →
      s.turnOf (dieOfCore o.core) .cluster = true → s.grantCtxload o false = (u, true) →
      exec (.ctxloadGrant n false) s = .next (u.setDie (dieOfCore o.core) fun x => { x with served := .cluster })) ∧
    (∀ (n : Nat) (c : Crew), s.crew? n = some c → s.crewEnded c = true →
      (∀ core b, c.kind = .bin core b →
        exec (.crewRelease n) s = .next { s with crews := s.crews.filter fun c => c.id != n }) ∧
      (c.kind = .launch →
        exec (.crewRelease n) s = .next ({ s with crews := s.crews.filter fun c => c.id != n }.leaveRect c.launch c.cluster))) ∧
    (∀ (n : Nat) (o : Op) (a : LaneAcc) (f : Fields) (u : State), s.op? n = some o → o.instr = .spawn f → o.started = true →
      o.acc = [a] → a.done = false → a.fail = none → s.mayPerform o = true → s.earlierSpawn o a = false →
      s.recomputeOf (some o.crew) = none →
      s.deposit (o.targets.headD 0) o.launch (BitVec.ofNat 57 a.addr.toNat) a.data = some u →
      exec (.spawnRecordArrival n a.lane) s = .next (u.settle n .done)) ∧
    (∀ (core b : Nat), (s.bin core b).st = .holding → (s.bin core b).wait ≠ 0 → (s.bin core b).wait.toNat ≤ s.binTimer core b →
      exec (.binTimerExpiry core b) s =
        .next { (s.setBin core b fun x => { x with st := .forming, req := s.nextId }) with nextId := s.nextId + 1 }) ∧
    (∀ (die core b : Nat) (l : Launch), s.binHead die = some (core, b) → s.launch? (s.bin core b).owner = some l →
      s.turnOf die .bin = true →
      exec (.binWarpFormation die) s = .next ((s.formWarp core b l).setDie die fun x => { x with served := .bin })) ∧
    (∀ (die q : Nat) (u : State) (ps : List Part), s.refillOp? die q = none →
      let w := s.queue die q
      let b := s.bin w.core w.bin
      w.en = true → w.ready = [(w.head.toNat, true, false)] → w.count ≠ 0 → b.recs.length < w.low → b.owner = w.owner → b.st = .idle →
      s.reach (s.tbeWho die w.owner none) (w.item w.head.toNat) 16 false { r := true } = (u, .ok ps) → u.dies = s.dies → u.cores = s.cores →
      u.ops = s.ops → die < s.dies.length → q < (s.die die).queues.length →
      let v := u.setQueue die q fun x => { x with head := x.head + 1, ready := [] }
      exec (.queueRefill die q) s =
        .next ((v.deposit w.core w.owner b.entry (BitVec.ofNat 128 (leNat (u.readParts ps)))).getD v))

/-- 13 R387 to R394; 14 R399, R400, R410, R411, R420: a submission at the head of its stream enters the dependence table; the
chosen task starts; a running task whose crew has ended completes, and a poisoned one that waits completes without running; the
eviction of a line that L2 holds drops the PRESENT tile of an unpinned recipe, and a line of no tile is written back; a
queued recompute starts in its reserve and settles; a form of the recipe engine, a TRELEASE and a configuration that waited
go on. -/
def Obligations.TasksAndRecomputesGoOn : Prop :=
  ∀ s : State,
    (∀ (die n : Nat) (o : Op) (f : Fields), s.streamHead die n = some o → o.instr = .tsubmit f → o.wait = .none → o.parked = 0 →
      s.mayPerform o = true →
      exec (.taskEntry die n) s = .next (s.submit o die n)) ∧
    (∀ (die core : Nat) (t : Task), s.chosenTask die = some t → s.taskCore die t = some core → s.turnOf die .task = true →
      exec (.taskDispatch die) s = .next ((s.dispatchTask die t core).setDie die fun x => { x with served := .task })) ∧
    (∀ (die entry : Nat) (k : Task) (c : Crew), ((s.die die).tasks.find? fun k => k.entry == entry) = some k → k.st = .running →
      (k.crew.bind fun n => s.crew? n) = some c → s.crewEnded c = true → c.hasStopped = false →
      exec (.taskCompletion die entry) s = .next (s.completeTask die k c.poison)) ∧
    (∀ (die entry : Nat) (k : Task) (g : Word), ((s.die die).tasks.find? fun k => k.entry == entry) = some k → k.st = .waiting →
      s.taskPoison die k = some g →
      exec (.taskCompletion die entry) s = .next (s.completeTask die k (some (1, g)))) ∧
    (∀ (line : Nat), s.tileAt (line * 128) = none → (∀ e ∈ s.moved, e.1 ≠ line) → s.salvaged (line * 128) = none →
      exec (.l2LineEviction line) s =
        .next { s with resident := s.resident.filter (· != line), stale := s.stale.filter fun c => c.1 / 128 != line }) ∧
    (∀ (line : Nat) (t : Tile) (r : Recipe), line ∈ s.resident → s.tileAt (line * 128) = some t → t.st = .present →
      s.coverOf t = some r → r.ppin = 0 → r.rpin = 0 →
      exec (.l2LineEviction line) s =
        .next (let u := { s with resident := s.resident.filter (· != line) }.undefineFrame t.page
          { u with
            tiles := updWhere (fun x => x.page == t.page) (fun x => { x with st := .absent }) s.tiles
            resident := u.resident.filter fun k => u.frameOf (k * 128) != t.page })) ∧
    (∀ (die core : Nat) (q : Request) (r : Recipe) (l : Launch), s.nextRequest die = some q → s.recipe? die q.recipe = some r →
      s.reserveOf die r.stream = some (l, core) →
      exec (.recomputeDispatch die) s = .next (s.dispatchRecompute die q r l core)) ∧
    (∀ (die n : Nat) (q : Request) (r : Recipe) (c : Crew), ((s.die die).requests.find? fun q => q.recipe == n) = some q →
      s.recipe? die n = some r → (q.crew.bind fun k => s.crew? k) = some c → s.crewEnded c = true → s.recomputeFailure die r c = none →
      exec (.recomputeSettle die n) s = .next ((s.endRecompute c).recomputeDone die r q.pins)) ∧
    (∀ (n : Nat) (o : Op), s.op? n = some o → o.started = true → o.wait = .none → s.mayPerform o = true →
      (isRceForm o.instr = true → 2 ^ 57 ≤ o.arg 1 →
        exec (.tbeOperationSettle n) s = .next ((s.setOp n fun o => { o with queued := false }).poisonOp n 3)) ∧
      (∀ f, o.instr = .trelease f → (s.streamHead (dieOfCore o.core) (o.arg 0)).map Op.id = some n →
        exec (.tbeOperationSettle n) s =
          .next ((s.releaseHandle (dieOfCore o.core) (o.arg 0) (o.arg 1) o.launch).dropOp n)) ∧
      (∀ f, o.instr = .bincfg f → s.binWaits n o.core o.launch (o.arg 0) (o.arg 1) (o.arg 2) = false →
        exec (.tbeOperationSettle n) s = .next ((s.applyBin o.core o.launch (o.arg 0) (o.arg 1) (o.arg 2)).dropOp n)) ∧
      (∀ f, o.instr = .wqcfg f → s.queueBusy n (dieOfCore o.core) (o.arg 0) = false →
        exec (.tbeOperationSettle n) s = .next ((s.applyQueue o.core o.launch (o.arg 0) (o.arg 1) (o.arg 2)).dropOp n)))

/-! ### Saved crews -/

/-- 17 R483, R484, R488; 18 R501: when REMAIN of an open request reaches 0 a save into %ctxarea begins; the area of a captured
crew is written and the crew leaves for the save list of its launch; a launch whose work is done ends with REASON 0, and one
that was made to end when it has settled, with its REASON and the completion of the LAUNCHCTL.end. -/
def Obligations.SavesAndLaunchesEnd : Prop :=
  (∀ (s u v : State) (n : Nat) (c : Crew), s.crew? n = some c →
    (c.pend = true → c.remain = 0 → c.save = none → c.ctxarea.toNat % 4096 = 0 → c.ctxarea.toNat + c.area.size ≤ 2 ^ 57 →
      State.checkPages c ((c.area.size + 4095) / 4096) s c.ctxarea.toNat = (u, true) → v = u.settleEntries c →
      (∀ o ∈ v.ops, o.captured n = false) →
      exec (.preemptDeadlineExpiry n) s = .next (v.setCrew n fun c =>
        { c with save := some { base := c.ctxarea, forced := true, warp := 0, lanes := 0, status := .absent, discarded := 0 } })) ∧
    (∀ (sv : SaveSt) (ps : List Part), c.save = some sv → sv.forced = true → s.saveSettled c = true →
      s.reach (s.saveWho c) sv.base.toNat c.area.size true { w := true } = (u, .ok ps) → u.crew? n = some c →
      exec (.contextSaveWrite n false) s = .next ((u.writeParts ps (u.areaBytes c sv)).completeSave c sv))) ∧
  ∀ (s : State) (n : Nat) (l : Launch), s.launch? n = some l →
    (l.st = .running → s.endedAlone l = true → exec (.launchEnd n) s = .next (s.endLaunch n 0 none)) ∧
    ∀ reason tag, l.st = .ending reason tag → s.endSettled l = true → exec (.launchEnd n) s = .next (s.endLaunch n reason tag)

/-! ### The host's accesses and the homes -/

/-- 15 R432 to R440, R446 to R448: the host reads and writes device memory half by half, or waits in order of arrival where a
half is being recalled or switched, takes and gives back halves of SHARED regions, answers recalls or lets them time out; lines migrate and return; refreshes are postponed at most eight times; a die that fails is failed from then on. -/
def Obligations.HostAndHomeEvents : Prop :=
  ∀ s : State,
    (s.bar0.ready = true → ∀ half, half < 2 ^ 33 → s.hostRefused half = false → s.salvaged (half * 64) = none →
      (s.hostHeld (.read (half * 64) 64) s.nextId = false → s.isPoisoned (half * 64) 64 = false →
        exec (.hostCxlMemRead (half * 64) 64) s =
          .next ((s.hostTouch (half * 64)).emit (.hostData (s.bytes (half * 64) 64) false))) ∧
      (∀ bs, bs.length = 64 → s.hostHeld (.write (half * 64) bs false) s.nextId = false →
        exec (.hostCxlMemWrite (half * 64) bs false) s = .next ((s.hostTouch (half * 64)).store (half * 64) bs))) ∧
    (∀ a, s.hostInside a = true → s.hostHeld a s.nextId = true →
      s.hostAsks a = .next { s with hostWaits := s.hostWaits ++ [⟨s.nextId, a⟩], nextId := s.nextId + 1 }) ∧
    (s.bar0.ready = false → ∀ offset n, exec (.hostCxlMemRead offset n) s = .next (s.emit (.hostData [] true))) ∧
    (∀ half, s.bar0.ready = true → half < 2 ^ 33 → s.regionMode (half / 2 ^ 15) = .shared → s.hostHeld (.evict half) s.nextId = false →
      (s.halfAt half ≠ some .hx → s.hostRefused half = false →
        exec (.hostReadShared half) s = .next ((s.setHalf half (some .hs)).hostReadPart (half * 64) 64) ∧
        exec (.hostReadForOwnership half) s = .next ((s.setHalf half (some .hx)).hostReadPart (half * 64) 64)) ∧
      (∀ bs, s.halfAt half = some .hx → bs.length = 64 → s.hostRefused half = false → s.salvaged (half * 64) = none →
        exec (.hostWriteBack half bs) s = .next (((s.setHalf half none).hostTouch (half * 64)).store (half * 64) bs)) ∧
      exec (.hostCleanEviction half) s = .next (s.setHalf half none)) ∧
    (∀ half r, (s.recalls.find? fun r => r.half == half) = some r →
      (r.sent = 1 → ∃ u : State, exec (.recallTimeout half) s = .next (u.emit (.snoop half)) ∧
        u.recalls = updWhere (fun r => r.half == half) (fun r => { r with sent := 2 }) s.recalls) ∧
      (s.halfAt half = some .hs →
        exec (.recallResponse half none) s = .next ((s.setHalf half (if r.share then some .hs else none)).wakeRecall half)) ∧
      (∀ bs, s.halfAt half = some .hx → bs.length = 64 →
        exec (.recallResponse half (some bs)) s =
          .next (((s.store (half * 64) bs).setHalf half (if r.share then some .hs else none)).wakeRecall half))) ∧
    (∀ line die slice, s.mayMigrate line = true → die < 2 → slice < 48 → s.dieServes die = true →
      ¬ (die = keyDie (line * 128) ∧ slice = s.sliceOf line) →
      exec (.migration line die slice) s = .next (s.migrate line die slice)) ∧
    (∀ line, (s.moved.any fun e => e.1 == line) = true → exec (.migrationReturn line) s = .next (s.returnLine line)) ∧
    (∀ die sub bank, let k := bankKey sub bank
      let n := (cellGet k (s.die die).refresh).getD 0
      (n < 8 → exec (.bankRefresh die sub bank true) s = .next (s.setRefresh die k (n + 1))) ∧
      exec (.bankRefresh die sub bank false) s = .next (s.setRefresh die k 0) ∧
      exec (.aboAlert die sub bank) s = .next (s.setRefresh die k 0)) ∧
    (∀ die, die < 2 → (s.die die).failed = false → s.moved = [] → (s.die die).acts = [] → (∀ o ∈ s.ops, s.waitsOn die o = false) →
      (∀ c ∈ s.crews, dieOfCore c.core ≠ die) →
      exec (.dieFailure die) s = .next (State.logErr
        { (s.setDie die fun d => { d with failed := true, slices := List.replicate 48 {}, faults := [], v1 := [] }) with
          recalls := s.recalls.filter fun r => keyDie (r.half * 64) != die }
        2 13 (dieOrigin .hme die 0) 0 0 (BitVec.ofNat 64 die)))

/-! ### Registers, rings and the commands of Ublys -/

/-- 16 R462, R464, R466; 18 R495, R496: writes of %xlrp, %hmctl and the ring registers, the flush of a V1FMT record, a
shootdown whose accesses have drained, and the posting of a completion. -/
def Obligations.RegistersAndRings : Prop :=
  ∀ s : State,
    (∀ (die : Nat) (x : Word), (x - (s.die die).xlrp).toNat ≤ (s.die die).ringUse →
      exec (.xlrpWrite die (x.setWidth 64)) s = .next (s.writeXlrp die x)) ∧
    (∀ (die : Nat), exec (.hmctlWrite die true) s = .next (s.setDie die fun d => { d with migr := true })) ∧
    (∀ (x : DWord), 600 ≤ x.toNat → x.toNat ≤ 2400 →
      exec (.registerWrite (.bar0 0x48) x) s = .next (s.setBar fun b => { b with pwrCap := x.setWidth 12 })) ∧
    (∀ (x : Word), s.bar0.ready = true → (x - s.bar0.cplHead).toNat ≤ (s.bar0.cplTail - s.bar0.cplHead).toNat →
      exec (.cplheadWrite x) s = .next (s.setBar fun b => { b with cplHead := x })) ∧
    (∀ (die : Nat) (r : V1Rec) (rest : List V1Rec), (s.die die).v1 = r :: rest → (s.die die).ringUse < 4096 →
      exec (.v1RecordFlush die) s = .next ((s.setDie die fun d =>
        { d with v1 := rest, faults := updWhere r.holds (fun f => { f with seq := some (s.die die).xlwp.toNat }) d.faults }).ringWrite die r.words)) ∧
    (∀ (n : Nat) (o : Op) (f : Fields) (mode : TlbMode), s.op? n = some o → o.instr = .tlbsd f mode → o.started = true →
      s.mayPerform o = true → shootRefusal mode (o.arg 0) (o.arg 1) (o.arg 2) = none →
      s.drained (coverOfMode mode (o.arg 2) (o.arg 1) (o.arg 0)) n = true →
      exec (.tlbsdComplete n) s = .next ((s.shootdown (coverOfMode mode (o.arg 2) (o.arg 1) (o.arg 0))).settle n .done)) ∧
    (∀ (c : Completion) (rest : List Completion), s.completions = c :: rest → s.bar0.ready = true → s.bar0.full = false →
      exec .completionPost s = .next ((({ s with completions := rest }.store
          (hostMem + s.bar0.cplBase.toNat + 16 * (s.bar0.cplTail.toNat % 2 ^ s.bar0.cplSize.toNat)) c.bytes).setBar fun b =>
        { b with cplTail := b.cplTail + 1 }).emit (.msix (if c.event then 3 else 0))))

/-- 18 R496 to R503, R508 to R511: the commands of Ublys that pass their checks take effect and complete with STATUS 0; a
firmware item whose signature does not verify, or that is too old, completes with STATUS 8. -/
def Obligations.CommandsComplete : Prop :=
  ∀ (s : State) (c : Cmd), s.headCmd = some c → c.malformed = false →
    let answers (t : State) (result : Nat) : Host.Outcome State Fault Refusal :=
      .next ((t.setBar fun b => { b with cmdHead := b.cmdHead + 1 }).complete c.tag 0 result)
    (∀ r l u, c.opc = 1 → c.sub = 0 → c.word 1 % 64 = 0 → c.word 1 + 128 ≤ 2 ^ 51 → s.dieServes 0 = true →
      r = LRec.mk (s.wordsAt (hostMem + c.word 1) 16) →
      l = r.launch s.nextLaunch (s.nextAsid s.nextLaunch) s.nextId c.tag (s.placementOf r) (s.recipesOf r) →
      s.launchRefused r l = false → (s.rcmps.filter fun p => p.1 == l.asid) = [] →
      u = { s with launches := s.launches ++ [l], nextLaunch := s.nextLaunch + 1, nextId := s.nextId + 1 } →
      exec (.launch false) s = answers (u.needRoot l.asid).1 s.nextLaunch) ∧
    (∀ asid va pa bits code, c.opc = 2 → c.sub = 0 → asid = c.word 1 → va = c.word 2 → pa = c.word 3 → bits = c.word 4 % 512 →
      code = c.word 4 / 512 % 4 → c.word 5 = 1 → 1 ≤ asid → asid ≤ 4095 → va + pageBytes code ≤ 2 ^ 57 → pa + pageBytes code ≤ 2 ^ 52 →
      s.dieServes 0 = true → ((framesOf pa (pageBytes code)).all fun f => s.dieServes (frameDie f)) = true →
      s.tables + 5 ≤ Config.tableCount → s.pageRefused asid va pa code bits = false → s.launchOfAsid asid = none →
      exec (.map false) s = answers (s.mapPage asid va pa code bits) 0) ∧
    (∀ l, c.opc = 8 → c.sub = 1 → s.launch? (c.word 1) = some l → l.alive = true →
      (s.crews.any fun k => k.launch == l.num && k.save.isSome) = false →
      exec .launchctlEnd s =
        .next ((s.beginEnd l.num 1 (some c.tag)).setBar fun b => { b with cmdHead := b.cmdHead + 1 })) ∧
    (∀ l, c.opc = 8 → c.sub = 0 → c.word 2 < 2 ^ 32 → s.launch? (c.word 1) = some l → l.alive = true →
      (∀ k ∈ s.crews, k.launch ≠ l.num) →
      exec .launchctlPreempt s = answers (s.setLaunch l.num fun l => { l with st := .preempting }) 0) ∧
    (∀ l, c.opc = 8 → c.sub = 2 → s.launch? (c.word 1) = some l → l.st = .preempted → l.saves = [] → (∀ k ∈ s.crews, k.launch ≠ l.num) →
      exec .launchctlResume s = answers (s.setLaunch l.num fun l => { l with st := .running }) 0) ∧
    (c.opc = 2 → c.sub = 3 →
      exec .podWindowControl s = answers { s with podReplay := bitNat (c.word 1) 0, podV1fmt := bitNat (c.word 1) 1 } 0) ∧
    (∀ band m, c.opc = 2 → c.sub = 2 → band = c.word 1 % 32 → bandOfCode (c.word 1 / 256) = some m → s.dieServes (band / 16) = true →
      s.bandMapped band = false → touchesReserved (band * 2 ^ 34) (2 ^ 34) = false → s.bandOf (band * 2 ^ 34) ≠ m →
      exec .bandMode s = answers (s.setBand band (band * 2 ^ 34) m) 0) ∧
    (∀ u first last, c.opc = 2 → c.sub = 4 → 1 ≤ c.word 1 → c.word 1 ≤ 4095 → 1 ≤ c.word 3 → c.word 3 < 2 ^ 32 → c.word 2 + c.word 3 ≤ 2 ^ 57 →
      first = c.word 2 / 64 → last = (c.word 2 + c.word 3 - 1) / 64 →
      State.hostPublish (c.word 1) first last (last / 64 - first / 64 + 1) (last / 64 - first / 64 + 1) s (first / 64) = (u, 0) →
      exec (.codePublish false) s = answers u 0) ∧
    (∀ (n : Nat) (u : State), c.opc = 2 → c.sub = 1 → s.shoots = [] → 1 ≤ c.word 1 → c.word 1 ≤ 4095 → n = c.word 5 * pageBytes (c.word 4 / 512 % 4) →
      c.word 2 + n ≤ 2 ^ 57 → c.word 2 % pageBytes (c.word 4 / 512 % 4) = 0 → s.dieServes 0 = true →
      u = State.unmapFrom (c.word 1) (c.word 2 + n) (n / 4096 + 1) s (c.word 2) →
      exec .unmap s = .next ({ u with shoots := u.shoots ++ [HostShoot.mk c.tag true .va (c.word 1) (c.word 2) n] }.setBar fun b =>
        { b with cmdHead := b.cmdHead + 1 })) ∧
    (c.opc = 3 → c.sub = 2 → s.shoots = [] →
      exec .shootdown s = .next ({ s with shoots := [⟨c.tag, false, .all, c.word 3, c.word 2, c.word 1⟩] }.setBar fun b =>
        { b with cmdHead := b.cmdHead + 1 })) ∧
    (c.opc = 4 → c.sub = 1 → c.word 1 = 2 ^ 21 → c.word 2 % 2 ^ 21 = 0 → c.word 2 < 2 ^ 39 → s.dieServes (keyDie (c.word 2)) = true →
      s.bandOf (c.word 2) = .rowMajor →
      exec .region s = answers (s.setRegion (c.word 2 / 2 ^ 21) .shared) 0) ∧
    (∀ es, c.opc = 5 → c.sub = 0 → es = (s.errlog.filter fun e => c.word 2 ≤ e.seq).take (c.word 3) →
      c.word 1 + 32 * es.length ≤ 2 ^ 51 → s.dieServes 0 = true →
      exec .errlog s = answers (s.store (hostMem + c.word 1) (es.flatMap ErrEnt.bytes)) es.length) ∧
    (∀ msg, c.opc = 7 → c.sub = 0 → c.word 1 + 5532 ≤ 2 ^ 51 → s.secret = true → s.flash.q < 2 ^ 30 →
      msg = s.measurement [c.word 2, c.word 3, c.word 4, c.word 5] →
      exec (.attest false) s = answers ({ s with flash := { s.flash with q := s.flash.q + 1 } }.store (hostMem + c.word 1)
        (msg ++ (List.range 5396).map fun k => Config.attestSignature s.flash.q msg k)) 0) ∧
    (∀ bs good, c.opc = 9 → c.word 1 + c.word 2 ≤ 2 ^ 51 → bs = s.bytes (hostMem + c.word 1) (c.word 2) →
      let refuses : Host.Outcome State Fault Refusal := .next ((s.setBar fun b => { b with cmdHead := b.cmdHead + 1 }).complete c.tag 8 0)
      (c.sub = 0 → good = (Config.hssVerifies bs && s.flash.minImage ≤ Config.itemVersion bs % 2 ^ 32) →
        exec .fwloadImage s = if good then answers { s with flash := { s.flash with imageSha := Config.sha256 bs } } 0 else refuses) ∧
      (c.sub = 1 → good = (Config.hssVerifies bs && s.flash.minMap.getD (Config.itemDie bs % 2) 0 ≤ Config.itemVersion bs % 2 ^ 32) →
        exec .fwloadRepairMap s = if good then answers (s.loadMap bs (Config.itemDie bs % 2)) 0 else refuses))

/-- 18 R504 to R507, R512: a cold reset and power-up leave the module as it leaves the factory but for its flash, with HBM4E
zeroed, and READY; a warm reset discards what was not written back, keeps the error log, the mappings and launch numbers,
and ends every launch with REASON 2; the arithmetic clock moves by one step of 100 MHz between 700 and 2100. -/
def Obligations.ResetsAndThrottling : Prop :=
  ∀ (s : State) (tr : Training),
    (∀ i, i = .powerOn tr ∨ (i = .resetCold tr ∧ s.resetAsked 0 = true) → (∀ r ∈ s.undef, 2 ^ 39 < r.hi → 2 ^ 39 ≤ r.lo) →
      ∃ t, exec i s = .next t ∧ t.crews = [] ∧ t.ops = [] ∧ t.launches = [] ∧ t.errlog = [] ∧ t.roots = [] ∧ t.regions = [] ∧
        t.mdata = [] ∧ t.cores = State.reset.cores ∧ t.bar0 = { ready := true } ∧ t.flash = { s.flash with runSha := s.flash.imageSha } ∧
        ∀ k, k < 2 ^ 39 → memByte t.undef t.mem k = 0) ∧
    (s.resetAsked 1 = true → ∃ t, exec (.resetWarm tr) s = .next t ∧ t.crews = [] ∧ t.ops = [] ∧ t.launches = [] ∧
      t.errlog = s.errlog ∧ t.roots = s.roots ∧ t.nextLaunch = s.nextLaunch ∧ t.bar0 = { ready := true } ∧
      t.cores = State.reset.cores ∧ t.completions = s.launches.map s.warmEnd ∧ t.mem = s.dropDirty.mem ∧ t.stale = []) ∧
    ∀ power junction inlet, ∃ t, exec (.throttleStep power junction inlet) s = .next t ∧
      t.clock = (if s.bar0.pwrCap.toNat < power ∨ 95 < junction then max 700 (s.clock - 100) else min 2100 (s.clock + 100)) ∧
      t.bar0 = { s.bar0 with pwrNow := BitVec.ofNat 12 power, junction := BitVec.ofNat 8 junction, inlet := BitVec.ofNat 8 inlet } ∧
      t = { s with bar0 := t.bar0, clock := t.clock, errlog := t.errlog, errSeq := t.errSeq, completions := t.completions }

/-! ### Decoding, the step, and reset -/

/-- 02, 04 to 17: the slots that the spec writes out as examples decode to the instructions that it gives them. -/
def Obligations.SlotsOfTheSpecDecode : Prop :=
  let z : Opd := .vec 0
  decodeTableWord 96 0 = some (.nop (plainFields .none z z z z z)) ∧
  decodeTableWord 96 0x0100_0000_0000_0000_0000_0008 = some (.bra ⟨⟨false, 0⟩, ⟨false, 0⟩, 1, 0⟩) ∧
  decodeTableWord 96 0x0600_0000_0000_0000_0000_0707 = some (.sleep (plainFields .none z z z z (.ring 7)) false) ∧
  decodeTableWord 96 0x0700_0000_2202_204C_1060_6605 =
    some (.texport (plainFields .none (.uni 2) (.uni 4) (.imm 16) (.tok 6) (.tok 5)) .device false) ∧
  decodeTableWord 96 0x1400_0120_0001_0020_0300_4C96 = some (.btab (plainFields .b32 (.vec 1) (.vec 2) (.vec 3) (.vec 4) (.imm 0x96))) ∧
  decodeTableWord 96 0x3008_01C0_1004_0050_0600_7000 = some (.ffma (plainFields .f32 (.vec 4) (.vec 5) (.vec 6) (.vec 7) z) .rz) ∧
  decodeTableWord 96 0x5100_0120_3207_4020_0000_0000 = some (.poll (plainFields .b32 (.uni 7) (.pred 2) z z z) .mask false) ∧
  decodeTableWord 96 0x6100_0120_200D_00AC_BF60_0E00 = some (.st (plainFields .b32 (.vec 13) (.vec 10) (.imm 0xBF) (.tok 0) .absent) .rel) ∧
  decodeTableWord 96 0x8000_0000_0203_202C_7F60_4602 = some (.codepub (plainFields .none (.uni 3) (.uni 2) (.imm 0x7F) (.tok 4) (.tok 2))) ∧
  decodeTableWord 96 0x9100_0000_0844_8822_0660_3601 =
    some (.tload (plainFields .none (.tile .q 4) (.tile .h 2) (.uni 6) (.tok 3) (.tok 1)) false) ∧
  decodeTableWord 96 0x9200_0001_0208_8832_0960_5604 =
    some (.tstore (plainFields .none (.uni 8) (.tile .h 3) (.uni 9) (.tok 5) (.tok 4)) .add) ∧
  decodeTableWord 96 0xA100_01A0_0800_8402_0C60_570A =
    some (.mmag (plainFields .bf16 (.tile .a 0) (.tile .q 0) (.uni 12) (.tok 5) (.ring 10)) 0) ∧
  decodeTableWord 96 0xB100_0000_820B_2032_0560_5604 =
    some (.fstBlk (plainFields .none (.uni 11) (.uni 3) (.uni 5) (.tok 5) (.tok 4)) .relaxed false) ∧
  decodeTableWord 96 0xC000_0160_0004_202C_0160_3E00 = some (.spawn (plainFields .b128 (.vec 4) (.uni 2) (.imm 1) (.tok 3) .absent)) ∧
  decodeTableWord 96 0xCB00_0000_0208_2010_0060_3E00 = some (.rcdrop (plainFields .none (.uni 8) (.uni 1) z (.tok 3) .absent)) ∧
  decodeTableWord 96 0xD000_0000_0204_2022_0660_3E00 = some (.tlbsd (plainFields .none (.uni 4) (.uni 2) (.uni 6) (.tok 3) .absent) .va) ∧
  decodeTableWord 96 0xD300_0000_1204_2020_0060_3E00 = some (.rgnsw (plainFields .none (.uni 4) (.uni 2) z (.tok 3) .absent) .shared) ∧
  decodeTableWord 96 0xD400_0000_0209_2020_0000_0000 = some (.ctxsave (plainFields .none (.uni 9) (.uni 2) z z z)) ∧
  decodeTableWord 96 0xD500_0000_0204_2020_0060_3E00 = some (.ctxload (plainFields .none (.uni 4) (.uni 2) z (.tok 3) .absent))

/-- 02 R54 to R77: every well-formed instruction, with every operand and modifier, is read back from its slot, and no other
slot reads as it. -/
def Obligations.EncodingsReadBack : Prop :=
  (∀ i : Instr, i.wf = true → i.form ≠ none → ∃ w, encode i = some w ∧ decode w = some i) ∧
  ∀ (w : Slot) (i : Instr), decode w = some i → encode i = some w ∧ i.wf = true

/-- 04 R126, R127; 02 R79; log 1: when the next turn is the issue of a quadrant, whose cycle it opens where that is due, its
first warp can issue its first group, whose lanes hold a line and meet no cause and no fault of orders 1 to 6, and nothing
holds the instruction that the slot decodes to, a step is that instruction executed on that group, and then what follows
every act; an event turn is that event executed. -/
def Obligations.StepsRunTheDecodedInstruction : Prop :=
  ∀ (s : State) (turn : Turn) (rest : List Turn), s.agenda = turn :: rest →
    (∀ i, turn = .act i → i.form = none →
      step s = match exec i { s with agenda := rest } with | .next t => .next t.settleTurn | r => r) ∧
    ∀ (core q : Nat) (v : State) (c : Crew) (wi : Nat) (w : Warp) (ws : List (Crew × Nat × Warp)) (g : Group) (gs : List Group)
      (ln l2 : Line) (n : Nat) (v2 : State) (i : Instr) (I : Issue),
      turn = .issue core q → s.dieFailed (dieOfCore core) = false → v = { s with agenda := rest }.openCycle core q →
      v.quadOrder core q = (c, wi, w) :: ws → c.save = none → c.heldLoad = false → w.defers = false →
      v.choices c.id wi w = g :: gs → g.line = some ln → g.mask ≠ 0 →
      (∀ l ∈ lanesOf g.mask,
        (w.thread l).due = false ∧ (w.thread l).line = some ln ∧ v.entryHeld c.id wi l (w.thread l) = false) →
      (∀ l ∈ v.sharers c.id wi g.pc ln, (w.thread l).owed = false) →
      slotIndex g.pc = some n → v.checkSlot c.id wi ln n = (v2, .ok l2) → decode (slotOfLine l2.bits n) = some i →
      I.s = v2.holdLine c.id wi (maskOf (v.sharers c.id wi g.pc ln)) l2 false →
      I.i = i → i.form = some I.form → I.cid = c.id → I.wi = wi → I.s.crew? c.id = some I.crew → I.s.warp? c.id wi = some I.warp →
      I.mask = maskOf (v.sharers c.id wi g.pc ln) → I.act = guardMask I.warp I.mask I.form.body → I.pc = g.pc →
      let named : State := { I.s with cur := some ⟨c.id, wi, I.mask, g.pc⟩ }
      (orderChecks I.s I.crew I.warp I.mask I.pc i I.form = none → I.act ≠ 0 →
        I.hold (named.accepts i) = none ∧ (transfers i = true → ∀ l ∈ I.lanes, I.s.fetchHeld c.id wi l = false)) →
      step s = match exec i named with
        | .next t => .next (t.noteIssue v core q c.id wi w.slot I.mask (v.holds c.id wi w gs) (some i) w.wdYield).settleTurn
        | r => r

/-- Every step keeps the invariant: memory stays in its canonical form, the module keeps its cores, dies and bands, and the
arithmetic clock its steps. -/
def Obligations.StepsKeepTheInvariant : Prop := ∀ s t : State, s.Inv → step s = .next t → t.Inv

/-- The invariant holds at reset. -/
def Obligations.ResetMeetsTheInvariant : Prop := State.reset.Inv

/-- 18 R504, R506; 15 R432, R443: right after reset no launch, no crew and no operation exists, no command is taken, caches,
TLBs, queues, recipes and tiles are empty, every region is DEVICE and every band row-major, HBM4E reads 0, and the counters
of every core and die stand at 0. -/
def Obligations.ResetLeavesTheModuleEmpty : Prop :=
  let s := State.reset
  s.launches = [] ∧ s.crews = [] ∧ s.ops = [] ∧ s.errlog = [] ∧ s.tiles = [] ∧ s.code = [] ∧ s.bar0.ready = false ∧ s.headCmd = none ∧
  (∀ c ∈ s.cores, c.cyc = 0 ∧ c.wdevt = 0 ∧ c.fchevt = 0 ∧ c.cpevt = 0 ∧ c.mxevt = 0 ∧ c.fabevt = 0 ∧ c.dtlb = [] ∧ c.itlb = [] ∧
    c.wtlb = [] ∧ c.wards = [] ∧ c.mxe = .idle) ∧
  (∀ d ∈ s.dies, d.rcevt = 0 ∧ d.hmevt = 0 ∧ d.tlb = [] ∧ d.recipes = [] ∧ d.tasks = [] ∧ d.faults = []) ∧
  (∀ g, s.regionMode g = .dev) ∧ (∀ o, o < 2 ^ 39 → s.bandOf o = .rowMajor) ∧ ∀ k, memByte s.undef s.mem k = 0
end

