-- ==== Sys2Proof/Laws/State.lean ====
section
/-! SUPPORT. What each update of the state leaves alone: one lemma for each field that an update does not change, true by
`rfl`, so that no later proof unfolds a record update; and the field that it does change. -/

namespace Sys2Proof.Machine

/-! ### setDie -/

@[simp] theorem State.setDie_agenda (s : State) (n : Nat) (f : Die → Die) : (s.setDie n f).agenda = s.agenda := rfl
@[simp] theorem State.setDie_cur (s : State) (n : Nat) (f : Die → Die) : (s.setDie n f).cur = s.cur := rfl
@[simp] theorem State.setDie_nextId (s : State) (n : Nat) (f : Die → Die) : (s.setDie n f).nextId = s.nextId := rfl
@[simp] theorem State.setDie_freeCount (s : State) (n : Nat) (f : Die → Die) : (s.setDie n f).freeCount = s.freeCount := rfl
@[simp] theorem State.setDie_crews (s : State) (n : Nat) (f : Die → Die) : (s.setDie n f).crews = s.crews := rfl
@[simp] theorem State.setDie_ops (s : State) (n : Nat) (f : Die → Die) : (s.setDie n f).ops = s.ops := rfl
@[simp] theorem State.setDie_early (s : State) (n : Nat) (f : Die → Die) : (s.setDie n f).early = s.early := rfl
@[simp] theorem State.setDie_arrivals (s : State) (n : Nat) (f : Die → Die) : (s.setDie n f).arrivals = s.arrivals := rfl
@[simp] theorem State.setDie_launches (s : State) (n : Nat) (f : Die → Die) : (s.setDie n f).launches = s.launches := rfl
@[simp] theorem State.setDie_nextLaunch (s : State) (n : Nat) (f : Die → Die) : (s.setDie n f).nextLaunch = s.nextLaunch := rfl
@[simp] theorem State.setDie_cores (s : State) (n : Nat) (f : Die → Die) : (s.setDie n f).cores = s.cores := rfl
@[simp] theorem State.setDie_mem (s : State) (n : Nat) (f : Die → Die) : (s.setDie n f).mem = s.mem := rfl
@[simp] theorem State.setDie_undef (s : State) (n : Nat) (f : Die → Die) : (s.setDie n f).undef = s.undef := rfl
@[simp] theorem State.setDie_stale (s : State) (n : Nat) (f : Die → Die) : (s.setDie n f).stale = s.stale := rfl
@[simp] theorem State.setDie_mdata (s : State) (n : Nat) (f : Die → Die) : (s.setDie n f).mdata = s.mdata := rfl
@[simp] theorem State.setDie_grades (s : State) (n : Nat) (f : Die → Die) : (s.setDie n f).grades = s.grades := rfl
@[simp] theorem State.setDie_poisoned (s : State) (n : Nat) (f : Die → Die) : (s.setDie n f).poisoned = s.poisoned := rfl
@[simp] theorem State.setDie_code (s : State) (n : Nat) (f : Die → Die) : (s.setDie n f).code = s.code := rfl
@[simp] theorem State.setDie_xmaps (s : State) (n : Nat) (f : Die → Die) : (s.setDie n f).xmaps = s.xmaps := rfl
@[simp] theorem State.setDie_tiles (s : State) (n : Nat) (f : Die → Die) : (s.setDie n f).tiles = s.tiles := rfl
@[simp] theorem State.setDie_resident (s : State) (n : Nat) (f : Die → Die) : (s.setDie n f).resident = s.resident := rfl
@[simp] theorem State.setDie_rcmps (s : State) (n : Nat) (f : Die → Die) : (s.setDie n f).rcmps = s.rcmps := rfl
@[simp] theorem State.setDie_roots (s : State) (n : Nat) (f : Die → Die) : (s.setDie n f).roots = s.roots := rfl
@[simp] theorem State.setDie_tables (s : State) (n : Nat) (f : Die → Die) : (s.setDie n f).tables = s.tables := rfl
@[simp] theorem State.setDie_tick (s : State) (n : Nat) (f : Die → Die) : (s.setDie n f).tick = s.tick := rfl
@[simp] theorem State.setDie_podReplay (s : State) (n : Nat) (f : Die → Die) : (s.setDie n f).podReplay = s.podReplay := rfl
@[simp] theorem State.setDie_podV1fmt (s : State) (n : Nat) (f : Die → Die) : (s.setDie n f).podV1fmt = s.podV1fmt := rfl
@[simp] theorem State.setDie_regions (s : State) (n : Nat) (f : Die → Die) : (s.setDie n f).regions = s.regions := rfl
@[simp] theorem State.setDie_halves (s : State) (n : Nat) (f : Die → Die) : (s.setDie n f).halves = s.halves := rfl
@[simp] theorem State.setDie_recalls (s : State) (n : Nat) (f : Die → Die) : (s.setDie n f).recalls = s.recalls := rfl
@[simp] theorem State.setDie_hostWaits (s : State) (n : Nat) (f : Die → Die) : (s.setDie n f).hostWaits = s.hostWaits := rfl
@[simp] theorem State.setDie_bands (s : State) (n : Nat) (f : Die → Die) : (s.setDie n f).bands = s.bands := rfl
@[simp] theorem State.setDie_moved (s : State) (n : Nat) (f : Die → Die) : (s.setDie n f).moved = s.moved := rfl
@[simp] theorem State.setDie_tickets (s : State) (n : Nat) (f : Die → Die) : (s.setDie n f).tickets = s.tickets := rfl
@[simp] theorem State.setDie_reorder (s : State) (n : Nat) (f : Die → Die) : (s.setDie n f).reorder = s.reorder := rfl
@[simp] theorem State.setDie_seen (s : State) (n : Nat) (f : Die → Die) : (s.setDie n f).seen = s.seen := rfl
@[simp] theorem State.setDie_endpoint (s : State) (n : Nat) (f : Die → Die) : (s.setDie n f).endpoint = s.endpoint := rfl
@[simp] theorem State.setDie_podSize (s : State) (n : Nat) (f : Die → Die) : (s.setDie n f).podSize = s.podSize := rfl
@[simp] theorem State.setDie_vistitum (s : State) (n : Nat) (f : Die → Die) : (s.setDie n f).vistitum = s.vistitum := rfl
@[simp] theorem State.setDie_ports (s : State) (n : Nat) (f : Die → Die) : (s.setDie n f).ports = s.ports := rfl
@[simp] theorem State.setDie_bar0 (s : State) (n : Nat) (f : Die → Die) : (s.setDie n f).bar0 = s.bar0 := rfl
@[simp] theorem State.setDie_completions (s : State) (n : Nat) (f : Die → Die) : (s.setDie n f).completions = s.completions := rfl
@[simp] theorem State.setDie_shoots (s : State) (n : Nat) (f : Die → Die) : (s.setDie n f).shoots = s.shoots := rfl
@[simp] theorem State.setDie_errlog (s : State) (n : Nat) (f : Die → Die) : (s.setDie n f).errlog = s.errlog := rfl
@[simp] theorem State.setDie_errSeq (s : State) (n : Nat) (f : Die → Die) : (s.setDie n f).errSeq = s.errSeq := rfl
@[simp] theorem State.setDie_flash (s : State) (n : Nat) (f : Die → Die) : (s.setDie n f).flash = s.flash := rfl
@[simp] theorem State.setDie_secret (s : State) (n : Nat) (f : Die → Die) : (s.setDie n f).secret = s.secret := rfl
@[simp] theorem State.setDie_clock (s : State) (n : Nat) (f : Die → Die) : (s.setDie n f).clock = s.clock := rfl
@[simp] theorem State.setDie_outputs (s : State) (n : Nat) (f : Die → Die) : (s.setDie n f).outputs = s.outputs := rfl

/-! ### setCore -/

@[simp] theorem State.setCore_agenda (s : State) (n : Nat) (f : Core → Core) : (s.setCore n f).agenda = s.agenda := rfl
@[simp] theorem State.setCore_cur (s : State) (n : Nat) (f : Core → Core) : (s.setCore n f).cur = s.cur := rfl
@[simp] theorem State.setCore_nextId (s : State) (n : Nat) (f : Core → Core) : (s.setCore n f).nextId = s.nextId := rfl
@[simp] theorem State.setCore_freeCount (s : State) (n : Nat) (f : Core → Core) : (s.setCore n f).freeCount = s.freeCount := rfl
@[simp] theorem State.setCore_crews (s : State) (n : Nat) (f : Core → Core) : (s.setCore n f).crews = s.crews := rfl
@[simp] theorem State.setCore_ops (s : State) (n : Nat) (f : Core → Core) : (s.setCore n f).ops = s.ops := rfl
@[simp] theorem State.setCore_early (s : State) (n : Nat) (f : Core → Core) : (s.setCore n f).early = s.early := rfl
@[simp] theorem State.setCore_arrivals (s : State) (n : Nat) (f : Core → Core) : (s.setCore n f).arrivals = s.arrivals := rfl
@[simp] theorem State.setCore_launches (s : State) (n : Nat) (f : Core → Core) : (s.setCore n f).launches = s.launches := rfl
@[simp] theorem State.setCore_nextLaunch (s : State) (n : Nat) (f : Core → Core) : (s.setCore n f).nextLaunch = s.nextLaunch := rfl
@[simp] theorem State.setCore_dies (s : State) (n : Nat) (f : Core → Core) : (s.setCore n f).dies = s.dies := rfl
@[simp] theorem State.setCore_mem (s : State) (n : Nat) (f : Core → Core) : (s.setCore n f).mem = s.mem := rfl
@[simp] theorem State.setCore_undef (s : State) (n : Nat) (f : Core → Core) : (s.setCore n f).undef = s.undef := rfl
@[simp] theorem State.setCore_stale (s : State) (n : Nat) (f : Core → Core) : (s.setCore n f).stale = s.stale := rfl
@[simp] theorem State.setCore_mdata (s : State) (n : Nat) (f : Core → Core) : (s.setCore n f).mdata = s.mdata := rfl
@[simp] theorem State.setCore_grades (s : State) (n : Nat) (f : Core → Core) : (s.setCore n f).grades = s.grades := rfl
@[simp] theorem State.setCore_poisoned (s : State) (n : Nat) (f : Core → Core) : (s.setCore n f).poisoned = s.poisoned := rfl
@[simp] theorem State.setCore_code (s : State) (n : Nat) (f : Core → Core) : (s.setCore n f).code = s.code := rfl
@[simp] theorem State.setCore_xmaps (s : State) (n : Nat) (f : Core → Core) : (s.setCore n f).xmaps = s.xmaps := rfl
@[simp] theorem State.setCore_tiles (s : State) (n : Nat) (f : Core → Core) : (s.setCore n f).tiles = s.tiles := rfl
@[simp] theorem State.setCore_resident (s : State) (n : Nat) (f : Core → Core) : (s.setCore n f).resident = s.resident := rfl
@[simp] theorem State.setCore_rcmps (s : State) (n : Nat) (f : Core → Core) : (s.setCore n f).rcmps = s.rcmps := rfl
@[simp] theorem State.setCore_roots (s : State) (n : Nat) (f : Core → Core) : (s.setCore n f).roots = s.roots := rfl
@[simp] theorem State.setCore_tables (s : State) (n : Nat) (f : Core → Core) : (s.setCore n f).tables = s.tables := rfl
@[simp] theorem State.setCore_tick (s : State) (n : Nat) (f : Core → Core) : (s.setCore n f).tick = s.tick := rfl
@[simp] theorem State.setCore_podReplay (s : State) (n : Nat) (f : Core → Core) : (s.setCore n f).podReplay = s.podReplay := rfl
@[simp] theorem State.setCore_podV1fmt (s : State) (n : Nat) (f : Core → Core) : (s.setCore n f).podV1fmt = s.podV1fmt := rfl
@[simp] theorem State.setCore_regions (s : State) (n : Nat) (f : Core → Core) : (s.setCore n f).regions = s.regions := rfl
@[simp] theorem State.setCore_halves (s : State) (n : Nat) (f : Core → Core) : (s.setCore n f).halves = s.halves := rfl
@[simp] theorem State.setCore_recalls (s : State) (n : Nat) (f : Core → Core) : (s.setCore n f).recalls = s.recalls := rfl
@[simp] theorem State.setCore_hostWaits (s : State) (n : Nat) (f : Core → Core) : (s.setCore n f).hostWaits = s.hostWaits := rfl
@[simp] theorem State.setCore_bands (s : State) (n : Nat) (f : Core → Core) : (s.setCore n f).bands = s.bands := rfl
@[simp] theorem State.setCore_moved (s : State) (n : Nat) (f : Core → Core) : (s.setCore n f).moved = s.moved := rfl
@[simp] theorem State.setCore_tickets (s : State) (n : Nat) (f : Core → Core) : (s.setCore n f).tickets = s.tickets := rfl
@[simp] theorem State.setCore_reorder (s : State) (n : Nat) (f : Core → Core) : (s.setCore n f).reorder = s.reorder := rfl
@[simp] theorem State.setCore_seen (s : State) (n : Nat) (f : Core → Core) : (s.setCore n f).seen = s.seen := rfl
@[simp] theorem State.setCore_endpoint (s : State) (n : Nat) (f : Core → Core) : (s.setCore n f).endpoint = s.endpoint := rfl
@[simp] theorem State.setCore_podSize (s : State) (n : Nat) (f : Core → Core) : (s.setCore n f).podSize = s.podSize := rfl
@[simp] theorem State.setCore_vistitum (s : State) (n : Nat) (f : Core → Core) : (s.setCore n f).vistitum = s.vistitum := rfl
@[simp] theorem State.setCore_ports (s : State) (n : Nat) (f : Core → Core) : (s.setCore n f).ports = s.ports := rfl
@[simp] theorem State.setCore_bar0 (s : State) (n : Nat) (f : Core → Core) : (s.setCore n f).bar0 = s.bar0 := rfl
@[simp] theorem State.setCore_completions (s : State) (n : Nat) (f : Core → Core) : (s.setCore n f).completions = s.completions := rfl
@[simp] theorem State.setCore_shoots (s : State) (n : Nat) (f : Core → Core) : (s.setCore n f).shoots = s.shoots := rfl
@[simp] theorem State.setCore_errlog (s : State) (n : Nat) (f : Core → Core) : (s.setCore n f).errlog = s.errlog := rfl
@[simp] theorem State.setCore_errSeq (s : State) (n : Nat) (f : Core → Core) : (s.setCore n f).errSeq = s.errSeq := rfl
@[simp] theorem State.setCore_flash (s : State) (n : Nat) (f : Core → Core) : (s.setCore n f).flash = s.flash := rfl
@[simp] theorem State.setCore_secret (s : State) (n : Nat) (f : Core → Core) : (s.setCore n f).secret = s.secret := rfl
@[simp] theorem State.setCore_clock (s : State) (n : Nat) (f : Core → Core) : (s.setCore n f).clock = s.clock := rfl
@[simp] theorem State.setCore_outputs (s : State) (n : Nat) (f : Core → Core) : (s.setCore n f).outputs = s.outputs := rfl

/-! ### setCrew -/

@[simp] theorem State.setCrew_agenda (s : State) (id : Nat) (f : Crew → Crew) : (s.setCrew id f).agenda = s.agenda := rfl
@[simp] theorem State.setCrew_cur (s : State) (id : Nat) (f : Crew → Crew) : (s.setCrew id f).cur = s.cur := rfl
@[simp] theorem State.setCrew_nextId (s : State) (id : Nat) (f : Crew → Crew) : (s.setCrew id f).nextId = s.nextId := rfl
@[simp] theorem State.setCrew_freeCount (s : State) (id : Nat) (f : Crew → Crew) : (s.setCrew id f).freeCount = s.freeCount := rfl
@[simp] theorem State.setCrew_ops (s : State) (id : Nat) (f : Crew → Crew) : (s.setCrew id f).ops = s.ops := rfl
@[simp] theorem State.setCrew_early (s : State) (id : Nat) (f : Crew → Crew) : (s.setCrew id f).early = s.early := rfl
@[simp] theorem State.setCrew_arrivals (s : State) (id : Nat) (f : Crew → Crew) : (s.setCrew id f).arrivals = s.arrivals := rfl
@[simp] theorem State.setCrew_launches (s : State) (id : Nat) (f : Crew → Crew) : (s.setCrew id f).launches = s.launches := rfl
@[simp] theorem State.setCrew_nextLaunch (s : State) (id : Nat) (f : Crew → Crew) : (s.setCrew id f).nextLaunch = s.nextLaunch := rfl
@[simp] theorem State.setCrew_cores (s : State) (id : Nat) (f : Crew → Crew) : (s.setCrew id f).cores = s.cores := rfl
@[simp] theorem State.setCrew_dies (s : State) (id : Nat) (f : Crew → Crew) : (s.setCrew id f).dies = s.dies := rfl
@[simp] theorem State.setCrew_mem (s : State) (id : Nat) (f : Crew → Crew) : (s.setCrew id f).mem = s.mem := rfl
@[simp] theorem State.setCrew_undef (s : State) (id : Nat) (f : Crew → Crew) : (s.setCrew id f).undef = s.undef := rfl
@[simp] theorem State.setCrew_stale (s : State) (id : Nat) (f : Crew → Crew) : (s.setCrew id f).stale = s.stale := rfl
@[simp] theorem State.setCrew_mdata (s : State) (id : Nat) (f : Crew → Crew) : (s.setCrew id f).mdata = s.mdata := rfl
@[simp] theorem State.setCrew_grades (s : State) (id : Nat) (f : Crew → Crew) : (s.setCrew id f).grades = s.grades := rfl
@[simp] theorem State.setCrew_poisoned (s : State) (id : Nat) (f : Crew → Crew) : (s.setCrew id f).poisoned = s.poisoned := rfl
@[simp] theorem State.setCrew_code (s : State) (id : Nat) (f : Crew → Crew) : (s.setCrew id f).code = s.code := rfl
@[simp] theorem State.setCrew_xmaps (s : State) (id : Nat) (f : Crew → Crew) : (s.setCrew id f).xmaps = s.xmaps := rfl
@[simp] theorem State.setCrew_tiles (s : State) (id : Nat) (f : Crew → Crew) : (s.setCrew id f).tiles = s.tiles := rfl
@[simp] theorem State.setCrew_resident (s : State) (id : Nat) (f : Crew → Crew) : (s.setCrew id f).resident = s.resident := rfl
@[simp] theorem State.setCrew_rcmps (s : State) (id : Nat) (f : Crew → Crew) : (s.setCrew id f).rcmps = s.rcmps := rfl
@[simp] theorem State.setCrew_roots (s : State) (id : Nat) (f : Crew → Crew) : (s.setCrew id f).roots = s.roots := rfl
@[simp] theorem State.setCrew_tables (s : State) (id : Nat) (f : Crew → Crew) : (s.setCrew id f).tables = s.tables := rfl
@[simp] theorem State.setCrew_tick (s : State) (id : Nat) (f : Crew → Crew) : (s.setCrew id f).tick = s.tick := rfl
@[simp] theorem State.setCrew_podReplay (s : State) (id : Nat) (f : Crew → Crew) : (s.setCrew id f).podReplay = s.podReplay := rfl
@[simp] theorem State.setCrew_podV1fmt (s : State) (id : Nat) (f : Crew → Crew) : (s.setCrew id f).podV1fmt = s.podV1fmt := rfl
@[simp] theorem State.setCrew_regions (s : State) (id : Nat) (f : Crew → Crew) : (s.setCrew id f).regions = s.regions := rfl
@[simp] theorem State.setCrew_halves (s : State) (id : Nat) (f : Crew → Crew) : (s.setCrew id f).halves = s.halves := rfl
@[simp] theorem State.setCrew_recalls (s : State) (id : Nat) (f : Crew → Crew) : (s.setCrew id f).recalls = s.recalls := rfl
@[simp] theorem State.setCrew_hostWaits (s : State) (id : Nat) (f : Crew → Crew) : (s.setCrew id f).hostWaits = s.hostWaits := rfl
@[simp] theorem State.setCrew_bands (s : State) (id : Nat) (f : Crew → Crew) : (s.setCrew id f).bands = s.bands := rfl
@[simp] theorem State.setCrew_moved (s : State) (id : Nat) (f : Crew → Crew) : (s.setCrew id f).moved = s.moved := rfl
@[simp] theorem State.setCrew_tickets (s : State) (id : Nat) (f : Crew → Crew) : (s.setCrew id f).tickets = s.tickets := rfl
@[simp] theorem State.setCrew_reorder (s : State) (id : Nat) (f : Crew → Crew) : (s.setCrew id f).reorder = s.reorder := rfl
@[simp] theorem State.setCrew_seen (s : State) (id : Nat) (f : Crew → Crew) : (s.setCrew id f).seen = s.seen := rfl
@[simp] theorem State.setCrew_endpoint (s : State) (id : Nat) (f : Crew → Crew) : (s.setCrew id f).endpoint = s.endpoint := rfl
@[simp] theorem State.setCrew_podSize (s : State) (id : Nat) (f : Crew → Crew) : (s.setCrew id f).podSize = s.podSize := rfl
@[simp] theorem State.setCrew_vistitum (s : State) (id : Nat) (f : Crew → Crew) : (s.setCrew id f).vistitum = s.vistitum := rfl
@[simp] theorem State.setCrew_ports (s : State) (id : Nat) (f : Crew → Crew) : (s.setCrew id f).ports = s.ports := rfl
@[simp] theorem State.setCrew_bar0 (s : State) (id : Nat) (f : Crew → Crew) : (s.setCrew id f).bar0 = s.bar0 := rfl
@[simp] theorem State.setCrew_completions (s : State) (id : Nat) (f : Crew → Crew) : (s.setCrew id f).completions = s.completions := rfl
@[simp] theorem State.setCrew_shoots (s : State) (id : Nat) (f : Crew → Crew) : (s.setCrew id f).shoots = s.shoots := rfl
@[simp] theorem State.setCrew_errlog (s : State) (id : Nat) (f : Crew → Crew) : (s.setCrew id f).errlog = s.errlog := rfl
@[simp] theorem State.setCrew_errSeq (s : State) (id : Nat) (f : Crew → Crew) : (s.setCrew id f).errSeq = s.errSeq := rfl
@[simp] theorem State.setCrew_flash (s : State) (id : Nat) (f : Crew → Crew) : (s.setCrew id f).flash = s.flash := rfl
@[simp] theorem State.setCrew_secret (s : State) (id : Nat) (f : Crew → Crew) : (s.setCrew id f).secret = s.secret := rfl
@[simp] theorem State.setCrew_clock (s : State) (id : Nat) (f : Crew → Crew) : (s.setCrew id f).clock = s.clock := rfl
@[simp] theorem State.setCrew_outputs (s : State) (id : Nat) (f : Crew → Crew) : (s.setCrew id f).outputs = s.outputs := rfl

/-! ### setWarp -/

@[simp] theorem State.setWarp_agenda (s : State) (id w : Nat) (f : Warp → Warp) : (s.setWarp id w f).agenda = s.agenda := rfl
@[simp] theorem State.setWarp_cur (s : State) (id w : Nat) (f : Warp → Warp) : (s.setWarp id w f).cur = s.cur := rfl
@[simp] theorem State.setWarp_nextId (s : State) (id w : Nat) (f : Warp → Warp) : (s.setWarp id w f).nextId = s.nextId := rfl
@[simp] theorem State.setWarp_freeCount (s : State) (id w : Nat) (f : Warp → Warp) : (s.setWarp id w f).freeCount = s.freeCount := rfl
@[simp] theorem State.setWarp_ops (s : State) (id w : Nat) (f : Warp → Warp) : (s.setWarp id w f).ops = s.ops := rfl
@[simp] theorem State.setWarp_early (s : State) (id w : Nat) (f : Warp → Warp) : (s.setWarp id w f).early = s.early := rfl
@[simp] theorem State.setWarp_arrivals (s : State) (id w : Nat) (f : Warp → Warp) : (s.setWarp id w f).arrivals = s.arrivals := rfl
@[simp] theorem State.setWarp_launches (s : State) (id w : Nat) (f : Warp → Warp) : (s.setWarp id w f).launches = s.launches := rfl
@[simp] theorem State.setWarp_nextLaunch (s : State) (id w : Nat) (f : Warp → Warp) : (s.setWarp id w f).nextLaunch = s.nextLaunch := rfl
@[simp] theorem State.setWarp_cores (s : State) (id w : Nat) (f : Warp → Warp) : (s.setWarp id w f).cores = s.cores := rfl
@[simp] theorem State.setWarp_dies (s : State) (id w : Nat) (f : Warp → Warp) : (s.setWarp id w f).dies = s.dies := rfl
@[simp] theorem State.setWarp_mem (s : State) (id w : Nat) (f : Warp → Warp) : (s.setWarp id w f).mem = s.mem := rfl
@[simp] theorem State.setWarp_undef (s : State) (id w : Nat) (f : Warp → Warp) : (s.setWarp id w f).undef = s.undef := rfl
@[simp] theorem State.setWarp_stale (s : State) (id w : Nat) (f : Warp → Warp) : (s.setWarp id w f).stale = s.stale := rfl
@[simp] theorem State.setWarp_mdata (s : State) (id w : Nat) (f : Warp → Warp) : (s.setWarp id w f).mdata = s.mdata := rfl
@[simp] theorem State.setWarp_grades (s : State) (id w : Nat) (f : Warp → Warp) : (s.setWarp id w f).grades = s.grades := rfl
@[simp] theorem State.setWarp_poisoned (s : State) (id w : Nat) (f : Warp → Warp) : (s.setWarp id w f).poisoned = s.poisoned := rfl
@[simp] theorem State.setWarp_code (s : State) (id w : Nat) (f : Warp → Warp) : (s.setWarp id w f).code = s.code := rfl
@[simp] theorem State.setWarp_xmaps (s : State) (id w : Nat) (f : Warp → Warp) : (s.setWarp id w f).xmaps = s.xmaps := rfl
@[simp] theorem State.setWarp_tiles (s : State) (id w : Nat) (f : Warp → Warp) : (s.setWarp id w f).tiles = s.tiles := rfl
@[simp] theorem State.setWarp_resident (s : State) (id w : Nat) (f : Warp → Warp) : (s.setWarp id w f).resident = s.resident := rfl
@[simp] theorem State.setWarp_rcmps (s : State) (id w : Nat) (f : Warp → Warp) : (s.setWarp id w f).rcmps = s.rcmps := rfl
@[simp] theorem State.setWarp_roots (s : State) (id w : Nat) (f : Warp → Warp) : (s.setWarp id w f).roots = s.roots := rfl
@[simp] theorem State.setWarp_tables (s : State) (id w : Nat) (f : Warp → Warp) : (s.setWarp id w f).tables = s.tables := rfl
@[simp] theorem State.setWarp_tick (s : State) (id w : Nat) (f : Warp → Warp) : (s.setWarp id w f).tick = s.tick := rfl
@[simp] theorem State.setWarp_podReplay (s : State) (id w : Nat) (f : Warp → Warp) : (s.setWarp id w f).podReplay = s.podReplay := rfl
@[simp] theorem State.setWarp_podV1fmt (s : State) (id w : Nat) (f : Warp → Warp) : (s.setWarp id w f).podV1fmt = s.podV1fmt := rfl
@[simp] theorem State.setWarp_regions (s : State) (id w : Nat) (f : Warp → Warp) : (s.setWarp id w f).regions = s.regions := rfl
@[simp] theorem State.setWarp_halves (s : State) (id w : Nat) (f : Warp → Warp) : (s.setWarp id w f).halves = s.halves := rfl
@[simp] theorem State.setWarp_recalls (s : State) (id w : Nat) (f : Warp → Warp) : (s.setWarp id w f).recalls = s.recalls := rfl
@[simp] theorem State.setWarp_hostWaits (s : State) (id w : Nat) (f : Warp → Warp) : (s.setWarp id w f).hostWaits = s.hostWaits := rfl
@[simp] theorem State.setWarp_bands (s : State) (id w : Nat) (f : Warp → Warp) : (s.setWarp id w f).bands = s.bands := rfl
@[simp] theorem State.setWarp_moved (s : State) (id w : Nat) (f : Warp → Warp) : (s.setWarp id w f).moved = s.moved := rfl
@[simp] theorem State.setWarp_tickets (s : State) (id w : Nat) (f : Warp → Warp) : (s.setWarp id w f).tickets = s.tickets := rfl
@[simp] theorem State.setWarp_reorder (s : State) (id w : Nat) (f : Warp → Warp) : (s.setWarp id w f).reorder = s.reorder := rfl
@[simp] theorem State.setWarp_seen (s : State) (id w : Nat) (f : Warp → Warp) : (s.setWarp id w f).seen = s.seen := rfl
@[simp] theorem State.setWarp_endpoint (s : State) (id w : Nat) (f : Warp → Warp) : (s.setWarp id w f).endpoint = s.endpoint := rfl
@[simp] theorem State.setWarp_podSize (s : State) (id w : Nat) (f : Warp → Warp) : (s.setWarp id w f).podSize = s.podSize := rfl
@[simp] theorem State.setWarp_vistitum (s : State) (id w : Nat) (f : Warp → Warp) : (s.setWarp id w f).vistitum = s.vistitum := rfl
@[simp] theorem State.setWarp_ports (s : State) (id w : Nat) (f : Warp → Warp) : (s.setWarp id w f).ports = s.ports := rfl
@[simp] theorem State.setWarp_bar0 (s : State) (id w : Nat) (f : Warp → Warp) : (s.setWarp id w f).bar0 = s.bar0 := rfl
@[simp] theorem State.setWarp_completions (s : State) (id w : Nat) (f : Warp → Warp) : (s.setWarp id w f).completions = s.completions := rfl
@[simp] theorem State.setWarp_shoots (s : State) (id w : Nat) (f : Warp → Warp) : (s.setWarp id w f).shoots = s.shoots := rfl
@[simp] theorem State.setWarp_errlog (s : State) (id w : Nat) (f : Warp → Warp) : (s.setWarp id w f).errlog = s.errlog := rfl
@[simp] theorem State.setWarp_errSeq (s : State) (id w : Nat) (f : Warp → Warp) : (s.setWarp id w f).errSeq = s.errSeq := rfl
@[simp] theorem State.setWarp_flash (s : State) (id w : Nat) (f : Warp → Warp) : (s.setWarp id w f).flash = s.flash := rfl
@[simp] theorem State.setWarp_secret (s : State) (id w : Nat) (f : Warp → Warp) : (s.setWarp id w f).secret = s.secret := rfl
@[simp] theorem State.setWarp_clock (s : State) (id w : Nat) (f : Warp → Warp) : (s.setWarp id w f).clock = s.clock := rfl
@[simp] theorem State.setWarp_outputs (s : State) (id w : Nat) (f : Warp → Warp) : (s.setWarp id w f).outputs = s.outputs := rfl

/-! ### setThread -/

@[simp] theorem State.setThread_agenda (s : State) (id w l : Nat) (f : Thread → Thread) : (s.setThread id w l f).agenda = s.agenda := rfl
@[simp] theorem State.setThread_cur (s : State) (id w l : Nat) (f : Thread → Thread) : (s.setThread id w l f).cur = s.cur := rfl
@[simp] theorem State.setThread_nextId (s : State) (id w l : Nat) (f : Thread → Thread) : (s.setThread id w l f).nextId = s.nextId := rfl
@[simp] theorem State.setThread_freeCount (s : State) (id w l : Nat) (f : Thread → Thread) : (s.setThread id w l f).freeCount = s.freeCount := rfl
@[simp] theorem State.setThread_ops (s : State) (id w l : Nat) (f : Thread → Thread) : (s.setThread id w l f).ops = s.ops := rfl
@[simp] theorem State.setThread_early (s : State) (id w l : Nat) (f : Thread → Thread) : (s.setThread id w l f).early = s.early := rfl
@[simp] theorem State.setThread_arrivals (s : State) (id w l : Nat) (f : Thread → Thread) : (s.setThread id w l f).arrivals = s.arrivals := rfl
@[simp] theorem State.setThread_launches (s : State) (id w l : Nat) (f : Thread → Thread) : (s.setThread id w l f).launches = s.launches := rfl
@[simp] theorem State.setThread_nextLaunch (s : State) (id w l : Nat) (f : Thread → Thread) : (s.setThread id w l f).nextLaunch = s.nextLaunch := rfl
@[simp] theorem State.setThread_cores (s : State) (id w l : Nat) (f : Thread → Thread) : (s.setThread id w l f).cores = s.cores := rfl
@[simp] theorem State.setThread_dies (s : State) (id w l : Nat) (f : Thread → Thread) : (s.setThread id w l f).dies = s.dies := rfl
@[simp] theorem State.setThread_mem (s : State) (id w l : Nat) (f : Thread → Thread) : (s.setThread id w l f).mem = s.mem := rfl
@[simp] theorem State.setThread_undef (s : State) (id w l : Nat) (f : Thread → Thread) : (s.setThread id w l f).undef = s.undef := rfl
@[simp] theorem State.setThread_stale (s : State) (id w l : Nat) (f : Thread → Thread) : (s.setThread id w l f).stale = s.stale := rfl
@[simp] theorem State.setThread_mdata (s : State) (id w l : Nat) (f : Thread → Thread) : (s.setThread id w l f).mdata = s.mdata := rfl
@[simp] theorem State.setThread_grades (s : State) (id w l : Nat) (f : Thread → Thread) : (s.setThread id w l f).grades = s.grades := rfl
@[simp] theorem State.setThread_poisoned (s : State) (id w l : Nat) (f : Thread → Thread) : (s.setThread id w l f).poisoned = s.poisoned := rfl
@[simp] theorem State.setThread_code (s : State) (id w l : Nat) (f : Thread → Thread) : (s.setThread id w l f).code = s.code := rfl
@[simp] theorem State.setThread_xmaps (s : State) (id w l : Nat) (f : Thread → Thread) : (s.setThread id w l f).xmaps = s.xmaps := rfl
@[simp] theorem State.setThread_tiles (s : State) (id w l : Nat) (f : Thread → Thread) : (s.setThread id w l f).tiles = s.tiles := rfl
@[simp] theorem State.setThread_resident (s : State) (id w l : Nat) (f : Thread → Thread) : (s.setThread id w l f).resident = s.resident := rfl
@[simp] theorem State.setThread_rcmps (s : State) (id w l : Nat) (f : Thread → Thread) : (s.setThread id w l f).rcmps = s.rcmps := rfl
@[simp] theorem State.setThread_roots (s : State) (id w l : Nat) (f : Thread → Thread) : (s.setThread id w l f).roots = s.roots := rfl
@[simp] theorem State.setThread_tables (s : State) (id w l : Nat) (f : Thread → Thread) : (s.setThread id w l f).tables = s.tables := rfl
@[simp] theorem State.setThread_tick (s : State) (id w l : Nat) (f : Thread → Thread) : (s.setThread id w l f).tick = s.tick := rfl
@[simp] theorem State.setThread_podReplay (s : State) (id w l : Nat) (f : Thread → Thread) : (s.setThread id w l f).podReplay = s.podReplay := rfl
@[simp] theorem State.setThread_podV1fmt (s : State) (id w l : Nat) (f : Thread → Thread) : (s.setThread id w l f).podV1fmt = s.podV1fmt := rfl
@[simp] theorem State.setThread_regions (s : State) (id w l : Nat) (f : Thread → Thread) : (s.setThread id w l f).regions = s.regions := rfl
@[simp] theorem State.setThread_halves (s : State) (id w l : Nat) (f : Thread → Thread) : (s.setThread id w l f).halves = s.halves := rfl
@[simp] theorem State.setThread_recalls (s : State) (id w l : Nat) (f : Thread → Thread) : (s.setThread id w l f).recalls = s.recalls := rfl
@[simp] theorem State.setThread_hostWaits (s : State) (id w l : Nat) (f : Thread → Thread) : (s.setThread id w l f).hostWaits = s.hostWaits := rfl
@[simp] theorem State.setThread_bands (s : State) (id w l : Nat) (f : Thread → Thread) : (s.setThread id w l f).bands = s.bands := rfl
@[simp] theorem State.setThread_moved (s : State) (id w l : Nat) (f : Thread → Thread) : (s.setThread id w l f).moved = s.moved := rfl
@[simp] theorem State.setThread_tickets (s : State) (id w l : Nat) (f : Thread → Thread) : (s.setThread id w l f).tickets = s.tickets := rfl
@[simp] theorem State.setThread_reorder (s : State) (id w l : Nat) (f : Thread → Thread) : (s.setThread id w l f).reorder = s.reorder := rfl
@[simp] theorem State.setThread_seen (s : State) (id w l : Nat) (f : Thread → Thread) : (s.setThread id w l f).seen = s.seen := rfl
@[simp] theorem State.setThread_endpoint (s : State) (id w l : Nat) (f : Thread → Thread) : (s.setThread id w l f).endpoint = s.endpoint := rfl
@[simp] theorem State.setThread_podSize (s : State) (id w l : Nat) (f : Thread → Thread) : (s.setThread id w l f).podSize = s.podSize := rfl
@[simp] theorem State.setThread_vistitum (s : State) (id w l : Nat) (f : Thread → Thread) : (s.setThread id w l f).vistitum = s.vistitum := rfl
@[simp] theorem State.setThread_ports (s : State) (id w l : Nat) (f : Thread → Thread) : (s.setThread id w l f).ports = s.ports := rfl
@[simp] theorem State.setThread_bar0 (s : State) (id w l : Nat) (f : Thread → Thread) : (s.setThread id w l f).bar0 = s.bar0 := rfl
@[simp] theorem State.setThread_completions (s : State) (id w l : Nat) (f : Thread → Thread) : (s.setThread id w l f).completions = s.completions := rfl
@[simp] theorem State.setThread_shoots (s : State) (id w l : Nat) (f : Thread → Thread) : (s.setThread id w l f).shoots = s.shoots := rfl
@[simp] theorem State.setThread_errlog (s : State) (id w l : Nat) (f : Thread → Thread) : (s.setThread id w l f).errlog = s.errlog := rfl
@[simp] theorem State.setThread_errSeq (s : State) (id w l : Nat) (f : Thread → Thread) : (s.setThread id w l f).errSeq = s.errSeq := rfl
@[simp] theorem State.setThread_flash (s : State) (id w l : Nat) (f : Thread → Thread) : (s.setThread id w l f).flash = s.flash := rfl
@[simp] theorem State.setThread_secret (s : State) (id w l : Nat) (f : Thread → Thread) : (s.setThread id w l f).secret = s.secret := rfl
@[simp] theorem State.setThread_clock (s : State) (id w l : Nat) (f : Thread → Thread) : (s.setThread id w l f).clock = s.clock := rfl
@[simp] theorem State.setThread_outputs (s : State) (id w l : Nat) (f : Thread → Thread) : (s.setThread id w l f).outputs = s.outputs := rfl

/-! ### setOp -/

@[simp] theorem State.setOp_agenda (s : State) (id : Nat) (f : Op → Op) : (s.setOp id f).agenda = s.agenda := rfl
@[simp] theorem State.setOp_cur (s : State) (id : Nat) (f : Op → Op) : (s.setOp id f).cur = s.cur := rfl
@[simp] theorem State.setOp_nextId (s : State) (id : Nat) (f : Op → Op) : (s.setOp id f).nextId = s.nextId := rfl
@[simp] theorem State.setOp_freeCount (s : State) (id : Nat) (f : Op → Op) : (s.setOp id f).freeCount = s.freeCount := rfl
@[simp] theorem State.setOp_crews (s : State) (id : Nat) (f : Op → Op) : (s.setOp id f).crews = s.crews := rfl
@[simp] theorem State.setOp_early (s : State) (id : Nat) (f : Op → Op) : (s.setOp id f).early = s.early := rfl
@[simp] theorem State.setOp_arrivals (s : State) (id : Nat) (f : Op → Op) : (s.setOp id f).arrivals = s.arrivals := rfl
@[simp] theorem State.setOp_launches (s : State) (id : Nat) (f : Op → Op) : (s.setOp id f).launches = s.launches := rfl
@[simp] theorem State.setOp_nextLaunch (s : State) (id : Nat) (f : Op → Op) : (s.setOp id f).nextLaunch = s.nextLaunch := rfl
@[simp] theorem State.setOp_cores (s : State) (id : Nat) (f : Op → Op) : (s.setOp id f).cores = s.cores := rfl
@[simp] theorem State.setOp_dies (s : State) (id : Nat) (f : Op → Op) : (s.setOp id f).dies = s.dies := rfl
@[simp] theorem State.setOp_mem (s : State) (id : Nat) (f : Op → Op) : (s.setOp id f).mem = s.mem := rfl
@[simp] theorem State.setOp_undef (s : State) (id : Nat) (f : Op → Op) : (s.setOp id f).undef = s.undef := rfl
@[simp] theorem State.setOp_stale (s : State) (id : Nat) (f : Op → Op) : (s.setOp id f).stale = s.stale := rfl
@[simp] theorem State.setOp_mdata (s : State) (id : Nat) (f : Op → Op) : (s.setOp id f).mdata = s.mdata := rfl
@[simp] theorem State.setOp_grades (s : State) (id : Nat) (f : Op → Op) : (s.setOp id f).grades = s.grades := rfl
@[simp] theorem State.setOp_poisoned (s : State) (id : Nat) (f : Op → Op) : (s.setOp id f).poisoned = s.poisoned := rfl
@[simp] theorem State.setOp_code (s : State) (id : Nat) (f : Op → Op) : (s.setOp id f).code = s.code := rfl
@[simp] theorem State.setOp_xmaps (s : State) (id : Nat) (f : Op → Op) : (s.setOp id f).xmaps = s.xmaps := rfl
@[simp] theorem State.setOp_tiles (s : State) (id : Nat) (f : Op → Op) : (s.setOp id f).tiles = s.tiles := rfl
@[simp] theorem State.setOp_resident (s : State) (id : Nat) (f : Op → Op) : (s.setOp id f).resident = s.resident := rfl
@[simp] theorem State.setOp_rcmps (s : State) (id : Nat) (f : Op → Op) : (s.setOp id f).rcmps = s.rcmps := rfl
@[simp] theorem State.setOp_roots (s : State) (id : Nat) (f : Op → Op) : (s.setOp id f).roots = s.roots := rfl
@[simp] theorem State.setOp_tables (s : State) (id : Nat) (f : Op → Op) : (s.setOp id f).tables = s.tables := rfl
@[simp] theorem State.setOp_tick (s : State) (id : Nat) (f : Op → Op) : (s.setOp id f).tick = s.tick := rfl
@[simp] theorem State.setOp_podReplay (s : State) (id : Nat) (f : Op → Op) : (s.setOp id f).podReplay = s.podReplay := rfl
@[simp] theorem State.setOp_podV1fmt (s : State) (id : Nat) (f : Op → Op) : (s.setOp id f).podV1fmt = s.podV1fmt := rfl
@[simp] theorem State.setOp_regions (s : State) (id : Nat) (f : Op → Op) : (s.setOp id f).regions = s.regions := rfl
@[simp] theorem State.setOp_halves (s : State) (id : Nat) (f : Op → Op) : (s.setOp id f).halves = s.halves := rfl
@[simp] theorem State.setOp_recalls (s : State) (id : Nat) (f : Op → Op) : (s.setOp id f).recalls = s.recalls := rfl
@[simp] theorem State.setOp_hostWaits (s : State) (id : Nat) (f : Op → Op) : (s.setOp id f).hostWaits = s.hostWaits := rfl
@[simp] theorem State.setOp_bands (s : State) (id : Nat) (f : Op → Op) : (s.setOp id f).bands = s.bands := rfl
@[simp] theorem State.setOp_moved (s : State) (id : Nat) (f : Op → Op) : (s.setOp id f).moved = s.moved := rfl
@[simp] theorem State.setOp_tickets (s : State) (id : Nat) (f : Op → Op) : (s.setOp id f).tickets = s.tickets := rfl
@[simp] theorem State.setOp_reorder (s : State) (id : Nat) (f : Op → Op) : (s.setOp id f).reorder = s.reorder := rfl
@[simp] theorem State.setOp_seen (s : State) (id : Nat) (f : Op → Op) : (s.setOp id f).seen = s.seen := rfl
@[simp] theorem State.setOp_endpoint (s : State) (id : Nat) (f : Op → Op) : (s.setOp id f).endpoint = s.endpoint := rfl
@[simp] theorem State.setOp_podSize (s : State) (id : Nat) (f : Op → Op) : (s.setOp id f).podSize = s.podSize := rfl
@[simp] theorem State.setOp_vistitum (s : State) (id : Nat) (f : Op → Op) : (s.setOp id f).vistitum = s.vistitum := rfl
@[simp] theorem State.setOp_ports (s : State) (id : Nat) (f : Op → Op) : (s.setOp id f).ports = s.ports := rfl
@[simp] theorem State.setOp_bar0 (s : State) (id : Nat) (f : Op → Op) : (s.setOp id f).bar0 = s.bar0 := rfl
@[simp] theorem State.setOp_completions (s : State) (id : Nat) (f : Op → Op) : (s.setOp id f).completions = s.completions := rfl
@[simp] theorem State.setOp_shoots (s : State) (id : Nat) (f : Op → Op) : (s.setOp id f).shoots = s.shoots := rfl
@[simp] theorem State.setOp_errlog (s : State) (id : Nat) (f : Op → Op) : (s.setOp id f).errlog = s.errlog := rfl
@[simp] theorem State.setOp_errSeq (s : State) (id : Nat) (f : Op → Op) : (s.setOp id f).errSeq = s.errSeq := rfl
@[simp] theorem State.setOp_flash (s : State) (id : Nat) (f : Op → Op) : (s.setOp id f).flash = s.flash := rfl
@[simp] theorem State.setOp_secret (s : State) (id : Nat) (f : Op → Op) : (s.setOp id f).secret = s.secret := rfl
@[simp] theorem State.setOp_clock (s : State) (id : Nat) (f : Op → Op) : (s.setOp id f).clock = s.clock := rfl
@[simp] theorem State.setOp_outputs (s : State) (id : Nat) (f : Op → Op) : (s.setOp id f).outputs = s.outputs := rfl

/-! ### dropOp -/

@[simp] theorem State.dropOp_agenda (s : State) (id : Nat) : (s.dropOp id).agenda = s.agenda := rfl
@[simp] theorem State.dropOp_cur (s : State) (id : Nat) : (s.dropOp id).cur = s.cur := rfl
@[simp] theorem State.dropOp_nextId (s : State) (id : Nat) : (s.dropOp id).nextId = s.nextId := rfl
@[simp] theorem State.dropOp_freeCount (s : State) (id : Nat) : (s.dropOp id).freeCount = s.freeCount := rfl
@[simp] theorem State.dropOp_crews (s : State) (id : Nat) : (s.dropOp id).crews = s.crews := rfl
@[simp] theorem State.dropOp_early (s : State) (id : Nat) : (s.dropOp id).early = s.early := rfl
@[simp] theorem State.dropOp_arrivals (s : State) (id : Nat) : (s.dropOp id).arrivals = s.arrivals := rfl
@[simp] theorem State.dropOp_launches (s : State) (id : Nat) : (s.dropOp id).launches = s.launches := rfl
@[simp] theorem State.dropOp_nextLaunch (s : State) (id : Nat) : (s.dropOp id).nextLaunch = s.nextLaunch := rfl
@[simp] theorem State.dropOp_cores (s : State) (id : Nat) : (s.dropOp id).cores = s.cores := rfl
@[simp] theorem State.dropOp_dies (s : State) (id : Nat) : (s.dropOp id).dies = s.dies := rfl
@[simp] theorem State.dropOp_mem (s : State) (id : Nat) : (s.dropOp id).mem = s.mem := rfl
@[simp] theorem State.dropOp_undef (s : State) (id : Nat) : (s.dropOp id).undef = s.undef := rfl
@[simp] theorem State.dropOp_stale (s : State) (id : Nat) : (s.dropOp id).stale = s.stale := rfl
@[simp] theorem State.dropOp_mdata (s : State) (id : Nat) : (s.dropOp id).mdata = s.mdata := rfl
@[simp] theorem State.dropOp_grades (s : State) (id : Nat) : (s.dropOp id).grades = s.grades := rfl
@[simp] theorem State.dropOp_poisoned (s : State) (id : Nat) : (s.dropOp id).poisoned = s.poisoned := rfl
@[simp] theorem State.dropOp_code (s : State) (id : Nat) : (s.dropOp id).code = s.code := rfl
@[simp] theorem State.dropOp_xmaps (s : State) (id : Nat) : (s.dropOp id).xmaps = s.xmaps := rfl
@[simp] theorem State.dropOp_tiles (s : State) (id : Nat) : (s.dropOp id).tiles = s.tiles := rfl
@[simp] theorem State.dropOp_resident (s : State) (id : Nat) : (s.dropOp id).resident = s.resident := rfl
@[simp] theorem State.dropOp_rcmps (s : State) (id : Nat) : (s.dropOp id).rcmps = s.rcmps := rfl
@[simp] theorem State.dropOp_roots (s : State) (id : Nat) : (s.dropOp id).roots = s.roots := rfl
@[simp] theorem State.dropOp_tables (s : State) (id : Nat) : (s.dropOp id).tables = s.tables := rfl
@[simp] theorem State.dropOp_tick (s : State) (id : Nat) : (s.dropOp id).tick = s.tick := rfl
@[simp] theorem State.dropOp_podReplay (s : State) (id : Nat) : (s.dropOp id).podReplay = s.podReplay := rfl
@[simp] theorem State.dropOp_podV1fmt (s : State) (id : Nat) : (s.dropOp id).podV1fmt = s.podV1fmt := rfl
@[simp] theorem State.dropOp_regions (s : State) (id : Nat) : (s.dropOp id).regions = s.regions := rfl
@[simp] theorem State.dropOp_halves (s : State) (id : Nat) : (s.dropOp id).halves = s.halves := rfl
@[simp] theorem State.dropOp_recalls (s : State) (id : Nat) : (s.dropOp id).recalls = s.recalls := rfl
@[simp] theorem State.dropOp_hostWaits (s : State) (id : Nat) : (s.dropOp id).hostWaits = s.hostWaits := rfl
@[simp] theorem State.dropOp_bands (s : State) (id : Nat) : (s.dropOp id).bands = s.bands := rfl
@[simp] theorem State.dropOp_moved (s : State) (id : Nat) : (s.dropOp id).moved = s.moved := rfl
@[simp] theorem State.dropOp_tickets (s : State) (id : Nat) : (s.dropOp id).tickets = s.tickets := rfl
@[simp] theorem State.dropOp_reorder (s : State) (id : Nat) : (s.dropOp id).reorder = s.reorder := rfl
@[simp] theorem State.dropOp_seen (s : State) (id : Nat) : (s.dropOp id).seen = s.seen := rfl
@[simp] theorem State.dropOp_endpoint (s : State) (id : Nat) : (s.dropOp id).endpoint = s.endpoint := rfl
@[simp] theorem State.dropOp_podSize (s : State) (id : Nat) : (s.dropOp id).podSize = s.podSize := rfl
@[simp] theorem State.dropOp_vistitum (s : State) (id : Nat) : (s.dropOp id).vistitum = s.vistitum := rfl
@[simp] theorem State.dropOp_ports (s : State) (id : Nat) : (s.dropOp id).ports = s.ports := rfl
@[simp] theorem State.dropOp_bar0 (s : State) (id : Nat) : (s.dropOp id).bar0 = s.bar0 := rfl
@[simp] theorem State.dropOp_completions (s : State) (id : Nat) : (s.dropOp id).completions = s.completions := rfl
@[simp] theorem State.dropOp_shoots (s : State) (id : Nat) : (s.dropOp id).shoots = s.shoots := rfl
@[simp] theorem State.dropOp_errlog (s : State) (id : Nat) : (s.dropOp id).errlog = s.errlog := rfl
@[simp] theorem State.dropOp_errSeq (s : State) (id : Nat) : (s.dropOp id).errSeq = s.errSeq := rfl
@[simp] theorem State.dropOp_flash (s : State) (id : Nat) : (s.dropOp id).flash = s.flash := rfl
@[simp] theorem State.dropOp_secret (s : State) (id : Nat) : (s.dropOp id).secret = s.secret := rfl
@[simp] theorem State.dropOp_clock (s : State) (id : Nat) : (s.dropOp id).clock = s.clock := rfl
@[simp] theorem State.dropOp_outputs (s : State) (id : Nat) : (s.dropOp id).outputs = s.outputs := rfl

/-! ### setLane -/

@[simp] theorem State.setLane_agenda (s : State) (id l : Nat) (f : LaneAcc → LaneAcc) : (s.setLane id l f).agenda = s.agenda := rfl
@[simp] theorem State.setLane_cur (s : State) (id l : Nat) (f : LaneAcc → LaneAcc) : (s.setLane id l f).cur = s.cur := rfl
@[simp] theorem State.setLane_nextId (s : State) (id l : Nat) (f : LaneAcc → LaneAcc) : (s.setLane id l f).nextId = s.nextId := rfl
@[simp] theorem State.setLane_freeCount (s : State) (id l : Nat) (f : LaneAcc → LaneAcc) : (s.setLane id l f).freeCount = s.freeCount := rfl
@[simp] theorem State.setLane_crews (s : State) (id l : Nat) (f : LaneAcc → LaneAcc) : (s.setLane id l f).crews = s.crews := rfl
@[simp] theorem State.setLane_early (s : State) (id l : Nat) (f : LaneAcc → LaneAcc) : (s.setLane id l f).early = s.early := rfl
@[simp] theorem State.setLane_arrivals (s : State) (id l : Nat) (f : LaneAcc → LaneAcc) : (s.setLane id l f).arrivals = s.arrivals := rfl
@[simp] theorem State.setLane_launches (s : State) (id l : Nat) (f : LaneAcc → LaneAcc) : (s.setLane id l f).launches = s.launches := rfl
@[simp] theorem State.setLane_nextLaunch (s : State) (id l : Nat) (f : LaneAcc → LaneAcc) : (s.setLane id l f).nextLaunch = s.nextLaunch := rfl
@[simp] theorem State.setLane_cores (s : State) (id l : Nat) (f : LaneAcc → LaneAcc) : (s.setLane id l f).cores = s.cores := rfl
@[simp] theorem State.setLane_dies (s : State) (id l : Nat) (f : LaneAcc → LaneAcc) : (s.setLane id l f).dies = s.dies := rfl
@[simp] theorem State.setLane_mem (s : State) (id l : Nat) (f : LaneAcc → LaneAcc) : (s.setLane id l f).mem = s.mem := rfl
@[simp] theorem State.setLane_undef (s : State) (id l : Nat) (f : LaneAcc → LaneAcc) : (s.setLane id l f).undef = s.undef := rfl
@[simp] theorem State.setLane_stale (s : State) (id l : Nat) (f : LaneAcc → LaneAcc) : (s.setLane id l f).stale = s.stale := rfl
@[simp] theorem State.setLane_mdata (s : State) (id l : Nat) (f : LaneAcc → LaneAcc) : (s.setLane id l f).mdata = s.mdata := rfl
@[simp] theorem State.setLane_grades (s : State) (id l : Nat) (f : LaneAcc → LaneAcc) : (s.setLane id l f).grades = s.grades := rfl
@[simp] theorem State.setLane_poisoned (s : State) (id l : Nat) (f : LaneAcc → LaneAcc) : (s.setLane id l f).poisoned = s.poisoned := rfl
@[simp] theorem State.setLane_code (s : State) (id l : Nat) (f : LaneAcc → LaneAcc) : (s.setLane id l f).code = s.code := rfl
@[simp] theorem State.setLane_xmaps (s : State) (id l : Nat) (f : LaneAcc → LaneAcc) : (s.setLane id l f).xmaps = s.xmaps := rfl
@[simp] theorem State.setLane_tiles (s : State) (id l : Nat) (f : LaneAcc → LaneAcc) : (s.setLane id l f).tiles = s.tiles := rfl
@[simp] theorem State.setLane_resident (s : State) (id l : Nat) (f : LaneAcc → LaneAcc) : (s.setLane id l f).resident = s.resident := rfl
@[simp] theorem State.setLane_rcmps (s : State) (id l : Nat) (f : LaneAcc → LaneAcc) : (s.setLane id l f).rcmps = s.rcmps := rfl
@[simp] theorem State.setLane_roots (s : State) (id l : Nat) (f : LaneAcc → LaneAcc) : (s.setLane id l f).roots = s.roots := rfl
@[simp] theorem State.setLane_tables (s : State) (id l : Nat) (f : LaneAcc → LaneAcc) : (s.setLane id l f).tables = s.tables := rfl
@[simp] theorem State.setLane_tick (s : State) (id l : Nat) (f : LaneAcc → LaneAcc) : (s.setLane id l f).tick = s.tick := rfl
@[simp] theorem State.setLane_podReplay (s : State) (id l : Nat) (f : LaneAcc → LaneAcc) : (s.setLane id l f).podReplay = s.podReplay := rfl
@[simp] theorem State.setLane_podV1fmt (s : State) (id l : Nat) (f : LaneAcc → LaneAcc) : (s.setLane id l f).podV1fmt = s.podV1fmt := rfl
@[simp] theorem State.setLane_regions (s : State) (id l : Nat) (f : LaneAcc → LaneAcc) : (s.setLane id l f).regions = s.regions := rfl
@[simp] theorem State.setLane_halves (s : State) (id l : Nat) (f : LaneAcc → LaneAcc) : (s.setLane id l f).halves = s.halves := rfl
@[simp] theorem State.setLane_recalls (s : State) (id l : Nat) (f : LaneAcc → LaneAcc) : (s.setLane id l f).recalls = s.recalls := rfl
@[simp] theorem State.setLane_hostWaits (s : State) (id l : Nat) (f : LaneAcc → LaneAcc) : (s.setLane id l f).hostWaits = s.hostWaits := rfl
@[simp] theorem State.setLane_bands (s : State) (id l : Nat) (f : LaneAcc → LaneAcc) : (s.setLane id l f).bands = s.bands := rfl
@[simp] theorem State.setLane_moved (s : State) (id l : Nat) (f : LaneAcc → LaneAcc) : (s.setLane id l f).moved = s.moved := rfl
@[simp] theorem State.setLane_tickets (s : State) (id l : Nat) (f : LaneAcc → LaneAcc) : (s.setLane id l f).tickets = s.tickets := rfl
@[simp] theorem State.setLane_reorder (s : State) (id l : Nat) (f : LaneAcc → LaneAcc) : (s.setLane id l f).reorder = s.reorder := rfl
@[simp] theorem State.setLane_seen (s : State) (id l : Nat) (f : LaneAcc → LaneAcc) : (s.setLane id l f).seen = s.seen := rfl
@[simp] theorem State.setLane_endpoint (s : State) (id l : Nat) (f : LaneAcc → LaneAcc) : (s.setLane id l f).endpoint = s.endpoint := rfl
@[simp] theorem State.setLane_podSize (s : State) (id l : Nat) (f : LaneAcc → LaneAcc) : (s.setLane id l f).podSize = s.podSize := rfl
@[simp] theorem State.setLane_vistitum (s : State) (id l : Nat) (f : LaneAcc → LaneAcc) : (s.setLane id l f).vistitum = s.vistitum := rfl
@[simp] theorem State.setLane_ports (s : State) (id l : Nat) (f : LaneAcc → LaneAcc) : (s.setLane id l f).ports = s.ports := rfl
@[simp] theorem State.setLane_bar0 (s : State) (id l : Nat) (f : LaneAcc → LaneAcc) : (s.setLane id l f).bar0 = s.bar0 := rfl
@[simp] theorem State.setLane_completions (s : State) (id l : Nat) (f : LaneAcc → LaneAcc) : (s.setLane id l f).completions = s.completions := rfl
@[simp] theorem State.setLane_shoots (s : State) (id l : Nat) (f : LaneAcc → LaneAcc) : (s.setLane id l f).shoots = s.shoots := rfl
@[simp] theorem State.setLane_errlog (s : State) (id l : Nat) (f : LaneAcc → LaneAcc) : (s.setLane id l f).errlog = s.errlog := rfl
@[simp] theorem State.setLane_errSeq (s : State) (id l : Nat) (f : LaneAcc → LaneAcc) : (s.setLane id l f).errSeq = s.errSeq := rfl
@[simp] theorem State.setLane_flash (s : State) (id l : Nat) (f : LaneAcc → LaneAcc) : (s.setLane id l f).flash = s.flash := rfl
@[simp] theorem State.setLane_secret (s : State) (id l : Nat) (f : LaneAcc → LaneAcc) : (s.setLane id l f).secret = s.secret := rfl
@[simp] theorem State.setLane_clock (s : State) (id l : Nat) (f : LaneAcc → LaneAcc) : (s.setLane id l f).clock = s.clock := rfl
@[simp] theorem State.setLane_outputs (s : State) (id l : Nat) (f : LaneAcc → LaneAcc) : (s.setLane id l f).outputs = s.outputs := rfl

/-! ### setLaunch -/

@[simp] theorem State.setLaunch_agenda (s : State) (n : Nat) (f : Launch → Launch) : (s.setLaunch n f).agenda = s.agenda := rfl
@[simp] theorem State.setLaunch_cur (s : State) (n : Nat) (f : Launch → Launch) : (s.setLaunch n f).cur = s.cur := rfl
@[simp] theorem State.setLaunch_nextId (s : State) (n : Nat) (f : Launch → Launch) : (s.setLaunch n f).nextId = s.nextId := rfl
@[simp] theorem State.setLaunch_freeCount (s : State) (n : Nat) (f : Launch → Launch) : (s.setLaunch n f).freeCount = s.freeCount := rfl
@[simp] theorem State.setLaunch_crews (s : State) (n : Nat) (f : Launch → Launch) : (s.setLaunch n f).crews = s.crews := rfl
@[simp] theorem State.setLaunch_ops (s : State) (n : Nat) (f : Launch → Launch) : (s.setLaunch n f).ops = s.ops := rfl
@[simp] theorem State.setLaunch_early (s : State) (n : Nat) (f : Launch → Launch) : (s.setLaunch n f).early = s.early := rfl
@[simp] theorem State.setLaunch_arrivals (s : State) (n : Nat) (f : Launch → Launch) : (s.setLaunch n f).arrivals = s.arrivals := rfl
@[simp] theorem State.setLaunch_nextLaunch (s : State) (n : Nat) (f : Launch → Launch) : (s.setLaunch n f).nextLaunch = s.nextLaunch := rfl
@[simp] theorem State.setLaunch_cores (s : State) (n : Nat) (f : Launch → Launch) : (s.setLaunch n f).cores = s.cores := rfl
@[simp] theorem State.setLaunch_dies (s : State) (n : Nat) (f : Launch → Launch) : (s.setLaunch n f).dies = s.dies := rfl
@[simp] theorem State.setLaunch_mem (s : State) (n : Nat) (f : Launch → Launch) : (s.setLaunch n f).mem = s.mem := rfl
@[simp] theorem State.setLaunch_undef (s : State) (n : Nat) (f : Launch → Launch) : (s.setLaunch n f).undef = s.undef := rfl
@[simp] theorem State.setLaunch_stale (s : State) (n : Nat) (f : Launch → Launch) : (s.setLaunch n f).stale = s.stale := rfl
@[simp] theorem State.setLaunch_mdata (s : State) (n : Nat) (f : Launch → Launch) : (s.setLaunch n f).mdata = s.mdata := rfl
@[simp] theorem State.setLaunch_grades (s : State) (n : Nat) (f : Launch → Launch) : (s.setLaunch n f).grades = s.grades := rfl
@[simp] theorem State.setLaunch_poisoned (s : State) (n : Nat) (f : Launch → Launch) : (s.setLaunch n f).poisoned = s.poisoned := rfl
@[simp] theorem State.setLaunch_code (s : State) (n : Nat) (f : Launch → Launch) : (s.setLaunch n f).code = s.code := rfl
@[simp] theorem State.setLaunch_xmaps (s : State) (n : Nat) (f : Launch → Launch) : (s.setLaunch n f).xmaps = s.xmaps := rfl
@[simp] theorem State.setLaunch_tiles (s : State) (n : Nat) (f : Launch → Launch) : (s.setLaunch n f).tiles = s.tiles := rfl
@[simp] theorem State.setLaunch_resident (s : State) (n : Nat) (f : Launch → Launch) : (s.setLaunch n f).resident = s.resident := rfl
@[simp] theorem State.setLaunch_rcmps (s : State) (n : Nat) (f : Launch → Launch) : (s.setLaunch n f).rcmps = s.rcmps := rfl
@[simp] theorem State.setLaunch_roots (s : State) (n : Nat) (f : Launch → Launch) : (s.setLaunch n f).roots = s.roots := rfl
@[simp] theorem State.setLaunch_tables (s : State) (n : Nat) (f : Launch → Launch) : (s.setLaunch n f).tables = s.tables := rfl
@[simp] theorem State.setLaunch_tick (s : State) (n : Nat) (f : Launch → Launch) : (s.setLaunch n f).tick = s.tick := rfl
@[simp] theorem State.setLaunch_podReplay (s : State) (n : Nat) (f : Launch → Launch) : (s.setLaunch n f).podReplay = s.podReplay := rfl
@[simp] theorem State.setLaunch_podV1fmt (s : State) (n : Nat) (f : Launch → Launch) : (s.setLaunch n f).podV1fmt = s.podV1fmt := rfl
@[simp] theorem State.setLaunch_regions (s : State) (n : Nat) (f : Launch → Launch) : (s.setLaunch n f).regions = s.regions := rfl
@[simp] theorem State.setLaunch_halves (s : State) (n : Nat) (f : Launch → Launch) : (s.setLaunch n f).halves = s.halves := rfl
@[simp] theorem State.setLaunch_recalls (s : State) (n : Nat) (f : Launch → Launch) : (s.setLaunch n f).recalls = s.recalls := rfl
@[simp] theorem State.setLaunch_hostWaits (s : State) (n : Nat) (f : Launch → Launch) : (s.setLaunch n f).hostWaits = s.hostWaits := rfl
@[simp] theorem State.setLaunch_bands (s : State) (n : Nat) (f : Launch → Launch) : (s.setLaunch n f).bands = s.bands := rfl
@[simp] theorem State.setLaunch_moved (s : State) (n : Nat) (f : Launch → Launch) : (s.setLaunch n f).moved = s.moved := rfl
@[simp] theorem State.setLaunch_tickets (s : State) (n : Nat) (f : Launch → Launch) : (s.setLaunch n f).tickets = s.tickets := rfl
@[simp] theorem State.setLaunch_reorder (s : State) (n : Nat) (f : Launch → Launch) : (s.setLaunch n f).reorder = s.reorder := rfl
@[simp] theorem State.setLaunch_seen (s : State) (n : Nat) (f : Launch → Launch) : (s.setLaunch n f).seen = s.seen := rfl
@[simp] theorem State.setLaunch_endpoint (s : State) (n : Nat) (f : Launch → Launch) : (s.setLaunch n f).endpoint = s.endpoint := rfl
@[simp] theorem State.setLaunch_podSize (s : State) (n : Nat) (f : Launch → Launch) : (s.setLaunch n f).podSize = s.podSize := rfl
@[simp] theorem State.setLaunch_vistitum (s : State) (n : Nat) (f : Launch → Launch) : (s.setLaunch n f).vistitum = s.vistitum := rfl
@[simp] theorem State.setLaunch_ports (s : State) (n : Nat) (f : Launch → Launch) : (s.setLaunch n f).ports = s.ports := rfl
@[simp] theorem State.setLaunch_bar0 (s : State) (n : Nat) (f : Launch → Launch) : (s.setLaunch n f).bar0 = s.bar0 := rfl
@[simp] theorem State.setLaunch_completions (s : State) (n : Nat) (f : Launch → Launch) : (s.setLaunch n f).completions = s.completions := rfl
@[simp] theorem State.setLaunch_shoots (s : State) (n : Nat) (f : Launch → Launch) : (s.setLaunch n f).shoots = s.shoots := rfl
@[simp] theorem State.setLaunch_errlog (s : State) (n : Nat) (f : Launch → Launch) : (s.setLaunch n f).errlog = s.errlog := rfl
@[simp] theorem State.setLaunch_errSeq (s : State) (n : Nat) (f : Launch → Launch) : (s.setLaunch n f).errSeq = s.errSeq := rfl
@[simp] theorem State.setLaunch_flash (s : State) (n : Nat) (f : Launch → Launch) : (s.setLaunch n f).flash = s.flash := rfl
@[simp] theorem State.setLaunch_secret (s : State) (n : Nat) (f : Launch → Launch) : (s.setLaunch n f).secret = s.secret := rfl
@[simp] theorem State.setLaunch_clock (s : State) (n : Nat) (f : Launch → Launch) : (s.setLaunch n f).clock = s.clock := rfl
@[simp] theorem State.setLaunch_outputs (s : State) (n : Nat) (f : Launch → Launch) : (s.setLaunch n f).outputs = s.outputs := rfl

/-! ### emit -/

@[simp] theorem State.emit_agenda (s : State) (o : Output) : (s.emit o).agenda = s.agenda := rfl
@[simp] theorem State.emit_cur (s : State) (o : Output) : (s.emit o).cur = s.cur := rfl
@[simp] theorem State.emit_nextId (s : State) (o : Output) : (s.emit o).nextId = s.nextId := rfl
@[simp] theorem State.emit_freeCount (s : State) (o : Output) : (s.emit o).freeCount = s.freeCount := rfl
@[simp] theorem State.emit_crews (s : State) (o : Output) : (s.emit o).crews = s.crews := rfl
@[simp] theorem State.emit_ops (s : State) (o : Output) : (s.emit o).ops = s.ops := rfl
@[simp] theorem State.emit_early (s : State) (o : Output) : (s.emit o).early = s.early := rfl
@[simp] theorem State.emit_arrivals (s : State) (o : Output) : (s.emit o).arrivals = s.arrivals := rfl
@[simp] theorem State.emit_launches (s : State) (o : Output) : (s.emit o).launches = s.launches := rfl
@[simp] theorem State.emit_nextLaunch (s : State) (o : Output) : (s.emit o).nextLaunch = s.nextLaunch := rfl
@[simp] theorem State.emit_cores (s : State) (o : Output) : (s.emit o).cores = s.cores := rfl
@[simp] theorem State.emit_dies (s : State) (o : Output) : (s.emit o).dies = s.dies := rfl
@[simp] theorem State.emit_mem (s : State) (o : Output) : (s.emit o).mem = s.mem := rfl
@[simp] theorem State.emit_undef (s : State) (o : Output) : (s.emit o).undef = s.undef := rfl
@[simp] theorem State.emit_stale (s : State) (o : Output) : (s.emit o).stale = s.stale := rfl
@[simp] theorem State.emit_mdata (s : State) (o : Output) : (s.emit o).mdata = s.mdata := rfl
@[simp] theorem State.emit_grades (s : State) (o : Output) : (s.emit o).grades = s.grades := rfl
@[simp] theorem State.emit_poisoned (s : State) (o : Output) : (s.emit o).poisoned = s.poisoned := rfl
@[simp] theorem State.emit_code (s : State) (o : Output) : (s.emit o).code = s.code := rfl
@[simp] theorem State.emit_xmaps (s : State) (o : Output) : (s.emit o).xmaps = s.xmaps := rfl
@[simp] theorem State.emit_tiles (s : State) (o : Output) : (s.emit o).tiles = s.tiles := rfl
@[simp] theorem State.emit_resident (s : State) (o : Output) : (s.emit o).resident = s.resident := rfl
@[simp] theorem State.emit_rcmps (s : State) (o : Output) : (s.emit o).rcmps = s.rcmps := rfl
@[simp] theorem State.emit_roots (s : State) (o : Output) : (s.emit o).roots = s.roots := rfl
@[simp] theorem State.emit_tables (s : State) (o : Output) : (s.emit o).tables = s.tables := rfl
@[simp] theorem State.emit_tick (s : State) (o : Output) : (s.emit o).tick = s.tick := rfl
@[simp] theorem State.emit_podReplay (s : State) (o : Output) : (s.emit o).podReplay = s.podReplay := rfl
@[simp] theorem State.emit_podV1fmt (s : State) (o : Output) : (s.emit o).podV1fmt = s.podV1fmt := rfl
@[simp] theorem State.emit_regions (s : State) (o : Output) : (s.emit o).regions = s.regions := rfl
@[simp] theorem State.emit_halves (s : State) (o : Output) : (s.emit o).halves = s.halves := rfl
@[simp] theorem State.emit_recalls (s : State) (o : Output) : (s.emit o).recalls = s.recalls := rfl
@[simp] theorem State.emit_hostWaits (s : State) (o : Output) : (s.emit o).hostWaits = s.hostWaits := rfl
@[simp] theorem State.emit_bands (s : State) (o : Output) : (s.emit o).bands = s.bands := rfl
@[simp] theorem State.emit_moved (s : State) (o : Output) : (s.emit o).moved = s.moved := rfl
@[simp] theorem State.emit_tickets (s : State) (o : Output) : (s.emit o).tickets = s.tickets := rfl
@[simp] theorem State.emit_reorder (s : State) (o : Output) : (s.emit o).reorder = s.reorder := rfl
@[simp] theorem State.emit_seen (s : State) (o : Output) : (s.emit o).seen = s.seen := rfl
@[simp] theorem State.emit_endpoint (s : State) (o : Output) : (s.emit o).endpoint = s.endpoint := rfl
@[simp] theorem State.emit_podSize (s : State) (o : Output) : (s.emit o).podSize = s.podSize := rfl
@[simp] theorem State.emit_vistitum (s : State) (o : Output) : (s.emit o).vistitum = s.vistitum := rfl
@[simp] theorem State.emit_ports (s : State) (o : Output) : (s.emit o).ports = s.ports := rfl
@[simp] theorem State.emit_bar0 (s : State) (o : Output) : (s.emit o).bar0 = s.bar0 := rfl
@[simp] theorem State.emit_completions (s : State) (o : Output) : (s.emit o).completions = s.completions := rfl
@[simp] theorem State.emit_shoots (s : State) (o : Output) : (s.emit o).shoots = s.shoots := rfl
@[simp] theorem State.emit_errlog (s : State) (o : Output) : (s.emit o).errlog = s.errlog := rfl
@[simp] theorem State.emit_errSeq (s : State) (o : Output) : (s.emit o).errSeq = s.errSeq := rfl
@[simp] theorem State.emit_flash (s : State) (o : Output) : (s.emit o).flash = s.flash := rfl
@[simp] theorem State.emit_secret (s : State) (o : Output) : (s.emit o).secret = s.secret := rfl
@[simp] theorem State.emit_clock (s : State) (o : Output) : (s.emit o).clock = s.clock := rfl

/-! ### store -/

@[simp] theorem State.store_agenda (s : State) (k : Nat) (bs : List Byte) : (s.store k bs).agenda = s.agenda := rfl
@[simp] theorem State.store_cur (s : State) (k : Nat) (bs : List Byte) : (s.store k bs).cur = s.cur := rfl
@[simp] theorem State.store_nextId (s : State) (k : Nat) (bs : List Byte) : (s.store k bs).nextId = s.nextId := rfl
@[simp] theorem State.store_freeCount (s : State) (k : Nat) (bs : List Byte) : (s.store k bs).freeCount = s.freeCount := rfl
@[simp] theorem State.store_crews (s : State) (k : Nat) (bs : List Byte) : (s.store k bs).crews = s.crews := rfl
@[simp] theorem State.store_ops (s : State) (k : Nat) (bs : List Byte) : (s.store k bs).ops = s.ops := rfl
@[simp] theorem State.store_early (s : State) (k : Nat) (bs : List Byte) : (s.store k bs).early = s.early := rfl
@[simp] theorem State.store_arrivals (s : State) (k : Nat) (bs : List Byte) : (s.store k bs).arrivals = s.arrivals := rfl
@[simp] theorem State.store_launches (s : State) (k : Nat) (bs : List Byte) : (s.store k bs).launches = s.launches := rfl
@[simp] theorem State.store_nextLaunch (s : State) (k : Nat) (bs : List Byte) : (s.store k bs).nextLaunch = s.nextLaunch := rfl
@[simp] theorem State.store_cores (s : State) (k : Nat) (bs : List Byte) : (s.store k bs).cores = s.cores := rfl
@[simp] theorem State.store_dies (s : State) (k : Nat) (bs : List Byte) : (s.store k bs).dies = s.dies := rfl
@[simp] theorem State.store_undef (s : State) (k : Nat) (bs : List Byte) : (s.store k bs).undef = s.undef := rfl
@[simp] theorem State.store_mdata (s : State) (k : Nat) (bs : List Byte) : (s.store k bs).mdata = s.mdata := rfl
@[simp] theorem State.store_grades (s : State) (k : Nat) (bs : List Byte) : (s.store k bs).grades = s.grades := rfl
@[simp] theorem State.store_xmaps (s : State) (k : Nat) (bs : List Byte) : (s.store k bs).xmaps = s.xmaps := rfl
@[simp] theorem State.store_tiles (s : State) (k : Nat) (bs : List Byte) : (s.store k bs).tiles = s.tiles := rfl
@[simp] theorem State.store_resident (s : State) (k : Nat) (bs : List Byte) : (s.store k bs).resident = s.resident := rfl
@[simp] theorem State.store_rcmps (s : State) (k : Nat) (bs : List Byte) : (s.store k bs).rcmps = s.rcmps := rfl
@[simp] theorem State.store_roots (s : State) (k : Nat) (bs : List Byte) : (s.store k bs).roots = s.roots := rfl
@[simp] theorem State.store_tables (s : State) (k : Nat) (bs : List Byte) : (s.store k bs).tables = s.tables := rfl
@[simp] theorem State.store_tick (s : State) (k : Nat) (bs : List Byte) : (s.store k bs).tick = s.tick := rfl
@[simp] theorem State.store_podReplay (s : State) (k : Nat) (bs : List Byte) : (s.store k bs).podReplay = s.podReplay := rfl
@[simp] theorem State.store_podV1fmt (s : State) (k : Nat) (bs : List Byte) : (s.store k bs).podV1fmt = s.podV1fmt := rfl
@[simp] theorem State.store_regions (s : State) (k : Nat) (bs : List Byte) : (s.store k bs).regions = s.regions := rfl
@[simp] theorem State.store_halves (s : State) (k : Nat) (bs : List Byte) : (s.store k bs).halves = s.halves := rfl
@[simp] theorem State.store_recalls (s : State) (k : Nat) (bs : List Byte) : (s.store k bs).recalls = s.recalls := rfl
@[simp] theorem State.store_hostWaits (s : State) (k : Nat) (bs : List Byte) : (s.store k bs).hostWaits = s.hostWaits := rfl
@[simp] theorem State.store_bands (s : State) (k : Nat) (bs : List Byte) : (s.store k bs).bands = s.bands := rfl
@[simp] theorem State.store_moved (s : State) (k : Nat) (bs : List Byte) : (s.store k bs).moved = s.moved := rfl
@[simp] theorem State.store_tickets (s : State) (k : Nat) (bs : List Byte) : (s.store k bs).tickets = s.tickets := rfl
@[simp] theorem State.store_reorder (s : State) (k : Nat) (bs : List Byte) : (s.store k bs).reorder = s.reorder := rfl
@[simp] theorem State.store_seen (s : State) (k : Nat) (bs : List Byte) : (s.store k bs).seen = s.seen := rfl
@[simp] theorem State.store_endpoint (s : State) (k : Nat) (bs : List Byte) : (s.store k bs).endpoint = s.endpoint := rfl
@[simp] theorem State.store_podSize (s : State) (k : Nat) (bs : List Byte) : (s.store k bs).podSize = s.podSize := rfl
@[simp] theorem State.store_vistitum (s : State) (k : Nat) (bs : List Byte) : (s.store k bs).vistitum = s.vistitum := rfl
@[simp] theorem State.store_ports (s : State) (k : Nat) (bs : List Byte) : (s.store k bs).ports = s.ports := rfl
@[simp] theorem State.store_bar0 (s : State) (k : Nat) (bs : List Byte) : (s.store k bs).bar0 = s.bar0 := rfl
@[simp] theorem State.store_completions (s : State) (k : Nat) (bs : List Byte) : (s.store k bs).completions = s.completions := rfl
@[simp] theorem State.store_shoots (s : State) (k : Nat) (bs : List Byte) : (s.store k bs).shoots = s.shoots := rfl
@[simp] theorem State.store_errlog (s : State) (k : Nat) (bs : List Byte) : (s.store k bs).errlog = s.errlog := rfl
@[simp] theorem State.store_errSeq (s : State) (k : Nat) (bs : List Byte) : (s.store k bs).errSeq = s.errSeq := rfl
@[simp] theorem State.store_flash (s : State) (k : Nat) (bs : List Byte) : (s.store k bs).flash = s.flash := rfl
@[simp] theorem State.store_secret (s : State) (k : Nat) (bs : List Byte) : (s.store k bs).secret = s.secret := rfl
@[simp] theorem State.store_clock (s : State) (k : Nat) (bs : List Byte) : (s.store k bs).clock = s.clock := rfl
@[simp] theorem State.store_outputs (s : State) (k : Nat) (bs : List Byte) : (s.store k bs).outputs = s.outputs := rfl

/-! ### writeBack -/

@[simp] theorem State.writeBack_agenda (s : State) (n : Nat) : (s.writeBack n).agenda = s.agenda := rfl
@[simp] theorem State.writeBack_cur (s : State) (n : Nat) : (s.writeBack n).cur = s.cur := rfl
@[simp] theorem State.writeBack_nextId (s : State) (n : Nat) : (s.writeBack n).nextId = s.nextId := rfl
@[simp] theorem State.writeBack_freeCount (s : State) (n : Nat) : (s.writeBack n).freeCount = s.freeCount := rfl
@[simp] theorem State.writeBack_crews (s : State) (n : Nat) : (s.writeBack n).crews = s.crews := rfl
@[simp] theorem State.writeBack_ops (s : State) (n : Nat) : (s.writeBack n).ops = s.ops := rfl
@[simp] theorem State.writeBack_early (s : State) (n : Nat) : (s.writeBack n).early = s.early := rfl
@[simp] theorem State.writeBack_arrivals (s : State) (n : Nat) : (s.writeBack n).arrivals = s.arrivals := rfl
@[simp] theorem State.writeBack_launches (s : State) (n : Nat) : (s.writeBack n).launches = s.launches := rfl
@[simp] theorem State.writeBack_nextLaunch (s : State) (n : Nat) : (s.writeBack n).nextLaunch = s.nextLaunch := rfl
@[simp] theorem State.writeBack_cores (s : State) (n : Nat) : (s.writeBack n).cores = s.cores := rfl
@[simp] theorem State.writeBack_dies (s : State) (n : Nat) : (s.writeBack n).dies = s.dies := rfl
@[simp] theorem State.writeBack_mem (s : State) (n : Nat) : (s.writeBack n).mem = s.mem := rfl
@[simp] theorem State.writeBack_undef (s : State) (n : Nat) : (s.writeBack n).undef = s.undef := rfl
@[simp] theorem State.writeBack_mdata (s : State) (n : Nat) : (s.writeBack n).mdata = s.mdata := rfl
@[simp] theorem State.writeBack_grades (s : State) (n : Nat) : (s.writeBack n).grades = s.grades := rfl
@[simp] theorem State.writeBack_poisoned (s : State) (n : Nat) : (s.writeBack n).poisoned = s.poisoned := rfl
@[simp] theorem State.writeBack_code (s : State) (n : Nat) : (s.writeBack n).code = s.code := rfl
@[simp] theorem State.writeBack_xmaps (s : State) (n : Nat) : (s.writeBack n).xmaps = s.xmaps := rfl
@[simp] theorem State.writeBack_tiles (s : State) (n : Nat) : (s.writeBack n).tiles = s.tiles := rfl
@[simp] theorem State.writeBack_resident (s : State) (n : Nat) : (s.writeBack n).resident = s.resident := rfl
@[simp] theorem State.writeBack_rcmps (s : State) (n : Nat) : (s.writeBack n).rcmps = s.rcmps := rfl
@[simp] theorem State.writeBack_roots (s : State) (n : Nat) : (s.writeBack n).roots = s.roots := rfl
@[simp] theorem State.writeBack_tables (s : State) (n : Nat) : (s.writeBack n).tables = s.tables := rfl
@[simp] theorem State.writeBack_tick (s : State) (n : Nat) : (s.writeBack n).tick = s.tick := rfl
@[simp] theorem State.writeBack_podReplay (s : State) (n : Nat) : (s.writeBack n).podReplay = s.podReplay := rfl
@[simp] theorem State.writeBack_podV1fmt (s : State) (n : Nat) : (s.writeBack n).podV1fmt = s.podV1fmt := rfl
@[simp] theorem State.writeBack_regions (s : State) (n : Nat) : (s.writeBack n).regions = s.regions := rfl
@[simp] theorem State.writeBack_halves (s : State) (n : Nat) : (s.writeBack n).halves = s.halves := rfl
@[simp] theorem State.writeBack_recalls (s : State) (n : Nat) : (s.writeBack n).recalls = s.recalls := rfl
@[simp] theorem State.writeBack_hostWaits (s : State) (n : Nat) : (s.writeBack n).hostWaits = s.hostWaits := rfl
@[simp] theorem State.writeBack_bands (s : State) (n : Nat) : (s.writeBack n).bands = s.bands := rfl
@[simp] theorem State.writeBack_moved (s : State) (n : Nat) : (s.writeBack n).moved = s.moved := rfl
@[simp] theorem State.writeBack_tickets (s : State) (n : Nat) : (s.writeBack n).tickets = s.tickets := rfl
@[simp] theorem State.writeBack_reorder (s : State) (n : Nat) : (s.writeBack n).reorder = s.reorder := rfl
@[simp] theorem State.writeBack_seen (s : State) (n : Nat) : (s.writeBack n).seen = s.seen := rfl
@[simp] theorem State.writeBack_endpoint (s : State) (n : Nat) : (s.writeBack n).endpoint = s.endpoint := rfl
@[simp] theorem State.writeBack_podSize (s : State) (n : Nat) : (s.writeBack n).podSize = s.podSize := rfl
@[simp] theorem State.writeBack_vistitum (s : State) (n : Nat) : (s.writeBack n).vistitum = s.vistitum := rfl
@[simp] theorem State.writeBack_ports (s : State) (n : Nat) : (s.writeBack n).ports = s.ports := rfl
@[simp] theorem State.writeBack_bar0 (s : State) (n : Nat) : (s.writeBack n).bar0 = s.bar0 := rfl
@[simp] theorem State.writeBack_completions (s : State) (n : Nat) : (s.writeBack n).completions = s.completions := rfl
@[simp] theorem State.writeBack_shoots (s : State) (n : Nat) : (s.writeBack n).shoots = s.shoots := rfl
@[simp] theorem State.writeBack_errlog (s : State) (n : Nat) : (s.writeBack n).errlog = s.errlog := rfl
@[simp] theorem State.writeBack_errSeq (s : State) (n : Nat) : (s.writeBack n).errSeq = s.errSeq := rfl
@[simp] theorem State.writeBack_flash (s : State) (n : Nat) : (s.writeBack n).flash = s.flash := rfl
@[simp] theorem State.writeBack_secret (s : State) (n : Nat) : (s.writeBack n).secret = s.secret := rfl
@[simp] theorem State.writeBack_clock (s : State) (n : Nat) : (s.writeBack n).clock = s.clock := rfl
@[simp] theorem State.writeBack_outputs (s : State) (n : Nat) : (s.writeBack n).outputs = s.outputs := rfl

/-! ### putMeta -/

@[simp] theorem State.putMeta_agenda (s : State) (g : Nat) (w : Word) : (s.putMeta g w).agenda = s.agenda := rfl
@[simp] theorem State.putMeta_cur (s : State) (g : Nat) (w : Word) : (s.putMeta g w).cur = s.cur := rfl
@[simp] theorem State.putMeta_nextId (s : State) (g : Nat) (w : Word) : (s.putMeta g w).nextId = s.nextId := rfl
@[simp] theorem State.putMeta_freeCount (s : State) (g : Nat) (w : Word) : (s.putMeta g w).freeCount = s.freeCount := rfl
@[simp] theorem State.putMeta_crews (s : State) (g : Nat) (w : Word) : (s.putMeta g w).crews = s.crews := rfl
@[simp] theorem State.putMeta_ops (s : State) (g : Nat) (w : Word) : (s.putMeta g w).ops = s.ops := rfl
@[simp] theorem State.putMeta_early (s : State) (g : Nat) (w : Word) : (s.putMeta g w).early = s.early := rfl
@[simp] theorem State.putMeta_arrivals (s : State) (g : Nat) (w : Word) : (s.putMeta g w).arrivals = s.arrivals := rfl
@[simp] theorem State.putMeta_launches (s : State) (g : Nat) (w : Word) : (s.putMeta g w).launches = s.launches := rfl
@[simp] theorem State.putMeta_nextLaunch (s : State) (g : Nat) (w : Word) : (s.putMeta g w).nextLaunch = s.nextLaunch := rfl
@[simp] theorem State.putMeta_cores (s : State) (g : Nat) (w : Word) : (s.putMeta g w).cores = s.cores := rfl
@[simp] theorem State.putMeta_dies (s : State) (g : Nat) (w : Word) : (s.putMeta g w).dies = s.dies := rfl
@[simp] theorem State.putMeta_mem (s : State) (g : Nat) (w : Word) : (s.putMeta g w).mem = s.mem := rfl
@[simp] theorem State.putMeta_undef (s : State) (g : Nat) (w : Word) : (s.putMeta g w).undef = s.undef := rfl
@[simp] theorem State.putMeta_stale (s : State) (g : Nat) (w : Word) : (s.putMeta g w).stale = s.stale := rfl
@[simp] theorem State.putMeta_grades (s : State) (g : Nat) (w : Word) : (s.putMeta g w).grades = s.grades := rfl
@[simp] theorem State.putMeta_poisoned (s : State) (g : Nat) (w : Word) : (s.putMeta g w).poisoned = s.poisoned := rfl
@[simp] theorem State.putMeta_code (s : State) (g : Nat) (w : Word) : (s.putMeta g w).code = s.code := rfl
@[simp] theorem State.putMeta_xmaps (s : State) (g : Nat) (w : Word) : (s.putMeta g w).xmaps = s.xmaps := rfl
@[simp] theorem State.putMeta_tiles (s : State) (g : Nat) (w : Word) : (s.putMeta g w).tiles = s.tiles := rfl
@[simp] theorem State.putMeta_resident (s : State) (g : Nat) (w : Word) : (s.putMeta g w).resident = s.resident := rfl
@[simp] theorem State.putMeta_rcmps (s : State) (g : Nat) (w : Word) : (s.putMeta g w).rcmps = s.rcmps := rfl
@[simp] theorem State.putMeta_roots (s : State) (g : Nat) (w : Word) : (s.putMeta g w).roots = s.roots := rfl
@[simp] theorem State.putMeta_tables (s : State) (g : Nat) (w : Word) : (s.putMeta g w).tables = s.tables := rfl
@[simp] theorem State.putMeta_tick (s : State) (g : Nat) (w : Word) : (s.putMeta g w).tick = s.tick := rfl
@[simp] theorem State.putMeta_podReplay (s : State) (g : Nat) (w : Word) : (s.putMeta g w).podReplay = s.podReplay := rfl
@[simp] theorem State.putMeta_podV1fmt (s : State) (g : Nat) (w : Word) : (s.putMeta g w).podV1fmt = s.podV1fmt := rfl
@[simp] theorem State.putMeta_regions (s : State) (g : Nat) (w : Word) : (s.putMeta g w).regions = s.regions := rfl
@[simp] theorem State.putMeta_halves (s : State) (g : Nat) (w : Word) : (s.putMeta g w).halves = s.halves := rfl
@[simp] theorem State.putMeta_recalls (s : State) (g : Nat) (w : Word) : (s.putMeta g w).recalls = s.recalls := rfl
@[simp] theorem State.putMeta_hostWaits (s : State) (g : Nat) (w : Word) : (s.putMeta g w).hostWaits = s.hostWaits := rfl
@[simp] theorem State.putMeta_bands (s : State) (g : Nat) (w : Word) : (s.putMeta g w).bands = s.bands := rfl
@[simp] theorem State.putMeta_moved (s : State) (g : Nat) (w : Word) : (s.putMeta g w).moved = s.moved := rfl
@[simp] theorem State.putMeta_tickets (s : State) (g : Nat) (w : Word) : (s.putMeta g w).tickets = s.tickets := rfl
@[simp] theorem State.putMeta_reorder (s : State) (g : Nat) (w : Word) : (s.putMeta g w).reorder = s.reorder := rfl
@[simp] theorem State.putMeta_seen (s : State) (g : Nat) (w : Word) : (s.putMeta g w).seen = s.seen := rfl
@[simp] theorem State.putMeta_endpoint (s : State) (g : Nat) (w : Word) : (s.putMeta g w).endpoint = s.endpoint := rfl
@[simp] theorem State.putMeta_podSize (s : State) (g : Nat) (w : Word) : (s.putMeta g w).podSize = s.podSize := rfl
@[simp] theorem State.putMeta_vistitum (s : State) (g : Nat) (w : Word) : (s.putMeta g w).vistitum = s.vistitum := rfl
@[simp] theorem State.putMeta_ports (s : State) (g : Nat) (w : Word) : (s.putMeta g w).ports = s.ports := rfl
@[simp] theorem State.putMeta_bar0 (s : State) (g : Nat) (w : Word) : (s.putMeta g w).bar0 = s.bar0 := rfl
@[simp] theorem State.putMeta_completions (s : State) (g : Nat) (w : Word) : (s.putMeta g w).completions = s.completions := rfl
@[simp] theorem State.putMeta_shoots (s : State) (g : Nat) (w : Word) : (s.putMeta g w).shoots = s.shoots := rfl
@[simp] theorem State.putMeta_errlog (s : State) (g : Nat) (w : Word) : (s.putMeta g w).errlog = s.errlog := rfl
@[simp] theorem State.putMeta_errSeq (s : State) (g : Nat) (w : Word) : (s.putMeta g w).errSeq = s.errSeq := rfl
@[simp] theorem State.putMeta_flash (s : State) (g : Nat) (w : Word) : (s.putMeta g w).flash = s.flash := rfl
@[simp] theorem State.putMeta_secret (s : State) (g : Nat) (w : Word) : (s.putMeta g w).secret = s.secret := rfl
@[simp] theorem State.putMeta_clock (s : State) (g : Nat) (w : Word) : (s.putMeta g w).clock = s.clock := rfl
@[simp] theorem State.putMeta_outputs (s : State) (g : Nat) (w : Word) : (s.putMeta g w).outputs = s.outputs := rfl

/-! ### undefine -/

@[simp] theorem State.undefine_agenda (s : State) (k n : Nat) : (s.undefine k n).agenda = s.agenda := rfl
@[simp] theorem State.undefine_cur (s : State) (k n : Nat) : (s.undefine k n).cur = s.cur := rfl
@[simp] theorem State.undefine_nextId (s : State) (k n : Nat) : (s.undefine k n).nextId = s.nextId := rfl
@[simp] theorem State.undefine_crews (s : State) (k n : Nat) : (s.undefine k n).crews = s.crews := rfl
@[simp] theorem State.undefine_ops (s : State) (k n : Nat) : (s.undefine k n).ops = s.ops := rfl
@[simp] theorem State.undefine_early (s : State) (k n : Nat) : (s.undefine k n).early = s.early := rfl
@[simp] theorem State.undefine_arrivals (s : State) (k n : Nat) : (s.undefine k n).arrivals = s.arrivals := rfl
@[simp] theorem State.undefine_launches (s : State) (k n : Nat) : (s.undefine k n).launches = s.launches := rfl
@[simp] theorem State.undefine_nextLaunch (s : State) (k n : Nat) : (s.undefine k n).nextLaunch = s.nextLaunch := rfl
@[simp] theorem State.undefine_cores (s : State) (k n : Nat) : (s.undefine k n).cores = s.cores := rfl
@[simp] theorem State.undefine_dies (s : State) (k n : Nat) : (s.undefine k n).dies = s.dies := rfl
@[simp] theorem State.undefine_grades (s : State) (k n : Nat) : (s.undefine k n).grades = s.grades := rfl
@[simp] theorem State.undefine_poisoned (s : State) (k n : Nat) : (s.undefine k n).poisoned = s.poisoned := rfl
@[simp] theorem State.undefine_code (s : State) (k n : Nat) : (s.undefine k n).code = s.code := rfl
@[simp] theorem State.undefine_xmaps (s : State) (k n : Nat) : (s.undefine k n).xmaps = s.xmaps := rfl
@[simp] theorem State.undefine_tiles (s : State) (k n : Nat) : (s.undefine k n).tiles = s.tiles := rfl
@[simp] theorem State.undefine_resident (s : State) (k n : Nat) : (s.undefine k n).resident = s.resident := rfl
@[simp] theorem State.undefine_rcmps (s : State) (k n : Nat) : (s.undefine k n).rcmps = s.rcmps := rfl
@[simp] theorem State.undefine_roots (s : State) (k n : Nat) : (s.undefine k n).roots = s.roots := rfl
@[simp] theorem State.undefine_tables (s : State) (k n : Nat) : (s.undefine k n).tables = s.tables := rfl
@[simp] theorem State.undefine_tick (s : State) (k n : Nat) : (s.undefine k n).tick = s.tick := rfl
@[simp] theorem State.undefine_podReplay (s : State) (k n : Nat) : (s.undefine k n).podReplay = s.podReplay := rfl
@[simp] theorem State.undefine_podV1fmt (s : State) (k n : Nat) : (s.undefine k n).podV1fmt = s.podV1fmt := rfl
@[simp] theorem State.undefine_regions (s : State) (k n : Nat) : (s.undefine k n).regions = s.regions := rfl
@[simp] theorem State.undefine_halves (s : State) (k n : Nat) : (s.undefine k n).halves = s.halves := rfl
@[simp] theorem State.undefine_recalls (s : State) (k n : Nat) : (s.undefine k n).recalls = s.recalls := rfl
@[simp] theorem State.undefine_hostWaits (s : State) (k n : Nat) : (s.undefine k n).hostWaits = s.hostWaits := rfl
@[simp] theorem State.undefine_bands (s : State) (k n : Nat) : (s.undefine k n).bands = s.bands := rfl
@[simp] theorem State.undefine_moved (s : State) (k n : Nat) : (s.undefine k n).moved = s.moved := rfl
@[simp] theorem State.undefine_tickets (s : State) (k n : Nat) : (s.undefine k n).tickets = s.tickets := rfl
@[simp] theorem State.undefine_reorder (s : State) (k n : Nat) : (s.undefine k n).reorder = s.reorder := rfl
@[simp] theorem State.undefine_seen (s : State) (k n : Nat) : (s.undefine k n).seen = s.seen := rfl
@[simp] theorem State.undefine_endpoint (s : State) (k n : Nat) : (s.undefine k n).endpoint = s.endpoint := rfl
@[simp] theorem State.undefine_podSize (s : State) (k n : Nat) : (s.undefine k n).podSize = s.podSize := rfl
@[simp] theorem State.undefine_vistitum (s : State) (k n : Nat) : (s.undefine k n).vistitum = s.vistitum := rfl
@[simp] theorem State.undefine_ports (s : State) (k n : Nat) : (s.undefine k n).ports = s.ports := rfl
@[simp] theorem State.undefine_bar0 (s : State) (k n : Nat) : (s.undefine k n).bar0 = s.bar0 := rfl
@[simp] theorem State.undefine_completions (s : State) (k n : Nat) : (s.undefine k n).completions = s.completions := rfl
@[simp] theorem State.undefine_shoots (s : State) (k n : Nat) : (s.undefine k n).shoots = s.shoots := rfl
@[simp] theorem State.undefine_errlog (s : State) (k n : Nat) : (s.undefine k n).errlog = s.errlog := rfl
@[simp] theorem State.undefine_errSeq (s : State) (k n : Nat) : (s.undefine k n).errSeq = s.errSeq := rfl
@[simp] theorem State.undefine_flash (s : State) (k n : Nat) : (s.undefine k n).flash = s.flash := rfl
@[simp] theorem State.undefine_secret (s : State) (k n : Nat) : (s.undefine k n).secret = s.secret := rfl
@[simp] theorem State.undefine_clock (s : State) (k n : Nat) : (s.undefine k n).clock = s.clock := rfl
@[simp] theorem State.undefine_outputs (s : State) (k n : Nat) : (s.undefine k n).outputs = s.outputs := rfl

/-! ### advance -/

@[simp] theorem State.advance_agenda (s : State) (id w : Nat) (m : Mask) : (s.advance id w m).agenda = s.agenda := rfl
@[simp] theorem State.advance_cur (s : State) (id w : Nat) (m : Mask) : (s.advance id w m).cur = s.cur := rfl
@[simp] theorem State.advance_nextId (s : State) (id w : Nat) (m : Mask) : (s.advance id w m).nextId = s.nextId := rfl
@[simp] theorem State.advance_freeCount (s : State) (id w : Nat) (m : Mask) : (s.advance id w m).freeCount = s.freeCount := rfl
@[simp] theorem State.advance_ops (s : State) (id w : Nat) (m : Mask) : (s.advance id w m).ops = s.ops := rfl
@[simp] theorem State.advance_early (s : State) (id w : Nat) (m : Mask) : (s.advance id w m).early = s.early := rfl
@[simp] theorem State.advance_arrivals (s : State) (id w : Nat) (m : Mask) : (s.advance id w m).arrivals = s.arrivals := rfl
@[simp] theorem State.advance_launches (s : State) (id w : Nat) (m : Mask) : (s.advance id w m).launches = s.launches := rfl
@[simp] theorem State.advance_nextLaunch (s : State) (id w : Nat) (m : Mask) : (s.advance id w m).nextLaunch = s.nextLaunch := rfl
@[simp] theorem State.advance_cores (s : State) (id w : Nat) (m : Mask) : (s.advance id w m).cores = s.cores := rfl
@[simp] theorem State.advance_dies (s : State) (id w : Nat) (m : Mask) : (s.advance id w m).dies = s.dies := rfl
@[simp] theorem State.advance_mem (s : State) (id w : Nat) (m : Mask) : (s.advance id w m).mem = s.mem := rfl
@[simp] theorem State.advance_undef (s : State) (id w : Nat) (m : Mask) : (s.advance id w m).undef = s.undef := rfl
@[simp] theorem State.advance_stale (s : State) (id w : Nat) (m : Mask) : (s.advance id w m).stale = s.stale := rfl
@[simp] theorem State.advance_mdata (s : State) (id w : Nat) (m : Mask) : (s.advance id w m).mdata = s.mdata := rfl
@[simp] theorem State.advance_grades (s : State) (id w : Nat) (m : Mask) : (s.advance id w m).grades = s.grades := rfl
@[simp] theorem State.advance_poisoned (s : State) (id w : Nat) (m : Mask) : (s.advance id w m).poisoned = s.poisoned := rfl
@[simp] theorem State.advance_code (s : State) (id w : Nat) (m : Mask) : (s.advance id w m).code = s.code := rfl
@[simp] theorem State.advance_xmaps (s : State) (id w : Nat) (m : Mask) : (s.advance id w m).xmaps = s.xmaps := rfl
@[simp] theorem State.advance_tiles (s : State) (id w : Nat) (m : Mask) : (s.advance id w m).tiles = s.tiles := rfl
@[simp] theorem State.advance_resident (s : State) (id w : Nat) (m : Mask) : (s.advance id w m).resident = s.resident := rfl
@[simp] theorem State.advance_rcmps (s : State) (id w : Nat) (m : Mask) : (s.advance id w m).rcmps = s.rcmps := rfl
@[simp] theorem State.advance_roots (s : State) (id w : Nat) (m : Mask) : (s.advance id w m).roots = s.roots := rfl
@[simp] theorem State.advance_tables (s : State) (id w : Nat) (m : Mask) : (s.advance id w m).tables = s.tables := rfl
@[simp] theorem State.advance_tick (s : State) (id w : Nat) (m : Mask) : (s.advance id w m).tick = s.tick := rfl
@[simp] theorem State.advance_podReplay (s : State) (id w : Nat) (m : Mask) : (s.advance id w m).podReplay = s.podReplay := rfl
@[simp] theorem State.advance_podV1fmt (s : State) (id w : Nat) (m : Mask) : (s.advance id w m).podV1fmt = s.podV1fmt := rfl
@[simp] theorem State.advance_regions (s : State) (id w : Nat) (m : Mask) : (s.advance id w m).regions = s.regions := rfl
@[simp] theorem State.advance_halves (s : State) (id w : Nat) (m : Mask) : (s.advance id w m).halves = s.halves := rfl
@[simp] theorem State.advance_recalls (s : State) (id w : Nat) (m : Mask) : (s.advance id w m).recalls = s.recalls := rfl
@[simp] theorem State.advance_hostWaits (s : State) (id w : Nat) (m : Mask) : (s.advance id w m).hostWaits = s.hostWaits := rfl
@[simp] theorem State.advance_bands (s : State) (id w : Nat) (m : Mask) : (s.advance id w m).bands = s.bands := rfl
@[simp] theorem State.advance_moved (s : State) (id w : Nat) (m : Mask) : (s.advance id w m).moved = s.moved := rfl
@[simp] theorem State.advance_tickets (s : State) (id w : Nat) (m : Mask) : (s.advance id w m).tickets = s.tickets := rfl
@[simp] theorem State.advance_reorder (s : State) (id w : Nat) (m : Mask) : (s.advance id w m).reorder = s.reorder := rfl
@[simp] theorem State.advance_seen (s : State) (id w : Nat) (m : Mask) : (s.advance id w m).seen = s.seen := rfl
@[simp] theorem State.advance_endpoint (s : State) (id w : Nat) (m : Mask) : (s.advance id w m).endpoint = s.endpoint := rfl
@[simp] theorem State.advance_podSize (s : State) (id w : Nat) (m : Mask) : (s.advance id w m).podSize = s.podSize := rfl
@[simp] theorem State.advance_vistitum (s : State) (id w : Nat) (m : Mask) : (s.advance id w m).vistitum = s.vistitum := rfl
@[simp] theorem State.advance_ports (s : State) (id w : Nat) (m : Mask) : (s.advance id w m).ports = s.ports := rfl
@[simp] theorem State.advance_bar0 (s : State) (id w : Nat) (m : Mask) : (s.advance id w m).bar0 = s.bar0 := rfl
@[simp] theorem State.advance_completions (s : State) (id w : Nat) (m : Mask) : (s.advance id w m).completions = s.completions := rfl
@[simp] theorem State.advance_shoots (s : State) (id w : Nat) (m : Mask) : (s.advance id w m).shoots = s.shoots := rfl
@[simp] theorem State.advance_errlog (s : State) (id w : Nat) (m : Mask) : (s.advance id w m).errlog = s.errlog := rfl
@[simp] theorem State.advance_errSeq (s : State) (id w : Nat) (m : Mask) : (s.advance id w m).errSeq = s.errSeq := rfl
@[simp] theorem State.advance_flash (s : State) (id w : Nat) (m : Mask) : (s.advance id w m).flash = s.flash := rfl
@[simp] theorem State.advance_secret (s : State) (id w : Nat) (m : Mask) : (s.advance id w m).secret = s.secret := rfl
@[simp] theorem State.advance_clock (s : State) (id w : Nat) (m : Mask) : (s.advance id w m).clock = s.clock := rfl
@[simp] theorem State.advance_outputs (s : State) (id w : Nat) (m : Mask) : (s.advance id w m).outputs = s.outputs := rfl

/-! ### accept -/

@[simp] theorem State.accept_agenda (s : State) (o : Op) : (s.accept o).agenda = s.agenda := rfl
@[simp] theorem State.accept_cur (s : State) (o : Op) : (s.accept o).cur = s.cur := rfl
@[simp] theorem State.accept_freeCount (s : State) (o : Op) : (s.accept o).freeCount = s.freeCount := rfl
@[simp] theorem State.accept_early (s : State) (o : Op) : (s.accept o).early = s.early := rfl
@[simp] theorem State.accept_arrivals (s : State) (o : Op) : (s.accept o).arrivals = s.arrivals := rfl
@[simp] theorem State.accept_launches (s : State) (o : Op) : (s.accept o).launches = s.launches := rfl
@[simp] theorem State.accept_nextLaunch (s : State) (o : Op) : (s.accept o).nextLaunch = s.nextLaunch := rfl
@[simp] theorem State.accept_cores (s : State) (o : Op) : (s.accept o).cores = s.cores := rfl
@[simp] theorem State.accept_dies (s : State) (o : Op) : (s.accept o).dies = s.dies := rfl
@[simp] theorem State.accept_mem (s : State) (o : Op) : (s.accept o).mem = s.mem := rfl
@[simp] theorem State.accept_undef (s : State) (o : Op) : (s.accept o).undef = s.undef := rfl
@[simp] theorem State.accept_stale (s : State) (o : Op) : (s.accept o).stale = s.stale := rfl
@[simp] theorem State.accept_mdata (s : State) (o : Op) : (s.accept o).mdata = s.mdata := rfl
@[simp] theorem State.accept_grades (s : State) (o : Op) : (s.accept o).grades = s.grades := rfl
@[simp] theorem State.accept_poisoned (s : State) (o : Op) : (s.accept o).poisoned = s.poisoned := rfl
@[simp] theorem State.accept_code (s : State) (o : Op) : (s.accept o).code = s.code := rfl
@[simp] theorem State.accept_xmaps (s : State) (o : Op) : (s.accept o).xmaps = s.xmaps := rfl
@[simp] theorem State.accept_tiles (s : State) (o : Op) : (s.accept o).tiles = s.tiles := rfl
@[simp] theorem State.accept_resident (s : State) (o : Op) : (s.accept o).resident = s.resident := rfl
@[simp] theorem State.accept_rcmps (s : State) (o : Op) : (s.accept o).rcmps = s.rcmps := rfl
@[simp] theorem State.accept_roots (s : State) (o : Op) : (s.accept o).roots = s.roots := rfl
@[simp] theorem State.accept_tables (s : State) (o : Op) : (s.accept o).tables = s.tables := rfl
@[simp] theorem State.accept_tick (s : State) (o : Op) : (s.accept o).tick = s.tick := rfl
@[simp] theorem State.accept_podReplay (s : State) (o : Op) : (s.accept o).podReplay = s.podReplay := rfl
@[simp] theorem State.accept_podV1fmt (s : State) (o : Op) : (s.accept o).podV1fmt = s.podV1fmt := rfl
@[simp] theorem State.accept_regions (s : State) (o : Op) : (s.accept o).regions = s.regions := rfl
@[simp] theorem State.accept_halves (s : State) (o : Op) : (s.accept o).halves = s.halves := rfl
@[simp] theorem State.accept_recalls (s : State) (o : Op) : (s.accept o).recalls = s.recalls := rfl
@[simp] theorem State.accept_hostWaits (s : State) (o : Op) : (s.accept o).hostWaits = s.hostWaits := rfl
@[simp] theorem State.accept_bands (s : State) (o : Op) : (s.accept o).bands = s.bands := rfl
@[simp] theorem State.accept_moved (s : State) (o : Op) : (s.accept o).moved = s.moved := rfl
@[simp] theorem State.accept_tickets (s : State) (o : Op) : (s.accept o).tickets = s.tickets := rfl
@[simp] theorem State.accept_reorder (s : State) (o : Op) : (s.accept o).reorder = s.reorder := rfl
@[simp] theorem State.accept_seen (s : State) (o : Op) : (s.accept o).seen = s.seen := rfl
@[simp] theorem State.accept_endpoint (s : State) (o : Op) : (s.accept o).endpoint = s.endpoint := rfl
@[simp] theorem State.accept_podSize (s : State) (o : Op) : (s.accept o).podSize = s.podSize := rfl
@[simp] theorem State.accept_vistitum (s : State) (o : Op) : (s.accept o).vistitum = s.vistitum := rfl
@[simp] theorem State.accept_ports (s : State) (o : Op) : (s.accept o).ports = s.ports := rfl
@[simp] theorem State.accept_bar0 (s : State) (o : Op) : (s.accept o).bar0 = s.bar0 := rfl
@[simp] theorem State.accept_completions (s : State) (o : Op) : (s.accept o).completions = s.completions := rfl
@[simp] theorem State.accept_shoots (s : State) (o : Op) : (s.accept o).shoots = s.shoots := rfl
@[simp] theorem State.accept_errlog (s : State) (o : Op) : (s.accept o).errlog = s.errlog := rfl
@[simp] theorem State.accept_errSeq (s : State) (o : Op) : (s.accept o).errSeq = s.errSeq := rfl
@[simp] theorem State.accept_flash (s : State) (o : Op) : (s.accept o).flash = s.flash := rfl
@[simp] theorem State.accept_secret (s : State) (o : Op) : (s.accept o).secret = s.secret := rfl
@[simp] theorem State.accept_clock (s : State) (o : Op) : (s.accept o).clock = s.clock := rfl
@[simp] theorem State.accept_outputs (s : State) (o : Op) : (s.accept o).outputs = s.outputs := rfl

/-! ### setBar -/

@[simp] theorem State.setBar_agenda (s : State) (f : Bar0 → Bar0) : (s.setBar f).agenda = s.agenda := rfl
@[simp] theorem State.setBar_cur (s : State) (f : Bar0 → Bar0) : (s.setBar f).cur = s.cur := rfl
@[simp] theorem State.setBar_nextId (s : State) (f : Bar0 → Bar0) : (s.setBar f).nextId = s.nextId := rfl
@[simp] theorem State.setBar_freeCount (s : State) (f : Bar0 → Bar0) : (s.setBar f).freeCount = s.freeCount := rfl
@[simp] theorem State.setBar_crews (s : State) (f : Bar0 → Bar0) : (s.setBar f).crews = s.crews := rfl
@[simp] theorem State.setBar_ops (s : State) (f : Bar0 → Bar0) : (s.setBar f).ops = s.ops := rfl
@[simp] theorem State.setBar_early (s : State) (f : Bar0 → Bar0) : (s.setBar f).early = s.early := rfl
@[simp] theorem State.setBar_arrivals (s : State) (f : Bar0 → Bar0) : (s.setBar f).arrivals = s.arrivals := rfl
@[simp] theorem State.setBar_launches (s : State) (f : Bar0 → Bar0) : (s.setBar f).launches = s.launches := rfl
@[simp] theorem State.setBar_nextLaunch (s : State) (f : Bar0 → Bar0) : (s.setBar f).nextLaunch = s.nextLaunch := rfl
@[simp] theorem State.setBar_cores (s : State) (f : Bar0 → Bar0) : (s.setBar f).cores = s.cores := rfl
@[simp] theorem State.setBar_dies (s : State) (f : Bar0 → Bar0) : (s.setBar f).dies = s.dies := rfl
@[simp] theorem State.setBar_mem (s : State) (f : Bar0 → Bar0) : (s.setBar f).mem = s.mem := rfl
@[simp] theorem State.setBar_undef (s : State) (f : Bar0 → Bar0) : (s.setBar f).undef = s.undef := rfl
@[simp] theorem State.setBar_stale (s : State) (f : Bar0 → Bar0) : (s.setBar f).stale = s.stale := rfl
@[simp] theorem State.setBar_mdata (s : State) (f : Bar0 → Bar0) : (s.setBar f).mdata = s.mdata := rfl
@[simp] theorem State.setBar_grades (s : State) (f : Bar0 → Bar0) : (s.setBar f).grades = s.grades := rfl
@[simp] theorem State.setBar_poisoned (s : State) (f : Bar0 → Bar0) : (s.setBar f).poisoned = s.poisoned := rfl
@[simp] theorem State.setBar_code (s : State) (f : Bar0 → Bar0) : (s.setBar f).code = s.code := rfl
@[simp] theorem State.setBar_xmaps (s : State) (f : Bar0 → Bar0) : (s.setBar f).xmaps = s.xmaps := rfl
@[simp] theorem State.setBar_tiles (s : State) (f : Bar0 → Bar0) : (s.setBar f).tiles = s.tiles := rfl
@[simp] theorem State.setBar_resident (s : State) (f : Bar0 → Bar0) : (s.setBar f).resident = s.resident := rfl
@[simp] theorem State.setBar_rcmps (s : State) (f : Bar0 → Bar0) : (s.setBar f).rcmps = s.rcmps := rfl
@[simp] theorem State.setBar_roots (s : State) (f : Bar0 → Bar0) : (s.setBar f).roots = s.roots := rfl
@[simp] theorem State.setBar_tables (s : State) (f : Bar0 → Bar0) : (s.setBar f).tables = s.tables := rfl
@[simp] theorem State.setBar_tick (s : State) (f : Bar0 → Bar0) : (s.setBar f).tick = s.tick := rfl
@[simp] theorem State.setBar_podReplay (s : State) (f : Bar0 → Bar0) : (s.setBar f).podReplay = s.podReplay := rfl
@[simp] theorem State.setBar_podV1fmt (s : State) (f : Bar0 → Bar0) : (s.setBar f).podV1fmt = s.podV1fmt := rfl
@[simp] theorem State.setBar_regions (s : State) (f : Bar0 → Bar0) : (s.setBar f).regions = s.regions := rfl
@[simp] theorem State.setBar_halves (s : State) (f : Bar0 → Bar0) : (s.setBar f).halves = s.halves := rfl
@[simp] theorem State.setBar_recalls (s : State) (f : Bar0 → Bar0) : (s.setBar f).recalls = s.recalls := rfl
@[simp] theorem State.setBar_hostWaits (s : State) (f : Bar0 → Bar0) : (s.setBar f).hostWaits = s.hostWaits := rfl
@[simp] theorem State.setBar_bands (s : State) (f : Bar0 → Bar0) : (s.setBar f).bands = s.bands := rfl
@[simp] theorem State.setBar_moved (s : State) (f : Bar0 → Bar0) : (s.setBar f).moved = s.moved := rfl
@[simp] theorem State.setBar_tickets (s : State) (f : Bar0 → Bar0) : (s.setBar f).tickets = s.tickets := rfl
@[simp] theorem State.setBar_reorder (s : State) (f : Bar0 → Bar0) : (s.setBar f).reorder = s.reorder := rfl
@[simp] theorem State.setBar_seen (s : State) (f : Bar0 → Bar0) : (s.setBar f).seen = s.seen := rfl
@[simp] theorem State.setBar_endpoint (s : State) (f : Bar0 → Bar0) : (s.setBar f).endpoint = s.endpoint := rfl
@[simp] theorem State.setBar_podSize (s : State) (f : Bar0 → Bar0) : (s.setBar f).podSize = s.podSize := rfl
@[simp] theorem State.setBar_vistitum (s : State) (f : Bar0 → Bar0) : (s.setBar f).vistitum = s.vistitum := rfl
@[simp] theorem State.setBar_ports (s : State) (f : Bar0 → Bar0) : (s.setBar f).ports = s.ports := rfl
@[simp] theorem State.setBar_completions (s : State) (f : Bar0 → Bar0) : (s.setBar f).completions = s.completions := rfl
@[simp] theorem State.setBar_shoots (s : State) (f : Bar0 → Bar0) : (s.setBar f).shoots = s.shoots := rfl
@[simp] theorem State.setBar_errlog (s : State) (f : Bar0 → Bar0) : (s.setBar f).errlog = s.errlog := rfl
@[simp] theorem State.setBar_errSeq (s : State) (f : Bar0 → Bar0) : (s.setBar f).errSeq = s.errSeq := rfl
@[simp] theorem State.setBar_flash (s : State) (f : Bar0 → Bar0) : (s.setBar f).flash = s.flash := rfl
@[simp] theorem State.setBar_secret (s : State) (f : Bar0 → Bar0) : (s.setBar f).secret = s.secret := rfl
@[simp] theorem State.setBar_clock (s : State) (f : Bar0 → Bar0) : (s.setBar f).clock = s.clock := rfl
@[simp] theorem State.setBar_outputs (s : State) (f : Bar0 → Bar0) : (s.setBar f).outputs = s.outputs := rfl

/-! ### complete -/

@[simp] theorem State.complete_agenda (s : State) (g : BitVec 16) (st x : Nat) : (s.complete g st x).agenda = s.agenda := rfl
@[simp] theorem State.complete_cur (s : State) (g : BitVec 16) (st x : Nat) : (s.complete g st x).cur = s.cur := rfl
@[simp] theorem State.complete_nextId (s : State) (g : BitVec 16) (st x : Nat) : (s.complete g st x).nextId = s.nextId := rfl
@[simp] theorem State.complete_freeCount (s : State) (g : BitVec 16) (st x : Nat) : (s.complete g st x).freeCount = s.freeCount := rfl
@[simp] theorem State.complete_crews (s : State) (g : BitVec 16) (st x : Nat) : (s.complete g st x).crews = s.crews := rfl
@[simp] theorem State.complete_ops (s : State) (g : BitVec 16) (st x : Nat) : (s.complete g st x).ops = s.ops := rfl
@[simp] theorem State.complete_early (s : State) (g : BitVec 16) (st x : Nat) : (s.complete g st x).early = s.early := rfl
@[simp] theorem State.complete_arrivals (s : State) (g : BitVec 16) (st x : Nat) : (s.complete g st x).arrivals = s.arrivals := rfl
@[simp] theorem State.complete_launches (s : State) (g : BitVec 16) (st x : Nat) : (s.complete g st x).launches = s.launches := rfl
@[simp] theorem State.complete_nextLaunch (s : State) (g : BitVec 16) (st x : Nat) : (s.complete g st x).nextLaunch = s.nextLaunch := rfl
@[simp] theorem State.complete_cores (s : State) (g : BitVec 16) (st x : Nat) : (s.complete g st x).cores = s.cores := rfl
@[simp] theorem State.complete_dies (s : State) (g : BitVec 16) (st x : Nat) : (s.complete g st x).dies = s.dies := rfl
@[simp] theorem State.complete_mem (s : State) (g : BitVec 16) (st x : Nat) : (s.complete g st x).mem = s.mem := rfl
@[simp] theorem State.complete_undef (s : State) (g : BitVec 16) (st x : Nat) : (s.complete g st x).undef = s.undef := rfl
@[simp] theorem State.complete_stale (s : State) (g : BitVec 16) (st x : Nat) : (s.complete g st x).stale = s.stale := rfl
@[simp] theorem State.complete_mdata (s : State) (g : BitVec 16) (st x : Nat) : (s.complete g st x).mdata = s.mdata := rfl
@[simp] theorem State.complete_grades (s : State) (g : BitVec 16) (st x : Nat) : (s.complete g st x).grades = s.grades := rfl
@[simp] theorem State.complete_poisoned (s : State) (g : BitVec 16) (st x : Nat) : (s.complete g st x).poisoned = s.poisoned := rfl
@[simp] theorem State.complete_code (s : State) (g : BitVec 16) (st x : Nat) : (s.complete g st x).code = s.code := rfl
@[simp] theorem State.complete_xmaps (s : State) (g : BitVec 16) (st x : Nat) : (s.complete g st x).xmaps = s.xmaps := rfl
@[simp] theorem State.complete_tiles (s : State) (g : BitVec 16) (st x : Nat) : (s.complete g st x).tiles = s.tiles := rfl
@[simp] theorem State.complete_resident (s : State) (g : BitVec 16) (st x : Nat) : (s.complete g st x).resident = s.resident := rfl
@[simp] theorem State.complete_rcmps (s : State) (g : BitVec 16) (st x : Nat) : (s.complete g st x).rcmps = s.rcmps := rfl
@[simp] theorem State.complete_roots (s : State) (g : BitVec 16) (st x : Nat) : (s.complete g st x).roots = s.roots := rfl
@[simp] theorem State.complete_tables (s : State) (g : BitVec 16) (st x : Nat) : (s.complete g st x).tables = s.tables := rfl
@[simp] theorem State.complete_tick (s : State) (g : BitVec 16) (st x : Nat) : (s.complete g st x).tick = s.tick := rfl
@[simp] theorem State.complete_podReplay (s : State) (g : BitVec 16) (st x : Nat) : (s.complete g st x).podReplay = s.podReplay := rfl
@[simp] theorem State.complete_podV1fmt (s : State) (g : BitVec 16) (st x : Nat) : (s.complete g st x).podV1fmt = s.podV1fmt := rfl
@[simp] theorem State.complete_regions (s : State) (g : BitVec 16) (st x : Nat) : (s.complete g st x).regions = s.regions := rfl
@[simp] theorem State.complete_halves (s : State) (g : BitVec 16) (st x : Nat) : (s.complete g st x).halves = s.halves := rfl
@[simp] theorem State.complete_recalls (s : State) (g : BitVec 16) (st x : Nat) : (s.complete g st x).recalls = s.recalls := rfl
@[simp] theorem State.complete_hostWaits (s : State) (g : BitVec 16) (st x : Nat) : (s.complete g st x).hostWaits = s.hostWaits := rfl
@[simp] theorem State.complete_bands (s : State) (g : BitVec 16) (st x : Nat) : (s.complete g st x).bands = s.bands := rfl
@[simp] theorem State.complete_moved (s : State) (g : BitVec 16) (st x : Nat) : (s.complete g st x).moved = s.moved := rfl
@[simp] theorem State.complete_tickets (s : State) (g : BitVec 16) (st x : Nat) : (s.complete g st x).tickets = s.tickets := rfl
@[simp] theorem State.complete_reorder (s : State) (g : BitVec 16) (st x : Nat) : (s.complete g st x).reorder = s.reorder := rfl
@[simp] theorem State.complete_seen (s : State) (g : BitVec 16) (st x : Nat) : (s.complete g st x).seen = s.seen := rfl
@[simp] theorem State.complete_endpoint (s : State) (g : BitVec 16) (st x : Nat) : (s.complete g st x).endpoint = s.endpoint := rfl
@[simp] theorem State.complete_podSize (s : State) (g : BitVec 16) (st x : Nat) : (s.complete g st x).podSize = s.podSize := rfl
@[simp] theorem State.complete_vistitum (s : State) (g : BitVec 16) (st x : Nat) : (s.complete g st x).vistitum = s.vistitum := rfl
@[simp] theorem State.complete_ports (s : State) (g : BitVec 16) (st x : Nat) : (s.complete g st x).ports = s.ports := rfl
@[simp] theorem State.complete_bar0 (s : State) (g : BitVec 16) (st x : Nat) : (s.complete g st x).bar0 = s.bar0 := rfl
@[simp] theorem State.complete_shoots (s : State) (g : BitVec 16) (st x : Nat) : (s.complete g st x).shoots = s.shoots := rfl
@[simp] theorem State.complete_errlog (s : State) (g : BitVec 16) (st x : Nat) : (s.complete g st x).errlog = s.errlog := rfl
@[simp] theorem State.complete_errSeq (s : State) (g : BitVec 16) (st x : Nat) : (s.complete g st x).errSeq = s.errSeq := rfl
@[simp] theorem State.complete_flash (s : State) (g : BitVec 16) (st x : Nat) : (s.complete g st x).flash = s.flash := rfl
@[simp] theorem State.complete_secret (s : State) (g : BitVec 16) (st x : Nat) : (s.complete g st x).secret = s.secret := rfl
@[simp] theorem State.complete_clock (s : State) (g : BitVec 16) (st x : Nat) : (s.complete g st x).clock = s.clock := rfl
@[simp] theorem State.complete_outputs (s : State) (g : BitVec 16) (st x : Nat) : (s.complete g st x).outputs = s.outputs := rfl

/-! ### setHalf -/

@[simp] theorem State.setHalf_agenda (s : State) (h : Nat) (st : Option HalfSt) : (s.setHalf h st).agenda = s.agenda := rfl
@[simp] theorem State.setHalf_cur (s : State) (h : Nat) (st : Option HalfSt) : (s.setHalf h st).cur = s.cur := rfl
@[simp] theorem State.setHalf_nextId (s : State) (h : Nat) (st : Option HalfSt) : (s.setHalf h st).nextId = s.nextId := rfl
@[simp] theorem State.setHalf_freeCount (s : State) (h : Nat) (st : Option HalfSt) : (s.setHalf h st).freeCount = s.freeCount := rfl
@[simp] theorem State.setHalf_crews (s : State) (h : Nat) (st : Option HalfSt) : (s.setHalf h st).crews = s.crews := rfl
@[simp] theorem State.setHalf_ops (s : State) (h : Nat) (st : Option HalfSt) : (s.setHalf h st).ops = s.ops := rfl
@[simp] theorem State.setHalf_early (s : State) (h : Nat) (st : Option HalfSt) : (s.setHalf h st).early = s.early := rfl
@[simp] theorem State.setHalf_arrivals (s : State) (h : Nat) (st : Option HalfSt) : (s.setHalf h st).arrivals = s.arrivals := rfl
@[simp] theorem State.setHalf_launches (s : State) (h : Nat) (st : Option HalfSt) : (s.setHalf h st).launches = s.launches := rfl
@[simp] theorem State.setHalf_nextLaunch (s : State) (h : Nat) (st : Option HalfSt) : (s.setHalf h st).nextLaunch = s.nextLaunch := rfl
@[simp] theorem State.setHalf_cores (s : State) (h : Nat) (st : Option HalfSt) : (s.setHalf h st).cores = s.cores := rfl
@[simp] theorem State.setHalf_dies (s : State) (h : Nat) (st : Option HalfSt) : (s.setHalf h st).dies = s.dies := rfl
@[simp] theorem State.setHalf_mem (s : State) (h : Nat) (st : Option HalfSt) : (s.setHalf h st).mem = s.mem := rfl
@[simp] theorem State.setHalf_undef (s : State) (h : Nat) (st : Option HalfSt) : (s.setHalf h st).undef = s.undef := rfl
@[simp] theorem State.setHalf_stale (s : State) (h : Nat) (st : Option HalfSt) : (s.setHalf h st).stale = s.stale := rfl
@[simp] theorem State.setHalf_mdata (s : State) (h : Nat) (st : Option HalfSt) : (s.setHalf h st).mdata = s.mdata := rfl
@[simp] theorem State.setHalf_grades (s : State) (h : Nat) (st : Option HalfSt) : (s.setHalf h st).grades = s.grades := rfl
@[simp] theorem State.setHalf_poisoned (s : State) (h : Nat) (st : Option HalfSt) : (s.setHalf h st).poisoned = s.poisoned := rfl
@[simp] theorem State.setHalf_code (s : State) (h : Nat) (st : Option HalfSt) : (s.setHalf h st).code = s.code := rfl
@[simp] theorem State.setHalf_xmaps (s : State) (h : Nat) (st : Option HalfSt) : (s.setHalf h st).xmaps = s.xmaps := rfl
@[simp] theorem State.setHalf_tiles (s : State) (h : Nat) (st : Option HalfSt) : (s.setHalf h st).tiles = s.tiles := rfl
@[simp] theorem State.setHalf_resident (s : State) (h : Nat) (st : Option HalfSt) : (s.setHalf h st).resident = s.resident := rfl
@[simp] theorem State.setHalf_rcmps (s : State) (h : Nat) (st : Option HalfSt) : (s.setHalf h st).rcmps = s.rcmps := rfl
@[simp] theorem State.setHalf_roots (s : State) (h : Nat) (st : Option HalfSt) : (s.setHalf h st).roots = s.roots := rfl
@[simp] theorem State.setHalf_tables (s : State) (h : Nat) (st : Option HalfSt) : (s.setHalf h st).tables = s.tables := rfl
@[simp] theorem State.setHalf_tick (s : State) (h : Nat) (st : Option HalfSt) : (s.setHalf h st).tick = s.tick := rfl
@[simp] theorem State.setHalf_podReplay (s : State) (h : Nat) (st : Option HalfSt) : (s.setHalf h st).podReplay = s.podReplay := rfl
@[simp] theorem State.setHalf_podV1fmt (s : State) (h : Nat) (st : Option HalfSt) : (s.setHalf h st).podV1fmt = s.podV1fmt := rfl
@[simp] theorem State.setHalf_regions (s : State) (h : Nat) (st : Option HalfSt) : (s.setHalf h st).regions = s.regions := rfl
@[simp] theorem State.setHalf_recalls (s : State) (h : Nat) (st : Option HalfSt) : (s.setHalf h st).recalls = s.recalls := rfl
@[simp] theorem State.setHalf_hostWaits (s : State) (h : Nat) (st : Option HalfSt) : (s.setHalf h st).hostWaits = s.hostWaits := rfl
@[simp] theorem State.setHalf_bands (s : State) (h : Nat) (st : Option HalfSt) : (s.setHalf h st).bands = s.bands := rfl
@[simp] theorem State.setHalf_moved (s : State) (h : Nat) (st : Option HalfSt) : (s.setHalf h st).moved = s.moved := rfl
@[simp] theorem State.setHalf_tickets (s : State) (h : Nat) (st : Option HalfSt) : (s.setHalf h st).tickets = s.tickets := rfl
@[simp] theorem State.setHalf_reorder (s : State) (h : Nat) (st : Option HalfSt) : (s.setHalf h st).reorder = s.reorder := rfl
@[simp] theorem State.setHalf_seen (s : State) (h : Nat) (st : Option HalfSt) : (s.setHalf h st).seen = s.seen := rfl
@[simp] theorem State.setHalf_endpoint (s : State) (h : Nat) (st : Option HalfSt) : (s.setHalf h st).endpoint = s.endpoint := rfl
@[simp] theorem State.setHalf_podSize (s : State) (h : Nat) (st : Option HalfSt) : (s.setHalf h st).podSize = s.podSize := rfl
@[simp] theorem State.setHalf_vistitum (s : State) (h : Nat) (st : Option HalfSt) : (s.setHalf h st).vistitum = s.vistitum := rfl
@[simp] theorem State.setHalf_ports (s : State) (h : Nat) (st : Option HalfSt) : (s.setHalf h st).ports = s.ports := rfl
@[simp] theorem State.setHalf_bar0 (s : State) (h : Nat) (st : Option HalfSt) : (s.setHalf h st).bar0 = s.bar0 := rfl
@[simp] theorem State.setHalf_completions (s : State) (h : Nat) (st : Option HalfSt) : (s.setHalf h st).completions = s.completions := rfl
@[simp] theorem State.setHalf_shoots (s : State) (h : Nat) (st : Option HalfSt) : (s.setHalf h st).shoots = s.shoots := rfl
@[simp] theorem State.setHalf_errlog (s : State) (h : Nat) (st : Option HalfSt) : (s.setHalf h st).errlog = s.errlog := rfl
@[simp] theorem State.setHalf_errSeq (s : State) (h : Nat) (st : Option HalfSt) : (s.setHalf h st).errSeq = s.errSeq := rfl
@[simp] theorem State.setHalf_flash (s : State) (h : Nat) (st : Option HalfSt) : (s.setHalf h st).flash = s.flash := rfl
@[simp] theorem State.setHalf_secret (s : State) (h : Nat) (st : Option HalfSt) : (s.setHalf h st).secret = s.secret := rfl
@[simp] theorem State.setHalf_clock (s : State) (h : Nat) (st : Option HalfSt) : (s.setHalf h st).clock = s.clock := rfl
@[simp] theorem State.setHalf_outputs (s : State) (h : Nat) (st : Option HalfSt) : (s.setHalf h st).outputs = s.outputs := rfl

/-! ### setRegion -/

@[simp] theorem State.setRegion_agenda (s : State) (g : Nat) (m : RegionMode) : (s.setRegion g m).agenda = s.agenda := rfl
@[simp] theorem State.setRegion_cur (s : State) (g : Nat) (m : RegionMode) : (s.setRegion g m).cur = s.cur := rfl
@[simp] theorem State.setRegion_nextId (s : State) (g : Nat) (m : RegionMode) : (s.setRegion g m).nextId = s.nextId := rfl
@[simp] theorem State.setRegion_freeCount (s : State) (g : Nat) (m : RegionMode) : (s.setRegion g m).freeCount = s.freeCount := rfl
@[simp] theorem State.setRegion_crews (s : State) (g : Nat) (m : RegionMode) : (s.setRegion g m).crews = s.crews := rfl
@[simp] theorem State.setRegion_ops (s : State) (g : Nat) (m : RegionMode) : (s.setRegion g m).ops = s.ops := rfl
@[simp] theorem State.setRegion_early (s : State) (g : Nat) (m : RegionMode) : (s.setRegion g m).early = s.early := rfl
@[simp] theorem State.setRegion_arrivals (s : State) (g : Nat) (m : RegionMode) : (s.setRegion g m).arrivals = s.arrivals := rfl
@[simp] theorem State.setRegion_launches (s : State) (g : Nat) (m : RegionMode) : (s.setRegion g m).launches = s.launches := rfl
@[simp] theorem State.setRegion_nextLaunch (s : State) (g : Nat) (m : RegionMode) : (s.setRegion g m).nextLaunch = s.nextLaunch := rfl
@[simp] theorem State.setRegion_cores (s : State) (g : Nat) (m : RegionMode) : (s.setRegion g m).cores = s.cores := rfl
@[simp] theorem State.setRegion_dies (s : State) (g : Nat) (m : RegionMode) : (s.setRegion g m).dies = s.dies := rfl
@[simp] theorem State.setRegion_mem (s : State) (g : Nat) (m : RegionMode) : (s.setRegion g m).mem = s.mem := rfl
@[simp] theorem State.setRegion_undef (s : State) (g : Nat) (m : RegionMode) : (s.setRegion g m).undef = s.undef := rfl
@[simp] theorem State.setRegion_stale (s : State) (g : Nat) (m : RegionMode) : (s.setRegion g m).stale = s.stale := rfl
@[simp] theorem State.setRegion_mdata (s : State) (g : Nat) (m : RegionMode) : (s.setRegion g m).mdata = s.mdata := rfl
@[simp] theorem State.setRegion_grades (s : State) (g : Nat) (m : RegionMode) : (s.setRegion g m).grades = s.grades := rfl
@[simp] theorem State.setRegion_poisoned (s : State) (g : Nat) (m : RegionMode) : (s.setRegion g m).poisoned = s.poisoned := rfl
@[simp] theorem State.setRegion_code (s : State) (g : Nat) (m : RegionMode) : (s.setRegion g m).code = s.code := rfl
@[simp] theorem State.setRegion_xmaps (s : State) (g : Nat) (m : RegionMode) : (s.setRegion g m).xmaps = s.xmaps := rfl
@[simp] theorem State.setRegion_tiles (s : State) (g : Nat) (m : RegionMode) : (s.setRegion g m).tiles = s.tiles := rfl
@[simp] theorem State.setRegion_resident (s : State) (g : Nat) (m : RegionMode) : (s.setRegion g m).resident = s.resident := rfl
@[simp] theorem State.setRegion_rcmps (s : State) (g : Nat) (m : RegionMode) : (s.setRegion g m).rcmps = s.rcmps := rfl
@[simp] theorem State.setRegion_roots (s : State) (g : Nat) (m : RegionMode) : (s.setRegion g m).roots = s.roots := rfl
@[simp] theorem State.setRegion_tables (s : State) (g : Nat) (m : RegionMode) : (s.setRegion g m).tables = s.tables := rfl
@[simp] theorem State.setRegion_tick (s : State) (g : Nat) (m : RegionMode) : (s.setRegion g m).tick = s.tick := rfl
@[simp] theorem State.setRegion_podReplay (s : State) (g : Nat) (m : RegionMode) : (s.setRegion g m).podReplay = s.podReplay := rfl
@[simp] theorem State.setRegion_podV1fmt (s : State) (g : Nat) (m : RegionMode) : (s.setRegion g m).podV1fmt = s.podV1fmt := rfl
@[simp] theorem State.setRegion_halves (s : State) (g : Nat) (m : RegionMode) : (s.setRegion g m).halves = s.halves := rfl
@[simp] theorem State.setRegion_recalls (s : State) (g : Nat) (m : RegionMode) : (s.setRegion g m).recalls = s.recalls := rfl
@[simp] theorem State.setRegion_hostWaits (s : State) (g : Nat) (m : RegionMode) : (s.setRegion g m).hostWaits = s.hostWaits := rfl
@[simp] theorem State.setRegion_bands (s : State) (g : Nat) (m : RegionMode) : (s.setRegion g m).bands = s.bands := rfl
@[simp] theorem State.setRegion_moved (s : State) (g : Nat) (m : RegionMode) : (s.setRegion g m).moved = s.moved := rfl
@[simp] theorem State.setRegion_tickets (s : State) (g : Nat) (m : RegionMode) : (s.setRegion g m).tickets = s.tickets := rfl
@[simp] theorem State.setRegion_reorder (s : State) (g : Nat) (m : RegionMode) : (s.setRegion g m).reorder = s.reorder := rfl
@[simp] theorem State.setRegion_seen (s : State) (g : Nat) (m : RegionMode) : (s.setRegion g m).seen = s.seen := rfl
@[simp] theorem State.setRegion_endpoint (s : State) (g : Nat) (m : RegionMode) : (s.setRegion g m).endpoint = s.endpoint := rfl
@[simp] theorem State.setRegion_podSize (s : State) (g : Nat) (m : RegionMode) : (s.setRegion g m).podSize = s.podSize := rfl
@[simp] theorem State.setRegion_vistitum (s : State) (g : Nat) (m : RegionMode) : (s.setRegion g m).vistitum = s.vistitum := rfl
@[simp] theorem State.setRegion_ports (s : State) (g : Nat) (m : RegionMode) : (s.setRegion g m).ports = s.ports := rfl
@[simp] theorem State.setRegion_bar0 (s : State) (g : Nat) (m : RegionMode) : (s.setRegion g m).bar0 = s.bar0 := rfl
@[simp] theorem State.setRegion_completions (s : State) (g : Nat) (m : RegionMode) : (s.setRegion g m).completions = s.completions := rfl
@[simp] theorem State.setRegion_shoots (s : State) (g : Nat) (m : RegionMode) : (s.setRegion g m).shoots = s.shoots := rfl
@[simp] theorem State.setRegion_errlog (s : State) (g : Nat) (m : RegionMode) : (s.setRegion g m).errlog = s.errlog := rfl
@[simp] theorem State.setRegion_errSeq (s : State) (g : Nat) (m : RegionMode) : (s.setRegion g m).errSeq = s.errSeq := rfl
@[simp] theorem State.setRegion_flash (s : State) (g : Nat) (m : RegionMode) : (s.setRegion g m).flash = s.flash := rfl
@[simp] theorem State.setRegion_secret (s : State) (g : Nat) (m : RegionMode) : (s.setRegion g m).secret = s.secret := rfl
@[simp] theorem State.setRegion_clock (s : State) (g : Nat) (m : RegionMode) : (s.setRegion g m).clock = s.clock := rfl
@[simp] theorem State.setRegion_outputs (s : State) (g : Nat) (m : RegionMode) : (s.setRegion g m).outputs = s.outputs := rfl

/-! ### Crews, warps and threads -/

@[simp] theorem Crew.setWarp_id (c : Crew) (w : Nat) (f : Warp → Warp) : (c.setWarp w f).id = c.id := rfl
@[simp] theorem Crew.setWarp_launch (c : Crew) (w : Nat) (f : Warp → Warp) : (c.setWarp w f).launch = c.launch := rfl
@[simp] theorem Crew.setWarp_kind (c : Crew) (w : Nat) (f : Warp → Warp) : (c.setWarp w f).kind = c.kind := rfl
@[simp] theorem Crew.setWarp_core (c : Crew) (w : Nat) (f : Warp → Warp) : (c.setWarp w f).core = c.core := rfl
@[simp] theorem Crew.setWarp_cluster (c : Crew) (w : Nat) (f : Warp → Warp) : (c.setWarp w f).cluster = c.cluster := rfl
@[simp] theorem Crew.setWarp_index (c : Crew) (w : Nat) (f : Warp → Warp) : (c.setWarp w f).index = c.index := rfl
@[simp] theorem Crew.setWarp_stage (c : Crew) (w : Nat) (f : Warp → Warp) : (c.setWarp w f).stage = c.stage := rfl
@[simp] theorem Crew.setWarp_dims (c : Crew) (w : Nat) (f : Warp → Warp) : (c.setWarp w f).dims = c.dims := rfl
@[simp] theorem Crew.setWarp_regs (c : Crew) (w : Nat) (f : Warp → Warp) : (c.setWarp w f).regs = c.regs := rfl
@[simp] theorem Crew.setWarp_csmSize (c : Crew) (w : Nat) (f : Warp → Warp) : (c.setWarp w f).csmSize = c.csmSize := rfl
@[simp] theorem Crew.setWarp_slots (c : Crew) (w : Nat) (f : Warp → Warp) : (c.setWarp w f).slots = c.slots := rfl
@[simp] theorem Crew.setWarp_accs (c : Crew) (w : Nat) (f : Warp → Warp) : (c.setWarp w f).accs = c.accs := rfl
@[simp] theorem Crew.setWarp_shapesN (c : Crew) (w : Nat) (f : Warp → Warp) : (c.setWarp w f).shapesN = c.shapesN := rfl
@[simp] theorem Crew.setWarp_barsN (c : Crew) (w : Nat) (f : Warp → Warp) : (c.setWarp w f).barsN = c.barsN := rfl
@[simp] theorem Crew.setWarp_corner (c : Crew) (w : Nat) (f : Warp → Warp) : (c.setWarp w f).corner = c.corner := rfl
@[simp] theorem Crew.setWarp_rect (c : Crew) (w : Nat) (f : Warp → Warp) : (c.setWarp w f).rect = c.rect := rfl
@[simp] theorem Crew.setWarp_argp (c : Crew) (w : Nat) (f : Warp → Warp) : (c.setWarp w f).argp = c.argp := rfl
@[simp] theorem Crew.setWarp_lsize (c : Crew) (w : Nat) (f : Warp → Warp) : (c.setWarp w f).lsize = c.lsize := rfl
@[simp] theorem Crew.setWarp_csm (c : Crew) (w : Nat) (f : Warp → Warp) : (c.setWarp w f).csm = c.csm := rfl
@[simp] theorem Crew.setWarp_full (c : Crew) (w : Nat) (f : Warp → Warp) : (c.setWarp w f).full = c.full := rfl
@[simp] theorem Crew.setWarp_bars (c : Crew) (w : Nat) (f : Warp → Warp) : (c.setWarp w f).bars = c.bars := rfl
@[simp] theorem Crew.setWarp_shapes (c : Crew) (w : Nat) (f : Warp → Warp) : (c.setWarp w f).shapes = c.shapes := rfl
@[simp] theorem Crew.setWarp_acc (c : Crew) (w : Nat) (f : Warp → Warp) : (c.setWarp w f).acc = c.acc := rfl
@[simp] theorem Crew.setWarp_ops (c : Crew) (w : Nat) (f : Warp → Warp) : (c.setWarp w f).ops = c.ops := rfl
@[simp] theorem Crew.setWarp_side (c : Crew) (w : Nat) (f : Warp → Warp) : (c.setWarp w f).side = c.side := rfl
@[simp] theorem Crew.setWarp_remain (c : Crew) (w : Nat) (f : Warp → Warp) : (c.setWarp w f).remain = c.remain := rfl
@[simp] theorem Crew.setWarp_pend (c : Crew) (w : Nat) (f : Warp → Warp) : (c.setWarp w f).pend = c.pend := rfl
@[simp] theorem Crew.setWarp_coop (c : Crew) (w : Nat) (f : Warp → Warp) : (c.setWarp w f).coop = c.coop := rfl
@[simp] theorem Crew.setWarp_ctxarea (c : Crew) (w : Nat) (f : Warp → Warp) : (c.setWarp w f).ctxarea = c.ctxarea := rfl
@[simp] theorem Crew.setWarp_taskid (c : Crew) (w : Nat) (f : Warp → Warp) : (c.setWarp w f).taskid = c.taskid := rfl
@[simp] theorem Crew.setWarp_rcinfo (c : Crew) (w : Nat) (f : Warp → Warp) : (c.setWarp w f).rcinfo = c.rcinfo := rfl
@[simp] theorem Crew.setWarp_save (c : Crew) (w : Nat) (f : Warp → Warp) : (c.setWarp w f).save = c.save := rfl
@[simp] theorem Crew.setWarp_heldLoad (c : Crew) (w : Nat) (f : Warp → Warp) : (c.setWarp w f).heldLoad = c.heldLoad := rfl
@[simp] theorem Crew.setWarp_latePoison (c : Crew) (w : Nat) (f : Warp → Warp) : (c.setWarp w f).latePoison = c.latePoison := rfl
@[simp] theorem Crew.setWarp_recipeWrite (c : Crew) (w : Nat) (f : Warp → Warp) : (c.setWarp w f).recipeWrite = c.recipeWrite := rfl

@[simp] theorem Warp.setThread_slot (w : Warp) (l : Nat) (f : Thread → Thread) : (w.setThread l f).slot = w.slot := rfl
@[simp] theorem Warp.setThread_toks (w : Warp) (l : Nat) (f : Thread → Thread) : (w.setThread l f).toks = w.toks := rfl
@[simp] theorem Warp.setThread_u (w : Warp) (l : Nat) (f : Thread → Thread) : (w.setThread l f).u = w.u := rfl
@[simp] theorem Warp.setThread_tstat (w : Warp) (l : Nat) (f : Thread → Thread) : (w.setThread l f).tstat = w.tstat := rfl
@[simp] theorem Warp.setThread_ptrap (w : Warp) (l : Nat) (f : Thread → Thread) : (w.setThread l f).ptrap = w.ptrap := rfl
@[simp] theorem Warp.setThread_wdtrap (w : Warp) (l : Nat) (f : Thread → Thread) : (w.setThread l f).wdtrap = w.wdtrap := rfl
@[simp] theorem Warp.setThread_part (w : Warp) (l : Nat) (f : Thread → Thread) : (w.setThread l f).part = w.part := rfl
@[simp] theorem Warp.setThread_wdCount (w : Warp) (l : Nat) (f : Thread → Thread) : (w.setThread l f).wdCount = w.wdCount := rfl
@[simp] theorem Warp.setThread_wdLimit (w : Warp) (l : Nat) (f : Thread → Thread) : (w.setThread l f).wdLimit = w.wdLimit := rfl
@[simp] theorem Warp.setThread_joins (w : Warp) (l : Nat) (f : Thread → Thread) : (w.setThread l f).joins = w.joins := rfl
@[simp] theorem Warp.setThread_nbv (w : Warp) (l : Nat) (f : Thread → Thread) : (w.setThread l f).nbv = w.nbv := rfl
@[simp] theorem Warp.setThread_heldL (w : Warp) (l : Nat) (f : Thread → Thread) : (w.setThread l f).heldL = w.heldL := rfl
@[simp] theorem Warp.setThread_waitFor (w : Warp) (l : Nat) (f : Thread → Thread) : (w.setThread l f).waitFor = w.waitFor := rfl
@[simp] theorem Warp.setThread_fbuf (w : Warp) (l : Nat) (f : Thread → Thread) : (w.setThread l f).fbuf = w.fbuf := rfl
@[simp] theorem Warp.setThread_lostLine (w : Warp) (l : Nat) (f : Thread → Thread) : (w.setThread l f).lostLine = w.lostLine := rfl
@[simp] theorem Warp.setThread_fences (w : Warp) (l : Nat) (f : Thread → Thread) : (w.setThread l f).fences = w.fences := rfl
@[simp] theorem Warp.setThread_acqs (w : Warp) (l : Nat) (f : Thread → Thread) : (w.setThread l f).acqs = w.acqs := rfl
@[simp] theorem Warp.setThread_sigs (w : Warp) (l : Nat) (f : Thread → Thread) : (w.setThread l f).sigs = w.sigs := rfl
@[simp] theorem Warp.setThread_fabFails (w : Warp) (l : Nat) (f : Thread → Thread) : (w.setThread l f).fabFails = w.fabFails := rfl
@[simp] theorem Warp.setThread_last (w : Warp) (l : Nat) (f : Thread → Thread) : (w.setThread l f).last = w.last := rfl
@[simp] theorem Warp.setThread_yieldTo (w : Warp) (l : Nat) (f : Thread → Thread) : (w.setThread l f).yieldTo = w.yieldTo := rfl
@[simp] theorem Warp.setThread_yieldCy (w : Warp) (l : Nat) (f : Thread → Thread) : (w.setThread l f).yieldCy = w.yieldCy := rfl
@[simp] theorem Warp.setThread_wdYield (w : Warp) (l : Nat) (f : Thread → Thread) : (w.setThread l f).wdYield = w.wdYield := rfl

@[simp] theorem Thread.goto_run (t : Thread) (p : VAddr) : (t.goto p).run = t.run := rfl
@[simp] theorem Thread.goto_fresh (t : Thread) (p : VAddr) : (t.goto p).fresh = t.fresh := rfl
@[simp] theorem Thread.goto_preds (t : Thread) (p : VAddr) : (t.goto p).preds = t.preds := rfl
@[simp] theorem Thread.goto_v (t : Thread) (p : VAddr) : (t.goto p).v = t.v := rfl
@[simp] theorem Thread.goto_ix (t : Thread) (p : VAddr) : (t.goto p).ix = t.ix := rfl
@[simp] theorem Thread.goto_csp (t : Thread) (p : VAddr) : (t.goto p).csp = t.csp := rfl
@[simp] theorem Thread.goto_fflags (t : Thread) (p : VAddr) : (t.goto p).fflags = t.fflags := rfl
@[simp] theorem Thread.goto_fenv (t : Thread) (p : VAddr) : (t.goto p).fenv = t.fenv := rfl
@[simp] theorem Thread.goto_tcause (t : Thread) (p : VAddr) : (t.goto p).tcause = t.tcause := rfl
@[simp] theorem Thread.goto_tpc (t : Thread) (p : VAddr) : (t.goto p).tpc = t.tpc := rfl
@[simp] theorem Thread.goto_tpc0 (t : Thread) (p : VAddr) : (t.goto p).tpc0 = t.tpc0 := rfl
@[simp] theorem Thread.goto_taddr (t : Thread) (p : VAddr) : (t.goto p).taddr = t.taddr := rfl
@[simp] theorem Thread.goto_tmode (t : Thread) (p : VAddr) : (t.goto p).tmode = t.tmode := rfl
@[simp] theorem Thread.goto_tscr0 (t : Thread) (p : VAddr) : (t.goto p).tscr0 = t.tscr0 := rfl
@[simp] theorem Thread.goto_tscr1 (t : Thread) (p : VAddr) : (t.goto p).tscr1 = t.tscr1 := rfl
@[simp] theorem Thread.goto_lostStack (t : Thread) (p : VAddr) : (t.goto p).lostStack = t.lostStack := rfl
@[simp] theorem Thread.goto_stackRecall (t : Thread) (p : VAddr) : (t.goto p).stackRecall = t.stackRecall := rfl
@[simp] theorem Thread.goto_heldWatchdog (t : Thread) (p : VAddr) : (t.goto p).heldWatchdog = t.heldWatchdog := rfl
@[simp] theorem Thread.goto_heldPreempt (t : Thread) (p : VAddr) : (t.goto p).heldPreempt = t.heldPreempt := rfl
@[simp] theorem Thread.goto_pc (t : Thread) (p : VAddr) : (t.goto p).pc = p := rfl
@[simp] theorem Thread.goto_owed (t : Thread) (p : VAddr) : (t.goto p).owed = false := rfl

end Sys2Proof.Machine
end

