-- ==== Sys2Proof/Laws/Access.lean ====
section
/-! SUPPORT. What reading one piece of the state answers after a change of one piece: lists by index and by number, crews,
warps, threads, operations and launches. -/

namespace Sys2Proof.Machine

/-! ### Lists -/

@[simp] theorem length_updAt {α : Type} (n : Nat) (f : α → α) (xs : List α) : (updAt n f xs).length = xs.length := by
  induction xs generalizing n with
  | nil => cases n <;> rfl
  | cons x xs ih => cases n <;> simp [updAt, ih]

theorem getElem?_updAt {α : Type} (n k : Nat) (f : α → α) (xs : List α) :
    (updAt n f xs)[k]? = if n = k then xs[k]?.map f else xs[k]? := by
  induction xs generalizing n k with
  | nil => cases n <;> simp [updAt]
  | cons x xs ih => cases n <;> cases k <;> simp [updAt, ih]

@[simp] theorem length_updWhere {α : Type} (p : α → Bool) (f : α → α) (xs : List α) :
    (updWhere p f xs).length = xs.length := by simp [updWhere]

/-- The first element of a number, after a change of the elements of a number. -/
theorem find?_updWhere {α : Type} (key : α → Nat) (id k : Nat) (f : α → α) (hf : ∀ x, key x = id → key (f x) = id)
    (xs : List α) :
    (updWhere (fun x => key x == id) f xs).find? (fun x => key x == k) =
      if k = id then (xs.find? fun x => key x == k).map f else xs.find? fun x => key x == k := by
  induction xs with
  | nil => simp [updWhere]
  | cons x xs ih =>
    unfold updWhere at ih ⊢
    rw [List.map_cons, List.find?_cons, List.find?_cons, ih]
    by_cases hx : key x = id
    · have hfx := hf x hx
      by_cases hk : k = id
      · simp [-List.find?_map, hx, hfx, hk]
      · have hid : (id == k) = false := by simpa using fun h : id = k => hk h.symm
        simp [-List.find?_map, hx, hfx, hk, hid]
    · have hxb : (key x == id) = false := by simpa using hx
      by_cases hk : k = id
      · simp [-List.find?_map, hk, hxb]
      · simp [-List.find?_map, hxb, hk]

/-! ### Crews, warps and threads -/

theorem State.crew?_setCrew (s : State) (id k : Nat) (f : Crew → Crew) (hf : ∀ c, (f c).id = c.id) :
    (s.setCrew id f).crew? k = if k = id then (s.crew? k).map f else s.crew? k :=
  find?_updWhere Crew.id id k f (fun c h => by rw [hf, h]) s.crews

theorem State.crew?_setWarp (s : State) (id w k : Nat) (f : Warp → Warp) :
    (s.setWarp id w f).crew? k = if k = id then (s.crew? k).map (fun c => c.setWarp w f) else s.crew? k :=
  State.crew?_setCrew s id k _ fun _ => rfl

theorem State.warp?_setWarp (s : State) (id w k n : Nat) (f : Warp → Warp) :
    (s.setWarp id w f).warp? k n = if k = id ∧ n = w then (s.warp? k n).map f else s.warp? k n := by
  unfold State.warp?
  rw [State.crew?_setWarp]
  by_cases hk : k = id
  · subst hk
    cases h : s.crew? k <;> simp [Crew.setWarp, getElem?_updAt, eq_comm]
  · simp [hk]

theorem State.thread?_setThread (s : State) (id w l k n m : Nat) (f : Thread → Thread) :
    (s.setThread id w l f).thread? k n m = if k = id ∧ n = w ∧ m = l then (s.thread? k n m).map f else s.thread? k n m := by
  unfold State.thread? State.setThread
  rw [State.warp?_setWarp]
  by_cases h : k = id ∧ n = w
  · cases hw : s.warp? k n <;> simp [h, Warp.setThread, getElem?_updAt, eq_comm]
  · rw [if_neg h, if_neg (fun h' => h ⟨h'.1, h'.2.1⟩)]

/-! ### Operations and launches -/

theorem State.op?_setOp (s : State) (id k : Nat) (f : Op → Op) (hf : ∀ o, (f o).id = o.id) :
    (s.setOp id f).op? k = if k = id then (s.op? k).map f else s.op? k :=
  find?_updWhere Op.id id k f (fun o h => by rw [hf, h]) s.ops

theorem State.op?_setLane (s : State) (id l k : Nat) (f : LaneAcc → LaneAcc) :
    (s.setLane id l f).op? k =
      if k = id then (s.op? k).map (fun o => { o with acc := updWhere (fun a => a.lane == l) f o.acc }) else s.op? k :=
  State.op?_setOp s id k _ fun _ => rfl

/-- A forgotten operation is gone, and no other is. -/
theorem State.op?_dropOp (s : State) (id k : Nat) : (s.dropOp id).op? k = if k = id then none else s.op? k := by
  unfold State.op? State.dropOp
  by_cases h : k = id
  · subst h; simp [List.find?_filter]
  · rw [if_neg h]
    induction s.ops with
    | nil => rfl
    | cons o os ih =>
      rw [List.filter_cons, List.find?_cons]
      by_cases ho : o.id = id
      · have hk : (o.id == k) = false := by simpa using fun h' : o.id = k => h (h' ▸ ho)
        simp only [ho, bne_self_eq_false, Bool.false_eq_true, if_false, ih]
        rw [← ho, hk]
      · have hb : (o.id != id) = true := by simpa using ho
        rw [if_pos hb, List.find?_cons, ih]

theorem State.launch?_setLaunch (s : State) (n k : Nat) (f : Launch → Launch) (hf : ∀ l, (f l).num = l.num) :
    (s.setLaunch n f).launch? k = if k = n then (s.launch? k).map f else s.launch? k :=
  find?_updWhere Launch.num n k f (fun l h => by rw [hf, h]) s.launches

/-! ### Cores and dies -/

theorem State.core_setCore (s : State) (c k : Nat) (f : Core → Core) (h : c < s.cores.length) :
    (s.setCore c f).core k = if k = c then f (s.core c) else s.core k := by
  unfold State.core State.setCore
  rw [getElem?_updAt]
  by_cases hk : k = c
  · subst hk; rw [if_pos rfl, if_pos rfl, List.getElem?_eq_getElem h]; rfl
  · rw [if_neg (fun h' => hk h'.symm), if_neg hk]

theorem State.die_setDie (s : State) (d k : Nat) (f : Die → Die) (h : d < s.dies.length) :
    (s.setDie d f).die k = if k = d then f (s.die d) else s.die k := by
  unfold State.die State.setDie
  rw [getElem?_updAt]
  by_cases hk : k = d
  · subst hk; rw [if_pos rfl, if_pos rfl, List.getElem?_eq_getElem h]; rfl
  · rw [if_neg (fun h' => hk h'.symm), if_neg hk]

/-! ### The error log -/

/-- Logging changes the log, its numbering and the completions, and nothing else. -/
theorem State.logErr_frame (s : State) (cls kind : Nat) (origin : Word) (addr : DWord) (launch : Nat) (detail : DWord) :
    s.logErr cls kind origin addr launch detail =
      { s with
        errlog := (s.logErr cls kind origin addr launch detail).errlog
        errSeq := (s.logErr cls kind origin addr launch detail).errSeq
        completions := (s.logErr cls kind origin addr launch detail).completions } := by
  unfold State.logErr
  generalize (if (decide (8 ≤ kind) && kind != 13) = true then 3 else cls) = k
  cases s.errlog.getLast? with
  | none => rfl
  | some e =>
    dsimp only
    split <;> rfl

/-- An entry of class 0 or 1 makes no completion. -/
theorem State.logErr_completions (s : State) (cls kind : Nat) (origin : Word) (addr : DWord) (launch : Nat) (detail : DWord)
    (h : cls ≤ 1) (hk : kind < 8) : (s.logErr cls kind origin addr launch detail).completions = s.completions := by
  have hd : (decide (8 ≤ kind) && kind != 13) = false := by simp; omega
  have hc : ¬ 2 ≤ cls := by omega
  unfold State.logErr
  simp only [hd, Bool.false_eq_true, if_false]
  cases s.errlog.getLast? with
  | none => simp [State.logErr.push, hc]
  | some e =>
    dsimp only
    split
    · rfl
    · simp [State.logErr.push, hc]

end Sys2Proof.Machine
end

