-- ==== Sys2Proof/Laws/Memory.lean ====
section
/-! SUPPORT. Memory: the cells keep their canonical form under every operation, what is written is read back, and every
other byte reads as before. -/

namespace Sys2Proof.Machine

/-! ### Cells -/

theorem cellsRise_weaken {α : Type} {lo lo' : Nat} (h : lo' ≤ lo) {m : List (Nat × α)} (hm : cellsRise lo m = true) :
    cellsRise lo' m = true := by
  cases m with
  | nil => rfl
  | cons x xs =>
    simp only [cellsRise, Bool.and_eq_true, decide_eq_true_eq] at hm ⊢
    exact ⟨Nat.le_trans h hm.1, hm.2⟩

/-- No cell stands below the bound of a rising list. -/
theorem cellGet_below {α : Type} {lo k : Nat} {m : List (Nat × α)} (hm : cellsRise lo m = true) (hk : k < lo) :
    cellGet k m = none := by
  cases m with
  | nil => rfl
  | cons x xs =>
    simp only [cellsRise, Bool.and_eq_true, decide_eq_true_eq] at hm
    simp [cellGet, show ¬ x.1 = k by omega, show k < x.1 by omega]

theorem cellsRise_cellPut {α : Type} {lo k : Nat} (v : α) {m : List (Nat × α)} (hm : cellsRise lo m = true) (hk : lo ≤ k) :
    cellsRise lo (cellPut k v m) = true := by
  induction m generalizing lo with
  | nil => simp [cellPut, cellsRise, hk]
  | cons x xs ih =>
    simp only [cellsRise, Bool.and_eq_true, decide_eq_true_eq] at hm
    unfold cellPut
    split
    · simp only [cellsRise, Bool.and_eq_true, decide_eq_true_eq]
      exact ⟨hk, by omega, hm.2⟩
    · split
      · next h1 h2 => subst h2; simp only [cellsRise, Bool.and_eq_true, decide_eq_true_eq]; exact ⟨hk, hm.2⟩
      · simp only [cellsRise, Bool.and_eq_true, decide_eq_true_eq]
        exact ⟨hm.1, ih hm.2 (by omega)⟩

theorem cellsRise_cellDel {α : Type} {lo : Nat} (k : Nat) {m : List (Nat × α)} (hm : cellsRise lo m = true) :
    cellsRise lo (cellDel k m) = true := by
  induction m generalizing lo with
  | nil => rfl
  | cons x xs ih =>
    have h := hm
    simp only [cellsRise, Bool.and_eq_true, decide_eq_true_eq] at hm
    unfold cellDel
    split
    · exact h
    · split
      · exact cellsRise_weaken (by omega) hm.2
      · simp only [cellsRise, Bool.and_eq_true, decide_eq_true_eq]
        exact ⟨hm.1, ih hm.2⟩

/-- A filter keeps the keys rising. -/
theorem cellsRise_filter {α : Type} {lo : Nat} (p : Nat × α → Bool) {m : List (Nat × α)} (hm : cellsRise lo m = true) :
    cellsRise lo (m.filter p) = true := by
  induction m generalizing lo with
  | nil => rfl
  | cons x xs ih =>
    simp only [cellsRise, Bool.and_eq_true, decide_eq_true_eq] at hm
    rw [List.filter_cons]
    split
    · simp only [cellsRise, Bool.and_eq_true, decide_eq_true_eq]
      exact ⟨hm.1, ih hm.2⟩
    · exact cellsRise_weaken (by omega) (ih hm.2)

theorem cellGet_cellPut {α : Type} {lo : Nat} (a k : Nat) (v : α) {m : List (Nat × α)} (hm : cellsRise lo m = true) :
    cellGet a (cellPut k v m) = if a = k then some v else cellGet a m := by
  induction m generalizing lo with
  | nil =>
    by_cases h : a = k
    · simp [cellPut, cellGet, h]
    · simp [cellPut, cellGet, h, show ¬ k = a from fun h' => h h'.symm]
  | cons x xs ih =>
    simp only [cellsRise, Bool.and_eq_true, decide_eq_true_eq] at hm
    unfold cellPut
    split
    · by_cases h : a = k
      · simp [cellGet, h]
      · by_cases hx : a < x.1
        · have : a < k ∨ k < a := by omega
          rcases this with h1 | h1
          · simp [cellGet, h, show ¬ k = a by omega, h1, show ¬ x.1 = a by omega, hx]
          · simp [cellGet, h, show ¬ k = a by omega, show ¬ a < k by omega]
        · simp [cellGet, h, show ¬ k = a by omega, show ¬ a < k by omega]
    · split
      · next h1 h2 =>
        by_cases h : a = k
        · simp [cellGet, h]
        · by_cases hx : a < k
          · simp [cellGet, h, hx, h2, show ¬ k = a by omega]
          · simp [cellGet, h, hx, h2, show ¬ k = a by omega]
      · by_cases h : a = k
        · have hi := ih hm.2
          rw [if_pos h] at hi ⊢
          rw [cellGet, if_neg (by omega), if_neg (by omega), hi]
        · by_cases hx : x.1 = a
          · simp [cellGet, hx, h]
          · by_cases hl : a < x.1
            · simp [cellGet, hx, hl, h]
            · simp [cellGet, hx, hl, h, ih hm.2]

theorem cellGet_cellDel {α : Type} {lo : Nat} (a k : Nat) {m : List (Nat × α)} (hm : cellsRise lo m = true) :
    cellGet a (cellDel k m) = if a = k then none else cellGet a m := by
  induction m generalizing lo with
  | nil => simp [cellDel, cellGet]
  | cons x xs ih =>
    simp only [cellsRise, Bool.and_eq_true, decide_eq_true_eq] at hm
    unfold cellDel
    split
    · by_cases h : a = k
      · simp [cellGet, h, show ¬ x.1 = k by omega, *]
      · simp [h]
    · split
      · next h1 h2 =>
        by_cases h : a = k
        · rw [if_pos h]; exact cellGet_below hm.2 (by omega)
        · rw [if_neg h]
          by_cases hl : a < x.1
          · rw [cellGet_below hm.2 (by omega)]; simp [cellGet, show ¬ x.1 = a by omega, hl]
          · simp [cellGet, show ¬ x.1 = a by omega, hl]
      · by_cases h : a = k
        · have hi := ih hm.2
          rw [if_pos h] at hi ⊢
          rw [cellGet, if_neg (by omega), if_neg (by omega), hi]
        · by_cases hx : x.1 = a
          · simp [cellGet, hx, h]
          · by_cases hl : a < x.1
            · simp [cellGet, hx, hl, h]
            · simp [cellGet, hx, hl, h, ih hm.2]

/-- A property of every cell holds of the cells after a write of a cell that has it. -/
theorem all_cellPut {α : Type} (p : Nat × α → Bool) (k : Nat) (v : α) {m : List (Nat × α)} (hm : m.all p = true)
    (hv : p (k, v) = true) : (cellPut k v m).all p = true := by
  induction m with
  | nil => simp [cellPut, hv]
  | cons x xs ih =>
    simp only [List.all_cons, Bool.and_eq_true] at hm
    unfold cellPut
    split
    · simp [hv, hm.1, hm.2]
    · split
      · simp [hv, hm.2]
      · simp [hm.1, ih hm.2]

theorem all_cellDel {α : Type} (p : Nat × α → Bool) (k : Nat) {m : List (Nat × α)} (hm : m.all p = true) :
    (cellDel k m).all p = true := by
  induction m with
  | nil => rfl
  | cons x xs ih =>
    have h := hm
    simp only [List.all_cons, Bool.and_eq_true] at hm
    unfold cellDel
    split
    · exact h
    · split
      · exact hm.2
      · simp [hm.1, ih hm.2]

/-! ### Bytes -/

/-- The keys of a memory in canonical form rise. -/
theorem Memory.wf_rise {u : List Undef} {m : List Host.Cell} (h : Memory.wf u m = true) : cellsRise 0 m = true := by
  unfold Memory.wf at h; simp only [Bool.and_eq_true] at h; exact h.1

/-- A written byte is read back, and every other byte reads as before. -/
theorem memByte_memPut {u : List Undef} {m : List Host.Cell} (h : cellsRise 0 m = true) (a k : Nat) (b : Byte) :
    memByte u (memPut u m k b) a = if a = k then b else memByte u m a := by
  unfold memPut memByte
  by_cases hz : b = 0 ∧ undefAt u k = none
  · rw [if_pos hz, cellGet_cellDel a k h]
    by_cases ha : a = k
    · subst ha; simp [unlisted, hz.2, hz.1]
    · simp [ha]
  · rw [if_neg hz, cellGet_cellPut a k b h]
    by_cases ha : a = k <;> simp [ha]

theorem cellsRise_memPut {u : List Undef} {m : List Host.Cell} (h : cellsRise 0 m = true) (k : Nat) (b : Byte) :
    cellsRise 0 (memPut u m k b) = true := by
  unfold memPut
  split
  · exact cellsRise_cellDel k h
  · exact cellsRise_cellPut b h (Nat.zero_le _)

/-- A write of a byte keeps the canonical form. -/
theorem Memory.wf_memPut {u : List Undef} {m : List Host.Cell} (h : Memory.wf u m = true) (k : Nat) (b : Byte) :
    Memory.wf u (memPut u m k b) = true := by
  have hr := Memory.wf_rise h
  unfold Memory.wf at h ⊢
  simp only [Bool.and_eq_true] at h ⊢
  refine ⟨cellsRise_memPut hr k b, ?_⟩
  unfold memPut
  split
  · exact all_cellDel _ k h.2
  · next hz =>
    refine all_cellPut _ k b h.2 ?_
    by_cases hb : b = 0
    · have : undefAt u k ≠ none := fun hn => hz ⟨hb, hn⟩
      cases hu : undefAt u k with
      | none => exact absurd hu this
      | some r => simp
    · simp only [Bool.or_eq_true, bne_iff_ne, ne_eq]; exact Or.inl hb

theorem cellsRise_putBytes {u : List Undef} {m : List Host.Cell} (h : cellsRise 0 m = true) (st : List Host.Cell) (k : Nat)
    (bs : List Byte) : cellsRise 0 (putBytes u m st k bs).1 = true := by
  induction bs generalizing m st k with
  | nil => exact h
  | cons b bs ih => exact ih (cellsRise_memPut h k b) _ _

/-- A write of bytes keeps the canonical form. -/
theorem Memory.wf_putBytes {u : List Undef} {m : List Host.Cell} (h : Memory.wf u m = true) (st : List Host.Cell) (k : Nat)
    (bs : List Byte) : Memory.wf u (putBytes u m st k bs).1 = true := by
  induction bs generalizing m st k with
  | nil => exact h
  | cons b bs ih => exact ih (Memory.wf_memPut h k b) _ _

/-- What a byte reads as after a write of bytes. -/
theorem memByte_putBytes {u : List Undef} {m : List Host.Cell} (h : cellsRise 0 m = true) (st : List Host.Cell) (k a : Nat)
    (bs : List Byte) :
    memByte u (putBytes u m st k bs).1 a = if k ≤ a ∧ a < k + bs.length then bs.getD (a - k) 0 else memByte u m a := by
  induction bs generalizing m st k with
  | nil => rw [if_neg (by simp only [List.length_nil]; omega)]; rfl
  | cons b bs ih =>
    rw [putBytes, ih (cellsRise_memPut h k b), memByte_memPut h]
    by_cases h1 : a = k
    · subst h1; simp [show ¬ (a + 1 ≤ a ∧ a < a + 1 + bs.length) by omega]
    · by_cases h2 : k + 1 ≤ a ∧ a < k + 1 + bs.length
      · have h3 : k ≤ a ∧ a < k + (b :: bs).length := ⟨by omega, by simp only [List.length_cons]; omega⟩
        rw [if_pos h2, if_pos h3, show a - k = (a - (k + 1)) + 1 by omega]; rfl
      · have h3 : ¬ (k ≤ a ∧ a < k + (b :: bs).length) := by simp only [List.length_cons]; omega
        rw [if_neg h2, if_neg h3, if_neg h1]

/-! ### The state's memory -/

/-- The byte of the state at a storage key. -/
def State.byteAt (s : State) (a : Nat) : Byte := memByte s.undef s.mem a

/-- The memory of a state is in canonical form. -/
abbrev State.memWf (s : State) : Prop := Memory.wf s.undef s.mem = true

/-- A store keeps the canonical form. -/
theorem State.memWf_store {s : State} (h : s.memWf) (k : Nat) (bs : List Byte) : (s.store k bs).memWf :=
  Memory.wf_putBytes h _ _ _

/-- A store is read back, and every other byte reads as before. -/
theorem State.byteAt_store {s : State} (h : s.memWf) (k a : Nat) (bs : List Byte) :
    (s.store k bs).byteAt a = if k ≤ a ∧ a < k + bs.length then bs.getD (a - k) 0 else s.byteAt a :=
  memByte_putBytes (Memory.wf_rise h) _ _ _ _

theorem undefAt_cons_isSome {u : List Undef} (r : Undef) {a : Nat} (h : (undefAt u a).isSome = true) :
    (undefAt (r :: u) a).isSome = true := by
  unfold undefAt at h ⊢
  rw [List.find?_cons]
  split
  · rfl
  · exact h

/-- Making contents undefined keeps the canonical form. -/
theorem State.memWf_undefine {s : State} (h : s.memWf) (k n : Nat) : (s.undefine k n).memWf := by
  unfold State.memWf Memory.wf at h ⊢
  simp only [Bool.and_eq_true] at h ⊢
  refine ⟨cellsRise_filter _ h.1, ?_⟩
  simp only [State.undefine, List.all_eq_true, List.mem_filter, Bool.or_eq_true] at h ⊢
  intro c hc
  rcases h.2 c hc.1 with h' | h'
  · exact Or.inl h'
  · exact Or.inr (undefAt_cons_isSome _ h')

theorem State.memWf_foldl {α : Type} (f : State → α → State) (hf : ∀ s a, s.memWf → (f s a).memWf) (xs : List α) {s : State}
    (h : s.memWf) : (xs.foldl f s).memWf := by
  induction xs generalizing s with
  | nil => exact h
  | cons x xs ih => exact ih (hf s x h)

theorem State.memWf_undefineFrame {s : State} (h : s.memWf) (n : Nat) : (s.undefineFrame n).memWf := by
  unfold State.undefineFrame
  split
  · exact State.memWf_undefine h _ _
  · exact State.memWf_foldl _ (fun s a hs => State.memWf_undefine hs _ _) _ h
  · exact State.memWf_undefine h _ _
  · exact h

/-- Discarding dirty data keeps the canonical form (18 R505). -/
theorem State.memWf_dropDirty {s : State} (h : s.memWf) : s.dropDirty.memWf := by
  have key : ∀ (cs : List Host.Cell) (m : List Host.Cell), Memory.wf s.undef m = true →
      Memory.wf s.undef (cs.foldl (fun m c => memPut s.undef m c.1 c.2) m) = true := by
    intro cs
    induction cs with
    | nil => intro m hm; exact hm
    | cons c cs ih => intro m hm; exact ih _ (Memory.wf_memPut hm _ _)
  exact key _ _ h

/-- A warm reset keeps the canonical form. -/
theorem State.memWf_warmReset {s : State} (h : s.memWf) (tr : Training) : (s.warmReset tr).memWf :=
  have hd : Memory.wf s.undef s.dropDirty.mem = true := State.memWf_dropDirty h
  show Memory.wf s.undef s.dropDirty.mem = true from hd

/-- A cold reset keeps the canonical form. -/
theorem State.memWf_coldReset {s : State} (h : s.memWf) (tr : Training) : (s.coldReset tr).memWf := by
  unfold State.memWf Memory.wf at h
  simp only [Bool.and_eq_true] at h
  show Memory.wf (s.undef.filter fun r => 2 ^ 39 < r.hi) (s.mem.filter fun c => !isHbm c.1) = true
  unfold Memory.wf
  simp only [Bool.and_eq_true]
  refine ⟨cellsRise_filter _ h.1, ?_⟩
  have hall := h.2
  simp only [List.all_eq_true, List.mem_filter, Bool.or_eq_true] at hall ⊢
  intro c hc
  rcases hall c hc.1 with h' | h'
  · exact Or.inl h'
  · refine Or.inr ?_
    have hk : 2 ^ 39 ≤ c.1 := by
      have := hc.2; simp only [isHbm, Bool.not_eq_true', decide_eq_false_iff_not] at this; omega
    unfold undefAt at h' ⊢
    rw [List.find?_isSome] at h' ⊢
    obtain ⟨r, hr, hp⟩ := h'
    refine ⟨r, List.mem_filter.2 ⟨hr, ?_⟩, hp⟩
    simp only [Bool.and_eq_true, decide_eq_true_eq] at hp ⊢
    omega

end Sys2Proof.Machine
end

