-- ==== Sys2Proof/Laws/Inv.lean ====
section
/-! SUPPORT. Every shared operation keeps `State.Inv`: one lemma for each, in the order of the files of Machine/, tagged simp
so that `simp (maxDischargeDepth := 40) [h]` carries the invariant through a meaning. -/

namespace Sys2Proof.Machine

set_option linter.all false


/-- The invariant over the six things that it speaks of. -/
def invOf (u : List Undef) (m : List Host.Cell) (cores dies bands clock : Nat) : Prop :=
  Memory.wf u m = true ∧ cores = 192 ∧ dies = 2 ∧ bands = 32 ∧ 700 ≤ clock ∧ clock ≤ 2100 ∧ clock % 100 = 0

theorem State.inv_iff (s : State) : s.Inv ↔ invOf s.undef s.mem s.cores.length s.dies.length s.bands.length s.clock :=
  ⟨fun h => ⟨h.memory, h.cores, h.dies, h.bands, h.clock.1, h.clock.2.1, h.clock.2.2⟩,
   fun h => ⟨h.1, h.2.1, h.2.2.1, h.2.2.2.1, h.2.2.2.2⟩⟩

@[simp] theorem State.invOf_fold (s : State) :
    invOf s.undef s.mem s.cores.length s.dies.length s.bands.length s.clock = s.Inv := propext (State.inv_iff s).symm

@[simp] theorem inv_ite {p : Prop} [Decidable p] {a b : State} : (if p then a else b).Inv = (if p then a.Inv else b.Inv) := by
    split <;> rfl

@[simp] theorem inv_foldl {α : Type} (f : State → α → State) (xs : List α) {s : State} (hf : ∀ s a, s.Inv → (f s a).Inv) (h :
    s.Inv) :
    (xs.foldl f s).Inv := by
  induction xs generalizing s with
  | nil => exact h
  | cons x xs ih => exact ih (hf s x h)

@[simp] theorem State.inv_mk (agenda : List Turn) (cur : Option Cur) (nextId : Nat) (freeCount : Nat) (crews : List Crew) (ops : List Op) (early : List Early) (arrivals : List Arrival) (launches : List Launch) (nextLaunch : Nat) (cores : List Core) (dies : List Die) (mem : List Host.Cell) (undef : List Undef) (stale : List Host.Cell) (mdata : List (Nat × Word)) (grades : List (Nat × Nat × Nat)) (poisoned : List Nat) (code : List CodeFrame) (xmaps : List (Nat × Nat)) (tiles : List Tile) (resident : List Nat) (rcmps : List (Nat × Nat)) (roots : List (Nat × Nat)) (tables : Nat) (tick : Nat) (podReplay : Bool) (podV1fmt : Bool) (regions : List (Nat × RegionMode)) (halves : List (Nat × HalfSt)) (recalls : List Recall) (hostWaits : List HostWait) (bands : List Band) (moved : List (Nat × Nat × Nat)) (tickets : List (Nat × Word × ActKind)) (reorder : List PeerPacket) (seen : List (Nat × Nat)) (endpoint : Nat) (podSize : Nat) (vistitum : Bool) (ports : BitVec 18) (bar0 : Bar0) (completions : List Completion) (shoots : List HostShoot) (errlog : List ErrEnt) (errSeq : Nat) (flash : Flash) (secret : Bool) (clock : Nat) (outputs : List Output) :
    (State.mk agenda cur nextId freeCount crews ops early arrivals launches nextLaunch cores dies mem undef stale mdata grades poisoned code xmaps tiles resident rcmps roots tables tick podReplay podV1fmt regions halves recalls hostWaits bands moved tickets reorder seen endpoint podSize vistitum ports bar0 completions shoots errlog errSeq flash secret clock outputs).Inv = invOf undef mem cores.length dies.length bands.length clock := propext (State.inv_iff _)


@[simp] theorem inv_ite_fst {β : Type} {p : Prop} [Decidable p] {a b : State × β} :
    (if p then a else b).1.Inv = (if p then a.1.Inv else b.1.Inv) := by split <;> rfl

@[simp] theorem State.setDie_dies_length (s : State) (n : Nat) (f : Die → Die) : (s.setDie n f).dies.length = s.dies.length := by
  simp [State.setDie]

@[simp] theorem State.setCore_cores_length (s : State) (n : Nat) (f : Core → Core) : (s.setCore n f).cores.length =
    s.cores.length := by
  simp [State.setCore]

/-! ### Machine/Mem.lean -/

@[simp] theorem inv_State_store (s : State) (k : Nat) (bs : List Byte) (h : s.Inv) : (State.store s k bs).Inv := by
  exact ⟨State.memWf_store h.memory k bs, h.cores, h.dies, h.bands, h.clock⟩

@[simp] theorem inv_State_storeNat (s : State) (k n x : Nat) (h : s.Inv) : (State.storeNat s k n x).Inv := by
  unfold State.storeNat
  simp (maxDischargeDepth := 40) [h]

@[simp] theorem inv_State_writeBack (s : State) (line : Nat) (h : s.Inv) : (State.writeBack s line).Inv := by
  unfold State.writeBack
  simp (maxDischargeDepth := 40) [h]

@[simp] theorem inv_State_putMeta (s : State) (g : Nat) (w : Word) (h : s.Inv) : (State.putMeta s g w).Inv := by
  unfold State.putMeta
  simp (maxDischargeDepth := 40) [h]

@[simp] theorem inv_State_undefine (s : State) (k n : Nat) (h : s.Inv) : (State.undefine s k n).Inv := by
  exact ⟨State.memWf_undefine h.memory k n, h.cores, h.dies, h.bands, h.clock⟩

@[simp] theorem inv_State_undefineFrame (s : State) (frame : Nat) (h : s.Inv) : (State.undefineFrame s frame).Inv := by
  unfold State.undefineFrame
  repeat' (first | (simp (maxDischargeDepth := 40) +contextual [h]; done) | (rename_i heq; replace heq := congrArg Prod.fst heq; dsimp only at heq; subst heq) | split | intro _)

/-! ### Machine/Access.lean -/

@[simp] theorem inv_State_setDie (s : State) (d : Nat) (f : Die → Die) (h : s.Inv) : (State.setDie s d f).Inv := by
  unfold State.setDie
  simp (maxDischargeDepth := 40) [h]

@[simp] theorem inv_State_setCore (s : State) (c : Nat) (f : Core → Core) (h : s.Inv) : (State.setCore s c f).Inv := by
  unfold State.setCore
  simp (maxDischargeDepth := 40) [h]

@[simp] theorem inv_State_setCrew (s : State) (id : Nat) (f : Crew → Crew) (h : s.Inv) : (State.setCrew s id f).Inv := by
  unfold State.setCrew
  simp (maxDischargeDepth := 40) [h]

@[simp] theorem inv_State_setWarp (s : State) (id w : Nat) (f : Warp → Warp) (h : s.Inv) : (State.setWarp s id w f).Inv := by
  unfold State.setWarp
  simp (maxDischargeDepth := 40) [h]

@[simp] theorem inv_State_setThread (s : State) (id w l : Nat) (f : Thread → Thread) (h : s.Inv) : (State.setThread s id w l
    f).Inv := by
  unfold State.setThread
  simp (maxDischargeDepth := 40) [h]

@[simp] theorem inv_State_setOp (s : State) (id : Nat) (f : Op → Op) (h : s.Inv) : (State.setOp s id f).Inv := by
  unfold State.setOp
  simp (maxDischargeDepth := 40) [h]

@[simp] theorem inv_State_dropOp (s : State) (id : Nat) (h : s.Inv) : (State.dropOp s id).Inv := by
  unfold State.dropOp
  simp (maxDischargeDepth := 40) [h]

@[simp] theorem inv_State_setLane (s : State) (id lane : Nat) (f : LaneAcc → LaneAcc) (h : s.Inv) : (State.setLane s id lane
    f).Inv := by
  unfold State.setLane
  simp (maxDischargeDepth := 40) [h]

@[simp] theorem inv_State_setLaunch (s : State) (n : Nat) (f : Launch → Launch) (h : s.Inv) : (State.setLaunch s n f).Inv := by
  unfold State.setLaunch
  simp (maxDischargeDepth := 40) [h]

@[simp] theorem inv_State_fresh (s : State) (h : s.Inv) : (State.fresh s).2.Inv := by
  unfold State.fresh
  simp (maxDischargeDepth := 40) [h]

@[simp] theorem inv_State_emit (s : State) (o : Output) (h : s.Inv) : (State.emit s o).Inv := by
  unfold State.emit
  simp (maxDischargeDepth := 40) [h]

@[simp] theorem inv_State_logErr_push (s : State) (kind : Nat) (origin : Word) (addr : DWord) (launch : Nat) (detail : DWord)
    (cls : Nat)
    (h : s.Inv) : (State.logErr.push s kind origin addr launch detail cls).Inv := by
  simp [State.logErr.push, h]

@[simp] theorem inv_State_logErr (s : State) (cls kind : Nat) (origin : Word) (addr : DWord) (launch : Nat) (detail : DWord) (h
    : s.Inv) : (State.logErr s cls kind origin addr launch detail).Inv := by
  unfold State.logErr
  simp only
  repeat' split
  all_goals simp [h]

/-! ### Machine/Xlate.lean -/

@[simp] theorem inv_State_setTlb (s : State) (f : List TlbEnt → List TlbEnt) (x0 : TlbLoc) (h : s.Inv) : (State.setTlb s f
    x0).Inv := by
  unfold State.setTlb
  (try simp only)
  repeat' split
  all_goals simp (maxDischargeDepth := 40) [h]

@[simp] theorem inv_State_holdTlb (s : State) (loc : TlbLoc) (t : TlbEnt) (h : s.Inv) : (State.holdTlb s loc t).Inv := by
  unfold State.holdTlb
  simp (maxDischargeDepth := 40) [h]

@[simp] theorem inv_State_holdWalks (s : State) (die : Nat) (ws : List WalkEnt) (h : s.Inv) : (State.holdWalks s die ws).Inv := by
  unfold State.holdWalks
  simp (maxDischargeDepth := 40) [h]

@[simp] theorem inv_State_lookup (s : State) (loc : TlbLoc) (asid va : Nat) (need : Need) (h : s.Inv) : (State.lookup s loc
    asid va need).1.Inv := by
  unfold State.lookup
  (try simp only)
  repeat' split
  all_goals simp (maxDischargeDepth := 40) [h]

@[simp] theorem inv_State_xlate (s : State) (loc : TlbLoc) (asid va : Nat) (need : Need) (h : s.Inv) : (State.xlate s loc asid
    va need).1.Inv := by
  unfold State.xlate
  (try simp only)
  repeat' (first | (rename_i heq; replace heq := congrArg Prod.fst heq; dsimp only at heq; subst heq) | split)
  all_goals simp (maxDischargeDepth := 40) [h]

@[simp] theorem inv_State_ringWrite (s : State) (die : Nat) (words : List DWord) (h : s.Inv) : (State.ringWrite s die
    words).Inv := by
  unfold State.ringWrite
  simp (maxDischargeDepth := 40) [h]

@[simp] theorem inv_State_recordFinal (s : State) (die : Nat) (words : List DWord) (h : s.Inv) : (State.recordFinal s die
    words).Inv := by
  unfold State.recordFinal
  simp (maxDischargeDepth := 40) [h]

@[simp] theorem inv_State_recordWait (s : State) (die : Nat) (f : FaultWait) (h : s.Inv) : (State.recordWait s die f).Inv := by
  unfold State.recordWait
  simp (maxDischargeDepth := 40) [h]

@[simp] theorem inv_State_flushV1 (s : State) (die : Nat) (h : s.Inv) : (State.flushV1 s die).Inv := by
  unfold State.flushV1
  (try simp only)
  repeat' split
  all_goals simp (maxDischargeDepth := 40) [h]

@[simp] theorem inv_State_addV1 (s : State) (die asid access va : Nat) (h : s.Inv) : (State.addV1 s die asid access va).Inv := by
  unfold State.addV1
  simp (maxDischargeDepth := 40) [h]

@[simp] theorem inv_State_fault (s : State) (i : FaultInfo) (kind level entry : Nat) (owner : Option FaultOwner) (h : s.Inv) :
    (State.fault s i kind level entry owner).1.Inv := by
  unfold State.fault
  (try simp only)
  repeat' split
  all_goals simp (maxDischargeDepth := 40) [h]

@[simp] theorem inv_State_shootdown (s : State) (c : Cover) (h : s.Inv) : (State.shootdown s c).Inv := by
  unfold State.shootdown
  simp (maxDischargeDepth := 40) [h]

@[simp] theorem inv_State_invalidateCore (s : State) (core : Nat) (c : Cover) (h : s.Inv) : (State.invalidateCore s core c).Inv
    := by
  unfold State.invalidateCore
  simp (maxDischargeDepth := 40) [h]

/-! ### Machine/Fetch.lean -/

@[simp] theorem inv_State_readLine (s : State) (core asid : Nat) (line : VAddr) (h : s.Inv) : (State.readLine s core asid
    line).1.Inv := by
  unfold State.readLine
  (try simp only)
  repeat' (first | (rename_i heq; replace heq := congrArg Prod.fst heq; dsimp only at heq; subst heq) | split)
  all_goals simp (maxDischargeDepth := 40) [h]

@[simp] theorem inv_State_buffer (s : State) (id w : Nat) (ln : Line) (h : s.Inv) : (State.buffer s id w ln).Inv := by
  unfold State.buffer
  simp (maxDischargeDepth := 40) [h]

@[simp] theorem inv_State_reread (s : State) (id w : Nat) (c : Crew) (line : VAddr) (h : s.Inv) : (State.reread s id w c
    line).1.Inv := by
  unfold State.reread
  extract_lets s1
  have h1 : s1.Inv := by simp (maxDischargeDepth := 40) [s1, h]
  clear_value s1
  have hr := inv_State_readLine s1 c.core (s1.asidOf c) line h1
  generalize s1.readLine c.core (s1.asidOf c) line = p at hr ⊢
  obtain ⟨s2, r⟩ := p
  cases r with
  | error e => exact hr
  | ok b =>
    dsimp only
    split <;> simp (maxDischargeDepth := 40) [show s2.Inv from hr]

@[simp] theorem inv_State_enterLine (s : State) (id w : Nat) (pc : VAddr) (h : s.Inv) : (State.enterLine s id w pc).1.Inv := by
  unfold State.enterLine
  split
  · exact h
  · rename_i c hc
    extract_lets line hit first checked
    have h1 : first.1.Inv := by
      simp only [first]
      clear_value hit
      clear checked first
      cases hit with
      | some ln => exact h
      | none =>
        have hr := inv_State_readLine s c.core (s.asidOf c) line h
        generalize s.readLine c.core (s.asidOf c) line = p at hr ⊢
        obtain ⟨s1, r⟩ := p
        cases r with
        | error e => exact hr
        | ok b => simp only; split <;> simp (maxDischargeDepth := 40) [show s1.Inv from hr]
    clear_value first
    have h2 : checked.1.Inv := by
      clear_value hit
      clear hit
      obtain ⟨s1, r⟩ := first
      cases r with
      | error e => exact h1
      | ok ln =>
        simp only [checked]
        clear checked
        have hr := inv_State_reread s1 id w c line h1
        generalize s1.reread id w c line = p at hr ⊢
        obtain ⟨s2, r⟩ := p
        split
        · exact h1
        · cases r with
          | error e => exact hr
          | ok b => dsimp only; split <;> exact hr
    clear_value checked
    obtain ⟨s1, r⟩ := checked
    cases r with
    | error e => exact h2
    | ok ln => simp only; split <;> exact h2

@[simp] theorem inv_State_checkSlot (s : State) (id w : Nat) (ln : Line) (n : Nat) (h : s.Inv) : (State.checkSlot s id w ln
    n).1.Inv := by
  unfold State.checkSlot
  split
  · exact h
  · split
    · exact h
    · rename_i c _
      have hr := inv_State_reread s id w c ln.va h
      generalize s.reread id w c ln.va = p at hr ⊢
      obtain ⟨s2, r⟩ := p
      cases r with
      | error e => exact hr
      | ok b => dsimp only; split <;> simp (maxDischargeDepth := 40) [show s2.Inv from hr]

@[simp] theorem inv_State_flushFetch (s : State) (id w : Nat) (lanes : Mask) (h : s.Inv) : (State.flushFetch s id w lanes).Inv
    := by
  unfold State.flushFetch
  simp (maxDischargeDepth := 40) [h]

/-! ### Machine/Trap.lean -/

@[simp] theorem inv_State_halt (s : State) (id w l cause : Nat) (h : s.Inv) : (State.halt s id w l cause).Inv := by
  unfold State.halt
  (try simp only)
  repeat' split
  all_goals simp (maxDischargeDepth := 40) [h]

@[simp] theorem inv_State_trapWith (s : State) (id w l : Nat) (t : Trap) (join : Option Nat) (bar : Option (Nat × Bool)) (h :
    s.Inv) : (State.trapWith s id w l t join bar).Inv := by
  unfold State.trapWith
  (try simp only)
  repeat' (first | (rename_i heq; replace heq := congrArg Prod.fst heq; dsimp only at heq; subst heq) | split)
  all_goals simp (maxDischargeDepth := 40) [h]

@[simp] theorem inv_State_trap (s : State) (id w l : Nat) (t : Trap) (h : s.Inv) : (State.trap s id w l t).Inv := by
  unfold State.trap
  simp (maxDischargeDepth := 40) [h]

@[simp] theorem inv_State_traps (s : State) (id w : Nat) (ts : List (Nat × Trap)) (h : s.Inv) : (State.traps s id w ts).Inv := by
  unfold State.traps
  repeat' (first | (simp (maxDischargeDepth := 40) +contextual [h]; done) | (rename_i heq; replace heq := congrArg Prod.fst heq; dsimp only at heq; subst heq) | split | intro _)

@[simp] theorem inv_State_settleOwed (s : State) (id w l : Nat) (h : s.Inv) : (State.settleOwed s id w l).Inv := by
  unfold State.settleOwed
  (try simp only)
  repeat' (first | (rename_i heq; replace heq := congrArg Prod.fst heq; dsimp only at heq; subst heq) | split)
  all_goals simp (maxDischargeDepth := 40) [h]

@[simp] theorem inv_State_withdraw (s : State) (op l : Nat) (h : s.Inv) : (State.withdraw s op l).Inv := by
  unfold State.withdraw
  (try simp only)
  repeat' split
  all_goals simp (maxDischargeDepth := 40) [h]

@[simp] theorem inv_State_asyncTrap (s : State) (id w l cause : Nat) (h : s.Inv) : (State.asyncTrap s id w l cause).Inv := by
  unfold State.asyncTrap
  (try simp only)
  repeat' split
  all_goals simp (maxDischargeDepth := 40) [h]

@[simp] theorem inv_State_takeHeld (s : State) (id w l : Nat) (h : s.Inv) : (State.takeHeld s id w l).Inv := by
  unfold State.takeHeld
  (try simp only)
  repeat' split
  all_goals simp (maxDischargeDepth := 40) [h]

@[simp] theorem inv_State_observe (s : State) (id w : Nat) (lanes : List Nat) (first : Nat) (cause : BitVec 6) (origin : Word) (h : s.Inv) : (State.observe s id w lanes first cause origin).Inv := by
  unfold State.observe
  repeat' (first | (simp (maxDischargeDepth := 40) +contextual [h]; done) | (rename_i heq; replace heq := congrArg Prod.fst heq; dsimp only at heq; subst heq) | split | intro _)

@[simp] theorem inv_State_barReturn (s : State) (id w : Nat) (lanes : Mask) (b : Bar) (h : s.Inv) : (State.barReturn s id w lanes b).Inv := by
  unfold State.barReturn
  (try simp only)
  repeat' (first | (rename_i heq; replace heq := congrArg Prod.fst heq; dsimp only at heq; subst heq) | split)
  all_goals simp (maxDischargeDepth := 40) [h]

@[simp] theorem inv_State_releaseBarrier (s : State) (id b : Nat) (bar : Bar) (phase lastPoison : Bool) (h : s.Inv) : (State.releaseBarrier s id b bar phase lastPoison).Inv := by
  unfold State.releaseBarrier
  repeat' (first | (simp (maxDischargeDepth := 40) +contextual [h]; done) | (rename_i heq; replace heq := congrArg Prod.fst heq; dsimp only at heq; subst heq) | split | intro _)

@[simp] theorem inv_State_arriveBar (x0 : Nat) (x1 : State) (x2 : Nat) (x3 : Nat) (h : x1.Inv) : (State.arriveBar x0 x1 x2
    x3).Inv := by
  induction x0 generalizing x1 x2 x3 with
  | zero => simpa [State.arriveBar] using h
  | succ n ih =>
    unfold State.arriveBar
    (try simp only)
    repeat' (first | (rename_i heq; replace heq := congrArg Prod.fst heq; dsimp only at heq; subst heq) | split)
    all_goals simp (maxDischargeDepth := 40) +contextual [h, ih]

@[simp] theorem inv_State_arrive (s : State) (id b n : Nat) (poisoned : Bool) (h : s.Inv) : (State.arrive s id b n
    poisoned).Inv := by
  unfold State.arrive
  simp (maxDischargeDepth := 40) [h]

/-! ### Machine/Issue.lean -/

@[simp] theorem inv_State_advance (s : State) (id w : Nat) (lanes : Mask) (h : s.Inv) : (State.advance s id w lanes).Inv := by
  unfold State.advance
  simp (maxDischargeDepth := 40) [h]

@[simp] theorem inv_Issue_trapAll (I : Issue) (lanes : Mask) (cause : Nat) (info : Nat) (detail : DWord) (h : I.s.Inv) :
    (Issue.trapAll I lanes cause info detail).Inv := by
  unfold Issue.trapAll
  simp (maxDischargeDepth := 40) [h]

@[simp] theorem inv_Issue_holdFor (I : Issue) (ts : List (Nat × Trap)) (h : I.s.Inv) : (Issue.holdFor I ts).Inv := by
  unfold Issue.holdFor
  simp (maxDischargeDepth := 40) [h]

@[simp] theorem inv_Issue_done (I : Issue) (h : I.s.Inv) : (Issue.done I).Inv := by
  unfold Issue.done
  simp (maxDischargeDepth := 40) [h]

@[simp] theorem inv_Issue_perLane (I : Issue) (f : Nat → LaneOut) (h : I.s.Inv) : (Issue.perLane I f).Inv := by
  unfold Issue.perLane
  simp (maxDischargeDepth := 40) [h]

@[simp] theorem inv_Issue_allLanes (I : Issue) (f : Nat → LaneOut) (h : I.s.Inv) : (Issue.allLanes I f).Inv := by
  unfold Issue.allLanes
  simp (maxDischargeDepth := 40) [h]

/-! ### Machine/Token.lean -/

@[simp] theorem inv_State_settleBinding (s : State) (id : Nat) (st : BoundSt) (h : s.Inv) : (State.settleBinding s id st).Inv
    := by
  unfold State.settleBinding
  simp (maxDischargeDepth := 40) [h]

@[simp] theorem inv_State_notePoison (s : State) (launch : Nat) (cause : BitVec 6) (origin : Word) (h : s.Inv) :
    (State.notePoison s launch cause origin).Inv := by
  unfold State.notePoison
  (try simp only)
  repeat' split
  all_goals simp (maxDischargeDepth := 40) [h]

@[simp] theorem inv_State_accept (s : State) (o : Op) (h : s.Inv) : (State.accept s o).Inv := by
  unfold State.accept
  simp (maxDischargeDepth := 40) [h]

@[simp] theorem inv_Issue_acceptOp (I : Issue) (o : Op) (h : I.s.Inv) : (Issue.acceptOp I o).Inv := by
  unfold Issue.acceptOp
  simp (maxDischargeDepth := 40) [h]

@[simp] theorem inv_State_spoilShape (s : State) (o : Op) (st : BoundSt) (h : s.Inv) : (State.spoilShape s o st).Inv := by
  unfold State.spoilShape
  (try simp only)
  repeat' split
  all_goals simp (maxDischargeDepth := 40) [h]

@[simp] theorem inv_State_freeMxe (s : State) (o : Op) (st : BoundSt) (h : s.Inv) : (State.freeMxe s o st).Inv := by
  unfold State.freeMxe
  (try simp only)
  repeat' split
  all_goals simp (maxDischargeDepth := 40) [h]

@[simp] theorem inv_State_settle (s : State) (id : Nat) (st : BoundSt) (h : s.Inv) : (State.settle s id st).Inv := by
  unfold State.settle
  (try simp only)
  repeat' split
  all_goals simp (maxDischargeDepth := 40) [h]

@[simp] theorem inv_State_finish (s : State) (id : Nat) (h : s.Inv) : (State.finish s id).Inv := by
  unfold State.finish
  simp (maxDischargeDepth := 40) [h]

@[simp] theorem inv_State_poisonOp (s : State) (id : Nat) (cause : BitVec 6) (origin : Option Word) (h : s.Inv) :
    (State.poisonOp s id cause origin).Inv := by
  unfold State.poisonOp
  (try simp only)
  repeat' split
  all_goals simp (maxDischargeDepth := 40) [h]

/-! ### Machine/Answer.lean -/

@[simp] theorem inv_State_answerOne (s : State) (f : FaultWait) (replay : Bool) (h : s.Inv) : (State.answerOne s f replay).Inv
    := by
  unfold State.answerOne
  (try simp only)
  repeat' split
  all_goals simp (maxDischargeDepth := 40) [h]

@[simp] theorem inv_State_passRecord (s : State) (die n : Nat) (h : s.Inv) : (State.passRecord s die n).Inv := by
  unfold State.passRecord
  repeat' (first | (simp (maxDischargeDepth := 40) +contextual [h]; done) | (rename_i heq; replace heq := congrArg Prod.fst heq; dsimp only at heq; subst heq) | split | intro _)

@[simp] theorem inv_State_recordPending (x0 : Nat) (x1 : State) (x2 : Nat) (h : x1.Inv) : (State.recordPending x0 x1 x2).Inv := by
  induction x0 generalizing x1 x2 with
  | zero => simpa [State.recordPending] using h
  | succ n ih =>
    unfold State.recordPending
    (try simp only)
    repeat' (first | (rename_i heq; replace heq := congrArg Prod.fst heq; dsimp only at heq; subst heq) | split)
    all_goals simp (maxDischargeDepth := 40) +contextual [h, ih]

@[simp] theorem inv_State_writeXlrp (s : State) (die : Nat) (x : Word) (h : s.Inv) : (State.writeXlrp s die x).Inv := by
  unfold State.writeXlrp
  repeat' (first | (simp (maxDischargeDepth := 40) +contextual [h]; done) | (rename_i heq; replace heq := congrArg Prod.fst heq; dsimp only at heq; subst heq) | split | intro _)

/-! ### Machine/Sreg.lean -/

@[simp] theorem inv_State_moveActs (s : State) (line die slice : Nat) (h : s.Inv) : (State.moveActs s line die slice).Inv := by
  unfold State.moveActs
  simp (maxDischargeDepth := 40) [h]

@[simp] theorem inv_State_returnLine (s : State) (line : Nat) (h : s.Inv) : (State.returnLine s line).Inv := by
  unfold State.returnLine
  simp (maxDischargeDepth := 40) [h]

@[simp] theorem inv_State_evictLine (s : State) (line : Nat) (h : s.Inv) : (State.evictLine s line).Inv := by
  unfold State.evictLine
  (try simp only)
  repeat' (first | (rename_i heq; replace heq := congrArg Prod.fst heq; dsimp only at heq; subst heq) | split)
  all_goals simp (maxDischargeDepth := 40) [h]

@[simp] theorem inv_State_setMigr (s : State) (die : Nat) (on : Bool) (h : s.Inv) : (State.setMigr s die on).Inv := by
  unfold State.setMigr
  repeat' (first | (simp (maxDischargeDepth := 40) +contextual [h]; done) | (rename_i heq; replace heq := congrArg Prod.fst heq; dsimp only at heq; subst heq) | split | intro _)

@[simp] theorem inv_Issue_setWide (I : Issue) (s : State) (n x : Nat) (h : s.Inv) : (Issue.setWide I s n x).Inv := by
  unfold Issue.setWide
  (try simp only)
  repeat' split
  all_goals simp (maxDischargeDepth := 40) [h]

/-! ### Machine/Recipe.lean -/

@[simp] theorem inv_State_setRecipe (s : State) (die idx : Nat) (f : Recipe → Recipe) (h : s.Inv) : (State.setRecipe s die idx
    f).Inv := by
  unfold State.setRecipe
  simp (maxDischargeDepth := 40) [h]

@[simp] theorem inv_State_setTiles (s : State) (die : Nat) (r : Recipe) (f : TileSt → TileSt) (h : s.Inv) : (State.setTiles s
    die r f).Inv := by
  unfold State.setTiles
  simp (maxDischargeDepth := 40) [h]

@[simp] theorem inv_State_unpin (s : State) (die : Nat) (pins : List Nat) (h : s.Inv) : (State.unpin s die pins).Inv := by
  unfold State.unpin
  repeat' (first | (simp (maxDischargeDepth := 40) +contextual [h]; done) | (rename_i heq; replace heq := congrArg Prod.fst heq; dsimp only at heq; subst heq) | split | intro _)

@[simp] theorem inv_State_unpark (s : State) (die rec : Nat) (fail : Option (BitVec 6 × Word)) (h : s.Inv) : (State.unpark s
    die rec fail).Inv := by
  unfold State.unpark
  simp (maxDischargeDepth := 40) [h]

@[simp] theorem inv_State_onTurn (s : State) (o : Op) (go : State → State) (h : s.Inv) (hgo : ∀ y0 : State, y0.Inv → (go y0).Inv) :
    (State.onTurn s o go).Inv := by
  unfold State.onTurn
  repeat' split
  all_goals simp (maxDischargeDepth := 40) [h, hgo]

@[simp] theorem inv_State_failRequest (x0 : Nat) (x1 : State) (x2 : Nat) (x3 : Nat) (x4 : BitVec 6) (x5 : Word) (h : x1.Inv) :
    (State.failRequest x0 x1 x2 x3 x4 x5).Inv := by
  induction x0 generalizing x1 x3 with
  | zero => exact h
  | succ n ih =>
    unfold State.failRequest
    split
    · exact h
    · refine inv_foldl _ _ (fun s w hs => ih s w hs) ?_
      simp (maxDischargeDepth := 40) [h]

@[simp] theorem inv_State_failAll (s : State) (die idx : Nat) (cause : BitVec 6) (origin : Word) (h : s.Inv) : (State.failAll s die idx cause origin).Inv := by
  unfold State.failAll
  (try simp only)
  repeat' (first | (rename_i heq; replace heq := congrArg Prod.fst heq; dsimp only at heq; subst heq) | split)
  all_goals simp (maxDischargeDepth := 40) [h]

@[simp] theorem inv_State_setRequest (s : State) (die idx : Nat) (f : Request → Request) (h : s.Inv) : (State.setRequest s die
    idx f).Inv := by
  unfold State.setRequest
  simp (maxDischargeDepth := 40) [h]

@[simp] theorem inv_State_examine (ask : State → Nat → Nat → State) (x0 : Nat) (x1 : State) (x2 : Nat) (x3 : Nat) (h : x1.Inv)
    (hask : ∀ (y0 : State) (y1 : Nat) (y2 : Nat), y0.Inv → (ask y0 y1 y2).Inv) : (State.examine ask x0 x1 x2 x3).Inv := by
  induction x0 generalizing x1 x2 x3 with
  | zero => simpa [State.examine] using h
  | succ n ih =>
    unfold State.examine
    (try simp only)
    repeat' (first | (rename_i heq; replace heq := congrArg Prod.fst heq; dsimp only at heq; subst heq) | split)
    all_goals simp (maxDischargeDepth := 40) +contextual [h, hask, ih]

@[simp] theorem inv_State_request (x0 : Nat) (x1 : State) (x2 : Nat) (x3 : Nat) (x4 : Nat) (h : x1.Inv) : (State.request x0 x1
    x2 x3 x4).Inv := by
  induction x0 generalizing x1 x2 x3 x4 with
  | zero => simpa [State.request] using h
  | succ n ih =>
    unfold State.request
    (try simp only)
    repeat' (first | (rename_i heq; replace heq := congrArg Prod.fst heq; dsimp only at heq; subst heq) | split)
    all_goals simp (maxDischargeDepth := 40) +contextual [h, ih]

@[simp] theorem inv_State_resumeRequests (s : State) (die idx : Nat) (h : s.Inv) : (State.resumeRequests s die idx).Inv := by
  unfold State.resumeRequests
  repeat' (first | (simp (maxDischargeDepth := 40) +contextual [h]; done) | (rename_i heq; replace heq := congrArg Prod.fst heq; dsimp only at heq; subst heq) | split | intro _)

@[simp] theorem inv_State_dropTile (s : State) (t : Tile) (h : s.Inv) : (State.dropTile s t).Inv := by
  unfold State.dropTile
  simp (maxDischargeDepth := 40) [h]

@[simp] theorem inv_State_retire (s : State) (die idx : Nat) (h : s.Inv) : (State.retire s die idx).Inv := by
  unfold State.retire
  repeat' (first | (simp (maxDischargeDepth := 40) +contextual [h]; done) | (rename_i heq; replace heq := congrArg Prod.fst heq; dsimp only at heq; subst heq) | split | intro _)

@[simp] theorem inv_State_retireAll (x0 : Nat) (x1 : State) (x2 : Nat) (h : x1.Inv) : (State.retireAll x0 x1 x2).Inv := by
  induction x0 generalizing x1 x2 with
  | zero => simpa [State.retireAll] using h
  | succ n ih =>
    unfold State.retireAll
    (try simp only)
    repeat' (first | (rename_i heq; replace heq := congrArg Prod.fst heq; dsimp only at heq; subst heq) | split)
    all_goals simp (maxDischargeDepth := 40) +contextual [h, ih]

@[simp] theorem inv_State_freeVersions (s : State) (die stream : Nat) (h : s.Inv) : (State.freeVersions s die stream).Inv := by
  unfold State.freeVersions
  simp (maxDischargeDepth := 40) [h]

@[simp] theorem inv_State_settleRecipes (s : State) (die stream : Nat) (h : s.Inv) : (State.settleRecipes s die stream).Inv := by
  unfold State.settleRecipes
  simp (maxDischargeDepth := 40) [h]

/-! ### Machine/Reach.lean -/

@[simp] theorem inv_State_logLasting (s : State) (w : Who) (va kind : Nat) (origin : Option Word) (h : s.Inv) :
    (State.logLasting s w va kind origin).Inv := by
  unfold State.logLasting
  simp (maxDischargeDepth := 40) [h]

@[simp] theorem inv_State_xlateAs (s : State) (w : Who) (va : Nat) (need : Need) (h : s.Inv) : (State.xlateAs s w va need).1.Inv := by
  unfold State.xlateAs
  (try simp only)
  repeat' (first | (rename_i heq; replace heq := congrArg Prod.fst heq; dsimp only at heq; subst heq) | split)
  all_goals simp (maxDischargeDepth := 40) [h]

@[simp] theorem inv_State_touchTile (s : State) (key : Nat) (rcmp : Bool) (h : s.Inv) : (State.touchTile s key rcmp).Inv := by
  unfold State.touchTile
  (try simp only)
  repeat' (first | (rename_i heq; replace heq := congrArg Prod.fst heq; dsimp only at heq; subst heq) | split)
  all_goals simp (maxDischargeDepth := 40) [h]

@[simp] theorem inv_State_gate (s : State) (w : Who) (va n : Nat) (write : Bool) (need : Need) (h : s.Inv) : (State.gate s w va
    n write need).1.Inv := by
  unfold State.gate
  (try simp only)
  repeat' (first | (rename_i heq; replace heq := congrArg Prod.fst heq; dsimp only at heq; subst heq) | split)
  all_goals simp (maxDischargeDepth := 40) [h]

@[simp] theorem inv_State_reachLoop (w : Who) (write : Bool) (need : Need) (x0 : Nat) (x1 : State) (x2 : Nat) (x3 : Nat) (x4 :
    List Part) (h : x1.Inv) : (State.reachLoop w write need x0 x1 x2 x3 x4).1.Inv := by
  induction x0 generalizing x1 x2 x3 x4 with
  | zero => simpa [State.reachLoop] using h
  | succ n ih =>
    unfold State.reachLoop
    (try simp only)
    repeat' (first | (rename_i heq; replace heq := congrArg Prod.fst heq; dsimp only at heq; subst heq) | split)
    all_goals simp (maxDischargeDepth := 40) +contextual [h, ih]

@[simp] theorem inv_State_reach (s : State) (w : Who) (va n : Nat) (write : Bool) (need : Need) (h : s.Inv) : (State.reach s w
    va n write need).1.Inv := by
  unfold State.reach
  simp (maxDischargeDepth := 40) [h]

@[simp] theorem inv_State_writeParts (s : State) (x0 : List Part) (x1 : List Byte) (h : s.Inv) : (State.writeParts s x0 x1).Inv
    := by
  induction x0 generalizing s x1 with
  | nil => simpa [State.writeParts] using h
  | cons a as ih =>
    unfold State.writeParts
    (try simp only)
    repeat' (first | (rename_i heq; replace heq := congrArg Prod.fst heq; dsimp only at heq; subst heq) | split)
    all_goals simp (maxDischargeDepth := 40) +contextual [h, ih]

@[simp] theorem inv_State_startRecall (s : State) (half : Nat) (share : Bool) (h : s.Inv) : (State.startRecall s half
    share).Inv := by
  unfold State.startRecall
  simp (maxDischargeDepth := 40) [h]

@[simp] theorem inv_State_stopRecompute (s : State) (crew : Nat) (h : s.Inv) : (State.stopRecompute s crew).Inv := by
  unfold State.stopRecompute
  simp (maxDischargeDepth := 40) [h]

@[simp] theorem inv_State_failOp (s : State) (id : Nat) (cause : BitVec 6) (origin : Option Word) (h : s.Inv) : (State.failOp s
    id cause origin).Inv := by
  unfold State.failOp
  simp (maxDischargeDepth := 40) [h]

@[simp] theorem inv_State_stopOp (s : State) (id : Nat) (w : Who) (access : Nat) (replay : Bool) (g : Gate) (h : s.Inv) :
    (State.stopOp s id w access replay g).Inv := by
  unfold State.stopOp
  (try simp only)
  repeat' (first | (rename_i heq; replace heq := congrArg Prod.fst heq; dsimp only at heq; subst heq) | split)
  all_goals simp (maxDischargeDepth := 40) [h]

@[simp] theorem inv_State_csmWrite (s : State) (x0 : List CsmPart) (x1 : List Byte) (h : s.Inv) : (State.csmWrite s x0 x1).Inv
    := by
  induction x0 generalizing s x1 with
  | nil => simpa [State.csmWrite] using h
  | cons a as ih =>
    unfold State.csmWrite
    (try simp only)
    repeat' (first | (rename_i heq; replace heq := congrArg Prod.fst heq; dsimp only at heq; subst heq) | split)
    all_goals simp (maxDischargeDepth := 40) +contextual [h, ih]

@[simp] theorem inv_State_setLatch (s : State) (crew g : Nat) (full : Bool) (h : s.Inv) : (State.setLatch s crew g full).Inv := by
  unfold State.setLatch
  simp (maxDischargeDepth := 40) [h]

/-! ### Machine/Special.lean -/

@[simp] theorem inv_Issue_trapAct (I : Issue) (cause : Nat) (info : Nat) (detail : DWord) (h : I.s.Inv) : (Issue.trapAct I
    cause info detail).Inv := by
  unfold Issue.trapAct
  simp (maxDischargeDepth := 40) [h]

@[simp] theorem inv_Issue_lowTrap (I : Issue) (body : State) (h : body.Inv) (hI : I.s.Inv) : (Issue.lowTrap I body).Inv := by
  unfold Issue.lowTrap
  (try simp only)
  repeat' split
  all_goals simp (maxDischargeDepth := 40) [h, hI]

@[simp] theorem inv_Issue_readSpecial (I : Issue) (n : Nat) (d : Opd) (bits : Nat) (h : I.s.Inv) : (Issue.readSpecial I n d
    bits).Inv := by
  unfold Issue.readSpecial
  simp (maxDischargeDepth := 40) [h]

@[simp] theorem inv_Issue_writeSpecial (I : Issue) (n : Nat) (value : Nat → Nat) (h : I.s.Inv) : (Issue.writeSpecial I n
    value).Inv := by
  unfold Issue.writeSpecial
  repeat' (first | (simp (maxDischargeDepth := 40) +contextual [h]; done) | (rename_i heq; replace heq := congrArg Prod.fst heq; dsimp only at heq; subst heq) | split | intro _)

/-! ### Machine/Seq.lean -/

@[simp] theorem inv_Issue_moveTo (I : Issue) (s : State) (l target : Nat) (check : Bool) (commit : State → State × Option Trap) (h : s.Inv) (hcommit : ∀ (y0 : State), y0.Inv → (commit y0).1.Inv) : (Issue.moveTo I s l target check commit).Inv := by
  unfold Issue.moveTo
  (try simp only)
  repeat' (first | (rename_i heq; replace heq := congrArg Prod.fst heq; dsimp only at heq; subst heq) | split)
  all_goals simp (maxDischargeDepth := 40) [h, hcommit]

@[simp] theorem inv_Issue_stackLost (I : Issue) (s : State) (l off kind : Nat) (h : s.Inv) : (Issue.stackLost I s l off kind).1.Inv := by
  unfold Issue.stackLost
  (try simp only)
  repeat' (first | (rename_i heq; replace heq := congrArg Prod.fst heq; dsimp only at heq; subst heq) | split)
  all_goals simp (maxDischargeDepth := 40) [h]

@[simp] theorem inv_Issue_stackReach (I : Issue) (s : State) (l off : Nat) (write : Bool) (k : State → List Part → State) (h :
    s.Inv) (hk : ∀ (y0 : State) (y1 : List Part), y0.Inv → (k y0 y1).Inv) : (Issue.stackReach I s l off write k).Inv := by
  unfold Issue.stackReach
  (try simp only)
  repeat' (first | (rename_i heq; replace heq := congrArg Prod.fst heq; dsimp only at heq; subst heq) | split)
  all_goals simp (maxDischargeDepth := 40) [h, hk]

@[simp] theorem inv_Issue_callTo (I : Issue) (s : State) (l target : Nat) (h : s.Inv) : (Issue.callTo I s l target).Inv := by
  unfold Issue.callTo
  repeat' (first | (simp (maxDischargeDepth := 40) +contextual [h]; done) | (rename_i heq; replace heq := congrArg Prod.fst heq; dsimp only at heq; subst heq) | split | intro _)

@[simp] theorem inv_Issue_retFrom (I : Issue) (s : State) (l : Nat) (h : s.Inv) : (Issue.retFrom I s l).Inv := by
  unfold Issue.retFrom
  dsimp only
  split
  · simp [h]
  · refine inv_Issue_stackReach _ _ _ _ _ _ h fun s ps h => ?_
    split
    · repeat' (first | (rename_i heq; replace heq := congrArg Prod.fst heq; dsimp only at heq; subst heq) | split)
      all_goals simp (maxDischargeDepth := 40) [h]
    · exact inv_Issue_moveTo _ _ _ _ _ _ h fun y h => by simp [h]

@[simp] theorem inv_Issue_transfer (I : Issue) (f : State → Nat → State) (h : I.s.Inv) (hf : ∀ (y0 : State) (y1 : Nat), y0.Inv
    → (f y0 y1).Inv) : (Issue.transfer I f).Inv := by
  unfold Issue.transfer
  (try simp only)
  repeat' (first | refine inv_foldl _ _ (fun _ _ _ => ?_) ?_ | (rename_i heq; replace heq := congrArg Prod.fst heq; dsimp only at heq; subst heq) | split)
  all_goals simp (maxDischargeDepth := 40) +contextual [*]

@[simp] theorem inv_State_yieldWarp (s : State) (id w : Nat) (h : s.Inv) : (State.yieldWarp s id w).Inv := by
  unfold State.yieldWarp
  (try simp only)
  repeat' split
  all_goals simp (maxDischargeDepth := 40) [h]

@[simp] theorem inv_State_restoreWait (s : State) (id w l : Nat) (t : Thread) (h : s.Inv) : (State.restoreWait s id w l t).Inv
    := by
  unfold State.restoreWait
  (try simp only)
  repeat' split
  all_goals simp (maxDischargeDepth := 40) [h]

@[simp] theorem inv_State_returnFrom (s : State) (id w l : Nat) (h : s.Inv) : (State.returnFrom s id w l).Inv := by
  unfold State.returnFrom
  (try simp only)
  repeat' split
  all_goals simp (maxDischargeDepth := 40) [h]

@[simp] theorem inv_State_noteArrival (s : State) (crew wi b : Nat) (lanes : Mask) (h : s.Inv) : (State.noteArrival s crew wi b lanes).Inv := by
  unfold State.noteArrival
  (try simp only)
  repeat' (first | (rename_i heq; replace heq := congrArg Prod.fst heq; dsimp only at heq; subst heq) | split)
  all_goals simp (maxDischargeDepth := 40) [h]

@[simp] theorem inv_State_sleepReturn (s : State) (id w : Nat) (lanes : List Nat) (ks : List Bound) (traps : Bool) (h : s.Inv)
    : (State.sleepReturn s id w lanes ks traps).Inv := by
  unfold State.sleepReturn
  (try simp only)
  repeat' split
  all_goals simp (maxDischargeDepth := 40) [h]

@[simp] theorem inv_State_signal (s : State) (id w t : Nat) (st : BoundSt) (h : s.Inv) : (State.signal s id w t st).Inv := by
  unfold State.signal
  (try simp only)
  repeat' split
  all_goals simp (maxDischargeDepth := 40) [h]

/-! ### Machine/Integer.lean -/

@[simp] theorem inv_Issue_int2 (I : Issue) (f : Fields) (g : Nat → Nat → Nat) (h : I.s.Inv) : (Issue.int2 I f g).Inv := by
  unfold Issue.int2
  simp (maxDischargeDepth := 40) [h]

@[simp] theorem inv_Issue_addForm (I : Issue) (f : Fields) (sub sat : Bool) (h : I.s.Inv) : (Issue.addForm I f sub sat).Inv := by
  unfold Issue.addForm
  simp (maxDischargeDepth := 40) [h]

@[simp] theorem inv_Issue_divForm (I : Issue) (f : Fields) (trapEn : Bool) (g : Ty → Nat → Nat → Nat → Nat) (h : I.s.Inv) :
    (Issue.divForm I f trapEn g).Inv := by
  unfold Issue.divForm
  simp (maxDischargeDepth := 40) [h]

@[simp] theorem inv_Issue_shiftForm (I : Issue) (f : Fields) (k : Shift) (h : I.s.Inv) : (Issue.shiftForm I f k).Inv := by
  unfold Issue.shiftForm
  simp (maxDischargeDepth := 40) [h]

@[simp] theorem inv_Issue_packForm (I : Issue) (f : Fields) (g : Nat → Nat → Nat) (h : I.s.Inv) : (Issue.packForm I f g).Inv := by
  unfold Issue.packForm
  simp (maxDischargeDepth := 40) [h]

/-! ### Machine/Flt.lean -/

@[simp] theorem inv_Issue_floatForm (I : Issue) (f : Fields) (rm : Rm) (g : Nat → Nat → Rm → Bool → FRes) (h : I.s.Inv) :
    (Issue.floatForm I f rm g).Inv := by
  unfold Issue.floatForm
  simp (maxDischargeDepth := 40) [h]

@[simp] theorem inv_Issue_floatUnary (I : Issue) (f : Fields) (rm : Rm) (g : Fmt → Rm → Bool → FVal → FRes) (h : I.s.Inv) :
    (Issue.floatUnary I f rm g).Inv := by
  unfold Issue.floatUnary
  simp (maxDischargeDepth := 40) [h]

@[simp] theorem inv_State_noteEarly (s : State) (o : Op) (a : LaneAcc) (ps : List (Op × List Scope)) (h : s.Inv) : (State.noteEarly s o a ps).Inv := by
  unfold State.noteEarly
  (try simp only)
  repeat' (first | (rename_i heq; replace heq := congrArg Prod.fst heq; dsimp only at heq; subst heq) | split)
  all_goals simp (maxDischargeDepth := 40) [h]

/-! ### Machine/Order.lean -/

@[simp] theorem inv_State_deliver (s : State) (o : Op) (d : Opd) (bits : Nat) (lanes : List LaneAcc) (h : s.Inv) :
    (State.deliver s o d bits lanes).Inv := by
  unfold State.deliver
  simp (maxDischargeDepth := 40) [h]

@[simp] theorem inv_State_acquired (s : State) (o : Op) (d : BitVec 9) (h : s.Inv) : (State.acquired s o d).Inv := by
  unfold State.acquired
  simp (maxDischargeDepth := 40) [h]

/-! ### Machine/Lme.lean -/

@[simp] theorem inv_Issue_acceptLanes (I : Issue) (f : Fields) (g : Nat → Except Trap LaneAcc) (h : I.s.Inv) :
    (Issue.acceptLanes I f g).Inv := by
  unfold Issue.acceptLanes
  (try simp only)
  repeat' split
  all_goals simp (maxDischargeDepth := 40) [h]

@[simp] theorem inv_Issue_loadStore (I : Issue) (f : Fields) (hasOff : Bool) (h : I.s.Inv) : (Issue.loadStore I f hasOff).Inv
    := by
  unfold Issue.loadStore
  (try simp only)
  repeat' split
  all_goals simp (maxDischargeDepth := 40) [h]

@[simp] theorem inv_Issue_latchForm (I : Issue) (f : Fields) (h : I.s.Inv) : (Issue.latchForm I f).Inv := by
  unfold Issue.latchForm
  simp (maxDischargeDepth := 40) [h]

@[simp] theorem inv_Issue_atomForm (I : Issue) (f : Fields) (op : AtomOp) (csm : Bool) (h : I.s.Inv) : (Issue.atomForm I f op
    csm).Inv := by
  unfold Issue.atomForm
  simp (maxDischargeDepth := 40) [h]

@[simp] theorem inv_State_addFence (s : State) (crew warp : Nat) (r : FenceRec) (h : s.Inv) : (State.addFence s crew warp
    r).Inv := by
  unfold State.addFence
  simp (maxDischargeDepth := 40) [h]

@[simp] theorem inv_State_insertFences (s : State) (core : Nat) (desc : BitVec 9) (h : s.Inv) : (State.insertFences s core desc).Inv := by
  unfold State.insertFences
  repeat' (first | (simp (maxDischargeDepth := 40) +contextual [h]; done) | (rename_i heq; replace heq := congrArg Prod.fst heq; dsimp only at heq; subst heq) | split | intro _)

@[simp] theorem inv_State_loadLane (s : State) (o : Op) (a : LaneAcc) (n : Nat) (t : Ty) (h : s.Inv) : (State.loadLane s o a n
    t).1.Inv := by
  unfold State.loadLane
  (try simp only)
  repeat' (first | (rename_i heq; replace heq := congrArg Prod.fst heq; dsimp only at heq; subst heq) | split)
  all_goals simp (maxDischargeDepth := 40) [h]

@[simp] theorem inv_State_storeLane (s : State) (o : Op) (a : LaneAcc) (n : Nat) (h : s.Inv) : (State.storeLane s o a n).1.Inv
    := by
  unfold State.storeLane
  (try simp only)
  repeat' (first | (rename_i heq; replace heq := congrArg Prod.fst heq; dsimp only at heq; subst heq) | split)
  all_goals simp (maxDischargeDepth := 40) [h]

@[simp] theorem inv_State_csmLaneAct (s : State) (o : Op) (a : LaneAcc) (n : Nat) (f : Nat → Option Nat) (h : s.Inv) :
    (State.csmLaneAct s o a n f).1.Inv := by
  unfold State.csmLaneAct
  (try simp only)
  repeat' split
  all_goals simp (maxDischargeDepth := 40) [h]

@[simp] theorem inv_State_latchLane (s : State) (o : Op) (a : LaneAcc) (full : Bool) (h : s.Inv) : (State.latchLane s o a
    full).1.Inv := by
  unfold State.latchLane
  (try simp only)
  repeat' split
  all_goals simp (maxDischargeDepth := 40) [h]

@[simp] theorem inv_State_metaLane (s : State) (o : Op) (a : LaneAcc) (write : Bool) (h : s.Inv) : (State.metaLane s o a
    write).1.Inv := by
  unfold State.metaLane
  (try simp only)
  repeat' (first | (rename_i heq; replace heq := congrArg Prod.fst heq; dsimp only at heq; subst heq) | split)
  all_goals simp (maxDischargeDepth := 40) [h]

@[simp] theorem inv_State_codeqLane (s : State) (o : Op) (a : LaneAcc) (h : s.Inv) : (State.codeqLane s o a).1.Inv := by
  unfold State.codeqLane
  (try simp only)
  repeat' (first | (rename_i heq; replace heq := congrArg Prod.fst heq; dsimp only at heq; subst heq) | split)
  all_goals simp (maxDischargeDepth := 40) [h]

@[simp] theorem inv_State_performLane (s : State) (o : Op) (a : LaneAcc) (h : s.Inv) : (State.performLane s o a).1.Inv := by
  unfold State.performLane
  (try simp only)
  repeat' (first | (rename_i heq; replace heq := congrArg Prod.fst heq; dsimp only at heq; subst heq) | split)
  all_goals simp (maxDischargeDepth := 40) [h]

@[simp] theorem inv_State_performLanes (x0 : List LaneAcc) (x1 : State) (x2 : Op) (x3 : List LaneAcc) (h : x1.Inv) :
    (State.performLanes x0 x1 x2 x3).Inv := by
  induction x0 generalizing x1 x2 x3 with
  | nil => simpa [State.performLanes] using h
  | cons a as ih =>
    unfold State.performLanes
    (try simp only)
    repeat' (first | (rename_i heq; replace heq := congrArg Prod.fst heq; dsimp only at heq; subst heq) | split)
    all_goals simp (maxDischargeDepth := 40) +contextual [h, ih]

@[simp] theorem inv_State_atomLane (s : State) (o : Op) (a : LaneAcc) (f : Fields) (op : AtomOp) (h : s.Inv) : (State.atomLane
    s o a f op).1.Inv := by
  unfold State.atomLane
  (try simp only)
  repeat' (first | (rename_i heq; replace heq := congrArg Prod.fst heq; dsimp only at heq; subst heq) | split)
  all_goals simp (maxDischargeDepth := 40) [h]

@[simp] theorem inv_State_queueAct (s : State) (key : Nat) (x : Sender) (k : ActKind) (h : s.Inv) : (State.queueAct s key x k).Inv := by
  unfold State.queueAct
  simp (maxDischargeDepth := 40) [h]

@[simp] theorem inv_State_stallReturn (s : State) (o : Op) (h : s.Inv) : (State.stallReturn s o).Inv := by
  unfold State.stallReturn
  (try simp only)
  repeat' (first | (rename_i heq; replace heq := congrArg Prod.fst heq; dsimp only at heq; subst heq) | split)
  all_goals simp (maxDischargeDepth := 40) [h]

@[simp] theorem inv_State_sendActs (x0 : List LaneAcc) (x1 : State) (x2 : Op) (x3 : Nat) (x4 : List LaneAcc) (h : x1.Inv) :
    (State.sendActs x0 x1 x2 x3 x4).Inv := by
  induction x0 generalizing x1 x2 x3 x4 with
  | nil => simpa [State.sendActs] using h
  | cons a as ih =>
    unfold State.sendActs
    (try simp only)
    repeat' (first | (rename_i heq; replace heq := congrArg Prod.fst heq; dsimp only at heq; subst heq) | split)
    all_goals simp (maxDischargeDepth := 40) +contextual [h, ih]

@[simp] theorem inv_State_completeLanes (s : State) (id : Nat) (h : s.Inv) : (State.completeLanes s id).Inv := by
  unfold State.completeLanes
  (try simp only)
  repeat' split
  all_goals simp (maxDischargeDepth := 40) [h]

@[simp] theorem inv_State_landStore (s : State) (o : Op) (a : LaneAcc) (n draw : Nat) (h : s.Inv) : (State.landStore s o a n draw).Inv := by
  unfold State.landStore
  (try simp only)
  repeat' (first | (rename_i heq; replace heq := congrArg Prod.fst heq; dsimp only at heq; subst heq) | split)
  all_goals simp (maxDischargeDepth := 40) [h]

@[simp] theorem inv_State_landLanes (s : State) (o : Op) (unit : Nat) (h : s.Inv) : (State.landLanes s o unit).Inv := by
  unfold State.landLanes
  (try simp only)
  repeat' (first | refine inv_foldl _ _ (fun _ _ _ => ?_) ?_ | (rename_i heq; replace heq := congrArg Prod.fst heq; dsimp only at heq; subst heq) | split)
  all_goals simp (maxDischargeDepth := 40) +contextual [*]

@[simp] theorem inv_State_noteLanes (s : State) (id : Nat) (h : s.Inv) : (State.noteLanes s id).Inv := by
  unfold State.noteLanes
  (try simp only)
  repeat' (first | (rename_i heq; replace heq := congrArg Prod.fst heq; dsimp only at heq; subst heq) | split)
  all_goals simp (maxDischargeDepth := 40) [h]

@[simp] theorem inv_State_landRest (s : State) (id : Nat) (h : s.Inv) : (State.landRest s id).Inv := by
  unfold State.landRest
  (try simp only)
  repeat' (first | (rename_i heq; replace heq := congrArg Prod.fst heq; dsimp only at heq; subst heq) | split)
  all_goals simp (maxDischargeDepth := 40) [h]

@[simp] theorem inv_State_runLme (s : State) (o : Op) (h : s.Inv) : (State.runLme s o).Inv := by
  unfold State.runLme
  (try simp only)
  repeat' split
  all_goals simp (maxDischargeDepth := 40) [h]

@[simp] theorem inv_State_leaveWait (s : State) (crew warp : Nat) (lanes : Mask) (h : s.Inv) : (State.leaveWait s crew warp
    lanes).Inv := by
  unfold State.leaveWait
  simp (maxDischargeDepth := 40) [h]

@[simp] theorem inv_State_endWaits (s : State) (id : Nat) (h : s.Inv) : (State.endWaits s id).Inv := by
  unfold State.endWaits
  (try simp only)
  repeat' split
  all_goals simp (maxDischargeDepth := 40) [h]

@[simp] theorem inv_State_serveLatch (s : State) (o : Op) (a : LaneAcc) (f : Fields) (clr : Bool) (h : s.Inv) :
    (State.serveLatch s o a f clr).Inv := by
  unfold State.serveLatch
  (try simp only)
  repeat' split
  all_goals simp (maxDischargeDepth := 40) [h]

/-! ### Machine/Phase.lean -/

@[simp] theorem inv_State_stopFab (s : State) (o : Op) (access : Nat) (g : Gate) (h : s.Inv) : (State.stopFab s o access g).Inv
    := by
  unfold State.stopFab
  (try simp only)
  repeat' (first | (rename_i heq; replace heq := congrArg Prod.fst heq; dsimp only at heq; subst heq) | split)
  all_goals simp (maxDischargeDepth := 40) [h]

@[simp] theorem inv_State_logLink (s : State) (o : Op) (origin : Word) (h : s.Inv) : (State.logLink s o origin).Inv := by
  unfold State.logLink
  simp (maxDischargeDepth := 40) [h]

@[simp] theorem inv_State_settleFab (s : State) (o : Op) (cause : BitVec 6) (origin : Word) (h : s.Inv) : (State.settleFab s o
    cause origin).Inv := by
  unfold State.settleFab
  simp (maxDischargeDepth := 40) [h]

@[simp] theorem inv_State_endPbwait (s : State) (o : Op) (poison : Option (Nat × BitVec 6 × Word)) (h : s.Inv) :
    (State.endPbwait s o poison).Inv := by
  unfold State.endPbwait
  (try simp only)
  repeat' split
  all_goals simp (maxDischargeDepth := 40) [h]

@[simp] theorem inv_State_failPhase (s : State) (o : Op) (cause : BitVec 6) (origin : Option Word) (h : s.Inv) :
    (State.failPhase s o cause origin).Inv := by
  unfold State.failPhase
  (try simp only)
  repeat' split
  all_goals simp (maxDischargeDepth := 40) [h]

@[simp] theorem inv_State_reachPhase (s : State) (o : Op) (write : Bool) (h : s.Inv) : (State.reachPhase s o write).1.Inv := by
  unfold State.reachPhase
  simp (maxDischargeDepth := 40) [h]

@[simp] theorem inv_State_stopPhase (s : State) (o : Op) (g : Gate) (h : s.Inv) : (State.stopPhase s o g).Inv := by
  unfold State.stopPhase
  (try simp only)
  repeat' split
  all_goals simp (maxDischargeDepth := 40) [h]

@[simp] theorem inv_State_sendPhase_send (s : State) (o : Op) (h : s.Inv) : (State.sendPhase.send o s).Inv := by
  unfold State.sendPhase.send
  (try simp only)
  repeat' (first | (rename_i heq; replace heq := congrArg Prod.fst heq; dsimp only at heq; subst heq) | split)
  all_goals simp (maxDischargeDepth := 40) [h]

@[simp] theorem inv_State_sendPhase (s : State) (o : Op) (h : s.Inv) : (State.sendPhase s o).Inv := by
  unfold State.sendPhase
  (try simp only)
  repeat' (first | (rename_i heq; replace heq := congrArg Prod.fst heq; dsimp only at heq; subst heq) | split)
  all_goals simp (maxDischargeDepth := 40) [h]

@[simp] theorem inv_State_actPhase (s : State) (o : Op) (h : s.Inv) : (State.actPhase s o).Inv := by
  unfold State.actPhase
  (try simp only)
  repeat' (first | (rename_i heq; replace heq := congrArg Prod.fst heq; dsimp only at heq; subst heq) | split)
  all_goals simp (maxDischargeDepth := 40) [h]

@[simp] theorem inv_State_checkPbwait (s : State) (o : Op) (h : s.Inv) : (State.checkPbwait s o).Inv := by
  unfold State.checkPbwait
  (try simp only)
  repeat' (first | (rename_i heq; replace heq := congrArg Prod.fst heq; dsimp only at heq; subst heq) | split)
  all_goals simp (maxDischargeDepth := 40) [h]

/-! ### Machine/Fch.lean -/

@[simp] theorem inv_State_setCode (s : State) (key : Nat) (f : CodeFrame → CodeFrame) (h : s.Inv) : (State.setCode s key f).Inv
    := by
  unfold State.setCode
  simp (maxDischargeDepth := 40) [h]

@[simp] theorem inv_State_pubFrame (s : State) (key lo hi : Nat) (cores : Option (List Nat)) (h : s.Inv) : (State.pubFrame s
    key lo hi cores).Inv := by
  unfold State.pubFrame
  simp (maxDischargeDepth := 40) [h]

@[simp] theorem inv_State_pubPages (s : State) (o : Op) (cores : Option (List Nat)) (first last : Nat) (x0 : Nat) (x1 : Nat) (h : s.Inv) : (State.pubPages s o cores first last x0 x1).Inv := by
  induction x0 generalizing s x1 with
  | zero => simpa [State.pubPages] using h
  | succ n ih =>
    unfold State.pubPages
    (try simp only)
    repeat' (first | (rename_i heq; replace heq := congrArg Prod.fst heq; dsimp only at heq; subst heq) | split)
    all_goals simp (maxDischargeDepth := 40) +contextual [h, ih]

@[simp] theorem inv_State_recipeWriteOp (s : State) (o : Op) (die : Nat) (h : s.Inv) : (State.recipeWriteOp s o die).Inv := by
  unfold State.recipeWriteOp
  simp (maxDischargeDepth := 40) [h]

@[simp] theorem inv_State_runCodepub (s : State) (o : Op) (h : s.Inv) : (State.runCodepub s o).Inv := by
  unfold State.runCodepub
  simp (maxDischargeDepth := 40) [h]

@[simp] theorem inv_State_loseLine (s : State) (o : Op) (unit : Nat) (h : s.Inv) : (State.loseLine s o unit).Inv := by
  unfold State.loseLine
  simp (maxDischargeDepth := 40) [h]

@[simp] theorem inv_State_runCpatch (s : State) (o : Op) (ent : PatchEntry) (h : s.Inv) : (State.runCpatch s o ent).Inv := by
  unfold State.runCpatch
  (try simp only)
  repeat' (first | (rename_i heq; replace heq := congrArg Prod.fst heq; dsimp only at heq; subst heq) | split)
  all_goals simp (maxDischargeDepth := 40) [h]

/-! ### Machine/Cpe.lean -/

@[simp] theorem inv_State_noteTrace (s : State) (o : Op) (cause : Option (BitVec 6)) (done : Bool) (h : s.Inv) :
    (State.noteTrace s o cause done).Inv := by
  unfold State.noteTrace
  simp (maxDischargeDepth := 40) [h]

@[simp] theorem inv_State_register (s : State) (ws : List (Nat × Ward)) (h : s.Inv) : (State.register s ws).Inv := by
  unfold State.register
  (try simp only)
  refine inv_foldl _ _ (fun _ _ _ => ?_) ?_
  all_goals simp (maxDischargeDepth := 40) +contextual [*]

theorem inv_Issue_cpeCheck (I : Issue) (f : Fields) (h : I.s.Inv) {t : State} (e : I.cpeCheck f = .error t) : t.Inv := by
  unfold Issue.cpeCheck at e
  revert e
  (try simp only)
  repeat' split
  all_goals (intro e; cases e)
  all_goals simp (maxDischargeDepth := 40) [h]

theorem inv_Issue_cpeForm (I : Issue) (f : Fields) (h : I.s.Inv) {t : State} (e : I.cpeForm f = .error t) : t.Inv := by
  unfold Issue.cpeForm at e
  revert e
  (try simp only)
  split
  · intro e; cases e
  · cases e' : I.cpeCheck f with
    | error u => intro e; cases e; exact inv_Issue_cpeCheck I f h e'
    | ok r => intro e; cases e

@[simp] theorem inv_Issue_acceptCpe (I : Issue) (f : Fields) (h : I.s.Inv) : (Issue.acceptCpe I f).Inv := by
  unfold Issue.acceptCpe
  split
  · exact inv_Issue_cpeForm I f h (by assumption)
  · (try simp only)
    repeat' split
    all_goals simp (maxDischargeDepth := 40) +contextual [h]

@[simp] theorem inv_State_xlateLoop (w : Who) (need : Need) (x0 : Nat) (x1 : State) (x2 x3 : Nat) (h : x1.Inv) :
    (State.xlateLoop w need x0 x1 x2 x3).1.Inv := by
  induction x0 generalizing x1 x2 x3 with
  | zero => simpa [State.xlateLoop] using h
  | succ n ih =>
    unfold State.xlateLoop
    (try simp only)
    repeat' (first | (rename_i heq; replace heq := congrArg Prod.fst heq; dsimp only at heq; subst heq) | split)
    all_goals simp (maxDischargeDepth := 40) +contextual [h, ih]

@[simp] theorem inv_State_xlateRanges (w : Who) (x0 : List RowRange) (x1 : State) (h : x1.Inv) : (State.xlateRanges w x0 x1).1.Inv := by
  induction x0 generalizing x1 with
  | nil => simpa [State.xlateRanges] using h
  | cons a as ih =>
    unfold State.xlateRanges
    (try simp only)
    repeat' (first | (rename_i heq; replace heq := congrArg Prod.fst heq; dsimp only at heq; subst heq) | split)
    all_goals simp (maxDischargeDepth := 40) +contextual [h, ih]

@[simp] theorem inv_State_reachAll (w : Who) (x0 : List RowRange) (x1 : State) (x2 : List Part) (h : x1.Inv) : (State.reachAll w x0 x1 x2).1.Inv := by
  induction x0 generalizing x1 x2 with
  | nil => simpa [State.reachAll] using h
  | cons a as ih =>
    unfold State.reachAll
    (try simp only)
    repeat' (first | (rename_i heq; replace heq := congrArg Prod.fst heq; dsimp only at heq; subst heq) | split)
    all_goals simp (maxDischargeDepth := 40) +contextual [h, ih]

@[simp] theorem inv_State_rowIndex (s : State) (o : Op) (c : Crew) (i : Nat) (h : s.Inv) : (State.rowIndex s o c i).1.Inv := by
  unfold State.rowIndex
  (try simp only)
  repeat' (first | (rename_i heq; replace heq := congrArg Prod.fst heq; dsimp only at heq; subst heq) | split)
  all_goals simp (maxDischargeDepth := 40) [h]

@[simp] theorem inv_State_planRow (s : State) (o : Op) (c : Crew) (i : Nat) (h : s.Inv) : (State.planRow s o c i).1.Inv := by
  unfold State.planRow
  (try simp only)
  repeat' (first | (rename_i heq; replace heq := congrArg Prod.fst heq; dsimp only at heq; subst heq) | split)
  all_goals simp (maxDischargeDepth := 40) [h]

@[simp] theorem inv_State_rowSource (s : State) (o : Op) (c : Crew) (i idx : Nat) (h : s.Inv) : (State.rowSource s o c i
    idx).1.Inv := by
  unfold State.rowSource
  (try simp only)
  repeat' (first | (rename_i heq; replace heq := congrArg Prod.fst heq; dsimp only at heq; subst heq) | split)
  all_goals simp (maxDischargeDepth := 40) [h]

@[simp] theorem inv_State_rowDest (s : State) (o : Op) (c : Crew) (i idx : Nat) (h : s.Inv) : (State.rowDest s o c i idx).1.Inv
    := by
  unfold State.rowDest
  (try simp only)
  repeat' (first | (rename_i heq; replace heq := congrArg Prod.fst heq; dsimp only at heq; subst heq) | split)
  all_goals simp (maxDischargeDepth := 40) [h]

@[simp] theorem inv_State_rowScales (s : State) (o : Op) (i : Nat) (h : s.Inv) : (State.rowScales s o i).1.Inv := by
  unfold State.rowScales
  (try simp only)
  repeat' (first | (rename_i heq; replace heq := congrArg Prod.fst heq; dsimp only at heq; subst heq) | split)
  all_goals simp (maxDischargeDepth := 40) [h]

@[simp] theorem inv_State_fillLatches (s : State) (base lo n : Nat) (written landed : Nat → Bool) (find : Nat → Option CsmPart) (hv : s.Inv) : (State.fillLatches s base lo n written landed find).Inv := by
  unfold State.fillLatches
  (try simp only)
  repeat' (first | refine inv_foldl _ _ (fun _ _ _ => ?_) ?_ | (rename_i heq; replace heq := congrArg Prod.fst heq; dsimp only at heq; subst heq) | split)
  all_goals simp (maxDischargeDepth := 40) +contextual [*]

@[simp] theorem inv_State_rowLatches (s : State) (o : Op) (c : Crew) (i t first : Nat) (land : Option Nat) (h : s.Inv) : (State.rowLatches s o c i t first land).Inv := by
  unfold State.rowLatches
  repeat' (first | (simp (maxDischargeDepth := 40) +contextual [h]; done) | (rename_i heq; replace heq := congrArg Prod.fst heq; dsimp only at heq; subst heq) | split | intro _)

@[simp] theorem inv_State_putTargets (o : Op) (c : Crew) (i : Nat) (land : Option Nat) (bs : List Byte) (x0 : State) (x1 : Nat)
    (x2 : List (List CsmPart)) (h : x0.Inv) : (State.putTargets o c i land bs x0 x1 x2).Inv := by
  induction x2 generalizing x0 x1 with
  | nil => simpa [State.putTargets] using h
  | cons a as ih =>
    unfold State.putTargets
    simp (maxDischargeDepth := 40) +contextual [h, ih]

@[simp] theorem inv_State_fillSlots (s : State) (crew q : Nat) (h : Shape) (i : Nat) (land : Option Nat) (bs : List Byte)
    (scales : List Nat) (hv : s.Inv) : (State.fillSlots s crew q h i land bs scales).Inv := by
  unfold State.fillSlots
  simp (maxDischargeDepth := 40) [hv]

@[simp] theorem inv_State_fillShape (s : State) (o : Op) (f : Fields) (bs : List Byte) (h : s.Inv) : (State.fillShape s o f bs).Inv := by
  unfold State.fillShape
  (try simp only)
  repeat' (first | (rename_i heq; replace heq := congrArg Prod.fst heq; dsimp only at heq; subst heq) | split)
  all_goals simp (maxDischargeDepth := 40) [h]

@[simp] theorem inv_State_moveRow (s : State) (o : Op) (c : Crew) (i idx : Nat) (land : Option Nat) (h : s.Inv) : (State.moveRow s o c i idx land).1.Inv := by
  unfold State.moveRow
  (try simp only)
  repeat' (first | (rename_i heq; replace heq := congrArg Prod.fst heq; dsimp only at heq; subst heq) | split)
  all_goals simp (maxDischargeDepth := 40) [h]

@[simp] theorem inv_State_setRow (s : State) (id row : Nat) (f : RowSt → RowSt) (h : s.Inv) : (State.setRow s id row f).Inv := by
  unfold State.setRow
  (try simp only)
  repeat' (first | (rename_i heq; replace heq := congrArg Prod.fst heq; dsimp only at heq; subst heq) | split)
  all_goals simp (maxDischargeDepth := 40) [h]

@[simp] theorem inv_State_reachPiece (s : State) (o : Op) (r : RowSt) (k : Nat) (h : s.Inv) : (State.reachPiece s o r k).1.Inv := by
  unfold State.reachPiece
  (try simp only)
  repeat' (first | (rename_i heq; replace heq := congrArg Prod.fst heq; dsimp only at heq; subst heq) | split)
  all_goals simp (maxDischargeDepth := 40) [h]

@[simp] theorem inv_State_sendPieces (o : Op) (r : RowSt) (x0 : List Nat) (x1 : State) (h : x1.Inv) : (State.sendPieces o r x0 x1).1.Inv := by
  induction x0 generalizing x1 with
  | nil => simpa [State.sendPieces] using h
  | cons a as ih =>
    unfold State.sendPieces
    (try simp only)
    repeat' (first | (rename_i heq; replace heq := congrArg Prod.fst heq; dsimp only at heq; subst heq) | split)
    all_goals simp (maxDischargeDepth := 40) +contextual [h, ih]

@[simp] theorem inv_State_rowFinished (s : State) (id i : Nat) (h : s.Inv) : (State.rowFinished s id i).Inv := by
  unfold State.rowFinished
  (try simp only)
  repeat' (first | (rename_i heq; replace heq := congrArg Prod.fst heq; dsimp only at heq; subst heq) | split)
  all_goals simp (maxDischargeDepth := 40) [h]

@[simp] theorem inv_State_stopRow (s : State) (o : Op) (i : Nat) (e : RowStop) (h : s.Inv) : (State.stopRow s o i e).Inv := by
  unfold State.stopRow
  (try simp only)
  repeat' (first | (rename_i heq; replace heq := congrArg Prod.fst heq; dsimp only at heq; subst heq) | split)
  all_goals simp (maxDischargeDepth := 40) [h]

@[simp] theorem inv_State_goRow (s : State) (o : Op) (c : Crew) (r : RowSt) (land : Option Nat) (h : s.Inv) : (State.goRow s o c r land).Inv := by
  unfold State.goRow
  (try simp only)
  repeat' (first | (rename_i heq; replace heq := congrArg Prod.fst heq; dsimp only at heq; subst heq) | split)
  all_goals simp (maxDischargeDepth := 40) [h]

@[simp] theorem inv_State_cpeLoop (c : Crew) (last : Nat) (x0 : Nat) (x1 : State) (x2 : Nat) (x3 : Nat) (h : x1.Inv) : (State.cpeLoop c last x0 x1 x2 x3).Inv := by
  induction x0 generalizing x1 x2 x3 with
  | zero => simpa [State.cpeLoop] using h
  | succ n ih =>
    unfold State.cpeLoop
    (try simp only)
    repeat' (first | (rename_i heq; replace heq := congrArg Prod.fst heq; dsimp only at heq; subst heq) | split)
    all_goals (try refine ih _ _ _ ?_)
    all_goals repeat' split
    all_goals simp (maxDischargeDepth := 40) +contextual [h, ih]

@[simp] theorem inv_State_landPieces (o : Op) (r : RowSt) (draw : Nat) (x0 : List Nat) (x1 : State) (h : x1.Inv) :
    (State.landPieces o r draw x0 x1).Inv := by
  induction x0 generalizing x1 with
  | nil => simpa [State.landPieces] using h
  | cons a as ih =>
    unfold State.landPieces
    (try simp only)
    repeat' (first | (rename_i heq; replace heq := congrArg Prod.fst heq; dsimp only at heq; subst heq) | split)
    all_goals simp (maxDischargeDepth := 40) +contextual [h, ih]

@[simp] theorem inv_State_landRow (s : State) (o : Op) (c : Crew) (r : RowSt) (h : s.Inv) : (State.landRow s o c r).Inv := by
  unfold State.landRow
  (try simp only)
  repeat' (first | (rename_i heq; replace heq := congrArg Prod.fst heq; dsimp only at heq; subst heq) | split)
  all_goals simp (maxDischargeDepth := 40) [h]

@[simp] theorem inv_State_loseRow (s : State) (o : Op) (i : Nat) (write : Bool) (h : s.Inv) : (State.loseRow s o i write).Inv
    := by
  unfold State.loseRow
  (try simp only)
  repeat' (first | (rename_i heq; replace heq := congrArg Prod.fst heq; dsimp only at heq; subst heq) | split)
  all_goals simp (maxDischargeDepth := 40) [h]

@[simp] theorem inv_State_runCpe (s : State) (o : Op) (h : s.Inv) : (State.runCpe s o).Inv := by
  unfold State.runCpe
  (try simp only)
  repeat' split
  all_goals simp (maxDischargeDepth := 40) [h]

@[simp] theorem inv_State_actRow (s : State) (id i k : Nat) (h : s.Inv) : (State.actRow s id i k).Inv := by
  unfold State.actRow
  (try simp only)
  repeat' (first | (rename_i heq; replace heq := congrArg Prod.fst heq; dsimp only at heq; subst heq) | split)
  all_goals simp (maxDischargeDepth := 40) [h]

/-! ### Machine/Mxe.lean -/

@[simp] theorem inv_State_setTile (s : State) (crew n : Nat) (t : Option AccTile) (h : s.Inv) : (State.setTile s crew n t).Inv
    := by
  unfold State.setTile
  simp (maxDischargeDepth := 40) [h]

@[simp] theorem inv_Issue_tileMove (I : Issue) (f : Fields) (ptr : Opd) (h : I.s.Inv) : (Issue.tileMove I f ptr).Inv := by
  unfold Issue.tileMove
  simp (maxDischargeDepth := 40) [h]

@[simp] theorem inv_State_moveTile (s : State) (c : Crew) (p pitch e nr nc : Nat) (g : Nat → Nat → Nat) (h : s.Inv) :
    (State.moveTile s c p pitch e nr nc g).Inv := by
  unfold State.moveTile
  repeat' (first | (simp (maxDischargeDepth := 40) +contextual [h]; done) | (rename_i heq; replace heq := congrArg Prod.fst heq; dsimp only at heq; subst heq) | split | intro _)

@[simp] theorem inv_State_moveLatches (s : State) (c : Crew) (p pitch e nr nc : Nat) (h : s.Inv) : (State.moveLatches s c p
    pitch e nr nc).Inv := by
  unfold State.moveLatches
  repeat' (first | (simp (maxDischargeDepth := 40) +contextual [h]; done) | (rename_i heq; replace heq := congrArg Prod.fst heq; dsimp only at heq; subst heq) | split | intro _)

@[simp] theorem inv_State_commitMma (s : State) (o : Op) (f : Fields) (var : BitVec 5) (leader member : Crew) (h : s.Inv) :
    (State.commitMma s o f var leader member).Inv := by
  unfold State.commitMma
  (try simp only)
  repeat' split
  all_goals simp (maxDischargeDepth := 40) [h]

@[simp] theorem inv_State_storeTile (s : State) (c : Crew) (o : Op) (f : Fields) (latch : Bool) (t : AccTile) (g : Nat → Nat →
    Nat) (h : s.Inv) : (State.storeTile s c o f latch t g).Inv := by
  unfold State.storeTile
  simp (maxDischargeDepth := 40) [h]

@[simp] theorem inv_State_commitMxe (s : State) (o : Op) (c : Crew) (h : s.Inv) : (State.commitMxe s o c).Inv := by
  unfold State.commitMxe
  repeat' (first | (simp (maxDischargeDepth := 40) +contextual [h]; done) | (rename_i heq; replace heq := congrArg Prod.fst heq; dsimp only at heq; subst heq) | split | intro _)

@[simp] theorem inv_State_acquireMember (s : State) (core : Nat) (h : s.Inv) : (State.acquireMember s core).Inv := by
  unfold State.acquireMember
  (try simp only)
  repeat' split
  all_goals simp (maxDischargeDepth := 40) [h]

@[simp] theorem inv_State_startMxe (s : State) (core : Nat) (h : s.Inv) : (State.startMxe s core).Inv := by
  unfold State.startMxe
  (try simp only)
  repeat' split
  all_goals simp (maxDischargeDepth := 40) [h]

@[simp] theorem inv_State_landParts (t : State) (n : Nat) (x0 : State) (x1 : List CsmPart) (h : x0.Inv) : (State.landParts t n x0 x1).Inv := by
  induction x1 generalizing x0 with
  | nil => simpa [State.landParts] using h
  | cons a as ih =>
    unfold State.landParts
    (try simp only)
    refine ih _ (inv_foldl _ _ (fun s k hs => ?_) (by simp (maxDischargeDepth := 40) [h]))
    split <;> simp [hs]

@[simp] theorem inv_State_endMxe (s : State) (o : Op) (h : s.Inv) : (State.endMxe s o).Inv := by
  unfold State.endMxe
  (try simp only)
  repeat' split
  all_goals simp (maxDischargeDepth := 40) [h]

/-! ### Machine/Fab.lean -/

@[simp] theorem inv_Issue_fabForm (I : Issue) (f : Fields) (align bits : Nat) (h : I.s.Inv) : (Issue.fabForm I f align
    bits).Inv := by
  unfold Issue.fabForm
  simp (maxDischargeDepth := 40) [h]

@[simp] theorem inv_Issue_acceptOr (I : Issue) (o : Op) (refused : Option (BitVec 6)) (h : I.s.Inv) : (Issue.acceptOr I o refused).Inv := by
  unfold Issue.acceptOr
  repeat' split
  all_goals simp (maxDischargeDepth := 40) [h]

@[simp] theorem inv_Issue_fabWarp (I : Issue) (f : Fields) (n : Nat) (body : Nat → State) (h : I.s.Inv) (hb : ∀ n, (body n).Inv) :
    (Issue.fabWarp I f n body).Inv := by
  unfold Issue.fabWarp
  repeat' split
  all_goals simp (maxDischargeDepth := 40) [h, hb]

@[simp] theorem inv_Issue_windowForm (I : Issue) (f : Fields) (h : I.s.Inv) : (Issue.windowForm I f).Inv := by
  unfold Issue.windowForm
  simp (maxDischargeDepth := 40) [h]

@[simp] theorem inv_State_groupDone (s : State) (id : Nat) (rs : List (Nat × Nat)) (h : s.Inv) : (State.groupDone s id rs).Inv
    := by
  unfold State.groupDone
  repeat' (first | (simp (maxDischargeDepth := 40) +contextual [h]; done) | (rename_i heq; replace heq := congrArg Prod.fst heq; dsimp only at heq; subst heq) | split | intro _)

@[simp] theorem inv_State_failLanes (s : State) (o : Op) (a : LaneAcc) (x : BitVec 6 × Word) (h : s.Inv) : (State.failLanes s o a x).Inv := by
  unfold State.failLanes
  (try simp only)
  repeat' (first | refine inv_foldl _ _ (fun _ _ _ => ?_) ?_ | (rename_i heq; replace heq := congrArg Prod.fst heq; dsimp only at heq; subst heq) | split)
  all_goals simp (maxDischargeDepth := 40) +contextual [*]

@[simp] theorem inv_State_laneFailed (s : State) (id : Nat) (a : LaneAcc) (h : s.Inv) : (State.laneFailed s id a).Inv := by
  unfold State.laneFailed
  (try simp only)
  repeat' (first | (rename_i heq; replace heq := congrArg Prod.fst heq; dsimp only at heq; subst heq) | split)
  all_goals simp (maxDischargeDepth := 40) [h]

@[simp] theorem inv_State_stuckFails (s : State) (o : Op) (h : s.Inv) : (State.stuckFails s o).Inv := by
  unfold State.stuckFails
  (try simp only)
  repeat' (first | (rename_i heq; replace heq := congrArg Prod.fst heq; dsimp only at heq; subst heq) | split)
  all_goals simp (maxDischargeDepth := 40) [h]

@[simp] theorem inv_State_localLaneAct (s : State) (o : Op) (a : LaneAcc) (h : s.Inv) : (State.localLaneAct s o a).1.Inv := by
  unfold State.localLaneAct
  (try simp only)
  repeat' (first | (rename_i heq; replace heq := congrArg Prod.fst heq; dsimp only at heq; subst heq) | split)
  all_goals simp (maxDischargeDepth := 40) [h]

@[simp] theorem inv_State_localLanes (x0 : List LaneAcc) (x1 : State) (x2 : Op) (h : x1.Inv) : (State.localLanes x0 x1 x2).Inv
    := by
  induction x0 generalizing x1 x2 with
  | nil => simpa [State.localLanes] using h
  | cons a as ih =>
    unfold State.localLanes
    (try simp only)
    repeat' (first | (rename_i heq; replace heq := congrArg Prod.fst heq; dsimp only at heq; subst heq) | split)
    all_goals simp (maxDischargeDepth := 40) +contextual [h, ih]

@[simp] theorem inv_State_fabAtomLane (s : State) (o : Op) (a : LaneAcc) (f : Fields) (op : AtomOp) (h : s.Inv) :
    (State.fabAtomLane s o a f op).1.Inv := by
  unfold State.fabAtomLane
  (try simp only)
  repeat' (first | (rename_i heq; replace heq := congrArg Prod.fst heq; dsimp only at heq; subst heq) | split)
  all_goals simp (maxDischargeDepth := 40) [h]

@[simp] theorem inv_State_doneFab (s : State) (o : Op) (h : s.Inv) : (State.doneFab s o).Inv := by
  unfold State.doneFab
  (try simp only)
  repeat' split
  all_goals simp (maxDischargeDepth := 40) [h]

@[simp] theorem inv_State_endFailed (s : State) (o : Op) (h : s.Inv) : (State.endFailed s o).Inv := by
  unfold State.endFailed
  (try simp only)
  repeat' split
  all_goals simp (maxDischargeDepth := 40) [h]

@[simp] theorem inv_State_endFab (s : State) (id : Nat) (h : s.Inv) : (State.endFab s id).Inv := by
  unfold State.endFab
  (try simp only)
  repeat' split
  all_goals simp (maxDischargeDepth := 40) [h]

@[simp] theorem inv_State_requestFails (s : State) (o : Op) (a : LaneAcc) (n r : Nat) (h : s.Inv) : (State.requestFails s o a n r).Inv := by
  unfold State.requestFails
  (try simp only)
  repeat' (first | (rename_i heq; replace heq := congrArg Prod.fst heq; dsimp only at heq; subst heq) | split)
  all_goals simp (maxDischargeDepth := 40) [h]

@[simp] theorem inv_State_answerLanes (s : State) (o : Op) (ans : FabAnswer) (h : s.Inv) : (State.answerLanes s o ans).Inv := by
  unfold State.answerLanes
  refine inv_foldl _ _ (fun s a hs => ?_) h
  split <;> simp (maxDischargeDepth := 40) [hs]

@[simp] theorem inv_State_runFabLanes (s : State) (o : Op) (ans : FabAnswer) (h : s.Inv) : (State.runFabLanes s o ans).Inv := by
  unfold State.runFabLanes
  (try simp only)
  repeat' split
  all_goals simp (maxDischargeDepth := 40) [h]

@[simp] theorem inv_State_wholeAnswer (s : State) (o : Op) (ans : FabAnswer) (done : State → QWord → State) (h : s.Inv)
    (hdone : ∀ (y0 : State) (y1 : QWord), y0.Inv → (done y0 y1).Inv) : (State.wholeAnswer s o ans done).Inv := by
  unfold State.wholeAnswer
  repeat' split
  all_goals simp (maxDischargeDepth := 40) [h, hdone]

@[simp] theorem inv_State_runBlock (s : State) (o : Op) (ans : FabAnswer) (h : s.Inv) : (State.runBlock s o ans).Inv := by
  unfold State.runBlock
  (try simp only)
  repeat' (first | refine inv_State_wholeAnswer _ _ _ _ ?_ (fun _ _ _ => ?_) | (rename_i heq; replace heq := congrArg Prod.fst heq; dsimp only at heq; subst heq) | split)
  all_goals simp (maxDischargeDepth := 40) [*]

@[simp] theorem inv_State_reachWindow (s : State) (o : Op) (h : s.Inv) : (State.reachWindow s o).1.Inv := by
  unfold State.reachWindow
  simp (maxDischargeDepth := 40) [h]

@[simp] theorem inv_State_callOne (s : State) (key : Nat) (t : Word) (k : ActKind) (poison : Bool) (h : s.Inv) : (State.callOne
    s key t k poison).Inv := by
  unfold State.callOne
  (try simp only)
  repeat' split
  all_goals simp (maxDischargeDepth := 40) [h]

@[simp] theorem inv_State_callWindow (s : State) (key : Nat) (h : s.Inv) : (State.callWindow s key).Inv := by
  unfold State.callWindow
  repeat' (first | (simp (maxDischargeDepth := 40) +contextual [h]; done) | (rename_i heq; replace heq := congrArg Prod.fst heq; dsimp only at heq; subst heq) | split | intro _)

@[simp] theorem inv_State_callTickets (s : State) (h : s.Inv) : (State.callTickets s).Inv := by
  unfold State.callTickets
  repeat' (first | (simp (maxDischargeDepth := 40) +contextual [h]; done) | (rename_i heq; replace heq := congrArg Prod.fst heq; dsimp only at heq; subst heq) | split | intro _)

@[simp] theorem inv_State_actWindow (s : State) (o : Op) (h : s.Inv) : (State.actWindow s o).Inv := by
  unfold State.actWindow
  (try simp only)
  repeat' (first | (rename_i heq; replace heq := congrArg Prod.fst heq; dsimp only at heq; subst heq) | split)
  all_goals simp (maxDischargeDepth := 40) [h]

@[simp] theorem inv_State_runWindow (s : State) (o : Op) (ans : FabAnswer) (h : s.Inv) : (State.runWindow s o ans).Inv := by
  unfold State.runWindow
  (try simp only)
  repeat' (first | refine inv_State_wholeAnswer _ _ _ _ ?_ (fun _ _ _ => ?_) | (rename_i heq; replace heq := congrArg Prod.fst heq; dsimp only at heq; subst heq) | split)
  all_goals simp (maxDischargeDepth := 40) [*]

@[simp] theorem inv_State_runFlush (s : State) (o : Op) (h : s.Inv) : (State.runFlush s o).Inv := by
  unfold State.runFlush
  (try simp only)
  repeat' split
  all_goals simp (maxDischargeDepth := 40) [h]

@[simp] theorem inv_State_runArrival (s : State) (o : Op) (ans : FabAnswer) (h : s.Inv) : (State.runArrival s o ans).Inv := by
  unfold State.runArrival
  (try simp only)
  repeat' (first | refine inv_State_wholeAnswer _ _ _ _ ?_ (fun _ _ _ => ?_) | (rename_i heq; replace heq := congrArg Prod.fst heq; dsimp only at heq; subst heq) | split)
  all_goals simp (maxDischargeDepth := 40) [*]

@[simp] theorem inv_State_runFab (s : State) (o : Op) (ans : FabAnswer) (h : s.Inv) : (State.runFab s o ans).Inv := by
  unfold State.runFab
  (try simp only)
  repeat' split
  all_goals simp (maxDischargeDepth := 40) [h]

@[simp] theorem inv_State_resend (s : State) (o : Op) (n r : Nat) (h : s.Inv) : (State.resend s o n r).Inv := by
  unfold State.resend
  (try simp only)
  repeat' (first | (rename_i heq; replace heq := congrArg Prod.fst heq; dsimp only at heq; subst heq) | split)
  all_goals simp (maxDischargeDepth := 40) [h]

@[simp] theorem inv_State_packetDone (s : State) (p : PeerPacket) (out : Output) (h : s.Inv) : (State.packetDone s p out).Inv
    := by
  unfold State.packetDone
  simp (maxDischargeDepth := 40) [h]

@[simp] theorem inv_State_stopPacket (s : State) (p : PeerPacket) (g : Gate) (h : s.Inv) : (State.stopPacket s p g).Inv := by
  unfold State.stopPacket
  (try simp only)
  repeat' (first | (rename_i heq; replace heq := congrArg Prod.fst heq; dsimp only at heq; subst heq) | split)
  all_goals simp (maxDischargeDepth := 40) [h]

@[simp] theorem inv_State_reachPacket (s : State) (p : PeerPacket) (h : s.Inv) : (State.reachPacket s p).1.Inv := by
  unfold State.reachPacket
  simp (maxDischargeDepth := 40) [h]

@[simp] theorem inv_State_tryPacket (s : State) (p : PeerPacket) (h : s.Inv) : (State.tryPacket s p).Inv := by
  unfold State.tryPacket
  (try simp only)
  repeat' (first | (rename_i heq; replace heq := congrArg Prod.fst heq; dsimp only at heq; subst heq) | split)
  all_goals simp (maxDischargeDepth := 40) [h]

@[simp] theorem inv_State_drainPackets (s : State) (h : s.Inv) : (State.drainPackets s).Inv := by
  unfold State.drainPackets
  repeat' (first | (simp (maxDischargeDepth := 40) +contextual [h]; done) | (rename_i heq; replace heq := congrArg Prod.fst heq; dsimp only at heq; subst heq) | split | intro _)

@[simp] theorem inv_State_packetArrives (s : State) (p : PeerPacket) (h : s.Inv) : (State.packetArrives s p).Inv := by
  unfold State.packetArrives
  simp (maxDischargeDepth := 40) [h]

@[simp] theorem inv_State_actPacket (s : State) (p : PeerPacket) (h : s.Inv) : (State.actPacket s p).Inv := by
  unfold State.actPacket
  have hr := inv_State_reachPacket s p h
  generalize s.reachPacket p = q at hr ⊢
  obtain ⟨s1, r⟩ := q
  cases r with
  | error g => simp (maxDischargeDepth := 40) [show s1.Inv from hr]
  | ok ps =>
    replace hr : s1.Inv := hr
    dsimp -zeta only
    extract_lets old key put ok
    have hp : ∀ s n x, s.Inv → (put s n x).Inv := by intro s n x h; simp (maxDischargeDepth := 40) [put, h]
    have ho : ∀ s bs, s.Inv → (ok s bs).Inv := by intro s bs h; simp (maxDischargeDepth := 40) [ok, h]
    clear_value put ok old
    cases p.act
    all_goals dsimp only
    all_goals try repeat' split
    all_goals simp (maxDischargeDepth := 40) [hr, hp, ho]

/-! ### Machine/Crews.lean -/

@[simp] theorem inv_State_makeCrew (s : State) (p : CrewSpec) (entry : VAddr) (h : s.Inv) : (State.makeCrew s p entry).Inv := by
  unfold State.makeCrew
  simp (maxDischargeDepth := 40) [h]

@[simp] theorem inv_State_dropCrew (s : State) (id : Nat) (h : s.Inv) : (State.dropCrew s id).Inv := by
  unfold State.dropCrew
  simp (maxDischargeDepth := 40) [h]

/-! ### Machine/Tbe.lean -/

@[simp] theorem inv_State_setBin (s : State) (core b : Nat) (f : Bin → Bin) (h : s.Inv) : (State.setBin s core b f).Inv := by
  unfold State.setBin
  simp (maxDischargeDepth := 40) [h]

@[simp] theorem inv_State_setQueue (s : State) (die q : Nat) (f : WorkQueue → WorkQueue) (h : s.Inv) : (State.setQueue s die q
    f).Inv := by
  unfold State.setQueue
  simp (maxDischargeDepth := 40) [h]

@[simp] theorem inv_State_setStream (s : State) (die n : Nat) (f : Stream → Stream) (h : s.Inv) : (State.setStream s die n
    f).Inv := by
  unfold State.setStream
  simp (maxDischargeDepth := 40) [h]

@[simp] theorem inv_State_applyBin (s : State) (core launch b base word : Nat) (h : s.Inv) : (State.applyBin s core launch b base word).Inv := by
  unfold State.applyBin
  (try simp only)
  repeat' (first | (rename_i heq; replace heq := congrArg Prod.fst heq; dsimp only at heq; subst heq) | split)
  all_goals simp (maxDischargeDepth := 40) [h]

@[simp] theorem inv_State_runBincfg (s : State) (o : Op) (h : s.Inv) : (State.runBincfg s o).Inv := by
  unfold State.runBincfg
  (try simp only)
  repeat' (first | (rename_i heq; replace heq := congrArg Prod.fst heq; dsimp only at heq; subst heq) | split)
  all_goals simp (maxDischargeDepth := 40) [h]

@[simp] theorem inv_State_endTbe (s : State) (id : Nat) (h : s.Inv) : (State.endTbe s id).Inv := by
  unfold State.endTbe
  (try simp only)
  repeat' split
  all_goals simp (maxDischargeDepth := 40) [h]

@[simp] theorem inv_State_refuseRecompute (s : State) (o : Op) (die : Nat) (h : s.Inv) : (State.refuseRecompute s o die).Inv := by
  unfold State.refuseRecompute
  simp (maxDischargeDepth := 40) [h]

theorem inv_State_deposit (s : State) (core launch : Nat) (entry : VAddr) (data : QWord) (h : s.Inv) {t : State}
    (e : s.deposit core launch entry data = some t) : t.Inv := by
  unfold State.deposit at e
  simp only [Option.map_eq_some_iff] at e
  obtain ⟨i, -, rfl⟩ := e
  simp (maxDischargeDepth := 40) [h]

theorem inv_State_deposit_getD (s : State) (core launch : Nat) (entry : VAddr) (data : QWord) (t : State) (h : s.Inv) (ht :
    t.Inv) :
    ((s.deposit core launch entry data).getD t).Inv := by
  cases e : s.deposit core launch entry data with
  | none => exact ht
  | some u => exact inv_State_deposit s core launch entry data h e

@[simp] theorem inv_State_spawnArrive (s : State) (o : Op) (a : LaneAcc) (h : s.Inv) : (State.spawnArrive s o a).Inv := by
  unfold State.spawnArrive
  split
  · simp (maxDischargeDepth := 40) [h]
  · simp only
    split
    · rename_i t e
      simp (maxDischargeDepth := 40) [inv_State_deposit s _ _ _ _ h e]
    · simp (maxDischargeDepth := 40) [h]

@[simp] theorem inv_State_failPushes (s : State) (die q : Nat) (h : s.Inv) : (State.failPushes s die q).Inv := by
  unfold State.failPushes
  repeat' (first | (simp (maxDischargeDepth := 40) +contextual [h]; done) | (rename_i heq; replace heq := congrArg Prod.fst heq; dsimp only at heq; subst heq) | split | intro _)

@[simp] theorem inv_State_applyQueue (s : State) (core launch n base word : Nat) (h : s.Inv) : (State.applyQueue s core launch n base word).Inv := by
  unfold State.applyQueue
  (try simp only)
  repeat' (first | (rename_i heq; replace heq := congrArg Prod.fst heq; dsimp only at heq; subst heq) | split)
  all_goals simp (maxDischargeDepth := 40) [h]

@[simp] theorem inv_State_runWqcfg (s : State) (o : Op) (h : s.Inv) : (State.runWqcfg s o).Inv := by
  unfold State.runWqcfg
  (try simp only)
  repeat' (first | (rename_i heq; replace heq := congrArg Prod.fst heq; dsimp only at heq; subst heq) | split)
  all_goals simp (maxDischargeDepth := 40) [h]

@[simp] theorem inv_State_reserveLane (s : State) (o : Op) (a : LaneAcc) (h : s.Inv) : (State.reserveLane s o a).Inv := by
  unfold State.reserveLane
  simp (maxDischargeDepth := 40) [h]

@[simp] theorem inv_State_writeItems (x0 : List LaneAcc) (x1 : State) (x2 : Op) (h : x1.Inv) : (State.writeItems x0 x1 x2).Inv
    := by
  induction x0 generalizing x1 x2 with
  | nil => simpa [State.writeItems] using h
  | cons a as ih =>
    unfold State.writeItems
    (try simp only)
    repeat' (first | (rename_i heq; replace heq := congrArg Prod.fst heq; dsimp only at heq; subst heq) | split)
    all_goals simp (maxDischargeDepth := 40) +contextual [h, ih]

@[simp] theorem inv_State_runPush (s : State) (o : Op) (h : s.Inv) : (State.runPush s o).Inv := by
  unfold State.runPush
  (try simp only)
  repeat' (first | refine inv_foldl _ _ (fun _ _ _ => ?_) ?_ | (rename_i heq; replace heq := congrArg Prod.fst heq; dsimp only at heq; subst heq) | split)
  all_goals simp (maxDischargeDepth := 40) +contextual [*]

@[simp] theorem inv_State_loseItem (s : State) (o : Op) (lane : Nat) (h : s.Inv) : (State.loseItem s o lane).Inv := by
  unfold State.loseItem
  (try simp only)
  repeat' (first | refine inv_foldl _ _ (fun _ _ _ => ?_) ?_ | (rename_i heq; replace heq := congrArg Prod.fst heq; dsimp only at heq; subst heq) | split)
  all_goals simp (maxDischargeDepth := 40) +contextual [*]

@[simp] theorem inv_State_skipItem (s : State) (die n : Nat) (h : s.Inv) : (State.skipItem s die n).Inv := by
  unfold State.skipItem
  (try simp only)
  repeat' (first | (rename_i heq; replace heq := congrArg Prod.fst heq; dsimp only at heq; subst heq) | split)
  all_goals simp (maxDischargeDepth := 40) [h]

@[simp] theorem inv_State_refillWaits (s : State) (die n : Nat) (g : Gate) (h : s.Inv) : (State.refillWaits s die n g).Inv := by
  unfold State.refillWaits
  (try simp only)
  repeat' (first | (rename_i heq; replace heq := congrArg Prod.fst heq; dsimp only at heq; subst heq) | split)
  all_goals simp (maxDischargeDepth := 40) [h]

@[simp] theorem inv_State_retryItem (s : State) (die n : Nat) (lasting : Bool) (h : s.Inv) : (State.retryItem s die n lasting).Inv := by
  unfold State.retryItem
  (try simp only)
  repeat' (first | (rename_i heq; replace heq := congrArg Prod.fst heq; dsimp only at heq; subst heq) | split)
  all_goals simp (maxDischargeDepth := 40) [h]

theorem inv_State_refillOne (s : State) (die n : Nat) (failed : Bool) (h : s.Inv) {t : State}
    (e : s.refillOne die n failed = some t) : t.Inv := by
  unfold State.refillOne at e
  revert e
  (try simp only)
  repeat' (first | (rename_i heq; replace heq := congrArg Prod.fst heq; dsimp only at heq; subst heq) | split)
  all_goals (intro e; first | (injection e with e; subst e) | cases e)
  all_goals simp (maxDischargeDepth := 40) [h, inv_State_deposit_getD]

@[simp] theorem inv_State_refillLoop (x0 : Nat) (x1 : State) (x2 : Nat) (x3 : Nat) (h : x1.Inv) : (State.refillLoop x0 x1 x2
    x3).Inv := by
  induction x0 generalizing x1 with
  | zero => exact h
  | succ n ih =>
    unfold State.refillLoop
    split
    · exact h
    · split
      · rename_i t e
        exact ih _ (inv_State_refillOne _ _ _ _ h e)
      · exact h

@[simp] theorem inv_State_refill (s : State) (die n : Nat) (h : s.Inv) : (State.refill s die n).Inv := by
  unfold State.refill
  split
  · split
    · exact h
    · split
      · simp only
        refine inv_State_refillLoop _ _ _ _ ?_
        cases e : State.refillOne _ die n true with
        | none => simp (maxDischargeDepth := 40) [h]
        | some t => exact inv_State_refillOne _ _ _ _ (by simp (maxDischargeDepth := 40) [h]) e
      · simp (maxDischargeDepth := 40) [h]
  · simp (maxDischargeDepth := 40) [h]

@[simp] theorem inv_State_releaseHandle (s : State) (die n handle launch : Nat) (h : s.Inv) : (State.releaseHandle s die n
    handle launch).Inv := by
  unfold State.releaseHandle
  simp (maxDischargeDepth := 40) [h]

@[simp] theorem inv_State_runRelease (s : State) (o : Op) (h : s.Inv) : (State.runRelease s o).Inv := by
  unfold State.runRelease
  simp (maxDischargeDepth := 40) [h]

@[simp] theorem inv_State_wakeTasks (s : State) (die : Nat) (h : s.Inv) : (State.wakeTasks s die).Inv := by
  unfold State.wakeTasks
  simp (maxDischargeDepth := 40) [h]

@[simp] theorem inv_State_undefineTiles (s : State) (asid : Nat) (base : VAddr) (tile len : Nat) (h : s.Inv) :
    (State.undefineTiles s asid base tile len).Inv := by
  unfold State.undefineTiles
  (try simp only)
  repeat' (first | refine inv_foldl _ _ (fun _ _ _ => ?_) ?_ | (rename_i heq; replace heq := congrArg Prod.fst heq; dsimp only at heq; subst heq) | split)
  all_goals simp (maxDischargeDepth := 40) +contextual [*]

@[simp] theorem inv_State_enterTask (s : State) (o : Op) (die n : Nat) (d : List DWord) (h : s.Inv) : (State.enterTask s o die
    n d).Inv := by
  unfold State.enterTask
  repeat' (first | (simp (maxDischargeDepth := 40) +contextual [h]; done) | (rename_i heq; replace heq := congrArg Prod.fst heq; dsimp only at heq; subst heq) | split | intro _)

@[simp] theorem inv_State_submit (s : State) (o : Op) (die n : Nat) (h : s.Inv) : (State.submit s o die n).Inv := by
  unfold State.submit
  (try simp only)
  repeat' (first | (rename_i heq; replace heq := congrArg Prod.fst heq; dsimp only at heq; subst heq) | split)
  all_goals simp (maxDischargeDepth := 40) [h]

/-! ### Machine/Rce.lean -/

@[simp] theorem inv_State_markWriting (s : State) (die : Nat) (k : Task) (h : s.Inv) : (State.markWriting s die k).Inv := by
  unfold State.markWriting
  (try simp only)
  repeat' (first | refine inv_foldl _ _ (fun _ _ _ => ?_) ?_ | (rename_i heq; replace heq := congrArg Prod.fst heq; dsimp only at heq; subst heq) | split)
  all_goals simp (maxDischargeDepth := 40) +contextual [*]

@[simp] theorem inv_State_leaveRecipe (s : State) (die : Nat) (k : Task) (poisoned : Bool) (h : s.Inv) : (State.leaveRecipe s
    die k poisoned).Inv := by
  unfold State.leaveRecipe
  (try simp only)
  repeat' split
  all_goals simp (maxDischargeDepth := 40) [h]

@[simp] theorem inv_State_completeTask (s : State) (die : Nat) (k : Task) (poison : Option (BitVec 6 × Word)) (h : s.Inv) :
    (State.completeTask s die k poison).Inv := by
  unfold State.completeTask
  (try simp only)
  repeat' split
  all_goals simp (maxDischargeDepth := 40) [h]

@[simp] theorem inv_State_dispatchRecompute (s : State) (die : Nat) (q : Request) (r : Recipe) (l : Launch) (core : Nat) (h :
    s.Inv) : (State.dispatchRecompute s die q r l core).Inv := by
  unfold State.dispatchRecompute
  repeat' (first | (simp (maxDischargeDepth := 40) +contextual [h]; done) | (rename_i heq; replace heq := congrArg Prod.fst heq; dsimp only at heq; subst heq) | split | intro _)

@[simp] theorem inv_State_endRecompute (s : State) (c : Crew) (h : s.Inv) : (State.endRecompute s c).Inv := by
  unfold State.endRecompute
  simp (maxDischargeDepth := 40) [h]

@[simp] theorem inv_State_recomputeDone (s : State) (die : Nat) (r : Recipe) (pins : List Nat) (h : s.Inv) :
    (State.recomputeDone s die r pins).Inv := by
  unfold State.recomputeDone
  simp (maxDischargeDepth := 40) [h]

@[simp] theorem inv_Issue_rceForm (I : Issue) (f : Fields) (h : I.s.Inv) : (Issue.rceForm I f).Inv := by
  unfold Issue.rceForm
  simp (maxDischargeDepth := 40) [h]

theorem inv_State_rceAct (s : State) (o : Op) (t : Tile) (r : Recipe) (h : s.Inv) {u : State}
    (e : s.rceAct o t r = .again u ∨ s.rceAct o t r = .done u) : u.Inv := by
  unfold State.rceAct at e
  revert e
  (try simp only)
  repeat' split
  all_goals (rintro (e | e) <;> cases e)
  all_goals simp (maxDischargeDepth := 40) [h]

@[simp] theorem inv_State_rceLoop (x0 : Nat) (x1 : State) (x2 : Nat) (h : x1.Inv) : (State.rceLoop x0 x1 x2).Inv := by
  induction x0 generalizing x1 with
  | zero => exact h
  | succ n ih =>
    unfold State.rceLoop
    split
    · exact h
    · rename_i o ho
      (try dsimp -zeta only)
      extract_lets n page w0 w next drop
      have hn : ∀ s, s.Inv → (next s).Inv := by intro s hs; simp (maxDischargeDepth := 40) [next, ih, hs]
      clear_value next drop w
      split
      · split <;> simp (maxDischargeDepth := 40) [h]
      · have hx := inv_State_xlateAs x1 w (page * 4096) (rceNeed o.instr) h
        generalize x1.xlateAs w (page * 4096) (rceNeed o.instr) = p at hx ⊢
        obtain ⟨s1, r⟩ := p
        replace hx : s1.Inv := hx
        cases r with
        | fault k l e => (try dsimp only); split <;> simp (maxDischargeDepth := 40) [hx]
        | bad c g => (try dsimp only); split <;> simp (maxDischargeDepth := 40) [hx]
        | ok key leaf =>
          (try dsimp only)
          split
          · exact hn _ hx
          · (try dsimp only)
            split
            · exact hn _ hx
            · split
              · rename_i e; exact inv_State_rceAct _ _ _ _ hx (.inl e)
              · rename_i e; exact hn _ (by simp (maxDischargeDepth := 40) [inv_State_rceAct _ _ _ _ hx (.inr e)])

@[simp] theorem inv_State_runRce (s : State) (o : Op) (h : s.Inv) : (State.runRce s o).Inv := by
  unfold State.runRce
  simp (maxDischargeDepth := 40) [h]

@[simp] theorem inv_State_retryRecipe (s : State) (die idx : Nat) (lasting : Bool) (h : s.Inv) : (State.retryRecipe s die idx lasting).Inv := by
  unfold State.retryRecipe
  (try simp only)
  repeat' (first | (rename_i heq; replace heq := congrArg Prod.fst heq; dsimp only at heq; subst heq) | split)
  all_goals simp (maxDischargeDepth := 40) [h]

@[simp] theorem inv_State_closeStream (s : State) (die n : Nat) (h : s.Inv) : (State.closeStream s die n).Inv := by
  unfold State.closeStream
  repeat' (first | (simp (maxDischargeDepth := 40) +contextual [h]; done) | (rename_i heq; replace heq := congrArg Prod.fst heq; dsimp only at heq; subst heq) | split | intro _)

@[simp] theorem inv_State_settleDie (s : State) (die : Nat) (h : s.Inv) : (State.settleDie s die).Inv := by
  unfold State.settleDie
  repeat' (first | (simp (maxDischargeDepth := 40) +contextual [h]; done) | (rename_i heq; replace heq := congrArg Prod.fst heq; dsimp only at heq; subst heq) | split | intro _)

@[simp] theorem inv_State_afterAct (s : State) (h : s.Inv) : (State.afterAct s).Inv := by
  unfold State.afterAct
  simp (maxDischargeDepth := 40) [h]

/-! ### Machine/Xle.lean -/

@[simp] theorem inv_State_runAddrq (s : State) (o : Op) (f : Fields) (acc : AddrqAccess) (h : s.Inv) : (State.runAddrq s o f
    acc).Inv := by
  unfold State.runAddrq
  simp (maxDischargeDepth := 40) [h]

@[simp] theorem inv_State_setRegion (s : State) (g : Nat) (m : RegionMode) (h : s.Inv) : (State.setRegion s g m).Inv := by
  unfold State.setRegion
  simp (maxDischargeDepth := 40) [h]

@[simp] theorem inv_State_switchRegions (mode : RegionMode) (x0 : Nat) (x1 : State) (x2 : Nat) (h : x1.Inv) :
    (State.switchRegions mode x0 x1 x2).1.Inv := by
  induction x0 generalizing x1 x2 with
  | zero => simpa [State.switchRegions] using h
  | succ n ih =>
    unfold State.switchRegions
    (try simp only)
    repeat' (first | (rename_i heq; replace heq := congrArg Prod.fst heq; dsimp only at heq; subst heq) | split)
    all_goals simp (maxDischargeDepth := 40) +contextual [h, ih]

@[simp] theorem inv_State_runRgnsw (s : State) (o : Op) (mode : RegionMode) (h : s.Inv) : (State.runRgnsw s o mode).Inv := by
  unfold State.runRgnsw
  (try simp only)
  repeat' (first | (rename_i heq; replace heq := congrArg Prod.fst heq; dsimp only at heq; subst heq) | split)
  all_goals simp (maxDischargeDepth := 40) [h]

/-! ### Machine/Ctx.lean -/

@[simp] theorem inv_State_discard (s : State) (o : Op) (d : Discard) (h : s.Inv) : (State.discard s o d).Inv := by
  unfold State.discard
  (try simp only)
  repeat' split
  all_goals simp (maxDischargeDepth := 40) [h]

@[simp] theorem inv_State_discardAll (s : State) (ending : Bool) (mine : Op → Bool) (h : s.Inv) : (State.discardAll s ending
    mine).1.Inv := by
  unfold State.discardAll
  repeat' (first | (simp (maxDischargeDepth := 40) +contextual [h]; done) | (rename_i heq; replace heq := congrArg Prod.fst heq; dsimp only at heq; subst heq) | split | intro _)

@[simp] theorem inv_State_checkPages (c : Crew) (x0 : Nat) (x1 : State) (x2 : Nat) (h : x1.Inv) : (State.checkPages c x0 x1
    x2).1.Inv := by
  induction x0 generalizing x1 x2 with
  | zero => simpa [State.checkPages] using h
  | succ n ih =>
    unfold State.checkPages
    (try simp only)
    repeat' (first | (rename_i heq; replace heq := congrArg Prod.fst heq; dsimp only at heq; subst heq) | split)
    all_goals simp (maxDischargeDepth := 40) +contextual [h, ih]

@[simp] theorem inv_State_saveFault (s : State) (c : Crew) (base : VAddr) (h : s.Inv) : (State.saveFault s c base).Inv := by
  unfold State.saveFault
  simp (maxDischargeDepth := 40) [h]

@[simp] theorem inv_State_saveStatus (s : State) (id : Nat) (sv : SaveSt) (x : Nat) (h : s.Inv) : (State.saveStatus s id sv
    x).Inv := by
  unfold State.saveStatus
  simp (maxDischargeDepth := 40) [h]

@[simp] theorem inv_State_settleEntries (s : State) (c : Crew) (h : s.Inv) : (State.settleEntries s c).Inv := by
  unfold State.settleEntries
  exact inv_foldl _ _ (fun s w hs => inv_foldl _ _ (fun s l hs => by simp [hs]) hs) h

@[simp] theorem inv_State_beginSave (s : State) (c : Crew) (sv : SaveSt) (h : s.Inv) : (State.beginSave s c sv).Inv := by
  unfold State.beginSave
  simp (maxDischargeDepth := 40) [h]

@[simp] theorem inv_State_forceSave (s : State) (id : Nat) (h : s.Inv) : (State.forceSave s id).Inv := by
  unfold State.forceSave
  (try simp only)
  repeat' split
  all_goals simp (maxDischargeDepth := 40) [h]

@[simp] theorem inv_State_abandonSave (s : State) (c : Crew) (sv : SaveSt) (h : s.Inv) : (State.abandonSave s c sv).Inv := by
  unfold State.abandonSave
  simp (maxDischargeDepth := 40) [h]

@[simp] theorem inv_State_leaveRect (s : State) (launch : Nat) (cluster : Word) (h : s.Inv) : (State.leaveRect s launch
    cluster).Inv := by
  unfold State.leaveRect
  simp (maxDischargeDepth := 40) [h]

@[simp] theorem inv_State_completeSave (s : State) (c : Crew) (sv : SaveSt) (h : s.Inv) : (State.completeSave s c sv).Inv := by
  unfold State.completeSave
  (try simp only)
  repeat' split
  all_goals simp (maxDischargeDepth := 40) [h]

@[simp] theorem inv_State_placeLoaded (s : State) (c : Crew) (base die : Nat) (h : s.Inv) : (State.placeLoaded s c base
    die).Inv := by
  unfold State.placeLoaded
  (try simp only)
  repeat' split
  all_goals simp (maxDischargeDepth := 40) [h]

@[simp] theorem inv_State_readHeader (s : State) (w : Who) (base : Nat) (h : s.Inv) : (State.readHeader s w base).1.Inv := by
  unfold State.readHeader
  (try simp only)
  repeat' (first | (rename_i heq; replace heq := congrArg Prod.fst heq; dsimp only at heq; subst heq) | split)
  all_goals simp (maxDischargeDepth := 40) [h]

@[simp] theorem inv_State_loadArea (s : State) (w : Who) (base : Nat) (h : Header) (die : Nat) (corner : Nat × Nat) (go
    readFails : Bool) (hv : s.Inv) : (State.loadArea s w base h die corner go readFails).1.Inv := by
  unfold State.loadArea
  (try simp only)
  repeat' (first | (rename_i heq; replace heq := congrArg Prod.fst heq; dsimp only at heq; subst heq) | split)
  all_goals simp (maxDischargeDepth := 40) [hv]

@[simp] theorem inv_State_runCtxload (s : State) (o : Op) (h : s.Inv) : (State.runCtxload s o).Inv := by
  unfold State.runCtxload
  (try simp only)
  repeat' (first | (rename_i heq; replace heq := congrArg Prod.fst heq; dsimp only at heq; subst heq) | split)
  all_goals simp (maxDischargeDepth := 40) [h]

@[simp] theorem inv_State_grantCtxload (s : State) (o : Op) (readFails : Bool) (h : s.Inv) : (State.grantCtxload s o
    readFails).1.Inv := by
  unfold State.grantCtxload
  (try dsimp -zeta only)
  extract_lets base die w stop
  have hs : ∀ s g, s.Inv → (stop s g).1.Inv := by
    intro s g h
    simp only [stop]
    split <;> simp (maxDischargeDepth := 40) [h]
  clear_value stop
  have hr := inv_State_readHeader s w base h
  generalize s.readHeader w base = p at hr ⊢
  obtain ⟨s1, r⟩ := p
  replace hr : s1.Inv := hr
  cases r with
  | error g => exact hs _ _ hr
  | ok k =>
    cases loadCorner o.core (o.arg 0 % 256) with
    | none => simp (maxDischargeDepth := 40) [hr]
    | some corner =>
      (try dsimp only)
      split
      · simp (maxDischargeDepth := 40) [hr]
      · have hl := inv_State_loadArea s1 w base k die corner (bitNat (o.arg 0) 8) readFails hr
        generalize s1.loadArea w base k die corner (bitNat (o.arg 0) 8) readFails = q at hl ⊢
        obtain ⟨s2, r2⟩ := q
        replace hl : s2.Inv := hl
        cases r2 with
        | loaded => simp (maxDischargeDepth := 40) [hl]
        | fails c g => simp (maxDischargeDepth := 40) [hl]
        | stops g => exact hs _ _ hl
        | noRoom => exact hl

/-! ### Machine/Grant.lean -/

@[simp] theorem inv_State_startCluster (s : State) (num cluster die : Nat) (corner : Nat × Nat) (h : s.Inv) :
    (State.startCluster s num cluster die corner).Inv := by
  unfold State.startCluster
  repeat' (first | (simp (maxDischargeDepth := 40) +contextual [h]; done) | (rename_i heq; replace heq := congrArg Prod.fst heq; dsimp only at heq; subst heq) | split | intro _)

@[simp] theorem inv_State_noteServed (s : State) (die : Nat) (x : Source) (h : s.Inv) : (State.noteServed s die x).Inv := by
  unfold State.noteServed
  simp (maxDischargeDepth := 40) [h]

@[simp] theorem inv_State_dispatchTask (s : State) (die : Nat) (t : Task) (core : Nat) (h : s.Inv) : (State.dispatchTask s die
    t core).Inv := by
  unfold State.dispatchTask
  (try simp only)
  repeat' split
  all_goals simp (maxDischargeDepth := 40) [h]

@[simp] theorem inv_State_formWarp (s : State) (core n : Nat) (l : Launch) (h : s.Inv) : (State.formWarp s core n l).Inv := by
  unfold State.formWarp
  simp (maxDischargeDepth := 40) [h]

/-! ### Machine/Settle.lean -/

@[simp] theorem inv_State_goPhase (s : State) (o : Op) (h : s.Inv) : (State.goPhase s o).Inv := by
  unfold State.goPhase
  repeat' (first | refine inv_State_onTurn _ _ _ ?_ (fun _ _ => ?_) | split)
  all_goals simp (maxDischargeDepth := 40) [*]

@[simp] theorem inv_State_beginWait (s : State) (o : Op) (h : s.Inv) : (State.beginWait s o).Inv := by
  unfold State.beginWait
  (try simp only)
  repeat' (first | (rename_i heq; replace heq := congrArg Prod.fst heq; dsimp only at heq; subst heq) | split)
  all_goals simp (maxDischargeDepth := 40) [h]

@[simp] theorem inv_State_endLatchWait (s : State) (o : Op) (tok : Nat) (cause : BitVec 6) (origin : Word) (h : s.Inv) :
    (State.endLatchWait s o tok cause origin).Inv := by
  unfold State.endLatchWait
  simp (maxDischargeDepth := 40) [h]

@[simp] theorem inv_State_stopPoisoned (s : State) (o : Op) (tok : Nat) (cause : BitVec 6) (origin : Word) (h : s.Inv) :
    (State.stopPoisoned s o tok cause origin).Inv := by
  unfold State.stopPoisoned
  (try simp only)
  repeat' split
  all_goals simp (maxDischargeDepth := 40) [h]

@[simp] theorem inv_State_runPromote (s : State) (o : Op) (h : s.Inv) : (State.runPromote s o).Inv := by
  unfold State.runPromote
  (try simp only)
  repeat' split
  all_goals simp (maxDischargeDepth := 40) [h]

@[simp] theorem inv_State_goLme (s : State) (o : Op) (h : s.Inv) : (State.goLme s o).Inv := by
  unfold State.goLme
  (try simp only)
  repeat' (first | (rename_i heq; replace heq := congrArg Prod.fst heq; dsimp only at heq; subst heq) | split)
  all_goals simp (maxDischargeDepth := 40) [h]

@[simp] theorem inv_State_loseRequest (s : State) (op n r : Nat) (h : s.Inv) : (State.loseRequest s op n r).Inv := by
  unfold State.loseRequest
  (try simp only)
  repeat' (first | (rename_i heq; replace heq := congrArg Prod.fst heq; dsimp only at heq; subst heq) | split)
  all_goals simp (maxDischargeDepth := 40) [h]

@[simp] theorem inv_State_actLane (s : State) (o : Op) (a : LaneAcc) (h : s.Inv) : (State.actLane s o a).Inv := by
  unfold State.actLane
  (try simp only)
  repeat' (first | (rename_i heq; replace heq := congrArg Prod.fst heq; dsimp only at heq; subst heq) | split)
  all_goals simp (maxDischargeDepth := 40) [h]

@[simp] theorem inv_State_doAct (s : State) (x0 : ActKind) (h : s.Inv) : (State.doAct s x0).Inv := by
  unfold State.doAct
  (try simp only)
  repeat' split
  all_goals simp (maxDischargeDepth := 40) [h]

@[simp] theorem inv_State_countRetry (s : State) (o : Op) (unit : Nat) (h : s.Inv) : (State.countRetry s o unit).Inv := by
  unfold State.countRetry
  (try simp only)
  repeat' split
  all_goals simp (maxDischargeDepth := 40) [h]

@[simp] theorem inv_State_loseCommit (s : State) (o : Op) (unit : Nat) (h : s.Inv) : (State.loseCommit s o unit).Inv := by
  unfold State.loseCommit
  (try simp only)
  repeat' split
  all_goals simp (maxDischargeDepth := 40) [h]

@[simp] theorem inv_State_loseMxe (s : State) (o : Op) (unit : Nat) (write : Bool) (h : s.Inv) : (State.loseMxe s o unit write).Inv := by
  unfold State.loseMxe
  (try simp only)
  repeat' (first | (rename_i heq; replace heq := congrArg Prod.fst heq; dsimp only at heq; subst heq) | split)
  all_goals simp (maxDischargeDepth := 40) [h]

@[simp] theorem inv_State_loseFab (s : State) (o : Op) (unit : Nat) (write link : Bool) (h : s.Inv) : (State.loseFab s o unit write link).Inv := by
  unfold State.loseFab
  (try simp only)
  repeat' (first | (rename_i heq; replace heq := congrArg Prod.fst heq; dsimp only at heq; subst heq) | split)
  all_goals simp (maxDischargeDepth := 40) [h]

@[simp] theorem inv_State_loseAccess (s : State) (o : Op) (unit : Nat) (write link : Bool) (h : s.Inv) : (State.loseAccess s o unit
    write link).Inv := by
  unfold State.loseAccess
  (try simp only)
  repeat' split
  all_goals simp (maxDischargeDepth := 40) [h]

@[simp] theorem inv_State_retryLink (s : State) (o : Op) (n : Nat) (lasting : Bool) (h : s.Inv) : (State.retryLink s o n lasting).Inv := by
  unfold State.retryLink
  (try simp only)
  repeat' (first | (rename_i heq; replace heq := congrArg Prod.fst heq; dsimp only at heq; subst heq) | split)
  all_goals simp (maxDischargeDepth := 40) [h]

@[simp] theorem inv_State_retryOp (s : State) (id unit kind : Nat) (lasting : Bool) (h : s.Inv) : (State.retryOp s id unit kind
    lasting).Inv := by
  unfold State.retryOp
  (try simp only)
  repeat' split
  all_goals simp (maxDischargeDepth := 40) [h]

@[simp] theorem inv_State_loseWalk (s : State) (id unit level : Nat) (h : s.Inv) : (State.loseWalk s id unit level).Inv := by
  unfold State.loseWalk
  (try simp only)
  repeat' split
  all_goals simp (maxDischargeDepth := 40) [h]

@[simp] theorem inv_State_fetchLost (s : State) (core slot : Nat) (h : s.Inv) : (State.fetchLost s core slot).Inv := by
  unfold State.fetchLost
  (try simp only)
  repeat' split
  all_goals simp (maxDischargeDepth := 40) [h]

@[simp] theorem inv_State_retryStack (s : State) (core slot lane : Nat) (lasting : Bool) (h : s.Inv) : (State.retryStack s core slot lane lasting).Inv := by
  unfold State.retryStack
  (try simp only)
  repeat' (first | (rename_i heq; replace heq := congrArg Prod.fst heq; dsimp only at heq; subst heq) | split)
  all_goals simp (maxDischargeDepth := 40) [h]

@[simp] theorem inv_State_eccCorrected (s : State) (line : Nat) (h : s.Inv) : (State.eccCorrected s line).Inv := by
  unfold State.eccCorrected
  simp (maxDischargeDepth := 40) [h]

/-! ### Machine/Home.lean -/

@[simp] theorem inv_State_logHost (s : State) (key : Nat) (h : s.Inv) : (State.logHost s key).Inv := by
  unfold State.logHost
  simp (maxDischargeDepth := 40) [h]

@[simp] theorem inv_State_hostTouch (s : State) (key : Nat) (h : s.Inv) : (State.hostTouch s key).Inv := by
  unfold State.hostTouch
  (try simp only)
  repeat' (first | (rename_i heq; replace heq := congrArg Prod.fst heq; dsimp only at heq; subst heq) | split)
  all_goals simp (maxDischargeDepth := 40) [h]

@[simp] theorem inv_State_hostReadPart (s : State) (key n : Nat) (h : s.Inv) : (State.hostReadPart s key n).Inv := by
  unfold State.hostReadPart
  simp (maxDischargeDepth := 40) [h]

@[simp] theorem inv_State_poisonStored (s : State) (key n : Nat) (h : s.Inv) : (State.poisonStored s key n).Inv := by
  unfold State.poisonStored
  simp (maxDischargeDepth := 40) [h]

@[simp] theorem inv_State_hostWritePart (s : State) (key : Nat) (data : List Byte) (poison : Bool) (h : s.Inv) :
    (State.hostWritePart s key data poison).Inv := by
  unfold State.hostWritePart
  simp (maxDischargeDepth := 40) [h]

@[simp] theorem inv_State_setHalf (s : State) (half : Nat) (st : Option HalfSt) (h : s.Inv) : (State.setHalf s half st).Inv := by
  unfold State.setHalf
  simp (maxDischargeDepth := 40) [h]

@[simp] theorem inv_State_hostDoes (s : State) (a : HostAccess) (h : s.Inv) : (State.hostDoes s a).Inv := by
  unfold State.hostDoes
  cases a with
  | read o n => exact inv_foldl _ _ (fun s a hs => by simp [hs]) h
  | write o bs p => exact inv_foldl _ _ (fun s a hs => by simp [hs]) h
  | _ =>
    dsimp only
    repeat' split
    all_goals simp (maxDischargeDepth := 40) [h]

@[simp] theorem inv_State_endStackRecalls (s : State) (half : Nat) (lost : Bool) (h : s.Inv) : (State.endStackRecalls s half lost).Inv := by
  unfold State.endStackRecalls
  simp (maxDischargeDepth := 40) [h]

@[simp] theorem inv_State_wakeRecall (s : State) (half : Nat) (h : s.Inv) : (State.wakeRecall s half).Inv := by
  unfold State.wakeRecall
  simp (maxDischargeDepth := 40) [h]

@[simp] theorem inv_State_migrate (s : State) (line die slice : Nat) (h : s.Inv) : (State.migrate s line die slice).Inv := by
  unfold State.migrate
  (try simp only)
  repeat' split
  all_goals simp (maxDischargeDepth := 40) [h]

@[simp] theorem inv_State_setRefresh (s : State) (die key n : Nat) (h : s.Inv) : (State.setRefresh s die key n).Inv := by
  unfold State.setRefresh
  simp (maxDischargeDepth := 40) [h]

@[simp] theorem inv_State_beginEnd (s : State) (num reason : Nat) (tag : Option (BitVec 16)) (h : s.Inv) : (State.beginEnd s
    num reason tag).Inv := by
  unfold State.beginEnd
  simp (maxDischargeDepth := 40) [h]

@[simp] theorem inv_State_salvage (s : State) (survivor die line : Nat) (lost : Bool) (h : s.Inv) : (State.salvage s survivor
    die line lost).Inv := by
  unfold State.salvage
  simp (maxDischargeDepth := 40) [h]

@[simp] theorem inv_State_failDead (s : State) (die id : Nat) (h : s.Inv) : (State.failDead s die id).Inv := by
  unfold State.failDead
  (try simp only)
  repeat' split
  all_goals simp (maxDischargeDepth := 40) [h]

@[simp] theorem inv_State_failAct (s : State) (die : Nat) (x0 : ActKind) (h : s.Inv) : (State.failAct s die x0).Inv := by
  unfold State.failAct
  (try simp only)
  repeat' split
  all_goals simp (maxDischargeDepth := 40) [h]

/-! ### Machine/Ring.lean -/

@[simp] theorem inv_State_writeNamed (s : State) (core slot lane : Nat) (num : BitVec 9) (x : Nat) (h : s.Inv) :
    (State.writeNamed s core slot lane num x).Inv := by
  unfold State.writeNamed
  (try simp only)
  repeat' split
  all_goals simp (maxDischargeDepth := 40) [h]

@[simp] theorem inv_State_setBar (s : State) (f : Bar0 → Bar0) (h : s.Inv) : (State.setBar s f).Inv := by
  unfold State.setBar
  simp (maxDischargeDepth := 40) [h]

@[simp] theorem inv_State_logRing (s : State) (h : s.Inv) : (State.logRing s).Inv := by
  unfold State.logRing
  simp (maxDischargeDepth := 40) [h]

@[simp] theorem inv_State_writeCmdTail (s : State) (x : Word) (h : s.Inv) : (State.writeCmdTail s x).Inv := by
  unfold State.writeCmdTail
  simp (maxDischargeDepth := 40) [h]

@[simp] theorem inv_State_writeCplHead (s : State) (x : Word) (h : s.Inv) : (State.writeCplHead s x).Inv := by
  unfold State.writeCplHead
  simp (maxDischargeDepth := 40) [h]

@[simp] theorem inv_State_writeBar (s : State) (offset x : Nat) (h : s.Inv) : (State.writeBar s offset x).Inv := by
  unfold State.writeBar
  (try simp only)
  repeat' split
  all_goals simp (maxDischargeDepth := 40) [h]

@[simp] theorem inv_State_complete (s : State) (tag : BitVec 16) (status word1 : Nat) (h : s.Inv) : (State.complete s tag
    status word1).Inv := by
  unfold State.complete
  simp (maxDischargeDepth := 40) [h]

@[simp] theorem inv_State_advanceRing (s : State) (h : s.Inv) : (State.advanceRing s).Inv := by
  unfold State.advanceRing
  simp (maxDischargeDepth := 40) [h]

/-! ### Machine/Maps.lean -/

@[simp] theorem inv_State_newTable (s : State) (h : s.Inv) : (State.newTable s).1.Inv := by
  unfold State.newTable
  simp (maxDischargeDepth := 40) [h]

@[simp] theorem inv_State_putEntry (s : State) (k e : Nat) (h : s.Inv) : (State.putEntry s k e).Inv := by
  unfold State.putEntry
  simp (maxDischargeDepth := 40) [h]

@[simp] theorem inv_State_needRoot (s : State) (asid : Nat) (h : s.Inv) : (State.needRoot s asid).1.Inv := by
  unfold State.needRoot
  (try simp only)
  repeat' split
  all_goals simp (maxDischargeDepth := 40) [h]

@[simp] theorem inv_State_needTable (target va : Nat) (x0 : List Nat) (x1 : State) (x2 : Nat) (h : x1.Inv) : (State.needTable
    target va x0 x1 x2).1.Inv := by
  induction x0 generalizing x1 x2 with
  | nil => simpa [State.needTable] using h
  | cons a as ih =>
    unfold State.needTable
    (try simp only)
    repeat' (first | (rename_i heq; replace heq := congrArg Prod.fst heq; dsimp only at heq; subst heq) | split)
    all_goals simp (maxDischargeDepth := 40) +contextual [h, ih]

@[simp] theorem inv_State_countX (s : State) (f : Nat) (up : Bool) (h : s.Inv) : (State.countX s f up).Inv := by
  unfold State.countX
  simp (maxDischargeDepth := 40) [h]

@[simp] theorem inv_State_addGrade (s : State) (f grade : Nat) (h : s.Inv) : (State.addGrade s f grade).Inv := by
  unfold State.addGrade
  (try simp only)
  repeat' split
  all_goals simp (maxDischargeDepth := 40) [h]

@[simp] theorem inv_State_addFrame (s : State) (asid leaf f : Nat) (h : s.Inv) : (State.addFrame s asid leaf f).Inv := by
  unfold State.addFrame
  simp (maxDischargeDepth := 40) [h]

@[simp] theorem inv_State_dropFrame (s : State) (asid leaf f : Nat) (h : s.Inv) : (State.dropFrame s asid leaf f).Inv := by
  unfold State.dropFrame
  simp (maxDischargeDepth := 40) [h]

@[simp] theorem inv_State_clearLeaf (s : State) (t : TlbEnt) (h : s.Inv) : (State.clearLeaf s t).Inv := by
  unfold State.clearLeaf
  repeat' (first | (simp (maxDischargeDepth := 40) +contextual [h]; done) | (rename_i heq; replace heq := congrArg Prod.fst heq; dsimp only at heq; subst heq) | split | intro _)

@[simp] theorem inv_State_mapPage (s : State) (asid va pa code bits : Nat) (h : s.Inv) : (State.mapPage s asid va pa code
    bits).Inv := by
  unfold State.mapPage
  repeat' (first | (simp (maxDischargeDepth := 40) +contextual [h]; done) | (rename_i heq; replace heq := congrArg Prod.fst heq; dsimp only at heq; subst heq) | split | intro _)

@[simp] theorem inv_State_mapPages1 (s : State) (asid va pa code bits n : Nat) (h : s.Inv) : (State.mapPages1 s asid va pa code
    bits n).Inv := by
  unfold State.mapPages1
  repeat' (first | (simp (maxDischargeDepth := 40) +contextual [h]; done) | (rename_i heq; replace heq := congrArg Prod.fst heq; dsimp only at heq; subst heq) | split | intro _)

@[simp] theorem inv_State_unmapFrom (asid stop : Nat) (x0 : Nat) (x1 : State) (x2 : Nat) (h : x1.Inv) : (State.unmapFrom asid
    stop x0 x1 x2).Inv := by
  induction x0 generalizing x1 x2 with
  | zero => simpa [State.unmapFrom] using h
  | succ n ih =>
    unfold State.unmapFrom
    (try simp only)
    repeat' (first | (rename_i heq; replace heq := congrArg Prod.fst heq; dsimp only at heq; subst heq) | split)
    all_goals simp (maxDischargeDepth := 40) +contextual [h, ih]

@[simp] theorem inv_State_setBand (s : State) (band base : Nat) (m : Band) (h : s.Inv) : (State.setBand s band base m).Inv := by
  unfold State.setBand
  simp (maxDischargeDepth := 40) [h]

@[simp] theorem inv_State_hostPublish (asid first last left : Nat) (x0 : Nat) (x1 : State) (x2 : Nat) (h : x1.Inv) : (State.hostPublish asid first last left x0 x1 x2).1.Inv := by
  induction x0 generalizing x1 x2 with
  | zero => simpa [State.hostPublish] using h
  | succ n ih =>
    unfold State.hostPublish
    (try simp only)
    repeat' (first | (rename_i heq; replace heq := congrArg Prod.fst heq; dsimp only at heq; subst heq) | split)
    all_goals simp (maxDischargeDepth := 40) +contextual [h, ih]

@[simp] theorem inv_State_drainHost (s : State) (h : s.Inv) : (State.drainHost s).Inv := by
  unfold State.drainHost
  refine inv_foldl _ _ (fun s w hs => ?_) h
  split <;> simp [hs]

/-! ### Machine/Launching.lean -/

@[simp] theorem inv_State_askSave (s : State) (n : Nat) (c : Crew) (h : s.Inv) : (State.askSave s n c).Inv := by
  unfold State.askSave
  repeat' (first | (simp (maxDischargeDepth := 40) +contextual [h]; done) | (rename_i heq; replace heq := congrArg Prod.fst heq; dsimp only at heq; subst heq) | split | intro _)

@[simp] theorem inv_State_settleLaunches (s : State) (h : s.Inv) : (State.settleLaunches s).Inv := by
  unfold State.settleLaunches
  simp (maxDischargeDepth := 40) [h]

@[simp] theorem inv_State_freeDie (s : State) (num die : Nat) (h : s.Inv) : (State.freeDie s num die).Inv := by
  unfold State.freeDie
  repeat' (first | (simp (maxDischargeDepth := 40) +contextual [h]; done) | (rename_i heq; replace heq := congrArg Prod.fst heq; dsimp only at heq; subst heq) | split | intro _)

@[simp] theorem inv_State_endLaunch (s : State) (num reason : Nat) (tag : Option (BitVec 16)) (h : s.Inv) : (State.endLaunch s
    num reason tag).Inv := by
  unfold State.endLaunch
  (try simp only)
  repeat' split
  all_goals simp (maxDischargeDepth := 40) [h]

/-! ### Machine/Javatra.lean -/

@[simp] theorem inv_State_trained (s : State) (tr : Training) (h : s.Inv) : (State.trained s tr).Inv := by
  unfold State.trained
  simp (maxDischargeDepth := 40) [h]

@[simp] theorem inv_State_coldReset (s : State) (tr : Training) (h : s.Inv) : (State.coldReset s tr).Inv := by
  exact ⟨State.memWf_coldReset h.memory tr, List.length_replicate, rfl, List.length_replicate, by show 700 ≤ 2100 ∧ 2100 ≤ 2100 ∧ 2100 % 100 = 0; decide⟩

@[simp] theorem inv_State_dropDirty (s : State) (h : s.Inv) : (State.dropDirty s).Inv := by
  exact ⟨State.memWf_dropDirty h.memory, h.cores, h.dies, h.bands, h.clock⟩

@[simp] theorem inv_State_warmReset (s : State) (tr : Training) (h : s.Inv) : (State.warmReset s tr).Inv := by
  exact ⟨State.memWf_warmReset h.memory tr, List.length_replicate, rfl, h.bands, by show 700 ≤ 2100 ∧ 2100 ≤ 2100 ∧ 2100 % 100 = 0; decide⟩

@[simp] theorem inv_State_loadMap (s : State) (bs : List Byte) (die : Nat) (h : s.Inv) : (State.loadMap s bs die).Inv := by
  unfold State.loadMap
  simp (maxDischargeDepth := 40) [h]

/-! ### Machine/Turn.lean -/

@[simp] theorem inv_State_holdLine (s : State) (crew wi : Nat) (mask : Mask) (ln : Line) (fresh : Bool) (h : s.Inv) :
    (State.holdLine s crew wi mask ln fresh).Inv := by
  unfold State.holdLine
  simp (maxDischargeDepth := 40) [h]

@[simp] theorem inv_State_noteHold (s : State) (crew wi : Nat) (x : Hold) (h : s.Inv) : (State.noteHold s crew wi x).Inv := by
  unfold State.noteHold
  have hs : (x.ops.foldl (fun (s : State) p => s.setOp p.1 fun o => { o with stalled := o.stalled ||| p.2 }) s).Inv :=
    inv_foldl _ _ (fun s p hs => by simp [hs]) h
  dsimp only
  split <;> simp [hs]

@[simp] theorem inv_State_noteIssue (s before : State) (core q crew wi slot : Nat) (lanes : Mask) (x : Hold) (i : Option Instr) (yielded : Bool)
    (h : s.Inv) : (State.noteIssue s before core q crew wi slot lanes x i yielded).Inv := by
  unfold State.noteIssue
  dsimp only
  repeat' split
  all_goals simp (maxDischargeDepth := 40) [h]

@[simp] theorem inv_State_applyArrivals (s : State) (core : Nat) (h : s.Inv) : (State.applyArrivals s core).Inv := by
  unfold State.applyArrivals
  refine inv_foldl _ _ (fun s a hs => by simp [hs]) (by simp [h])

@[simp] theorem inv_State_passCycles (s : State) (core n : Nat) (h : s.Inv) : (State.passCycles s core n).Inv := by
  unfold State.passCycles
  dsimp only
  split <;> simp (maxDischargeDepth := 40) [h]

@[simp] theorem inv_State_openCycle (s : State) (core q : Nat) (h : s.Inv) : (State.openCycle s core q).Inv := by
  unfold State.openCycle
  (try simp only)
  repeat' (first | (rename_i heq; replace heq := congrArg Prod.fst heq; dsimp only at heq; subst heq) | split)
  all_goals simp (maxDischargeDepth := 40) [h]

@[simp] theorem inv_State_nextTurn (s : State) (h : s.Inv) : (State.nextTurn s).2.Inv := by
  unfold State.nextTurn
  (try simp only)
  repeat' split
  all_goals simp (maxDischargeDepth := 40) [h]

@[simp] theorem inv_State_settleTurn (s : State) (h : s.Inv) : (State.settleTurn s).Inv := by
  unfold State.settleTurn
  simp (maxDischargeDepth := 40) [h]

/-! ### Forms and commands -/

theorem inv_withIssue {i : Instr} {s : State} {body : Issue → State} (h : s.Inv) (hb : ∀ I : Issue, I.s.Inv → (body I).Inv) {t
    : State}
    (e : withIssue i s body = .next t) : t.Inv := by
  unfold withIssue at e
  revert e
  (try simp only)
  repeat' split
  all_goals (intro e; cases e)
  · simp (maxDischargeDepth := 40) [h]
  · simp (maxDischargeDepth := 40) [h]
  · simp (maxDischargeDepth := 40) [h]
  · exact hb _ h

/-- What a command leaves keeps the invariant. -/
def CmdOut.Inv : CmdOut → Prop
  | .done s _ _ => s.Inv
  | .taken s => s.Inv
  | .waits s => s.Inv

theorem inv_withCommand {opc sub : Nat} {s : State} {body : Cmd → CmdOut} (h : s.Inv) (hb : ∀ c, (body c).Inv) {t : State}
    (e : withCommand opc sub s body = .next t) : t.Inv := by
  unfold withCommand at e
  injection e with e
  subst e
  split
  · exact h
  · rename_i c _
    have hc := hb c
    generalize body c = o at hc ⊢
    split
    · simp (maxDischargeDepth := 40) [h]
    · split
      · exact h
      · cases o <;> replace hc : State.Inv _ := hc <;> simp (maxDischargeDepth := 40) [hc]

theorem inv_allocReserves (s : State) (num : Nat) (ds : List Nat) (h : s.Inv) {t : State} (e : s.allocReserves num ds = some t)
    : t.Inv := by
  induction ds generalizing s with
  | nil => cases e; exact h
  | cons d ds ih =>
    unfold State.allocReserves at e
    revert e
    repeat' split
    · intro e; cases e; exact h
    · exact ih s h
    · exact ih _ (by simp (maxDischargeDepth := 40) [h])
    · intro e; cases e

theorem inv_startAll (n : Nat) (s : State) (num cl : Nat) (h : s.Inv) {t : State} (e : State.startAll n s num cl = some t) :
    t.Inv := by
  induction n generalizing s cl with
  | zero => cases e
  | succ n ih =>
    unfold State.startAll at e
    revert e
    repeat' split
    · intro e; cases e
    · intro e; cases e; exact h
    · simp only [Option.bind_eq_some_iff]
      rintro ⟨p, -, e⟩
      exact ih _ _ (by simp (maxDischargeDepth := 40) [h]) e

theorem inv_endShoot (s : State) (u : Bool) (h : s.Inv) {t : State} (e : s.endShoot u = some t) : t.Inv := by
  unfold State.endShoot at e
  simp only [Option.map_eq_some_iff] at e
  obtain ⟨x, -, rfl⟩ := e
  simp (maxDischargeDepth := 40) [h]

theorem inv_resumeStop (s : State) (l : Launch) (a : SaveRec) (h : s.Inv) {t : State} (e : s.resumeStop l a = some t) : t.Inv
    := by
  unfold State.resumeStop at e
  extract_lets w asks at e
  have ha : ∀ p t, p.1.Inv → asks p = some t → t.Inv := by
    rintro ⟨s, g⟩ t h e
    replace h : s.Inv := h
    cases g <;> simp only [asks] at e <;> cases e <;> simp (maxDischargeDepth := 40) [h]
  clear_value asks
  have hr := inv_State_readHeader s w a.base.toNat h
  generalize s.readHeader w a.base.toNat = p at hr e
  obtain ⟨s1, r⟩ := p
  replace hr : s1.Inv := hr
  cases r with
  | error g => exact ha _ _ hr e
  | ok k =>
    dsimp only at e
    have h2 := inv_State_reach s1 w a.base.toNat k.area.size true { r := true, w := true } hr
    generalize s1.reach w a.base.toNat k.area.size true { r := true, w := true } = p at h2 e
    obtain ⟨s2, r⟩ := p
    cases r with
    | error g => exact ha _ _ h2 e
    | ok _ => cases e

theorem inv_resumeLoad (r : Resume) (l : Launch) (a : SaveRec) (h : r.s.Inv) : (r.load l a).s.Inv := by
  unfold Resume.load
  extract_lets base fails stops
  have hf : ∀ s c, s.Inv → (fails s c).s.Inv := fun s c h => h
  have hs : ∀ s g, s.Inv → (stops s g).s.Inv := by
    intro s g h
    cases g <;> exact hf _ _ h
  clear_value stops fails
  have hr := inv_State_readHeader r.s (l.resumeWho a) base h
  generalize r.s.readHeader (l.resumeWho a) base = p at hr ⊢
  obtain ⟨s1, r1⟩ := p
  replace hr : s1.Inv := hr
  cases r1 with
  | error g => exact hs _ _ hr
  | ok k =>
    cases r.s.launch? l.num with
    | none => exact hf _ _ hr
    | some now =>
      dsimp only
      cases s1.resumeAt now a k with
      | none => exact h
      | some p =>
        obtain ⟨die, corner⟩ := p
        dsimp only
        split
        · exact hf _ _ hr
        · have hl := inv_State_loadArea s1 (l.resumeWho a) base k die corner false false hr
          generalize s1.loadArea (l.resumeWho a) base k die corner false false = q at hl ⊢
          obtain ⟨s2, r2⟩ := q
          replace hl : s2.Inv := hl
          cases r2 with
          | loaded => exact hl
          | fails c g => exact hf _ _ hl
          | stops g => exact hs _ _ hl
          | noRoom => exact h

theorem inv_resumeAll (xs : List SaveRec) (r : Resume) (l : Launch) (h : r.s.Inv) :
    (xs.foldl (fun (r : Resume) a => r.load l a) r).s.Inv := by
  induction xs generalizing r with
  | nil => exact h
  | cons a xs ih => exact ih _ (inv_resumeLoad r l a h)

theorem inv_resumeEnds (r : Resume) (l : Launch) (first : Nat) (h : r.s.Inv) : (r.ends l first).Inv := by
  show State.Inv _
  simp (maxDischargeDepth := 40) [h]

@[simp] theorem inv_State_endCommandAt (s : State) (half : Nat) (h : s.Inv) : (State.endCommandAt s half).Inv := by
  unfold State.endCommandAt
  split
  · simp (maxDischargeDepth := 40) [h]
  · rename_i c l _ _
    have hr := inv_resumeEnds _ l s.nextId (inv_resumeAll l.saves { s } l h)
    generalize (l.saves.foldl (fun (r : Resume) a => r.load l a) { s }).ends l s.nextId = o at hr ⊢
    cases o <;> replace hr : State.Inv _ := hr <;> simp (maxDischargeDepth := 40) [hr]
  · exact h

@[simp] theorem inv_State_failRecall (s : State) (half : Nat) (h : s.Inv) : (State.failRecall s half).Inv := by
  unfold State.failRecall
  dsimp only
  apply inv_State_drainPackets
  refine inv_foldl _ _ (fun s p hs => by simp [hs]) ?_
  refine inv_foldl _ _ (fun s p hs => by simp [hs]) ?_
  simp (maxDischargeDepth := 40) [h]

theorem cmdOut_ite {p : Prop} [Decidable p] {a b : CmdOut} (ha : a.Inv) (hb : b.Inv) : (if p then a else b).Inv := by split <;>
    assumption

/-! ### Issue turns -/

/-- What a try of a group leaves keeps the invariant. -/
def Try.Inv : Try → Prop
  | .held _ => True
  | .traps _ s => s.Inv
  | .runs _ s => s.Inv

theorem inv_trapLanes (s : State) (a b : Nat) (ls : List Nat) (pc : VAddr) (c i : Nat) (d : VAddr) (h : s.Inv) :
    (s.trapLanes a b ls pc c i d).Inv := by
  simp [State.trapLanes, Try.Inv, h]

theorem inv_tryDecoded (s : State) (a b : Nat) (m : Mask) (pc : VAddr) (i : Instr) (F : Form) (h : s.Inv) :
    (s.tryDecoded a b m pc i F).Inv := by
  unfold State.tryDecoded
  (try simp only)
  repeat' split
  all_goals simp (maxDischargeDepth := 40) [Try.Inv, h]

theorem inv_trySlot (s : State) (a b : Nat) (m : Mask) (ls : List Nat) (pc : VAddr) (ln : Line) (h : s.Inv) :
    (s.trySlot a b m ls pc ln).Inv := by
  unfold State.trySlot
  (try simp only)
  repeat' (first | (rename_i heq; replace heq := congrArg Prod.fst heq; dsimp only at heq; subst heq) | split)
  all_goals first
    | exact inv_tryDecoded _ _ _ _ _ _ _ (by simp (maxDischargeDepth := 40) [h])
    | exact inv_trapLanes _ _ _ _ _ _ _ _ (by simp (maxDischargeDepth := 40) [h])

theorem inv_tryGroup (s : State) (a b : Nat) (w : Warp) (g : Group) (h : s.Inv) : (s.tryGroup a b w g).Inv := by
  unfold State.tryGroup
  extract_lets ls due may enters owed entered
  have he : entered.1.Inv := by
    simp only [entered]
    split <;> simp [h]
  clear_value entered
  split
  · exact inv_foldl _ _ (fun s l h => by simp [h]) h
  · split
    · trivial
    · obtain ⟨s1, r⟩ := entered
      replace he : s1.Inv := he
      cases r with
      | error e => simp (maxDischargeDepth := 40) [Try.Inv, he]
      | ok ln =>
        dsimp only
        refine inv_trySlot _ _ _ _ _ _ _ ?_
        split <;> simp (maxDischargeDepth := 40) [he]

theorem inv_tryGroups (s : State) (a b : Nat) (w : Warp) (gs : List Group) (k x : Hold) (h : s.Inv) {t : Try}
    (e : s.tryGroups a b w gs k = .goes t x) : t.Inv := by
  induction gs generalizing k with
  | nil => cases e
  | cons g gs ih =>
    unfold State.tryGroups at e
    split at e
    · exact ih _ e
    · cases e; exact inv_tryGroup _ _ _ _ _ h

end Sys2Proof.Machine
end

