-- ==== Sys2Proof/Laws/Issue.lean ====
section
/-! SUPPORT. One issue: what `withIssue` answers, what changing the issuing warp leaves alone, and how a per-lane form
completes, said once so that no proof about an instruction unfolds them. -/

namespace Sys2Proof.Machine

/-! ### What `withIssue` answers -/

/-- An issue is what the state names. -/
theorem Issuing.eq_mk {i : Instr} {s : State} {I : Issue} (h : Issuing i s I) :
    I = ⟨s, i, I.form, I.cid, I.wi, I.crew, I.warp, I.mask, guardMask I.warp I.mask I.form.body, I.pc⟩ := by
  obtain ⟨hs, hi, _, _, _, _, ha⟩ := h
  cases I; simp only at hs hi ha; subst hs; subst hi; subst ha; rfl

/-- An instruction that executes has its own effect. -/
theorem withIssue_executes {i : Instr} {s : State} {I : Issue} (h : Executes i s I) (body : Issue → State) :
    withIssue i s body = .next (body I) := by
  obtain ⟨⟨hs, hi, hf, hc, hcr, hw, ha⟩, hchk, hsome, htok⟩ := h
  have hI := Issuing.eq_mk ⟨hs, hi, hf, hc, hcr, hw, ha⟩
  unfold withIssue
  simp only [hc, hf, hcr, hw, hchk, ← hI, htok]
  rw [← ha, if_neg hsome]

/-- A form whose guard is 0 in every thread of the group only goes on (02 R57). -/
theorem withIssue_idle {i : Instr} {s : State} {I : Issue} (h : Issuing i s I)
    (hchk : orderChecks s I.crew I.warp I.mask I.pc i I.form = none) (h0 : I.act = 0) (body : Issue → State) :
    withIssue i s body = .next I.done := by
  obtain ⟨hs, hi, hf, hc, hcr, hw, ha⟩ := h
  have hI := Issuing.eq_mk ⟨hs, hi, hf, hc, hcr, hw, ha⟩
  unfold withIssue
  simp only [hc, hf, hcr, hw, hchk, ← hI]
  rw [← ha, if_pos h0]

/-- A condition of orders 7 to 9 traps every thread of the group (02 R79). -/
theorem withIssue_checks {i : Instr} {s : State} {I : Issue} {t : Trap} (h : Issuing i s I)
    (hchk : orderChecks s I.crew I.warp I.mask I.pc i I.form = some t) (body : Issue → State) :
    withIssue i s body = .next (s.traps I.cid I.wi (I.group.map fun l => (l, t))) := by
  obtain ⟨hs, hi, hf, hc, hcr, hw, ha⟩ := h
  unfold withIssue
  simp only [hc, hf, hcr, hw, hchk]
  rfl

/-- A destination token that is PENDING, or that its own keyring names, traps every thread of the group (04 R147). -/
theorem withIssue_token {i : Instr} {s : State} {I : Issue} {t : Nat} (h : Issuing i s I)
    (hchk : orderChecks s I.crew I.warp I.mask I.pc i I.form = none) (hsome : I.act ≠ 0) (ht : I.tokenClash = some t)
    (body : Issue → State) : withIssue i s body = .next (I.trapAll I.mask 0x11 t) := by
  obtain ⟨hs, hi, hf, hc, hcr, hw, ha⟩ := h
  have hI := Issuing.eq_mk ⟨hs, hi, hf, hc, hcr, hw, ha⟩
  unfold withIssue
  simp only [hc, hf, hcr, hw, hchk, ← hI, ht]
  rw [← ha, if_neg hsome]

/-! ### Masks and lanes -/

theorem mem_lanesOf {m : Mask} {l : Nat} : l ∈ lanesOf m ↔ m.getLsbD l = true := by
  unfold lanesOf
  simp only [List.mem_filter, List.mem_range]
  exact ⟨fun h => h.2, fun h => ⟨BitVec.lt_of_getLsbD h, h⟩⟩

theorem nodup_lanesOf (m : Mask) : (lanesOf m).Nodup := List.nodup_range.filter _

theorem getLsbD_laneBit (l k : Nat) : (laneBit l).getLsbD k = (decide (k < 32) && decide (k = l)) := by
  unfold laneBit
  have h1 (n : Nat) : (1 : Mask).getLsbD n = decide (n = 0) := by
    show (1#32).getLsbD n = _
    rw [BitVec.getLsbD_one]; simp
  rw [BitVec.getLsbD_shiftLeft, h1]
  by_cases h : k = l
  · subst h; simp
  · by_cases h2 : k < l
    · simp [h2, h]
    · have : k - l ≠ 0 := by omega
      simp [h, this]

theorem getLsbD_foldl_laneBit (ls : List Nat) (m : Mask) (k : Nat) :
    (ls.foldl (fun m l => m ||| laneBit l) m).getLsbD k = (m.getLsbD k || (decide (k < 32) && ls.contains k)) := by
  induction ls generalizing m with
  | nil => simp
  | cons l ls ih =>
    rw [List.foldl_cons, ih, BitVec.getLsbD_or, getLsbD_laneBit, List.contains_cons]
    by_cases h : k = l
    · subst h; cases decide (k < 32) <;> simp
    · have : (k == l) = false := by simpa using h
      simp [h, this]

theorem getLsbD_maskOf (ls : List Nat) (k : Nat) : (maskOf ls).getLsbD k = (decide (k < 32) && ls.contains k) := by
  unfold maskOf; rw [getLsbD_foldl_laneBit]; simp

/-- The issuing threads are of the group. -/
theorem guardMask_sub {w : Warp} {m : Mask} {b : Body} {l : Nat} (h : (guardMask w m b).getLsbD l = true) :
    m.getLsbD l = true := by
  unfold guardMask at h
  rw [getLsbD_maskOf, Bool.and_eq_true, List.contains_iff_mem, List.mem_filter] at h
  exact mem_lanesOf.1 h.2.1

theorem Issuing.sub {i : Instr} {s : State} {I : Issue} (h : Issuing i s I) {l : Nat} (hl : I.act.getLsbD l = true) :
    I.mask.getLsbD l = true := guardMask_sub (h.act ▸ hl)

/-- The lowest lane of a nonempty mask is one of its lanes. -/
theorem lowestLane_mem {m : Mask} (h : m ≠ 0) : ∃ l, lowestLane m = some l ∧ l ∈ lanesOf m := by
  unfold lowestLane
  cases hl : lanesOf m with
  | nil =>
    refine absurd ?_ h
    apply BitVec.eq_of_getLsbD_eq
    intro k hk
    cases hb : m.getLsbD k with
    | false => simp
    | true => have := mem_lanesOf.2 hb; rw [hl] at this; cases this
  | cons x xs => exact ⟨x, rfl, List.mem_cons_self⟩

theorem Executes.low_mem {i : Instr} {s : State} {I : Issue} (h : Executes i s I) : I.low ∈ I.lanes := by
  obtain ⟨l, hl, hm⟩ := lowestLane_mem h.some
  unfold Issue.low
  rw [hl]; exact hm

/-! ### Changing the issuing warp -/

theorem updAt_eq_set {α : Type} (xs : List α) (n : Nat) (f : α → α) (x : α) (h : xs[n]? = some x) :
    updAt n f xs = xs.set n (f x) := by
  induction xs generalizing n with
  | nil => simp at h
  | cons y ys ih =>
    cases n with
    | zero => simp at h; subst h; rfl
    | succ n => simp only [updAt, List.set]; rw [ih n (by simpa using h)]

theorem updWhere_id {α : Type} (p : α → Bool) (xs : List α) : updWhere p id xs = xs := by simp [updWhere]

theorem updAt_updAt {α : Type} (n : Nat) (f g : α → α) (xs : List α) : updAt n g (updAt n f xs) = updAt n (g ∘ f) xs := by
  induction xs generalizing n with
  | nil => cases n <;> rfl
  | cons x xs ih => cases n <;> simp [updAt, ih]

/-- Two changes of one warp are one. -/
theorem State.setWarp_setWarp (s : State) (id w : Nat) (f g : Warp → Warp) :
    (s.setWarp id w f).setWarp id w g = s.setWarp id w (g ∘ f) := by
  unfold State.setWarp State.setCrew updWhere
  simp only [List.map_map]
  congr 1
  apply List.map_congr_left
  intro c _
  by_cases h : (c.id == id) = true
  · have h2 : ((c.setWarp w f).id == id) = true := h
    simp only [Function.comp_apply, if_pos h, if_pos h2]
    simp [Crew.setWarp, updAt_updAt]
  · simp only [Function.comp_apply, if_neg h]

/-- Changing the issuing warp changes nothing else. -/
theorem Issuing.warpBecomes {i : Instr} {s : State} {I : Issue} (h : Issuing i s I) (f : Warp → Warp) :
    WarpBecomes I (f I.warp) (I.s.setWarp I.cid I.wi f) := by
  refine ⟨rfl, fun id => ?_⟩
  rw [State.crew?_setWarp]
  by_cases hid : id = I.cid
  · subst hid
    have hc : I.s.crew? I.cid = some I.crew := by rw [h.state]; exact h.crew
    have hw : I.crew.warps[I.wi]? = some I.warp := by
      have := h.warp; unfold State.warp? at this; rw [h.crew] at this; exact this
    rw [if_pos rfl, if_pos rfl, hc, Option.map_some, Crew.setWarp, updAt_eq_set _ _ _ _ hw]
  · rw [if_neg hid, if_neg hid]

/-! ### Writing results -/

/-- The effect of one result on its own thread. -/
def Thread.putOne (t : Thread) : Put → Thread
  | .reg o bits x =>
    match t.vecIndex o with
    | some r => { t with v := putRegs t.v r x (bits / 32) }
    | none => t
  | .pred (.pred p) b => t.putPred p b
  | .pred _ _ => t
  | .flags b => { t with fflags := t.fflags ||| b }

/-- The effect of one result on the uniform registers. -/
def putUni (u : List DWord) : Put → List DWord
  | .reg (.uni r) bits x => u.set r.toNat (BitVec.ofNat 64 (x % 2 ^ bits))
  | _ => u

theorem updAt_same {α : Type} (n : Nat) (xs : List α) : updAt n (fun x => x) xs = xs := by
  induction xs generalizing n with
  | nil => cases n <;> rfl
  | cons x xs ih => cases n <;> simp [updAt, ih]

/-- One result changes its thread, and a uniform destination only in the lowest lane. -/
theorem Warp.put_eq (w : Warp) (low l : Nat) (q : Put) :
    w.put low l q =
      { w with threads := updAt l (fun t => t.putOne q) w.threads, u := if l = low then putUni w.u q else w.u } := by
  cases q with
  | reg o bits x =>
    cases o <;> simp [Warp.put, Warp.putReg, Warp.setThread, Thread.putOne, Thread.vecIndex, putUni, updAt_same]
    · split <;> rfl
  | pred o b => cases o <;> simp [Warp.put, Warp.setThread, Thread.putOne, putUni, updAt_same]
  | flags b => simp [Warp.put, Warp.setThread, Thread.putOne, putUni]

theorem Warp.put_list (w : Warp) (low l : Nat) (ps : List Put) :
    ps.foldl (fun w q => w.put low l q) w =
      { w with threads := updAt l (fun t => ps.foldl Thread.putOne t) w.threads, u := if l = low then ps.foldl putUni w.u else w.u } := by
  induction ps generalizing w with
  | nil => simp [updAt_same]
  | cons q ps ih =>
    rw [List.foldl_cons, ih, Warp.put_eq]
    by_cases h : l = low <;> simp [h, updAt_updAt, Function.comp_def]

/-- The results of the lanes together: each thread has its own, and the uniform registers those of the lowest lane. -/
theorem Warp.puts_eq (w : Warp) (low : Nat) (rs : List (Nat × List Put)) (hn : (rs.map Prod.fst).Nodup) :
    w.puts low rs =
      { w with
        threads := w.threads.mapIdx fun l t => match rs.find? (fun p => p.1 == l) with
          | some p => p.2.foldl Thread.putOne t
          | none => t
        u := match rs.find? (fun p => p.1 == low) with
          | some p => p.2.foldl putUni w.u
          | none => w.u } := by
  induction rs generalizing w with
  | nil =>
    have : w.threads.mapIdx (fun _ t => t) = w.threads := by apply List.ext_getElem?; intro k; simp
    show w = { w with threads := w.threads.mapIdx fun _ t => t, u := w.u }
    rw [this]
  | cons p rs ih =>
    rw [List.map_cons, List.nodup_cons] at hn
    have hno (l : Nat) (h : p.1 = l) : rs.find? (fun q => q.1 == l) = none := by
      rw [List.find?_eq_none]
      intro q hq hql
      exact hn.1 (List.mem_map.2 ⟨q, hq, by rw [h]; simpa using hql⟩)
    have hstep : w.puts low (p :: rs) = (p.2.foldl (fun w q => w.put low p.1 q) w).puts low rs := rfl
    rw [hstep, ih _ hn.2, Warp.put_list]
    simp only [Warp.mk.injEq, and_true, true_and, List.find?_cons]
    constructor
    · apply List.ext_getElem?
      intro k
      simp only [List.getElem?_mapIdx, getElem?_updAt]
      by_cases hk : p.1 = k
      · have hb : (p.1 == k) = true := by simpa using hk
        rw [hno k hk]
        cases w.threads[k]? <;> simp [hk]
      · have hb : (p.1 == k) = false := by simpa using hk
        simp [hk, hb]
    · by_cases hk : p.1 = low
      · have hb : (p.1 == low) = true := by simpa using hk
        rw [hno low hk]
        simp [hk]
      · have hb : (p.1 == low) = false := by simpa using hk
        simp [hk, hb]

/-! ### Results as claims read them -/

/-- The result that a list of written values amounts to. -/
def Result.ofPuts : List Put → Result
  | [] => {}
  | .reg o bits x :: ps => { Result.ofPuts ps with reg := some (o, bits, x) }
  | .pred (.pred p) b :: ps => { Result.ofPuts ps with preds := (p, b) :: (Result.ofPuts ps).preds }
  | .pred _ _ :: ps => Result.ofPuts ps
  | .flags b :: ps => { Result.ofPuts ps with flags := b ||| (Result.ofPuts ps).flags }

/-- How many registers a list writes. -/
def regPuts : List Put → Nat
  | [] => 0
  | .reg _ _ _ :: ps => regPuts ps + 1
  | _ :: ps => regPuts ps

theorem getElem?_putRegs (n r x k : Nat) (v : List Word) :
    (putRegs v r x n)[k]? =
      if r ≤ k ∧ k < r + n then v[k]?.map fun _ => BitVec.ofNat 32 (x / 2 ^ (32 * (k - r))) else v[k]? := by
  induction n generalizing v r x with
  | zero => rw [putRegs, if_neg (by omega)]
  | succ n ih =>
    rw [putRegs, ih, List.getElem?_set]
    by_cases h1 : r + 1 ≤ k ∧ k < r + 1 + n
    · have h2 : r ≤ k ∧ k < r + (n + 1) := by omega
      have h3 : r ≠ k := by omega
      rw [if_pos h1, if_pos h2, if_neg h3, Nat.div_div_eq_div_mul, ← Nat.pow_add,
        show 32 + 32 * (k - (r + 1)) = 32 * (k - r) by omega]
    · rw [if_neg h1]
      by_cases h2 : r = k
      · subst h2
        have h2 : r ≤ r ∧ r < r + (n + 1) := by omega
        rw [if_pos rfl, if_pos h2]
        by_cases h3 : r < v.length
        · simp [h3]
        · have : v[r]? = none := by simp only [List.getElem?_eq_none_iff]; omega
          rw [if_neg h3, this]; rfl
      · have h3 : ¬ (r ≤ k ∧ k < r + (n + 1)) := by omega
        rw [if_neg h2, if_neg h3]

theorem Thread.getLsbD_putPred (t : Thread) (p q : BitVec 3) (b : Bool) :
    (t.putPred p b).preds.getLsbD q.toNat = if p = 0 then t.preds.getLsbD q.toNat else if p = q then b else t.preds.getLsbD q.toNat := by
  unfold Thread.putPred
  by_cases h0 : p = 0
  · simp [h0]
  · rw [if_neg h0, if_neg h0]
    have hq : q.toNat < 8 := q.isLt
    have h1 (n : Nat) : (1 : BitVec 8).getLsbD n = decide (n = 0) := by
      show (1#8).getLsbD n = _
      rw [BitVec.getLsbD_one]; simp
    have hbit : ((1 : BitVec 8) <<< p.toNat).getLsbD q.toNat = decide (p = q) := by
      rw [BitVec.getLsbD_shiftLeft, h1]
      by_cases h : p = q
      · subst h; simp [hq]
      · have hne : p.toNat ≠ q.toNat := fun h' => h (BitVec.eq_of_toNat_eq h')
        by_cases h2 : q.toNat < p.toNat
        · simp [h, h2]
        · have : q.toNat - p.toNat ≠ 0 := by omega
          simp [h, this]
    cases b
    · show (t.preds &&& ~~~((1 : BitVec 8) <<< p.toNat)).getLsbD q.toNat = _
      rw [BitVec.getLsbD_and, BitVec.getLsbD_not, hbit]
      by_cases h : p = q <;> simp [h, hq]
    · show (t.preds ||| ((1 : BitVec 8) <<< p.toNat)).getLsbD q.toNat = _
      rw [BitVec.getLsbD_or, hbit]
      by_cases h : p = q <;> simp [h]

/-- What a result changes in its thread. -/
theorem Thread.putOne_frame (t : Thread) (q : Put) :
    t.putOne q = { t with v := (t.putOne q).v, preds := (t.putOne q).preds, fflags := (t.putOne q).fflags } := by
  cases q with
  | reg o bits x => cases h : t.vecIndex o <;> simp [Thread.putOne, h]
  | pred o b => cases o <;> simp only [Thread.putOne, Thread.putPred] <;> split <;> rfl
  | flags b => rfl

theorem Thread.foldl_putOne_frame (ps : List Put) (t : Thread) :
    ps.foldl Thread.putOne t =
      { t with
        v := (ps.foldl Thread.putOne t).v, preds := (ps.foldl Thread.putOne t).preds
        fflags := t.fflags ||| (Result.ofPuts ps).flags } := by
  induction ps generalizing t with
  | nil => simp [Result.ofPuts]
  | cons q ps ih =>
    rw [List.foldl_cons, ih]
    cases q with
    | reg o bits x => cases h : t.vecIndex o <;> simp [Thread.putOne, h, Result.ofPuts]
    | pred o b =>
      have hp : t.putOne (.pred o b) = { t with preds := (t.putOne (.pred o b)).preds } := by
        cases o <;> first | rfl | (simp only [Thread.putOne, Thread.putPred]; split <;> rfl)
      have hf : (Result.ofPuts (.pred o b :: ps)).flags = (Result.ofPuts ps).flags := by cases o <;> rfl
      rw [hp, hf]
    | flags b => simp [Thread.putOne, Result.ofPuts, BitVec.or_assoc]

theorem Thread.vecIndex_putOne (t : Thread) (q : Put) (o : Opd) : (t.putOne q).vecIndex o = t.vecIndex o := by
  rw [Thread.putOne_frame]
  cases o <;> rfl

theorem Thread.foldl_putOne_v (ps : List Put) (t : Thread) (h : regPuts ps = 0) : (ps.foldl Thread.putOne t).v = t.v := by
  induction ps generalizing t with
  | nil => rfl
  | cons q ps ih =>
    cases q with
    | reg o bits x => simp [regPuts] at h
    | pred o b =>
      rw [List.foldl_cons, ih _ (by simpa [regPuts] using h)]
      cases o <;> simp only [Thread.putOne]
      unfold Thread.putPred; split <;> rfl
    | flags b => rw [List.foldl_cons, ih _ (by simpa [regPuts] using h)]; rfl

theorem Result.ofPuts_reg_none (ps : List Put) (h : regPuts ps = 0) : (Result.ofPuts ps).reg = none := by
  induction ps with
  | nil => rfl
  | cons q ps ih =>
    cases q with
    | reg o bits x => simp [regPuts] at h
    | pred o b => cases o <;> exact ih (by simpa [regPuts] using h)
    | flags b => exact ih (by simpa [regPuts] using h)

theorem Thread.foldl_putOne_vec (ps : List Put) (t : Thread) (h : regPuts ps ≤ 1) (k : Nat) :
    (ps.foldl Thread.putOne t).v[k]? = (Result.ofPuts ps).vecAfter t k := by
  induction ps generalizing t with
  | nil => rfl
  | cons q ps ih =>
    have key (ht : (t.putOne q).v = t.v) (hr : (Result.ofPuts (q :: ps)).reg = (Result.ofPuts ps).reg)
        (hl : regPuts ps ≤ 1) :
        ((q :: ps).foldl Thread.putOne t).v[k]? = (Result.ofPuts (q :: ps)).vecAfter t k := by
      rw [List.foldl_cons, ih _ hl]
      unfold Result.vecAfter
      rw [hr]
      simp only [Thread.vecIndex_putOne, ht]
    cases q with
    | reg o bits x =>
      have h0 : regPuts ps = 0 := by simp only [regPuts] at h; omega
      rw [List.foldl_cons, Thread.foldl_putOne_v _ _ h0]
      simp only [Result.vecAfter, Result.ofPuts, Thread.putOne]
      cases hv : t.vecIndex o with
      | none => rfl
      | some r => simp only [getElem?_putRegs]
    | pred o b =>
      refine key ?_ ?_ h
      · cases o <;> simp only [Thread.putOne]
        unfold Thread.putPred; split <;> rfl
      · cases o <;> rfl
    | flags b => exact key rfl rfl h

theorem Thread.foldl_putOne_preds (ps : List Put) (t : Thread) (p : BitVec 3) :
    (ps.foldl Thread.putOne t).preds.getLsbD p.toNat = (Result.ofPuts ps).predAfter t p := by
  unfold Result.predAfter
  induction ps generalizing t with
  | nil =>
    by_cases h : p = 0
    · subst h; rfl
    · rw [if_neg h]; rfl
  | cons q ps ih =>
    rw [List.foldl_cons, ih]
    cases q with
    | reg o bits x =>
      have : (t.putOne (.reg o bits x)).preds = t.preds := by
        simp only [Thread.putOne]; cases t.vecIndex o <;> rfl
      simp [Result.ofPuts, this]
    | pred o b =>
      cases o with
      | pred q =>
        by_cases h0 : p = 0
        · subst h0
          have := Thread.getLsbD_putPred t q 0 b
          rw [if_pos rfl, if_pos rfl]
          show (t.putPred q b).preds.getLsbD (0 : BitVec 3).toNat = t.preds.getLsbD 0
          rw [this]
          by_cases hq : q = 0
          · rw [if_pos hq]; rfl
          · rw [if_neg hq, if_neg hq]; rfl
        · rw [if_neg h0, if_neg h0]
          simp only [Thread.putOne, Result.ofPuts, List.foldl_cons, Thread.getLsbD_putPred]
          by_cases hq : q = 0
          · subst hq; rw [if_pos rfl, if_neg (fun h => h0 h.symm)]
          · rw [if_neg hq]
      | _ => rfl
    | flags b => rfl

theorem foldl_putUni (ps : List Put) (w : Warp) (h : regPuts ps ≤ 1) (k : Nat) :
    (ps.foldl putUni w.u)[k]? = (Result.ofPuts ps).uniAfter w k := by
  have hnone : ∀ (ps : List Put) (u : List DWord), regPuts ps = 0 → ps.foldl putUni u = u := by
    intro ps
    induction ps with
    | nil => intro u _; rfl
    | cons q ps ih =>
      intro u h
      cases q with
      | reg o bits x => simp [regPuts] at h
      | _ => exact ih _ h
  induction ps with
  | nil => rfl
  | cons q ps ih =>
    cases q with
    | reg o bits x =>
      have h0 : regPuts ps = 0 := by simp only [regPuts] at h; omega
      rw [List.foldl_cons, hnone _ _ h0]
      cases o with
      | uni r =>
        simp only [putUni, Result.uniAfter, Result.ofPuts, List.getElem?_set]
        by_cases hk : k = r.toNat
        · subst hk
          rw [if_pos rfl, if_pos rfl]
          by_cases hl : r.toNat < w.u.length <;> simp [hl]
        · rw [if_neg (fun h => hk h.symm), if_neg hk]
      | _ => rfl
    | pred o b => cases o <;> exact ih h
    | flags b => exact ih h

/-! ### Completion -/

/-- What one lane's outcome is as a result: nothing for a lane that traps and keeps nothing. -/
def LaneOut.Gives (o : LaneOut) (r : Option Result) : Prop :=
  match o with
  | .ok ps => r = some (Result.ofPuts ps) ∧ regPuts ps ≤ 1
  | .trap _ kept => r = none ∧ kept = []

theorem find?_lanes {β : Type} (f : Nat → β) (ls : List Nat) (k : Nat) :
    (ls.map fun l => (l, f l)).find? (fun p => p.1 == k) = if k ∈ ls then some (k, f k) else none := by
  induction ls with
  | nil => rfl
  | cons x xs ih =>
    rw [List.map_cons, List.find?_cons, ih]
    by_cases h : x = k
    · subst h; simp
    · have hb : (x == k) = false := by simpa using h
      simp [hb, show ¬ k = x from fun h' => h h'.symm]

/-- The warp after lanes have gone on at their successors. -/
def Warp.advanced (w : Warp) (lanes : Mask) : Warp :=
  { w with threads := w.threads.mapIdx fun l t => if lanes.getLsbD l then t.goto (successor t.pc) else t }

theorem State.advance_eq (s : State) (id w : Nat) (lanes : Mask) :
    s.advance id w lanes = s.setWarp id w fun x => x.advanced lanes := rfl

/-- The lanes of an issue go on with their results while the others of the group stand: the common part of the per-lane
forms. -/
theorem Issue.completes_advance {i : Instr} {s : State} {I : Issue} (h : Executes i s I) (g : Nat → LaneOut)
    (res : Nat → Option Result) (hg : ∀ l ∈ I.lanes, (g l).Gives (res l)) :
    Completes I res
      ((I.s.setWarp I.cid I.wi fun w => w.puts I.low (I.lanes.map fun l => (l, (g l).puts))).advance I.cid I.wi
        (I.mask &&& ~~~maskOf ((I.lanes.filterMap fun l => (g l).trap?.map fun t => (l, t)).map Prod.fst))) := by
  have hnodup : ((I.lanes.map fun l => (l, (g l).puts)).map Prod.fst).Nodup := by
    rw [List.map_map, show (Prod.fst ∘ fun l => (l, (g l).puts)) = id from rfl, List.map_id]
    exact nodup_lanesOf _
  have hfail (l : Nat) : (I.mask &&& ~~~maskOf ((I.lanes.filterMap fun l => (g l).trap?.map fun t => (l, t)).map Prod.fst)).getLsbD l
      = (I.mask.getLsbD l && !(decide (l ∈ I.lanes) && (g l).trap?.isSome)) := by
    rw [BitVec.getLsbD_and, BitVec.getLsbD_not, getLsbD_maskOf]
    by_cases hm : I.mask.getLsbD l = true
    · have hl := BitVec.lt_of_getLsbD hm
      simp only [hm, hl, decide_true, Bool.true_and]
      congr 1
      rw [Bool.eq_iff_iff, List.contains_iff_mem, Bool.and_eq_true, decide_eq_true_eq]
      simp only [List.mem_map, List.mem_filterMap, Option.map_eq_some_iff, Prod.exists, exists_and_right, exists_eq_right]
      constructor
      · rintro ⟨t, l', hl', t', ht, he⟩
        cases he
        exact ⟨hl', by rw [ht]; rfl⟩
      · rintro ⟨hl', ht⟩
        obtain ⟨t, ht⟩ := Option.isSome_iff_exists.1 ht
        exact ⟨t, l, hl', t, ht, rfl⟩
    · simp [hm]
  generalize hmk : I.mask &&& ~~~maskOf ((I.lanes.filterMap fun l => (g l).trap?.map fun t => (l, t)).map Prod.fst) = mk at hfail ⊢
  rw [State.advance_eq, State.setWarp_setWarp]
  have hb := h.issuing.warpBecomes ((fun x : Warp => x.advanced mk) ∘ fun w => w.puts I.low (I.lanes.map fun l => (l, (g l).puts)))
  refine ⟨_, hb, ?_, ?_, ?_, ?_⟩
  · simp only [Function.comp_apply, Warp.advanced, Warp.puts_eq _ _ _ hnodup]
  · simp only [Function.comp_apply, Warp.advanced, Warp.puts_eq _ _ _ hnodup, List.length_mapIdx]
  · intro l old hold
    simp only [Function.comp_apply, Warp.advanced, Warp.puts_eq _ _ _ hnodup, List.getElem?_mapIdx, hold, Option.map_some, find?_lanes,
      hfail]
    refine ⟨_, rfl, ?_⟩
    by_cases hact : I.act.getLsbD l = true
    · have hmem : l ∈ I.lanes := mem_lanesOf.2 hact
      have hmask := h.issuing.sub hact
      have hgl := hg l hmem
      simp only [hact, hmem, hmask, if_true, decide_true, Bool.true_and]
      cases hout : g l with
      | ok ps =>
        rw [hout] at hgl
        obtain ⟨hr, hp⟩ := hgl
        simp only [hr, LaneOut.trap?, Option.isSome_none, Bool.not_false, if_true, LaneOut.puts]
        refine ⟨?_, fun k => ?_, fun p => ?_⟩
        · exact (congrArg (fun t : Thread => t.goto (successor t.pc)) (Thread.foldl_putOne_frame ps old)).trans rfl
        · exact Thread.foldl_putOne_vec ps old hp k
        · exact Thread.foldl_putOne_preds ps old p
      | trap t kept =>
        rw [hout] at hgl
        obtain ⟨hr, hk⟩ := hgl
        simp [hr, hk, LaneOut.trap?, LaneOut.puts]
    · have hmem : l ∉ I.lanes := fun hm => hact (mem_lanesOf.1 hm)
      simp only [hact, hmem, if_false, decide_false, Bool.false_and, Bool.not_false, Bool.and_true]
      by_cases hmask : I.mask.getLsbD l = true <;> simp [hmask]
  · intro k
    simp only [Function.comp_apply, Warp.advanced, Warp.puts_eq _ _ _ hnodup, find?_lanes, h.low_mem, if_true]
    have hgl := hg I.low h.low_mem
    cases hout : g I.low with
    | ok ps =>
      rw [hout] at hgl
      obtain ⟨hr, hp⟩ := hgl
      simp only [hr, LaneOut.puts]
      exact foldl_putUni ps I.warp hp k
    | trap t kept =>
      rw [hout] at hgl
      obtain ⟨hr, hk⟩ := hgl
      simp [hr, hk, LaneOut.puts]

/-- The outcome of a lane: Register Range of an indirect operand comes first (02 R79). -/
def Issue.outcomeOf (I : Issue) (f : Nat → LaneOut) (l : Nat) : LaneOut :=
  match I.indirectOut l with
  | some t => .trap t
  | none => f l

/-- A per-lane form: the lanes that give results complete with them, and then the failing lanes take their traps (05 R170,
06 R203). -/
theorem Issue.perLane_completes {i : Instr} {s : State} {I : Issue} (h : Executes i s I) (f : Nat → LaneOut)
    (res : Nat → Option Result) (hg : ∀ l ∈ I.lanes, (I.outcomeOf f l).Gives (res l)) :
    ∃ t, Completes I res t ∧ I.perLane f =
      t.traps I.cid I.wi (I.lanes.filterMap fun l => (I.outcomeOf f l).trap?.map fun t => (l, t)) := by
  refine ⟨_, Issue.completes_advance h (I.outcomeOf f) res hg, ?_⟩
  unfold Issue.perLane Issue.outcomes
  simp only [List.map_map, List.filterMap_map, Function.comp_def]
  rfl

/-- A per-lane form none of whose lanes traps completes. -/
theorem Issue.perLane_ok {i : Instr} {s : State} {I : Issue} (h : Executes i s I) (hr : I.InRange) (f : Nat → LaneOut)
    (ps : Nat → List Put) (hf : ∀ l ∈ I.lanes, f l = .ok (ps l)) (hp : ∀ l ∈ I.lanes, regPuts (ps l) ≤ 1) :
    Completes I (fun l => some (Result.ofPuts (ps l))) (I.perLane f) := by
  have hout : ∀ l ∈ I.lanes, I.outcomeOf f l = .ok (ps l) := by
    intro l hl; unfold Issue.outcomeOf; rw [hr l hl]; exact hf l hl
  obtain ⟨t, ht, he⟩ := Issue.perLane_completes h f (fun l => some (Result.ofPuts (ps l)))
    (fun l hl => by rw [hout l hl]; exact ⟨rfl, hp l hl⟩)
  have hnil : (I.lanes.filterMap fun l => (I.outcomeOf f l).trap?.map fun t => (l, t)) = [] := by
    rw [List.filterMap_eq_nil_iff]
    intro l hl
    rw [hout l hl]; rfl
  rw [hnil] at he
  rw [he]; exact ht

/-- The same for a form that writes nothing when any lane fails (08 R257). -/
theorem Issue.allLanes_ok {i : Instr} {s : State} {I : Issue} (h : Executes i s I) (hr : I.InRange) (f : Nat → LaneOut)
    (ps : Nat → List Put) (hf : ∀ l ∈ I.lanes, f l = .ok (ps l)) (hp : ∀ l ∈ I.lanes, regPuts (ps l) ≤ 1) :
    Completes I (fun l => some (Result.ofPuts (ps l))) (I.allLanes f) := by
  have hout : ∀ l ∈ I.lanes, I.outcomeOf f l = .ok (ps l) := by
    intro l hl; unfold Issue.outcomeOf; rw [hr l hl]; exact hf l hl
  have hnil : (I.lanes.filterMap fun l => (I.outcomeOf f l).trap?.map fun t => (l, t)) = [] := by
    rw [List.filterMap_eq_nil_iff]
    intro l hl
    rw [hout l hl]; rfl
  have hc := Issue.completes_advance h (I.outcomeOf f) (fun l => some (Result.ofPuts (ps l)))
    (fun l hl => by rw [hout l hl]; exact ⟨rfl, hp l hl⟩)
  rw [hnil] at hc
  have hm : I.mask &&& ~~~maskOf (([] : List (Nat × Trap)).map Prod.fst) = I.mask := by
    apply BitVec.eq_of_getLsbD_eq
    intro k hk
    rw [BitVec.getLsbD_and, BitVec.getLsbD_not, getLsbD_maskOf]
    simp [hk]
  rw [hm] at hc
  have ho : I.outcomes f = I.lanes.map fun l => (l, I.outcomeOf f l) := rfl
  unfold Issue.allLanes
  simp only [ho, List.map_map, List.filterMap_map, Function.comp_def, hnil]
  exact hc

/-- A form that only goes on completes with no result. -/
theorem Issue.done_completes {i : Instr} {s : State} {I : Issue} (h : Executes i s I) :
    Completes I (fun _ => some {}) I.done := by
  have hb := h.issuing.warpBecomes (fun x : Warp => x.advanced I.mask)
  refine ⟨_, hb, rfl, by simp [Warp.advanced], ?_, fun k => rfl⟩
  intro l old hold
  simp only [Warp.advanced, List.getElem?_mapIdx, hold, Option.map_some]
  refine ⟨_, rfl, ?_⟩
  by_cases hact : I.act.getLsbD l = true
  · simp only [hact, h.issuing.sub hact, if_true]
    refine ⟨?_, fun k => rfl, fun p => ?_⟩
    · simp [Thread.goto]
    · unfold Result.predAfter
      by_cases h0 : p = 0
      · subst h0; rfl
      · rw [if_neg h0]; rfl
  · by_cases hmask : I.mask.getLsbD l = true <;> simp [hact, hmask]

end Sys2Proof.Machine
end

