-- ==== Sys2Proof/Laws/Settle.lean ====
section
/-! SUPPORT. Settlements: what the settling of an operation comes to once the operation is forgotten, so that whatever an
event last noted in the operation itself has no effect. -/

namespace Sys2Proof.Machine

/-- The operation that a number finds has that number. -/
theorem State.op?_id {s : State} {n : Nat} {o : Op} (h : s.op? n = some o) : o.id = n := by
  have := List.find?_some h
  simpa using this

/-- Elements that a test leaves out may change without effect on what it keeps. -/
theorem filter_updWhere {α : Type} (p q : α → Bool) (f : α → α) (xs : List α)
    (h : ∀ x, p x = true → q x = false ∧ q (f x) = false) : (updWhere p f xs).filter q = xs.filter q := by
  induction xs with
  | nil => rfl
  | cons x xs ih =>
    unfold updWhere at *
    simp only [List.map_cons, List.filter_cons]
    cases hp : p x with
    | true => simp [h x hp, ih]
    | false => simp [ih]

/-- A forgotten operation may have changed first. -/
theorem State.dropOp_setOp (s : State) (n : Nat) (f : Op → Op) (hf : ∀ o, (f o).id = o.id) : (s.setOp n f).dropOp n = s.dropOp n := by
  unfold State.setOp State.dropOp
  congr 1
  apply filter_updWhere
  intro o h
  have : o.id = n := by simpa using h
  simp [hf, this]

/-- See `State.dropOp_setOp`. -/
theorem State.dropOp_setLane (s : State) (n l : Nat) (f : LaneAcc → LaneAcc) : (s.setLane n l f).dropOp n = s.dropOp n :=
  State.dropOp_setOp s n (fun o => { o with acc := updWhere (fun a => a.lane == l) f o.acc }) (fun _ => rfl)

/-- What a settlement does once its operation has been forgotten. -/
def State.settled (s : State) (o : Op) (st : BoundSt) : State :=
  let exited := ((s.warp? o.crew o.warp).map Warp.exited).getD true
  let s : State := if o.orphan then s else s.setWarp o.crew o.warp fun w => w.settleTok o.tok o.id st
  let s : State := { s with cores := s.cores.map fun c => { c with wards := c.wards.filter fun x => x.op != o.id } }
  let s := ((s.settleBinding o.id st).spoilShape o st).freeMxe o st
  match st with
  | .poisoned c g =>
    if o.tok = 0 ∨ exited then
      let s := s.notePoison o.launch c g
      if exited && o.tok != 0 then
        s.setCrew o.crew fun x => { x with latePoison := x.latePoison.orElse fun _ => some (c, g) }
      else s
    else s
  | _ => s

/-- A settlement forgets its operation and then does the rest. -/
theorem State.settle_eq {s : State} {n : Nat} {o : Op} (st : BoundSt) (ho : s.op? n = some o) :
    s.settle n st = (s.dropOp n).settled o st := by
  have hid := State.op?_id ho
  subst hid
  unfold State.settle State.settled
  rw [ho]
  by_cases h : o.orphan = true <;> simp only [h, if_true, Bool.false_eq_true, if_false] <;> rfl

/-- The rest of a settlement looks at these fields of its operation. -/
theorem State.settled_congr (s : State) {o p : Op} (st : BoundSt)
    (h : p.id = o.id ∧ p.crew = o.crew ∧ p.warp = o.warp ∧ p.tok = o.tok ∧ p.launch = o.launch ∧ p.instr = o.instr ∧
      p.args = o.args ∧ p.targets = o.targets ∧ p.orphan = o.orphan) : s.settled p st = s.settled o st := by
  obtain ⟨h1, h2, h3, h4, h5, h6, h7, h8, h9⟩ := h
  simp only [State.settled, State.spoilShape, State.freeMxe, Op.gangCrews, h1, h2, h3, h4, h5, h6, h7, h8, h9]

/-- A settlement does not depend on what its operation last noted of its lanes, its progress or its wait. -/
theorem State.settle_setOp {s : State} {n : Nat} {o : Op} (f : Op → Op) (st : BoundSt) (ho : s.op? n = some o)
    (hid : ∀ o, (f o).id = o.id)
    (h : (f o).crew = o.crew ∧ (f o).warp = o.warp ∧ (f o).tok = o.tok ∧ (f o).launch = o.launch ∧ (f o).instr = o.instr ∧
      (f o).args = o.args ∧ (f o).targets = o.targets ∧ (f o).orphan = o.orphan) :
    (s.setOp n f).settle n st = s.settle n st := by
  have h2 : (s.setOp n f).op? n = some (f o) := by rw [State.op?_setOp s n n f hid, ho]; simp
  rw [State.settle_eq st h2, State.settle_eq st ho, State.dropOp_setOp s n f hid]
  exact State.settled_congr _ st ⟨hid o, h⟩

/-- See `State.settle_setOp`. -/
theorem State.settle_setLane {s : State} {n : Nat} {o : Op} (l : Nat) (f : LaneAcc → LaneAcc) (st : BoundSt) (ho : s.op? n = some o) :
    (s.setLane n l f).settle n st = s.settle n st :=
  State.settle_setOp (fun o => { o with acc := updWhere (fun a => a.lane == l) f o.acc }) st ho (fun _ => rfl)
    ⟨rfl, rfl, rfl, rfl, rfl, rfl, rfl, rfl⟩

/-! What happens to warps and what happens to operations commute. -/

@[simp] theorem State.setWarp_setOp (s : State) (c w n : Nat) (f : Warp → Warp) (g : Op → Op) :
    (s.setOp n g).setWarp c w f = (s.setWarp c w f).setOp n g := rfl

@[simp] theorem State.setWarp_setLane (s : State) (c w n l : Nat) (f : Warp → Warp) (g : LaneAcc → LaneAcc) :
    (s.setLane n l g).setWarp c w f = (s.setWarp c w f).setLane n l g := rfl

@[simp] theorem State.deliver_setLane (s : State) (o : Op) (d : Opd) (bits : Nat) (ls : List LaneAcc) (n l : Nat) (g : LaneAcc → LaneAcc) :
    (s.setLane n l g).deliver o d bits ls = (s.deliver o d bits ls).setLane n l g := rfl

@[simp] theorem State.op?_deliver (s : State) (o : Op) (d : Opd) (bits : Nat) (ls : List LaneAcc) (n : Nat) :
    (s.deliver o d bits ls).op? n = s.op? n := rfl

@[simp] theorem State.leaveWait_setLane (s : State) (c w n l : Nat) (m : Mask) (g : LaneAcc → LaneAcc) :
    (s.setLane n l g).leaveWait c w m = (s.leaveWait c w m).setLane n l g := rfl

@[simp] theorem State.flushFetch_setLane (s : State) (c w n l : Nat) (m : Mask) (g : LaneAcc → LaneAcc) :
    (s.setLane n l g).flushFetch c w m = (s.flushFetch c w m).setLane n l g := rfl

@[simp] theorem State.op?_leaveWait (s : State) (c w : Nat) (m : Mask) (n : Nat) : (s.leaveWait c w m).op? n = s.op? n := rfl

@[simp] theorem State.op?_flushFetch (s : State) (c w : Nat) (m : Mask) (n : Nat) : (s.flushFetch c w m).op? n = s.op? n := rfl

end Sys2Proof.Machine
end

