-- ==== Sys2Proof/Laws/Reach.lean ====
section
/-! SUPPORT. What reaching memory can change: a translation fills TLBs, an access of a recomputable page brings its line into L2,
and a reach that succeeds changes nothing else. -/

namespace Sys2Proof.Machine

/-- Two states that differ in their TLBs, and in the lines of recomputable pages in L2, at most. -/
def State.sameButCaches (s t : State) : Prop := t = { s with cores := t.cores, dies := t.dies, resident := t.resident }

/-- A state is the same as itself. -/
theorem State.sameButCaches_refl (s : State) : s.sameButCaches s := rfl

/-- The relation chains. -/
theorem State.sameButCaches_trans {s t u : State} (h : s.sameButCaches t) (k : t.sameButCaches u) : s.sameButCaches u := by
  unfold State.sameButCaches at *
  rw [k, h]

/-- A change of a TLB. -/
theorem State.sameButCaches_setTlb (s : State) (f : List TlbEnt → List TlbEnt) (l : TlbLoc) : s.sameButCaches (s.setTlb f l) := by
  cases l <;> rfl

/-- An entry comes into a TLB. -/
theorem State.sameButCaches_holdTlb (s : State) (l : TlbLoc) (t : TlbEnt) : s.sameButCaches (s.holdTlb l t) := by
  unfold State.holdTlb
  exact State.sameButCaches_setTlb ..

/-- Non-leaf entries come into a walk cache. -/
theorem State.sameButCaches_holdWalks (s : State) (die : Nat) (ws : List WalkEnt) : s.sameButCaches (s.holdWalks die ws) := rfl

/-- A lookup fills TLBs. -/
theorem State.sameButCaches_lookup (s : State) (loc : TlbLoc) (asid va : Nat) (need : Need) :
    s.sameButCaches (s.lookup loc asid va need).1 := by
  unfold State.lookup
  dsimp only
  split
  · exact State.sameButCaches_holdTlb ..
  · split
    · split
      · exact State.sameButCaches_trans (State.sameButCaches_holdWalks ..)
          (State.sameButCaches_trans (State.sameButCaches_holdTlb ..) (State.sameButCaches_holdTlb ..))
      · exact State.sameButCaches_trans (State.sameButCaches_holdWalks ..)
          (State.sameButCaches_trans (State.sameButCaches_holdTlb ..) (State.sameButCaches_holdTlb ..))
    · rfl

/-- A translation fills TLBs. -/
theorem State.sameButCaches_xlate (s : State) (loc : TlbLoc) (asid va : Nat) (need : Need) :
    s.sameButCaches (s.xlate loc asid va need).1 := by
  have h := State.sameButCaches_lookup s loc asid va need
  unfold State.xlate
  revert h
  cases s.lookup loc asid va need with
  | mk t w =>
    intro h
    cases w with
    | fault k l e => exact h
    | ok e =>
      dsimp only
      split
      · exact h
      · split <;> exact h
      · split
        · exact h
        · split <;> exact h

/-- A translation that answers with a page has logged nothing. -/
theorem State.sameButCaches_xlateAs {s u : State} {w : Who} {va : Nat} {need : Need} {k : Nat} {leaf : Nat}
    (h : s.xlateAs w va need = (u, .ok k leaf)) : s.sameButCaches u := by
  have hx := State.sameButCaches_xlate s w.loc w.asid va need
  unfold State.xlateAs at h
  revert hx h
  cases s.xlate w.loc w.asid va need with
  | mk t r =>
    intro h hx
    cases r with
    | fault k l e => dsimp only at h; split at h <;> simp at h
    | bad c o => dsimp only at h; split at h <;> simp at h
    | ok k leaf => simp only [Prod.mk.injEq] at h; rw [← h.1]; exact hx

/-- A gate that lets an access through has filled TLBs, and noted a line of a recomputable page. -/
theorem State.sameButCaches_gate {s u : State} {w : Who} {va n : Nat} {write : Bool} {need : Need} {key : Nat} {drop : Bool}
    (h : s.gate w va n write need = (u, .go key drop)) : s.sameButCaches u := by
  unfold State.gate at h
  split at h
  · simp at h
  · cases hx : s.xlateAs w va need with
    | mk t r =>
      rw [hx] at h
      cases r with
      | fault k l e => simp at h
      | bad c o => simp at h
      | ok k leaf =>
        have hs := State.sameButCaches_xlateAs hx
        dsimp only at h
        split at h
        · split at h
          · simp at h
          · split at h
            · simp at h
            · split at h
              · simp at h
              · simp only [Prod.mk.injEq] at h
                rw [← h.1]
                refine State.sameButCaches_trans hs ?_
                unfold State.touchTile
                split <;> rfl
        · rename_i hng
          simp only [Prod.mk.injEq] at h
          exact absurd h.2 (hng _ _)

/-- A reach that succeeds has filled TLBs and changed nothing else. -/
theorem State.sameButCaches_reach {s u : State} {w : Who} {va n : Nat} {write : Bool} {need : Need} {ps : List Part}
    (h : s.reach w va n write need = (u, .ok ps)) : s.sameButCaches u := by
  unfold State.reach at h
  generalize n / 128 + 2 = fuel at h
  generalize ([] : List Part) = acc at h
  induction fuel generalizing s va n acc with
  | zero => simp [State.reachLoop] at h; rw [← h.1]; exact State.sameButCaches_refl s
  | succ f ih =>
    unfold State.reachLoop at h
    split at h
    · simp at h; rw [← h.1]; exact State.sameButCaches_refl s
    · dsimp only at h
      split at h
      · rename_i hg
        exact State.sameButCaches_trans (State.sameButCaches_gate hg) (ih _ h)
      · simp at h

end Sys2Proof.Machine
end

