-- ==== Sys2Proof/Machine/Assembler.lean ====
section
/-! DEFINITION. The assembler `mbas` (02 R81-R90, R514), from statements as trees: expressions, the fields of a written
instruction, the layout of lines, and the image. Its text is read in Machine/AsmText.lean. No step of the machine uses this
file. -/

namespace Sys2Proof.Machine

/-! ### Expressions (R81) -/

/-- The operators of expressions. -/
inductive AsmOp | add | sub | mul | div | rem | shl | shr | and | or | xor
  deriving DecidableEq, Repr

/-- An expression of integers and symbols. -/
inductive AsmExpr
  | num (x : DWord)
  | sym (name : String)
  | neg (e : AsmExpr)
  | not (e : AsmExpr)
  | bin (op : AsmOp) (a b : AsmExpr)
  deriving DecidableEq, Repr

/-- One operation in 64-bit two's complement: division and remainder truncate toward zero, and fail on 0. A right shift
keeps the sign (DEDUCED, log 61). -/
def AsmOp.apply (op : AsmOp) (a b : DWord) : Option DWord :=
  match op with
  | .add => some (a + b)
  | .sub => some (a - b)
  | .mul => some (a * b)
  | .div => if b = 0 then none else some (a.sdiv b)
  | .rem => if b = 0 then none else some (a.srem b)
  | .shl => some (a <<< b.toNat)
  | .shr => some (a.sshiftRight b.toNat)
  | .and => some (a &&& b)
  | .or => some (a ||| b)
  | .xor => some (a ^^^ b)

/-- The value of an expression; none for a division by 0 or an unknown symbol. -/
def AsmExpr.eval (env : List (String × DWord)) : AsmExpr → Option DWord
  | .num x => some x
  | .sym n => (env.find? fun p => p.1 == n).map Prod.snd
  | .neg e => (e.eval env).map fun x => -x
  | .not e => (e.eval env).map fun x => ~~~x
  | .bin op a b => (a.eval env).bind fun x => (b.eval env).bind fun y => op.apply x y

/-- The names of the directives (R85). -/
def directiveNames : List String :=
  [".text", ".data", ".entry", ".crew", ".cluster", ".stages", ".regs", ".shape", ".recipe", ".align", ".line", ".target", ".pair",
   ".byte", ".half", ".word", ".dword", ".equ", ".global"]

/-- A name that a label or a symbol may have: it begins with a letter, `_` or `.`, goes on with letters, digits, `_` and
`.`, and does not start with the name of a directive, in whatever case that is written. -/
def asmName (n : String) : Bool :=
  let first (c : Char) : Bool := c.isAlpha || c == '_' || c == '.'
  (match n.toList with | [] => false | c :: cs => first c && cs.all fun c => first c || c.isDigit) &&
  !directiveNames.any fun d => d.toList.isPrefixOf (n.toList.map Char.toLower)

/-! ### The fields of a written instruction (R82, R83) -/

/-- `(pN)` fills GA and leaves GB at p0; `(pN,pM)` fills both. -/
def asmGuards : List Guard → Option (Guard × Guard)
  | [] => some (⟨false, 0⟩, ⟨false, 0⟩)
  | [a] => some (a, ⟨false, 0⟩)
  | [a, b] => some (a, b)
  | _ => none

/-- An operand with the number of vector registers that it is written with, 0 where its spelling gives none, and whether it is
written in brackets (R60, R83). -/
structure AsmOpd where
  opd     : Opd
  width   : Nat := 0
  bracket : Bool := false
  deriving DecidableEq, Repr

/-- Whether a form writes its A operand in brackets, as the address of an access (R83 and the syntax lines of the chapters). -/
def asmBracketed (op : BitVec 8) : Bool :=
  op == 0x07 || (0x60 ≤ op && op ≤ 0x66) || (0x69 ≤ op && op ≤ 0x6E) || op == 0x80 || (0xB0 ≤ op && op ≤ 0xB8) || op == 0xC5 ||
  (0xC8 ≤ op && op ≤ 0xCB) || (0xD0 ≤ op && op ≤ 0xD5)

/-- Whether classes admit an operand that is written as so many vector registers. -/
def asmWidth (cs : List Cls) (n : Nat) : Bool := n == 0 || cs.contains (.vec n) || (n == 1 && cs.contains .vecDirect)

/-- One field: one that the form does not use is 0, and one that must be None is None; C and E take the token and the keyring where
the form has them, `t0` and None when they are not written; every other field takes the next written operand, or None when none
is left. -/
def asmField (cs : List Cls) (token : Option Opd) (bracket : Bool) (ops : List AsmOpd) : Option (Opd × List AsmOpd) :=
  if cs == [.zero] then some (.vec 0, ops)
  else if cs == [.absent] then some (.absent, ops)
  else
    match token, ops with
    | some o, _ => some (o, ops)
    | none, o :: rest => if asmWidth cs o.width && o.bracket == bracket then some (o.opd, rest) else none
    | none, [] => if cs.contains .absent then some (.absent, []) else none

/-- The fields D, A, B, C and E of a form from its written operands, destination token and keyring; a token or a keyring that the
form does not have is refused. -/
def asmFields (F : Form) (f : Fields) (ops : List AsmOpd) (token ring : Option Opd) : Option Fields :=
  let hasTok := F.c.contains .tok || F.c.contains .tokNot0
  let hasRing := F.e.contains .ring
  if (token.isSome && !hasTok) || (ring.isSome && !hasRing) then none
  else
    (asmField F.d none false ops).bind fun d =>
    (asmField F.a none (asmBracketed F.op) d.2).bind fun a =>
    (asmField F.b none false a.2).bind fun b =>
    (asmField F.c (if hasTok then some (token.getD (.tok 0)) else none) false b.2).bind fun c =>
    (asmField F.e (if hasRing then some (ring.getD .absent) else none) false c.2).bind fun e =>
    if e.2.isEmpty then some { f with d := d.1, a := a.1, b := b.1, c := c.1, e := e.1 } else none

/-! ### Statements (R82, R85) -/

/-- A written operand: one that is no number, vector registers written as `vN`, `vN:N+1` or `vN:N+3`, an expression, one of
whose value, a power of two from 2 to 32, the field holds the logarithm (04 R139), a place, or an address register in brackets. -/
inductive AsmArg
  | opd (o : Opd)
  | vecs (o : Opd) (n : Nat)
  | expr (e : AsmExpr)
  | log2 (e : AsmExpr)
  | place (dx dy : AsmExpr)
  | address (o : Opd) (n : Nat)
  deriving DecidableEq, Repr

/-- A statement. A branch or a call in J format names its target by a label. -/
inductive AsmStmt
  | label (name : String)
  /-- An instruction whose fields are known. -/
  | instr (i : Instr)
  /-- An instruction as it is written: an instruction of its mnemonic, guards and suffixes, its operands, its destination token and
  its keyring. -/
  | written (like : Instr) (args : List AsmArg) (token ring : Option Opd)
  | jump (call : Bool) (ga gb : Guard) (name : String)
  | text
  | data
  | entry (name : String)
  | crew (x y z : AsmExpr)
  | cluster (w h : AsmExpr)
  | stages (s dx dy n : AsmExpr)
  | regs (n : AsmExpr)
  | shape (name : String) (fields : List (String × AsmExpr))
  | recipe (name : String)
  | align (n : AsmExpr)
  | line
  | target
  | pair
  /-- `.byte`, `.half`, `.word` and `.dword`: the size of a value and the values. -/
  | emit (size : Nat) (es : List AsmExpr)
  | equ (name : String) (e : AsmExpr)
  | global (name : String)
  deriving DecidableEq, Repr

/-- Why an assembly fails. -/
inductive AsmError
  /-- A line that is no statement of R82 to R85. -/
  | badStatement (line : Nat)
  | badName (name : String)
  | unknown (name : String)
  | badExpression
  /-- A data directive in `.text`, or an instruction in `.data` (R85). -/
  | wrongSection
  /-- An instruction that 02 R77 makes illegal (R90). -/
  | illegal
  /-- An offset or an immediate that does not fit (R89). -/
  | range
  | badAlign
  /-- `.pair` without two instructions that follow it. -/
  | badPair
  /-- A field of `.shape` that is unknown, named twice or too large (R514). -/
  | badShape
  deriving DecidableEq, Repr

/-- What stands in a slot: an instruction, one as it is written, or a J-format transfer to a label. -/
inductive AsmSlot
  | code (i : Instr)
  | written (like : Instr) (args : List AsmArg) (token ring : Option Opd)
  | jump (call : Bool) (ga gb : Guard) (name : String)
  deriving DecidableEq, Repr

/-- A NOP. -/
def asmNop : Instr := .nop ⟨⟨false, 0⟩, ⟨false, 0⟩, .none, .dflt, .vec 0, .vec 0, .vec 0, .vec 0, .vec 0⟩

/-- Where a symbol stands. -/
inductive AsmPlace
  | slot (k : Nat)
  | byte (k : Nat)
  | value (x : DWord)
  deriving DecidableEq, Repr

/-- What `.data` holds: a value of some bytes, or a shape record (R514). -/
inductive AsmDatum
  | value (size : Nat) (e : AsmExpr)
  | record (fields : List (String × AsmExpr))
  deriving DecidableEq, Repr

/-- Its size in bytes. -/
def AsmDatum.size : AsmDatum → Nat
  | .value n _ => n
  | .record _ => 64

/-- The layout so far. -/
structure AsmLayout where
  /-- The addresses at which the sections start. -/
  textBase : Nat
  dataBase : Nat
  inText  : Bool := true
  slots   : List AsmSlot := []
  /-- The first slots of the pairs (R88), and the slots of `.target`. -/
  pairs   : List Nat := []
  targets : List Nat := []
  /-- The labels that take the slot of the next instruction (R86). -/
  waiting : List String := []
  wantTarget : Bool := false
  /-- How many instructions of a pair are still to come. -/
  pairLeft : Nat := 0
  data    : List AsmDatum := []
  symbols : List (String × AsmPlace) := []
  equs    : List (String × AsmExpr) := []
  /-- Names of `.entry`, `.recipe` and `.global`. -/
  entry   : List String := []
  recipes : List String := []
  exports : List String := []
  crew    : Option (Nat × Nat × Nat) := none
  cluster : Option (Nat × Nat) := none
  stages  : List (Nat × Nat × Nat × Nat) := []
  regs    : Option Nat := none
  deriving DecidableEq, Repr

/-- How many bytes of data are laid out. -/
def AsmLayout.dataSize (l : AsmLayout) : Nat := (l.data.map AsmDatum.size).foldl (· + ·) 0

/-- Pad with NOP slots to the end of the line. -/
def AsmLayout.padLine (l : AsmLayout) : AsmLayout :=
  { l with slots := l.slots ++ List.replicate ((5 - l.slots.length % 5) % 5) (.code asmNop) }

/-- The templates of LW.PAIR, by the first slots of their pairs (R50). -/
def pairTemplates : List (List Nat × Nat) := [([], 0), ([0], 1), ([1], 2), ([2], 3), ([3], 4), ([0, 2], 5), ([1, 3], 6)]

/-- LW.PAIR of the pairs of a line. -/
def pairCode (ps : List Nat) : Option Nat := (pairTemplates.find? fun t => t.1 == ps).map Prod.snd

/-- The pairs of a line, by slot of the line. -/
def AsmLayout.pairsOf (l : AsmLayout) (k : Nat) : List Nat := (l.pairs.filter fun n => n / 5 == k).map (· % 5)

/-- Place an instruction in the next slot; the first of a pair starts a new line when it has to (R86, R88). -/
def AsmLayout.place (l : AsmLayout) (x : AsmSlot) : AsmLayout :=
  let n := l.slots.length
  let fits := n % 5 != 4 && (pairCode (l.pairsOf (n / 5) ++ [n % 5])).isSome
  let l := if l.pairLeft = 2 ∧ !fits then l.padLine else l
  let k := l.slots.length
  { l with
    slots := l.slots ++ [x]
    pairs := if l.pairLeft = 2 then l.pairs ++ [k] else l.pairs
    targets := if l.wantTarget then l.targets ++ [k] else l.targets
    symbols := l.symbols ++ l.waiting.map fun s => (s, .slot k)
    waiting := []
    wantTarget := false
    pairLeft := l.pairLeft - 1 }

/-- A power of two. -/
def isPow2 (n : Nat) : Bool := n != 0 && Nat.land n (n - 1) == 0

/-- The fields of `.shape`, with their place in the record: name, first bit, width (R285, R514). -/
def shapeFields : List (String × Nat × Nat) :=
  [("COLS", 48, 16), ("ROWS", 32, 16), ("OBS", 20, 6), ("REACH", 17, 3), ("SCALED", 16, 1), ("TRANS", 15, 1), ("VAR", 10, 5),
   ("DFMT", 5, 5), ("SFMT", 0, 5), ("DPITCH", 96, 32), ("SPITCH", 64, 32), ("TBASE", 128, 57), ("SBASE", 192, 57),
   ("CSH", 296, 8), ("RSH", 288, 8), ("SPR", 256, 32)]

/-- The record that `.shape` emits. -/
def asmShape (env : List (String × DWord)) (fs : List (String × AsmExpr)) : Option Nat :=
  if (fs.map Prod.fst).eraseDups.length ≠ fs.length then none
  else
    fs.foldl (fun (r : Option Nat) f =>
      r.bind fun r =>
      (shapeFields.find? fun p => p.1 == f.1).bind fun p =>
      (f.2.eval env).bind fun x => if x.toNat < 2 ^ p.2.2 then some (r + x.toNat * 2 ^ p.2.1) else none) (some 0)

/-- The number of a directive's operand: an expression of symbols that `.equ` has defined before it (DEDUCED, log 61). -/
def AsmLayout.number (l : AsmLayout) (e : AsmExpr) : Except AsmError Nat :=
  let env := l.equs.foldl (fun (env : List (String × DWord)) d =>
    match d.2.eval env with | some x => env ++ [(d.1, x)] | none => env) []
  match e.eval env with
  | none => .error .badExpression
  | some x => if 0 ≤ x.toInt then .ok x.toNat else .error .range

/-- Pad to a multiple of n: with bytes of 0, or in the text with lines of NOP. -/
def AsmLayout.padTo (l : AsmLayout) (n : Nat) : AsmLayout :=
  if l.inText then
    let p := l.padLine
    let m := n / 64
    { p with slots := p.slots ++ List.replicate (5 * ((m - (p.textBase / 64 + p.slots.length / 5) % m) % m)) (.code asmNop) }
  else { l with data := l.data ++ List.replicate ((n - (l.dataBase + l.dataSize) % n) % n) (.value 1 (.num 0)) }

/-- Lay a statement out. Between the two instructions of a pair no second `.pair`, no `.line` and no `.align` may stand (DESIGN
CHOICE, log 61). -/
def AsmLayout.stmt (l : AsmLayout) (x : AsmStmt) : Except AsmError AsmLayout :=
  let named (n : String) (r : AsmLayout) : Except AsmError AsmLayout := if asmName n then .ok r else .error (.badName n)
  let inData (r : AsmLayout) : Except AsmError AsmLayout := if l.inText then .error .wrongSection else .ok r
  match x with
  | .label n =>
    named n (if l.inText then { l with waiting := l.waiting ++ [n] } else { l with symbols := l.symbols ++ [(n, .byte l.dataSize)] })
  | .instr i => if !l.inText then .error .wrongSection else if !i.wf then .error .illegal else .ok (l.place (.code i))
  | .written i args t r => if !l.inText then .error .wrongSection else .ok (l.place (.written i args t r))
  | .jump c ga gb n => if !l.inText then .error .wrongSection else .ok (l.place (.jump c ga gb n))
  | .text => .ok { l with inText := true }
  | .data => .ok { l with inText := false }
  | .entry n => .ok { l with entry := l.entry ++ [n] }
  | .crew a b c => do let a ← l.number a; let b ← l.number b; let c ← l.number c; .ok { l with crew := some (a, b, c) }
  | .cluster w h => do let w ← l.number w; let h ← l.number h; .ok { l with cluster := some (w, h) }
  | .stages s dx dy n => do
    let s ← l.number s; let dx ← l.number dx; let dy ← l.number dy; let n ← l.number n
    .ok { l with stages := l.stages ++ [(s, dx, dy, n)] }
  | .regs n => do let n ← l.number n; if n % 8 = 0 ∧ 8 ≤ n ∧ n ≤ 256 then .ok { l with regs := some n } else .error .range
  | .shape n fs =>
    let p := l.padTo 64
    if l.inText then .error .wrongSection
    else if !asmName n then .error (.badName n)
    else
      .ok { p with
        symbols := p.symbols ++ [(n, .byte p.dataSize)]
        data := p.data ++ [.record fs] }
  | .recipe n => .ok { l with recipes := l.recipes ++ [n] }
  | .align n => do
    let n ← l.number n
    if !isPow2 n || (l.inText && n < 64) then .error .badAlign
    else if l.inText && l.pairLeft = 1 then .error .badPair
    else .ok (l.padTo n)
  | .line => if l.pairLeft = 1 then .error .badPair else .ok l.padLine
  | .target => .ok { l with wantTarget := true }
  | .pair => if l.pairLeft ≠ 0 then .error .badPair else .ok { l with pairLeft := 2 }
  | .emit size es => inData { l with data := l.data ++ es.map fun e => .value size e }
  | .equ n e => named n { l with equs := l.equs ++ [(n, e)] }
  | .global n => .ok { l with exports := l.exports ++ [n] }

/-! ### The image (R85-R90) -/

/-- An assembled image. -/
structure AsmImage where
  text    : List LineBits
  data    : List Byte
  symbols : List (String × DWord)
  entry   : Option DWord
  recipes : List DWord
  exports : List (String × DWord)
  crew    : Option (Nat × Nat × Nat)
  cluster : Option (Nat × Nat)
  stages  : List (Nat × Nat × Nat × Nat)
  regs    : Option Nat
  deriving DecidableEq, Repr

/-- The address of slot k of the text (R48). -/
def AsmLayout.slotAddr (l : AsmLayout) (k : Nat) : Nat := l.textBase + 64 * (k / 5) + 12 * (k % 5)

/-- The value of a symbol. -/
def AsmLayout.value (l : AsmLayout) : AsmPlace → DWord
  | .slot k => BitVec.ofNat 64 (l.slotAddr k)
  | .byte k => BitVec.ofNat 64 (l.dataBase + k)
  | .value x => x

/-- The labels, and the symbols of `.equ` in order. -/
def AsmLayout.env (l : AsmLayout) : Option (List (String × DWord)) :=
  l.equs.foldl (fun (env : Option (List (String × DWord))) d =>
    env.bind fun env => (d.2.eval env).map fun x => env ++ [(d.1, x)]) (some (l.symbols.map fun p => (p.1, l.value p.2)))

/-- The slot of a label of the text; of a label that is defined twice, its first place (DESIGN CHOICE, log 61). -/
def AsmLayout.slotOf (l : AsmLayout) (n : String) : Option Nat :=
  (l.symbols.find? fun p => p.1 == n).bind fun p => match p.2 with | .slot k => some k | _ => none

/-- Whether a label stands on slot k. -/
def AsmLayout.labelled (l : AsmLayout) (k : Nat) : Bool := l.symbols.any fun p => p.2 == .slot k

/-- The slot of the text that a transfer in slot j, of known fields, goes to. -/
def jumpSlot (j : Nat) : Instr → Option Nat
  | .bra f | .call f => some ((((j / 5 : Nat) : Int) + f.off.toInt) * 5 + f.slot.val).toNat
  | _ => none

/-- Whether a transfer may enter slot k (R87). -/
def AsmLayout.entered (l : AsmLayout) (k : Nat) : Bool :=
  l.targets.contains k ||
  ((l.slots.zip (List.range l.slots.length)).any fun x =>
    match x.1 with
    | .jump _ _ _ n => l.slotOf n == some k
    | .code i => jumpSlot x.2 i == some k && l.labelled k
    | _ => false) ||
  (l.entry ++ l.recipes ++ l.exports).any fun n => l.slotOf n == some k

/-- The value of an immediate of a field of some bits, which is signed (R66, R89). -/
def asmImm (env : List (String × DWord)) (bits : Nat) (e : AsmExpr) : Except AsmError Int :=
  match e.eval env with
  | none => .error .badExpression
  | some x => if -(2 ^ (bits - 1) : Int) ≤ x.toInt ∧ x.toInt < 2 ^ (bits - 1) then .ok x.toInt else .error .range

/-- A written operand of a register form; a place holds dy above dx (R58). -/
def AsmArg.toOpd (env : List (String × DWord)) : AsmArg → Except AsmError AsmOpd
  | .opd o => .ok { opd := o }
  | .vecs o n => .ok { opd := o, width := n }
  | .address o n => .ok { opd := o, width := n, bracket := true }
  | .expr e => (asmImm env 9 e).map fun x => { opd := .imm (BitVec.ofInt 9 x) }
  | .log2 e =>
    match e.eval env with
    | none => .error .badExpression
    | some x =>
      match [1, 2, 3, 4, 5].find? fun k => x.toNat == 2 ^ k with
      | some k => .ok { opd := .imm (BitVec.ofNat 9 k) }
      | none => .error .range
  | .place dx dy => do
    let x ← asmImm env 4 dx
    let y ← asmImm env 4 dy
    .ok { opd := .imm ((0 : BitVec 1) ++ BitVec.ofInt 4 y ++ BitVec.ofInt 4 x) }

/-- The 36-bit immediate of an instruction: MOVI reads it signed for `.SI32` and `.SI64`, in either way for `.B32`, and unsigned for
its other types, as TRAP and WDOG do (05 R184; 04 R142, R143). -/
def asmImm36 (env : List (String × DWord)) (f : FieldsI) (e : AsmExpr) : Except AsmError FieldsI :=
  match e.eval env with
  | none => .error .badExpression
  | some x =>
    let signed := decide (-(2 ^ 35 : Int) ≤ x.toInt ∧ x.toInt < 2 ^ 35)
    let unsigned := decide (x.toNat < 2 ^ 36)
    let fits := match f.ty with | .si32 | .si64 => signed | .b32 => signed || unsigned | _ => unsigned
    if fits then .ok { f with imm := x.setWidth 36 } else .error .range

/-- The fields of a written instruction: in the 36-bit format the last operand is the immediate (R70, R83). -/
def asmBody (env : List (String × DWord)) (F : Form) (args : List AsmArg) (token ring : Option Opd) : Except AsmError Body :=
  match F.body with
  | .regs f =>
    (args.mapM (AsmArg.toOpd env)).bind fun ops =>
      match asmFields F f ops token ring with
      | some f => .ok (.regs f)
      | none => .error .illegal
  | .imm36 f =>
    if token.isSome || ring.isSome then .error .illegal
    else
      match args, F.d == [.zero] with
      | [.expr e], true => (asmImm36 env f e).map .imm36
      | [.opd o, .expr e], false => (asmImm36 env { f with d := o } e).map .imm36
      | [.vecs o n, .expr e], false => if asmWidth F.d n then (asmImm36 env { f with d := o } e).map .imm36 else .error .illegal
      | _, _ => .error .illegal
  | .jump _ => .error .illegal

/-- A written instruction: its form with the written fields, which must be legal (R90). -/
def asmWritten (env : List (String × DWord)) (like : Instr) (args : List AsmArg) (token ring : Option Opd) : Except AsmError Instr :=
  match like.form with
  | none => .error .illegal
  | some F =>
    (asmBody env F args token ring).bind fun b =>
      match decode ({ F with body := b } : Form).toRaw.toSlot with
      | some i => .ok i
      | none => .error .illegal

/-- The instruction in slot k: a transfer takes the line offset and the slot of its target (R89). -/
def AsmLayout.instrAt (l : AsmLayout) (env : List (String × DWord)) (k : Nat) : Except AsmError Instr :=
  match l.slots[k]? with
  | none => .ok asmNop
  | some (.code i) => .ok i
  | some (.written i args t r) => asmWritten env i args t r
  | some (.jump c ga gb n) =>
    match l.slotOf n with
    | none => .error (.unknown n)
    | some t =>
      let d : Int := (t / 5 : Nat) - (k / 5 : Nat)
      if -(2 ^ 32) ≤ d ∧ d < 2 ^ 32 then
        let f : FieldsJ := ⟨ga, gb, BitVec.ofInt 33 d, ⟨t % 5, Nat.mod_lt t (by decide)⟩⟩
        .ok (if c then .call f else .bra f)
      else .error .range

/-- The line word (R50, R86): LW.TGT, LW.PAIR, LW.SPAR and LW.LPAR. -/
def asmLineWord (slots : List Slot) (tgt : List Bool) (pair : Nat) : Nat :=
  let parity (w : Slot) : Bool := onesNat 96 w.toNat % 2 == 1
  let word := bitsOf tgt * 2 ^ 27 + pair * 2 ^ 24 + bitsOf (slots.map parity) * 2 ^ 19
  word + onesNat 32 word % 2 * 2 ^ 18

/-- Line k of the text. -/
def AsmLayout.lineAt (l : AsmLayout) (env : List (String × DWord)) (k : Nat) : Except AsmError LineBits :=
  match (List.range 5).mapM fun n => l.instrAt env (5 * k + n), pairCode (l.pairsOf k) with
  | .error e, _ => .error e
  | .ok _, none => .error .badPair
  | .ok is, some p =>
    match is.mapM encode with
    | none => .error .illegal
    | some ws =>
      let body := (ws.zip (List.range 5)).foldl (fun (x : Nat) w => x + w.1.toNat * 2 ^ (96 * w.2)) 0
      .ok (BitVec.ofNat 512 (body + 2 ^ 480 * asmLineWord ws ((List.range 5).map fun n => l.entered (5 * k + n)) p))

/-- The bytes of a datum: a value fits its size unsigned or signed (R89). -/
def AsmDatum.bytes (env : List (String × DWord)) : AsmDatum → Except AsmError (List Byte)
  | .value n e =>
    match e.eval env with
    | none => .error .badExpression
    | some x =>
      if x.toNat < 2 ^ (8 * n) ∨ (-(2 ^ (8 * n - 1) : Int) ≤ x.toInt ∧ x.toInt < 0) then .ok (leBytes n (x.toNat % 2 ^ (8 * n)))
      else .error .range
  | .record fs =>
    match asmShape env fs with
    | some r => .ok (leBytes 64 r)
    | none => .error .badShape

/-- The names that directives list, with their addresses. -/
def namesAt (env : List (String × DWord)) (ns : List String) : Except AsmError (List (String × DWord)) :=
  ns.mapM fun n => match env.find? fun p => p.1 == n with | some p => .ok p | none => .error (.unknown n)

/-- Assemble statements, with the text at a multiple of 64. A label behind the last instruction stands on the slot that follows it,
and of several launch entries the last is recorded (DESIGN CHOICE, log 61). -/
def assemble (textBase dataBase : Nat) (xs : List AsmStmt) : Except AsmError AsmImage :=
  let l0 : AsmLayout := { textBase := textBase, dataBase := dataBase }
  match xs.foldlM AsmLayout.stmt l0 with
  | .error e => .error e
  | .ok l =>
    if textBase % 64 ≠ 0 then .error .badAlign
    else if l.pairLeft ≠ 0 then .error .badPair
    else
      let l : AsmLayout := { l with symbols := l.symbols ++ l.waiting.map fun s => (s, .slot l.slots.length), waiting := [] }
      match l.env with
      | none => .error .badExpression
      | some env =>
        match (List.range ((l.slots.length + 4) / 5)).mapM (l.lineAt env), l.data.mapM (AsmDatum.bytes env), namesAt env l.entry,
            namesAt env l.recipes, namesAt env l.exports with
        | .ok text, .ok data, .ok entry, .ok recipes, .ok exports =>
          .ok
            { text, data := data.flatten, symbols := env, entry := (entry.map Prod.snd).getLast?, recipes := recipes.map Prod.snd, exports
              crew := l.crew, cluster := l.cluster, stages := l.stages, regs := l.regs }
        | .error e, _, _, _, _ | _, .error e, _, _, _ | _, _, .error e, _, _ | _, _, _, .error e, _ | _, _, _, _, .error e => .error e

end Sys2Proof.Machine
end

