-- ==== Sys2Proof/Machine/AsmText.lean ====
section
/-! DEFINITION. The text that `mbas` reads (02 R81-R85): the words of a line, expressions, operands, guards, suffixes and directives,
and the mnemonics with the suffix groups of their chapters. A source becomes the statements of Machine/Assembler.lean. No step of
the machine uses this file. -/

namespace Sys2Proof.Machine

/-! ### Words (R81) -/

/-- A piece of a line: a word, a number, a mark of one character, or a shift. -/
inductive AsmTok
  | word (cs : List Char)
  | num (x : DWord)
  | mark (c : Char)
  | shl
  | shr
  deriving DecidableEq, Repr

/-- A word in lower case, as mnemonics, suffixes, register names and directives are compared. -/
def asmLower (cs : List Char) : String := String.ofList (cs.map Char.toLower)

/-- The value of a digit below a base. -/
def asmDigit (base : Nat) (c : Char) : Option Nat :=
  let c := c.toLower
  let v := if c.isDigit then some (c.toNat - '0'.toNat) else if 'a' ≤ c ∧ c ≤ 'f' then some (c.toNat - 'a'.toNat + 10) else none
  v.bind fun v => if v < base then some v else none

/-- A number in a base: digits, with `_` only between two of them. -/
def asmDigits (base : Nat) (cs : List Char) : Option Nat :=
  let r := cs.foldl (fun (r : Option (Nat × Bool)) c =>
    r.bind fun r => if c == '_' then (if r.2 then some (r.1, false) else none) else (asmDigit base c).map fun v => (r.1 * base + v, true))
    (some (0, false))
  r.bind fun r => if r.2 then some r.1 else none

/-- A written number: decimal, `0x` hexadecimal or `0b` binary, of at most 64 bits. -/
def asmNumber (cs : List Char) : Option DWord :=
  let n := match cs.map Char.toLower with
    | '0' :: 'x' :: ds => asmDigits 16 ds
    | '0' :: 'b' :: ds => asmDigits 2 ds
    | ds => asmDigits 10 ds
  n.bind fun n => if n < 2 ^ 64 then some (BitVec.ofNat 64 n) else none

/-- A run of letters, digits, `_` and `.` as a number or a word. -/
def asmRun (cs : List Char) : Option AsmTok :=
  match cs with
  | c :: _ => if c.isDigit then (asmNumber cs).map .num else some (.word cs)
  | [] => none

/-- What has been read of a line: its words, the last first, the run that is being read, the last character first, whether the last
character was a mark, and whether the comment has begun. -/
structure AsmScan where
  toks : List AsmTok := []
  run  : List Char := []
  mark : Bool := false
  done : Bool := false

/-- The run ends. -/
def AsmScan.flush (s : AsmScan) : Option AsmScan :=
  if s.run.isEmpty then some { s with mark := false }
  else (asmRun s.run.reverse).map fun t => { s with toks := t :: s.toks, run := [], mark := false }

/-- Read a character; two `<` or two `>` side by side are one shift. -/
def AsmScan.char (s : AsmScan) (c : Char) : Option AsmScan :=
  if s.done then some s
  else if c.isAlphanum || c == '_' || c == '.' then some { s with run := c :: s.run, mark := false }
  else if c == ';' then s.flush.map fun s => { s with done := true }
  else if c == ' ' || c == '\t' || c == '\r' then s.flush
  else
    match s.toks, s.mark, c with
    | .mark '<' :: ts, true, '<' => some { s with toks := .shl :: ts, mark := false }
    | .mark '>' :: ts, true, '>' => some { s with toks := .shr :: ts, mark := false }
    | _, _, _ => s.flush.map fun s => { s with toks := .mark c :: s.toks, mark := true }

/-- The words of a line. -/
def asmWords (line : List Char) : Option (List AsmTok) :=
  ((line.foldl (fun (s : Option AsmScan) c => s.bind (·.char c)) (some {})).bind AsmScan.flush).map fun s => s.toks.reverse

/-- The lines of a source. -/
def asmLines (src : List Char) : List (List Char) :=
  src.foldr (fun c ls => if c == '\n' then [] :: ls else match ls with | l :: ls => (c :: l) :: ls | [] => [[c]]) [[]]

/-! ### Expressions (R81) -/

/-- An operator, and how strongly it binds: the usual precedence. -/
def asmOperator : AsmTok → Option (Nat × AsmOp)
  | .mark '*' => some (6, .mul)
  | .mark '/' => some (6, .div)
  | .mark '%' => some (6, .rem)
  | .mark '+' => some (5, .add)
  | .mark '-' => some (5, .sub)
  | .shl => some (4, .shl)
  | .shr => some (4, .shr)
  | .mark '&' => some (3, .and)
  | .mark '^' => some (2, .xor)
  | .mark '|' => some (1, .or)
  | _ => none

/-- What stands at the start of the words as an expression of operators that bind at least as strongly as level k, and the words
behind it; `left` is an operand of level k that has been read. -/
def asmParse : Nat → Nat → Option AsmExpr → List AsmTok → Option (AsmExpr × List AsmTok)
  | 0, _, _, _ => none
  | n + 1, k, none, ts =>
    if k ≤ 6 then (asmParse n (k + 1) none ts).bind fun x => asmParse n k (some x.1) x.2
    else
      match ts with
      | .num x :: r => some (.num x, r)
      | .word w :: r => some (.sym (String.ofList w), r)
      | .mark '-' :: r => (asmParse n 7 none r).map fun x => (.neg x.1, x.2)
      | .mark '+' :: r => asmParse n 7 none r
      | .mark '~' :: r => (asmParse n 7 none r).map fun x => (.not x.1, x.2)
      | .mark '(' :: r => (asmParse n 1 none r).bind fun x => match x.2 with | .mark ')' :: r => some (x.1, r) | _ => none
      | _ => none
  | n + 1, k, some left, ts =>
    match ts with
    | t :: r =>
      match asmOperator t with
      | some (j, op) =>
        if j = k then (asmParse n (k + 1) none r).bind fun x => asmParse n k (some (.bin op left x.1)) x.2 else some (left, ts)
      | none => some (left, ts)
    | [] => some (left, ts)

/-- The expression at the start of the words. -/
def asmExpr (ts : List AsmTok) : Option (AsmExpr × List AsmTok) := asmParse (16 * (ts.length + 1)) 1 none ts

/-- Expressions between commas, to the end of the line. -/
def asmExprs : Nat → List AsmTok → Option (List AsmExpr)
  | 0, _ => none
  | n + 1, ts =>
    (asmExpr ts).bind fun x =>
    match x.2 with
    | [] => some [x.1]
    | .mark ',' :: r => (asmExprs n r).map fun xs => x.1 :: xs
    | _ => none

/-! ### Registers (R68, R83) -/

/-- The number in a register's name, which has no leading zero. -/
def asmIndex (ds : List Char) : Option Nat :=
  if ds.all Char.isDigit && (ds.length == 1 || ds.head? != some '0') then asmDigits 10 ds else none

/-- A register by its name (R68). -/
def asmReg (w : List Char) : Option Opd :=
  let upTo (n : Nat) (ds : List Char) (f : Nat → Opd) : Option Opd := (asmIndex ds).bind fun k => if k < n then some (f k) else none
  match w.map Char.toLower with
  | 'v' :: ds => upTo 256 ds fun k => .vec (BitVec.ofNat 8 k)
  | 's' :: ds => upTo 64 ds fun k => .uni (BitVec.ofNat 6 k)
  | 'p' :: ds => upTo 8 ds fun k => .pred (BitVec.ofNat 3 k)
  | 't' :: ds => upTo 32 ds fun k => .tok (BitVec.ofNat 5 k)
  | 'a' :: ds => upTo 16 ds fun k => .tile .a (BitVec.ofNat 6 k)
  | 'q' :: ds => upTo 64 ds fun k => .tile .q (BitVec.ofNat 6 k)
  | 'h' :: ds => upTo 16 ds fun k => .tile .h (BitVec.ofNat 6 k)
  | 'b' :: ds => upTo 32 ds fun k => .tile .b (BitVec.ofNat 6 k)
  | _ => none

/-- The register at the start of the words: `v4`, `v4:5`, `v8:11`, `v(i2+5)` or one of another class. -/
def asmRegister (ts : List AsmTok) : Option (AsmArg × List AsmTok) :=
  match ts with
  | .word v :: .mark '(' :: .word i :: r =>
    match asmLower v == "v", i.map Char.toLower with
    | true, 'i' :: ds =>
      (asmIndex ds).bind fun k =>
      let ind (o : Nat) : Option AsmArg := if k < 4 ∧ o < 64 then some (.opd (.vecInd (BitVec.ofNat 2 k) (BitVec.ofNat 6 o))) else none
      match r with
      | .mark '+' :: .num o :: .mark ')' :: r => (ind o.toNat).map fun a => (a, r)
      | .mark ')' :: r => (ind 0).map fun a => (a, r)
      | _ => none
    | _, _ => none
  | .word w :: r =>
    match asmReg w, r with
    | some (.vec a), .mark ':' :: .num m :: r =>
      if m.toNat = a.toNat + 1 then some (.vecs (.vec a) 2, r) else if m.toNat = a.toNat + 3 then some (.vecs (.vec a) 4, r) else none
    | some (.vec a), r => some (.vecs (.vec a) 1, r)
    | some o, r => some (.opd o, r)
    | none, _ => none
  | _ => none

/-- The names of the special registers (R69, R70 and the register map of each chapter). -/
def specialNames : List (String × Nat) :=
  [("lane", 0x000), ("warp", 0x001), ("tid", 0x002), ("tid.x", 0x003), ("tid.y", 0x004), ("tid.z", 0x005), ("crew", 0x006),
   ("cluster", 0x007), ("stage", 0x008), ("cyc", 0x009), ("die", 0x00A), ("core", 0x00B), ("tstat", 0x010), ("tctl", 0x011),
   ("tfile", 0x012), ("part", 0x013), ("wdog", 0x014), ("wdevt", 0x015), ("active", 0x016), ("csp", 0x017), ("pc", 0x018),
   ("fflags", 0x080), ("fenv", 0x081), ("nbv", 0x082), ("argp", 0x0A0), ("lbase", 0x0A1), ("lsize", 0x0A2), ("fchevt", 0x0B0)] ++
  [("cpevt", 0x0C0), ("wardcnt", 0x0C1), ("hvalid", 0x0C2), ("mxevt", 0x0D0), ("mxq", 0x0D1), ("endp", 0x0E0), ("fabevt", 0x0E1),
   ("fport", 0x0E2), ("fpost", 0x0E3), ("taskid", 0x100), ("tbeq", 0x101), ("rcdepth", 0x110), ("rcinfo", 0x111), ("rcevt", 0x112),
   ("asid", 0x120), ("xlctl", 0x121), ("xlwp", 0x122), ("xlrp", 0x123), ("xlevt", 0x124), ("xlbase", 0x125), ("hmctl", 0x140),
   ("hmevt", 0x141), ("salvlog", 0x142), ("hbmup", 0x143), ("tcause", 0x150), ("tpc", 0x151), ("taddr", 0x152), ("tmode", 0x153),
   ("tscr0", 0x154), ("tscr1", 0x155), ("thold", 0x156), ("thandler", 0x157), ("pctl", 0x158), ("ctxarea", 0x159)]

/-- A special register by its name, the numbered ones among them. -/
def asmSpecial (w : List Char) : Option Nat :=
  let numbered := [("join", 0x020, 8), ("bar", 0x040, 32), ("i", 0x00C, 4)].findSome? fun (x : String × Nat × Nat) =>
    let l := x.1.toList
    let w := w.map Char.toLower
    if l.isPrefixOf w then (asmIndex (w.drop l.length)).bind fun k => if k < x.2.2 then some (x.2.1 + k) else none else none
  match specialNames.find? fun x => x.1 == asmLower w with
  | some x => some x.2
  | none => numbered

/-! ### Suffixes (R84) -/

/-- A group of suffixes, each with the bits that it sets in MD, and the bits that the group has when it is not written. -/
structure AsmGroup where
  options : List (String × Nat)
  default : Option Nat
  deriving DecidableEq, Repr

/-- A group whose options count up from 0 at a bit of MD. -/
def asmCodes (pos : Nat) (names : List String) (default : Option Nat := none) : AsmGroup :=
  ⟨(names.zip (List.range names.length)).map fun x => (x.1, x.2 * 2 ^ pos), default.map fun v => v * 2 ^ pos⟩

/-- A group of one suffix that sets a bit of MD. -/
def asmFlag (pos : Nat) (name : String) : AsmGroup := ⟨[(name, 2 ^ pos)], some 0⟩

/-- What a group is given by the suffixes of a statement: at most one of them may be its own. -/
def asmPick {α : Type} (read : String → Option α) (default : Option α) (ss : List String) : Option α :=
  match ss.filterMap read with
  | [] => default
  | [v] => some v
  | _ => none

/-- The bits of one suffix of a group. -/
def AsmGroup.read (g : AsmGroup) (s : String) : Option Nat := (g.options.find? fun x => x.1 == s).map Prod.snd

/-- The type of a suffix (R72). -/
def asmType (s : String) : Option Ty :=
  (([("ui8", .ui8), ("si8", .si8), ("ui16", .ui16), ("si16", .si16), ("ui32", .ui32), ("si32", .si32), ("ui64", .ui64), ("si64", .si64),
     ("b32", .b32), ("b64", .b64), ("b128", .b128), ("f16", .f16), ("bf16", .bf16), ("f32", .f32), ("f64", .f64)] ++
    [("f16x2", .f16x2), ("bf16x2", .bf16x2), ("ui8x4", .ui8x4), ("si8x4", .si8x4), ("ui16x2", .ui16x2), ("si16x2", .si16x2),
     ("e8", .e8), ("e8x4", .e8x4), ("sc24", .sc24), ("acc40", .acc40), ("ia40", .ia40), ("b8", .b8), ("b16", .b16)]
    : List (String × Ty)).find? fun x => x.1 == s).map Prod.snd

/-- The cache hint of a suffix (R73). -/
def asmHint (s : String) : Option Hint :=
  (([("near", .near), ("far", .far), ("once", .once), ("last", .last), ("byp", .byp), ("stay", .stay)]
    : List (String × Hint)).find? fun x => x.1 == s).map Prod.snd

/-- The reach of a suffix (03 R95). -/
def asmReach (s : String) : Option Reach :=
  (([("crew", .crew), ("cluster", .cluster), ("device", .device), ("pod", .pod), ("system", .system)]
    : List (String × Reach)).find? fun x => x.1 == s).map Prod.snd

/-- A mask of letters in the order L, C, M, F, H, I, from a bit on. -/
def asmMask : List Char → Nat → List Char → Option Nat
  | [], _, cs => if cs.isEmpty then some 0 else none
  | l :: ls, bit, cs =>
    match cs with
    | c :: rest => if c = l then (asmMask ls (2 * bit) rest).map fun m => m + bit else asmMask ls (2 * bit) cs
    | [] => some 0

/-- The observer mask of a suffix `.OBS_` (03 R97, R98). -/
def asmObs (s : String) : Option (BitVec 6) :=
  match s.toList with
  | 'o' :: 'b' :: 's' :: '_' :: c :: cs => (asmMask ['l', 'c', 'm', 'f', 'h', 'i'] 1 (c :: cs)).map (BitVec.ofNat 6)
  | _ => none

/-! ### Mnemonics (R76) -/

/-- Where a form holds an order descriptor: nowhere, in A, in B, or in B in place of an offset once it is strong (07 R224, R225). -/
inductive AsmDesc | none | inA | inB | strong
  deriving DecidableEq, Repr

/-- How a mnemonic is written: OP and FN, its suffix groups, the type that it has when none is written, whether it takes a cache
hint, its order descriptor, whether `[A]` may carry an offset, and whether a place follows its registers. -/
structure AsmMnemonic where
  name   : String
  op     : BitVec 8
  fn     : BitVec 6 := 0
  groups : List AsmGroup := []
  type   : Ty := .none
  /-- The type is taken from the register operand (04 R165). -/
  typeOfOpd : Bool := false
  desc   : AsmDesc := .none
  offset : Bool := false
  place  : Bool := false
  /-- Its number is written out and encoded as a logarithm (04 R139). -/
  log2   : Bool := false
  deriving DecidableEq, Repr

/-- The reaches of the forms that carry one in MD (04 R124). -/
def asmReachGroup : AsmGroup := asmCodes 0 ["crew", "cluster", "device", "pod", "system"] (some 2)
/-- `.POD` and `.SYSTEM` of the FAB forms (12 R347). -/
def asmPodGroup (pos : Nat) : AsmGroup := asmCodes pos ["pod", "system"] (some 0)
/-- Strengths (03 R98). -/
def asmStrength (pos : Nat) : AsmGroup := ⟨[("acq", 2 ^ pos), ("rel", 2 * 2 ^ pos), ("ar", 3 * 2 ^ pos)], some 0⟩
/-- `.ACQ` and `.REL` alone (07 R224; 12 R346). -/
def asmAcq (pos : Nat) : AsmGroup := ⟨[("acq", 2 ^ pos)], some 0⟩
def asmRel (pos : Nat) : AsmGroup := ⟨[("rel", 2 * 2 ^ pos)], some 0⟩
/-- The rounding modes (06 R197). -/
def asmRm (default : Nat := 0) : AsmGroup := asmCodes 0 ["rne", "rz", "ru", "rd", "dyn"] (some default)
/-- The binary8 variant (06 R194). -/
def asmVariant : List AsmGroup :=
  [⟨[("p1", 1), ("p2", 2), ("p3", 3), ("p4", 4), ("p5", 5), ("p6", 6), ("p7", 7)], some 0⟩, asmFlag 3 "u", asmFlag 4 "fin"]
/-- How two predicates combine (05 R172, 06 R209). -/
def asmBop (pos : Nat) : AsmGroup := asmCodes pos ["and", "or", "xor"] (some 0)
/-- The operations of the atomics (07 R241). -/
def asmAtomOp : AsmGroup := asmCodes 0 ["add", "min", "max", "and", "or", "xor", "exch", "cas"]
/-- The operations of FOLDX and SCANX (08 R254). -/
def asmFoldOp : AsmGroup := asmCodes 0 ["add", "min", "max", "and", "or", "xor"]
/-- The reduce suffixes (10 R292; 11 R314). -/
def asmReduce (default : Option Nat) : AsmGroup := ⟨[("radd", 16), ("rmin", 32), ("rmax", 48)], default⟩
/-- Tile dimensions (11 R314). -/
def asmDims : List AsmGroup := [asmCodes 0 ["m16", "m32", "m64"], asmCodes 2 ["n16", "n32", "n64"]]
/-- The modes of TLBSD and TLBINV (16 R465). -/
def asmTlbMode : AsmGroup := asmCodes 0 ["va", "asid", "all"]

/-- SEQ (04 R124); BRA and CALL are read by themselves. -/
def asmSeq : List AsmMnemonic :=
  [{ name := "nop", op := 0x00 }, { name := "yield", op := 0x00, fn := 1 }, { name := "exit", op := 0x00, fn := 2 },
   { name := "brk", op := 0x00, fn := 3 }, { name := "trap", op := 0x00, fn := 4 }, { name := "rtt", op := 0x00, fn := 5 },
   { name := "elect", op := 0x00, fn := 6 }, { name := "wdog", op := 0x00, fn := 7, groups := [asmFlag 0 "trap"] },
   { name := "brx", op := 0x02 }, { name := "callx", op := 0x02, fn := 1 }, { name := "ret", op := 0x02, fn := 2 },
   { name := "jset", op := 0x03 }, { name := "jwait", op := 0x03, fn := 1 }, { name := "bara", op := 0x04 },
   { name := "barw", op := 0x04, fn := 1 }, { name := "bars", op := 0x04, fn := 2 }, { name := "part", op := 0x05, log2 := true }] ++
  [{ name := "sleep", op := 0x06, groups := [asmFlag 0 "any"] }, { name := "ttest", op := 0x06, fn := 1, groups := [asmFlag 0 "any"] },
   { name := "tstat", op := 0x06, fn := 2, type := .b64 }, { name := "tfree", op := 0x06, fn := 3 },
   { name := "tsig", op := 0x06, fn := 4, groups := [asmCodes 0 ["arm", "done", "poison"]] },
   { name := "texport", op := 0x07, groups := [asmReachGroup, asmFlag 3 "peer"], offset := true },
   { name := "pbinit", op := 0x07, fn := 1, groups := [asmReachGroup], offset := true },
   { name := "pbarrive", op := 0x07, fn := 2, groups := [asmReachGroup, asmFlag 3 "peer", asmFlag 4 "poison"], offset := true },
   { name := "pbwait", op := 0x07, fn := 3, groups := [asmReachGroup], offset := true },
   { name := "getsr", op := 0x08, typeOfOpd := true }, { name := "setsr", op := 0x08, fn := 1, typeOfOpd := true }]

/-- INT (05 R172). -/
def asmInt : List AsmMnemonic :=
  [{ name := "iadd", op := 0x10, groups := [asmFlag 0 "sat"] }, { name := "isub", op := 0x10, fn := 1, groups := [asmFlag 0 "sat"] },
   { name := "iaddx", op := 0x10, fn := 2, groups := [asmFlag 0 "sub"] }, { name := "imul", op := 0x11 },
   { name := "imulh", op := 0x11, fn := 1 }, { name := "imad", op := 0x11, fn := 2 }, { name := "imadw", op := 0x11, fn := 3 },
   { name := "idiv", op := 0x12, groups := [asmFlag 0 "trap"] }, { name := "irem", op := 0x12, fn := 1, groups := [asmFlag 0 "trap"] },
   { name := "imin", op := 0x13 }, { name := "imax", op := 0x13, fn := 1 }, { name := "iabs", op := 0x13, fn := 2, groups := [asmFlag 0 "sat"] },
   { name := "btab", op := 0x14 }, { name := "shl", op := 0x15 }, { name := "shr", op := 0x15, fn := 1 }, { name := "sar", op := 0x15, fn := 2 },
   { name := "rot", op := 0x15, fn := 3 }, { name := "shf", op := 0x15, fn := 4, groups := [asmCodes 0 ["l", "r"] (some 0)] }] ++
  [{ name := "bfe", op := 0x16 }, { name := "bfi", op := 0x16, fn := 1 }, { name := "popc", op := 0x17 }, { name := "clz", op := 0x17, fn := 1 },
   { name := "brev", op := 0x17, fn := 2 },
   { name := "isetp", op := 0x18, groups := [asmCodes 0 ["eq", "ne", "lt", "le", "gt", "ge"], asmBop 3] },
   { name := "sel", op := 0x18, fn := 1 }, { name := "mov", op := 0x19 }, { name := "movi", op := 0x1A, groups := [asmFlag 0 "hi"] },
   { name := "lea", op := 0x1B }, { name := "padd", op := 0x1C, groups := [⟨[("sat", 1), ("satu", 2)], some 0⟩] },
   { name := "psub", op := 0x1C, fn := 1, groups := [⟨[("sat", 1), ("satu", 2)], some 0⟩] }, { name := "pmax", op := 0x1C, fn := 2 },
   { name := "pmin", op := 0x1C, fn := 3 }, { name := "pacs", op := 0x1D, groups := [asmFlag 0 "max"] },
   { name := "cellkey", op := 0x1E, groups := [asmFlag 0 "wrap"] }]

/-- FLT (06 R209). -/
def asmFlt : List AsmMnemonic :=
  [{ name := "fadd", op := 0x30, groups := [asmRm] }, { name := "fmul", op := 0x30, fn := 1, groups := [asmRm] },
   { name := "ffma", op := 0x30, fn := 2, groups := [asmRm] }, { name := "fmin", op := 0x31, groups := [asmFlag 0 "nan"] },
   { name := "fmax", op := 0x31, fn := 1, groups := [asmFlag 0 "nan"] },
   { name := "fsetp", op := 0x32, groups := [asmCodes 0 ["eq", "ne", "lt", "le", "gt", "ge", "num", "nan"], asmFlag 3 "u", asmBop 4] },
   { name := "hfma2", op := 0x33, groups := [asmRm] }, { name := "fdiv", op := 0x34, groups := [asmRm] },
   { name := "fsqrt", op := 0x34, fn := 1, groups := [asmRm] }, { name := "rcp", op := 0x35, groups := [asmRm] },
   { name := "rsq", op := 0x35, fn := 1, groups := [asmRm] }, { name := "exp2", op := 0x35, fn := 2, groups := [asmRm] },
   { name := "log2", op := 0x35, fn := 3, groups := [asmRm] }, { name := "sin", op := 0x35, fn := 4, groups := [asmRm] },
   { name := "cos", op := 0x35, fn := 5, groups := [asmRm] }] ++
  let from8 := asmCodes 3 ["from_f16", "from_bf16", "from_f32", "from_f64", "from_sc24", "from_acc40", "from_f16h", "from_bf16h"]
  [{ name := "frnd", op := 0x36, groups := [asmRm] }, { name := "fclass", op := 0x36, fn := 1 },
   { name := "fscale", op := 0x36, fn := 2, groups := [asmRm] }, { name := "fgetexp", op := 0x36, fn := 3 },
   { name := "cvt", op := 0x37, groups := [asmRm, from8] }, { name := "cvti", op := 0x37, fn := 1, groups := [asmRm 1, from8] },
   { name := "cvtf", op := 0x37, fn := 2, groups := [asmRm, asmCodes 3 ["from_ui32", "from_si32", "from_ui64", "from_si64"]] },
   { name := "cvt8", op := 0x37, fn := 3, groups := asmVariant ++ [asmFlag 5 "wide"] },
   { name := "fflags", op := 0x38 }, { name := "fenv", op := 0x38, fn := 1 }]

/-- XBR (08 R253, R254). -/
def asmXbr : List AsmMnemonic :=
  [{ name := "xget", op := 0x50, groups := [asmCodes 0 ["pos", "rot", "off", "swap"]] },
   { name := "poll", op := 0x51, groups := [asmCodes 0 ["every", "some", "same", "mask", "count"], asmFlag 3 "not"] },
   { name := "peers", op := 0x52, groups := [asmCodes 0 ["eq", "unif"]] }, { name := "foldx", op := 0x53, groups := [asmFoldOp] },
   { name := "scanx", op := 0x54, groups := [asmFoldOp, asmCodes 3 ["incl", "excl"] (some 0)] },
   { name := "tlu", op := 0x55, groups := [asmCodes 0 ["n1", "n2", "n3", "n4", "n5", "n6", "n7", "n8"]] }, { name := "bysel", op := 0x56 },
   { name := "bcast", op := 0x57, groups := [asmFlag 0 "first"] }]

/-- LME (07 R224) and FCH (09 R277). `.WAIT` alone is `.WAIT.KEEP`. -/
def asmLme : List AsmMnemonic :=
  [{ name := "ld", op := 0x60, groups := [asmAcq 0], desc := .strong, offset := true },
   { name := "st", op := 0x61, groups := [asmRel 0], desc := .strong, offset := true },
   { name := "lds", op := 0x62, groups := [asmFlag 0 "wait", asmCodes 0 ["keep", "clr"] (some 0)], offset := true },
   { name := "sts", op := 0x63, offset := true },
   { name := "latch", op := 0x64, groups := [asmCodes 0 ["set", "clr"]], offset := true },
   { name := "atom", op := 0x65, groups := [asmAtomOp, asmFlag 3 "csm", asmStrength 4], desc := .inB },
   { name := "red", op := 0x66, groups := [asmAtomOp, asmFlag 3 "csm", asmRel 4], desc := .inB },
   { name := "fence", op := 0x67, groups := [{ asmStrength 0 with default := some 3 }, asmFlag 2 "un"], desc := .inA },
   { name := "promote", op := 0x68, desc := .inA, place := true }, { name := "prefetch", op := 0x69, offset := true },
   { name := "mdld", op := 0x6A, offset := true }, { name := "mdst", op := 0x6B, offset := true },
   { name := "ldloc", op := 0x6C, offset := true }, { name := "stloc", op := 0x6D, offset := true },
   { name := "cctl", op := 0x6E, groups := [asmCodes 0 ["inv", "invall"]], offset := true },
   { name := "codepub", op := 0x80, desc := .inB },
   { name := "cpatch", op := 0x80, fn := 1, groups := [⟨[("entry", 1), ("noentry", 2)], some 0⟩], desc := .inB },
   { name := "codeq", op := 0x80, fn := 2, offset := true }]

/-- CPE (10 R292) and MXE (11 R314). -/
def asmCpe : List AsmMnemonic :=
  [{ name := "hload", op := 0x90 }, { name := "tload", op := 0x91, groups := [asmFlag 0 "scsm"] },
   { name := "tstore", op := 0x92, groups := [asmReduce (some 0)] },
   { name := "tcopy", op := 0x93, groups := [asmFlag 0 "scsm", asmFlag 1 "dcsm", asmFlag 2 "latch"] },
   { name := "tmcast", op := 0x94, groups := [asmFlag 2 "latch"] },
   { name := "tgather", op := 0x95, groups := [asmFlag 3 "icsm", asmFlag 2 "latch"] },
   { name := "tscatter", op := 0x96, groups := [asmFlag 3 "icsm", asmReduce (some 0)] },
   { name := "tfill", op := 0x97, groups := [asmFlag 1 "dcsm", asmFlag 2 "latch"] }, { name := "tquery", op := 0x98, type := .b64 },
   { name := "wardq", op := 0x99, groups := [asmFlag 0 "csm"], type := .b64 }] ++
  [{ name := "mma", op := 0xA0, groups := asmVariant }, { name := "mmag", op := 0xA1, groups := asmVariant },
   { name := "mzero", op := 0xA2, groups := asmDims },
   { name := "mload", op := 0xA3, groups := asmDims ++ [asmCodes 4 ["af64", "af32", "aacc40", "aia40"]] },
   { name := "mstore", op := 0xA4, groups := [asmFlag 2 "latch"] },
   { name := "mred", op := 0xA5, groups := [asmFlag 2 "latch", asmReduce none] },
   { name := "mepi", op := 0xA6, groups := [asmCodes 0 ["scale", "bias", "relu"]] }, { name := "mflags", op := 0xA7 }]

/-- FAB (12 R346, R347), TBE (13 R371), RCE (14 R419) and the privileged forms (15 R435, 16 R465, 17 R489). -/
def asmFab : List AsmMnemonic :=
  [{ name := "fld", op := 0xB0, groups := [asmAcq 0, asmPodGroup 2] },
   { name := "fst", op := 0xB1, groups := [asmRel 0, asmPodGroup 2, asmFlag 3 "blk"] },
   { name := "fatom", op := 0xB2, groups := [asmAtomOp, asmStrength 3, asmPodGroup 5] },
   { name := "fatomc", op := 0xB3, groups := [asmAtomOp, asmStrength 3, asmPodGroup 5] },
   { name := "fticket", op := 0xB4, groups := [asmPodGroup 2] },
   { name := "fred", op := 0xB5, groups := [asmAtomOp, asmRel 3, asmPodGroup 5] },
   { name := "fmcast", op := 0xB6, groups := [asmRel 0, asmPodGroup 2] }, { name := "fflush", op := 0xB7, groups := [asmPodGroup 2] },
   { name := "fsig", op := 0xB8, groups := [asmCodes 0 ["tret", "tpois"], asmPodGroup 2] }, { name := "fquery", op := 0xB9, type := .b64 }] ++
  [{ name := "spawn", op := 0xC0, type := .b128, place := true }, { name := "bincfg", op := 0xC1 }, { name := "wqcfg", op := 0xC2 },
   { name := "wqpush", op := 0xC3, type := .b128 }, { name := "tstream", op := 0xC4 }, { name := "tsubmit", op := 0xC5 },
   { name := "trelease", op := 0xC6 }, { name := "taskinfo", op := 0xC7, type := .b64 }, { name := "rcpin", op := 0xC8 },
   { name := "rcunpin", op := 0xC9 }, { name := "rcretire", op := 0xCA }, { name := "rcdrop", op := 0xCB },
   { name := "rcquery", op := 0xCC, type := .b64 }] ++
  [{ name := "tlbsd", op := 0xD0, groups := [asmTlbMode] }, { name := "tlbinv", op := 0xD1, groups := [asmTlbMode] },
   { name := "addrq", op := 0xD2, groups := [asmCodes 0 ["r", "w", "x"] (some 0)], offset := true },
   { name := "rgnsw", op := 0xD3, groups := [asmCodes 0 ["dev", "shared", "priv"]] }, { name := "ctxsave", op := 0xD4 },
   { name := "ctxload", op := 0xD5 }]

/-- Every mnemonic but BRA and CALL. -/
def asmMnemonics : List AsmMnemonic := asmSeq ++ asmInt ++ asmFlt ++ asmXbr ++ asmLme ++ asmCpe ++ asmFab

/-- The suffixes of a statement, read: TY, CH, MD and its order descriptor. -/
structure AsmHead where
  type : Option Ty
  hint : Hint
  md   : Nat
  desc : Option (BitVec 9)
  deriving DecidableEq, Repr

/-- Read the suffixes: each belongs to one group of the form, and no group is named twice (R84). A reach or a mask that a relaxed
LD or ST cannot carry is refused, and so is `.KEEP` or `.CLR` without `.WAIT` (07 R224). -/
def AsmMnemonic.suffixes (m : AsmMnemonic) (ss : List String) : Option AsmHead :=
  (m.groups.mapM fun g => asmPick g.read g.default ss).bind fun mds =>
  let md := mds.sum
  let described := m.desc != .none && !(m.desc == .strong && md == 0)
  let known (s : String) : Bool :=
    (asmType s).isSome || (asmHint s).isSome || (m.groups.any fun g => (g.read s).isSome) ||
    (described && ((asmReach s).isSome || (asmObs s).isSome))
  let latch := m.name == "lds" && !ss.contains "wait" && (ss.contains "keep" || ss.contains "clr")
  if ss.all known && !latch && (ss.filterMap asmType).length ≤ 1 then
    (asmPick asmHint (some .dflt) ss).bind fun hint =>
    (asmPick asmReach (some .device) (if described then ss else [])).bind fun reach =>
    (asmPick asmObs (some 0x3F) (if described then ss else [])).map fun mask =>
      { type := (ss.filterMap asmType).head?, hint, md, desc := if described then some (reach.bits ++ mask) else none }
  else none

/-! ### Operands (R83) -/

/-- An address in brackets: A, and the offset where the form takes one. -/
def asmAddress (offset : Bool) (ts : List AsmTok) : Option (List AsmArg × List AsmTok) :=
  (asmRegister ts).bind fun a =>
  let base := match a.1 with | .opd o => AsmArg.address o 0 | .vecs o n => .address o n | x => x
  let off : Option (List AsmArg × List AsmTok) :=
    match a.2 with
    | .mark '+' :: r =>
      match asmRegister r with
      | some x => some ([x.1], x.2)
      | none => (asmExpr r).map fun x => ([.expr x.1], x.2)
    | .mark '-' :: _ => (asmExpr a.2).map fun x => ([.expr x.1], x.2)
    | r => some ([], r)
  off.bind fun o =>
    match o.2, o.1, offset with
    | .mark ']' :: r, [], false => some ([base], r)
    | .mark ']' :: r, [], true => some ([base, .expr (.num 0)], r)
    | .mark ']' :: r, xs, true => some (base :: xs, r)
    | _, _, _ => none

/-- One operand; of a form with a place, what is no register is the place. -/
def asmOperand (offset place : Bool) (ts : List AsmTok) : Option (List AsmArg × List AsmTok) :=
  match ts with
  | .mark '[' :: r => asmAddress offset r
  | .mark '%' :: .word w :: r => (asmSpecial w).map fun n => ([.opd (.sreg (BitVec.ofNat 9 n))], r)
  | ts =>
    match asmRegister ts with
    | some x => some ([x.1], x.2)
    | none =>
      (asmExpr ts).bind fun x =>
        if place then
          match x.2 with
          | .mark ',' :: r => (asmExpr r).map fun y => ([.place x.1 y.1], y.2)
          | _ => none
        else some ([.expr x.1], x.2)

/-- The operands of a statement, and the words behind them. -/
def asmOperands (offset place : Bool) : Nat → List AsmTok → Option (List AsmArg × List AsmTok)
  | 0, _ => none
  | n + 1, ts =>
    (asmOperand offset place ts).bind fun x =>
    match x.2 with
    | .mark ',' :: r => (asmOperands offset place n r).map fun y => (x.1 ++ y.1, y.2)
    | r => some (x.1, r)

/-- The keyring `<tN` or `<sN`, or nothing, at the end of a statement. -/
def asmKeyring : List AsmTok → Option (Option Opd)
  | [] => some none
  | [.mark '<', .word w] =>
    match asmReg w with
    | some (.tok t) => some (some (.tok t))
    | some (.uni r) => some (some (.ring r))
    | _ => none
  | _ => none

/-- The destination token `>tN` and the keyring. -/
def asmTokens : List AsmTok → Option (Option Opd × Option Opd)
  | .mark '>' :: .word w :: r =>
    match asmReg w with
    | some (.tok t) => (asmKeyring r).map fun k => (some (.tok t), k)
    | _ => none
  | r => (asmKeyring r).map fun k => (none, k)

/-- The type that GETSR and SETSR take from their register operand; an indirect one gives none (04 R165). -/
def asmOpdType (args : List AsmArg) : Option Ty :=
  match args.find? fun | .opd (.sreg _) => false | _ => true with
  | some (.vecs _ 1) => some .b32
  | some (.vecs _ 2) | some (.opd (.uni _)) | some (.expr _) => some .b64
  | _ => none

/-- An instruction of a mnemonic with its head; its A field is known where the form's other fields depend on it. -/
def AsmMnemonic.like (m : AsmMnemonic) (ga gb : Guard) (h : AsmHead) (ty : Ty) (args : List AsmArg) : Option Instr :=
  let a : BitVec 12 := match args.drop 1 with | .opd o :: _ => o.bits | _ => 0
  let r : Raw :=
    { op := m.op, fn := m.fn, ga := ga.bits, gb := gb.bits, ty := ty.code, ch := h.hint.code, md := BitVec.ofNat 6 h.md
      d := 0, a := a, b := 0, c := 0, e := 0 }
  (decodeRows.find? fun row => row.op == m.op && row.fn == m.fn).bind fun row =>
    match row.make r with
    | .ok i => some i
    | .error _ => none

/-- The order descriptor among the operands: in A it stands before the place, in B behind the address. -/
def AsmHead.describe (h : AsmHead) (place : Bool) (args : List AsmArg) : List AsmArg :=
  match h.desc with
  | some d => if place || args.isEmpty then .opd (.imm d) :: args else args ++ [.opd (.imm d)]
  | none => args

/-- A statement of a mnemonic (R82). -/
def AsmMnemonic.statement (m : AsmMnemonic) (ga gb : Guard) (ss : List String) (ts : List AsmTok) : Option AsmStmt :=
  (m.suffixes ss).bind fun h =>
  let offset := m.offset && h.desc.isNone
  let ops := match ts with
    | [] | .mark '<' :: _ | .mark '>' :: _ => some ([], ts)
    | _ => asmOperands offset m.place (ts.length + 1) ts
  ops.bind fun x =>
  (asmTokens x.2).bind fun k =>
  (if m.typeOfOpd && h.type.isNone then asmOpdType x.1 else some (h.type.getD m.type)).bind fun ty =>
  let args := (h.describe m.place x.1).map fun a => match m.log2, a with | true, .expr e => .log2 e | _, a => a
  (m.like ga gb h ty args).map fun i => .written i args k.1 k.2

/-! ### Statements (R82, R85) -/

/-- The labels at the start of a line. -/
def asmLabels : List AsmTok → List AsmStmt × List AsmTok
  | .word w :: .mark ':' :: r => let x := asmLabels r; (.label (String.ofList w) :: x.1, x.2)
  | ts => ([], ts)

/-- One guard: `pN` or `!pN`. -/
def asmGuard : List AsmTok → Option (Guard × List AsmTok)
  | .mark '!' :: .word w :: r => match asmReg w with | some (.pred p) => some (⟨true, p⟩, r) | _ => none
  | .word w :: r => match asmReg w with | some (.pred p) => some (⟨false, p⟩, r) | _ => none
  | _ => none

/-- The guards in parentheses, if any. -/
def asmGuardsAt : List AsmTok → Option (List Guard × List AsmTok)
  | .mark '(' :: r =>
    (asmGuard r).bind fun a =>
    match a.2 with
    | .mark ')' :: r => some ([a.1], r)
    | .mark ',' :: r => (asmGuard r).bind fun b => match b.2 with | .mark ')' :: r => some ([a.1, b.1], r) | _ => none
    | _ => none
  | ts => some ([], ts)

/-- A word cut at its points. -/
def asmParts (w : List Char) : List (List Char) :=
  w.foldr (fun c ls => if c == '.' then [] :: ls else match ls with | l :: ls => (c :: l) :: ls | [] => [[c]]) [[]]

/-- The fields of `.shape`, behind its name. -/
def asmShapeArgs : Nat → List AsmTok → Option (List (String × AsmExpr))
  | 0, _ => none
  | _ + 1, [] => some []
  | n + 1, .mark ',' :: .word w :: .mark '=' :: r =>
    (asmExpr r).bind fun x => (asmShapeArgs n x.2).map fun xs => (String.ofList (w.map Char.toUpper), x.1) :: xs
  | _ + 1, _ => none

/-- A directive (R85). -/
def asmDirective (name : String) (ts : List AsmTok) : Option AsmStmt :=
  let named (f : String → AsmStmt) : Option AsmStmt := match ts with | [.word w] => some (f (String.ofList w)) | _ => none
  let plain (x : AsmStmt) : Option AsmStmt := if ts.isEmpty then some x else none
  let values := asmExprs (ts.length + 1) ts
  match name with
  | ".text" => plain .text
  | ".data" => plain .data
  | ".entry" => named .entry
  | ".crew" => values.bind fun | [x, y, z] => some (.crew x y z) | _ => none
  | ".cluster" => values.bind fun | [w, h] => some (.cluster w h) | _ => none
  | ".stages" => values.bind fun | [s, dx, dy, n] => some (.stages s dx dy n) | _ => none
  | ".regs" => values.bind fun | [n] => some (.regs n) | _ => none
  | ".shape" => match ts with | .word w :: r => (asmShapeArgs (r.length + 1) r).map fun fs => .shape (String.ofList w) fs | _ => none
  | ".recipe" => named .recipe
  | ".align" => values.bind fun | [n] => some (.align n) | _ => none
  | ".line" => plain .line
  | ".target" => plain .target
  | ".pair" => plain .pair
  | ".byte" => values.map (.emit 1)
  | ".half" => values.map (.emit 2)
  | ".word" => values.map (.emit 4)
  | ".dword" => values.map (.emit 8)
  | ".equ" =>
    match ts with
    | .word w :: .mark ',' :: r => (asmExpr r).bind fun x => if x.2.isEmpty then some (.equ (String.ofList w) x.1) else none
    | _ => none
  | ".global" => named .global
  | _ => none

/-- An instruction: its guards, the words of its mnemonic and suffixes, and what follows them. BRA and CALL name a label. -/
def asmInstruction (gs : List Guard) (name : String) (ss : List String) (ts : List AsmTok) : Option AsmStmt :=
  (asmGuards gs).bind fun g =>
  match name == "bra" || name == "call", ts with
  | true, [.word w] => if ss.isEmpty then some (.jump (name == "call") g.1 g.2 (String.ofList w)) else none
  | true, _ => none
  | false, _ => (asmMnemonics.find? fun m => m.name == name).bind fun m => m.statement g.1 g.2 ss ts

/-- The statements of one line: its labels, and a directive or an instruction. -/
def asmLine (line : List Char) : Option (List AsmStmt) :=
  (asmWords line).bind fun ts =>
  let l := asmLabels ts
  (asmGuardsAt l.2).bind fun g =>
  match g.2 with
  | [] => if g.1.isEmpty then some l.1 else none
  | .word w :: r =>
    let x := if w.head? == some '.' then (if g.1.isEmpty then asmDirective (asmLower w) r else none)
      else
        match (asmParts w).map asmLower with
        | name :: ss => asmInstruction g.1 name ss r
        | [] => none
    x.map fun x => l.1 ++ [x]
  | _ => none

/-- The statements of numbered lines, or the first line that is none. -/
def asmNumbered : Nat → List (List Char) → Except AsmError (List AsmStmt)
  | _, [] => .ok []
  | n, l :: ls =>
    match asmLine l with
    | some xs => (asmNumbered (n + 1) ls).map fun ys => xs ++ ys
    | none => .error (.badStatement n)

/-- The statements of a source. -/
def asmRead (src : List Char) : Except AsmError (List AsmStmt) := asmNumbered 1 (asmLines src)

/-- Assemble a source. -/
def mbas (textBase dataBase : Nat) (src : String) : Except AsmError AsmImage := do
  let xs ← asmRead src.toList
  assemble textBase dataBase xs

end Sys2Proof.Machine
end

