-- ==== Sys2Proof/Tests/Slice0.lean ====
section
/-! SUPPORT. Tests: ill-formed terms are refused, slots that the spec writes out decode, worked examples of the spec run
through one step, and for every statement with hypotheses a concrete state and operands that meet them. -/

namespace Sys2Proof.Tests

open Sys2Proof.Machine Sys2Proof.Claims

set_option maxRecDepth 100000
set_option Elab.async false

/-! ### Well-formedness (02 R77) -/

/-- IADD.UI32 v1, v2, v3. -/
def goodAdd : Fields := plainFields .ui32 (.vec 1) (.vec 2) (.vec 3) (.vec 0) .absent

theorem test_wf_good : (Instr.iadd goodAdd false).wf = true := by decide +kernel
theorem test_wf_badType : ((Instr.iadd { goodAdd with ty := .f32 } false).form.map Form.check) = some (some .badType) := by decide +kernel
theorem test_wf_badHint : ((Instr.iadd { goodAdd with ch := .near } false).form.map Form.check) = some (some .badHint) := by decide +kernel
theorem test_wf_badD : ((Instr.iadd { goodAdd with d := .imm 1 } false).form.map Form.check) = some (some .badD) := by decide +kernel
theorem test_wf_badA : ((Instr.iadd { goodAdd with a := .pred 1 } false).form.map Form.check) = some (some .badA) := by decide +kernel
theorem test_wf_badB : ((Instr.iadd { goodAdd with b := .tok 1 } false).form.map Form.check) = some (some .badB) := by decide +kernel
theorem test_wf_badC : ((Instr.iadd { goodAdd with c := .vec 1 } false).form.map Form.check) = some (some .badC) := by decide +kernel
theorem test_wf_badE : ((Instr.iadd { goodAdd with e := .uni 1 } false).form.map Form.check) = some (some .badE) := by decide +kernel
/-- `.SAT` with a carry destination (05 R173). -/
theorem test_wf_badCombination : ((Instr.iadd { goodAdd with e := .pred 1 } true).form.map Form.check) = some (some .badCombination) := by
  decide +kernel
theorem test_wf_events : (Instr.unmap).wf = false := by decide +kernel

/-- (0x00, 0x3F) is assigned to nothing (02 R76); a J slot has no slot 5 (02 R71); RNE to RD and dynamic are the only
rounding codes (06 R197). -/
theorem test_decode_unassigned : decodeSlot 0x00FC_0000_0000_0000_0000_0000 matches .error .unassigned := by decide +kernel
theorem test_decode_badSlot : decodeSlot 0x0100_0000_0000_0000_0000_000D matches .error .badSlot := by decide +kernel
theorem test_decode_badModifier : decodeSlot 0x3008_01C0_7004_0050_0600_7000 matches .error .badModifier := by decide +kernel

/-! ### Decoding, a word of each engine (02 R71; the examples of each chapter's assembly) -/

/-- SEQ: CTXSAVE's neighbour SLEEP <s7 (04 R124). -/
theorem test_decode_seq : decodeTableWord 96 0x0600_0000_0000_0000_0000_0707 =
    some (.sleep (plainFields .none (.vec 0) (.vec 0) (.vec 0) (.vec 0) (.ring 7)) false) := by decide +kernel
/-- INT: BTAB.B32 v1, v2, v3, v4, 0x96 (05). -/
theorem test_decode_int : decodeTableWord 96 0x1400_0120_0001_0020_0300_4C96 =
    some (.btab (plainFields .b32 (.vec 1) (.vec 2) (.vec 3) (.vec 4) (.imm 0x96))) := by decide +kernel
/-- FLT: FFMA.F32.RZ v4, v5, v6, v7 (06). -/
theorem test_decode_flt : decodeTableWord 96 0x3008_01C0_1004_0050_0600_7000 =
    some (.ffma (plainFields .f32 (.vec 4) (.vec 5) (.vec 6) (.vec 7) (.vec 0)) .rz) := by decide +kernel
/-- XBR: POLL.MASK.B32 s7, p2 (08). -/
theorem test_decode_xbr : decodeTableWord 96 0x5100_0120_3207_4020_0000_0000 =
    some (.poll (plainFields .b32 (.uni 7) (.pred 2) (.vec 0) (.vec 0) (.vec 0)) .mask false) := by decide +kernel
/-- LME: ST.B32.REL v13, [v10:11] (07). -/
theorem test_decode_lme : decodeTableWord 96 0x6100_0120_200D_00AC_BF60_0E00 =
    some (.st (plainFields .b32 (.vec 13) (.vec 10) (.imm 0xBF) (.tok 0) .absent) .rel) := by decide +kernel
/-- FCH: CODEPUB.CLUSTER s3, [s2] >t4 <t2 (09). -/
theorem test_decode_fch : decodeTableWord 96 0x8000_0000_0203_202C_7F60_4602 =
    some (.codepub (plainFields .none (.uni 3) (.uni 2) (.imm 0x7F) (.tok 4) (.tok 2))) := by decide +kernel
/-- CPE: TSTORE.RADD s8, h3, s9 >t5 <t4 (10). -/
theorem test_decode_cpe : decodeTableWord 96 0x9200_0001_0208_8832_0960_5604 =
    some (.tstore (plainFields .none (.uni 8) (.tile .h 3) (.uni 9) (.tok 5) (.tok 4)) .add) := by decide +kernel
/-- MXE: MMAG.BF16 a0, q0, s12 >t5 <s10 (11). -/
theorem test_decode_mxe : decodeTableWord 96 0xA100_01A0_0800_8402_0C60_570A =
    some (.mmag (plainFields .bf16 (.tile .a 0) (.tile .q 0) (.uni 12) (.tok 5) (.ring 10)) 0) := by decide +kernel
/-- FAB: FST.BLK s11, [s3], s5 >t5 <t4 (12). -/
theorem test_decode_fab : decodeTableWord 96 0xB100_0000_820B_2032_0560_5604 =
    some (.fstBlk (plainFields .none (.uni 11) (.uni 3) (.uni 5) (.tok 5) (.tok 4)) .relaxed false) := by decide +kernel
/-- TBE: SPAWN.B128 v4:7, s2, +1,0 >t3 (13). -/
theorem test_decode_tbe : decodeTableWord 96 0xC000_0160_0004_202C_0160_3E00 =
    some (.spawn (plainFields .b128 (.vec 4) (.uni 2) (.imm 1) (.tok 3) .absent)) := by decide +kernel
/-- RCE: RCDROP s8, [s1] >t3 (14). -/
theorem test_decode_rce : decodeTableWord 96 0xCB00_0000_0208_2010_0060_3E00 =
    some (.rcdrop (plainFields .none (.uni 8) (.uni 1) (.vec 0) (.tok 3) .absent)) := by decide +kernel
/-- XLE: TLBSD.VA s4, [s2], s6 >t3 (16). -/
theorem test_decode_xle : decodeTableWord 96 0xD000_0000_0204_2022_0660_3E00 =
    some (.tlbsd (plainFields .none (.uni 4) (.uni 2) (.uni 6) (.tok 3) .absent) .va) := by decide +kernel
/-- HME and SEQ, privileged: RGNSW.SHARED s4, [s2] >t3 (15) and CTXSAVE s9, [s2] (17). -/
theorem test_decode_priv : decodeTableWord 96 0xD300_0000_1204_2020_0060_3E00 =
    some (.rgnsw (plainFields .none (.uni 4) (.uni 2) (.vec 0) (.tok 3) .absent) .shared) ∧
    decodeTableWord 96 0xD400_0000_0209_2020_0000_0000 = some (.ctxsave (plainFields .none (.uni 9) (.uni 2) (.vec 0) (.vec 0) (.vec 0))) := by
  decide +kernel

/-! ### States for the witnesses -/

/-- One crew of one thread at virtual address 65536, of a privileged launch. -/
def base : State := State.reset.placeSlot 0

/-- A VALID shape record: 4 rows of 16 FP32 elements, rows 64 bytes apart (10 R285). -/
def shape0 : BitVec 512 := BitVec.ofNat 512 (16 * 2 ^ 48 + 4 * 2 ^ 32 + 0x3F * 2 ^ 20 + 5 * 32 + 5 + (64 * 2 ^ 32 + 64) * 2 ^ 64)

/-- The line at 65536, whose slot 0 transfers may enter. -/
def line0 : Line := ⟨65536, bootLine 0⟩

/-- The uniform registers: an address in s4, a multiply descriptor in s6 and a gang in s7, a place mask in s3, and a grid
descriptor in s10 to s12. -/
def uniforms : List DWord :=
  [(3, 0x0800_0000), (4, 65536), (6, 65536), (7, 0x0100_0001), (11, 0x3F80_0000_0000_0000)].foldl
    (fun u (p : Nat × DWord) => u.set p.1 p.2) (List.replicate 64 0)

/-- The crew with registers, a stack, a shape and its line in the fetch buffer. -/
def readyCrew (c : Crew) : Crew :=
  { c with
    rect := (4, 4)
    csmSize := 65536
    lsize := 4096
    shapes := c.shapes.set 0 (some shape0)
    bars := c.bars.map fun b => { b with expect := 2 }
    warps := c.warps.map fun w =>
      { w with u := uniforms, fbuf := [line0], threads := w.threads.map fun t => { t with v := List.replicate 256 0, csp := 64 } } }

/-- A state whose crew issues at 65536, with a second crew of its cluster on the next core. -/
def ready : State :=
  { base with
    cur := some ⟨1, 0, 1, 65536⟩
    podSize := 8
    ports := 0x3FFFF
    crews := base.crews.map readyCrew ++ base.crews.map fun c => { readyCrew c with id := 999, core := 1, index := 1 }
    launches := base.launches.map fun l => { l with handler := 65536, lsize := 4096 } }

/-- The state with other values in some uniform registers. -/
def withU (us : List (Nat × DWord)) : State :=
  ready.setWarp 1 0 fun w => { w with u := us.foldl (fun u (p : Nat × DWord) => u.set p.1 p.2) w.u }

/-- The state with another value in a vector register. -/
def withV (r : Nat) (x : Word) : State := ready.setThread 1 0 0 fun t => { t with v := t.v.set r x }

/-- The state in which the thread is in its handler. -/
def inHandler : State := ready.setThread 1 0 0 fun t => { t with tmode := 1, tpc := 65536, tpc0 := 65536 }

/-! ### Instructions filled from their forms -/

/-- An operand of a class, different for each field. -/
def Cls.sample (k : Nat) : Cls → Opd
  | .vec _ | .vecDirect => .vec (BitVec.ofNat 8 (8 * k))
  | .uni _ => .uni (BitVec.ofNat 6 (2 * k))
  | .pred | .predPair => .pred 1
  | .tok | .tokNot0 => .tok 1
  | .ring => .ring 20
  | .tile k => .tile k 0
  | .sreg => .sreg 0x154
  | .imm lo hi => .imm (BitVec.ofInt 9 (max lo (min hi 1)))
  | .desc _ => .imm 0xBF
  | .place => .imm 0
  | .absent => .absent
  | .zero => .vec 0

/-- An operand that a field admits. -/
def sampleOf (k : Nat) (cs : List Cls) : Opd :=
  if cs.contains .absent then .absent
  else if cs.contains .ring then .ring 20
  else match cs with | [] => .vec 0 | c :: _ => Cls.sample k c

/-- Operands that an instruction's form admits. -/
def sampled (mk : Fields → Instr) (f : Fields) : Fields :=
  match (mk f).form with
  | some F => { f with d := sampleOf 1 F.d, a := sampleOf 2 F.a, b := sampleOf 3 F.b, c := sampleOf 4 F.c, e := sampleOf 5 F.e }
  | none => f

/-- Fields of a type for an instruction. -/
def fieldsFor (mk : Fields → Instr) (ty : Ty) : Fields :=
  sampled mk (sampled mk (plainFields ty (.vec 0) (.vec 0) (.vec 0) (.vec 0) (.vec 0)))

/-- One type of every group. -/
def someTypes : List Ty := [.ui32, .none, .b32, .si32, .f32, .b64, .f16x2, .b128, .ui16x2, .e8, .f64, .bf16, .ui8x4]

/-- The issue that a state names. -/
def issueOf (i : Instr) (s : State) : Option Issue :=
  match s.cur, i.form with
  | some cur, some F =>
    match s.crew? cur.crew, s.warp? cur.crew cur.warp with
    | some c, some w => some ⟨s, i, F, cur.crew, cur.warp, c, w, cur.mask, guardMask w cur.mask F.body, cur.pc⟩
    | _, _ => none
  | _, _ => none

theorem issueOf_issuing {i : Instr} {s : State} {I : Issue} (h : issueOf i s = some I) : Issuing i s I := by
  unfold issueOf at h
  split at h
  · split at h
    · simp only [Option.some.injEq] at h
      subst h
      exact ⟨rfl, rfl, by assumption, by assumption, by assumption, by assumption, rfl⟩
    · cases h
  · cases h

/-- Whether the issue of an instruction executes in a state and has a property. -/
def meets (s : State) (p : Issue → Instr → Bool) (i : Instr) : Bool :=
  match issueOf i s with
  | none => false
  | some I =>
    (orderChecks s I.crew I.warp I.mask I.pc i I.form).isNone && I.act != 0 && I.tokenClash.isNone &&
      (I.lanes.all fun l => (I.indirectOut l).isNone) && p I i

theorem meets_executes {s : State} {p : Issue → Instr → Bool} {i : Instr} (h : meets s p i = true) :
    ∃ I, Executes i s I ∧ I.InRange ∧ p I i = true := by
  unfold meets at h
  split at h
  · cases h
  · rename_i I hI
    simp only [Bool.and_eq_true, Option.isNone_iff_eq_none, bne_iff_ne, List.all_eq_true] at h
    obtain ⟨⟨⟨⟨h1, h2⟩, h3⟩, h4⟩, h5⟩ := h
    exact ⟨I, ⟨issueOf_issuing hI, h1, h2, h3⟩, h4, h5⟩

/-- Every one of some instructions executes, for some of its operands and in one of some states, with a property. -/
theorem meets_all (ms : List (Fields → Instr)) (ss : List State) (p : Issue → Instr → Bool)
    (h : (ms.all fun mk => someTypes.any fun ty => ss.any fun s => meets s p (mk (fieldsFor mk ty))) = true) :
    ∀ mk ∈ ms, ∃ f s I, Executes (mk f) s I ∧ I.InRange ∧ p I (mk f) = true := by
  intro mk hmk
  rw [List.all_eq_true] at h
  have := h mk hmk
  rw [List.any_eq_true] at this
  obtain ⟨ty, _, h2⟩ := this
  rw [List.any_eq_true] at h2
  obtain ⟨s, _, h3⟩ := h2
  obtain ⟨I, hI⟩ := meets_executes h3
  exact ⟨_, s, I, hI⟩

/-- A result in every issuing lane. -/
def gives (r : Issue → Instr → Nat → Option Result) (I : Issue) (i : Instr) : Bool := I.lanes.all fun l => (r I i l).isSome

/-- Every thread of the group runs. -/
def runs (I : Issue) : Bool := I.group.all fun l => (I.thread l).run == .running

/-! ### Witnesses: instructions that complete with a result in each lane -/

theorem meets_IntegerSums : ∀ mk ∈ [fun f => Instr.iadd f false, fun f => .iadd f true, fun f => .isub f false, fun f => .iaddx f true],
    ∃ f s I, Executes (mk f) s I ∧ I.InRange ∧ gives addResult I (mk f) = true := meets_all _ [ready] _ (by decide +kernel)

theorem meets_IntegerProducts : ∀ mk ∈ [Instr.imul, .imulh, .imad, .imadw],
    ∃ f s I, Executes (mk f) s I ∧ I.InRange ∧ gives mulResult I (mk f) = true := meets_all _ [ready] _ (by decide +kernel)

/-- A divisor of 0, and one of 65536. -/
theorem meets_IntegerDivisions : ∀ mk ∈ [fun f => Instr.idiv f false, fun f => .irem f false],
    ∃ f s I, Executes (mk f) s I ∧ I.InRange ∧ gives divResult I (mk f) = true := meets_all _ [withV 24 65536] _ (by decide +kernel)

theorem meets_DivisionsByZero : ∀ mk ∈ [fun f => Instr.idiv f true, fun f => .irem f true],
    ∃ f s I, Executes (mk f) s I ∧ I.InRange ∧ (I.lanes.all fun l => (divResult I (mk f) l).isNone) = true :=
  meets_all _ [ready] (fun I i => I.lanes.all fun l => (divResult I i l).isNone) (by decide +kernel)

theorem meets_IntegerChoices :
    ∀ mk ∈ [Instr.imin, .imax, fun f => .iabs f false, fun f => .iabs f true, fun f => .isetp f .lt .and, .sel],
    ∃ f s I, Executes (mk f) s I ∧ I.InRange ∧ gives pickResult I (mk f) = true := meets_all _ [ready] _ (by decide +kernel)

theorem meets_ShiftsAndLogic : ∀ mk ∈ [Instr.btab, .shl, .shr, .sar, .rot, fun f => .shf f true],
    ∃ f s I, Executes (mk f) s I ∧ I.InRange ∧ gives logicResult I (mk f) = true := meets_all _ [withV 24 32] _ (by decide +kernel)

theorem meets_BitFields : ∀ mk ∈ [Instr.bfe, .bfi, .popc, .clz, .brev],
    ∃ f s I, Executes (mk f) s I ∧ I.InRange ∧ gives fieldResult I (mk f) = true := meets_all _ [ready] _ (by decide +kernel)

theorem meets_Moves : ∀ mk ∈ [fun f => Instr.mov { f with ty := .b32, d := .vec 8, a := .vec 16 }, .lea],
    ∃ f s I, Executes (mk f) s I ∧ I.InRange ∧ gives moveResult I (mk f) = true := meets_all _ [ready] _ (by decide +kernel)

theorem meets_MovesImmediate : ∃ I, Executes (.movi ⟨⟨false, 0⟩, ⟨false, 0⟩, .b32, .vec 8, 5⟩ false) ready I ∧ I.InRange ∧
    gives moveResult I (.movi ⟨⟨false, 0⟩, ⟨false, 0⟩, .b32, .vec 8, 5⟩ false) = true := meets_executes (by decide +kernel)

theorem meets_PackedForms : ∀ mk ∈ [fun f => Instr.padd f .sat, fun f => .psub f .wrap, .pmax, .pmin, fun f => .pacs f true],
    ∃ f s I, Executes (mk f) s I ∧ I.InRange ∧ gives packResult I (mk f) = true := meets_all _ [ready] _ (by decide +kernel)

theorem meets_CellKeys : ∀ mk ∈ [fun f => Instr.cellkey f false, fun f => .cellkey f true],
    ∃ f s I, Executes (mk f) s I ∧ I.InRange ∧ gives cellResult I (mk f) = true := meets_all _ [ready] _ (by decide +kernel)

theorem meets_FloatSums : ∀ mk ∈ [fun f => Instr.fadd f .rne, fun f => .fmul f .ru, fun f => .ffma f .rz, fun f => .hfma2 f .rd],
    ∃ f s I, Executes (mk f) s I ∧ I.InRange ∧ gives floatSumResult I (mk f) = true := meets_all _ [ready] _ (by decide +kernel)

theorem meets_FloatQuotients : ∀ mk ∈ [fun f => Instr.fdiv f .rne, fun f => .fsqrt f .rne, fun f => .rcp f .rz, fun f => .rsq f .ru],
    ∃ f s I, Executes (mk f) s I ∧ I.InRange ∧ gives floatDivResult I (mk f) = true := meets_all _ [ready] _ (by decide +kernel)

theorem meets_FloatChoices :
    ∀ mk ∈ [fun f => Instr.fmin f true, fun f => .fmax f false, fun f => .fsetp f .lt false .and, .fclass, .fgetexp],
    ∃ f s I, Executes (mk f) s I ∧ I.InRange ∧ gives floatPickResult I (mk f) = true := meets_all _ [ready] _ (by decide +kernel)

theorem meets_FloatConversions :
    ∀ mk ∈ [fun f => Instr.frnd f .rz, fun f => .fscale f .rne, fun f => .cvt f .rne .f16, fun f => .cvti f .rz .f32, fun f => .cvtf f .ru .si32],
    ∃ f s I, Executes (mk f) s I ∧ I.InRange ∧ gives floatConvResult I (mk f) = true := meets_all _ [ready] _ (by decide +kernel)

theorem meets_ByteConversions : ∀ mk ∈ [fun f => Instr.cvt8 f ⟨3, false, true⟩ false, fun f => .cvt8 f ⟨0, true, false⟩ true],
    ∃ f s I, Executes (mk f) s I ∧ I.InRange ∧ gives byteConvResult I (mk f) = true := meets_all _ [ready] _ (by decide +kernel)

/-- The source 0. -/
theorem meets_SpecialFunctionsAtRationalPoints :
    ∀ mk ∈ [fun f => Instr.exp2 f .rne, fun f => .log2 f .rne, fun f => .sin f .rne, fun f => .cos f .rne],
    ∃ f s I, Executes (mk f) s I ∧ I.InRange ∧ gives specialResult I (mk f) = true := meets_all _ [ready] _ (by decide +kernel)

/-- The source 3.0, whose logarithm is irrational, with no exception enabled. -/
theorem meets_SpecialFunctions :
    ∀ mk ∈ [fun f => Instr.exp2 f .rne, fun f => .log2 f .rne, fun f => .sin f .rne, fun f => .cos f .rne],
    ∃ f s I, Executes (mk f) s I ∧ I.InRange ∧
      (I.lanes.all fun l => (I.thread l).fenv.setWidth 5 == (0 : BitVec 5) && modeOf (I.thread l) .rne != .dyn) = true :=
  meets_all _ [withV 16 0x4040_0000]
    (fun I _ => I.lanes.all fun l => (I.thread l).fenv.setWidth 5 == (0 : BitVec 5) && modeOf (I.thread l) .rne != .dyn) (by decide +kernel)

theorem meets_Shuffles : ∀ mk ∈ [fun f => Instr.xget f .off, fun f => .bcast f true],
    ∃ f s I, Executes (mk f) s I ∧ I.InRange ∧ gives shuffleResult I (mk f) = true := meets_all _ [ready] _ (by decide +kernel)

theorem meets_Votes : ∀ mk ∈ [fun f => Instr.poll f .mask false, fun f => .peers f true],
    ∃ f s I, Executes (mk f) s I ∧ I.InRange ∧ gives voteResult I (mk f) = true := meets_all _ [ready] _ (by decide +kernel)

theorem meets_Folds : ∀ mk ∈ [fun f => Instr.foldx f .add, fun f => .scanx f .max true],
    ∃ f s I, Executes (mk f) s I ∧ I.InRange ∧ gives foldResult I (mk f) = true := meets_all _ [ready] _ (by decide +kernel)

theorem meets_ByteSelections : ∀ mk ∈ [Instr.bysel, fun f => .tlu f 7],
    ∃ f s I, Executes (mk f) s I ∧ I.InRange ∧ gives byteResult I (mk f) = true := meets_all _ [ready] _ (by decide +kernel)

theorem meets_SequencerReads :
    ∀ mk ∈ [Instr.nop, .elect, .tstat, .getsr, fun f => .mov { f with ty := .b64, d := .vec 8, a := .sreg 0x154 }, .prefetch],
    ∃ f s I, Executes (mk f) s I ∧ I.InRange ∧ gives seqResult I (mk f) = true := meets_all _ [ready] _ (by decide +kernel)

/-! ### Witnesses: the sequencer -/

theorem meets_SequencerForms :
    ∀ mk ∈ [Instr.part, .yield, .tfree, .brx, .jset, .jwait, .exit, fun f => .sleep f false, fun f => .sleep f true, fun f => .ttest f true,
      .brk, .rtt],
    ∃ f s I, Executes (mk f) s I ∧ I.InRange ∧ (runs I && (warpResult I (mk f)).isSome) = true :=
  meets_all _ [ready, withV 16 65536, inHandler] (fun I i => runs I && (warpResult I i).isSome) (by decide +kernel)

/-- WDOG 12, TRAP 1, and BRA to its own line. -/
theorem meets_SequencerFormsOfOtherFormats :
    ∀ i ∈ [Instr.wdog ⟨⟨false, 0⟩, ⟨false, 0⟩, .none, .vec 0, 12⟩ true, .trap ⟨⟨false, 0⟩, ⟨false, 0⟩, .none, .vec 0, 1⟩,
      .bra ⟨⟨false, 0⟩, ⟨false, 0⟩, 0, 0⟩],
    ∃ I, Executes i ready I ∧ I.InRange ∧ (runs I && (warpResult I i).isSome) = true := by
  intro i hi
  have h : ([Instr.wdog ⟨⟨false, 0⟩, ⟨false, 0⟩, .none, .vec 0, 12⟩ true, .trap ⟨⟨false, 0⟩, ⟨false, 0⟩, .none, .vec 0, 1⟩,
      .bra ⟨⟨false, 0⟩, ⟨false, 0⟩, 0, 0⟩].all fun i => meets ready (fun I i => runs I && (warpResult I i).isSome) i) = true := by decide +kernel
  exact meets_executes (List.all_eq_true.1 h i hi)

/-- BARS to EXPECT 5, and arrivals that leave 1 to come. -/
theorem meets_BarrierForms : ∀ mk ∈ [Instr.bara, .barw, .bars],
    ∃ f s I, Executes (mk f) s I ∧ I.InRange ∧ (runs I && (crewResult I (mk f)).isSome) = true :=
  meets_all _ [withU [(6, 5)]] (fun I i => runs I && (crewResult I i).isSome) (by decide +kernel)

theorem meets_TokensAreArmed : ∀ mk ∈ [Instr.tsigArm],
    ∃ f s I, Executes (mk f) s I ∧ I.InRange ∧ ((record I.warp (tokenOf f.a)).st != .pending) = true := by
  intro mk h
  simp only [List.mem_singleton] at h
  subst h
  obtain ⟨I, hI⟩ := meets_executes (s := ready) (i := .tsigArm (fieldsFor .tsigArm .none))
    (p := fun I _ => (record I.warp (tokenOf (fieldsFor .tsigArm .none).a)).st != .pending) (by decide +kernel)
  exact ⟨_, _, I, hI⟩

/-- Token t1 PENDING by a TSIG.ARM, and FREE. -/
def armed : State := ready.setWarp 1 0 fun w => { w with toks := w.toks.set 1 { st := .pending, soft := true, bind := 40 } }

theorem meets_SignalsSettleTokens : ∀ i ∈ [Instr.tsigPoison (fieldsFor .tsigPoison .none), .tsigDone (fieldsFor .tsigDone .none)],
    ∀ s ∈ [ready, armed], ∃ I, Executes i s I ∧ I.InRange ∧
      (!I.s.pendingBefore I.cid I.wi I.act I.s.nextId && ((record I.warp 1).st != .pending || (record I.warp 1).soft)) = true := by
  intro i hi s hs
  have h : ([Instr.tsigPoison (fieldsFor .tsigPoison .none), .tsigDone (fieldsFor .tsigDone .none)].all fun i => [ready, armed].all fun s =>
      meets s (fun I _ => !I.s.pendingBefore I.cid I.wi I.act I.s.nextId && ((record I.warp 1).st != .pending || (record I.warp 1).soft)) i) = true := by
    decide +kernel
  exact meets_executes (List.all_eq_true.1 (List.all_eq_true.1 h i hi) s hs)

theorem meets_SpecialWrites : ∀ mk ∈ [Instr.setsr, fun f => .mov { f with ty := .b64, d := .sreg 0x017, a := .vec 16 }],
    ∃ f s I, Executes (mk f) s I ∧ I.InRange ∧ (specialWarp I (mk f)).isSome = true :=
  meets_all _ [ready] (fun I i => (specialWarp I i).isSome) (by decide +kernel)

/-- An event counter, and `%rcctl`. -/
theorem meets_WideSpecialWrites : ∀ p ∈ [(0x015, 7), (0x110, 4)], ∃ I,
    Executes (.setsr (plainFields .b64 (.sreg (BitVec.ofNat 9 p.1)) (.imm (BitVec.ofNat 9 p.2)) (.vec 0) (.vec 0) (.vec 0))) ready I ∧ I.InRange ∧
    ((I.lanes.all fun l => writable I l p.1) && (wideWrite I p.1 (BitVec.ofNat 64 p.2) ready).isSome) = true := by
  intro p hp
  have h : ([(0x015, 7), (0x110, 4)].all fun (p : Nat × Nat) =>
      meets ready (fun I _ => (I.lanes.all fun l => writable I l p.1) && (wideWrite I p.1 (BitVec.ofNat 64 p.2) ready).isSome)
        (.setsr (plainFields .b64 (.sreg (BitVec.ofNat 9 p.1)) (.imm (BitVec.ofNat 9 p.2)) (.vec 0) (.vec 0) (.vec 0)))) = true := by decide +kernel
  exact meets_executes (List.all_eq_true.1 h p hp)

theorem meets_GuardedOffForms : ∃ I, Issuing (.nop { plainFields .none (.vec 0) (.vec 0) (.vec 0) (.vec 0) (.vec 0) with ga := ⟨true, 0⟩ }) ready I ∧
    orderChecks ready I.crew I.warp I.mask I.pc I.i I.form = none ∧ I.act = 0 :=
  ⟨_, issueOf_issuing (i := .nop { plainFields .none (.vec 0) (.vec 0) (.vec 0) (.vec 0) (.vec 0) with ga := ⟨true, 0⟩ }) (s := ready) rfl,
    by decide +kernel, by decide +kernel⟩

/-- IADD with a float type; RGNSW and CTXSAVE outside a privileged launch and a handler. -/
theorem meets_IllegalForms : (∃ I, Issuing (.iadd { goodAdd with ty := .f32 } false) ready I) ∧
    (∃ I, Issuing (.rgnsw (fieldsFor (fun f => .rgnsw f .dev) .none) .dev) { ready with launches := ready.launches.map fun l => { l with priv := false } } I ∧
      (0xD0 ≤ I.form.op ∧ I.form.op < 0xD4)) ∧
    ∃ I, Issuing (.ctxsave (fieldsFor .ctxsave .none)) { ready with launches := ready.launches.map fun l => { l with priv := false } } I ∧
      I.form.op = 0xD4 ∧ ∃ l ∈ I.group, (I.thread l).inHandler = false :=
  ⟨⟨_, issueOf_issuing (i := .iadd { goodAdd with ty := .f32 } false) (s := ready) rfl⟩,
   ⟨_, issueOf_issuing (i := .rgnsw (fieldsFor (fun f => .rgnsw f .dev) .none) .dev)
     (s := { ready with launches := ready.launches.map fun l => { l with priv := false } }) rfl, by decide +kernel⟩,
   ⟨_, issueOf_issuing (i := .ctxsave (fieldsFor .ctxsave .none))
     (s := { ready with launches := ready.launches.map fun l => { l with priv := false } }) rfl, by decide +kernel⟩⟩

theorem meets_TokenClashes : ∃ I, Issuing (.pbinit (fieldsFor (fun f => .pbinit f .crew) .none) .crew) armed I ∧
    orderChecks armed I.crew I.warp I.mask I.pc I.i I.form = none ∧ I.act ≠ 0 ∧ I.tokenClash = some 1 :=
  ⟨_, issueOf_issuing (i := .pbinit (fieldsFor (fun f => .pbinit f .crew) .none) .crew) (s := armed) rfl, by decide +kernel⟩

/-! ### Witnesses: acceptance -/

theorem meets_AccessesAreAccepted :
    ∀ mk ∈ [fun f => Instr.texport f .crew false, fun f => .pbinit f .crew, fun f => .pbarrive f .crew false false, fun f => .pbwait f .crew,
      fun f => .ld f .relaxed, fun f => .st f .rel, fun f => .lds f .none, fun f => .lds { f with c := .tok 0 } .clr, .sts, .latchSet, .latchClr,
      fun f => .atom f .add false .relaxed, fun f => .atom f .cas true .relaxed, fun f => .red f .add false .relaxed, .promote, .mdld, .mdst,
      .ldloc, .stloc, .cctlInv, .cctlInvall, .codepub, fun f => .cpatch f .keep, .codeq, fun f => .fld f .relaxed false,
      fun f => .fst f .relaxed false, fun f => .fstBlk f .relaxed false, fun f => .fatom f .add .relaxed false,
      fun f => .fatomc f .add .relaxed false, fun f => .fticket f false, fun f => .fred f .add .relaxed false,
      fun f => .fmcast f .relaxed false, fun f => .fflush f false, fun f => .fsigTret f false, fun f => .fsigTpois f false],
    ∃ f s I, Executes (mk f) s I ∧ I.InRange ∧ (accepted I (mk f)).isSome = true :=
  meets_all _ [ready, withU [(4, 0), (6, 1)], withU [(2, 0x10_0000_0000), (6, 0)], withU [(6, 0x0100_0001)]] (fun I i => (accepted I i).isSome)
    (by decide +kernel)

theorem meets_Fences : ∀ mk ∈ [fun f => Instr.fence f .ar false, fun f => .fence { f with a := .imm 0xBF } .acq true],
    ∃ f s I, Executes (mk f) s I ∧ I.InRange ∧ (fenceWarp I (mk f)).isSome = true :=
  meets_all _ [ready] (fun I i => (fenceWarp I i).isSome) (by decide +kernel)

/-- A copy form that is not refused at issue; whether it is refused at acceptance. -/
def copies (refused : Bool) (I : Issue) (i : Instr) : Bool :=
  match cpeOperation I i with
  | some o => (I.s.cpeRefusal I.crew o).isSome == refused && (I.s.cpeContained o).isNone
  | none => false

theorem meets_CopiesAreAccepted :
    ∀ mk ∈ [Instr.hload, fun f => .tload f false, fun f => .tstore f .plain, fun f => .tcopy f false false false, fun f => .tmcast f false,
      fun f => .tgather f false false, fun f => .tscatter f false .plain, fun f => .tfill f false false],
    ∃ f s I, Executes (mk f) s I ∧ I.InRange ∧ copies false I (mk f) = true :=
  meets_all _ [ready, withU [(6, 0)], withU [(6, 0), (7, 0)], withU [(3, 0), (6, 0)]] (copies false) (by decide +kernel)

/-- A TLOAD from a misaligned address. -/
theorem meets_CopiesAreAccepted_refused : ∀ mk ∈ [fun f => Instr.tload f false],
    ∃ f s I, Executes (mk f) s I ∧ I.InRange ∧ copies true I (mk f) = true :=
  meets_all _ [withU [(4, 3)], withU [(6, 3)], withU [(8, 3)]] (copies true) (by decide +kernel)

theorem meets_EngineFormsAreAccepted :
    ∀ mk ∈ [fun f => Instr.mma f 0, fun f => .mmag f 0, fun f => .mzero f .d16 .d32, fun f => .mload f .d16 .d16 .f64, fun f => .mstore f false,
      fun f => .mred f false .add, fun f => .mepi f .relu, .spawn, .wqpush, .tsubmit, .rcpin, .rcunpin, .rcretire, .rcdrop,
      fun f => .tlbsd f .va, fun f => .addrq f .r, fun f => .rgnsw f .dev, .ctxload],
    ∃ f s I, Executes (mk f) s I ∧ I.InRange ∧ (engineAccepted I (mk f)).isSome = true :=
  meets_all _ [ready, withU [(4, 0)], withU [(4, 0), (6, 0)]] (fun I i => (engineAccepted I i).isSome) (by decide +kernel)

theorem meets_QueriesAndTables :
    ∀ mk ∈ [Instr.tquery, fun f => .wardq f false, fun f => .wardq f true, .mflags, .fquery, .taskinfo, .rcquery, .fflags, .fenv, .bincfg, .wqcfg,
      .tstream, .trelease, fun f => .tlbinv f .all],
    ∃ f s I, Executes (mk f) s I ∧ I.InRange ∧ (gives formResult I (mk f) && (formChange I (mk f)).isSome) = true :=
  meets_all _ [ready, withU [(4, 0), (6, 0)], withU [(4, 0), (6, 0), (8, 0)]] (fun I i => gives formResult I i && (formChange I i).isSome) (by decide +kernel)

/-! ### Witnesses: calls, traps and saves -/

/-- The state with a page that may be read and written at 131072, and one at 0, where the stack of the thread lies. The
return address on it is 65536, as is the register pair v16:17. -/
def working : State := (((withV 16 65536).mapPage 1 0 0x30000 0 80).mapPage 1 0x20000 0x20000 0 80).storeNat 0x30040 8 65536

/-- An access that succeeds, with a property of what it leaves. -/
def okWith {α β ε : Type} (x : α × Except ε β) (p : α → β → Bool) : Bool :=
  match x.2 with
  | .ok b => p x.1 b
  | .error _ => false

theorem ok_of_okWith {α β ε : Type} {x : α × Except ε β} {p : α → β → Bool} (h : okWith x p = true) :
    ∃ u b, x = (u, .ok b) ∧ p u b = true := by
  obtain ⟨u, e⟩ := x
  cases e with
  | error g => cases h
  | ok b => exact ⟨u, b, rfl, h⟩

/-- The access of a push or a pop of lane 0. -/
def stackReach (I : Issue) (off : Nat) (write : Bool) : State × Except Gate (List Part) :=
  (I.s.advance I.cid I.wi (I.mask &&& ~~~I.act)).reach
    { crew := some I.cid, asid := I.asid, loc := .data I.crew.core, core := I.crew.core, wslot := I.warp.slot, engine := .seq }
    (I.s.localBase I.crew I.warp.slot I.wi 0 + (I.thread 0).csp.toNat - off) 8 write (if write then { w := true } else { r := true })

/-- CALL to its own line, and CALLX to the address in v16:17. -/
theorem meets_CallsPushAndEnter :
    ∀ i ∈ [Instr.call ⟨⟨false, 0⟩, ⟨false, 0⟩, 0, 0⟩, .callx (fieldsFor .callx .none)], ∃ I, Executes i working I ∧ I.InRange ∧
      (runs I && I.lanes == [0] && 8 ≤ (I.thread 0).csp.toNat &&
        okWith (stackReach I 8 true) fun u _ => ((u.warp? I.cid I.wi).bind fun w => entryAt w 65536).isSome) = true := by
  intro i hi
  have h : ([Instr.call ⟨⟨false, 0⟩, ⟨false, 0⟩, 0, 0⟩, .callx (fieldsFor .callx .none)].all (meets working fun I _ =>
      runs I && I.lanes == [0] && 8 ≤ (I.thread 0).csp.toNat &&
        okWith (stackReach I 8 true) fun u _ => ((u.warp? I.cid I.wi).bind fun w => entryAt w 65536).isSome)) = true := by decide +kernel
  exact meets_executes (List.all_eq_true.1 h i hi)

/-- The address on the stack is that of the line in the fetch buffer. -/
def pops (I : Issue) (_ : Instr) : Bool :=
  runs I && I.lanes == [0] && (I.thread 0).csp.toNat + 8 ≤ I.crew.lsize.toNat &&
    okWith (stackReach I 0 false) fun u ps => leNat (u.readParts ps) == 65536 && lparOk line0.bits && !lineIllegal line0.bits &&
      ((u.warp? I.cid I.wi).bind fun w => w.fbuf.find? fun y => y.va.toNat == 65536) == some line0

theorem meets_ReturnsPopAndEnter : ∃ I, Executes (.ret (fieldsFor .ret .none)) working I ∧ I.InRange ∧ pops I (.ret (fieldsFor .ret .none)) = true :=
  meets_executes (by decide +kernel)

theorem meets_TrapsEnterTheHandler : ∃ c x th la ln, ready.crew? 1 = some c ∧ ready.warp? 1 0 = some x ∧ ready.thread? 1 0 0 = some th ∧
    ready.launch? c.launch = some la ∧ la.handler ≠ 0 ∧ entryAt x la.handler.toNat = some ln ∧ th.tmode.getLsbD 0 = false :=
  ⟨_, _, _, _, line0, rfl, rfl, rfl, rfl, by decide +kernel, by decide +kernel, rfl⟩

/-- A launch without a handler, and a thread inside its handler. -/
theorem meets_TrapsWithoutHandlerHalt :
    (∃ c th, base.crew? 1 = some c ∧ base.thread? 1 0 0 = some th ∧ ∀ la, base.launch? c.launch = some la → la.handler = 0) ∧
    ∃ c th, inHandler.crew? 1 = some c ∧ inHandler.thread? 1 0 0 = some th ∧ th.tmode.getLsbD 0 = true := by
  refine ⟨⟨_, _, rfl, rfl, ?_⟩, _, _, rfl, rfl, rfl⟩
  intro la h
  have h1 : ((base.launch? 1).map Launch.handler) = some 0 := by decide +kernel
  have h2 : base.launch? 1 = some la := h
  rw [h2] at h1
  exact Option.some.inj h1

/-- A save area at 2^21, in a writable page of 64 KiB, of a crew with one row of everything. -/
def saving : State :=
  let s := (ready.mapPage 1 0x200000 0x200000 1 80).setWarp 1 0 fun w => { w with u := w.u.set 4 0x200000 }
  s.setCrew 1 fun c => { c with csmSize := 0, slots := 0, accs := 0 }

/-- The pages of the area can be written, and no operation is captured. -/
def saves (I : Issue) (i : Instr) : Bool :=
  match i with
  | .ctxsave f =>
    (I.s.recomputeOf (some I.cid)).isNone && (word I f.a).toNat + I.crew.area.size ≤ 2 ^ 57 && (word I f.a).toNat % 4096 == 0 &&
      (let r := State.checkPages I.crew ((I.crew.area.size + 4095) / 4096) (I.s.advance I.cid I.wi I.mask) (word I f.a).toNat
       r.2 && (r.1.settleEntries I.crew).ops.all fun o => !o.captured I.cid)
  | _ => false

theorem meets_SavesBegin : ∃ I, Executes (.ctxsave (fieldsFor .ctxsave .none)) saving I ∧ I.InRange ∧
    saves I (.ctxsave (fieldsFor .ctxsave .none)) = true := meets_executes (by decide +kernel)

/-! ### Witnesses: operations and the threads that wait -/

/-- An operation of the crew with token t1, that has started. -/
def opOf (i : Instr) (args : List DWord := []) (acc : List LaneAcc := []) : Op where
  id := 50
  crew := 1
  warp := 0
  core := 0
  slot := 0
  launch := 1
  instr := i
  lanes := 1
  tok := 1
  keys := []
  started := true
  args := args
  acc := acc

/-- The state in which some operations are accepted. -/
def withOps (os : List Op) (s : State := working) : State :=
  ({ s with nextId := 90, ops := os }).setWarp 1 0 fun w => { w with toks := w.toks.set 1 { st := .pending, bind := 50 } }

/-- A load of one thread from the readable and writable page. -/
def loading : Op := opOf (.ld (fieldsFor (fun f => .ld f .relaxed) .ui32) .relaxed) [] [{ lane := 0, addr := 0x20010 }]

/-- A load whose keyring is empty, or holds a POISONED token. -/
theorem meets_WaitsEnd_starts : ∀ ks ∈ [[], [⟨2, 30, .poisoned 4 5⟩, ⟨3, 31, .done⟩]],
    let o := { loading with started := false, keys := ks }
    (withOps [o]).op? 50 = some o ∧ o.started = false ∧ allSettled o.keys = true ∧ isPhaseAct o.instr = false ∧ queueOf o.instr ≠ some .mxe ∧
      o.blocks = false ∧ firstPoison o.keys = if ks = [] then none else some (2, 4, 5) := by decide +kernel

/-- A PBWAIT for phase 1 of a barrier whose phase is 0. -/
def awaiting : Op := opOf (.pbwait (fieldsFor (fun f => .pbwait f .crew) .none) .crew) [1, 0x20000]

theorem meets_WaitsEnd_latchStarts :
    let o := { opOf (.lds (fieldsFor (fun f => .lds f .none) .ui32) .keep) [] [{ lane := 0, addr := 64, off := 64 }] with started := false }
    (withOps [o]).op? 50 = some o ∧ allSettled o.keys = true ∧ isPhaseAct o.instr = false ∧ queueOf o.instr ≠ some .mxe ∧
      firstPoison o.keys = none ∧ waitsOnLatch o.instr = true := by decide +kernel

theorem meets_WaitsEnd_phase : (withOps [awaiting]).op? 50 = some awaiting ∧ awaiting.started = true ∧ awaiting.wait = .none ∧
    awaiting.parked = 0 ∧ awaiting.fail = none ∧ awaiting.tok ≠ 0 ∧ (withOps [awaiting]).mayPerform awaiting = true ∧ awaiting.arg 1 % 16 = 0 ∧
    okWith ((withOps [awaiting]).reach ((withOps [awaiting]).opWho awaiting .seq) (awaiting.arg 1) 16 false { r := true, w := true }) (fun u ps =>
      bitsNat (leNat (u.readParts ps)) 94 64 != awaiting.arg 0 % 2 ^ 31 && bitNat (leNat (u.readParts ps)) 95 == false) = true := by
  decide +kernel

/-- An LDS.WAIT, and an LDS.CLR, of a granule that is FULL. -/
theorem meets_WaitsEnd_latch : ∀ mode ∈ [LatchMode.keep, .clr],
    let a : LaneAcc := { lane := 0, addr := 64, off := 64 }
    let o := opOf (.lds (fieldsFor (fun f => .lds f .none) .ui32) mode) [] [a]
    let s := (withOps [o]).setLatch 1 4 true
    s.op? 50 = some o ∧ mode ≠ .none ∧ s.mayPerformLane o a.lane = true ∧ a.done = false ∧ s.csmLanePieces o a 1 = some [⟨1, 64, 1⟩] ∧
      s.csmLanePieces o a (tyBytes .ui32) = some [⟨1, 64, tyBytes .ui32⟩] ∧ s.latchFull 1 4 = true ∧ s.waitsLonger o a (1, 4) = false := by
  decide +kernel

/-- A SLEEP whose tokens have settled, and a SLEEP.ANY one of whose tokens has. -/
theorem meets_WaitsEnd_sleep : ∀ p ∈ [([⟨1, 40, .done⟩], false), ([⟨1, 40, .done⟩, ⟨2, 41, .pending⟩], true)],
    let s := ready.setThread 1 0 0 fun t => { t with run := .sleep p.1 p.2 }
    ((s.warpAt 0 0).map fun x => (x.1.id, x.2.1, (x.2.2.thread 0).run, x.1.save)) = some (1, 0, .sleep p.1 p.2, none) ∧
      (allSettled p.1 = true ∨ (p.2 = true ∧ p.1.any Bound.settled = true)) ∧ firstPoison p.1 = none ∧ p.1 ≠ [] := by
  decide +kernel

theorem meets_WaitsEnd_signal :
    let s := ready.setWarp 1 0 fun w => { w with sigs := [⟨1, 40, 1⟩] }
    ((s.warpAt 0 0).map fun x => (x.1.id, x.2.1, x.2.2.sigs.find? fun g => g.tok == 1)) = some (1, 0, some ⟨1, 40, 1⟩) ∧
      s.pendingBefore 1 0 1 40 = false := by decide +kernel

/-! ### Witnesses: accesses -/

/-- The hypotheses that the clauses share. -/
def accessing (s : State) (o : Op) : Bool :=
  s.op? 50 == some o && o.started && o.wait == .none && o.parked == 0 && o.stalled == 0 && o.fail.isNone &&
    (o.acc.map fun a => (a.done, a.early)) == [(false, false)] && !isAcquire o.instr

/-- A load, and a store of 0x11223344. -/
theorem meets_AccessesPerform_loads :
    accessing (withOps [loading]) loading = true ∧ (withOps [loading]).mayPerformLane loading 0 = true ∧
      okWith ((withOps [loading]).reach ((withOps [loading]).opWho loading .lme) 0x20010 4 false { r := true }) (fun u ps =>
        !u.opSO loading && ps.length == 1) = true := by decide +kernel

def storing : Op := opOf (.st (fieldsFor (fun f => .st f .relaxed) .ui32) .relaxed) [] [{ lane := 0, addr := 0x20010, data := 0x11223344 }]

theorem meets_AccessesPerform_stores :
    accessing (withOps [storing]) storing = true ∧ (withOps [storing]).mayPerformLane storing 0 = true ∧
      okWith ((withOps [storing]).reach ((withOps [storing]).opWho storing .lme) 0x20010 4 true { w := true }) (fun u ps =>
        !(u.writeParts ps (leBytes 4 0x11223344)).opSO storing && ps == [⟨0x20010, 4, false⟩] &&
          !(u.store 0x20010 (leBytes 4 0x11223344)).opSO storing) = true ∧ Memory.wf (withOps [storing]).undef (withOps [storing]).mem = true := by
  decide +kernel

def adding : Op := opOf (.atom (fieldsFor (fun f => .atom f .add false .relaxed) .ui32) .add false .relaxed) []
  [{ lane := 0, addr := 0x20010, data := 7, queued := true }]

/-- Its act at the head of the queue of a slice. -/
theorem meets_AccessesPerform_atomics :
    let s := (withOps [adding]).setDie 0 fun d => { d with slices := updAt 5 (fun q => { q with loc := [⟨0x20010, .lane 50 0⟩] }) d.slices }
    accessing s adding = true ∧
      ((((s.die 0).slices[5]?).bind fun q => (Slice.grant q.ports.flatten.length q).pop).map fun p => (p.1,
        let v := s.setDie 0 fun d => { d with slices := updAt 5 (fun _ => p.2) d.slices }
        okWith (v.reach (v.opWho adding .lme) 0x20010 4 true { r := true, w := true }) fun u ps => !(u.writeParts ps (leBytes 4 7)).opSO adding)) =
        some (⟨0x20010, .lane 50 0⟩, true) := by decide +kernel

/-! ### Witnesses: copies and multiplies -/

/-- A copy without rows left. -/
theorem meets_CopiesAndMultipliesPerform_copies :
    let o := { opOf (.tload (fieldsFor (fun f => .tload f false) .none) false) with prog := 4, shape := shape0 }
    (withOps [o]).op? 50 = some o ∧ queueOf o.instr = some .cpe ∧ o.started = true ∧ o.wait = .none ∧ o.parked = 0 ∧
      (withOps [o]).mayPerform o = true ∧ o.fail = none ∧ ((withOps [o]).crew? o.crew).isSome = true ∧ o.rowCount ≤ o.prog := by decide +kernel

/-- An HLOAD of the record at 131072. -/
theorem meets_CopiesAndMultipliesPerform_shapes :
    let o := opOf (.hload (fieldsFor .hload .none)) [0x20000]
    let s := withOps [o]
    s.op? 50 = some o ∧ o.wait = .none ∧ o.parked = 0 ∧ s.mayPerform o = true ∧ o.fail = none ∧ o.prog = 0 ∧ o.rowsDone = [] ∧ o.rows = [] ∧
      ((s.crew? o.crew).map fun c => okWith (s.planRow o c 0) fun u row => ((u.op? 50).map fun p =>
        okWith (u.rowSource p c 0 row.idx) fun v _ => v.op? 50 == some p).getD false) = some true := by decide +kernel

/-- An MZERO at the head of the queue of an MXE, and one that runs. -/
def zeroing : Op := opOf (.mzero (fieldsFor (fun f => .mzero f .d16 .d32) .f32) .d16 .d32)

theorem meets_CopiesAndMultipliesPerform_starts :
    (withOps [zeroing]).mxeHead 0 = some zeroing ∧ zeroing.started = true ∧ (withOps [zeroing]).mayPerform zeroing = true ∧ zeroing.prog = 0 ∧ isGang zeroing.instr = false ∧
      ((withOps [zeroing]).core 0).mxe = .idle ∧ (withOps [zeroing]).gangsFor 0 = none ∧ (withOps [zeroing]).mxeRefusal zeroing = none := by
  decide +kernel

theorem meets_CopiesAndMultipliesPerform_commits :
    let o := { zeroing with prog := 1 }
    let s := (withOps [o]).setCore 0 fun c => { c with mxe := .running 50 }
    (s.core 0).mxe = .running 50 ∧ s.op? 50 = some o ∧ o.prog ≠ 0 ∧ o.fail = none ∧ (s.crew? o.crew).isSome = true := by decide +kernel

/-- A gang of two cores, waiting for its second member, and one that has performed. -/
def ganging : Op :=
  { opOf (.mmag (fieldsFor (fun f => .mmag f 0) .bf16) 0) [0x0101, 0x0100_0001, 1, 999] with targets := [0, 1], holds := [0] }

theorem meets_CopiesAndMultipliesPerform_gangs :
    (withOps [ganging]).gangsFor 1 = some ganging ∧ (withOps [ganging]).memberSaved ganging 1 = false ∧ ((withOps [ganging]).core 1).mxe = .idle ∧
    (let o := { ganging with prog := 1 }
     (withOps [o]).op? 50 = some o ∧ isGang o.instr = true ∧ o.prog ≠ 0 ∧ o.fail = none ∧ ((withOps [o]).crew? o.crew).isSome = true) := by
  decide +kernel

/-! ### Witnesses: the fabric -/

/-- An FFLUSH with nothing left to cover. -/
theorem meets_FabricEventsSettle_flushes :
    let o := opOf (.fflush (fieldsFor (fun f => .fflush f false) .none) false)
    let s := withOps [o]
    s.op? 50 = some o ∧ s.fabGoes o = true ∧ o.parked = 0 ∧ o.fail = none ∧ (s.ops.any fun p => o.flushCovers p) = false ∧
      ((s.warp? o.crew o.warp).map Warp.fabFails) = some [] := by decide +kernel

/-- An FSIG at endpoint 3, which answers, or fails in each class, or does not answer, the first time and the second. -/
theorem meets_FabricEventsSettle_signals :
    let o := opOf (.fsigTret (fieldsFor (fun f => .fsigTret f false) .none) false) [0, 0, 3]
    let s := withOps [o]
    s.op? 50 = some o ∧ s.fabGoes o = true ∧ o.parked = 0 ∧ o.fail = none ∧ s.fabContained o = none ∧ o.arg 2 ≠ s.endpoint ∧
      answerWhole .undelivered = some (.error 0) ∧ answerWhole .translation = some (.error 1) ∧ answerWhole .permission = some (.error 2) ∧
      answerWhole .lasting = some (.error 3) ∧ s.requestOpen o 0 = true ∧ o.resent.contains 0 = false ∧
      (let o := { o with resent := [0] }
       (withOps [o]).op? 50 = some o ∧ (withOps [o]).fabGoes o = true ∧ (withOps [o]).requestOpen o 0 = true ∧ perLaneFab o.instr = false) := by
  refine ⟨by decide +kernel, by decide +kernel, rfl, rfl, by decide +kernel, by decide +kernel, rfl, rfl, rfl, rfl, by decide +kernel⟩

/-- The request of lane 0 of an FLD from endpoint 3, lost a second time. -/
theorem meets_FabricEventsSettle_lanes :
    let a : LaneAcc := { lane := 0, addr := 0x20010, off := 3 }
    let o := { opOf (.fld (fieldsFor (fun f => .fld f .relaxed false) .ui32) .relaxed false) [] [a] with resent := [0] }
    let s := withOps [o]
    s.op? 50 = some o ∧ s.fabGoes o = true ∧ o.fail = none ∧ s.requestOpen o 0 = true ∧ o.resent.contains 0 = true ∧
      perLaneFab o.instr = true ∧ s.openLane o 0 = some a := by decide +kernel

/-- A read and a write of a peer, of a page of the pod window that it may read and write. -/
theorem meets_FabricEventsSettle_packets : ∀ act ∈ [PeerAct.read 4, .write [1, 2, 3, 4]],
    let p : PeerPacket := ⟨3, 0, 9, false, 0x20010, act, []⟩
    let s := (ready.mapPage 4095 0x20000 0x20000 0 81)
    s.reorder = [] ∧ s.seen.contains (3, 9) = false ∧ ({ s with reorder := [p] } : State).packetHeld p = false ∧
      okWith (({ s with reorder := [p] } : State).reachPacket p) (fun _ ps => ps.length == 1) = true := by decide +kernel

theorem meets_FabricEventsSettle_ports : (17 : Nat) < 18 ∧ ready.ports.getLsbD 17 = true := by decide +kernel

/-! ### Witnesses: threads -/

/-- A watchdog at its limit, with WDTRAP clear and set. -/
theorem meets_ThreadEventsTakeEffect_watchdog : ∀ b ∈ [false, true],
    let s := ready.setWarp 1 0 fun w => { w with wdCount := 2 ^ 22, wdtrap := b }
    ((s.warpAt 0 0).map fun x => (x.1.id, x.2.1, x.1.save, decide (2 ^ x.2.2.wdLimit.toNat ≤ x.2.2.wdCount.toNat), x.2.2.wdtrap,
      x.2.2.threads.any fun t => t.run == .running && !t.inHandler)) = some (1, 0, none, true, b, true) := by decide +kernel

/-- A held Watchdog, and a held Pre-empt Request. -/
theorem meets_ThreadEventsTakeEffect_traps : ∀ b ∈ [(true, true), (false, true)],
    let s := ready.setThread 1 0 0 fun t => { t with owed := false, heldWatchdog := b.1, heldPreempt := b.2 }
    ((s.thread? 1 0 0).map fun t => (t.run, t.inHandler, t.owed, t.heldWatchdog, t.heldPreempt)) = some (.running, false, false, b) := by
  decide +kernel

/-- A load whose lane has still to perform. -/
theorem meets_ThreadEventsTakeEffect_retries : (withOps [loading]).op? 50 = some loading ∧ loading.started = true ∧ loading.fail = none ∧
    loading.wait = .none ∧ (loading.acc.any fun a => a.lane == 0 && !a.done) = true ∧ (withOps [loading]).mayPerformLane loading 0 = true := by
  decide +kernel

/-- The line at 65536, when the fetch buffer holds none; its page is code, and the line CLEAN. -/
theorem meets_ThreadEventsTakeEffect_lines :
    let s := ready.setWarp 1 0 fun w => { w with fbuf := [] }
    ((s.warpAt 0 0).map fun x => x.2.2.fbuf) = some [] ∧ s.fetchHeld 1 0 0 = false ∧
      okWith (s.readLine 0 1 (lineBase 65536)) (fun _ b => b == line0.bits) = true := by decide +kernel

/-! ### Witnesses: dispatch -/

/-- The launch has another cluster to start, alone or all of them at once. -/
def asking (cor : Bool) : State :=
  { ready with crews := [], launches := ready.launches.map fun l => { l with clusters := 2, cor := cor, nextCl := if cor then 0 else 1, live := [] } }

theorem meets_DispatchersGrant_clusters : (asking false).hostHead 0 = some (.cluster 1) ∧
    (((asking false).launch? 1).map fun l => (l.cor, (asking false).placeCluster l l.nextCl)) = some (false, some (0, 0, 0)) ∧
    (asking false).turnOf 0 .cluster = true := by decide +kernel

theorem meets_DispatchersGrant_coresident : (asking true).hostHead 0 = some (.cluster 1) ∧
    (((asking true).launch? 1).map Launch.cor) = some true ∧ (asking true).turnOf 0 .cluster = true ∧
    (State.startAll 200 (asking true) 1 0).isSome = true := by decide +kernel

/-- Ended threads in the crew. -/
def finished (s : State) : State :=
  s.setCrew 1 fun c => { c with warps := c.warps.map fun w => { w with threads := w.threads.map fun t => { t with run := .ended } } }

/-- A crew whose threads have exited, of a launch and of a bin. -/
theorem meets_DispatchersGrant_releases : ∀ k ∈ [CrewKind.launch, .bin 0 3],
    let s := finished (ready.setCrew 1 fun c => { c with kind := k })
    ((s.crew? 1).map fun c => (c.kind, s.crewEnded c)) = some (k, true) := by decide +kernel

/-- A SPAWN on core 0, whose bin 3 takes records at 65536. -/
def binned (b : Bin) : State := ready.setBin 0 3 fun _ => b

theorem meets_DispatchersGrant_records :
    let a : LaneAcc := { lane := 0, addr := 65536, data := 5 }
    let o := { opOf (.spawn (fieldsFor .spawn .b128)) [] [a] with targets := [0] }
    let s := withOps [o] (binned { st := .idle, owner := 1, entry := 65536, regs := 16 })
    s.op? 50 = some o ∧ o.started = true ∧ a.done = false ∧ a.fail = none ∧ s.mayPerform o = true ∧ s.earlierSpawn o a = false ∧
      s.recomputeOf (some o.crew) = none ∧ (s.deposit (o.targets.headD 0) o.launch 65536 a.data).isSome = true := by decide +kernel

theorem meets_DispatchersGrant_timers :
    let s := (binned { st := .holding, owner := 1, entry := 65536, wait := 10, regs := 16, recs := [⟨65536, 5, 0⟩] }).setCore 0 fun c => { c with cyc := 10 }
    (s.bin 0 3).st = .holding ∧ (s.bin 0 3).wait ≠ 0 ∧ (s.bin 0 3).wait.toNat ≤ s.binTimer 0 3 := by decide +kernel

theorem meets_DispatchersGrant_warps :
    let s := binned { st := .forming, owner := 1, entry := 65536, regs := 16, recs := [⟨65536, 5, 0⟩] }
    s.binHead 0 = some (0, 3) ∧ (s.launch? (s.bin 0 3).owner).isSome = true ∧ s.turnOf 0 .bin = true := by decide +kernel

/-- A queue whose first item is ready, with room in its bin; the die's TLB holds the item's page. -/
theorem meets_DispatchersGrant_refills :
    let w : WorkQueue := { en := true, owner := 1, base := 0x20000, logcap := 4, bin := 3, core := 0, low := 2, head := 0, rsv := 1, ready := [(0, true, false)] }
    let v := (working.setBin 0 3 fun _ => { st := .idle, owner := 1, entry := 65536, regs := 16 }).setQueue 0 7 fun _ => w
    let s := (v.reach (v.tbeWho 0 1 none) (w.item 0) 16 false { r := true }).1
    s.refillOp? 0 7 = none ∧ s.queue 0 7 = w ∧ w.count ≠ 0 ∧ (s.bin 0 3).recs.length < w.low ∧ (s.bin 0 3).owner = w.owner ∧
      okWith (s.reach (s.tbeWho 0 1 none) (w.item 0) 16 false { r := true }) (fun u _ =>
        u.dies == s.dies && u.cores == s.cores && u.ops == s.ops) = true ∧ 0 < s.dies.length ∧ 7 < (s.die 0).queues.length := by decide +kernel

/-! ### Witnesses: tasks and recomputes -/

/-- Stream 2 of the launch, and a task of one range whose crew is the crew. -/
def version0 : Version where
  id := 60
  tile := 0
  len := 1
  handle := 4
  current := true
  writer := none
  poison := none

def task0 (st : TaskSt) : Task where
  entry := 5
  seq := 1
  stream := 2
  launch := 1
  desc := [65536, 0, 0, 0, 0, 0, 0, 0, 0, 0, 0, 0, 0, 0, 0, 0]
  st := st
  op := 50
  keys := []
  reads := []
  writes := [60]
  deps := []
  nbv := 2
  crew := some 1

def recipe0 : Recipe where
  idx := 9
  depth := 1
  nbv := 2
  entry := 65536
  needs := 0
  arg0 := 0
  arg1 := 0
  codegen := 1
  stream := 2
  srcs := []
  dsts := [version0]

/-- The state with stream 2, a task and a recipe, and the recompute reserve of its launch on core 95. -/
def tasking (st : TaskSt) (s : State := working) : State :=
  let s := s.setDie 0 fun d =>
    { d with
      streams := d.streams.set 2 { used := true, owner := 1, base := 0x20000, tiles := 16, versions := [version0] }
      tasks := [task0 st], recipes := [recipe0] }
  { s with launches := s.launches.map fun l => { l with reserves := [(0, 95)], rcslots := 1 } }

theorem meets_TasksAndRecomputesGoOn_entries :
    let f := fieldsFor .tsubmit .none
    let o := opOf (.tsubmit f) [2, 0x20000]
    (withOps [o]).streamHead 0 2 = some o ∧ o.wait = .none ∧ o.parked = 0 ∧ (withOps [o]).mayPerform o = true := by decide +kernel

theorem meets_TasksAndRecomputesGoOn_dispatch :
    (((tasking .ready).chosenTask 0).map fun t => (t, (tasking .ready).taskCore 0 t)) = some (task0 .ready, some 0) ∧
    (tasking .ready).turnOf 0 .task = true := by decide +kernel

theorem meets_TasksAndRecomputesGoOn_completion :
    let s := finished (tasking .running)
    (((s.die 0).tasks.find? fun k => k.entry == 5).map fun k => (k.st, k.crew)) = some (.running, some 1) ∧
      ((s.crew? 1).map fun c => (s.crewEnded c, c.hasStopped)) = some (true, false) := by decide +kernel

/-- A task one of whose tokens is POISONED. -/
theorem meets_TasksAndRecomputesGoOn_poison :
    let s := (tasking .waiting).setDie 0 fun d => { d with tasks := [{ task0 .waiting with keys := [⟨2, 30, .poisoned 4 5⟩] }] }
    (((s.die 0).tasks.find? fun k => k.entry == 5).map fun k => (k.st, s.taskPoison 0 k)) = some (.waiting, some 5) := by decide +kernel

/-- A line of an ordinary page, and one of a PRESENT tile. -/
theorem meets_TasksAndRecomputesGoOn_evictions :
    (working.tileAt (0x400 * 128) = none ∧ working.moved = [] ∧ working.salvaged (0x400 * 128) = none) ∧
    (let s := { tasking .ready with tiles := [⟨0x20, .present, 0, 2, 0⟩], resident := [0x400] }
     0x400 ∈ s.resident ∧ (s.tileAt (0x400 * 128)).map (fun t => (t.st, s.coverOf t)) = some (.present, some recipe0) ∧ recipe0.ppin = 0 ∧
       recipe0.rpin = 0) := by
  decide +kernel

/-- A request that waits for its launch's reserve, and one whose crew has ended. -/
theorem meets_TasksAndRecomputesGoOn_recomputes :
    let q : Request := { recipe := 9, level := 1, todo := [], queued := some 3 }
    let s := (tasking .ready).setDie 0 fun d => { d with requests := [q], recipes := [{ recipe0 with st := .open }] }
    s.nextRequest 0 = some q ∧ (s.recipe? 0 9).isSome = true ∧ ((s.reserveOf 0 2).map fun p => p.2) = some 95 := by decide +kernel

theorem meets_TasksAndRecomputesGoOn_settlements :
    let q : Request := { recipe := 9, level := 1, todo := [], crew := some 1 }
    let gen := working.codeGen 1 65536
    let s := finished ((tasking .ready).setDie 0 fun d => { d with requests := [q], recipes := [{ recipe0 with st := .running, codegen := gen.getD 0 }] })
    (((s.die 0).requests.find? fun q => q.recipe == 9) = some q) ∧
      ((s.crew? 1).map fun c => (s.crewEnded c, (s.recipe? 0 9).map fun r => s.recomputeFailure 0 r c)) = some (true, some none) := by decide +kernel

/-- A form of the recipe engine at an address beyond 2^57, a TRELEASE at the head of its stream, and configurations that wait
for nothing more. -/
theorem meets_TasksAndRecomputesGoOn_forms :
    (let o := opOf (.bincfg (fieldsFor .bincfg .none)) [3, 65536, 1]
     (withOps [o]).op? 50 = some o ∧ o.started = true ∧ o.wait = .none ∧ (withOps [o]).mayPerform o = true ∧
       (withOps [o]).binWaits 50 o.core o.launch 3 65536 1 = false) ∧
    (let o := opOf (.wqcfg (fieldsFor .wqcfg .none)) [7, 0x20000, 1]
     (withOps [o]).op? 50 = some o ∧ (withOps [o]).mayPerform o = true ∧ (withOps [o]).queueBusy 50 (dieOfCore o.core) 7 = false) ∧
    (let o := opOf (.rcdrop (fieldsFor .rcdrop .none)) [0, 2 ^ 57]
     (withOps [o]).op? 50 = some o ∧ (withOps [o]).mayPerform o = true ∧ isRceForm o.instr = true ∧ 2 ^ 57 ≤ o.arg 1) ∧
    (let o := opOf (.trelease (fieldsFor .trelease .none)) [2, 4]
     (withOps [o]).op? 50 = some o ∧ (withOps [o]).mayPerform o = true ∧ ((withOps [o]).streamHead (dieOfCore o.core) (o.arg 0)).map Op.id = some 50) := by
  decide +kernel

/-! ### Witnesses: saves and ends -/

theorem meets_SavesAndLaunchesEnd_deadlines :
    let s := saving.setCrew 1 fun c => { c with pend := true, remain := 0, ctxarea := 0x200000 }
    ((s.crew? 1).map fun c => (c.pend, c.remain, c.save, c.ctxarea.toNat % 4096, decide (c.ctxarea.toNat + c.area.size ≤ 2 ^ 57),
      let r := State.checkPages c ((c.area.size + 4095) / 4096) s c.ctxarea.toNat
      r.2 && (r.1.settleEntries c).ops.all fun o => !o.captured 1)) = some (true, 0, none, 0, true, true) := by decide +kernel

theorem meets_SavesAndLaunchesEnd_writes :
    let sv : SaveSt := { base := 0x200000, forced := true, warp := 0, lanes := 0, status := .absent, discarded := 0 }
    let s := saving.setCrew 1 fun c => { c with save := some sv }
    ((s.crew? 1).map fun c => (c.save, s.saveSettled c, okWith (s.reach (s.saveWho c) 0x200000 c.area.size true { w := true }) fun u _ =>
      decide (u.crew? 1 = some c))) = some (some sv, true, true) := by decide +kernel

theorem meets_SavesAndLaunchesEnd_ends :
    (let s := { ready with crews := [] }
     ((s.launch? 1).map fun l => (l.st, s.endedAlone l)) = some (.running, true)) ∧
    (let s : State := { ready with crews := [], launches := ready.launches.map fun l => { l with st := .ending 1 (some 7) } }
     ((s.launch? 1).map fun l => (l.st, s.endSettled l)) = some (.ending 1 (some 7), true)) := by decide +kernel

/-! ### Witnesses: the host and the homes -/

/-- READY, with half 1024 of a SHARED region. -/
def hosted (h : Option HalfSt) (recalls : List Recall := []) : State :=
  ({ working with bar0 := { working.bar0 with ready := true }, regions := [(0, .shared)], recalls := recalls } : State).setHalf 1024 h

theorem meets_HostAndHomeEvents_requests :
    let s := hosted none
    let w := hosted none [⟨1024, 1, true⟩]
    s.bar0.ready = true ∧ s.hostRefused 1024 = false ∧ s.salvaged (1024 * 64) = none ∧ s.isPoisoned (1024 * 64) 64 = false ∧
      s.hostHeld (.read (1024 * 64) 64) s.nextId = false ∧ s.hostHeld (.write (1024 * 64) (List.replicate 64 0) false) s.nextId = false ∧
      w.hostInside (.read (1024 * 64) 64) = true ∧ w.hostHeld (.read (1024 * 64) 64) w.nextId = true ∧ working.bar0.ready = false := by
  decide +kernel

theorem meets_HostAndHomeEvents_halves : ∀ h ∈ [none, some HalfSt.hs, some .hx],
    (hosted h).regionMode (1024 / 2 ^ 15) = .shared ∧ (hosted h).halfAt 1024 = h ∧ (hosted h).hostHeld (.evict 1024) (hosted h).nextId = false ∧
      (hosted h).hostRefused 1024 = false ∧ (hosted h).salvaged (1024 * 64) = none := by decide +kernel

theorem meets_HostAndHomeEvents_recalls : ∀ h ∈ [HalfSt.hs, .hx],
    let s := hosted (some h) [⟨1024, 1, true⟩]
    (s.recalls.find? fun r => r.half == 1024) = some ⟨1024, 1, true⟩ ∧ s.halfAt 1024 = some h := by decide +kernel

theorem meets_HostAndHomeEvents_migration : working.mayMigrate 0x900000 = true ∧ working.dieServes 0 = true ∧
    ¬ (0 = keyDie (0x900000 * 128) ∧ 7 = working.sliceOf 0x900000) ∧
    (({ working with moved := [(0x900000, 0, 7)] } : State).moved.any fun e => e.1 == 0x900000) = true := by decide +kernel

/-- A bank with eight refreshes postponed, and one with seven. -/
theorem meets_HostAndHomeEvents_refreshes :
    let s := (working.setRefresh 0 (bankKey 1 2) 7).setRefresh 0 (bankKey 1 3) 8
    (cellGet (bankKey 1 2) (s.die 0).refresh).getD 0 = 7 ∧ (cellGet (bankKey 1 3) (s.die 0).refresh).getD 0 = 8 := by decide +kernel

theorem meets_HostAndHomeEvents_failures : (working.die 1).failed = false ∧ working.moved = [] ∧ (working.die 1).acts = [] ∧
    (working.ops.all fun o => !working.waitsOn 1 o) = true ∧ (working.crews.all fun c => dieOfCore c.core != 1) = true := by decide +kernel

/-! ### Witnesses: registers, rings and commands -/

theorem meets_RegistersAndRings_xlrp :
    let s := working.setDie 0 fun d => { d with xlwp := 5, written := 5 }
    ((3 : Word) - (s.die 0).xlrp).toNat ≤ (s.die 0).ringUse ∧ (s.die 0).ringUse < 4096 := by decide +kernel

theorem meets_RegistersAndRings_heads :
    let s : State := { working with bar0 := { working.bar0 with ready := true, cplTail := 4, cplHead := 1 }, completions := [⟨7, 0, false, 0⟩] }
    s.bar0.ready = true ∧ ((3 : Word) - s.bar0.cplHead).toNat ≤ (s.bar0.cplTail - s.bar0.cplHead).toNat ∧ s.bar0.full = false := by
  decide +kernel

theorem meets_RegistersAndRings_records :
    let s := working.setDie 0 fun d => { d with v1 := [⟨1, 0, 3, 5⟩] }
    (s.die 0).v1 = [⟨1, 0, 3, 5⟩] ∧ (s.die 0).ringUse < 4096 := by decide +kernel

theorem meets_RegistersAndRings_shootdowns :
    let o := opOf (.tlbsd (fieldsFor (fun f => .tlbsd f .va) .none) .va) [4096, 0x20000, 1]
    let s := withOps [o]
    s.op? 50 = some o ∧ s.mayPerform o = true ∧ shootRefusal .va (o.arg 0) (o.arg 1) (o.arg 2) = none ∧
      s.drained (coverOfMode .va (o.arg 2) (o.arg 1) (o.arg 0)) 50 = true := by decide +kernel

/-- A state with a command at the head of the ring. -/
def commanded (ws : List Nat) (s : State := working) : State :=
  let s : State := { s with bar0 := { s.bar0 with ready := true, cmdBase := 0x1000, cmdTail := 1 } }
  (ws.zip (List.range 8)).foldl (fun (s : State) p => s.storeNat (hostMem + 0x1000 + 8 * p.2) 8 p.1) s

/-- Its command is the one with these words, and its words are well formed. -/
def commands (s : State) (ws : List Nat) : Bool :=
  match s.headCmd with
  | some c => c.words == ws ++ List.replicate (8 - ws.length) 0 && !c.malformed
  | none => false

/-- A record of one cluster of one crew of 128 threads. -/
def record0 : List Nat := [65536, 0x0000_0445_0000_007F, 2 ^ 32 + 1, 1, 0x83, 0, 0, 0, 0, 0, 0, 0, 0, 0, 0, 0x0000_0080_9594_9180]

theorem meets_CommandsComplete_launch :
    let ws := [1, 0x2000]
    let s := (record0.zip (List.range 16)).foldl (fun (s : State) p => s.storeNat (hostMem + 0x2000 + 8 * p.2) 8 p.1) (commanded ws)
    let r := LRec.mk (s.wordsAt (hostMem + 0x2000) 16)
    let l := r.launch s.nextLaunch (s.nextAsid s.nextLaunch) s.nextId 0 (s.placementOf r) (s.recipesOf r)
    commands s ws = true ∧ s.dieServes 0 = true ∧ s.launchRefused r l = false ∧ (s.rcmps.filter fun p => p.1 == l.asid) = [] := by
  decide +kernel

theorem meets_CommandsComplete_map :
    let ws := [2, 5, 0x40000, 0x50000, 80, 1]
    let s := commanded ws
    commands s ws = true ∧ ((framesOf 0x50000 (pageBytes 0)).all fun f => s.dieServes (frameDie f)) = true ∧
      0x40000 + pageBytes 0 ≤ 2 ^ 57 ∧ s.tables + 5 ≤ Config.tableCount ∧ s.pageRefused 5 0x40000 0x50000 0 80 = false ∧
      s.launchOfAsid 5 = none := by decide +kernel

theorem meets_CommandsComplete_launchctl :
    (let s := commanded [0x108, 1]
     commands s [0x108, 1] = true ∧ ((s.launch? 1).map Launch.alive) = some true ∧
       (s.crews.any fun k => k.launch == 1 && k.save.isSome) = false) ∧
    (let s := commanded [8, 1, 5000] { working with crews := [] }
     commands s [8, 1, 5000] = true ∧ ((s.launch? 1).map Launch.alive) = some true ∧ s.crews = []) ∧
    (let s := commanded [0x208, 1] { working with crews := [], launches := working.launches.map fun l => { l with st := .preempted } }
     commands s [0x208, 1] = true ∧ ((s.launch? 1).map fun l => (l.st, l.saves)) = some (.preempted, []) ∧ s.crews = []) := by
  decide +kernel

theorem meets_CommandsComplete_maps :
    (commands (commanded [0x302, 3]) [0x302, 3] = true) ∧
    (let s := commanded [0x202, 0x105]
     commands s [0x202, 0x105] = true ∧ (bandOfCode (0x105 / 256)).isSome = true ∧ s.dieServes 0 = true ∧ s.bandMapped 5 = false ∧
       touchesReserved (5 * 2 ^ 34) (2 ^ 34) = false ∧ bandOfCode (0x105 / 256) ≠ some (s.bandOf (5 * 2 ^ 34))) ∧
    (let s := commanded [0x402, 1, 65536, 64]
     commands s [0x402, 1, 65536, 64] = true ∧ (State.hostPublish 1 1024 1024 1 1 s 16).2 = 0) ∧
    (let s := commanded [0x102, 1, 0x20000, 0, 0, 1]
     commands s [0x102, 1, 0x20000, 0, 0, 1] = true ∧ s.shoots = [] ∧ 0x20000 % pageBytes 0 = 0 ∧ s.dieServes 0 = true) := by decide +kernel

theorem meets_CommandsComplete_others :
    (commands (commanded [0x203, 0, 0, 0]) [0x203, 0, 0, 0] = true ∧ (commanded [0x203, 0, 0, 0]).shoots = []) ∧
    (let s := commanded [0x104, 2 ^ 21, 3 * 2 ^ 21]
     commands s [0x104, 2 ^ 21, 3 * 2 ^ 21] = true ∧ s.dieServes (keyDie (3 * 2 ^ 21)) = true ∧ s.bandOf (3 * 2 ^ 21) = .rowMajor) ∧
    (let s := commanded [5, 0x4000, 0, 10]
     commands s [5, 0x4000, 0, 10] = true ∧ 0x4000 + 32 * ((s.errlog.filter fun e => 0 ≤ e.seq).take 10).length ≤ 2 ^ 51) ∧
    (let s := commanded [7, 0x4000, 1, 2, 3, 4] { working with secret := true }
     commands s [7, 0x4000, 1, 2, 3, 4] = true ∧ s.secret = true ∧ s.flash.q < 2 ^ 30) ∧
    (∀ sub ∈ [0, 1], commands (commanded [9 + 256 * sub, 0x4000, 64]) [9 + 256 * sub, 0x4000, 64] = true) := by decide +kernel

theorem meets_ResetsAndThrottling :
    (∀ r ∈ working.undef, 2 ^ 39 < r.hi → 2 ^ 39 ≤ r.lo) ∧ (commanded [6]).resetAsked 0 = true ∧ (commanded [0x106]).resetAsked 1 = true := by
  decide +kernel

/-! ### Witnesses: the step, the encoding and the invariant -/

/-- A NOP whose line the thread has entered: the hypotheses of the step statement. -/
theorem meets_StepsRunTheDecodedInstruction :
    let s := ready.setThread 1 0 0 fun t => { t with line := some line0, fresh := true, owed := false }
    let v := State.openCycle { s with agenda := [] } 0 0
    s.agenda = [.issue 0 0] ∧ s.dieFailed (dieOfCore 0) = false ∧
      (match v.quadOrder 0 0 with
       | (c, wi, w) :: _ =>
         c.save.isNone && !c.heldLoad && !w.defers &&
         (match v.choices c.id wi w with
          | g :: _ =>
            (match g.line, slotIndex g.pc with
             | some ln, some n =>
               g.mask != 0 &&
               ((lanesOf g.mask).all fun l => !(w.thread l).due && (w.thread l).line == some ln && !v.entryHeld c.id wi l (w.thread l)) &&
               ((v.sharers c.id wi g.pc ln).all fun l => !(w.thread l).owed) &&
               okWith (v.checkSlot c.id wi ln n) (fun v2 l2 =>
                 decode (slotOfLine l2.bits n) == decode 0 &&
                 (let named : State :=
                    { v2.holdLine c.id wi (maskOf (v.sharers c.id wi g.pc ln)) l2 false with cur := some ⟨c.id, wi, maskOf (v.sharers c.id wi g.pc ln), g.pc⟩ }
                  let i := Instr.nop (plainFields .none (.vec 0) (.vec 0) (.vec 0) (.vec 0) (.vec 0))
                  match issueOf i named with
                  | some I => (I.hold (named.accepts i)).isNone && I.act != 0
                  | none => false))
             | _, _ => false)
          | [] => false)
       | [] => false) = true := by decide +kernel

/-- An event turn. -/
theorem meets_StepsRunTheDecodedInstruction_events : (Instr.engineBarrierArrival).form = none := rfl

/-- A step of a state that meets the invariant. -/
theorem meets_StepsKeepTheInvariant : base.Inv ∧ ∃ t, step base = .next t := by
  refine ⟨⟨by decide +kernel, by decide +kernel, by decide +kernel, by decide +kernel, by decide +kernel⟩, ?_⟩
  have h : (match step base with | .next _ => true | _ => false) = true := by decide +kernel
  cases hs : step base with
  | next t => exact ⟨t, rfl⟩
  | fault f => rw [hs] at h; cases h
  | refused r => rw [hs] at h; cases h

theorem meets_EncodingsReadBack : (Instr.iadd goodAdd false).wf = true ∧ (Instr.iadd goodAdd false).form ≠ none ∧
    decode 0 = some (.nop (plainFields .none (.vec 0) (.vec 0) (.vec 0) (.vec 0) (.vec 0))) := by decide +kernel

/-! ### Worked examples of the spec, each run through one step -/

/-- The thread after one step that runs an instruction on some registers. -/
def ran (i : Instr) (vs : List (Nat × Word)) (us : List (Nat × DWord) := []) (fenv : BitVec 13 := 0) : Option Thread :=
  (encode i).bind fun w =>
    let s := (State.reset.placeSlot w).setWarp 1 0 fun x =>
      { x with
        u := us.foldl (fun u (p : Nat × DWord) => u.set p.1 p.2) x.u
        threads := x.threads.map fun t => { t with v := vs.foldl (fun v (p : Nat × Word) => v.set p.1 p.2) t.v, fenv := fenv } }
    match step s with
    | .next t => t.thread? 1 0 0
    | _ => none

/-- A vector register of it. -/
def ranV (i : Instr) (vs : List (Nat × Word)) (r : Nat) (us : List (Nat × DWord) := []) (fenv : BitVec 13 := 0) : Option Word :=
  (ran i vs us fenv).bind fun t => t.v[r]?

/-- NOP advances by a slot (02 R48). -/
theorem test_nop : (ran (.nop (plainFields .none (.vec 0) (.vec 0) (.vec 0) (.vec 0) (.vec 0))) []).map Thread.pc = some 65548 := by decide +kernel

/-- 05: IMULH.SI32 of -3 and 5. -/
theorem test_imulh : ranV (.imulh (plainFields .si32 (.vec 1) (.vec 2) (.vec 3) (.vec 0) (.vec 0))) [(2, 0xFFFF_FFFD), (3, 5)] 1 = some 0xFFFF_FFFF := by
  decide +kernel

/-- 05: BTAB with the table 0xCA gives B where C is 1 and A where C is 0. -/
theorem test_btab : ranV (.btab (plainFields .b32 (.vec 1) (.vec 2) (.vec 3) (.vec 4) (.imm 0xCA)))
    [(2, 0x1234_5678), (3, 0xFFFF_0000), (4, 0x00FF_00FF)] 1 = some 0x12FF_5600 := by decide +kernel

/-- 05: PACS.UI16X2 of the worked numbers gives the packed maxima and its decisions in p2 and p3. -/
theorem test_pacs : ((ran (.pacs (plainFields .ui16x2 (.vec 3) (.vec 0) (.vec 1) (.vec 2) (.pred 2)) false)
    [(0, 0x005A_0064), (1, 0x000A_0004), (2, 0x001E_0002)]).map fun t => (t.v[3]?, t.preds.getLsbD 2, t.preds.getLsbD 3)) =
    some (some 0x0066_0064, true, false) := by decide +kernel

/-- 05 R187: metrics 2^15 apart: the minimum takes c1, the maximum, which reverses the test, keeps c0. -/
theorem test_pacs_apart : [false, true].map (fun mx => (ran (.pacs (plainFields .si16x2 (.vec 3) (.vec 0) (.vec 1) (.vec 2) (.pred 2)) mx)
    [(0, 0x8000_0000)]).map fun t => (t.v[3]?, t.preds.getLsbD 2)) = [some (some 0x8000_8000, true), some (some 0, false)] := by decide +kernel

/-- 05: the cell key of (5.0, 3.5, 31.9), bounded and linear; and of (-0.5, 3.5, 31.9). -/
theorem test_cellkey :
    [(0x40A0_0000 : Word), 0xBF00_0000].map (fun x =>
      ranV (.cellkey (plainFields .f32 (.vec 9) (.vec 0) (.vec 1) (.vec 2) (.uni 4)) false) [(0, x), (1, 0x4060_0000), (2, 0x41FF_3333)] 9
        [(5, 0x3F00_0000_0000_0000), (6, 0x0004_0404)]) = [some 0x0000_0F12, some 0xFFFF_FFFF] := by decide +kernel

/-- 06: FMUL.F32 of 2^-70 with itself is the subnormal 2^-140, and with FTZ32 it is 0 with UF and NX. -/
theorem test_fmul : ((ran (.fmul (plainFields .f32 (.vec 2) (.vec 0) (.vec 0) (.vec 0) (.vec 0)) .dyn) [(0, 0x1C80_0000)]).map fun t =>
    (t.v[2]?, t.fflags)) = some (some 0x0000_0200, 0) := by decide +kernel

/-- 06: CVT8.E8X4.P4 of 1.0, -0.3125, 250.0 and 1.5 * 2^-10. -/
theorem test_cvt8 : ((ran (.cvt8 (plainFields .e8x4 (.vec 4) (.vec 0) (.vec 1) (.vec 2) (.vec 3)) ⟨3, false, true⟩ false)
    [(0, 0x3F80_0000), (1, 0xBEA0_0000), (2, 0x437A_0000), (3, 0x3AC0_0000)]).map fun t => (t.v[4]?, t.fflags)) =
    some (some 0x027F_B240, 7) := by decide +kernel

/-- 08 R263: the low halves of A and B, and the sign-extended half of A. -/
theorem test_bysel :
    [(0x0504_0100 : Word), 0x2121_0100].map (fun c =>
      ranV (.bysel (plainFields .b32 (.vec 1) (.vec 2) (.vec 3) (.vec 4) (.vec 0))) [(2, 0x1122_C344), (3, 0x5566_7788), (4, c)] 1) =
      [some 0x7788_C344, some 0xFFFF_C344] := by decide +kernel

/-- 08 R264: TLU.N2 of the worked numbers. -/
theorem test_tlu : ranV (.tlu (plainFields .b32 (.vec 0) (.vec 4) (.vec 1) (.vec 2) (.vec 0)) 1)
    [(4, 0x4433_2211), (5, 0x8877_6655), (1, 0x0920_0700), (2, 0xEE)] 0 = some 0xEEEE_8811 := by decide +kernel

/-- 15 R442: the tile-swizzled aperture turns line 71 of its row into sub-channel 67. -/
theorem test_apertures : placeOf 0x0000_0100_0004_2380 = .hbm 0x4_2180 .swizzled := by decide +kernel

/-- 17 R484: the offsets of the sections of the worked area. -/
theorem test_area : let d : AreaDims := ⟨2, 32, 4, 1, 16384⟩
    (List.range 10).map (fun n => (d.sizes.take n).sum) = [0, 256, 2304, 14592, 14848, 15872, 48704, 67136, 83520, 83648] := by decide +kernel

/-! ### The assembler -/

/-- The fragment of 02 R90 that adds two constants. -/
def fragment : List AsmStmt :=
  let g : Guard := ⟨false, 0⟩
  let add (d b : Opd) : Instr := .iadd (plainFields .si32 d (.vec 0) b (.vec 0) .absent) false
  [.text, .entry "start", .crew (.num 32) (.num 1) (.num 1), .regs (.num 8), .label "start", .instr (.movi ⟨g, g, .si32, .vec 0, 5⟩ false),
   .instr (.movi ⟨g, g, .si32, .vec 1, 7⟩ false), .pair, .instr (add (.vec 2) (.vec 1)), .instr (add (.vec 3) (.imm 1)),
   .jump false g g "done", .label "done", .instr (.exit (plainFields .none (.vec 0) (.vec 0) (.vec 0) (.vec 0) (.vec 0)))]

/-- 02 R90: two lines; LW.PAIR is 011; the branch is 0x0100_0000_0000_0000_0000_0008 with LW.SPAR 0; both labels are targets. -/
theorem test_assembler : (assemble 0x10000 0x20000 fragment).toOption.map (fun m =>
    m.text.map fun b => (slotOfLine b 4, bitsNat (lineWord b) 26 24, bitsNat (lineWord b) 31 27, bitNat (lineWord b) 23, lineSound b)) =
    some [(0x0100_0000_0000_0000_0000_0008, 3, 1, false, true), (0, 0, 1, false, true)] := by decide +kernel

/-- The slot of a source of one instruction. -/
def slotText (src : String) : Option Nat :=
  match mbas 0 0x1000 src with
  | .ok m => m.text.head?.map fun b => slotOfLine b 0 |>.toNat
  | .error _ => none

/-- 02 R90: the text of the fragment gives its statements. -/
theorem test_fragmentText : (asmRead ("        .text\n        .entry  start\n        .crew   32, 1, 1\n        .regs   8\n" ++
    "start:  MOVI.SI32  v0, 5 ; five\n        movi.si32  V1, 0x7\n        .PAIR\n        IADD.SI32  v2, v0, v1\n" ++
    "        IADD.SI32  v3, v0, 1\n        BRA        done\ndone:   EXIT\n").toList).toOption.bind
      (fun xs => (assemble 0x10000 0x20000 xs).toOption) = (assemble 0x10000 0x20000 fragment).toOption := by decide +kernel

/-- The worked encodings: 02 R80, 05 R172, 06 R209, 07 R225, 12 R346 and 13 R371. -/
theorem test_encodings :
    ["TLOAD q4, h2, s6 >t3 <t1", "BTAB.B32 v1, v2, v3, v4, 0x96", "FFMA.RZ.F32 v4, v5, v6, v7", "ST.B32.REL v13, [v10:11]",
     "SPAWN v4:7, s2, +1,0 >t3"].map slotText =
      [some 0x9100_0000_0844_8822_0660_3601, some 0x1400_0120_0001_0020_0300_4C96, some 0x3008_01C0_1004_0050_0600_7000,
       some 0x6100_0120_200D_00AC_BF60_0E00, some 0xC000_0160_0004_202C_0160_3E00] := by decide +kernel

/-- The worked encodings: 08 R254, 09 R277, 11 R314, 14 R419, 15 R435, 16 R465 and 17 R489. -/
theorem test_encodings_engines :
    ["POLL.MASK.B32 s7, p2", "CODEPUB.CLUSTER s3, [s2] >t4 <t2", "MMAG.BF16 a0, q0, s12 >t5 <s10", "RCDROP s8, [s1] >t3",
     "RGNSW.SHARED s4, [s2] >t3", "TLBSD.VA s4, [s2], s6 >t3", "CTXLOAD s4, [s2] >t3"].map slotText =
      [some 0x5100_0120_3207_4020_0000_0000, some 0x8000_0000_0203_202C_7F60_4602, some 0xA100_01A0_0800_8402_0C60_570A,
       some 0xCB00_0000_0208_2010_0060_3E00, some 0xD300_0000_1204_2020_0060_3E00, some 0xD000_0000_0204_2022_0660_3E00,
       some 0xD500_0000_0204_2020_0060_3E00] := by decide +kernel

/-- 02 R84, R89; 05 R166; 07 R224: no type, two types, an immediate that does not fit, a reach on a relaxed load, and an offset
on a strong one. -/
theorem test_refusedText : ["IADD v1, v2, 3", "IADD.UI32.SI32 v1, v2, 3", "IADD.UI32 v1, v2, 256", "LD.B32.CREW v1, [s2]",
    "LD.B32.ACQ v1, [s2+4]"].map slotText = [none, none, none, none, none] := by decide +kernel

/-- 02 R514: the worked record. -/
theorem test_shape : (asmShape [] [("ROWS", .num 32), ("COLS", .num 32), ("SFMT", .num 0x0E), ("DFMT", .num 0x0E), ("REACH", .num 2),
    ("OBS", .num 0x3F), ("SPITCH", .num 128), ("DPITCH", .num 128)]) = some (0x0020_0020_03F4_01CE + 0x0000_0080_0000_0080 * 2 ^ 64) := by
  decide +kernel

end Sys2Proof.Tests
end

/-! PROOFS. 01 R38, R43, R46; 04 R133, R151; 09 R268; 17 R475: the events that reach threads, and the retries of accesses.
Each event has a lemma that says what it comes to when it is due; O47 is put together from these. -/

namespace Sys2Proof.Machine

section

/-! ### Asynchronous causes (17 R475) -/

variable {s : State} {id w l : Nat} {t : Thread}

/-- A thread that owes no entry settles none. -/
theorem State.settleOwed_of_not_owed (ht : s.thread? id w l = some t) (howed : t.owed = false) : s.settleOwed id w l = s := by
  simp [State.settleOwed, ht, howed]

/-- A running thread outside its handler takes an asynchronous cause at its PC. -/
theorem State.asyncTrap_of_running (cause : Nat) (ht : s.thread? id w l = some t) (hrun : t.run = .running)
    (hh : t.inHandler = false) (howed : t.owed = false) :
    s.asyncTrap id w l cause = s.trap id w l { cause := cause, pc := t.pc } := by
  simp [State.asyncTrap, State.settleOwed_of_not_owed ht howed, ht, hrun, hh, Thread.gone]

/-- The same for a thread that changes first, which is how it gives up the cause that it takes. -/
theorem State.asyncTrap_setThread_of_running (cause : Nat) (f : Thread → Thread) (ht : s.thread? id w l = some t)
    (hrun : (f t).run = .running) (hh : (f t).inHandler = false) (howed : (f t).owed = false) :
    (s.setThread id w l f).asyncTrap id w l cause =
      (s.setThread id w l f).trap id w l { cause := cause, pc := (f t).pc } :=
  State.asyncTrap_of_running cause (by rw [State.thread?_setThread, ht]; simp) hrun hh howed

/-- A held Watchdog is taken first. -/
theorem State.takeHeld_of_heldWatchdog (ht : s.thread? id w l = some t) (hrun : t.run = .running) (hh : t.inHandler = false)
    (howed : t.owed = false) (hw : t.heldWatchdog = true) :
    s.takeHeld id w l =
      (s.setThread id w l fun x => { x with heldWatchdog := false }).trap id w l { cause := 0x16, pc := t.pc } := by
  simp only [State.takeHeld, State.settleOwed_of_not_owed ht howed, ht, hh, hw, if_true, Bool.false_eq_true, if_false]
  exact State.asyncTrap_setThread_of_running 0x16 _ ht hrun hh howed

/-- A held Pre-empt Request is taken where no Watchdog is held. -/
theorem State.takeHeld_of_heldPreempt (ht : s.thread? id w l = some t) (hrun : t.run = .running) (hh : t.inHandler = false)
    (howed : t.owed = false) (hw : t.heldWatchdog = false) (hp : t.heldPreempt = true) :
    s.takeHeld id w l =
      (s.setThread id w l fun x => { x with heldPreempt := false }).trap id w l { cause := 0x18, pc := t.pc } := by
  simp only [State.takeHeld, State.settleOwed_of_not_owed ht howed, ht, hh, hw, hp, if_true, Bool.false_eq_true, if_false]
  exact State.asyncTrap_setThread_of_running 0x18 _ ht hrun hh howed

end

section

/-! ### Events of a warp (01 R38; 04 R133, R151; 09 R268) -/

variable {s : State} {core slot wi : Nat} {c : Crew} {w : Warp}

/-- TRAP_ENTRY takes the held cause of a thread of a crew that is not being saved. -/
theorem exec_trapEntry (lane : Nat) (hat : s.warpAt core slot = some (c, wi, w)) (hsave : c.save = none) :
    exec (.trapEntry core slot lane) s = .next (s.takeHeld c.id wi lane) := by
  simp [exec, execTrapEntry, hat, hsave]

/-- What a watchdog that fires notes before it acts: the warp's count starts again, and its core counts the firing. -/
def State.watchdogNoted (s : State) (core id wi : Nat) : State :=
  (s.setWarp id wi Warp.progress).setCore core fun k => { k with wdevt := k.wdevt + 1 }

/-- A firing without WDTRAP acts as a YIELD. -/
theorem exec_watchdogFire_yield (hat : s.warpAt core slot = some (c, wi, w)) (hlim : 2 ^ w.wdLimit.toNat ≤ w.wdCount.toNat)
    (hsave : c.save = none) (htrap : w.wdtrap = false) :
    exec (.watchdogFire core slot) s =
      .next ((s.watchdogNoted core c.id wi).setWarp c.id wi fun x => { x with wdYield := true }) := by
  have hdue : ¬ (w.wdCount.toNat < 2 ^ w.wdLimit.toNat ∨ c.save.isSome = true) := by simp [hsave, hlim]
  simp only [exec, execWatchdogFire, hat, if_neg hdue, htrap, Bool.false_eq_true, false_and, if_false, State.watchdogNoted]

/-- A running thread outside its handler is one that a Watchdog trap can reach. -/
theorem trappable_of_running {t : Thread} (h : (t.run == .running && !t.inHandler) = true) :
    (!t.gone && t.run != .halted && !t.inHandler) = true := by
  obtain ⟨hrun, hh⟩ : t.run = .running ∧ t.inHandler = false := by simpa using h
  simp [Thread.gone, hrun, hh]

/-- A firing with WDTRAP reaches every thread of the warp, once one of them can take it. -/
theorem exec_watchdogFire_trap (hat : s.warpAt core slot = some (c, wi, w)) (hlim : 2 ^ w.wdLimit.toNat ≤ w.wdCount.toNat)
    (hsave : c.save = none) (htrap : w.wdtrap = true)
    (hrun : (w.threads.any fun t => t.run == .running && !t.inHandler) = true) :
    exec (.watchdogFire core slot) s =
      .next ((List.range w.threads.length).foldl (fun v l => v.asyncTrap c.id wi l 0x16) (s.watchdogNoted core c.id wi)) := by
  have hdue : ¬ (w.wdCount.toNat < 2 ^ w.wdLimit.toNat ∨ c.save.isSome = true) := by simp [hsave, hlim]
  have hany : (w.threads.any fun t => !t.gone && t.run != .halted && !t.inHandler) = true := by
    obtain ⟨t, hmem, ht⟩ := List.any_eq_true.mp hrun
    exact List.any_eq_true.mpr ⟨t, hmem, trappable_of_running ht⟩
  simp only [exec, execWatchdogFire, hat, if_neg hdue, htrap, hany, and_self, if_true, State.watchdogNoted]

/-- A line that the buffer lacks, and that no thread is held from fetching, arrives with what its home answers. -/
theorem exec_fetchLineArrival {line : VAddr} {u : State} {b : LineBits} (hat : s.warpAt core slot = some (c, wi, w))
    (hnew : (w.fbuf.any fun x => x.va == lineBase line) = false)
    (hfree : (List.range w.threads.length).any (s.fetchHeld c.id wi) = false)
    (hread : s.readLine core (s.asidOf c) (lineBase line) = (u, .ok b)) :
    exec (.fetchLineArrival core slot line) s = .next (u.buffer c.id wi ⟨lineBase line, b⟩) := by
  simp only [exec, execFetchLineArrival, hat, hnew, hfree, Bool.or_self, Bool.false_eq_true, if_false, hread]

theorem exec_tstatPoisonClear (hat : s.warpAt core slot = some (c, wi, w)) :
    exec (.tstatPoisonClear core slot) s = .next (s.setWarp c.id wi fun w => { w with tstat := 0 }) := by
  simp only [exec, execTstatPoisonClear, hat]

theorem exec_joinRegisterWrite {join : Nat} (m : Mask) (hat : s.warpAt core slot = some (c, wi, w)) (hjoin : join < 8) :
    exec (.joinRegisterWrite core slot join m) s = .next (s.setWarp c.id wi fun w => w.setJoin join m) := by
  simp only [exec, execJoinRegisterWrite, hat, hjoin, if_true]

end

section

/-! ### Retries (01 R43, R46) -/

variable {s : State} {n unit : Nat} {o : Op} {f : Fields} {str : Strength}

/-- A load goes through a queue of the LME. -/
theorem queueOf_ld (f : Fields) (str : Strength) : queueOf (.ld f str) = some .lme := rfl

/-- A started load makes the access of a lane that has still to perform and that nothing earlier holds back. -/
theorem State.accessing_of_ld (hi : o.instr = .ld f str) (hs : o.started = true) (hf : o.fail = none) (hw : o.wait = .none)
    (hl : ∃ a ∈ o.acc, a.lane = unit ∧ a.done = false) (hm : s.mayPerformLane o unit = true) : s.accessing o unit = true := by
  obtain ⟨a, hmem, rfl, hdone⟩ := hl
  have hopen : (o.acc.any fun b => b.lane == a.lane && !b.done && s.mayPerformLane o b.lane) = true :=
    List.any_eq_true.mpr ⟨a, hmem, by simp [hdone, hm]⟩
  simp [State.accessing, Op.makesNoAccess, hf, hw, hi, hs, queueOf_ld, lanesAlone, hopen]

/-- A read of a load that is retried is logged, and counted by the home engine of the core's die. -/
theorem State.retryOp_of_ld (ho : s.op? n = some o) (hi : o.instr = .ld f str) (ha : s.accessing o unit = true) :
    s.retryOp n unit 2 false =
      (s.logErr 1 2 o.origin (o.unitAddr unit) o.launch 0).setDie (dieOfCore o.core) fun d => { d with hmevt := d.hmevt + 1 } := by
  have hretried : readsRetried o.instr = true := by simp [hi, readsRetried, accessOf]
  have hwalks : onlyWalks o.instr = false := by simp [hi, onlyWalks, isRceForm]
  have hqueue : queueOf o.instr = some .lme := by rw [hi, queueOf_ld]
  simp [State.retryOp, ho, ha, hretried, hwalks, hqueue, State.countRetry]

theorem exec_readRetry_read (ho : s.op? n = some o) (hi : o.instr = .ld f str) (ha : s.accessing o unit = true) :
    exec (.readRetry (.read n unit) false) s =
      .next ((s.logErr 1 2 o.origin (o.unitAddr unit) o.launch 0).setDie (dieOfCore o.core) fun d => { d with hmevt := d.hmevt + 1 }) :=
  congrArg Host.Outcome.next (State.retryOp_of_ld ho hi ha)

end

/-- Settles O47: each event by what it comes to when it is due. That a Watchdog trap reaches every thread of the warp at once
is the model's choice (log 25), and so is counting the retried read of a load in `%hmevt` of the core's die (log 42). -/
theorem threadEventsTakeEffect : Obligations.ThreadEventsTakeEffect := by
  unfold Obligations.ThreadEventsTakeEffect
  intro s
  refine ⟨fun core slot wi c w hat => ⟨fun hlim hsave => ⟨?_, ?_⟩, fun lane t ht hsave hrun hh howed => ⟨?_, ?_⟩, ?_, ?_, ?_⟩, ?_, ?_, ?_⟩
  · exact exec_watchdogFire_yield hat hlim hsave
  · exact exec_watchdogFire_trap hat hlim hsave
  · intro hw
    rw [exec_trapEntry lane hat hsave, State.takeHeld_of_heldWatchdog ht hrun hh howed hw]
  · intro hw hp
    rw [exec_trapEntry lane hat hsave, State.takeHeld_of_heldPreempt ht hrun hh howed hw hp]
  · intro line u b hnew hfree hread
    exact exec_fetchLineArrival hat hnew hfree hread
  · exact exec_tstatPoisonClear hat
  · intro join m hjoin
    exact exec_joinRegisterWrite m hat hjoin
  · intro line
    rfl
  · intro n unit o f str ho hi hs hf hw hl hm
    exact exec_readRetry_read ho hi (State.accessing_of_ld hi hs hf hw hl hm)
  · intro core slot
    rfl

end Sys2Proof.Machine

/-! PROOFS. 01 R24, R33, R35; 13 R375 to R382; 17 R491: the grants of the dispatchers, releases, records and refills. Each
event has a lemma that says what it comes to when it is due; O48 is put together from these. -/

namespace Sys2Proof.Machine

section

/-! ### Grants of the dispatchers (01 R24, R35; 17 R491) -/

variable {s u : State} {die n : Nat} {l : Launch}

/-- The next cluster of a launch starts where it has a place, once its source has the turn. -/
theorem exec_clusterDispatch {d : Nat} {k : Nat × Nat} (hh : s.hostHead die = some (.cluster n)) (hl : s.launch? n = some l)
    (hcor : l.cor = false) (ht : s.turnOf die .cluster = true) (hp : s.placeCluster l l.nextCl = some (d, k)) :
    exec (.clusterDispatch die) s =
      .next ((s.startCluster n l.nextCl d k).setDie die fun x => { x with served := .cluster }) := by
  simp only [exec, execClusterDispatch, hh, hl, hcor, ht, hp, Bool.not_true, Bool.or_self, Bool.false_eq_true, if_false,
    State.noteServed]

/-- The clusters of a co-resident launch start all at once. -/
theorem exec_coresidentLaunchGrant (hh : s.hostHead 0 = some (.cluster n)) (hl : s.launch? n = some l) (hcor : l.cor = true)
    (ht : s.turnOf 0 .cluster = true) (hu : State.startAll 200 s n 0 = some u) :
    exec .coresidentLaunchGrant s = .next (u.setDie 0 fun x => { x with served := .cluster }) := by
  simp only [exec, execCoresidentLaunchGrant, hh, hl, hcor, ht, hu, Bool.not_true, Bool.or_self, Bool.false_eq_true, if_false,
    Option.map_some, Option.getD_some, State.noteServed]

/-- The load of a saved crew is granted as a request of the cluster source. -/
theorem exec_ctxloadGrant {o : Op} (ho : s.op? n = some o) (hw : o.wait = .grant)
    (hh : s.hostHead (dieOfCore o.core) = some (.load n)) (ht : s.turnOf (dieOfCore o.core) .cluster = true)
    (hu : s.grantCtxload o false = (u, true)) :
    exec (.ctxloadGrant n false) s = .next (u.setDie (dieOfCore o.core) fun x => { x with served := .cluster }) := by
  simp only [exec, execCtxloadGrant, ho, hw, hh, ht, hu, ne_eq, not_true_eq_false, or_self, if_false, if_true, State.noteServed]

/-- A bin that is served forms a warp of its oldest records. -/
theorem exec_binWarpFormation {core b : Nat} (hh : s.binHead die = some (core, b)) (hl : s.launch? (s.bin core b).owner = some l)
    (ht : s.turnOf die .bin = true) :
    exec (.binWarpFormation die) s = .next ((s.formWarp core b l).setDie die fun x => { x with served := .bin }) := by
  simp only [exec, execBinWarpFormation, hh, hl, ht, if_true, State.noteServed]

/-! ### Release (01 R33) -/

variable {c : Crew}

theorem exec_crewRelease_bin {core b : Nat} (hc : s.crew? n = some c) (he : s.crewEnded c = true) (hk : c.kind = .bin core b) :
    exec (.crewRelease n) s = .next (s.dropCrew n) := by
  simp only [exec, execCrewRelease, hc, he, hk, Bool.not_true, Bool.false_eq_true, if_false]

theorem exec_crewRelease_launch (hc : s.crew? n = some c) (he : s.crewEnded c = true) (hk : c.kind = .launch) :
    exec (.crewRelease n) s = .next ((s.dropCrew n).leaveRect c.launch c.cluster) := by
  simp only [exec, execCrewRelease, hc, he, hk, Bool.not_true, Bool.false_eq_true, if_false]

/-! ### Bins (13 R375 to R379) -/

/-- A bin whose timer has expired asks for a warp. -/
theorem exec_binTimerExpiry {core b : Nat} (hst : (s.bin core b).st = .holding) (hw : (s.bin core b).wait ≠ 0)
    (ht : (s.bin core b).wait.toNat ≤ s.binTimer core b) :
    exec (.binTimerExpiry core b) s =
      .next { (s.setBin core b fun x => { x with st := .forming, req := s.nextId }) with nextId := s.nextId + 1 } := by
  simp only [exec, execBinTimerExpiry, hst, ne_eq, hw, not_false_eq_true, ht, and_self, if_true]

section

variable {core launch : Nat} {entry : VAddr} {data : QWord} (hd : s.deposit core launch entry data = some u)
include hd

/-- A record changes a bin of its core and takes an arrival number. -/
theorem State.eq_of_deposit : ∃ cores, u = { s with cores := cores, nextId := s.nextId + 1 } := by
  obtain ⟨i, _, rfl⟩ := Option.map_eq_some_iff.mp hd
  exact ⟨_, rfl⟩

theorem State.ops_of_deposit : u.ops = s.ops := by
  obtain ⟨cores, rfl⟩ := State.eq_of_deposit hd
  rfl

theorem State.dies_of_deposit : u.dies = s.dies := by
  obtain ⟨cores, rfl⟩ := State.eq_of_deposit hd
  rfl

end

/-- An operation whose lanes are all done, none of them failed, settles DONE. -/
theorem State.endTbe_of_done {o : Op} (ho : s.op? n = some o) (hdone : o.acc.all LaneAcc.done = true)
    (hfail : o.acc.findSome? LaneAcc.fail = none) : s.endTbe n = s.settle n .done := by
  simp [State.endTbe, ho, hdone, hfail, State.finish]

/-- The last record of a SPAWN, which a bin takes, settles it DONE. -/
theorem State.spawnArrive_of_deposit {o : Op} {a : LaneAcc} (ho : s.op? n = some o) (hacc : o.acc = [a]) (hfail : a.fail = none)
    (hrc : s.recomputeOf (some o.crew) = none)
    (hd : s.deposit (o.targets.headD 0) o.launch (BitVec.ofNat 57 a.addr.toNat) a.data = some u) :
    s.spawnArrive o a = u.settle n .done := by
  have hu : u.op? n = some o := by rw [← ho]; simp only [State.op?, State.ops_of_deposit hd]
  have hlane := State.op?_setLane u n a.lane n fun b => { b with done := true }
  rw [if_pos rfl, hu, Option.map_some] at hlane
  calc s.spawnArrive o a
      = (u.setLane n a.lane fun b => { b with done := true }).endTbe n := by
        simp only [State.spawnArrive, hrc, hd, State.op?_id ho]
    _ = (u.setLane n a.lane fun b => { b with done := true }).settle n .done :=
        State.endTbe_of_done hlane (by simp [hacc, updWhere]) (by simp [hacc, updWhere, hfail])
    _ = u.settle n .done := State.settle_setLane a.lane _ .done hu

/-- SPAWN_RECORD_ARRIVAL of a SPAWN of one record that nothing earlier holds back. -/
theorem exec_spawnRecordArrival {o : Op} {a : LaneAcc} {f : Fields} (ho : s.op? n = some o) (hi : o.instr = .spawn f)
    (hs : o.started = true) (hacc : o.acc = [a]) (hdone : a.done = false) (hm : s.mayPerform o = true)
    (he : s.earlierSpawn o a = false) : exec (.spawnRecordArrival n a.lane) s = .next (s.spawnArrive o a) := by
  have hfind : o.acc.find? (fun a => !a.done) = some a := by simp [hacc, hdone]
  have hspawn : isSpawn o.instr = true := by simp [hi, isSpawn]
  simp [exec, execSpawnRecordArrival, ho, hfind, hspawn, hs, hm, he]

/-! ### Refills (13 R382) -/

variable {q : Nat}

theorem State.queue_setQueue (f : WorkQueue → WorkQueue) (hdie : die < s.dies.length) (hq : q < (s.die die).queues.length) :
    (s.setQueue die q f).queue die q = f (s.queue die q) := by
  unfold State.queue State.setQueue
  rw [State.die_setDie s die die _ hdie, if_pos rfl]
  simp only [List.getD_eq_getElem?_getD, getElem?_updAt, if_true, List.getElem?_eq_getElem hq, Option.map_some, Option.getD_some]

/-- A queue looks the same where the dies are the same. -/
theorem State.queue_congr (h : u.dies = s.dies) (die q : Nat) : u.queue die q = s.queue die q := by
  simp only [State.queue, State.die, h]

/-- A bin looks the same where the cores are the same. -/
theorem State.bin_congr (h : u.cores = s.cores) (core b : Nat) : u.bin core b = s.bin core b := by
  simp only [State.bin, State.core, h]

/-- A queue none of whose indices is ready has nothing to refill from. -/
theorem State.refillDue_of_nothing_ready (h : (s.queue die q).ready = []) : s.refillDue die q = none := by
  simp [State.refillDue, h]

theorem State.refillLoop_of_nothing_ready (fuel : Nat) (h : (s.queue die q).ready = []) : State.refillLoop fuel s die q = s := by
  cases fuel with
  | zero => rfl
  | succ fuel => simp [State.refillLoop, State.refillOne, State.refillDue_of_nothing_ready h]

/-- An update of one place of a list matters only there. -/
theorem updAt_congr {α : Type} {k : Nat} {f g : α → α} {xs : List α} (h : ∀ x, xs[k]? = some x → f x = g x) :
    updAt k f xs = updAt k g xs := by
  apply List.ext_getElem?
  intro i
  rw [getElem?_updAt, getElem?_updAt]
  by_cases hi : k = i
  · subst hi
    rw [if_pos rfl, if_pos rfl]
    exact Option.map_congr h
  · rw [if_neg hi, if_neg hi]

/-- An update of a queue matters only for what that queue holds. -/
theorem State.setQueue_congr {f g : WorkQueue → WorkQueue} (h : f (s.queue die q) = g (s.queue die q)) :
    s.setQueue die q f = s.setQueue die q g := by
  have hq : ∀ d, s.dies[die]? = some d → updAt q f d.queues = updAt q g d.queues := by
    intro d hd
    refine updAt_congr fun x hx => ?_
    have hx' : s.queue die q = x := by simp [State.queue, State.die, hd, hx]
    rwa [hx'] at h
  unfold State.setQueue State.setDie
  rw [updAt_congr fun d hd => by rw [hq d hd]]

/-- A queue whose one ready index is the one at HEAD passes it. -/
theorem WorkQueue.pass_of_ready_head {w : WorkQueue} {lost : Bool} (h : w.ready = [(w.head.toNat, true, lost)]) :
    w.pass = { w with head := w.head + 1, ready := [] } := by
  simp [WorkQueue.pass, h]

/-- The item at HEAD is due when it is ready and whole and its bin, idle and of the same owner, has room for it. -/
theorem State.refillDue_of_ready_head {w : WorkQueue} (hw : s.queue die q = w) (hen : w.en = true)
    (hready : w.ready = [(w.head.toNat, true, false)]) (hcount : w.count ≠ 0) (hroom : (s.bin w.core w.bin).recs.length < w.low)
    (hown : (s.bin w.core w.bin).owner = w.owner) (hst : (s.bin w.core w.bin).st = .idle) :
    s.refillDue die q = some false := by
  simp [State.refillDue, hw, hen, hready, hcount, hroom, hown, hst]

/-- An item that has been read enters a bin of the core of its queue; where none takes it, it is gone. -/
def State.depositItem (v : State) (w : WorkQueue) (entry : VAddr) (data : QWord) : State :=
  (v.deposit w.core w.owner entry data).getD v

theorem State.depositItem_dies (v : State) (w : WorkQueue) (entry : VAddr) (data : QWord) :
    (v.depositItem w entry data).dies = v.dies := by
  unfold State.depositItem
  cases h : v.deposit w.core w.owner entry data with
  | none => rfl
  | some t => exact State.dies_of_deposit h

/-- A due item whose read answers leaves the queue and enters the bin. -/
theorem State.refillOne_of_read {w : WorkQueue} {ps : List Part} (hw : s.queue die q = w) (hdue : s.refillDue die q = some false)
    (hread : s.reach (s.tbeWho die w.owner none) (w.item w.head.toNat) 16 false { r := true } = (u, .ok ps)) :
    s.refillOne die q false =
      some ((u.setQueue die q WorkQueue.pass).depositItem w (u.bin w.core w.bin).entry (BitVec.ofNat 128 (leNat (u.readParts ps)))) := by
  subst hw
  simp only [State.refillOne, hdue, hread, Bool.or_self, Bool.false_eq_true, if_false]
  rfl

/-- A refill stops behind an item after which nothing is ready. -/
theorem State.refill_of_one {v : State} (hnone : s.refillOp? die q = none) (hone : s.refillOne die q false = some v)
    (hv : (v.queue die q).ready = []) : s.refill die q = v := by
  have hloop : State.refillLoop 32 s die q = State.refillLoop 31 v die q := by simp [State.refillLoop, hnone, hone]
  simp only [State.refill, hnone, hloop, State.refillLoop_of_nothing_ready 31 hv]

/-- QUEUE_REFILL of a queue with one ready item, whose read changes neither the tables of the die nor those of the cores. -/
theorem exec_queueRefill {w : WorkQueue} {ps : List Part} (hnone : s.refillOp? die q = none) (hw : s.queue die q = w)
    (hready : w.ready = [(w.head.toNat, true, false)]) (hdue : s.refillDue die q = some false)
    (hread : s.reach (s.tbeWho die w.owner none) (w.item w.head.toNat) 16 false { r := true } = (u, .ok ps))
    (hdies : u.dies = s.dies) (hcores : u.cores = s.cores) (hdie : die < s.dies.length) (hq : q < (s.die die).queues.length) :
    exec (.queueRefill die q) s =
      .next ((u.setQueue die q fun x => { x with head := x.head + 1, ready := [] }).depositItem w (s.bin w.core w.bin).entry
        (BitVec.ofNat 128 (leNat (u.readParts ps)))) := by
  have huq : u.queue die q = w := by rw [State.queue_congr hdies, hw]
  have hpass : u.setQueue die q WorkQueue.pass = u.setQueue die q fun x => { x with head := x.head + 1, ready := [] } :=
    State.setQueue_congr (by rw [huq, WorkQueue.pass_of_ready_head hready])
  have hone := State.refillOne_of_read hw hdue hread
  rw [hpass, State.bin_congr hcores] at hone
  refine congrArg Host.Outcome.next (State.refill_of_one hnone hone ?_)
  rw [State.queue_congr (State.depositItem_dies _ _ _ _), State.queue_setQueue _ (by rwa [hdies])]
  simpa only [State.die, hdies] using hq

end

/-- Settles O48: each grant, release, record and refill by what it comes to when it is due. That the load of a saved crew is a
request of the cluster source is the model's choice (log 39), and so is that a source skips a head without room (log 40). -/
theorem dispatchersGrant : Obligations.DispatchersGrant := by
  unfold Obligations.DispatchersGrant
  intro s
  refine ⟨?_, ?_, ?_, fun n c hc he => ⟨?_, ?_⟩, ?_, ?_, ?_, ?_⟩
  · intro die n d k l hh hl hcor ht hp
    exact exec_clusterDispatch hh hl hcor ht hp
  · intro n l u hh hl hcor ht hu
    exact exec_coresidentLaunchGrant hh hl hcor ht hu
  · intro n o u ho hw hh ht hu
    exact exec_ctxloadGrant ho hw hh ht hu
  · intro core b hk
    exact exec_crewRelease_bin hc he hk
  · intro hk
    exact exec_crewRelease_launch hc he hk
  · intro n o a f u ho hi hs hacc hdone hfail hm he hrc hd
    rw [exec_spawnRecordArrival ho hi hs hacc hdone hm he, State.spawnArrive_of_deposit ho hacc hfail hrc hd]
  · intro core b hst hw ht
    exact exec_binTimerExpiry hst hw ht
  · intro die core b l hh hl ht
    exact exec_binWarpFormation hh hl ht
  · intro die q u ps hnone w b hen hready hcount hroom hown hst hread hdies hcores _ hdie hq
    exact exec_queueRefill hnone rfl hready (State.refillDue_of_ready_head rfl hen hready hcount hroom hown hst) hread hdies hcores
      hdie hq

end Sys2Proof.Machine

/-! PROOFS. 02 R54 to R77: decoding and encoding are inverse to each other. Every code, operand field and modifier is read back
from the bits that it is written as, so the row of the opcode map that a form names reads the form's fields as its instruction;
the rest is what the decoder checks by writing the instruction back. O56 and O55 are put together from these. -/

namespace Sys2Proof

/-! ### Codes (02 R72 to R74) -/

@[simp] theorem Ty.ofCode_code (t : Ty) : Ty.ofCode t.code = some t := by cases t <;> rfl
@[simp] theorem Hint.ofCode_code (h : Hint) : Hint.ofCode h.code = some h := by cases h <;> rfl
@[simp] theorem TileKind.ofCode_code (k : TileKind) : TileKind.ofCode k.code = some k := by cases k <;> rfl
@[simp] theorem Reach.ofBits_bits (x : Reach) : Reach.ofBits x.bits = some x := by cases x <;> rfl
@[simp] theorem Strength.ofBits_bits (x : Strength) : Strength.ofBits x.bits = some x := by cases x <;> rfl
@[simp] theorem Rm.ofBits_bits (x : Rm) : Rm.ofBits x.bits = some x := by cases x <;> rfl
@[simp] theorem Cmp.ofBits_bits (x : Cmp) : Cmp.ofBits x.bits = some x := by cases x <;> rfl
@[simp] theorem FCmp.ofBits_bits (x : FCmp) : FCmp.ofBits x.bits = some x := by cases x <;> rfl
@[simp] theorem Bop.ofBits_bits (x : Bop) : Bop.ofBits x.bits = some x := by cases x <;> rfl
@[simp] theorem PackMode.ofBits_bits (x : PackMode) : PackMode.ofBits x.bits = some x := by cases x <;> rfl
@[simp] theorem SrcFmt.ofBits_bits (x : SrcFmt) : SrcFmt.ofBits x.bits = some x := by cases x <;> rfl
@[simp] theorem IntSrc.ofBits_bits (x : IntSrc) : IntSrc.ofBits x.bits = some x := by cases x <;> rfl
@[simp] theorem XMode.ofBits_bits (x : XMode) : XMode.ofBits x.bits = some x := by cases x <;> rfl
@[simp] theorem PollMode.ofBits_bits (x : PollMode) : PollMode.ofBits x.bits = Option.some x := by cases x <;> rfl
@[simp] theorem FoldOp.ofBits_bits (x : FoldOp) : FoldOp.ofBits x.bits = some x := by cases x <;> rfl
@[simp] theorem LatchMode.ofBits_bits (x : LatchMode) : LatchMode.ofBits x.bits = some x := by cases x <;> rfl
@[simp] theorem AtomOp.ofBits_bits (x : AtomOp) : AtomOp.ofBits x.bits = some x := by cases x <;> rfl
@[simp] theorem PatchEntry.ofBits_bits (x : PatchEntry) : PatchEntry.ofBits x.bits = some x := by cases x <;> rfl
@[simp] theorem ReduceOp.ofBits_bits (x : ReduceOp) : ReduceOp.ofBits x.bits = some x := by cases x <;> rfl
@[simp] theorem Dim.ofBits_bits (x : Dim) : Dim.ofBits x.bits = some x := by cases x <;> rfl
@[simp] theorem AccFmt.ofBits_bits (x : AccFmt) : AccFmt.ofBits x.bits = some x := by cases x <;> rfl
@[simp] theorem MredOp.ofBits_bits (x : MredOp) : MredOp.ofBits x.bits = some x := by cases x <;> rfl
@[simp] theorem MepiOp.ofBits_bits (x : MepiOp) : MepiOp.ofBits x.bits = some x := by cases x <;> rfl
@[simp] theorem TlbMode.ofBits_bits (x : TlbMode) : TlbMode.ofBits x.bits = some x := by cases x <;> rfl
@[simp] theorem AddrqAccess.ofBits_bits (y : AddrqAccess) : AddrqAccess.ofBits y.bits = some y := by cases y <;> rfl
@[simp] theorem RegionMode.ofBits_bits (x : RegionMode) : RegionMode.ofBits x.bits = some x := by cases x <;> rfl
@[simp] theorem Variant.ofBits_bits (v : Variant) : Variant.ofBits v.bits = some v := by
  obtain ⟨k, uns, fin⟩ := v
  revert k uns fin
  decide

/-! ### Guards and operands (02 R54, R58) -/

section

open BitVec (extractLsb'_append_eq_of_le extractLsb'_append_eq_of_add_le)

@[simp] theorem Guard.ofBits_bits (g : Guard) : Guard.ofBits g.bits = g := by
  obtain ⟨neg, p⟩ := g
  simp [Guard.ofBits, Guard.bits, BitVec.extractLsb'_append_eq_right (w' := 3), BitVec.getElem_append (m := 3)]

/-- The bits of an operand, class by class: each part of the field that the reader cuts out is one of the parts joined. -/
@[simp] theorem Opd.ofBits_bits (o : Opd) : Opd.ofBits o.bits = some o := by
  cases o <;>
    simp (disch := omega) [Opd.bits, Opd.ofBits, -BitVec.extractLsb'_toNat, -BitVec.getLsbD_eq_getElem,
      BitVec.getLsbD_eq_extractLsb', extractLsb'_append_eq_of_le (w := 9), extractLsb'_append_eq_of_le (w := 8),
      extractLsb'_append_eq_of_le (w := 6), extractLsb'_append_eq_of_le (w := 5), extractLsb'_append_eq_of_le (w := 3),
      extractLsb'_append_eq_of_le (w := 2), extractLsb'_append_eq_of_add_le (w := 9),
      extractLsb'_append_eq_of_add_le (w := 8), extractLsb'_append_eq_of_add_le (w := 6),
      extractLsb'_append_eq_of_add_le (w := 5), extractLsb'_append_eq_of_add_le (w := 3),
      extractLsb'_append_eq_of_add_le (w := 2)]

/-! ### The fields of a slot (02 R54, R71) -/

@[simp] theorem Raw.ofSlot_toSlot (r : Raw) : Raw.ofSlot r.toSlot = r := by
  obtain ⟨op, fn, ga, gb, ty, ch, md, d, a, b, c, e⟩ := r
  simp (disch := omega) [Raw.toSlot, Raw.ofSlot, extractLsb'_append_eq_of_le (w := 12),
    extractLsb'_append_eq_of_le (w := 6), extractLsb'_append_eq_of_le (w := 5), extractLsb'_append_eq_of_le (w := 4),
    extractLsb'_append_eq_of_le (w := 3), extractLsb'_append_eq_of_add_le (w := 12),
    extractLsb'_append_eq_of_add_le (w := 6), extractLsb'_append_eq_of_add_le (w := 5),
    extractLsb'_append_eq_of_add_le (w := 4), extractLsb'_append_eq_of_add_le (w := 3)]

@[simp] theorem Raw.toSlot_ofSlot (w : Slot) : (Raw.ofSlot w).toSlot = w := by
  simp (disch := rfl) only [Raw.toSlot, Raw.ofSlot, BitVec.extractLsb'_append_extractLsb'_eq_extractLsb']
  exact BitVec.extractLsb'_eq_self

/-- The 36 bits of formats I and J, cut into the fields B, C and E and joined again. -/
theorem extractLsb'_join36 (j : BitVec 36) : j.extractLsb' 24 12 ++ j.extractLsb' 12 12 ++ j.extractLsb' 0 12 = j := by
  simp (disch := rfl) only [BitVec.extractLsb'_append_extractLsb'_eq_extractLsb']
  exact BitVec.extractLsb'_eq_self

end

/-! ### What the fields of a form read as, by format (02 R71) -/

section

variable {op : BitVec 8} {fn md : BitVec 6} {ts : List Ty} {hints extra : Bool} {d a b c e : List Cls}

@[simp] theorem Fields.ofRaw_toRaw (f : Fields) :
    Fields.ofRaw (Form.toRaw ⟨op, fn, md, .regs f, ts, hints, d, a, b, c, e, extra⟩) = .ok f := by
  simp [Form.toRaw, Fields.ofRaw]

@[simp] theorem FieldsI.ofRaw_toRaw (f : FieldsI) :
    FieldsI.ofRaw (Form.toRaw ⟨op, fn, md, .imm36 f, ts, hints, d, a, b, c, e, extra⟩) = .ok f := by
  simp [Form.toRaw, FieldsI.ofRaw, Raw.imm36, extractLsb'_join36]

@[simp] theorem FieldsJ.ofRaw_toRaw (f : FieldsJ) :
    FieldsJ.ofRaw (Form.toRaw ⟨op, fn, md, .jump f, ts, hints, d, a, b, c, e, extra⟩) = .ok f := by
  obtain ⟨ga, gb, off, slot⟩ := f
  have hslot : ((off ++ BitVec.ofNat 3 slot.val).extractLsb' 0 3).toNat = slot.val := by
    rw [BitVec.extractLsb'_append_eq_right, BitVec.toNat_ofNat]
    omega
  have hoff : (off ++ BitVec.ofNat 3 slot.val).extractLsb' 3 33 = off := BitVec.extractLsb'_append_eq_left
  simp [-BitVec.extractLsb'_toNat, Form.toRaw, FieldsJ.ofRaw, Raw.imm36, extractLsb'_join36, hslot, hoff]

end

@[simp] theorem Form.toRaw_op (F : Form) : F.toRaw.op = F.op := by unfold Form.toRaw; cases F.body <;> rfl

@[simp] theorem Form.toRaw_fn (F : Form) : F.toRaw.fn = F.fn := by unfold Form.toRaw; cases F.body <;> rfl

@[simp] theorem Form.toRaw_md (F : Form) : F.toRaw.md = F.md := by unfold Form.toRaw; cases F.body <;> rfl

/-! ### Modifiers (02 R74) -/

@[simp] theorem mdField_some {α : Type} (v : α) : mdField (some v) = .ok v := rfl

@[simp] theorem mdBit_eq_mdAt (p : Nat) (b : Bool) : mdBit p b = mdAt p (BitVec.ofBool b) := rfl

section

variable {w p : Nat} (v : BitVec w)

theorem getLsbD_mdAt (k : Nat) : (mdAt p v).getLsbD k = (decide (p ≤ k) && decide (k < 6) && v.getLsbD (k - p)) := by
  rw [mdAt, BitVec.getLsbD_shiftLeft, BitVec.getLsbD_setWidth]
  by_cases hp : p ≤ k <;> by_cases h6 : k < 6
  · simp [hp, h6, show k - p < 6 by omega]
  all_goals simp [hp, h6]

/-- A modifier is read at its own place. -/
theorem extractLsb'_mdAt_same (h : p + w ≤ 6) : (mdAt p v).extractLsb' p w = v := by
  apply BitVec.eq_of_getLsbD_eq
  intro i hi
  simp [-BitVec.getLsbD_eq_getElem, getLsbD_mdAt, hi, show p + i < 6 by omega]

/-- A modifier leaves every other place 0. -/
theorem extractLsb'_mdAt_apart {q n : Nat} (h : p + w ≤ q ∨ q + n ≤ p) : (mdAt p v).extractLsb' q n = 0 := by
  apply BitVec.eq_of_getLsbD_eq
  intro i hi
  rw [BitVec.getLsbD_extractLsb', getLsbD_mdAt]
  rcases h with above | below
  · simp [BitVec.getLsbD_of_ge v (q + i - p) (by omega)]
  · simp [show ¬ p ≤ q + i by omega]

theorem getElem_mdAt_ofBool (b : Bool) (h : p < 6) : (mdAt p (BitVec.ofBool b))[p] = b := by
  rw [BitVec.getElem_eq_extractLsb', extractLsb'_mdAt_same _ (by omega)]
  cases b <;> rfl

theorem getElem_mdAt_apart {q : Nat} (hq : q < 6) (h : p + w ≤ q ∨ q < p) : (mdAt p v)[q] = false := by
  rw [BitVec.getElem_eq_extractLsb', extractLsb'_mdAt_apart v (by omega)]
  rfl

end

/-! ### The opcode map (02 R76) -/

/-- The row of the opcode map that a form's (OP, FN) names reads the form's fields and modifiers as the instruction. -/
def Form.ReadsAs (F : Form) (i : Instr) : Prop :=
  ∃ row, decodeRows.find? (fun row => row.op == F.op && row.fn == F.fn) = some row ∧ row.make F.toRaw = .ok i

/-- The opcode map has a row for the form of every instruction, and that row reads each modifier at the place where the form
has it. -/
theorem Form.reads {i : Instr} {F : Form} (h : i.form = some F) : F.ReadsAs i := by
  cases i <;> cases h
  all_goals
    refine ⟨_, rfl, ?_⟩
    simp (disch := omega) [extractLsb'_mdAt_same, extractLsb'_mdAt_apart, getElem_mdAt_ofBool, getElem_mdAt_apart, bind,
      Except.bind, pure, Except.pure, BitVec.extractLsb'_or]

/-! ### Decoding and encoding (02 R77) -/

theorem Instr.wf_iff {i : Instr} : i.wf = true ↔ ∃ F, i.form = some F ∧ F.check = none := by
  unfold Instr.wf
  cases i.form <;> simp

theorem encode_eq_some_iff {i : Instr} {w : Slot} :
    encode i = some w ↔ ∃ F, i.form = some F ∧ F.check = none ∧ F.toRaw.toSlot = w := by
  unfold encode
  cases i.form <;> simp

/-- A candidate is accepted as it stands, when writing it back gives the slot's fields. -/
theorem acceptCandidate_eq_ok_iff {r : Raw} {i j : Instr} :
    acceptCandidate r i = .ok j ↔ i = j ∧ ∃ F, i.form = some F ∧ F.check = none ∧ F.toRaw = r := by
  unfold acceptCandidate
  cases i.form with
  | none => simp
  | some F =>
    cases hc : F.check with
    | some why => simp [hc]
    | none =>
      by_cases hr : F.toRaw = r
      · simp [hc, hr]
      · simp only [hr, hc, if_false]
        repeat' split
        all_goals simp [hc, hr]

/-- The fields that decode to an instruction are those that its form is written as. -/
theorem decodeRaw_eq_ok_iff {r : Raw} {i : Instr} :
    decodeRaw r = .ok i ↔ ∃ F, i.form = some F ∧ F.check = none ∧ F.toRaw = r := by
  constructor
  · intro h
    unfold decodeRaw at h
    split at h
    · cases h
    · split at h
      · cases h
      · obtain ⟨rfl, hF⟩ := acceptCandidate_eq_ok_iff.mp h
        exact hF
  · rintro ⟨F, hF, hc, rfl⟩
    obtain ⟨row, hrow, hmake⟩ := Form.reads hF
    simp only [decodeRaw, Form.toRaw_op, Form.toRaw_fn, hrow, hmake]
    exact acceptCandidate_eq_ok_iff.mpr ⟨rfl, F, hF, hc, rfl⟩

theorem decode_eq_some_iff {w : Slot} {i : Instr} : decode w = some i ↔ decodeRaw (Raw.ofSlot w) = .ok i := by
  unfold decode decodeSlot
  cases decodeRaw (Raw.ofSlot w) <;> simp

/-- A slot decodes to an instruction exactly when the instruction encodes as it. -/
theorem decode_eq_some_iff_encode {w : Slot} {i : Instr} : decode w = some i ↔ encode i = some w := by
  rw [decode_eq_some_iff, decodeRaw_eq_ok_iff, encode_eq_some_iff]
  refine exists_congr fun F => and_congr_right fun _ => and_congr_right fun _ => ⟨fun h => ?_, fun h => ?_⟩
  · rw [h, Raw.toSlot_ofSlot]
  · rw [← h, Raw.ofSlot_toSlot]

theorem decodeTableWord_of_encode {n w : Nat} {i : Instr} (hw : w < 2 ^ 96) (h : encode i = some (BitVec.ofNat 96 w)) :
    decodeTableWord n w = some i := by
  rw [decodeTableWord, if_pos hw, decode_eq_some_iff_encode, h]

end Sys2Proof

namespace Sys2Proof.Machine

/-- Settles O56: decoding and encoding say the same of a slot and an instruction, and a well-formed instruction that has a form
encodes. -/
theorem encodingsReadBack : Obligations.EncodingsReadBack := by
  unfold Obligations.EncodingsReadBack
  constructor
  · intro i hwf _
    obtain ⟨F, hF, hc⟩ := Instr.wf_iff.mp hwf
    have he : encode i = some F.toRaw.toSlot := encode_eq_some_iff.mpr ⟨F, hF, hc, rfl⟩
    exact ⟨_, he, decode_eq_some_iff_encode.mpr he⟩
  · intro w i h
    have he := decode_eq_some_iff_encode.mp h
    obtain ⟨F, hF, hc, _⟩ := encode_eq_some_iff.mp he
    exact ⟨he, Instr.wf_iff.mpr ⟨F, hF, hc⟩⟩

/-- Settles O55: each of the instructions encodes as the slot that the spec writes out. -/
theorem slotsOfTheSpecDecode : Obligations.SlotsOfTheSpecDecode := by
  unfold Obligations.SlotsOfTheSpecDecode
  refine ⟨?_, ?_, ?_, ?_, ?_, ?_, ?_, ?_, ?_, ?_, ?_, ?_, ?_, ?_, ?_, ?_, ?_, ?_, ?_⟩
  all_goals exact decodeTableWord_of_encode (by decide) (by decide)

end Sys2Proof.Machine

/-! PROOFS. 02 R56, R57, R77, R79; 17 R471: what an issue comes to before the instruction's own effect. Every instruction that
has a form is run through `withIssue`, whose laws so speak for all of them; O31 and O32 are put together from these. -/

namespace Sys2Proof.Machine

section

variable {i : Instr} {s : State} {I : Issue}

/-- Every instruction that has a form acts through the issue that the state names; only the events do not. -/
theorem exec_eq_withIssue {F : Form} (h : i.form = some F) (s : State) : ∃ body, exec i s = withIssue i s body := by
  cases i <;> cases h
  all_goals
    dsimp only [exec]
    exact ⟨_, rfl⟩

/-! ### Groups whose guards are all 0 (02 R56, R57) -/

theorem Issuing.exec_idle (h : Issuing i s I) (hchk : orderChecks s I.crew I.warp I.mask I.pc i I.form = none) (h0 : I.act = 0) :
    exec i s = .next I.done := by
  obtain ⟨body, hbody⟩ := exec_eq_withIssue h.form s
  rw [hbody, withIssue_idle h hchk h0]

/-- Where no thread issues, going on is completing with no result. -/
theorem Issuing.done_completes_idle (h : Issuing i s I) (h0 : I.act = 0) : Completes I (fun _ => some {}) I.done := by
  refine ⟨_, h.warpBecomes fun x => x.advanced I.mask, rfl, by simp [Warp.advanced], ?_, fun k => rfl⟩
  intro l old hold
  simp only [Warp.advanced, List.getElem?_mapIdx, hold, Option.map_some]
  exact ⟨_, rfl, by cases I.mask.getLsbD l <;> simp [h0]⟩

/-! ### The checks of orders 7 and 8 (02 R77, R79; 17 R471) -/

theorem Issuing.exec_checks {t : Trap} (h : Issuing i s I) (hchk : orderChecks s I.crew I.warp I.mask I.pc i I.form = some t) :
    exec i s = .next (s.traps I.cid I.wi (I.group.map fun l => (l, t))) := by
  obtain ⟨body, hbody⟩ := exec_eq_withIssue h.form s
  rw [hbody, withIssue_checks h hchk]

section

variable {F : Form} {c : Crew} {w : Warp} {mask : Mask}

theorem orderChecks_of_illegal (pc : VAddr) (hF : i.form = some F) (hwf : i.wf = false) :
    orderChecks s c w mask pc i F = some { cause := 0x06, pc := pc, detail := pc.setWidth 64 } := by
  have hc : F.check.isSome = true := by simpa [Instr.wf, hF] using hwf
  rw [orderChecks, if_pos hc]

theorem orderChecks_of_privileged (pc : VAddr) (hF : i.form = some F) (hwf : i.wf = true) (hlo : 0xD0 ≤ F.op)
    (hhi : F.op ≤ 0xD5) (hp : privilegedOk s c w mask F.op.toNat = false) :
    orderChecks s c w mask pc i F = some { cause := 0x07, pc := pc, detail := pc.setWidth 64 } := by
  have hc : F.check.isSome = false := by simpa [Instr.wf, hF] using hwf
  have hop : 0xD0 ≤ F.op.toNat ∧ F.op.toNat ≤ 0xD5 := ⟨hlo, hhi⟩
  simp [orderChecks, hc, hop, hp]

/-- A launch without privilege may run none of the privileged forms, unless it is CTXSAVE and the whole group is in a handler
that it entered for a Pre-empt Request. -/
theorem privilegedOk_eq_false {op : Nat} (hl : ∀ n, s.launch? c.launch = some n → n.priv = false)
    (hh : op = 0xD4 → ∃ l ∈ lanesOf mask, (w.thread l).inHandler = false ∨ (w.thread l).cause ≠ 0x18) :
    privilegedOk s c w mask op = false := by
  have hpriv : ((s.launch? c.launch).map Launch.priv).getD false = false := by
    cases h : s.launch? c.launch with
    | none => rfl
    | some n => exact hl n h
  rw [privilegedOk, hpriv, Bool.false_or, Bool.and_eq_false_imp, beq_iff_eq]
  intro hop
  obtain ⟨l, hmem, hno⟩ := hh hop
  refine List.all_eq_false.mpr ⟨l, hmem, ?_⟩
  rcases hno with hout | hcause
  · simp [hout]
  · simp [hcause]

end

end

/-- Settles O31: every instruction is run through `withIssue`, which with no issuing thread only goes on. -/
theorem guardedOffFormsGoOn : Obligations.GuardedOffFormsGoOn := by
  unfold Obligations.GuardedOffFormsGoOn
  intro i s I h hchk h0
  exact ⟨_, h.exec_idle hchk h0, h.done_completes_idle h0⟩

/-- Settles O32: the checks of orders 7 and 8 come before the guards are looked at, whatever the instruction. -/
theorem illegalFormsTrap : Obligations.IllegalFormsTrap := by
  unfold Obligations.IllegalFormsTrap
  intro i s I h
  refine ⟨fun hwf => ?_, fun hwf hlo hhi hl hh => ?_⟩
  · exact h.exec_checks (orderChecks_of_illegal I.pc h.form hwf)
  · have hp : privilegedOk s I.crew I.warp I.mask I.form.op.toNat = false :=
      privilegedOk_eq_false hl fun hop => hh (BitVec.eq_of_toNat_eq hop)
    exact h.exec_checks (orderChecks_of_privileged I.pc h.form hwf hlo hhi hp)

end Sys2Proof.Machine

/-! PROOFS. 12 R342, R350 to R356, R369: settlements of FFLUSH and of signals at a peer, requests that are lost, packets of peers
and the loss of a port. Each has a lemma that says what its event comes to when it is due; O46 is put together from these. -/

namespace Sys2Proof.Machine

section

variable {s : State} {n : Nat} {o : Op} {f : Fields} {e : Bool}

/-! ### Settlements that an answer brings (12 R350, R351, R356) -/

/-- An operation that was not parked goes on with the answer. -/
theorem exec_fabOperationSettle (ans : FabAnswer) (ho : s.op? n = some o) (hg : s.fabGoes o = true) (hp : o.parked = 0) :
    exec (.fabOperationSettle n ans) s = .next (s.runFab o ans) := by
  simp only [exec, execFabOperationSettle, ho, hg, if_true, State.onTurn, hp]

/-- An FFLUSH that has not failed looks at what it covers, whatever is answered. -/
theorem State.runFab_of_fflush (ans : FabAnswer) (ho : s.op? n = some o) (hi : o.instr = .fflush f e) (hf : o.fail = none) :
    s.runFab o ans = s.runFlush o := by
  have hone : perLaneFab o.instr = false := by rw [hi]; rfl
  have hcon : s.fabContained o = none := by simp only [State.fabContained, hi]
  simp only [State.runFab, hone, Bool.false_eq_true, if_false, State.op?_id ho, ho, Option.getD_some, hf, hcon]
  simp only [hi]

/-- An FFLUSH that covers nothing, of a warp that has noted no failure, settles DONE. -/
theorem State.runFlush_of_nothing (hcov : (s.ops.any fun p => o.flushCovers p) = false)
    (hfails : ∀ w, s.warp? o.crew o.warp = some w → w.fabFails = []) : s.runFlush o = s.settle o.id .done := by
  have hnone : ((s.warp? o.crew o.warp).map Warp.fabFails).getD [] = [] := by
    cases hw : s.warp? o.crew o.warp with
    | none => rfl
    | some w => exact hfails w hw
  simp [State.runFlush, hcov, hnone, minNat, State.finish]

section

variable (hi : o.instr = .fsigTret f e ∨ o.instr = .fsigTpois f e)
include hi

/-- The signal of a window at a peer makes one request, and its answer settles the operation. -/
theorem State.runFab_of_signal (ans : FabAnswer) (ho : s.op? n = some o) (hf : o.fail = none) (hcon : s.fabContained o = none)
    (hpeer : o.arg 2 ≠ s.endpoint) : s.runFab o ans = s.wholeAnswer o ans fun s _ => s.finish n := by
  have hone : perLaneFab o.instr = false := by rcases hi with hi | hi <;> rw [hi] <;> rfl
  simp only [State.runFab, hone, Bool.false_eq_true, if_false, State.op?_id ho, ho, Option.getD_some, hf, hcon]
  rcases hi with hi | hi <;> simp only [hi, State.runWindow, if_neg hpeer, State.op?_id ho]

/-- A signal names the endpoint of its window. -/
theorem State.peerOf_of_signal (hpeer : o.arg 2 ≠ s.endpoint) : s.peerOf o = o.arg 2 := by
  rcases hi with hi | hi <;> simp [State.peerOf, hi, hpeer]

end

/-- The answer of data is one of success. -/
theorem State.wholeAnswer_data (s : State) (o : Op) (bs : List (Nat × QWord)) (done : State → QWord → State) :
    s.wholeAnswer o (.data bs) done = done s ((bs.head?.map Prod.snd).getD 0) := rfl

theorem State.wholeAnswer_error {ans : FabAnswer} {r : Nat} (done : State → QWord → State)
    (ha : answerWhole ans = some (.error r)) : s.wholeAnswer o ans done = s.settleFab o 10 (peerOrigin r (s.peerOf o)) := by
  simp only [State.wholeAnswer, ha]

/-! ### Requests that are lost (12 R342, R351, R352) -/

/-- A timeout loses a request of an operation that goes on. -/
theorem exec_fabRequestTimeout (k : Nat) (ho : s.op? n = some o) (hg : s.fabGoes o = true) (hf : o.fail = none) :
    exec (.fabRequestTimeout ⟨n, k⟩) s = .next (s.resend o k 3) := by
  simp [exec, execFabRequestTimeout, State.loseRequest, ho, hg, hf]

variable {k : Nat}

/-- A request that is lost for the first time is sent again, which is counted and logged. -/
theorem State.resend_first (r : Nat) (hopen : s.requestOpen o k = true) (hnew : o.resent.contains k = false) :
    s.resend o k r = ((s.setCore o.core fun c => { c with fabevt := c.fabevt + 1 }).logErr 1 3
      (coreOrigin .fab o.core o.tok) 0 o.launch 0).setOp o.id fun o => { o with resent := o.resent ++ [k] } := by
  simp only [State.resend, hopen, hnew, Bool.not_true, Bool.not_false, Bool.false_eq_true, if_false, if_true]

/-- Lost again, the request of an operation that does not make one for each lane fails the operation. -/
theorem State.resend_again_whole (r : Nat) (hopen : s.requestOpen o k = true) (hold : o.resent.contains k = true)
    (hone : perLaneFab o.instr = false) : s.resend o k r = s.settleFab o 10 (peerOrigin r (s.peerOf o)) := by
  simp only [State.resend, hopen, hold, Bool.not_true, Bool.false_eq_true, if_false]
  cases s.openLane o k with
  | none => rfl
  | some a => simp only [hone, Bool.false_eq_true, if_false]

/-- Lost again, the request of a lane fails the lane, and the operation settles when no lane is left. -/
theorem State.resend_again_lane {a : LaneAcc} (r : Nat) (hopen : s.requestOpen o k = true) (hold : o.resent.contains k = true)
    (hlanes : perLaneFab o.instr = true) (ha : s.openLane o k = some a) :
    s.resend o k r = (s.failLanes o a (10, peerOrigin r (s.requestEp o a k))).endFab o.id := by
  simp only [State.resend, hopen, hold, Bool.not_true, Bool.false_eq_true, if_false, ha, hlanes, if_true, State.requestFails]

end

section

/-! ### Packets of peers (12 R354) -/

variable {s u : State} {p : PeerPacket} {ps : List Part}

/-- A new packet that finds the reorder buffers empty tries to perform at once. -/
theorem exec_peerPacketArrival (hempty : s.reorder = []) (hnew : s.seen.contains (p.source, p.seq) = false) :
    exec (.peerPacketArrival p) s = .next (State.tryPacket { s with reorder := [p] } p) := by
  have hnotin : (p.source, p.seq) ∉ s.seen := by simpa using hnew
  simp [exec, execPeerPacketArrival, State.packetArrives, State.drainPackets, hempty, hnotin]

variable (hgo : s.packetHeld p = false) (hreach : s.reachPacket p = (u, .ok ps))
include hgo hreach

theorem State.tryPacket_of_read {m : Nat} (hact : p.act = .read m) :
    s.tryPacket p = u.packetDone p (.peerData p.source p.seq (u.readParts ps)) := by
  simp only [State.tryPacket, hgo, hreach, hact, Bool.false_eq_true, if_false]

theorem State.tryPacket_of_write {bs : List Byte} (hact : p.act = .write bs) :
    s.tryPacket p = (u.writeParts ps bs).packetDone p (.peerData p.source p.seq []) := by
  simp only [State.tryPacket, hgo, hreach, hact, Bool.false_eq_true, if_false]

end

/-! ### Ports (12 R342, R369) -/

/-- A port leaves the choice, and its loss is logged. -/
def State.withoutPort (s : State) (port : Nat) : State :=
  { s with ports := s.ports &&& ~~~((1 : BitVec 18) <<< port) }.logErr 1 3 (dieOrigin .fab (if port < 9 then 0 else 1) 0) 0 0
    (BitVec.ofNat 64 port)

/-- The loss of a port changes the choice of ports and the error log, and makes no completion. -/
theorem State.withoutPort_frame (s : State) (port : Nat) :
    s.withoutPort port =
      { s with
        ports := s.ports &&& ~~~((1 : BitVec 18) <<< port)
        errlog := (s.withoutPort port).errlog
        errSeq := (s.withoutPort port).errSeq } := by
  unfold State.withoutPort
  rw [State.logErr_frame, State.logErr_completions _ 1 3 _ _ _ _ (by decide) (by decide)]

theorem State.ports_withoutPort (s : State) (port : Nat) :
    (s.withoutPort port).ports = s.ports &&& ~~~((1 : BitVec 18) <<< port) := by
  rw [State.withoutPort_frame]

/-- PORT_OUT_OF_SERVICE of a port in service loses every request in flight on it. -/
theorem exec_portOutOfService {s : State} {port : Nat} (flying : List FabRequest) (hport : port < 18)
    (hup : s.ports.getLsbD port = true) :
    exec (.portOutOfService ⟨port, flying⟩) s =
      .next (flying.foldl (fun v x => v.loseRequest x.op x.req 0) (s.withoutPort port)) := by
  simp only [exec, execPortOutOfService, hport, hup, and_self, if_true, State.withoutPort]

/-- Settles O46: each event by what it comes to when it is due. That a peer's answer is an input of the turn, after which the
operation has performed, is the model's choice (log 8), and so are that each lane fails by itself while the token settles at
the end (log 28) and what an FFLUSH covers (log 32). -/
theorem fabricEventsSettle : Obligations.FabricEventsSettle := by
  unfold Obligations.FabricEventsSettle
  intro s
  refine ⟨?_, ?_, ?_, fun n k o ho hg hf hopen => ⟨?_, ?_, ?_⟩, fun p u ps hempty hnew hgo hreach => ⟨?_, ?_⟩, ?_⟩
  · intro n o f e ans ho hi hg hp hf hcov hfails
    rw [exec_fabOperationSettle ans ho hg hp, State.runFab_of_fflush ans ho hi hf, State.runFlush_of_nothing hcov hfails,
      State.op?_id ho]
  · intro n o f e bs ho hi hg hp hf hcon hpeer
    rw [exec_fabOperationSettle _ ho hg hp, State.runFab_of_signal hi _ ho hf hcon hpeer, State.wholeAnswer_data,
      State.finish]
  · intro n o f e ans r ho hi hg hp hf hcon hpeer ha
    rw [exec_fabOperationSettle ans ho hg hp, State.runFab_of_signal hi ans ho hf hcon hpeer, State.wholeAnswer_error _ ha,
      State.peerOf_of_signal hi hpeer]
  · intro hnew
    rw [exec_fabRequestTimeout k ho hg hf, State.resend_first 3 hopen hnew, State.op?_id ho]
  · intro hold hone
    rw [exec_fabRequestTimeout k ho hg hf, State.resend_again_whole 3 hopen hold hone]
  · intro a hold hlanes ha
    rw [exec_fabRequestTimeout k ho hg hf, State.resend_again_lane 3 hopen hold hlanes ha, State.op?_id ho]
  · intro m hact
    rw [exec_peerPacketArrival hempty hnew, State.tryPacket_of_read hgo hreach hact]
  · intro bs hact
    rw [exec_peerPacketArrival hempty hnew, State.tryPacket_of_write hgo hreach hact]
  · intro port flying hport hup
    refine ⟨s.withoutPort port, s.ports_withoutPort port, ?_, exec_portOutOfService flying hport hup⟩
    rw [State.ports_withoutPort]
    exact s.withoutPort_frame port

end Sys2Proof.Machine

/-! PROOFS. 13 R387 to R394; 14 R399, R400, R410, R411, R420: tasks, evictions, recomputes, and the operations of the task and
recipe engines that waited. Each event has a lemma that says what it comes to when it is due; O49 is put together from these. -/

namespace Sys2Proof.Machine

section

variable {s : State} {die : Nat}

/-! ### Tasks (13 R387 to R394) -/

/-- TASK_ENTRY of a submission that was not parked and that nothing earlier holds back. -/
theorem exec_taskEntry {n : Nat} {o : Op} {f : Fields} (hh : s.streamHead die n = some o) (hi : o.instr = .tsubmit f)
    (hw : o.wait = .none) (hp : o.parked = 0) (hm : s.mayPerform o = true) :
    exec (.taskEntry die n) s = .next (s.submit o die n) := by
  simp only [exec, execTaskEntry, hh, hi, hw, hm, and_self, if_true, State.onTurn, hp]

/-- The chosen task starts on the core that has room for it, once its source has the turn. -/
theorem exec_taskDispatch {core : Nat} {t : Task} (hc : s.chosenTask die = some t) (hcore : s.taskCore die t = some core)
    (ht : s.turnOf die .task = true) :
    exec (.taskDispatch die) s = .next ((s.dispatchTask die t core).setDie die fun x => { x with served := .task }) := by
  simp only [exec, execTaskDispatch, hc, hcore, ht, if_true, State.noteServed]

section

variable {entry : Nat} {k : Task} (hk : ((s.die die).tasks.find? fun k => k.entry == entry) = some k)
include hk

/-- A running task completes with its crew, which has ended and of which no thread has stopped. -/
theorem exec_taskCompletion_running {c : Crew} (hst : k.st = .running) (hc : (k.crew.bind fun n => s.crew? n) = some c)
    (he : s.crewEnded c = true) (hs : c.hasStopped = false) :
    exec (.taskCompletion die entry) s = .next (s.completeTask die k c.poison) := by
  simp only [exec, execTaskCompletion, hk, hst, hc, he, hs, Bool.not_false, Bool.and_self, if_true]

/-- A poisoned task that waits completes with cause 1. -/
theorem exec_taskCompletion_waiting {g : Word} (hst : k.st = .waiting) (hp : s.taskPoison die k = some g) :
    exec (.taskCompletion die entry) s = .next (s.completeTask die k (some (1, g))) := by
  simp only [exec, execTaskCompletion, hk, hst, hp]

end

/-! ### Evictions (14 R399, R400; 15 R427) -/

/-- L2 holds a line no more. -/
def State.unhold (s : State) (line : Nat) : State := { s with resident := s.resident.filter (· != line) }

@[simp] theorem State.tileAt_unhold (s : State) (line key : Nat) : (s.unhold line).tileAt key = s.tileAt key := rfl

@[simp] theorem State.coverOf_unhold (s : State) (line : Nat) (t : Tile) : (s.unhold line).coverOf t = s.coverOf t := rfl

/-- A byte lies in a line where its number divided by the line's size is that line's number. -/
theorem lineOf_eq_iff (line k : Nat) : k / 128 = line ↔ line * 128 ≤ k ∧ k < line * 128 + 128 := by omega

/-- A line that is written back leaves HBM4E nothing old under its bytes. -/
theorem State.writeBack_eq (s : State) (line : Nat) :
    s.writeBack line = { s with stale := s.stale.filter fun c => c.1 / 128 != line } := by
  have hline (k : Nat) : (!(decide (line * 128 ≤ k) && decide (k < line * 128 + 128))) = (k / 128 != line) := by
    rw [bne, Bool.beq_eq_decide_eq, decide_eq_decide.mpr (lineOf_eq_iff line k), Bool.decide_and]
  simp only [State.writeBack, hline]

/-- A line that has not migrated and whose home serves is only written back. -/
theorem State.evictLine_of_home {line : Nat} (hmoved : ∀ e ∈ s.moved, e.1 ≠ line) (hserves : s.salvaged (line * 128) = none) :
    s.evictLine line = s.writeBack line := by
  have hhere : (s.moved.any fun e => e.1 == line) = false := by simpa using hmoved
  simp [State.evictLine, hhere, hserves]

/-- The eviction of a line of no tile writes it back. -/
theorem exec_l2LineEviction_of_no_tile {line : Nat} (ht : s.tileAt (line * 128) = none) (hmoved : ∀ e ∈ s.moved, e.1 ≠ line)
    (hserves : s.salvaged (line * 128) = none) :
    exec (.l2LineEviction line) s = .next ((s.unhold line).writeBack line) := by
  have htile := (s.tileAt_unhold line (line * 128)).trans ht
  have hevict : (s.unhold line).evictLine line = (s.unhold line).writeBack line := State.evictLine_of_home hmoved hserves
  rw [State.unhold] at htile hevict
  simp only [exec, execL2LineEviction, htile, hevict, State.unhold]

/-- Bytes that become undefined leave the states of the tiles alone. -/
@[simp] theorem State.undefineFrame_tiles (s : State) (frame : Nat) : (s.undefineFrame frame).tiles = s.tiles := by
  unfold State.undefineFrame
  split
  · rfl
  · exact List.foldlRecOn (motive := fun v : State => v.tiles = s.tiles) _ _ rfl fun v hv k _ => hv
  · rfl
  · rfl

/-- A recipe with no pins of the program or of requests is not pinned. -/
theorem Recipe.pinned_of_zero {r : Recipe} (hp : r.ppin = 0) (hr : r.rpin = 0) : r.pinned = false := by
  simp [Recipe.pinned, hp, hr]

/-- The drop of a PRESENT tile of an unpinned recipe. -/
theorem State.dropTile_of_unpinned {t : Tile} {r : Recipe} (ht : t.st = .present) (hr : s.coverOf t = some r)
    (hpin : r.pinned = false) :
    s.dropTile t = { s.undefineFrame t.page with
      tiles := updWhere (fun x => x.page == t.page) (fun x => { x with st := .absent }) s.tiles
      resident := (s.undefineFrame t.page).resident.filter fun k => (s.undefineFrame t.page).frameOf (k * 128) != t.page } := by
  simp [State.dropTile, ht, hr, hpin]

/-- The eviction of a line that L2 holds drops the PRESENT tile of an unpinned recipe. -/
theorem exec_l2LineEviction_of_present {line : Nat} {t : Tile} {r : Recipe} (hheld : line ∈ s.resident)
    (ht : s.tileAt (line * 128) = some t) (hst : t.st = .present) (hr : s.coverOf t = some r) (hpin : r.pinned = false) :
    exec (.l2LineEviction line) s = .next ((s.unhold line).dropTile t) := by
  have hcontains : s.resident.contains line = true := List.contains_iff_mem.mpr hheld
  have htile := (s.tileAt_unhold line (line * 128)).trans ht
  have hcover := (s.coverOf_unhold line t).trans hr
  rw [State.unhold] at htile hcover
  simp only [exec, execL2LineEviction, hcontains, htile, hst, hcover, hpin, Option.map_some, Option.getD_some, Bool.not_false,
    and_self, if_true, State.unhold]

/-! ### Recomputes (14 R410, R411) -/

/-- The request that is served next starts in the reserve of its launch. -/
theorem exec_recomputeDispatch {core : Nat} {q : Request} {r : Recipe} {l : Launch} (hq : s.nextRequest die = some q)
    (hr : s.recipe? die q.recipe = some r) (hl : s.reserveOf die r.stream = some (l, core)) :
    exec (.recomputeDispatch die) s = .next (s.dispatchRecompute die q r l core) := by
  simp only [exec, execRecomputeDispatch, hq, hr, hl]

/-- A recompute whose crew has ended without a failure succeeds. -/
theorem exec_recomputeSettle {n : Nat} {q : Request} {r : Recipe} {c : Crew}
    (hq : ((s.die die).requests.find? fun q => q.recipe == n) = some q) (hr : s.recipe? die n = some r)
    (hc : (q.crew.bind fun k => s.crew? k) = some c) (he : s.crewEnded c = true) (hok : s.recomputeFailure die r c = none) :
    exec (.recomputeSettle die n) s = .next ((s.endRecompute c).recomputeDone die r q.pins) := by
  simp only [exec, execRecomputeSettle, hq, hr, hc, he, hok, Bool.not_true, Bool.false_eq_true, if_false]

/-! ### Operations of the task and recipe engines that waited (13 R372, R390; 14 R420) -/

section

variable {n : Nat} {o : Op} (ho : s.op? n = some o) (hs : o.started = true) (hw : o.wait = .none)
include ho hs hw

/-- A form of the recipe engine that nothing earlier holds back goes on. -/
theorem exec_tbeOperationSettle_rce (hi : isRceForm o.instr = true) (hm : s.mayPerform o = true) :
    exec (.tbeOperationSettle n) s = .next (s.runRce o) := by
  simp only [exec, execTbeOperationSettle, ho, hs, hw, Bool.not_true, bne_self_eq_false, Bool.or_self, Bool.false_eq_true,
    if_false]
  split
  case h_5 => simp only [hi, hm, Bool.and_self, if_true]
  all_goals
    next h => simp [h, isRceForm] at hi

/-- A TRELEASE at the head of its stream is applied. -/
theorem exec_tbeOperationSettle_trelease {f : Fields} (hi : o.instr = .trelease f)
    (hh : (s.streamHead (dieOfCore o.core) (o.arg 0)).map Op.id = some n) :
    exec (.tbeOperationSettle n) s = .next (s.runRelease o) := by
  simp only [exec, execTbeOperationSettle, ho, hs, hw, hi, hh, Bool.not_true, bne_self_eq_false, Bool.or_self,
    Bool.false_eq_true, if_false, if_true]

theorem exec_tbeOperationSettle_bincfg {f : Fields} (hi : o.instr = .bincfg f) :
    exec (.tbeOperationSettle n) s = .next (s.runBincfg o) := by
  simp only [exec, execTbeOperationSettle, ho, hs, hw, hi, Bool.not_true, bne_self_eq_false, Bool.or_self,
    Bool.false_eq_true, if_false]

theorem exec_tbeOperationSettle_wqcfg {f : Fields} (hi : o.instr = .wqcfg f) :
    exec (.tbeOperationSettle n) s = .next (s.runWqcfg o) := by
  simp only [exec, execTbeOperationSettle, ho, hs, hw, hi, Bool.not_true, bne_self_eq_false, Bool.or_self,
    Bool.false_eq_true, if_false]

end

/-- A form of the recipe engine at an address beyond 2^57 settles POISONED with cause 3. -/
theorem State.runRce_of_beyond {o : Op} (ha : 2 ^ 57 ≤ o.arg 1) :
    s.runRce o = (s.setOp o.id fun o => { o with queued := false }).poisonOp o.id 3 := by
  simp only [State.runRce, if_pos (Or.inl ha)]

/-- A BINCFG before which nothing is left to apply changes its bin. -/
theorem State.runBincfg_of_turn {o : Op} (h : s.binWaits o.id o.core o.launch (o.arg 0) (o.arg 1) (o.arg 2) = false) :
    s.runBincfg o = (s.applyBin o.core o.launch (o.arg 0) (o.arg 1) (o.arg 2)).dropOp o.id := by
  simp only [State.runBincfg, h, Bool.false_eq_true, if_false]

/-- A WQCFG before which nothing is left to apply changes its queue. -/
theorem State.runWqcfg_of_turn {o : Op} (h : s.queueBusy o.id (dieOfCore o.core) (o.arg 0) = false) :
    s.runWqcfg o = (s.applyQueue o.core o.launch (o.arg 0) (o.arg 1) (o.arg 2)).dropOp o.id := by
  simp only [State.runWqcfg, h, Bool.false_eq_true, if_false]

end

/-- Settles O49: each event by what it comes to when it is due. That a BINCFG, a WQCFG and a TRELEASE wait for operations
accepted earlier is the model's choice (log 33), and so are the order in which requests for a recompute are served (log 34) and
the one submission of a turn (log 55). -/
theorem tasksAndRecomputesGoOn : Obligations.TasksAndRecomputesGoOn := by
  unfold Obligations.TasksAndRecomputesGoOn
  intro s
  refine ⟨?_, ?_, ?_, ?_, ?_, ?_, ?_, ?_, fun n o ho hs hw hm => ?_⟩
  · intro die n o f hh hi hw hp hm
    exact exec_taskEntry hh hi hw hp hm
  · intro die core t hc hcore ht
    exact exec_taskDispatch hc hcore ht
  · intro die entry k c hk hst hc he hs
    exact exec_taskCompletion_running hk hst hc he hs
  · intro die entry k g hk hst hp
    exact exec_taskCompletion_waiting hk hst hp
  · intro line ht hmoved hserves
    rw [exec_l2LineEviction_of_no_tile ht hmoved hserves, State.writeBack_eq, State.unhold]
  · intro line t r hheld ht hst hr hppin hrpin
    have hpin := Recipe.pinned_of_zero hppin hrpin
    have hcover := (s.coverOf_unhold line t).trans hr
    rw [exec_l2LineEviction_of_present hheld ht hst hr hpin, State.dropTile_of_unpinned hst hcover hpin, State.unhold]
  · intro die core q r l hq hr hl
    exact exec_recomputeDispatch hq hr hl
  · intro die n q r c hq hr hc he hok
    exact exec_recomputeSettle hq hr hc he hok
  · obtain rfl := State.op?_id ho
    refine ⟨?_, ?_, ?_, ?_⟩
    · intro hi ha
      rw [exec_tbeOperationSettle_rce ho hs hw hi hm, State.runRce_of_beyond ha]
    · intro f hi hh
      rw [exec_tbeOperationSettle_trelease ho hs hw hi hh, State.runRelease]
    · intro f hi hturn
      rw [exec_tbeOperationSettle_bincfg ho hs hw hi, State.runBincfg_of_turn hturn]
    · intro f hi hturn
      rw [exec_tbeOperationSettle_wqcfg ho hs hw hi, State.runWqcfg_of_turn hturn]

end Sys2Proof.Machine

/-! PROOFS. 01 R14; 15 R442, R443; 18 R504, R512: the invariant. Each instruction and each event is led to the shared operations
in which its branches end, which keep the invariant by Laws/Inv.lean; O58 and O59 are put together from these. -/

namespace Sys2Proof.Machine

/-! ### What an answer leaves -/

/-- An act that answers a next state keeps the invariant if that state meets it. -/
theorem inv_of_next {u t : State} (e : Host.Outcome.next (φ := Fault) (ρ := Refusal) u = .next t) (hu : u.Inv) : t.Inv := by
  cases e
  exact hu

/-- `inv_withIssue` with the run first, from which the body of the issue is known. -/
theorem inv_of_issue {i : Instr} {s t : State} {body : Issue → State} (e : withIssue i s body = .next t) (h : s.Inv)
    (hb : ∀ I : Issue, I.s.Inv → (body I).Inv) : t.Inv := inv_withIssue h hb e

/-- `inv_withCommand` with the run first, from which the body of the command is known. -/
theorem inv_of_command {opc sub : Nat} {s t : State} {body : Cmd → CmdOut} (e : withCommand opc sub s body = .next t)
    (h : s.Inv) (hb : ∀ c, (body c).Inv) : t.Inv := inv_withCommand h hb e

/-- A command that completes leaves what the state before its completion keeps. -/
theorem inv_done {s : State} (status result : Nat) (h : s.Inv) : (CmdOut.done s status result).Inv := h

/-- The state of a pair, once the pair is taken apart. -/
theorem inv_of_eq_fst {β : Type} {p : State × β} {u : State} {b : β} (e : p = (u, b)) (h : p.1.Inv) : u.Inv := by
  subst e
  exact h

theorem inv_of_eq_snd {β : Type} {p : β × State} {u : State} {b : β} (e : p = (b, u)) (h : p.2.Inv) : u.Inv := by
  subst e
  exact h

/-! ### Forms that end in more than one shared operation -/

section

variable {s t : State}

theorem inv_execFflags (f : Fields) (h : s.Inv) (e : execFflags f s = .next t) : t.Inv :=
  inv_of_issue e h fun I hI => inv_foldl _ _ (fun s _ hs => inv_State_setThread s _ _ _ _ hs) (inv_Issue_perLane I _ hI)

theorem inv_execFenv (f : Fields) (h : s.Inv) (e : execFenv f s = .next t) : t.Inv :=
  inv_of_issue e h fun I hI => inv_foldl _ _ (fun s _ hs => inv_State_setThread s _ _ _ _ hs) (inv_Issue_perLane I _ hI)

theorem inv_execRtt (f : Fields) (h : s.Inv) (e : execRtt f s = .next t) : t.Inv := by
  refine inv_of_issue e h fun I hI => inv_foldl _ _ (fun s l hs => ?_) (inv_State_advance _ _ _ _ hI)
  split
  · exact inv_State_returnFrom _ _ _ _ hs
  · exact inv_State_trap _ _ _ _ _ hs

theorem inv_execBara (f : Fields) (h : s.Inv) (e : execBara f s = .next t) : t.Inv := by
  refine inv_of_issue e h fun I hI => inv_foldl _ _ (fun s l hs => inv_State_arrive _ _ _ _ _ hs) ?_
  exact inv_State_noteArrival _ _ _ _ _ (inv_Issue_done _ hI)

theorem inv_execBarw (f : Fields) (h : s.Inv) (e : execBarw f s = .next t) : t.Inv := by
  refine inv_of_issue e h fun I hI => ?_
  extract_lets b u
  have hu : u.Inv := by
    refine inv_foldl _ _ (fun s l hs => inv_State_arrive _ _ _ _ _ (inv_State_setThread _ _ _ _ _ hs)) ?_
    exact inv_State_noteArrival _ _ _ _ _ (inv_Issue_done _ hI)
  split
  · exact inv_State_setWarp _ _ _ _ hu
  · exact hu

theorem inv_execBars (f : Fields) (h : s.Inv) (e : execBars f s = .next t) : t.Inv := by
  refine inv_of_issue e h fun I hI => ?_
  extract_lets n b
  split
  · exact inv_Issue_trapAct _ _ _ _ hI
  · exact inv_State_arrive _ _ _ _ _ (inv_State_setCrew _ _ _ (inv_Issue_done _ hI))

theorem inv_execSleep (f : Fields) (any : Bool) (h : s.Inv) (e : execSleep f any s = .next t) : t.Inv := by
  refine inv_of_issue e h fun I hI => ?_
  extract_lets ks u
  have hu : u.Inv := inv_State_setWarp _ _ _ _ hI
  split
  · exact inv_State_sleepReturn _ _ _ _ _ _ (inv_State_advance _ _ _ _ hu)
  · exact inv_State_setWarp _ _ _ _ (inv_State_advance _ _ _ _ hu)

theorem inv_execLds (f : Fields) (latch : LatchMode) (h : s.Inv) (e : execLds f latch s = .next t) : t.Inv := by
  refine inv_of_issue e h fun I hI => ?_
  split
  · exact inv_Issue_loadStore _ _ _ hI
  · split
    · exact inv_Issue_holdFor _ _ hI
    · exact inv_State_setWarp _ _ _ _ (inv_State_advance _ _ _ _ (inv_State_accept _ _ hI))

theorem inv_execPbwait (f : Fields) (reach : Reach) (h : s.Inv) (e : execPbwait f reach s = .next t) : t.Inv := by
  refine inv_of_issue e h fun I hI => inv_Issue_lowTrap _ _ ?_ hI
  extract_lets o
  split
  · exact inv_Issue_acceptOp _ _ hI
  · exact inv_State_setWarp _ _ _ _ (inv_State_advance _ _ _ _ (inv_State_accept _ _ hI))

end

/-! ### Every instruction of MB2 -/

/-- Every instruction that has a form keeps the invariant. -/
theorem inv_exec_form {i : Instr} {F : Form} {s t : State} (hF : i.form = some F) (h : s.Inv) (e : exec i s = .next t) :
    t.Inv := by
  cases i <;> cases hF
  all_goals dsimp only [exec] at e
  case iadd | isub => exact inv_of_issue e h fun I hI => inv_Issue_addForm I _ _ _ hI
  case imul | imulh | imin | imax | iabs | brev => exact inv_of_issue e h fun I hI => inv_Issue_int2 I _ _ hI
  case idiv | irem => exact inv_of_issue e h fun I hI => inv_Issue_divForm I _ _ _ hI
  case shl | shr | sar | rot => exact inv_of_issue e h fun I hI => inv_Issue_shiftForm I _ _ hI
  case padd | psub | pmax | pmin => exact inv_of_issue e h fun I hI => inv_Issue_packForm I _ _ hI
  case fadd | fmul | ffma | fmin | fmax | fdiv | fscale | cvt | cvtf =>
    exact inv_of_issue e h fun I hI => inv_Issue_floatForm I _ _ _ hI
  case fsqrt | rcp | rsq | exp2 | log2 | sin | cos | frnd =>
    exact inv_of_issue e h fun I hI => inv_Issue_floatUnary I _ _ _ hI
  case iaddx | imad | imadw | btab | shf | bfe | bfi | popc | clz | isetp | sel | movi | lea | pacs | cellkey | hfma2 |
      fsetp | fgetexp | fclass | cvti | cvt8 | elect | tstat | tquery | fquery | taskinfo | rcquery =>
    exact inv_of_issue e h fun I hI => inv_Issue_perLane I _ hI
  case xget | bcast | poll | peers | foldx | scanx | bysel | tlu | wardq =>
    exact inv_of_issue e h fun I hI => inv_Issue_allLanes I _ hI
  case nop | prefetch => exact inv_of_issue e h fun I hI => inv_Issue_done I hI
  case brk => exact inv_of_issue e h fun I hI => inv_Issue_trapAct I _ _ _ hI
  case getsr => exact inv_of_issue e h fun I hI => inv_Issue_readSpecial I _ _ _ hI
  case setsr => exact inv_of_issue e h fun I hI => inv_Issue_writeSpecial I _ _ hI
  case bra | brx =>
    exact inv_of_issue e h fun I hI => inv_Issue_transfer _ _ hI fun s _ hs => inv_Issue_moveTo _ s _ _ _ _ hs fun _ hu => hu
  case call | callx =>
    exact inv_of_issue e h fun I hI => inv_Issue_transfer _ _ hI fun s _ hs => inv_Issue_callTo _ s _ _ hs
  case ret => exact inv_of_issue e h fun I hI => inv_Issue_transfer _ _ hI fun s _ hs => inv_Issue_retFrom _ s _ hs
  case ld | st | sts | ldloc | stloc | mdld | codeq => exact inv_of_issue e h fun I hI => inv_Issue_loadStore I _ _ hI
  case mdst | fld | fatom | addrq => exact inv_of_issue e h fun I hI => inv_Issue_acceptLanes I _ _ hI
  case latchSet | latchClr => exact inv_of_issue e h fun I hI => inv_Issue_latchForm I _ hI
  case atom | red => exact inv_of_issue e h fun I hI => inv_Issue_atomForm I _ _ _ hI
  case cctlInv | cctlInvall | mzero | mepi | tlbsd | rgnsw | ctxload =>
    exact inv_of_issue e h fun I hI => inv_Issue_acceptOp I _ hI
  case texport | pbarrive | pbinit | codepub | cpatch | fflush =>
    exact inv_of_issue e h fun I hI => inv_Issue_lowTrap _ _ (inv_Issue_acceptOp I _ hI) hI
  case hload | tload | tstore | tcopy | tmcast | tgather | tscatter | tfill =>
    exact inv_of_issue e h fun I hI => inv_Issue_acceptCpe I _ hI
  case mload | mstore | mred => exact inv_of_issue e h fun I hI => inv_Issue_tileMove I _ _ hI
  case fst | fatomc | fred => exact inv_of_issue e h fun I hI => inv_Issue_fabForm I _ _ _ hI
  case fticket | fsigTret | fsigTpois => exact inv_of_issue e h fun I hI => inv_Issue_windowForm I _ hI
  case rcpin | rcunpin | rcretire | rcdrop => exact inv_of_issue e h fun I hI => inv_Issue_rceForm I _ hI
  case fflags => exact inv_execFflags _ h e
  case fenv => exact inv_execFenv _ h e
  case rtt => exact inv_execRtt _ h e
  case bara => exact inv_execBara _ h e
  case barw => exact inv_execBarw _ h e
  case bars => exact inv_execBars _ h e
  case sleep => exact inv_execSleep _ _ h e
  case lds => exact inv_execLds _ _ h e
  case pbwait => exact inv_execPbwait _ _ h e
  case wdog | part | jset | jwait | exit | trap | fence | yield =>
    exact inv_of_issue e h fun I hI => by simp [hI]
  case tfree | promote | mma | mmag | mflags | spawn | tsigArm | tsigDone | tsigPoison | mov | ttest | tlbinv |
      fmcast | wqpush | fstBlk | bincfg | wqcfg | trelease | tstream | tsubmit | ctxsave =>
    refine inv_of_issue e h fun I hI => ?_
    dsimp only
    repeat' split
    all_goals simp [hI]

/-! ### Events that end in more than one shared operation -/

section

variable {s t : State}

theorem inv_execTaskEntry (die stream : Nat) (h : s.Inv) (e : execTaskEntry die stream s = .next t) : t.Inv := by
  refine inv_of_next e ?_
  repeat' split
  · exact inv_State_onTurn _ _ _ h fun u hu => inv_State_submit u _ _ _ hu
  all_goals exact h

theorem inv_execTbeOperationSettle (op : Nat) (h : s.Inv) (e : execTbeOperationSettle op s = .next t) : t.Inv := by
  refine inv_of_next e ?_
  repeat' split
  case h_1.isTrue => exact inv_State_onTurn _ _ _ h fun u hu => inv_State_runPush u _ hu
  all_goals simp [h]

theorem inv_execRecomputeSettle (die recipe : Nat) (h : s.Inv) (e : execRecomputeSettle die recipe s = .next t) : t.Inv := by
  refine inv_of_next e ?_
  dsimp only
  repeat' split
  all_goals simp [h]

theorem inv_execL2LineEviction (line : Nat) (h : s.Inv) (e : execL2LineEviction line s = .next t) : t.Inv := by
  refine inv_of_next e ?_
  extract_lets held u
  have hu : u.Inv := by simpa [u] using h
  repeat' split
  all_goals simp [hu]

theorem inv_execContextSaveWrite (crew : Nat) (fails : Bool) (h : s.Inv) (e : execContextSaveWrite crew fails s = .next t) :
    t.Inv := by
  refine inv_of_next e ?_
  split
  · exact h
  · rename_i c _
    split
    · exact h
    · rename_i sv _
      split
      · exact h
      · split <;> rename_i hreach <;> have hu := inv_of_eq_fst hreach (inv_State_reach _ _ _ _ _ _ h)
        · exact inv_State_startRecall _ _ _ hu
        · exact hu
        · exact inv_State_request _ _ _ _ _ hu
        · exact inv_State_abandonSave _ _ _ hu
        · split
          · refine inv_State_abandonSave _ _ _ (inv_State_writeParts _ _ _ ?_)
            exact inv_foldl _ _ (fun v p hv => inv_State_undefine _ _ _ hv) (inv_State_writeParts _ _ _ hu)
          · have hv := inv_State_saveStatus _ crew sv 1 hu
            dsimp only
            split
            · exact inv_State_completeSave _ _ _ (inv_State_writeParts _ _ _ hv)
            · exact hv

theorem inv_execCoresidentLaunchGrant (h : s.Inv) (e : execCoresidentLaunchGrant s = .next t) : t.Inv := by
  refine inv_of_next e ?_
  repeat' split
  case h_2.isFalse n _ _ _ _ _ =>
    cases hall : State.startAll 200 s n 0 with
    | none => exact h
    | some u => exact inv_State_noteServed _ _ _ (inv_startAll 200 s n 0 h hall)
  all_goals exact h

theorem inv_execOperationStart (op : Nat) (h : s.Inv) (e : execOperationStart op s = .next t) : t.Inv := by
  refine inv_of_next e ?_
  split
  · exact h
  · rename_i o _
    split
    · exact inv_State_wakeTasks _ _ h
    · extract_lets u go
      have hu : u.Inv := inv_State_beginWait _ _ (inv_State_setOp _ _ _ h)
      have hgo : go.Inv := by
        simp only [go]
        split
        · exact inv_State_goPhase _ _ hu
        · exact hu
      clear_value go
      repeat' split
      all_goals simp [h, hgo]

theorem inv_execLmeOperationComplete (op : Nat) (h : s.Inv) (e : execLmeOperationComplete op s = .next t) : t.Inv := by
  refine inv_of_next e ?_
  repeat' split
  case h_2.isFalse => exact inv_State_onTurn _ _ _ h fun u hu => inv_State_goLme u _ hu
  all_goals exact h

theorem inv_execPbwaitConditionMet (op : Nat) (h : s.Inv) (e : execPbwaitConditionMet op s = .next t) : t.Inv := by
  refine inv_of_next e ?_
  repeat' split
  case h_2 => exact inv_State_onTurn _ _ _ h fun u hu => inv_State_checkPbwait u _ hu
  all_goals simp [h]

theorem inv_execCpeOperationSettle (op : Nat) (h : s.Inv) (e : execCpeOperationSettle op s = .next t) : t.Inv := by
  refine inv_of_next e ?_
  repeat' split
  · exact inv_State_onTurn _ _ _ h fun u hu => inv_State_runCpe u _ hu
  all_goals exact h

theorem inv_execFabOperationSettle (op : Nat) (answer : FabAnswer) (h : s.Inv)
    (e : execFabOperationSettle op answer s = .next t) : t.Inv := by
  refine inv_of_next e ?_
  repeat' split
  · exact inv_State_onTurn _ _ _ h fun u hu => inv_State_runFab u _ _ hu
  all_goals exact h

theorem inv_execPortOutOfService (port : PortLoss) (h : s.Inv) (e : execPortOutOfService port s = .next t) : t.Inv := by
  refine inv_of_next e ?_
  dsimp only
  split
  · exact inv_foldl _ _ (fun u x hu => inv_State_loseRequest _ _ _ _ hu) (by simp [h])
  · exact h

theorem inv_execWatchdogFire (core slot : Nat) (h : s.Inv) (e : execWatchdogFire core slot s = .next t) : t.Inv := by
  refine inv_of_next e ?_
  dsimp only
  repeat' split
  case h_2.isFalse.isTrue => exact inv_foldl _ _ (fun u x hu => inv_State_asyncTrap _ _ _ _ _ hu) (by simp [h])
  case h_2.isFalse.isFalse => exact inv_State_setWarp _ _ _ _ (by simp [h])
  all_goals exact h

theorem inv_execFetchLineArrival (core slot : Nat) (line : VAddr) (h : s.Inv)
    (e : execFetchLineArrival core slot line s = .next t) : t.Inv := by
  refine inv_of_next e ?_
  split
  · exact h
  · split
    · exact h
    · split
      · exact inv_State_buffer _ _ _ _ (inv_of_eq_fst (by assumption) (inv_State_readLine _ _ _ _ h))
      · exact h

theorem inv_execRecallResponse (half : Nat) (data : Option (List Byte)) (h : s.Inv)
    (e : execRecallResponse half data s = .next t) : t.Inv := by
  refine inv_of_next e ?_
  split
  · exact h
  · refine inv_State_wakeRecall _ _ (inv_State_setHalf _ _ _ ?_)
    split
    · exact inv_State_store _ _ _ h
    · exact h

theorem inv_execDieFailure (die : Nat) (h : s.Inv) (e : execDieFailure die s = .next t) : t.Inv := by
  refine inv_of_next e ?_
  split
  · exact h
  · extract_lets survivor stranded lost s1 s2 acts waiting s3 s4 s5 s6 s7 hit s8
    have h1 : s1.Inv := inv_foldl _ _ (fun _ _ hu => inv_State_salvage _ _ _ _ _ hu) h
    have h2 : s2.Inv := inv_foldl _ _ (fun _ _ hu => inv_State_salvage _ _ _ _ _ hu) h1
    have h3 : s3.Inv := inv_State_setDie _ _ _ h2
    have h4 : s4.Inv := ⟨h3.memory, h3.cores, h3.dies, h3.bands, h3.clock⟩
    have h5 : s5.Inv := inv_foldl _ _ (fun _ _ hu => inv_State_failAct _ _ _ hu) h4
    have h6 : s6.Inv := inv_foldl _ _ (fun _ _ hu => inv_State_failDead _ _ _ hu) h5
    have h7 : s7.Inv := inv_State_logErr _ _ _ _ _ _ _ h6
    have h8 : s8.Inv := inv_foldl _ _ (fun _ _ hu => inv_State_beginEnd _ _ _ _ hu) h7
    exact ⟨h8.memory, h8.cores, h8.dies, h8.bands, h8.clock⟩

theorem inv_execCompletionPost (h : s.Inv) (e : execCompletionPost s = .next t) : t.Inv := by
  refine inv_of_next e ?_
  split
  · exact h
  · dsimp only
    split
    · exact h
    · refine inv_State_emit _ _ (inv_State_setBar _ _ (inv_State_store _ _ _ ?_))
      simpa using h

theorem inv_execThrottleStep (power junction inlet : Nat) (h : s.Inv) (e : execThrottleStep power junction inlet s = .next t) :
    t.Inv := by
  unfold execThrottleStep at e
  extract_lets u hot f at e
  refine inv_of_next e ?_
  have hu : u.Inv := inv_State_setBar _ _ h
  have hf : 700 ≤ f ∧ f ≤ 2100 ∧ f % 100 = 0 := by
    obtain ⟨hlow, hhigh, hstep⟩ := hu.clock
    dsimp only [f]
    split <;> omega
  split
  · exact hu
  · exact inv_State_logErr _ _ _ _ _ _ _ ⟨hu.memory, hu.cores, hu.dies, hu.bands, hf⟩

/-- An access of the host performs, waits or is answered with an error. -/
theorem inv_hostAsks (a : HostAccess) (h : s.Inv) (e : s.hostAsks a = .next t) : t.Inv := by
  refine inv_of_next e ?_
  repeat' split
  all_goals simp [h]

end

/-! ### Commands -/

section

variable {s t : State}

theorem inv_execMap (fails : Bool) (h : s.Inv) (e : execMap fails s = .next t) : t.Inv := by
  refine inv_of_command e h fun c => ?_
  extract_lets asid va pa bits code n size pages dies rcmp held
  have hheld : ∀ u, held = some u → u.Inv := by
    intro u hu
    simp only [held] at hu
    split at hu
    · split at hu
      · exact inv_allocReserves _ _ _ h hu
      · cases hu; exact h
    · cases hu; exact h
  clear_value held
  refine cmdOut_ite h (cmdOut_ite h (cmdOut_ite h (cmdOut_ite h (cmdOut_ite h ?_))))
  cases held with
  | none => exact h
  | some u =>
    have hmap : ∀ n, (u.mapPages1 asid va pa code bits n).Inv := fun n => inv_State_mapPages1 u _ _ _ _ _ n (hheld u rfl)
    refine cmdOut_ite ?_ (hmap n)
    exact ⟨(hmap _).memory, (hmap _).cores, (hmap _).dies, (hmap _).bands, (hmap _).clock⟩

theorem inv_execUnmap (h : s.Inv) (e : execUnmap s = .next t) : t.Inv := by
  unfold execUnmap at e
  split at e
  · exact inv_of_next e (inv_endShoot _ _ h (by assumption))
  · refine inv_of_command e h fun c => ?_
    dsimp only
    repeat' split
    all_goals simp [CmdOut.Inv, h]

theorem inv_execShootdown (h : s.Inv) (e : execShootdown s = .next t) : t.Inv := by
  unfold execShootdown at e
  split at e
  · exact inv_of_next e (inv_endShoot _ _ h (by assumption))
  · refine inv_of_command e h fun c => ?_
    repeat' split
    all_goals simp [CmdOut.Inv, h]

theorem inv_execCodePublish (fails : Bool) (h : s.Inv) (e : execCodePublish fails s = .next t) : t.Inv := by
  refine inv_of_command e h fun c => ?_
  extract_lets va n first last pages left u
  have hu : u.Inv := by
    dsimp only [u]
    split
    · exact ⟨h.memory, h.cores, h.dies, h.bands, h.clock⟩
    · exact h
  have hpub := inv_State_hostPublish (c.word 1) first last left pages u (first / 64) hu
  clear_value u
  repeat' split
  case h_1 => exact inv_of_eq_fst (by assumption) hpub
  all_goals exact h

theorem inv_execRegion (h : s.Inv) (e : execRegion s = .next t) : t.Inv := by
  refine inv_of_command e h fun c => ?_
  extract_lets n a
  split
  · exact h
  · split
    · exact h
    · split
      · exact h
      · split <;> rename_i hsw <;>
          exact inv_of_eq_fst hsw (inv_State_switchRegions _ _ _ _ h)

theorem inv_execLaunch (fails : Bool) (h : s.Inv) (e : execLaunch fails s = .next t) : t.Inv := by
  refine inv_of_command e h fun c => ?_
  extract_lets a r l u dies
  have hu : u.Inv := ⟨h.memory, h.cores, h.dies, h.bands, h.clock⟩
  clear_value u
  repeat' split
  case h_2 => exact inv_State_needRoot _ _ (inv_allocReserves _ _ _ hu (by assumption))
  all_goals exact h

theorem inv_execAttest (fails : Bool) (h : s.Inv) (e : execAttest fails s = .next t) : t.Inv := by
  refine inv_of_command e h fun c => ?_
  generalize hostRange (c.word 1) 5532 = inside
  refine cmdOut_ite h (cmdOut_ite h (cmdOut_ite h (cmdOut_ite h ?_)))
  extract_lets q msg flash u
  have hu : u.Inv := ⟨h.memory, h.cores, h.dies, h.bands, h.clock⟩
  exact inv_done _ _ (inv_State_store _ _ _ hu)

theorem inv_execLaunchctlPreempt (h : s.Inv) (e : execLaunchctlPreempt s = .next t) : t.Inv := by
  refine inv_of_command e h fun c => ?_
  dsimp only
  repeat' split
  case h_2.isFalse => exact inv_foldl _ _ (fun _ _ hu => inv_State_askSave _ _ _ hu) (inv_State_setLaunch _ _ _ h)
  all_goals exact h

theorem inv_execLaunchctlResume (h : s.Inv) (e : execLaunchctlResume s = .next t) : t.Inv := by
  refine inv_of_command e h fun c => ?_
  split
  · exact h
  · rename_i l _
    split
    · exact h
    · split
      · exact h
      · split
        · rename_i u hstop
          obtain ⟨a, -, ha⟩ := List.exists_of_findSome?_eq_some hstop
          exact inv_resumeStop s l a h ha
        · dsimp only
          split
          · exact h
          · exact inv_resumeEnds _ _ _ (inv_resumeAll _ _ _ h)

end

/-! ### Every event -/

/-- Every instruction without a form, which is an event, keeps the invariant. -/
theorem inv_exec_event {i : Instr} {s t : State} (hF : i.form = none) (h : s.Inv) (e : exec i s = .next t) : t.Inv := by
  cases i <;> cases hF
  all_goals dsimp only [exec] at e
  case queueRefill => exact inv_of_next e (inv_State_refill _ _ _ h)
  case mxeOperationStart => exact inv_of_next e (inv_State_startMxe _ _ h)
  case gangMemberAcquire => exact inv_of_next e (inv_State_acquireMember _ _ h)
  case fabRequestTimeout => exact inv_of_next e (inv_State_loseRequest _ _ _ _ h)
  case peerPacketArrival => exact inv_of_next e (inv_State_packetArrives _ _ h)
  case v1RecordFlush => exact inv_of_next e (inv_State_flushV1 _ _ h)
  case hmctlWrite => exact inv_of_next e (inv_State_setMigr _ _ _ h)
  case cplheadWrite => exact inv_of_next e (inv_State_writeCplHead _ _ h)
  case aboAlert => exact inv_of_next e (inv_State_setRefresh _ _ _ _ h)
  case powerOn => exact inv_of_next e (inv_State_coldReset _ _ h)
  case taskEntry => exact inv_execTaskEntry _ _ h e
  case recomputeSettle => exact inv_execRecomputeSettle _ _ h e
  case l2LineEviction => exact inv_execL2LineEviction _ h e
  case tbeOperationSettle => exact inv_execTbeOperationSettle _ h e
  case contextSaveWrite => exact inv_execContextSaveWrite _ _ h e
  case coresidentLaunchGrant => exact inv_execCoresidentLaunchGrant h e
  case operationStart => exact inv_execOperationStart _ h e
  case lmeOperationComplete => exact inv_execLmeOperationComplete _ h e
  case pbwaitConditionMet => exact inv_execPbwaitConditionMet _ h e
  case cpeOperationSettle => exact inv_execCpeOperationSettle _ h e
  case fabOperationSettle => exact inv_execFabOperationSettle _ _ h e
  case portOutOfService => exact inv_execPortOutOfService _ h e
  case watchdogFire => exact inv_execWatchdogFire _ _ h e
  case fetchLineArrival => exact inv_execFetchLineArrival _ _ _ h e
  case recallResponse => exact inv_execRecallResponse _ _ h e
  case dieFailure => exact inv_execDieFailure _ h e
  case completionPost => exact inv_execCompletionPost h e
  case throttleStep => exact inv_execThrottleStep _ _ _ h e
  case hostCxlMemRead | hostCxlMemWrite | hostReadShared | hostReadForOwnership | hostWriteBack | hostCleanEviction =>
    exact inv_hostAsks _ h e
  case map => exact inv_execMap _ h e
  case unmap => exact inv_execUnmap h e
  case shootdown => exact inv_execShootdown h e
  case codePublish => exact inv_execCodePublish _ h e
  case region => exact inv_execRegion h e
  case launch => exact inv_execLaunch _ h e
  case launchctlPreempt => exact inv_execLaunchctlPreempt h e
  case launchctlResume => exact inv_execLaunchctlResume h e
  case resetCold =>
    unfold execResetCold at e
    split at e
    · exact inv_of_next e (inv_State_coldReset _ _ h)
    · exact inv_of_command e h fun _ => h
  case resetWarm =>
    unfold execResetWarm at e
    split at e
    · exact inv_of_next e (inv_State_warmReset _ _ h)
    · exact inv_of_command e h fun _ => h
  case attest => exact inv_execAttest _ h e
  case podWindowControl | launchctlEnd =>
    refine inv_of_command e h fun c => ?_
    repeat' split
    all_goals simp [CmdOut.Inv, h]
  case bandMode | errlog | fwloadImage | fwloadRepairMap =>
    refine inv_of_command e h fun c => ?_
    dsimp only
    repeat' split
    all_goals simp [CmdOut.Inv, h]
  case spawnRecordArrival | binTimerExpiry | taskCompletion | recomputeDispatch | tlbsdComplete | preemptDeadlineExpiry |
      clusterDispatch | ctxloadGrant | taskDispatch | binWarpFormation | crewRelease | latchWaitServed | mxeCommit |
      gangSettle | engineBarrierArrival | atomicUnitAct | readRetry | sleepWake | tsigDoneApply | trapEntry | migration |
      migrationReturn | bankRefresh | tstatPoisonClear | joinRegisterWrite | xlrpWrite | registerWrite | recallTimeout |
      launchEnd =>
    refine inv_of_next e ?_
    repeat' split
    all_goals simp [h]

/-- Every instruction and every event keeps the invariant. -/
theorem inv_exec {i : Instr} {s t : State} (h : s.Inv) (e : exec i s = .next t) : t.Inv := by
  cases hF : i.form with
  | none => exact inv_exec_event hF h e
  | some F => exact inv_exec_form hF h e

/-! ### Turns -/

/-- A warp that goes is tried in a state that meets the invariant, and so leaves one. -/
theorem inv_tryWarp {s : State} {c : Crew} {wi : Nat} {w : Warp} {y : Try} {x : Hold} (h : s.Inv)
    (e : s.tryWarp c wi w = .goes y x) : y.Inv := by
  unfold State.tryWarp at e
  split at e
  · cases e
  · split at e
    · cases e
    · exact inv_tryGroups _ _ _ _ _ _ _ h e

theorem inv_issueFrom {core q : Nat} {ws : List (Crew × Nat × Warp)} {s t : State} (h : s.Inv)
    (e : State.issueFrom core q ws s = .next t) : t.Inv := by
  induction ws generalizing s with
  | nil => exact inv_of_next e h
  | cons x rest ih =>
    obtain ⟨c, wi, w⟩ := x
    unfold State.issueFrom at e
    split at e
    · exact ih h e
    · exact ih (inv_State_noteHold _ _ _ _ h) e
    · rename_i y x hgo
      have hy := inv_tryWarp h hgo
      split at e
      · exact ih h e
      · split at e
        · exact inv_of_next e h
        · exact inv_of_next e (inv_State_noteIssue _ _ _ _ _ _ _ _ _ _ _ hy)
        · split at e
          · rename_i hexec
            exact inv_of_next e (inv_State_noteIssue _ _ _ _ _ _ _ _ _ _ _ (inv_exec hy hexec))
          · rename_i hno
            exact absurd e (hno t)

theorem inv_issueTurn {core q : Nat} {s t : State} (h : s.Inv) (e : s.issueTurn core q = .next t) : t.Inv := by
  unfold State.issueTurn at e
  split at e
  · exact inv_of_next e h
  · exact inv_issueFrom (inv_State_openCycle _ _ _ h) e

/-- Every turn keeps the invariant. -/
theorem inv_take {turn : Turn} {s t : State} (h : s.Inv) (e : s.take turn = .next t) : t.Inv := by
  cases turn with
  | act i =>
    simp only [State.take] at e
    split at e
    · exact inv_of_next e h
    · exact inv_exec h e
  | issue core q => exact inv_issueTurn h e
  | cycles core n => exact inv_of_next e (inv_State_passCycles _ _ _ h)
  | hostStore a bs => exact inv_of_next e (inv_State_store _ _ _ h)
  | directory half =>
    refine inv_of_next e ?_
    split
    · exact inv_State_startRecall _ _ _ h
    · exact h

/-- Settles O58: the next turn is chosen, taken and settled, and each of the three keeps the invariant. -/
theorem stepsKeepTheInvariant : Obligations.StepsKeepTheInvariant := by
  unfold Obligations.StepsKeepTheInvariant
  intro s t h e
  have hnext := inv_State_nextTurn s h
  unfold step at e
  split at e
  · rename_i u hturn
    exact inv_of_next e (inv_of_eq_snd hturn hnext)
  · rename_i turn u hturn
    have hu := inv_of_eq_snd hturn hnext
    split at e
    · rename_i v htake
      exact inv_of_next e (inv_State_settleTurn _ (inv_take hu htake))
    · rename_i hno
      exact absurd e (hno t)

/-- Settles O59: at reset the memory is empty, and every table has its length. -/
theorem resetMeetsTheInvariant : Obligations.ResetMeetsTheInvariant :=
  ⟨rfl, List.length_replicate, rfl, List.length_replicate, by decide⟩

end Sys2Proof.Machine

/-! PROOFS. 17 R474, R476, R482: a trap leads its thread to the handler of its launch, or halts it. -/

namespace Sys2Proof.Machine

open Sys2Proof.Claims

section

/-! ### Entering a line of the fetch buffer (02 R51, R53; 09 R267) -/

/-- LW.TGT of a slot is a bit of the line. -/
theorem tgtBit_eq_getLsbD (b : LineBits) {n : Nat} (h : n < 5) : tgtBit b n = b.getLsbD (480 + 27 + n) := by
  have hbit : bitNat (lineWord b) (27 + n) = (lineWord b).testBit (27 + n) := by
    rw [Nat.testBit_eq_decide_div_mod_eq, bitNat]
    rfl
  rw [tgtBit, hbit, lineWord, BitVec.testBit_toNat, BitVec.getLsbD_extractLsb', decide_eq_true (by omega), Bool.true_and,
    Nat.add_assoc]

/-- The line of an address, as the claims name it. -/
theorem toNat_eq_iff_eq_lineBase (x pc : VAddr) : (x.toNat == pc.toNat / 64 * 64) = (x == lineBase pc) := by
  have hpc := pc.isLt
  rw [Bool.eq_iff_iff, beq_iff_eq, beq_iff_eq, lineBase, ← BitVec.toNat_inj, BitVec.toNat_ofNat, Nat.mod_eq_of_lt (by omega)]

/-- What a slot that threads may enter is: its line is buffered and sound, and the slot is a target. -/
theorem entryAt_eq_some {w : Warp} {pc : VAddr} {ln : Line} (h : entryAt w pc.toNat = some ln) :
    (w.fbuf.find? fun y => y.va == lineBase pc) = some ln ∧ lparOk ln.bits = true ∧ lineIllegal ln.bits = false ∧
      slotIndex pc = some (pc.toNat % 64 / 12) ∧ tgtBit ln.bits (pc.toNat % 64 / 12) = true := by
  unfold entryAt at h
  split at h
  · cases h
  · rename_i hslot
    simp only [toNat_eq_iff_eq_lineBase] at h
    split at h
    · rename_i l2 hfind
      split at h
      · rename_i hgood
        cases h
        simp only [Bool.and_eq_true, Bool.not_eq_true'] at hgood
        obtain ⟨⟨hpar, hill⟩, htgt⟩ := hgood
        refine ⟨hfind, hpar, hill, if_pos (by omega), ?_⟩
        rw [tgtBit_eq_getLsbD _ (by omega), htgt]
      · cases h
    · cases h

variable {s : State} {id w l : Nat} {c : Crew} {x : Warp}

theorem State.warps_of_warp? (hc : s.crew? id = some c) (hw : s.warp? id w = some x) : c.warps[w]? = some x := by
  simpa [State.warp?, hc] using hw

theorem State.warp?_of_thread? {t : Thread} (ht : s.thread? id w l = some t) :
    ∃ y, s.warp? id w = some y ∧ y.threads[l]? = some t := Option.bind_eq_some_iff.mp ht

/-- A line that the fetch buffer holds is entered with no change. -/
theorem State.enterLine_of_buffered {pc : VAddr} {ln : Line} (hw : s.warp? id w = some x)
    (hfind : (x.fbuf.find? fun y => y.va == lineBase pc) = some ln) (hpar : lparOk ln.bits = true)
    (hill : lineIllegal ln.bits = false) : s.enterLine id w pc = (s, .ok ln) := by
  obtain ⟨c, hc, hx⟩ := Option.bind_eq_some_iff.mp hw
  simp [State.enterLine, hc, hx, hfind, hpar, hill]

end

section

/-! ### Trap entry (17 R474, R482) -/

variable {s : State} {id w l : Nat} {c : Crew} {th : Thread}

/-- Fields side by side, as a number. -/
theorem toNat_append_eq_add {m n : Nat} (x : BitVec m) (y : BitVec n) : (x ++ y).toNat = x.toNat * 2 ^ n + y.toNat := by
  rw [BitVec.toNat_append, ← Nat.shiftLeft_add_eq_or_of_lt y.isLt, Nat.shiftLeft_eq]

/-- The word of CAUSE, field by field (17 R482). -/
theorem Trap.word_eq_append (tr : Trap) (h : tr.cause < 256) :
    tr.word = BitVec.ofNat 16 tr.code ++ (0 : BitVec 11) ++ BitVec.ofNat 5 tr.info ++ (0 : BitVec 24) ++ BitVec.ofNat 8 tr.cause := by
  apply BitVec.eq_of_toNat_eq
  simp only [Trap.word, toNat_append_eq_add, BitVec.ofNat_eq_ofNat, BitVec.toNat_ofNat]
  omega

/-- Two changes of one thread are one. -/
theorem State.setThread_setThread (f g : Thread → Thread) :
    (s.setThread id w l f).setThread id w l g = s.setThread id w l (g ∘ f) := by
  simp only [State.setThread, State.setWarp_setWarp, Function.comp_def, Warp.setThread, updAt_updAt]

/-- Where a handler can be entered, a thread outside one enters it. -/
theorem State.trap_of_entry {x : Warp} {la : Launch} {ln : Line} {tr : Trap} (hc : s.crew? id = some c)
    (hw : s.warp? id w = some x) (ht : s.thread? id w l = some th) (hla : s.launch? c.launch = some la) (hh : la.handler ≠ 0)
    (hentry : entryAt x la.handler.toNat = some ln) (hout : th.inHandler = false) :
    s.trap id w l tr = s.setThread id w l fun t =>
      { t with
        run := .running, pc := la.handler, line := some ln, fresh := true, owed := false, tpc := tr.pc, tpc0 := tr.pc
        tcause := tr.word, taddr := tr.detail, tmode := tmodeWord none none } := by
  obtain ⟨hfind, hpar, hill, hslot, htgt⟩ := entryAt_eq_some hentry
  have hhandler : s.handlerOf c = la.handler := by simp [State.handlerOf, hla]
  have henter : ∀ f : Thread → Thread,
      (s.setThread id w l f).enterLine id w la.handler = (s.setThread id w l f, .ok ln) := by
    intro f
    refine State.enterLine_of_buffered (x := x.setThread l f) ?_ hfind hpar hill
    rw [State.setThread, State.warp?_setWarp, if_pos ⟨rfl, rfl⟩, hw, Option.map_some]
  simp only [State.trap, State.trapWith, hc, ht, hhandler, hh, hout, Bool.false_eq_true, false_and, or_self, if_false,
    henter, hslot, htgt, if_true, State.setThread_setThread, Function.comp_def]

/-- Settles O34: the handler's line is buffered, so that entering it changes nothing, and the two changes of the thread are
one. That `tpc0` keeps a second copy of the saved PC is the model's choice (log 25). -/
theorem trapsEnterTheHandler : Obligations.TrapsEnterTheHandler := by
  unfold Obligations.TrapsEnterTheHandler
  intro s id w l tr c x th la ln hc hw ht hla hh hentry hout hcause
  rw [State.trap_of_entry hc hw ht hla hh hentry hout, Trap.word_eq_append tr hcause]
  rfl

/-! ### Halts (17 R476) -/

/-- A trap halts a thread whose launch has no handler, and one that traps synchronously in its handler. -/
theorem State.trap_of_halt {tr : Trap} (hc : s.crew? id = some c) (ht : s.thread? id w l = some th)
    (h : s.handlerOf c = 0 ∨ (th.inHandler = true ∧ asyncCause tr.cause = false)) :
    s.trap id w l tr = s.halt id w l tr.cause := by
  have hstops : s.handlerOf c = 0 ∨ (th.inHandler = true ∧ (!asyncCause tr.cause) = true) := by simpa using h
  simp only [State.trap, State.trapWith, hc, ht, if_pos hstops]

/-- The word of a halt: CODE stays, INFO names the cause, CAUSE reads 0x19 (17 R476). -/
theorem haltWord_eq_append (x : DWord) (cause : Nat) :
    BitVec.ofNat 64 (bitsNat x.toNat 63 48 * 2 ^ 48 + cause % 32 * 2 ^ 32 + 0x19) =
      x.extractLsb' 48 16 ++ (0 : BitVec 11) ++ BitVec.ofNat 5 cause ++ (0x19 : BitVec 32) := by
  apply BitVec.eq_of_toNat_eq
  simp only [bitsNat, toNat_append_eq_add, BitVec.ofNat_eq_ofNat, BitVec.toNat_ofNat, BitVec.extractLsb'_toNat, Nat.shiftRight_eq_div_pow]
  omega

/-- The ORIGIN of a core's sequencer without a token (04 R146). -/
theorem coreOrigin_seq (core : Nat) :
    coreOrigin .seq core 0 = BitVec.ofNat 32 (core / 96 % 2 * 2 ^ 26 + core % 256 * 2 ^ 18) := by
  simp [coreOrigin, mkOrigin, Engine.code, Engine.ofDie, dieOfCore]

/-- Settles O35: such a thread halts, which marks it, counts it at its launch and logs it. -/
theorem trapsWithoutHandlerHalt : Obligations.TrapsWithoutHandlerHalt := by
  unfold Obligations.TrapsWithoutHandlerHalt
  intro s id w l tr c th hc ht hcause hstop
  have hhalts : s.handlerOf c = 0 ∨ (th.inHandler = true ∧ asyncCause tr.cause = false) := by
    refine hstop.imp (fun hnone => ?_) fun ⟨hin, h16, h17, h18⟩ => ⟨hin, by simp [asyncCause, h16, h17, h18]⟩
    cases hla : s.launch? c.launch with
    | none => simp [State.handlerOf, hla]
    | some la => simp [State.handlerOf, hla, hnone la hla]
  refine ⟨_, rfl, ?_⟩
  rw [State.trap_of_halt hc ht hhalts]
  simp only [State.halt, hc, ht, haltWord_eq_append, coreOrigin_seq, Option.map_some, Option.getD_some]

end

end Sys2Proof.Machine

/-! PROOFS. 17 R484, R490: a save begins with the crew captured as it stands after CTXSAVE. -/

namespace Sys2Proof.Machine

open Sys2Proof.Claims

/-! ### What a save begins with (17 R484) -/

section

variable {s u : State} {c : Crew} {sv : SaveSt}

theorem State.crew?_id {n : Nat} (hc : s.crew? n = some c) : c.id = n := by
  simpa using List.find?_some hc

/-- The header alone has 256 bytes. -/
theorem AreaDims.le_size (d : AreaDims) : 256 ≤ d.size := by
  simp only [AreaDims.size, AreaDims.at, AreaDims.sizes, List.take, List.foldl]
  omega

/-- Where no operation is concerned, nothing is discarded. -/
theorem State.discardAll_of_none {ending : Bool} {mine : Op → Bool} (h : ∀ o ∈ s.ops, mine o = false) :
    s.discardAll ending mine = (s, 0) := by
  have hnone : s.ops.filter mine = [] := List.filter_eq_nil_iff.mpr fun o ho => by simp [h o ho]
  have hempty : ((List.range 32).flatMap fun _ => ([] : List (Op × Discard))) = [] :=
    List.flatMap_eq_nil_iff.mpr fun _ _ => rfl
  simp [State.discardAll, hnone, hempty]

/-- A save to a writable area, with nothing to discard, captures its crew. -/
theorem State.beginSave_of_writable (hsize : sv.base.toNat + c.area.size ≤ 2 ^ 57) (halign : sv.base.toNat % 4096 = 0)
    (hpages : State.checkPages c ((c.area.size + 4095) / 4096) s sv.base.toNat = (u, true))
    (hfree : ∀ o ∈ (u.settleEntries c).ops, o.captured c.id = false) :
    s.beginSave c sv = (u.settleEntries c).setCrew c.id fun c => { c with save := some { sv with discarded := 0 } } := by
  have hfits : ¬ (2 ^ 57 < sv.base.toNat + c.area.size ∨ sv.base.toNat % 4096 ≠ 0) := by omega
  simp only [State.beginSave, if_neg hfits, hpages, if_true, State.discardAll_of_none hfree]

end

section

/-! ### CTXSAVE (17 R484, R490) -/

/-- A 64-bit operand has 64 bits. -/
theorem Issue.read_64_lt (I : Issue) (l : Nat) (o : Opd) : I.read l o 64 < 2 ^ 64 := by
  unfold Issue.read
  split
  · exact Nat.mod_lt _ (by decide)
  · exact Nat.mod_lt _ (by decide)
  · exact Nat.mod_lt _ (by decide)
  · unfold wrapNat
    omega
  · unfold b2n
    split <;> decide
  · decide

theorem toNat_word (I : Issue) (o : Opd) : (word I o).toNat = I.read I.low o 64 := by
  rw [word, val, BitVec.toNat_ofNat, Nat.mod_eq_of_lt (I.read_64_lt I.low o)]

end

/-- Settles O41: no check of the form stops it, and a save with nothing to discard captures its crew. What a crew's threads
settle first is the model's choice (log 36). -/
theorem savesBegin : Obligations.SavesBegin := by
  unfold Obligations.SavesBegin
  intro f s s1 s2 I h hrange hrec hsize halign hpages hs2 hfree
  subst hs2
  have hcid : I.crew.id = I.cid := State.crew?_id h.issuing.crew
  have hpos := I.crew.area.le_size
  rw [toNat_word] at hsize halign hpages
  have hbase : (BitVec.ofNat 57 (I.read I.low f.a 64)).toNat = I.read I.low f.a 64 := by
    rw [BitVec.toNat_ofNat, Nat.mod_eq_of_lt (by omega)]
  have hword : (word I f.a).setWidth 57 = BitVec.ofNat 57 (I.read I.low f.a 64) :=
    BitVec.eq_of_toNat_eq (by rw [BitVec.toNat_setWidth, toNat_word, BitVec.toNat_ofNat])
  have hnone : (I.lanes.filterMap fun l => (I.indirectOut l).map fun t => (l, t)) = [] :=
    List.filterMap_eq_nil_iff.mpr fun l hl => by simp [hrange l hl]
  have hlow : ¬ 2 ^ 57 ≤ I.read I.low f.a 64 := by omega
  rw [← hcid] at hfree
  show execCtxsave f s = _
  rw [execCtxsave, withIssue_executes h]
  simp only [hnone, List.isEmpty_nil, Bool.not_true, Bool.false_eq_true, if_false, h.issuing.state, hrec, Option.isSome_none,
    if_neg hlow, halign, ne_eq, not_true_eq_false, Issue.done]
  rw [State.beginSave_of_writable (by rw [hbase]; exact hsize) (by rw [hbase]; exact halign) (by rw [hbase]; exact hpages) hfree,
    hcid, hword]

end Sys2Proof.Machine

/-! PROOFS. 17 R483, R484: what a forced save saves into where two crews bear one number. -/

namespace Sys2Proof.Machine

/-- A crew without warps on core 0 whose pre-empt request is open with REMAIN 0, with its save area. -/
def dueCrew (area : VAddr) : Crew where
  id := 1
  launch := 0
  kind := .launch
  core := 0
  cluster := 0
  index := 0
  stage := 0
  dims := (1, 1, 1)
  regs := 8
  csmSize := 0
  slots := 0
  accs := 0
  shapesN := 0
  barsN := 0
  corner := (0, 0)
  rect := (1, 1)
  argp := 0
  lsize := 0
  warps := []
  pend := true
  ctxarea := area

/-- The entry by which page 0 of ASID 0 can be written. -/
def writablePage : TlbEnt := ⟨0, 0, 4096, 0x1000000000000000, 0⟩

/-- Two crews of one number with different areas; core 0 holds the translation of the first one's. -/
def twinCrews : State :=
  { State.reset with cores := [{ dtlb := [writablePage] }], crews := [dueCrew 0, dueCrew 4096] }

theorem twinCrews_checkPages :
    State.checkPages (dueCrew 0) 1 twinCrews 0 = (twinCrews.holdTlb (.data 0) writablePage, true) := rfl

/-- The areas into which the crews of a state are being saved. -/
def State.saveBases (s : State) : List (Option VAddr) := s.crews.map fun c => c.save.map SaveSt.base

/-- Refutes O50: the statement takes the base of each save from the crew that it updates, and the model takes it from the crew
that the number finds first; where a second crew bears the same number, its save has another base. -/
theorem not_savesAndLaunchesEnd : ¬ Obligations.SavesAndLaunchesEnd := by
  unfold Obligations.SavesAndLaunchesEnd
  rintro ⟨h, -⟩
  obtain ⟨hdue, -⟩ := h twinCrews (twinCrews.holdTlb (.data 0) writablePage)
    (twinCrews.holdTlb (.data 0) writablePage) 1 (dueCrew 0) rfl
  have hexec := hdue rfl rfl rfl rfl (by decide) twinCrews_checkPages rfl (by decide)
  have hbases := congrArg (fun r => match r with | Host.Outcome.next t => t.saveBases | _ => []) hexec
  revert hbases
  decide

end Sys2Proof.Machine

/-! PROOFS. 15 R432 to R440, R446 to R448: the host's accesses, recalls, migration, refresh, and a die that fails with nothing
under way. -/

namespace Sys2Proof.Machine

section

variable {s : State} {half n : Nat}

/-! ### One half of a line (15 R432, R433) -/

theorem halvesOf_half (half : Nat) : halvesOf (half * 64) 64 = [half] := by
  have hlast : (half * 64 + 64 - 1) / 64 = half := by omega
  have hfirst : half * 64 / 64 = half := by omega
  rw [halvesOf, if_neg (by decide), hlast, hfirst, Nat.sub_self]
  rfl

theorem halfPart_half (half : Nat) : halfPart (half * 64) 64 half = (half * 64, 64) := by
  simp [halfPart]

/-- A host access changes at most which lines L2 holds before it performs. -/
theorem State.hostTouch_eq (s : State) (key : Nat) : ∃ lines, s.hostTouch key = { s with resident := lines } := by
  unfold State.hostTouch State.touchTile
  split
  · exact ⟨_, rfl⟩
  · split <;> exact ⟨_, rfl⟩

@[simp] theorem State.setHalf_hostRefused (s : State) (half : Nat) (st : Option HalfSt) (k : Nat) :
    (s.setHalf half st).hostRefused k = s.hostRefused k := rfl

@[simp] theorem State.setHalf_salvaged (s : State) (half : Nat) (st : Option HalfSt) (k : Nat) :
    (s.setHalf half st).salvaged k = s.salvaged k := rfl

/-- Without a refusal, salvage or poison a read answers with the bytes. -/
theorem State.hostReadPart_clean (hok : s.hostRefused half = false) (hlive : s.salvaged (half * 64) = none)
    (hclean : s.isPoisoned (half * 64) n = false) :
    s.hostReadPart (half * 64) n = (s.hostTouch (half * 64)).emit (.hostData (s.bytes (half * 64) n) false) := by
  obtain ⟨lines, htouch⟩ := s.hostTouch_eq (half * 64)
  have hok' : { s with resident := lines }.hostRefused half = false := hok
  have hlive' : { s with resident := lines }.salvaged (half * 64) = none := hlive
  have hclean' : { s with resident := lines }.isPoisoned (half * 64) n = false := hclean
  have hkey : half * 64 / 64 = half := Nat.mul_div_cancel _ (by decide)
  simp only [State.hostReadPart, htouch, hkey, hok', hlive', hclean', Option.isSome_none, Bool.false_eq_true, if_false]
  rfl

/-- Without a refusal or salvage a write without poison stores its bytes. -/
theorem State.hostWritePart_clean {bs : List Byte} (hok : s.hostRefused half = false) (hlive : s.salvaged (half * 64) = none) :
    s.hostWritePart (half * 64) bs false = (s.hostTouch (half * 64)).store (half * 64) bs := by
  have hkey : half * 64 / 64 = half := Nat.mul_div_cancel _ (by decide)
  simp only [State.hostWritePart, hkey, hok, hlive, Option.isSome_none, Bool.false_eq_true, if_false]

/-! ### An access that nothing holds (15 R432 to R434, R436) -/

theorem State.hostAsks_does {a : HostAccess} (hin : s.hostInside a = true) (hfree : s.hostHeld a s.nextId = false) :
    s.hostAsks a = .next (s.hostDoes a) := by
  simp only [State.hostAsks, hin, hfree, Bool.not_true, Bool.false_eq_true, if_false]

theorem State.hostAsks_waits {a : HostAccess} (hin : s.hostInside a = true) (hheld : s.hostHeld a s.nextId = true) :
    s.hostAsks a = .next { s with hostWaits := s.hostWaits ++ [⟨s.nextId, a⟩], nextId := s.nextId + 1 } := by
  simp only [State.hostAsks, hin, hheld, Bool.not_true, Bool.false_eq_true, if_false, if_true]

theorem State.hostAsks_read_unready (h : s.bar0.ready = false) (offset : Nat) :
    s.hostAsks (.read offset n) = .next (s.emit (.hostData [] true)) := by
  simp only [State.hostAsks, State.hostInside, h, Bool.false_and, Bool.not_false, if_true]

/-- After READY an access that names one half performs when nothing holds the half. -/
theorem State.hostAsks_half {a : HostAccess} (hready : s.bar0.ready = true) (hfree : s.hostHeld (.evict half) s.nextId = false)
    (ha : a = .shared half ∨ a = .own half ∨ (∃ bs, a = .writeBack half bs) ∨ a = .evict half) :
    s.hostAsks a = .next (s.hostDoes a) := by
  have hin : ∀ b, (s.bar0.ready && b) = b := fun b => by rw [hready, Bool.true_and]
  rcases ha with rfl | rfl | ⟨bs, rfl⟩ | rfl <;> exact State.hostAsks_does (hin true) hfree

theorem State.hostAsks_read_half (hready : s.bar0.ready = true) (hlt : half < 2 ^ 33) (hok : s.hostRefused half = false)
    (hlive : s.salvaged (half * 64) = none) (hfree : s.hostHeld (.read (half * 64) 64) s.nextId = false)
    (hclean : s.isPoisoned (half * 64) 64 = false) :
    s.hostAsks (.read (half * 64) 64) = .next ((s.hostTouch (half * 64)).emit (.hostData (s.bytes (half * 64) 64) false)) := by
  have hin : s.hostInside (.read (half * 64) 64) = true := by
    simp only [State.hostInside, hready, Bool.true_and, decide_eq_true_eq]
    omega
  rw [State.hostAsks_does hin hfree, State.hostDoes, halvesOf_half, List.foldl_cons, List.foldl_nil, halfPart_half,
    State.hostReadPart_clean hok hlive hclean]

theorem State.hostAsks_write_half {bs : List Byte} (hready : s.bar0.ready = true) (hlt : half < 2 ^ 33)
    (hok : s.hostRefused half = false) (hlive : s.salvaged (half * 64) = none) (hlen : bs.length = 64)
    (hfree : s.hostHeld (.write (half * 64) bs false) s.nextId = false) :
    s.hostAsks (.write (half * 64) bs false) = .next ((s.hostTouch (half * 64)).store (half * 64) bs) := by
  have hin : s.hostInside (.write (half * 64) bs false) = true := by
    simp only [State.hostInside, hready, hlen, Bool.true_and, decide_eq_true_eq]
    omega
  have htake : (bs.drop (half * 64 - half * 64)).take 64 = bs := by
    rw [Nat.sub_self, List.drop_zero, ← hlen, List.take_length]
  rw [State.hostAsks_does hin hfree, State.hostDoes, hlen, halvesOf_half, List.foldl_cons, List.foldl_nil]
  simp only [halfPart_half, htake]
  rw [State.hostWritePart_clean hok hlive]

/-! ### Halves of a SHARED region (15 R433, R434) -/

theorem State.halfOpen_of_shared (hready : s.bar0.ready = true) (hlt : half < 2 ^ 33)
    (hmode : s.regionMode (half / 2 ^ 15) = .shared) : s.halfOpen half = true := by
  rw [State.halfOpen, hready, decide_eq_true hlt, hmode]
  rfl

theorem State.hostDoes_shared (hopen : s.halfOpen half = true) (hx : s.halfAt half ≠ some .hx) (hok : s.hostRefused half = false) :
    s.hostDoes (.shared half) = (s.setHalf half (some .hs)).hostReadPart (half * 64) 64 := by
  simp only [State.hostDoes, hopen, hx, hok, Bool.not_true, Bool.false_eq_true, or_self, if_false]

theorem State.hostDoes_own (hopen : s.halfOpen half = true) (hx : s.halfAt half ≠ some .hx) (hok : s.hostRefused half = false) :
    s.hostDoes (.own half) = (s.setHalf half (some .hx)).hostReadPart (half * 64) 64 := by
  simp only [State.hostDoes, hopen, hx, hok, Bool.not_true, Bool.false_eq_true, or_self, if_false]

theorem State.hostDoes_writeBack {bs : List Byte} (hopen : s.halfOpen half = true) (hx : s.halfAt half = some .hx)
    (hlen : bs.length = 64) (hok : s.hostRefused half = false) (hlive : s.salvaged (half * 64) = none) :
    s.hostDoes (.writeBack half bs) = ((s.setHalf half none).hostTouch (half * 64)).store (half * 64) bs := by
  simp only [State.hostDoes, hopen, hx, hlen, Bool.not_true, Bool.false_eq_true, ne_eq, not_true_eq_false, or_self, if_false]
  exact State.hostWritePart_clean hok hlive

theorem State.hostDoes_evict (hopen : s.halfOpen half = true) : s.hostDoes (.evict half) = s.setHalf half none := by
  simp only [State.hostDoes, hopen, if_true]

/-! ### Recalls (15 R434) -/

variable {r : Recall}

theorem exec_recallTimeout_first (hr : (s.recalls.find? fun r => r.half == half) = some r) (hsent : r.sent = 1) :
    ∃ u : State, exec (.recallTimeout half) s = .next (u.emit (.snoop half)) ∧
      u.recalls = updWhere (fun r => r.half == half) (fun r => { r with sent := 2 }) s.recalls := by
  refine ⟨{ s with recalls := updWhere (fun r => r.half == half) (fun r => { r with sent := 2 }) s.recalls }.logErr 1 6
    (homeOrigin (half * 64)) (BitVec.ofNat 64 (half / 2 * 128)) 0 0, ?_, ?_⟩
  · show execRecallTimeout half s = _
    simp only [execRecallTimeout, hr, hsent, Nat.le_refl, if_true]
  · rw [State.logErr_frame]

theorem exec_recallResponse_clean (hr : (s.recalls.find? fun r => r.half == half) = some r) (hs : s.halfAt half = some .hs) :
    exec (.recallResponse half none) s =
      .next ((s.setHalf half (if r.share then some .hs else none)).wakeRecall half) := by
  show execRecallResponse half none s = _
  simp only [execRecallResponse, hr, hs, Option.isSome_some, Bool.and_true]

theorem exec_recallResponse_modified {bs : List Byte} (hr : (s.recalls.find? fun r => r.half == half) = some r)
    (hx : s.halfAt half = some .hx) (hlen : bs.length = 64) :
    exec (.recallResponse half (some bs)) s =
      .next (((s.store (half * 64) bs).setHalf half (if r.share then some .hs else none)).wakeRecall half) := by
  have htake : (bs ++ s.bytes (half * 64 + bs.length) (64 - bs.length)).take 64 = bs := List.take_left' hlen
  show execRecallResponse half (some bs) s = _
  simp only [execRecallResponse, hr, hx, htake, Option.isSome_some, Bool.and_true]

/-! ### Migration and refresh (15 R437, R438, R447, R448) -/

theorem exec_migration {line die slice : Nat} (hmay : s.mayMigrate line = true) (hdie : die < 2) (hslice : slice < 48)
    (hserves : s.dieServes die = true) (hmove : ¬ (die = keyDie (line * 128) ∧ slice = s.sliceOf line)) :
    exec (.migration line die slice) s = .next (s.migrate line die slice) := by
  show execMigration line die slice s = _
  simp only [execMigration, hmay, hserves, Nat.not_le.mpr hdie, Nat.not_le.mpr hslice, hmove, Bool.not_true, Bool.false_eq_true,
    or_self, if_false]

theorem exec_migrationReturn {line : Nat} (h : (s.moved.any fun e => e.1 == line) = true) :
    exec (.migrationReturn line) s = .next (s.returnLine line) := congrArg _ (if_pos h)

theorem exec_bankRefresh_postponed {die sub bank : Nat}
    (h : (cellGet (bankKey sub bank) (s.die die).refresh).getD 0 < 8) :
    exec (.bankRefresh die sub bank true) s =
      .next (s.setRefresh die (bankKey sub bank) ((cellGet (bankKey sub bank) (s.die die).refresh).getD 0 + 1)) := by
  show execBankRefresh die sub bank true s = _
  simp only [execBankRefresh, h, if_true]

/-! ### A die fails with nothing under way (15 R439, R440) -/

variable {die : Nat}

theorem State.strandedLines_of_moved_nil (h : s.moved = []) (survivor : Nat) : s.strandedLines survivor die = [] := by
  simp [State.strandedLines, h]

theorem State.lostLines_of_moved_nil (h : s.moved = []) (survivor : Nat) : s.lostLines survivor die = [] := by
  simp [State.lostLines, h]

/-- The launches that a die's failure ends: those alive with a crew on it. -/
def State.launchesHit (s : State) (die : Nat) : List Launch :=
  s.launches.filter fun l => l.alive && s.crews.any fun c => c.launch == l.num && dieOfCore c.core == die

theorem State.launchesHit_of_off (h : ∀ c ∈ s.crews, dieOfCore c.core ≠ die) : s.launchesHit die = [] :=
  List.filter_eq_nil_iff.mpr fun l _ => by
    have hnone : (s.crews.any fun c => c.launch == l.num && dieOfCore c.core == die) = false :=
      List.any_eq_false.mpr fun c hc => by simp [h c hc]
    simp [hnone]

/-- The saves of the crews on a die are abandoned. -/
def State.unsave (s : State) (die : Nat) : State :=
  { s with crews := s.crews.map fun c => if dieOfCore c.core == die then { c with save := none } else c }

theorem State.unsave_of_off (h : ∀ c ∈ s.crews, dieOfCore c.core ≠ die) : s.unsave die = s := by
  have hmap : (s.crews.map fun c => if dieOfCore c.core == die then { c with save := none } else c) = s.crews.map id :=
    List.map_congr_left fun c hc => if_neg (by simp [h c hc])
  rw [State.unsave, hmap, List.map_id]

/-- The state that the failure of a die leaves when nothing waits on it: the die marked, and its recalls forgotten. -/
def State.dieGone (s : State) (die : Nat) : State :=
  State.logErr
    { (s.setDie die fun d => { d with failed := true, slices := List.replicate 48 {}, faults := [], v1 := [] }) with
      recalls := s.recalls.filter fun r => keyDie (r.half * 64) != die }
    2 13 (dieOrigin .hme die 0) 0 0 (BitVec.ofNat 64 die)

theorem State.dieGone_crews (s : State) (die : Nat) : (s.dieGone die).crews = s.crews := by
  rw [State.dieGone, State.logErr_frame]
  rfl

theorem exec_dieFailure_idle (hdie : die < 2) (hup : (s.die die).failed = false) (hmoved : s.moved = [])
    (hacts : (s.die die).acts = []) (hops : ∀ o ∈ s.ops, s.waitsOn die o = false)
    (hcrews : ∀ c ∈ s.crews, dieOfCore c.core ≠ die) :
    exec (.dieFailure die) s = .next (s.dieGone die) := by
  have hwaiting : s.ops.filter (fun o => s.waitsOn die o) = [] :=
    List.filter_eq_nil_iff.mpr fun o ho => by simp [hops o ho]
  have hoff : ∀ c ∈ (s.dieGone die).crews, dieOfCore c.core ≠ die := by
    rwa [State.dieGone_crews]
  have hexec : exec (.dieFailure die) s = .next ((s.dieGone die).unsave die) := by
    show execDieFailure die s = _
    simp only [execDieFailure, Nat.not_le.mpr hdie, hup, Bool.false_eq_true, or_self, if_false,
      State.strandedLines_of_moved_nil hmoved, State.lostLines_of_moved_nil hmoved, List.foldl_nil, hacts, hwaiting, List.map_nil]
    show Host.Outcome.next ((((s.dieGone die).launchesHit die).foldl (fun u l => u.beginEnd l.num 3 none) (s.dieGone die)).unsave die) = _
    rw [State.launchesHit_of_off hoff, List.foldl_nil]
  rw [hexec, State.unsave_of_off hoff]

end

/-- Settles O51: each event by what it comes to when nothing stands in its way. How early reads and held accesses answer is the
model's choice (log 43), and so are the entry of a failed die, the count of a bank and a line's return (logs 44 to 46). -/
theorem hostAndHomeEvents : Obligations.HostAndHomeEvents := by
  unfold Obligations.HostAndHomeEvents
  refine fun s => ⟨fun hready half hlt hok hlive => ⟨?read, ?write⟩, fun a => State.hostAsks_waits, ?unready,
    fun half hready hlt hmode hfree => ⟨?take, ?writeBack, ?evict⟩,
    fun half r hr => ⟨exec_recallTimeout_first hr, exec_recallResponse_clean hr, fun bs => exec_recallResponse_modified hr⟩,
    fun line die slice => exec_migration, fun line => exec_migrationReturn,
    fun die sub bank => ⟨exec_bankRefresh_postponed, rfl, rfl⟩, fun die => exec_dieFailure_idle⟩
  case read => exact State.hostAsks_read_half hready hlt hok hlive
  case write => exact fun bs => State.hostAsks_write_half hready hlt hok hlive
  case unready => exact fun hready offset n => State.hostAsks_read_unready hready offset
  case take =>
    intro hx hok
    have hopen := State.halfOpen_of_shared hready hlt hmode
    show s.hostAsks (.shared half) = _ ∧ s.hostAsks (.own half) = _
    rw [State.hostAsks_half hready hfree (.inl rfl), State.hostAsks_half hready hfree (.inr (.inl rfl)),
      State.hostDoes_shared hopen hx hok, State.hostDoes_own hopen hx hok]
    exact ⟨rfl, rfl⟩
  case writeBack =>
    intro bs hx hlen hok hlive
    have hopen := State.halfOpen_of_shared hready hlt hmode
    show s.hostAsks (.writeBack half bs) = _
    rw [State.hostAsks_half hready hfree (.inr (.inr (.inl ⟨bs, rfl⟩))), State.hostDoes_writeBack hopen hx hlen hok hlive]
  case evict =>
    show s.hostAsks (.evict half) = _
    rw [State.hostAsks_half hready hfree (.inr (.inr (.inr rfl))),
      State.hostDoes_evict (State.halfOpen_of_shared hready hlt hmode)]

end Sys2Proof.Machine

/-! PROOFS. 16 R462, R464, R466; 18 R495, R496: the registers that are written by their own events, and what the rings take. -/

namespace Sys2Proof.Machine

section

variable {s : State} {die : Nat}

/-! ### Registers (16 R462, 15 R449, 18 R495) -/

theorem exec_xlrpWrite {x : Word} (h : (x - (s.die die).xlrp).toNat ≤ (s.die die).ringUse) :
    exec (.xlrpWrite die (x.setWidth 64)) s = .next (s.writeXlrp die x) := by
  have hback : (x.setWidth 64 : DWord).setWidth 32 = x := by simp
  have hlow : (x.setWidth 64 : DWord).toNat < 2 ^ 32 := by rw [BitVec.toNat_setWidth]; omega
  have hkeep : ¬ (2 ^ 32 ≤ (x.setWidth 64 : DWord).toNat ∨ (s.die die).ringUse < (x - (s.die die).xlrp).toNat) := by omega
  show execXlrpWrite die (x.setWidth 64) s = _
  rw [execXlrpWrite, hback]
  exact congrArg _ (if_neg hkeep)

/-- A power cap within its limits is taken as it is written. -/
theorem exec_registerWrite_pwrCap {x : DWord} (hlo : 600 ≤ x.toNat) (hhi : x.toNat ≤ 2400) :
    exec (.registerWrite (.bar0 0x48) x) s = .next (s.setBar fun b => { b with pwrCap := x.setWidth 12 }) := by
  have hmod : x.toNat % 4096 = x.toNat := Nat.mod_eq_of_lt (by omega)
  have hcut : BitVec.ofNat 12 x.toNat = x.setWidth 12 := BitVec.eq_of_toNat_eq (by simp)
  show Host.Outcome.next (s.writeBar 0x48 x.toNat) = _
  simp only [State.writeBar, hmod, hlo, hhi, and_self, if_true, hcut]

theorem exec_cplheadWrite {x : Word} (hready : s.bar0.ready = true)
    (h : (x - s.bar0.cplHead).toNat ≤ (s.bar0.cplTail - s.bar0.cplHead).toNat) :
    exec (.cplheadWrite x) s = .next (s.setBar fun b => { b with cplHead := x }) := by
  have hkeep : ¬ s.bar0.unread < (x - s.bar0.cplHead).toNat := Nat.not_lt.mpr h
  show Host.Outcome.next (s.writeCplHead x) = _
  rw [State.writeCplHead, if_neg (by simp [hready]), if_neg hkeep]

/-! ### Records, shootdowns and completions (16 R464, R466; 18 R496) -/

theorem exec_v1RecordFlush {r : V1Rec} {rest : List V1Rec} (hv : (s.die die).v1 = r :: rest) (hroom : (s.die die).ringUse < 4096) :
    exec (.v1RecordFlush die) s = .next ((s.setDie die fun d =>
      { d with v1 := rest, faults := updWhere r.holds (fun f => { f with seq := some (s.die die).xlwp.toNat }) d.faults }).ringWrite
        die r.words) := by
  show Host.Outcome.next (s.flushV1 die) = _
  simp only [State.flushV1, hv, hroom, if_true]

theorem exec_tlbsdComplete {n : Nat} {o : Op} {f : Fields} {mode : TlbMode} (ho : s.op? n = some o) (hi : o.instr = .tlbsd f mode)
    (hstart : o.started = true) (hmay : s.mayPerform o = true) (hok : shootRefusal mode (o.arg 0) (o.arg 1) (o.arg 2) = none)
    (hdrained : s.drained (coverOfMode mode (o.arg 2) (o.arg 1) (o.arg 0)) n = true) :
    exec (.tlbsdComplete n) s = .next ((s.shootdown (coverOfMode mode (o.arg 2) (o.arg 1) (o.arg 0))).settle n .done) := by
  show execTlbsdComplete n s = _
  simp only [execTlbsdComplete, ho, hi, hstart, hmay, hok, hdrained, Bool.not_true, Bool.or_self, Bool.false_eq_true, if_false,
    if_true, State.finish]

theorem exec_completionPost {c : Completion} {rest : List Completion} (hc : s.completions = c :: rest)
    (hready : s.bar0.ready = true) (hroom : s.bar0.full = false) :
    exec .completionPost s = .next ((({ s with completions := rest }.store
        (hostMem + s.bar0.cplBase.toNat + 16 * (s.bar0.cplTail.toNat % 2 ^ s.bar0.cplSize.toNat)) c.bytes).setBar fun b =>
      { b with cplTail := b.cplTail + 1 }).emit (.msix (if c.event then 3 else 0))) := by
  show execCompletionPost s = _
  simp only [execCompletionPost, hc, hready, hroom, Bool.not_true, Bool.false_eq_true, or_self, if_false]

end

/-- Settles O52: each write and each event by what it comes to when its checks pass. That a shootdown drains, invalidates and
settles in one act is the model's choice (log 56), and so is the place of the rings (log 13). -/
theorem registersAndRings : Obligations.RegistersAndRings := by
  unfold Obligations.RegistersAndRings
  exact fun s => ⟨fun _ _ => exec_xlrpWrite, fun _ => rfl, fun _ => exec_registerWrite_pwrCap, fun _ => exec_cplheadWrite,
    fun _ _ _ => exec_v1RecordFlush, fun _ _ _ _ => exec_tlbsdComplete, fun _ _ => exec_completionPost⟩

end Sys2Proof.Machine

/-! PROOFS. 18 R496 to R503, R508 to R511; 15 R436, R443: what each command of Ublys comes to when its checks pass. -/

namespace Sys2Proof.Machine

/-! ### The command at the head (18 R496, R497) -/

/-- A command completes with a STATUS and a result. -/
def State.answers (s : State) (c : Cmd) (status result : Nat) : State := s.advanceRing.complete c.tag status result

section

variable {s u : State} {c : Cmd} {opc sub status result : Nat} {body : Cmd → CmdOut}

/-- What the event of a command of this kind comes to is what its body comes to on the command. -/
theorem withCommand_done (hc : s.headCmd = some c) (hwf : c.malformed = false) (hopc : c.opc = opc) (hsub : c.sub = sub)
    (hbody : body c = .done u status result) : withCommand opc sub s body = .next (u.answers c status result) := by
  simp only [withCommand, hc, hwf, hopc, hsub, hbody, Bool.false_eq_true, ne_eq, not_true_eq_false, or_self, if_false,
    State.answers]

theorem withCommand_taken (hc : s.headCmd = some c) (hwf : c.malformed = false) (hopc : c.opc = opc) (hsub : c.sub = sub)
    (hbody : body c = .taken u) : withCommand opc sub s body = .next u.advanceRing := by
  simp only [withCommand, hc, hwf, hopc, hsub, hbody, Bool.false_eq_true, ne_eq, not_true_eq_false, or_self, if_false]

end

section

variable {s : State} {c : Cmd}

theorem hostRange_of_le {a n : Nat} (h : a + n ≤ 2 ^ 51) : hostRange a n = true := decide_eq_true h

/-! ### LAUNCH and LAUNCHCTL (18 R498 to R502) -/

theorem exec_launch {r : LRec} {l : Launch} (hc : s.headCmd = some c) (hwf : c.malformed = false) (hopc : c.opc = 1) (hsub : c.sub = 0)
    (halign : c.word 1 % 64 = 0) (hrange : c.word 1 + 128 ≤ 2 ^ 51) (hdie : s.dieServes 0 = true)
    (hr : r = ⟨s.wordsAt (hostMem + c.word 1) 16⟩)
    (hl : l = r.launch s.nextLaunch (s.nextAsid s.nextLaunch) s.nextId c.tag (s.placementOf r) (s.recipesOf r))
    (hok : s.launchRefused r l = false) (htiles : s.rcmps.filter (fun p => p.1 == l.asid) = []) :
    exec (.launch false) s =
      .next (({ s with launches := s.launches ++ [l], nextLaunch := s.nextLaunch + 1, nextId := s.nextId + 1 }.needRoot
        l.asid).1.answers c 0 s.nextLaunch) := by
  refine withCommand_done hc hwf hopc hsub ?_
  have hnum : l.num = s.nextLaunch := by rw [hl]; rfl
  simp only [halign, hostRange_of_le hrange, hdie, ne_eq, not_true_eq_false, Bool.not_true, Bool.false_eq_true, or_self, if_false,
    ← hr, ← hl, hok, htiles, List.map_nil, List.eraseDups_nil, State.allocReserves, hnum]

theorem exec_launchctlEnd {l : Launch} (hc : s.headCmd = some c) (hwf : c.malformed = false) (hopc : c.opc = 8) (hsub : c.sub = 1)
    (hl : s.launch? (c.word 1) = some l) (halive : l.alive = true)
    (hsaves : (s.crews.any fun k => k.launch == l.num && k.save.isSome) = false) :
    exec .launchctlEnd s = .next (s.beginEnd l.num 1 (some c.tag)).advanceRing := by
  refine withCommand_taken hc hwf hopc hsub ?_
  simp only [hl, halive, hsaves, Bool.not_true, Bool.false_eq_true, or_self, if_false]

/-- A launch without crews has none that a pre-empt request reaches. -/
theorem exec_launchctlPreempt {l : Launch} (hc : s.headCmd = some c) (hwf : c.malformed = false) (hopc : c.opc = 8) (hsub : c.sub = 0)
    (hremain : c.word 2 < 2 ^ 32) (hl : s.launch? (c.word 1) = some l) (halive : l.alive = true)
    (hcrews : ∀ k ∈ s.crews, k.launch ≠ l.num) :
    exec .launchctlPreempt s = .next ((s.setLaunch l.num fun l => { l with st := .preempting }).answers c 0 0) := by
  have hnone : s.crews.filter (fun k => k.launch == l.num && !k.isRecompute) = [] :=
    List.filter_eq_nil_iff.mpr fun k hk => by simp [hcrews k hk]
  refine withCommand_done hc hwf hopc hsub ?_
  simp only [hl, halive, Nat.not_le.mpr hremain, Bool.not_true, Bool.false_eq_true, if_false, State.setLaunch_crews, hnone,
    List.foldl_nil]

/-- A launch without saves and without crews resumes with nothing to load and no crew to start. -/
theorem exec_launchctlResume {l : Launch} (hc : s.headCmd = some c) (hwf : c.malformed = false) (hopc : c.opc = 8) (hsub : c.sub = 2)
    (hl : s.launch? (c.word 1) = some l) (hst : l.st = .preempted) (hsaves : l.saves = [])
    (hcrews : ∀ k ∈ s.crews, k.launch ≠ l.num) :
    exec .launchctlResume s = .next ((s.setLaunch l.num fun l => { l with st := .running }).answers c 0 0) := by
  have halive : l.alive = true := by rw [Launch.alive, hst]
  have hkeep : s.crews.map (fun k => if k.launch = l.num ∧ s.nextId ≤ k.id then { k with heldLoad := false } else k) =
      s.crews.map id := List.map_congr_left fun k hk => if_neg fun h => hcrews k hk h.1
  rw [List.map_id] at hkeep
  refine withCommand_done hc hwf hopc hsub ?_
  simp only [hl, halive, hst, hsaves, Bool.not_true, Bool.false_eq_true, if_false, reduceCtorEq, List.findSome?_nil, List.foldl_nil,
    Resume.ends, State.setLaunch_crews, hkeep, ne_eq, not_true_eq_false]
  rfl

/-! ### MAP, UNMAP and SHOOTDOWN (18 R497; 16 R466) -/

theorem exec_map_page {asid va pa bits code : Nat} (hc : s.headCmd = some c) (hwf : c.malformed = false) (hopc : c.opc = 2)
    (hsub : c.sub = 0) (hasid : asid = c.word 1) (hva : va = c.word 2) (hpa : pa = c.word 3) (hbits : bits = c.word 4 % 512)
    (hcode : code = c.word 4 / 512 % 4) (hn : c.word 5 = 1) (hlo : 1 ≤ asid) (hhi : asid ≤ 4095)
    (hvaEnd : va + pageBytes code ≤ 2 ^ 57)
    (hpaEnd : pa + pageBytes code ≤ 2 ^ 52) (hdie : s.dieServes 0 = true)
    (hdies : ((framesOf pa (pageBytes code)).all fun f => s.dieServes (frameDie f)) = true)
    (htables : s.tables + 5 ≤ Config.tableCount) (hok : s.pageRefused asid va pa code bits = false)
    (hfree : s.launchOfAsid asid = none) :
    exec (.map false) s = .next ((s.mapPage asid va pa code bits).answers c 0 0) := by
  have hknown : knownAsid asid = true := by simp [knownAsid, hlo, hhi]
  have hrange : ¬ (2 ^ 57 < va + 1 * pageBytes code ∨ 2 ^ 52 < pa + 1 * pageBytes code) := by omega
  have hserve : (((List.range 1).map (· * pageBytes code)).flatMap fun d => framesOf (pa + d) (pageBytes code)).map frameDie =
      (framesOf pa (pageBytes code)).map frameDie := by simp
  have hup : (((framesOf pa (pageBytes code)).map frameDie).any fun d => !s.dieServes d) = false := by
    rw [List.any_map, List.any_eq_false]
    exact fun f hf => by simp [List.all_eq_true.mp hdies f hf]
  have hroom : ¬ Config.tableCount < s.tables + 4 * 1 + 1 := by omega
  have hpages : (((List.range 1).map (· * pageBytes code)).any fun d => s.pageRefused asid (va + d) (pa + d) code bits) = false := by
    simp [hok]
  refine withCommand_done hc hwf hopc hsub ?_
  simp only [← hasid, ← hva, ← hpa, ← hbits, ← hcode, hn, hknown, hrange, hdie, hserve, hup, hroom, hpages, hfree, Bool.not_true,
    Bool.false_eq_true, or_self, if_false, false_and]
  simp [State.mapPages1]

theorem exec_unmap {n : Nat} {u : State} (hc : s.headCmd = some c) (hwf : c.malformed = false) (hopc : c.opc = 2) (hsub : c.sub = 1)
    (hshoots : s.shoots = []) (hlo : 1 ≤ c.word 1) (hhi : c.word 1 ≤ 4095) (hn : n = c.word 5 * pageBytes (c.word 4 / 512 % 4))
    (hend : c.word 2 + n ≤ 2 ^ 57) (halign : c.word 2 % pageBytes (c.word 4 / 512 % 4) = 0) (hdie : s.dieServes 0 = true)
    (hu : u = State.unmapFrom (c.word 1) (c.word 2 + n) (n / 4096 + 1) s (c.word 2)) :
    exec .unmap s = .next { u with shoots := u.shoots ++ [HostShoot.mk c.tag true .va (c.word 1) (c.word 2) n] }.advanceRing := by
  have hknown : knownAsid (c.word 1) = true := by simp [knownAsid, hlo, hhi]
  have hidle : s.endShoot true = none := by simp [State.endShoot, hshoots]
  show execUnmap s = _
  rw [execUnmap, hidle]
  refine withCommand_taken hc hwf hopc hsub ?_
  simp only [hknown, ← hn, Nat.not_lt.mpr hend, halign, hdie, ne_eq, not_true_eq_false, Bool.not_true, Bool.false_eq_true, or_self,
    if_false, ← hu]

theorem exec_shootdown_all (hc : s.headCmd = some c) (hwf : c.malformed = false) (hopc : c.opc = 3) (hsub : c.sub = 2)
    (hshoots : s.shoots = []) :
    exec .shootdown s = .next { s with shoots := [⟨c.tag, false, .all, c.word 3, c.word 2, c.word 1⟩] }.advanceRing := by
  have hidle : s.endShoot false = none := by simp [State.endShoot, hshoots]
  have hkind : (s.headCmd.map Cmd.sub).getD 0 = 2 := by rw [hc]; exact hsub
  show execShootdown s = _
  simp only [execShootdown, hidle]
  rw [hkind]
  refine withCommand_taken hc hwf hopc hsub ?_
  simp only [hc, hsub, hshoots, List.nil_append]
  rfl

/-! ### The pod window, bands, code and regions (16 R460; 15 R436, R443; 09 R271) -/

theorem exec_podWindowControl (hc : s.headCmd = some c) (hwf : c.malformed = false) (hopc : c.opc = 2) (hsub : c.sub = 3) :
    exec .podWindowControl s =
      .next ({ s with podReplay := bitNat (c.word 1) 0, podV1fmt := bitNat (c.word 1) 1 }.answers c 0 0) := by
  show execPodWindowControl s = _
  rw [execPodWindowControl]
  exact withCommand_done hc hwf hopc hsub rfl

theorem exec_bandMode {band : Nat} {m : Band} (hc : s.headCmd = some c) (hwf : c.malformed = false) (hopc : c.opc = 2)
    (hsub : c.sub = 2) (hband : band = c.word 1 % 32) (hm : bandOfCode (c.word 1 / 256) = some m) (hdie : s.dieServes (band / 16) = true)
    (hfree : s.bandMapped band = false) (hres : touchesReserved (band * 2 ^ 34) (2 ^ 34) = false) (hnew : s.bandOf (band * 2 ^ 34) ≠ m) :
    exec .bandMode s = .next ((s.setBand band (band * 2 ^ 34) m).answers c 0 0) := by
  have hbase : band / 16 * 2 ^ 38 + band % 16 * 2 ^ 34 = band * 2 ^ 34 := by omega
  refine withCommand_done hc hwf hopc hsub ?_
  simp only [← hband, hbase, hm, hdie, hfree, hres, hnew, Bool.not_true, Bool.false_eq_true, or_self, if_false]

theorem exec_codePublish {u : State} {first last : Nat} (hc : s.headCmd = some c) (hwf : c.malformed = false) (hopc : c.opc = 2)
    (hsub : c.sub = 4) (hlo : 1 ≤ c.word 1) (hhi : c.word 1 ≤ 4095) (hpos : 1 ≤ c.word 3) (hlen : c.word 3 < 2 ^ 32)
    (hend : c.word 2 + c.word 3 ≤ 2 ^ 57) (hfirst : first = c.word 2 / 64) (hlast : last = (c.word 2 + c.word 3 - 1) / 64)
    (hpub : State.hostPublish (c.word 1) first last (last / 64 - first / 64 + 1) (last / 64 - first / 64 + 1) s (first / 64) = (u, 0)) :
    exec (.codePublish false) s = .next (u.answers c 0 0) := by
  have hknown : knownAsid (c.word 1) = true := by simp [knownAsid, hlo, hhi]
  have hrange : ¬ (2 ^ 32 ≤ c.word 3 ∨ 2 ^ 57 ≤ c.word 2 ∨ 2 ^ 57 < c.word 2 + c.word 3) := by omega
  have hsome : ¬ c.word 3 = 0 := by omega
  refine withCommand_done hc hwf hopc hsub ?_
  simp only [hknown, hrange, hsome, ← hfirst, ← hlast, hpub, Bool.not_true, Bool.false_eq_true, if_false]

/-- A region of row-major storage becomes SHARED without a recall: what the host holds of it stays. -/
theorem State.switchRegions_shared_one {a : Nat} (halign : a % 2 ^ 21 = 0) (hband : s.bandOf a = .rowMajor) :
    State.switchRegions .shared 1 s (a / 2 ^ 21) = (s.setRegion (a / 2 ^ 21) .shared, .done) := by
  have hbase : a / 2 ^ 21 * 2 ^ 21 = a := by omega
  rw [State.switchRegions, hbase, if_neg (not_not_intro hband)]
  split <;> rfl

/-- Both ends of an aligned region of HBM4E lie in one die. -/
theorem keyDie_region_end {a : Nat} (halign : a % 2 ^ 21 = 0) (hlt : a < 2 ^ 39) : keyDie (a + 2 ^ 21 - 1) = keyDie a := by
  have hend : a + 2 ^ 21 - 1 < 2 ^ 39 := by omega
  simp only [keyDie, isHbm, hlt, hend, decide_true, if_true]
  omega

theorem exec_region_shared (hc : s.headCmd = some c) (hwf : c.malformed = false) (hopc : c.opc = 4) (hsub : c.sub = 1)
    (hn : c.word 1 = 2 ^ 21) (halign : c.word 2 % 2 ^ 21 = 0) (hlt : c.word 2 < 2 ^ 39) (hdie : s.dieServes (keyDie (c.word 2)) = true)
    (hband : s.bandOf (c.word 2) = .rowMajor) :
    exec .region s = .next ((s.setRegion (c.word 2 / 2 ^ 21) .shared).answers c 0 0) := by
  have hkind : (s.headCmd.map Cmd.sub).getD 0 = 1 := by rw [hc]; exact hsub
  have hok : rangeRefusal (c.word 2) (2 ^ 21) = none := by
    rw [rangeRefusal, if_neg (by omega), if_neg (by omega)]
  show execRegion s = _
  rw [execRegion, hkind]
  refine withCommand_done hc hwf hopc hsub ?_
  dsimp only
  rw [hn, if_neg (by omega), hok, keyDie_region_end halign hlt, hdie, hsub, Nat.div_self (by decide),
    show regionOfSub 1 = .shared from rfl, State.switchRegions_shared_one halign hband]
  rfl

/-! ### ERRLOG, ATTEST and FWLOAD (18 R503, R508 to R511) -/

theorem exec_errlog {es : List ErrEnt} (hc : s.headCmd = some c) (hwf : c.malformed = false) (hopc : c.opc = 5) (hsub : c.sub = 0)
    (hes : es = (s.errlog.filter fun e => c.word 2 ≤ e.seq).take (c.word 3)) (hrange : c.word 1 + 32 * es.length ≤ 2 ^ 51)
    (hdie : s.dieServes 0 = true) :
    exec .errlog s = .next ((s.store (hostMem + c.word 1) (es.flatMap ErrEnt.bytes)).answers c 0 es.length) := by
  refine withCommand_done hc hwf hopc hsub ?_
  simp only [← hes, hostRange_of_le hrange, hdie, Bool.not_true, Bool.false_eq_true, if_false]

theorem exec_attest {msg : List Byte} (hc : s.headCmd = some c) (hwf : c.malformed = false) (hopc : c.opc = 7) (hsub : c.sub = 0)
    (hrange : c.word 1 + 5532 ≤ 2 ^ 51) (hsecret : s.secret = true) (hq : s.flash.q < 2 ^ 30)
    (hmsg : msg = s.measurement [c.word 2, c.word 3, c.word 4, c.word 5]) :
    exec (.attest false) s =
      .next (({ s with flash := { s.flash with q := s.flash.q + 1 } }.store (hostMem + c.word 1)
        (msg ++ attestBytes s.flash.q msg)).answers c 0 0) := by
  show execAttest false s = _
  rw [execAttest]
  refine withCommand_done hc hwf hopc hsub ?_
  simp only [hostRange_of_le hrange, hsecret, Nat.not_le.mpr hq, ← hmsg, Bool.not_true, Bool.false_eq_true, if_false]

section

variable {bs : List Byte} {least : Nat}

/-- Whether an item of firmware may be taken: its signature verifies, and it is not older than the least version. -/
def itemTaken (bs : List Byte) (least : Nat) : Bool := Config.hssVerifies bs && least ≤ Config.itemVersion bs % 2 ^ 32

theorem State.itemOf_of_taken (hbs : bs = s.bytes (hostMem + c.word 1) (c.word 2)) (h : itemTaken bs least = true) :
    s.itemOf c = some bs ∧ ¬ Config.itemVersion bs % 2 ^ 32 < least := by
  obtain ⟨hverifies, hnew⟩ := Bool.and_eq_true_iff.mp h
  refine ⟨?_, Nat.not_lt.mpr (of_decide_eq_true hnew)⟩
  rw [State.itemOf, ← hbs]
  exact if_pos hverifies

theorem State.itemOf_of_not_taken (hbs : bs = s.bytes (hostMem + c.word 1) (c.word 2)) (h : itemTaken bs least = false) :
    s.itemOf c = none ∨ s.itemOf c = some bs ∧ Config.itemVersion bs % 2 ^ 32 < least := by
  rw [State.itemOf, ← hbs]
  rcases Bool.and_eq_false_iff.mp h with hbad | hold
  · exact .inl (if_neg (by simp [hbad]))
  · cases hverifies : Config.hssVerifies bs
    · exact .inl rfl
    · exact .inr ⟨rfl, Nat.lt_of_not_le (of_decide_eq_false hold)⟩

/-- FWLOAD completes with STATUS 0 or 8, as its body does. -/
theorem withCommand_item {sub : Nat} {u : State} {body : Cmd → CmdOut} {good : Bool} (hc : s.headCmd = some c)
    (hwf : c.malformed = false) (hopc : c.opc = 9) (hsub : c.sub = sub) (htaken : good = true → body c = .done u 0)
    (hrefused : good = false → body c = .done s 8) :
    withCommand 9 sub s body = .next (if good then u.answers c 0 0 else s.answers c 8 0) := by
  cases good with
  | true => exact withCommand_done hc hwf hopc hsub (htaken rfl)
  | false => exact withCommand_done hc hwf hopc hsub (hrefused rfl)

theorem exec_fwloadImage (hc : s.headCmd = some c) (hwf : c.malformed = false) (hopc : c.opc = 9)
    (hsub : c.sub = 0) (hrange : c.word 1 + c.word 2 ≤ 2 ^ 51) (hbs : bs = s.bytes (hostMem + c.word 1) (c.word 2)) :
    exec .fwloadImage s =
      .next (if itemTaken bs s.flash.minImage then { s with flash := { s.flash with imageSha := Config.sha256 bs } }.answers c 0 0
        else s.answers c 8 0) := by
  refine withCommand_item hc hwf hopc hsub (fun h => ?_) fun h => ?_
  · obtain ⟨hitem, hnew⟩ := State.itemOf_of_taken hbs h
    simp only [hostRange_of_le hrange, hitem, hnew, Bool.not_true, Bool.false_eq_true, if_false]
  · rcases State.itemOf_of_not_taken hbs h with hitem | ⟨hitem, hold⟩
    · simp only [hostRange_of_le hrange, hitem, Bool.not_true, Bool.false_eq_true, if_false]
    · simp only [hostRange_of_le hrange, hitem, hold, Bool.not_true, Bool.false_eq_true, if_false, if_true]

theorem exec_fwloadRepairMap (hc : s.headCmd = some c) (hwf : c.malformed = false) (hopc : c.opc = 9)
    (hsub : c.sub = 1) (hrange : c.word 1 + c.word 2 ≤ 2 ^ 51) (hbs : bs = s.bytes (hostMem + c.word 1) (c.word 2)) :
    exec .fwloadRepairMap s =
      .next (if itemTaken bs (s.flash.minMap.getD (Config.itemDie bs % 2) 0) then
          (s.loadMap bs (Config.itemDie bs % 2)).answers c 0 0
        else s.answers c 8 0) := by
  refine withCommand_item hc hwf hopc hsub (fun h => ?_) fun h => ?_
  · obtain ⟨hitem, hnew⟩ := State.itemOf_of_taken hbs h
    simp only [hostRange_of_le hrange, hitem, hnew, Bool.not_true, Bool.false_eq_true, if_false]
  · rcases State.itemOf_of_not_taken hbs h with hitem | ⟨hitem, hold⟩
    · simp only [hostRange_of_le hrange, hitem, Bool.not_true, Bool.false_eq_true, if_false]
    · simp only [hostRange_of_le hrange, hitem, hold, Bool.not_true, Bool.false_eq_true, if_false, if_true]

end

end

/-- Settles O53: each command by what its body comes to when every check passes. That MAP may name an address space without a
launch is the model's choice (log 49), and so are the numbers of the bands (log 17) and the checks of the other commands (logs
47, 48, 50, 51 and 53). -/
theorem commandsComplete : Obligations.CommandsComplete := by
  unfold Obligations.CommandsComplete
  intro s c hc hwf answers
  refine ⟨?launch, ?map, fun l => exec_launchctlEnd hc hwf, fun l => exec_launchctlPreempt hc hwf,
    fun l => exec_launchctlResume hc hwf, exec_podWindowControl hc hwf, fun band m => exec_bandMode hc hwf,
    fun u first last => exec_codePublish hc hwf, fun n u => exec_unmap hc hwf, exec_shootdown_all hc hwf, ?region,
    fun es => exec_errlog hc hwf, fun msg => exec_attest hc hwf, ?firmware⟩
  case launch =>
    intro r l u hopc hsub halign hrange hdie hr hl hok htiles hu
    subst hu
    exact exec_launch hc hwf hopc hsub halign hrange hdie hr hl hok htiles
  case map => exact fun asid va pa bits code => exec_map_page hc hwf
  case region => exact exec_region_shared hc hwf
  case firmware =>
    intro bs good hopc hrange hbs refuses
    refine ⟨fun hsub hgood => ?_, fun hsub hgood => ?_⟩
    · subst hgood
      exact (exec_fwloadImage hc hwf hopc hsub hrange hbs).trans (apply_ite _ _ _ _)
    · subst hgood
      exact (exec_fwloadRepairMap hc hwf hopc hsub hrange hbs).trans (apply_ite _ _ _ _)

end Sys2Proof.Machine

/-! PROOFS. 18 R504 to R507, R512: what a reset keeps, and how the arithmetic clock moves. -/

namespace Sys2Proof.Machine

section

variable {s : State} {tr : Training}

/-! ### A cold reset zeroes HBM4E (18 R504) -/

/-- A key that no cell bears holds nothing, in whatever order the cells stand. -/
theorem cellGet_of_notMem {α : Type} {k : Nat} {m : List (Nat × α)} (h : ∀ c ∈ m, c.1 ≠ k) : cellGet k m = none := by
  induction m with
  | nil => rfl
  | cons c cs ih =>
    rw [cellGet, if_neg (h c List.mem_cons_self), ih fun c hc => h c (List.mem_cons_of_mem _ hc), ite_self]

theorem State.cellGet_hostCells {k : Nat} (hk : k < 2 ^ 39) : cellGet k s.hostCells = none :=
  cellGet_of_notMem fun c hc heq => by
    have hout := (List.mem_filter.mp hc).2
    rw [heq, isHbm, decide_eq_true hk] at hout
    exact absurd hout (by decide)

/-- No range that reaches past HBM4E covers a byte of it, when such ranges begin past it. -/
theorem undefAt_filter_hbm {k : Nat} {u : List Undef} (hu : ∀ r ∈ u, 2 ^ 39 < r.hi → 2 ^ 39 ≤ r.lo) (hk : k < 2 ^ 39) :
    undefAt (u.filter fun r => 2 ^ 39 < r.hi) k = none :=
  List.find?_eq_none.mpr fun r hr hcov => by
    obtain ⟨hmem, hhi⟩ := List.mem_filter.mp hr
    have hlo := hu r hmem (of_decide_eq_true hhi)
    simp only [Bool.and_eq_true, decide_eq_true_eq] at hcov
    omega

theorem State.memByte_coldReset {k : Nat} (hu : ∀ r ∈ s.undef, 2 ^ 39 < r.hi → 2 ^ 39 ≤ r.lo) (hk : k < 2 ^ 39) :
    memByte (s.coldReset tr).undef (s.coldReset tr).mem k = 0 := by
  show memByte (s.undef.filter fun r => 2 ^ 39 < r.hi) s.hostCells k = 0
  rw [memByte, State.cellGet_hostCells hk]
  show unlisted _ k = 0
  rw [unlisted, undefAt_filter_hbm hu hk]

/-! ### The commands RESET (18 R504, R507) -/

theorem exec_resetCold (h : s.resetAsked 0 = true) : exec (.resetCold tr) s = .next (s.coldReset tr) := if_pos h

theorem exec_resetWarm (h : s.resetAsked 1 = true) : exec (.resetWarm tr) s = .next (s.warmReset tr) := if_pos h

/-! ### Throttling (18 R512) -/

/-- What the sensors read goes into their registers. -/
def State.senses (s : State) (power junction inlet : Nat) : State :=
  s.setBar fun b => { b with pwrNow := BitVec.ofNat 12 power, junction := BitVec.ofNat 8 junction, inlet := BitVec.ofNat 8 inlet }

/-- The frequency to which a throttle step moves the clock. -/
def State.throttled (s : State) (power junction : Nat) : Nat :=
  if s.bar0.pwrCap.toNat < power ∨ 95 < junction then max 700 (s.clock - 100) else min 2100 (s.clock + 100)

theorem exec_throttleStep (power junction inlet : Nat) :
    exec (.throttleStep power junction inlet) s =
      .next (if s.throttled power junction = s.clock then s.senses power junction inlet
        else { s.senses power junction inlet with clock := s.throttled power junction }.logErr Config.throttleClass Config.throttleKind
          0 0 0 (BitVec.ofNat 64 (s.throttled power junction))) := by
  simp only [State.throttled, State.senses, exec, execThrottleStep, Bool.or_eq_true, decide_eq_true_eq]
  rfl

end

/-- Settles O54: the states that the resets build, and the clock of a throttle step with or without its log entry. What a
warm reset keeps and reports is the model's choice (log 52), and so are the figures of the clock (log 60). -/
theorem resetsAndThrottling : Obligations.ResetsAndThrottling := by
  unfold Obligations.ResetsAndThrottling
  intro s tr
  refine ⟨fun i hi hu => ?cold, fun hask => ?warm, fun power junction inlet => ?throttle⟩
  case cold =>
    have hexec : exec i s = .next (s.coldReset tr) := by
      rcases hi with rfl | ⟨rfl, hask⟩
      · rfl
      · exact exec_resetCold hask
    exact ⟨s.coldReset tr, hexec, rfl, rfl, rfl, rfl, rfl, rfl, rfl, rfl, rfl, rfl, fun k hk => State.memByte_coldReset hu hk⟩
  case warm =>
    exact ⟨s.warmReset tr, exec_resetWarm hask, rfl, rfl, rfl, rfl, rfl, rfl, rfl, rfl, rfl, rfl, rfl⟩
  case throttle =>
    refine ⟨_, exec_throttleStep power junction inlet, ?_⟩
    split
    · next heq => exact ⟨heq.symm, rfl, rfl⟩
    · rw [State.logErr_frame]
      exact ⟨rfl, rfl, rfl⟩

end Sys2Proof.Machine

/-! PROOFS. 18 R504, R506; 15 R432, R443: what stands in the module right after reset. -/

namespace Sys2Proof.Machine

/-- Every core stands as it leaves the factory. -/
theorem reset_mem_cores {c : Core} (hc : c ∈ State.reset.cores) : c = {} := List.eq_of_mem_replicate hc

/-- Both dies stand as they leave the factory, with the map that repairs nothing. -/
theorem reset_mem_dies {d : Die} (hd : d ∈ State.reset.dies) : d = { repair := List.range 96 } :=
  List.eq_of_mem_replicate (n := 2) hd

theorem reset_bandOf (k : Nat) : State.reset.bandOf k = .rowMajor :=
  show (List.replicate 32 Band.rowMajor).getD (keyBand k) .rowMajor = .rowMajor by
    rw [List.getD_eq_getElem?_getD, List.getElem?_replicate]
    split <;> rfl

/-- A byte that no cell lists reads 0 outside every undefined range. -/
theorem memByte_nil (k : Nat) : memByte [] [] k = 0 := rfl

/-- Settles O60: each part of the reset state by what it is built with. That host memory reads 0 as well is the model's choice
(log 5). -/
theorem resetLeavesTheModuleEmpty : Obligations.ResetLeavesTheModuleEmpty := by
  unfold Obligations.ResetLeavesTheModuleEmpty
  refine ⟨rfl, rfl, rfl, rfl, rfl, rfl, rfl, rfl, fun c hc => ?cores, fun d hd => ?dies, fun _ => rfl, fun o _ => reset_bandOf o,
    memByte_nil⟩
  case cores =>
    obtain rfl := reset_mem_cores hc
    decide
  case dies =>
    obtain rfl := reset_mem_dies hd
    decide

end Sys2Proof.Machine
